-- ==== Sys2Proof/Word.lean ====
section
/-! DEFINITION. Words and plain containers of the Doruth model. -/

namespace Sys2Proof

/-- One byte. Multi-byte fields are little-endian (R8). -/
abbrev Byte := BitVec 8
abbrev U16 := BitVec 16
abbrev U32 := BitVec 32
abbrev U64 := BitVec 64

/-- A device ID (R186): X in 2:0, Y in 5:3, RACK in 13:6, bits 15:14 zero. -/
abbrev DevId := BitVec 16

/-- A table from keys to values: pairs with strictly rising keys. -/
abbrev Tbl (α : Type) := List (Nat × α)

/-- A byte memory: address and byte pairs, addresses strictly rising, no listed byte zero. An
unlisted byte reads zero (R486, R60, R306). -/
abbrev Memory := Tbl Byte

end Sys2Proof
end

