-- ==== Sys2Proof/Syntax.lean ====
section
/-! DEFINITION. The commands of the block: one constructor of `Instr` per row of
spec/opcode_table.json, with the operands each row's event carries. -/

namespace Sys2Proof

/-- The two grades (R1). -/
inductive Grade where
  | a
  | b
  deriving DecidableEq, Repr, Inhabited

/-- The units of a core that queue commands (R65, R66). -/
inductive CoreUnit where
  | loader
  | array
  | drain
  | vector
  | mover (m : Nat)
  | port
  deriving DecidableEq, Repr, Inhabited

/-- The trouble a fault report names (R412, R539, R267, R285). -/
inductive Trouble where
  | silent (peer : DevId)
  | dark (peer : DevId)
  | selfFault (peer : DevId)
  | sequencer (part : Nat)
  | unanswered (peer : DevId)
  deriving DecidableEq, Repr, Inhabited

/-- Manager, launch and health messages, carried by MGMT cells (R183). The manual names what each
carries and gives no bit layout (log 22). -/
inductive Mgmt where
  | probe (peer : DevId)
  | probeAnswer (peer : DevId)
  | probeRequest (peer : DevId)
  | faultReport (t : Trouble)
  | heartbeat
  | launch (id : U64) (pos rank : Nat) (spec : List Byte) (subst : List (Nat × DevId)) (deputy : DevId)
  | launchAck (id : U64) (pos : Nat) (status : Byte)
  | launchDone (id : U64) (subst : List (Nat × DevId))
  | launchAbort (id : U64) (status : Byte) (subst : List (Nat × DevId))
  | jobFailed (id : U64)
  | fence (dev : DevId) (epoch : BitVec 4) (rejoin : Bool)
  | fenceAck (dev : DevId)
  | pauseRequest (part : Nat)
  | resumeRequest (part : Nat)
  | pausedReport (part : Nat)
  | resume (part : Nat) (subst : List (Nat × DevId))
  | resumeAck (part : Nat)
  | newRoot (manager deputy : DevId) (firstPod pods : Nat)
  | snapshotRestore (part gen : Nat) (step : U64) (seeds : List U64) (fromBuddy : Option DevId)
      (lost spare : DevId)
  | snapshotReport (dev : DevId) (part gen : Nat) (step : U64) (seeds : List U64)
  | snapHeader (dev : DevId) (part gen : Nat) (step : U64) (seeds crcs : List U64) (table : List Byte)
  | snapAsk (part : Nat) (step : U64) (lost : DevId)
  | snapCopy (part gen : Nat) (step : U64) (seeds crcs : List U64) (table : List Byte)
  deriving DecidableEq, Repr, Inhabited

/-- What a cell carries: 64 payload bytes, a MGMT message, or an UNREACH notice (R189). -/
inductive Payload where
  | bits (x : BitVec 512)
  | mgmt (m : Mgmt)
  | unreach (dest : DevId) (plane : BitVec 4)
  deriving DecidableEq, Repr, Inhabited

/-- A cell (R182). `crcOk` says whether the CRC-32C over bytes 0 to 75 matches bytes 76 to 79. -/
structure Cell where
  dest : DevId
  src : DevId
  vc : BitVec 3
  ty : BitVec 5
  part : BitVec 4
  tag : BitVec 13
  off : BitVec 23
  epoch : BitVec 4
  last : Bool
  retry : Bool
  combine : Bool
  flagStore : Bool
  hops : BitVec 2
  rsvd : BitVec 6
  crcOk : Bool
  pay : Payload
  deriving DecidableEq, Repr, Inhabited

/-- LINK_HELLO control word (R180). -/
structure LinkHello where
  verMin : Byte
  verMax : Byte
  dev : DevId
  port : BitVec 6
  lanes : BitVec 4
  epoch : BitVec 4
  /-- `some (plane, rack)` from a spine port, `none` from a Doruth -/
  spine : Option (BitVec 4 × Byte)
  deriving DecidableEq, Repr, Inhabited

/-- An address of the Ethernet side: IPv6, or IPv4 (R433). -/
inductive IpAddr where
  | v6 (a : BitVec 128)
  | v4 (a : U32)
  deriving DecidableEq, Repr, Inhabited

/-- A UHP message as it arrives in a UDP datagram (R436, R437), with the part's address that the datagram is for. -/
structure UhpMsg where
  hostAddr : IpAddr
  dst : IpAddr
  hostPort : U16
  version : Byte
  ece : Bool
  rsvd : Bool
  session : U16
  len : U16
  seq : U64
  ackno : U64
  body : List Byte
  /-- the IP packet carried CE (R442) -/
  ce : Bool
  deriving DecidableEq, Repr, Inhabited

/-- What a frame holds that has no command of its own. -/
inductive FramePayload where
  /-- a UHP message: its type, whether a reserved field is not zero, its LEN (R437, R438) -/
  | uhp (ty : BitVec 4) (rsvd : Bool) (len : U16)
  | lldp
  /-- a Neighbor Advertisement for this address (R433) -/
  | neighborAdvertisement (target : BitVec 128)
  /-- a DHCPv6 server's offer of an address, and its grant (R493) -/
  | dhcpv6Advertise (server : Nat) (addr : BitVec 128)
  | dhcpv6Reply (addr : BitVec 128)
  | other
  deriving DecidableEq, Repr, Inhabited

/-- An Ethernet frame's properties that R432 and R438 test. -/
structure Frame where
  dst : BitVec 48
  /-- the VLAN IDs of its 802.1Q tags, outermost first -/
  tags : List (BitVec 12)
  length : Nat
  fcsOk : Bool
  pauseOrPfc : Bool
  /-- its IP packet carries CE (R442) -/
  ce : Bool
  payload : FramePayload
  deriving DecidableEq, Repr, Inhabited

/-- A PTP port: clock identity and port number (R435). -/
structure PtpPort where
  clock : U64
  port : U16
  deriving DecidableEq, Repr, Inhabited

/-- The data of an Announce message by which masters are compared (R435, log 79). -/
structure PtpData where
  priority1 : Byte
  clockClass : Byte
  accuracy : Byte
  variance : U16
  priority2 : Byte
  grandmaster : U64
  steps : U16
  deriving DecidableEq, Repr, Inhabited

/-- A PTP message that a slave takes (R435). Times are the sender's stamps in ns. -/
inductive PtpMsg where
  | announce (domain : Byte) (src : PtpPort) (data : PtpData)
  | sync (domain : Byte) (src : PtpPort) (seq : U16) (twoStep : Bool) (t1 : Nat)
  | followUp (domain : Byte) (src : PtpPort) (seq : U16) (t1 : Nat)
  | delayResp (domain : Byte) (src : PtpPort) (seq : U16) (t4 : Nat)
  deriving DecidableEq, Repr, Inhabited

/-- One sampling of the sensors (R530). Temperatures in °C. -/
structure Sensors where
  tj : List Int
  td : List Int
  tIn : Int
  tOut : Int
  vin : Nat
  pin : Nat
  amps : Nat
  deriving DecidableEq, Repr, Inhabited

/-- A mailbox request is named by session, mailbox and tag (R449). -/
structure ReqId where
  session : Nat
  mailbox : Nat
  tag : U32
  deriving DecidableEq, Repr, Inhabited

/-- What a read of memory found (R302, R310). -/
inductive MediaResult where
  | clean
  | corrected (bits : Nat)
  | uncorrectable
  deriving DecidableEq, Repr, Inhabited

/-- The sideband inputs (R511). -/
inductive Sideband where
  | resetIn
  | epo
  | slotId (bit : Nat)
  deriving DecidableEq, Repr, Inhabited

/-- How a boot stage ended (R486, R487). -/
inductive StageOutcome where
  | ok
  | romFail
  | flashFail
  | dramDefect
  /-- the DRAM self-test passed, with these rows, and the rows of these banks, spared: channel and row, channel and bank -/
  | dramSpared (rows banks : List (Nat × Nat))
  deriving DecidableEq, Repr, Inhabited

/-- The four regulated resources (R366). -/
inductive Resource where
  | dram
  | flash
  | fabric
  | host
  deriving DecidableEq, Repr, Inhabited

/-- The device registers by name and instance (R9). The manual gives no register addresses. -/
inductive Reg where
  | partArith (p : Nat) | coreStatus (n : Nat) | coreEcc (n : Nat) | baskCfg
  | gateWs | gateFlags (p : Nat) | gateFault (p : Nat)
  | slcCfg | slcTagres | slcLand (p : Nat) | slcFlags (p : Nat) | slcStatus | slcErr (i : Nat)
  | fabCfg | fabPortCfg (n : Nat) | fabPortStatus (n : Nat) | fabPortCrc (n : Nat)
  | fabDwrrA | fabDwrrB | fabCredit | fabEpoch | fabErr (i : Nat)
  | rmCfg | rmExport (p : Nat) | rmMcast (g : Nat) (hi : Bool) | rmFenced | rmStatus | rmErr (i : Nat)
  | rillCfg | rillStatus | rillLvl (l : Nat) | rillLvlWait (l : Nat) | rillFlags (p : Nat)
  | rillErr (i : Nat)
  | grdCfg (p : Nat) | grdBtab (p : Nat) | grdStatus (p : Nat) | grdFlags (p : Nat)
  | grdErr (p i : Nat) | grdSnap (p : Nat) (hi : Bool) | grdSnapStatus (p : Nat) (hi : Bool)
  | memQuota (p : Nat) | memKvCfg (p w : Nat) | memKvStatus (p : Nat) | memCfg | memStatus
  | memErr (i : Nat) | ftlCfg | ftlStatus | ftlErr (i : Nat)
  | poolCfg (g : Nat) | poolBase (g : Nat) | poolThr (g : Nat) | poolStatus (g : Nat)
  | cstShare (n : Nat) | cstHeld (n : Nat) | cstErr (i : Nat)
  | movStatus (n : Nat) | chanCfg (n : Nat) | chanRing (n : Nat) | chanStatus (n : Nat)
  | engStatus (e : Nat) | dmaErr (i : Nat)
  | partCfg (p : Nat) | schCfg | schWeight (p : Nat) | schWatchdog (p : Nat) | schRes
  | schQstatus (p : Nat) | schErr (i : Nat) | weirRate (p : Nat) | weirBurst (p : Nat)
  | weirWait (p : Nat) | recovCfg | recovStatus
  | detStep (p : Nat) | detSeed (n : Nat) | detAccum (n : Nat) | detDlog (p : Nat)
  | detReject (p : Nat)
  | hostNetCfg | hostIp4 | hostUhpCfg | hostPtpCfg | hostStatus | hostErr (i : Nat)
  | schMgr | partJob (p : Nat) (hi : Bool)
  | bootStatus | bootKeys
  | pwrCfg | pwrStatus | pwrTherm | pwrErr (i : Nat)
  | logCfg | logStatus | logErr (i : Nat)
  deriving DecidableEq, Repr, Inhabited

/-- The commands. `n` is a logical core unless a docstring says physical, `w` a 128-bit tile
command (R64), `p` a partition, `port` a port index (R174), `c` the cell that arrived on it. -/
inductive Instr where
  -- tile commands issued by the task on logical core n (03)
  | ldw (n : Nat) (w : BitVec 128)
  | mm (n : Nat) (w : BitVec 128)
  | accOut (n : Nat) (w : BitVec 128)
  | vop (n : Nat) (w : BitVec 128)
  | cvt (n : Nat) (w : BitVec 128)
  | mov (n : Nat) (w : BitVec 128)
  | wait (n : Nat) (w : BitVec 128)
  | waitSatisfied (n : Nat)
  | sig (n : Nat) (w : BitVec 128)
  | gatePush (n : Nat) (w : BitVec 128)
  | dispatch (n : Nat) (w : BitVec 128)
  | combine (n : Nat) (w : BitVec 128)
  | allReduce (n : Nat) (w : BitVec 128)
  | reduceScatter (n : Nat) (w : BitVec 128)
  | allGather (n : Nat) (w : BitVec 128)
  | broadcast (n : Nat) (w : BitVec 128)
  | allToAll (n : Nat) (w : BitVec 128)
  | barrier (n : Nat) (w : BitVec 128)
  | digestSet (n : Nat) (w : BitVec 128)
  | digestFlush (n : Nat) (w : BitVec 128)
  | step (n : Nat) (w : BitVec 128)
  | endTask (n : Nat) (w : BitVec 128)
  | stepBarrierRelease (p : Nat)
  -- Gate Unit (04)
  | gatePushAccept
  | gateStepOpen (serve : Bool)
  | gateStepDone (p slot : Nat)
  -- Sluice (05)
  | exchangeTagsTaken (p : Nat) (exch : U32)
  | slcCount (port : Nat) (c : Cell)
  | slcDir (port : Nat) (c : Cell)
  | slcGrant (port : Nat) (c : Cell)
  | slcReady (port : Nat) (c : Cell)
  | slcCountAck (port : Nat) (c : Cell)
  | slcData (port : Nat) (c : Cell)
  | slcAck (port : Nat) (c : Cell)
  | slcAbort (port : Nat) (c : Cell)
  | rowsFixed (p : Nat) (exch : U32)
  | rxBufAlloc (p : Nat) (exch : U32) (lslot : Nat)
  | transferComplete (p : Nat) (exch : U32) (src : Nat)
  | exchangeComplete (p : Nat) (exch : U32)
  | returnBuffersHeld (p : Nat) (exch : U32) (src : Nat)
  | homeSum (p : Nat) (exch : U32) (token : Nat)
  | slcTransferTimeout (p : Nat) (exch : U32) (dst : Nat)
  | slcDeferResend (p : Nat) (exch : U32) (dst : Nat)
  | earlyCreditLapse (dev : DevId) (p : Nat) (source : Bool)
  | slcAbortResend (p : Nat) (exch : U32) (dev : DevId)
  | peerQueryTimer (rill : Bool) (p : Nat) (id : U32) (dev : DevId)
  | peerQuery (port : Nat) (c : Cell)
  | peerState (port : Nat) (c : Cell)
  | peerQueryUnanswered (rill : Bool) (p : Nat) (id : U32) (dev : DevId)
  -- fabric (07)
  | bringupStepTimeout (port : Nat)
  | bringupRetryWait (port : Nat)
  | linkHello (port : Nat) (h : LinkHello)
  | laneDegrade (port : Nat) (healthy : BitVec 4)
  | portErrLimit (port : Nat)
  | cellForward (port : Nat) (c : Cell)
  | linkState (port : Nat) (c : Cell)
  | linkStatePeriod
  | unreach (port : Nat) (c : Cell)
  | zexclExpire (dest : DevId) (plane : Nat)
  | rmReduceM (port : Nat) (c : Cell)
  | rmMerge (port : Nat) (c : Cell)
  | mergePairTimeout (src : DevId) (tag : BitVec 13) (p : Nat)
  -- rack memory (08): stream `st` of partition p, a logical core or 64 + a bulk channel
  | load (p st : Nat)
  | store (p st : Nat)
  | flaggedStore (p st : Nat)
  | atomic (p st : Nat)
  | reduceInto (p st : Nat)
  | multicastStore (p st : Nat)
  | streamFence (p st : Nat)
  | targetFence (p st : Nat)
  | rmLoad (port : Nat) (c : Cell)
  | rmStore (port : Nat) (c : Cell)
  | rmAtomic (port : Nat) (c : Cell)
  | rmReduce (port : Nat) (c : Cell)
  | rmMcast (port : Nat) (c : Cell)
  | rmFence (port : Nat) (c : Cell)
  | rmResp (port : Nat) (c : Cell)
  | heldFlagWrite (src : DevId) (tag : BitVec 13) (p : Nat)
  | flagGlobalSend (p st : Nat)
  | rmRequestTimeout (tag : BitVec 13)
  | gwWrite (port : Nat) (c : Cell)
  | gwRead (port : Nat) (c : Cell)
  | gwData (port : Nat) (c : Cell)
  | gwIdleFlush (p st : Nat) (base : U64)
  -- Rill (09)
  | collSlotsReserved (p comm : Nat)
  | chunkStart (p comm chunk : Nat)
  | collData (port : Nat) (c : Cell)
  | collOpen (port : Nat) (c : Cell)
  | collOpenAck (port : Nat) (c : Cell)
  | collAck (port : Nat) (c : Cell)
  | collFree (port : Nat) (c : Cell)
  | collProbe (port : Nat) (c : Cell)
  | collEmpty (port : Nat) (c : Cell)
  | collNak (port : Nat) (c : Cell)
  | collAbort (port : Nat) (c : Cell)
  | collMismatch (port : Nat) (c : Cell)
  | stageSum (p comm stage chunk : Nat)
  | collTransferTimeout (p comm stage chunk peer : Nat)
  | collWindowProbe (p comm stage peer : Nat)
  | collControlResend (p comm kind peer : Nat)
  -- gradient sequencer (10)
  | bucketFilled (p i : Nat)
  | bucketConverted (p i : Nat)
  | shardVerify (p i : Nat)
  | summaryDone (p i : Nat)
  | sequencerVote (p : Nat)
  | commit (p : Nat)
  -- memory tiers (11): `line` a physical DRAM line address, `eb` an erase block
  | dramPatrolScrub (line : Nat) (r : MediaResult)
  | bankSpareDone (chan : Nat)
  | flashPatrolScrub (eb : Nat) (r : MediaResult)
  | kvBoundary (p : Nat)
  | memKvCfgWrite (p : Nat) (v : BitVec 320)
  | waitingRequestGrant (g p : Nat)
  -- DMA (12): `ch` a bulk channel
  | dmaFetch (ch : Nat)
  | copy (ch : Nat)
  | flashRead (ch : Nat)
  | flashWrite (ch : Nat)
  | flashTrim (ch : Nat)
  | fabricRead (ch : Nat)
  | fabricWrite (ch : Nat)
  | alloc (ch : Nat)
  | free (ch : Nat)
  | descriptorComplete (ch : Nat)
  | moverHalfEvent (n m : Nat)
  | moverFullEvent (n m : Nat)
  -- scheduler (13)
  | taskPlace (n : Nat)
  | preempt (p i : Nat)
  | baskingEntry (n : Nat)
  | coreWakeDone (n : Nat)
  | watchdogExpiry (n : Nat)
  | pauseBoundary (p : Nat)
  | partitionPaused (p : Nat)
  | resultPublish (mb win : Nat)
  | resultLeaseExpiry (mb win gen : Nat)
  -- recovery (15): `pc` a physical core
  | coreFail (pc : Nat)
  | coreHang (pc : Nat) (u : CoreUnit)
  | replayStart (pc : Nat) (viewLost : Bool)
  | mgmtProbe (port : Nat) (c : Cell)
  | peerProbeTimeout (peer : DevId)
  | snapshotValid (p : Nat)
  | managerHeartbeat (port : Nat) (c : Cell)
  | heartbeatTimeout
  -- Ethernet and UHP (16)
  | ethFrame (f : Frame)
  | ethLinkDown (forOneSecond : Bool)
  | routerAdvertisement (pfx : U64) (len : Nat) (aFlag : Bool)
  | neighborSolicitation (src target : BitVec 128)
  | echoRequest (src : BitVec 128) (data : List Byte)
  | arpRequest (sender target : U32)
  | lldpTimer
  | ptpSync (m : PtpMsg)
  | ptpHoldover
  | hello (m : UhpMsg)
  | mboxReq (m : UhpMsg)
  | write (m : UhpMsg)
  | readReq (m : UhpMsg)
  | readResp (m : UhpMsg)
  | ack (m : UhpMsg)
  | nak (m : UhpMsg)
  | uhpRetransmitTimeout (session : Nat)
  | ackDelayTimer (session : Nat)
  | stallProbeTimer (session : Nat)
  | uhpIdleTimeout (session : Nat)
  | sessionExpiry (session : Nat)
  -- mailbox commands (16): the outstanding request r is executed
  | openSession (r : ReqId)
  | closeSession (r : ReqId)
  | queryCaps (r : ReqId)
  | partCreate (r : ReqId)
  | partDestroy (r : ReqId)
  | partSetQuota (r : ReqId)
  | partSetWeir (r : ReqId)
  | loadProgram (r : ReqId)
  | unloadProgram (r : ReqId)
  | submit (r : ReqId)
  | abort (r : ReqId)
  | pause (r : ReqId)
  | resume (r : ReqId)
  | saveImage (r : ReqId)
  | imageDone (p : Nat)
  | restoreImage (r : ReqId)
  | mapWindow (r : ReqId)
  | unmapWindow (r : ReqId)
  | readResult (r : ReqId)
  | releaseResult (r : ReqId)
  | gateLoad (r : ReqId)
  | eptUpdate (r : ReqId)
  | commCreate (r : ReqId)
  | commDelete (r : ReqId)
  | stepSet (r : ReqId)
  | seedSet (r : ReqId)
  | digestRead (r : ReqId)
  | logRead (r : ReqId)
  | healthQuery (r : ReqId)
  | fwStage (r : ReqId)
  | fwCommit (r : ReqId)
  | fwCommitReset
  | attest (r : ReqId)
  | managerAssign (r : ReqId)
  | jobLaunch (r : ReqId)
  | fenceDevice (r : ReqId)
  | fenceDeviceRejoin (r : ReqId)
  | regRead (r : ReqId)
  | regWrite (r : ReqId)
  -- manager and launch (17)
  | launchCell (port : Nat) (c : Cell)
  | launchAck (port : Nat) (c : Cell)
  | launchTimeout (id : U64)
  | launchDone (port : Nat) (c : Cell)
  | launchAbort (port : Nat) (c : Cell)
  | barrierArrive (port : Nat) (c : Cell)
  | barrierRelease (port : Nat) (c : Cell)
  | releaseDelay (p : Nat)
  | fence (port : Nat) (c : Cell)
  | jobResume (port : Nat) (c : Cell)
  -- boot, power, sideband (18, 19)
  | resetInAssert
  | resetInRelease
  | bootStageDone (o : StageOutcome)
  | dhcpv6Resolicit
  | inputStable
  | brownOut
  | overVoltage
  | lowInput (vin : Nat)
  | epoAssert
  | epoDeassert
  | sidebandFault (i : Sideband)
  | slotIdSample (v : BitVec 6)
  | slotIdChange (v : BitVec 6)
  | sensorSample (x : Sensors)
  | governorTick
  -- log and registers (20, R11)
  | logRateSecond
  | grdCfgWrite (p : Nat) (v : U64)
  | fabPortCfgWrite (n : Nat) (v : U32)
  | pwrCfgWrite (v : U64)
  | registerWrite (r : Reg) (v : U64)
  -- events added after the others in the table
  | commandComplete (n : Nat) (u : CoreUnit)
  | handoverDone (n : Nat)
  | weirFill (p : Nat) (r : Resource) (bytes : Nat)
  | creditReturn (port : Nat) (cls count : Nat)
  | fecAlignmentLock (port : Nat)
  | ethLinkUp
  | ethTrainRetry
  | heartbeatPeriod
  | probeAnswer (port : Nat) (c : Cell) (failed : List Nat)
  | faultReport (port : Nat) (c : Cell)
  | probeRequest (port : Nat) (c : Cell)
  | fenceAck (port : Nat) (c : Cell)
  | fenceEpochWait (rack : Nat)
  | newRoot (port : Nat) (c : Cell)
  | jobPauseRequest (port : Nat) (c : Cell)
  | jobResumeRequest (port : Nat) (c : Cell)
  | pausedReport (port : Nat) (c : Cell)
  | snapshotRestore (port : Nat) (c : Cell)
  | retryHoldExpiry (engine : Nat) (id peer : Nat)
  | kvCopyDone (p seq : Nat)
  | flashRelocation (eb : Nat)
  | rowSpareDone (row : Nat)
  | tripCooled
  deriving DecidableEq, Repr

end Sys2Proof
end

