-- ==== Sys2Proof/Config.lean ====
section
/-! DEFINITION. What the manual leaves free, as constants without a body, and the sizes it fixes. -/

namespace Sys2Proof

/-- The n-th CHALLENGE: "a fresh unpredictable value generated by Gecko" (R439). Free (log 12). -/
opaque Config.challenge : Nat → BitVec 256

/-- The part's first sequence number in a session, which R439 does not fix. Free (log 12). -/
opaque Config.isn : Nat → BitVec 64

/-- The VERSION byte of a NAK to a sender with whom no UHP version is agreed, by that sender's own VERSION byte
(R437, R439). Free (log 41). -/
opaque Config.nakVersion : Byte → Byte

/-- What of an identity signature RFC 8554 leaves to the secret seed and the identifier, by seed, identifier and leaf:
C and the 67 chain values over a message, and the 20 nodes of the leaf's path. No rule gives the key's values, so the
bytes are free (R495, R499, log 13). -/
opaque Config.identityOts : BitVec 256 → BitVec 128 → Nat → List Byte → BitVec 17408
opaque Config.identityPath : BitVec 256 → BitVec 128 → Nat → BitVec 5120

/-- The 8-byte word of 0xC000_0000_0000 to 0xC0FF_FFFF_FFFF that holds a device register (R292, R452). The
manual gives no register its address. Free (log 6). -/
opaque Config.regSlot : Reg → BitVec 37

/-- The address of a device register. -/
def Config.regAddr (r : Reg) : BitVec 64 := BitVec.ofNat 64 (0xC00000000000 + 8 * (Config.regSlot r).toNat)

/-- The SHA-256 digest of the boot ROM, measurement KIND 1 (R498). Not given by the manual. -/
opaque Config.romDigest : BitVec 256

/-- The DRAM row of a line and the bank of a row, which the manual does not lay out (R304, log 36). -/
opaque Config.dramRow : Nat → Nat
opaque Config.dramBank : Nat → Nat

/-- A byte that a copy leaves where its source overlaps its destination ahead of it: the manual does
not say how far reads run ahead of writes (R333). A function of the distance, the source bytes and the place
alone, so that equal runs give equal bytes (R386). Free (log 37). -/
opaque Config.overlapByte : Nat → List Byte → Nat → Byte

/-- The n-th byte of contents that the manual calls undefined: overlapping output regions (R121, R172), what the replay
of a task stores that is not replayable (R415). Free (log 69). -/
opaque Config.undefinedByte : Nat → Byte

/-- The number of logical cores of a grade (R1). -/
def Grade.lcores : Grade → Nat
  | .a => 32
  | .b => 28

end Sys2Proof
end

