-- ==== Sys2Proof/Machine/Bytes.lean ====
section
/-! DEFINITION. Bit fields (R8, R9), little-endian byte lists, tables and byte memories. -/

namespace Sys2Proof.Machine

/-- Bits [hi:lo] of a number (R9). -/
def nfld (x hi lo : Nat) : Nat := (x >>> lo) % 2 ^ (hi + 1 - lo)

/-- Bits [hi:lo] of a word (R9). -/
def fld (x : BitVec w) (hi lo : Nat) : Nat := nfld x.toNat hi lo

/-- One bit of a word. -/
def bit (x : BitVec w) (i : Nat) : Bool := x.getLsbD i

/-- The word whose listed (lo, value) fields hold their values. -/
def packNat (fs : List (Nat × Nat)) : Nat := fs.foldl (fun a f => a + f.2 <<< f.1) 0

def pack (w : Nat) (fs : List (Nat × Nat)) : BitVec w := BitVec.ofNat w (packNat fs)

def b2n (b : Bool) : Nat := if b then 1 else 0

/-- `old` with the bits of `mask` taken from `new` (writes of RW fields, R11, R12). -/
def merge (mask old new : BitVec w) : BitVec w := (old &&& ~~~mask) ||| (new &&& mask)

/-- A field of ones at [hi:lo]. -/
def ones (w hi lo : Nat) : BitVec w := BitVec.ofNat w ((2 ^ (hi + 1 - lo) - 1) <<< lo)

/-- A read-to-clear count, saturating at `2 ^ w - 1` (R11). -/
def satAdd (x : BitVec w) (n : Nat) : BitVec w := BitVec.ofNat w (min (2 ^ w - 1) (x.toNat + n))

/-! ### Little-endian byte lists (R8) -/

def leNat : List Byte → Nat
  | [] => 0
  | b :: bs => b.toNat + 256 * leNat bs

def toLe : Nat → Nat → List Byte
  | 0, _ => []
  | n + 1, v => BitVec.ofNat 8 v :: toLe n (v / 256)

/-- The little-endian number of `n` bytes at offset `o`. -/
def le (bs : List Byte) (o n : Nat) : Nat := leNat ((bs.drop o).take n)

def toBe (n v : Nat) : List Byte := (toLe n v).reverse

def beNat (bs : List Byte) : Nat := leNat bs.reverse

def pad (n : Nat) (bs : List Byte) : List Byte := (bs ++ List.replicate (n - bs.length) 0).take n

/-- Bytes cut into pieces of `n`, by fuel. -/
def chunksFuel {α : Type} (n : Nat) : Nat → List α → List (List α)
  | 0, _ => []
  | _, [] => []
  | f + 1, xs => xs.take n :: chunksFuel n f (xs.drop n)

def chunks {α : Type} (n : Nat) (xs : List α) : List (List α) := chunksFuel n (xs.length + 1) xs

/-! ### Tables: keys strictly rising -/

def tget {α : Type} : Tbl α → Nat → Option α
  | [], _ => none
  | (k, v) :: t, a => if a = k then some v else tget t a

def tput {α : Type} : Tbl α → Nat → α → Tbl α
  | [], a, v => [(a, v)]
  | (k, w) :: t, a, v =>
    if a < k then (a, v) :: (k, w) :: t
    else if a = k then (a, v) :: t
    else (k, w) :: tput t a v

def tdel {α : Type} : Tbl α → Nat → Tbl α
  | [], _ => []
  | (k, w) :: t, a => if a = k then t else (k, w) :: tdel t a

def tgetD {α : Type} (t : Tbl α) (a : Nat) (d : α) : α := (tget t a).getD d

def tmod {α : Type} (t : Tbl α) (a : Nat) (d : α) (f : α → α) : Tbl α := tput t a (f (tgetD t a d))

def tkeys {α : Type} (t : Tbl α) : List Nat := t.map (·.1)

def tvals {α : Type} (t : Tbl α) : List α := t.map (·.2)

/-- Every key at least `lo` and strictly rising. -/
def Tbl.sortedFrom {α : Type} : Nat → Tbl α → Bool
  | _, [] => true
  | lo, (k, _) :: t => decide (lo ≤ k) && Tbl.sortedFrom (k + 1) t

/-- A table is well-formed when its keys strictly rise. -/
def Tbl.wf {α : Type} (t : Tbl α) : Bool := Tbl.sortedFrom 0 t

/-! ### Byte memories: an unlisted byte reads zero, and no zero is listed (log 8) -/

def mget (m : Memory) (a : Nat) : Byte := tgetD m a 0

def mput (m : Memory) (a : Nat) (b : Byte) : Memory := if b = 0 then tdel m a else tput m a b

/-- The canonical form of a memory. -/
def Memory.wf (m : Memory) : Bool := Tbl.wf m && m.all fun c => decide (c.2 ≠ 0)

def mread (m : Memory) (a n : Nat) : List Byte := (List.range n).map fun i => mget m (a + i)

def mwrite (m : Memory) : Nat → List Byte → Memory
  | _, [] => m
  | a, b :: bs => mwrite (mput m a b) (a + 1) bs

def mnat (m : Memory) (a n : Nat) : Nat := leNat (mread m a n)

/-- Bytes `lo` to `hi - 1` cleared: those entries dropped. -/
def mclear (m : Memory) (lo hi : Nat) : Memory := m.filter fun c => !(lo ≤ c.1 && c.1 < hi)

/-! ### Lists -/

/-- The first element meeting `p` is replaced by `f` of it. -/
def updFirst {α : Type} (p : α → Bool) (f : α → α) : List α → List α
  | [] => []
  | x :: xs => if p x then f x :: xs else x :: updFirst p f xs

/-- The first element meeting `p` is dropped. -/
def dropFirst {α : Type} (p : α → Bool) : List α → List α
  | [] => []
  | x :: xs => if p x then xs else x :: dropFirst p xs

/-- Stable insertion sort by a key. -/
def insertBy {α : Type} (key : α → Nat) (x : α) : List α → List α
  | [] => [x]
  | y :: ys => if key x < key y then x :: y :: ys else y :: insertBy key x ys

def sortBy {α : Type} (key : α → Nat) (xs : List α) : List α :=
  xs.foldl (fun acc x => insertBy key x acc) []

/-- The last `n` elements (a ring of capacity `n` fed at the end). -/
def lastN {α : Type} (n : Nat) (xs : List α) : List α := (xs.reverse.take n).reverse

def inRange (lo n a : Nat) : Bool := decide (lo ≤ a) && decide (a < lo + n)

def bitsSet (n x : Nat) : List Nat := (List.range n).filter fun i => x.testBit i

def divUp (a b : Nat) : Nat := (a + b - 1) / b

def roundUp (a b : Nat) : Nat := divUp a b * b

end Sys2Proof.Machine
end

