-- ==== Sys2Proof/Machine/Crypto.lean ====
section
/-! DEFINITION. Check codes and the cryptography the part applies: CRC-32C (R182), CRC-64/ECMA-182
(R83), SHA-256 and HMAC (R444), AES-256-GCM opening (R445), LMS and HSS verification (R489). The
standards the manual names fix these; their details are taken from the standards (log 14). -/

namespace Sys2Proof.Machine

/-! ### Cyclic codes -/

def crc64Bits : Nat → Nat → Nat
  | 0, c => c
  | n + 1, c =>
    crc64Bits n (if c.testBit 63 then ((c <<< 1) % 2 ^ 64) ^^^ 0x42F0E1EBA9EA3693 else c <<< 1)

/-- CRC-64/ECMA-182: initial value 0, no reflection, no final XOR (R83). -/
def crc64 (bs : List Byte) : Nat := bs.foldl (fun c b => crc64Bits 8 (c ^^^ (b.toNat <<< 56))) 0

def crc32Bits : Nat → Nat → Nat
  | 0, c => c
  | n + 1, c => crc32Bits n (if c.testBit 0 then (c >>> 1) ^^^ 0x82F63B78 else c >>> 1)

/-- CRC-32C, reflected (R182). -/
def crc32c (bs : List Byte) : Nat :=
  (bs.foldl (fun c b => crc32Bits 8 (c ^^^ b.toNat)) 0xFFFFFFFF) ^^^ 0xFFFFFFFF

/-! ### SHA-256 -/

def shaK : List Nat :=
  [0x428A2F98, 0x71374491, 0xB5C0FBCF, 0xE9B5DBA5, 0x3956C25B, 0x59F111F1, 0x923F82A4, 0xAB1C5ED5] ++
  [0xD807AA98, 0x12835B01, 0x243185BE, 0x550C7DC3, 0x72BE5D74, 0x80DEB1FE, 0x9BDC06A7, 0xC19BF174] ++
  [0xE49B69C1, 0xEFBE4786, 0x0FC19DC6, 0x240CA1CC, 0x2DE92C6F, 0x4A7484AA, 0x5CB0A9DC, 0x76F988DA] ++
  [0x983E5152, 0xA831C66D, 0xB00327C8, 0xBF597FC7, 0xC6E00BF3, 0xD5A79147, 0x06CA6351, 0x14292967] ++
  [0x27B70A85, 0x2E1B2138, 0x4D2C6DFC, 0x53380D13, 0x650A7354, 0x766A0ABB, 0x81C2C92E, 0x92722C85] ++
  [0xA2BFE8A1, 0xA81A664B, 0xC24B8B70, 0xC76C51A3, 0xD192E819, 0xD6990624, 0xF40E3585, 0x106AA070] ++
  [0x19A4C116, 0x1E376C08, 0x2748774C, 0x34B0BCB5, 0x391C0CB3, 0x4ED8AA4A, 0x5B9CCA4F, 0x682E6FF3] ++
  [0x748F82EE, 0x78A5636F, 0x84C87814, 0x8CC70208, 0x90BEFFFA, 0xA4506CEB, 0xBEF9A3F7, 0xC67178F2]

def rotr32 (x n : Nat) : Nat := (x >>> n ||| x <<< (32 - n)) % 2 ^ 32

/-- The next schedule word from the last sixteen, newest first. -/
def shaNext (w : List Nat) : Nat :=
  let w2 := w.getD 1 0
  let w7 := w.getD 6 0
  let w15 := w.getD 14 0
  let w16 := w.getD 15 0
  let s0 := rotr32 w15 7 ^^^ rotr32 w15 18 ^^^ (w15 >>> 3)
  let s1 := rotr32 w2 17 ^^^ rotr32 w2 19 ^^^ (w2 >>> 10)
  (w16 + s0 + w7 + s1) % 2 ^ 32

def shaSchedule : Nat → List Nat → List Nat
  | 0, w => w
  | n + 1, w => shaSchedule n (shaNext w :: w)

def shaRound (st : List Nat) (kw : Nat × Nat) : List Nat :=
  match st with
  | [a, b, c, d, e, f, g, h] =>
    let s1 := rotr32 e 6 ^^^ rotr32 e 11 ^^^ rotr32 e 25
    let ch := (e &&& f) ^^^ ((e ^^^ 0xFFFFFFFF) &&& g)
    let t1 := h + s1 + ch + kw.1 + kw.2
    let s0 := rotr32 a 2 ^^^ rotr32 a 13 ^^^ rotr32 a 22
    let mj := (a &&& b) ^^^ (a &&& c) ^^^ (b &&& c)
    [(t1 + s0 + mj) % 2 ^ 32, a, b, c, (d + t1) % 2 ^ 32, e, f, g]
  | st => st

def shaBlock (st : List Nat) (blk : List Byte) : List Nat :=
  let w := (shaSchedule 48 ((chunks 4 blk).map beNat).reverse).reverse
  List.zipWith (fun x y => (x + y) % 2 ^ 32) st ((shaK.zip w).foldl shaRound st)

def shaInit : List Nat :=
  [0x6A09E667, 0xBB67AE85, 0x3C6EF372, 0xA54FF53A, 0x510E527F, 0x9B05688C, 0x1F83D9AB, 0x5BE0CD19]

def sha256 (bs : List Byte) : List Byte :=
  let n := bs.length
  let z := (119 - n % 64) % 64
  let m := bs ++ [0x80] ++ List.replicate z 0 ++ toBe 8 (8 * n)
  ((chunks 64 m).foldl shaBlock shaInit).flatMap (toBe 4)

def hmac256 (key msg : List Byte) : List Byte :=
  let k := pad 64 (if key.length > 64 then sha256 key else key)
  sha256 (k.map (· ^^^ 0x5C) ++ sha256 (k.map (· ^^^ 0x36) ++ msg))

/-! ### AES-256-GCM -/

def gmulF : Nat → Nat → Nat → Nat
  | 0, _, _ => 0
  | n + 1, a, b =>
    (if b.testBit 0 then a else 0) ^^^
      gmulF n (if a.testBit 7 then (2 * a) ^^^ 0x11B else 2 * a) (b / 2)

def gmul (a b : Nat) : Nat := gmulF 8 a b

/-- The AES S-box, 32 entries to a number, the first in its low byte (FIPS 197). -/
def sboxRows : List Nat :=
  [0xC072A49CAFA2D4ADF04759FA7DC982CA76ABD7FE2B670130C56F6BF27B777C63,
    0x75B227EBE28012079A059618C323C7041531D871F1E5A534CCF73F362693FDB7,
    0xCF584C4A39BECB6A5BB1FC20ED00D153842FE329B3D63B52A05A6E1B1A2C8309,
    0xD2F3FF1021DAB6BCF5389D928F40A351A89F3C507F02F94585334D43FBAAEFD0,
    0xDB0B5EDE14B8EE4688902A22DC4F816073195D643D7EA7C41744975FEC130CCD,
    0x08AE7A65EAF4566CA94ED58D6D37C8E779E4959162ACD3C25C2406490A3A32E0,
    0x9E1DC186B95735610EF6034866B53E708A8BBD4B1F74DDE8C6B4A61C2E2578BA,
    0x16BB54B00F2D99416842E6BF0D89A18CDF2855CEE9871E9B948ED9691198F8E1]

def sbox (a : Nat) : Nat := (sboxRows.getD (a / 32) 0 >>> (8 * (a % 32))) % 256

def xorL (a b : List Nat) : List Nat := List.zipWith (· ^^^ ·) a b

/-- The AES-256 key schedule: 60 words, newest first, by fuel. -/
def aesExpand : Nat → Nat → Nat → List (List Nat) → List (List Nat)
  | 0, _, _, w => w
  | n + 1, i, rc, w =>
    let p := w.headD []
    let t := if i % 8 = 0 then xorL ((p.drop 1 ++ p.take 1).map sbox) [rc, 0, 0, 0]
      else if i % 8 = 4 then p.map sbox else p
    aesExpand n (i + 1) (if i % 8 = 0 then gmul rc 2 else rc) (xorL (w.getD 7 []) t :: w)

def aesKeys (key : List Byte) : List (List Nat) :=
  let w := chunks 4 (key.map (·.toNat))
  (chunks 4 ((aesExpand 52 8 1 w.reverse).reverse)).map List.flatten

def aesShift (s : List Nat) : List Nat :=
  (List.range 16).map fun i => s.getD ((i + 4 * (i % 4)) % 16) 0

def aesMix (s : List Nat) : List Nat :=
  (chunks 4 s).flatMap fun c =>
    (List.range 4).map fun i =>
      gmul (c.getD i 0) 2 ^^^ gmul (c.getD ((i + 1) % 4) 0) 3 ^^^ c.getD ((i + 2) % 4) 0 ^^^
        c.getD ((i + 3) % 4) 0

def aesBlock (keys : List (List Nat)) (blk : List Byte) : List Byte :=
  let s0 := xorL (blk.map (·.toNat)) (keys.headD [])
  let mid := ((keys.drop 1).take 13).foldl (fun s k => xorL (aesMix (aesShift (s.map sbox))) k) s0
  (xorL (aesShift (mid.map sbox)) (keys.getD 14 [])).map (BitVec.ofNat 8)

/-- Multiplication in GF(2^128) as GCM numbers its bits. -/
def gf128F : Nat → Nat → Nat → Nat
  | 0, _, _ => 0
  | n + 1, v, y =>
    (if y.testBit n then v else 0) ^^^
      gf128F n (if v.testBit 0 then (v / 2) ^^^ (0xE1 <<< 120) else v / 2) y

def ghash (h : Nat) (blocks : List (List Byte)) : Nat :=
  blocks.foldl (fun x b => gf128F 128 h (x ^^^ beNat (pad 16 b))) 0

/-- AES-256-GCM opening: the plaintext when the tag matches. -/
def gcmOpen (key iv aad ct tag : List Byte) : Option (List Byte) :=
  let ks := aesKeys key
  let h := beNat (aesBlock ks (List.replicate 16 0))
  let ctr (n : Nat) : List Byte := aesBlock ks (iv ++ toBe 4 n)
  let s := ghash h (chunks 16 aad ++ chunks 16 ct ++ [toBe 8 (8 * aad.length) ++ toBe 8 (8 * ct.length)])
  let t := toBe 16 (s ^^^ beNat (ctr 1))
  if t = tag then
    some (List.zipWith (· ^^^ ·) ct ((List.range (divUp ct.length 16)).flatMap fun i => ctr (i + 2)))
  else none

/-! ### LMS and HSS verification (R489) -/

def lmsHash (i : List Byte) (q code : Nat) (x : List Byte) : List Byte :=
  sha256 (i ++ toBe 4 q ++ toBe 2 code ++ x)

def nibbles (bs : List Byte) : List Nat := bs.flatMap fun b => [b.toNat / 16, b.toNat % 16]

def otsChain (i : List Byte) (q k : Nat) : Nat → Nat → List Byte → List Byte
  | 0, _, t => t
  | n + 1, j, t => otsChain i q k n (j + 1) (sha256 (i ++ toBe 4 q ++ toBe 2 k ++ toBe 1 j ++ t))

/-- The candidate LM-OTS public key of a 2,180-byte W4 signature. -/
def otsKey (i : List Byte) (q : Nat) (sig msg : List Byte) : List Byte :=
  let qh := lmsHash i q 0x8181 ((sig.drop 4).take 32 ++ msg)
  let ds := nibbles qh
  let ck := ds.foldl (fun a d => a + (15 - d)) 0 <<< 4
  let as := (ds ++ nibbles (toBe 2 ck)).take 67
  let ys := chunks 32 (sig.drop 36)
  let zs := (as.zip ys).mapIdx fun k p => otsChain i q k (15 - p.1) p.1 p.2
  lmsHash i q 0x8080 zs.flatten

def lmsPath (i : List Byte) : List (List Byte) → Nat → List Byte → List Byte
  | [], _, t => t
  | p :: ps, n, t =>
    lmsPath i ps (n / 2) (lmsHash i (n / 2) 0x8383 (if n % 2 = 1 then p ++ t else t ++ p))

/-- LMS verification of a tree of type `ty` and height `h` with W4 one-time keys. -/
def lmsVerify (ty h : Nat) (pub sig msg : List Byte) : Bool :=
  let i := (pub.drop 8).take 16
  let q := beNat (sig.take 4)
  let ots := (sig.drop 4).take 2180
  let path := chunks 32 (sig.drop 2188)
  decide (pub.length = 56) && decide (sig.length = 2188 + 32 * h) &&
    decide (beNat (pub.take 4) = ty) && decide (beNat ((pub.drop 4).take 4) = 3) &&
    decide (beNat (ots.take 4) = 3) && decide (beNat ((sig.drop 2184).take 4) = ty) &&
    decide (q < 2 ^ h) &&
    (let n := 2 ^ h + q
     decide (lmsPath i path n (lmsHash i n 0x8282 (otsKey i q ots msg)) = pub.drop 24))

/-- HSS verification with L = 2: LMS_SHA256_M32_H10 over LMS_SHA256_M32_H15 (R489). -/
def hssVerify (pub sig msg : List Byte) : Bool :=
  let s0 := (sig.drop 4).take 2508
  let pub1 := (sig.drop 2512).take 56
  decide (pub.length = 60) && decide (sig.length = 5236) && decide (beNat (pub.take 4) = 2) &&
    decide (beNat (sig.take 4) = 1) && lmsVerify 6 10 (pub.drop 4) s0 pub1 &&
    lmsVerify 7 15 pub1 (sig.drop 2568) msg

end Sys2Proof.Machine
end

