-- ==== Sys2Proof/Machine/Num.lean ====
section
/-! DEFINITION. The number formats, their arithmetic and their conversions (chapter 02). -/

namespace Sys2Proof.Machine

/-! ### Sticky flags (R47, in the bit order of R88) -/

abbrev FlM := StateM Nat

def NAN_IN : Nat := 1
def NAN_GEN : Nat := 2
def INF_NAN : Nat := 4
def OVFL : Nat := 8
def SATD : Nat := 16
def WRAP : Nat := 32

def flag (f : Nat) : FlM Unit := modify (· ||| f)

def flagIf (c : Bool) (f : Nat) : FlM Unit := if c then flag f else pure ()

/-! ### Values and encodings (R23 to R31) -/

/-- A number: NaN, an infinity, or (−1)^neg × m × 2^e, with both zeros. -/
inductive Val where
  | nan
  | inf (neg : Bool)
  | fin (neg : Bool) (m : Nat) (e : Int)
  deriving DecidableEq, Repr, Inhabited

/-- What the largest exponent field holds (R25). -/
inductive Specials where
  | ieee
  | e4m3
  | none
  deriving DecidableEq, Repr

/-- A floating-point layout (R25). -/
structure FF where
  eb : Nat
  mb : Nat
  bias : Nat
  sp : Specials
  deriving DecidableEq, Repr

def ffFP32 : FF := ⟨8, 23, 127, .ieee⟩
def ffBF16 : FF := ⟨8, 7, 127, .ieee⟩
def ffFP16 : FF := ⟨5, 10, 15, .ieee⟩

/-- The layout of a float element format code (R23, R25). -/
def floatFmt : Nat → Option FF
  | 0 => some ffFP32
  | 1 => some ffBF16
  | 2 => some ffFP16
  | 3 => some ⟨4, 3, 7, .e4m3⟩
  | 4 => some ⟨5, 2, 15, .ieee⟩
  | 5 => some ⟨3, 2, 3, .none⟩
  | 6 => some ⟨2, 3, 1, .none⟩
  | 7 => some ⟨2, 1, 1, .none⟩
  | _ => none

/-- Bits per element, by element format (R23, R29). -/
def elemBits : Nat → Nat
  | 0 => 32 | 1 => 16 | 2 => 16 | 3 => 8 | 4 => 8 | 5 => 6 | 6 => 6 | 7 => 4 | 8 => 8 | 9 => 4
  | 10 => 48 | _ => 32

def isMx (code : Nat) : Bool := code.testBit 4

def elemOf (code : Nat) : Nat := code % 16

/-- The format codes of R24. -/
def codeOk (code : Nat) : Bool :=
  let e := code % 16
  decide (code < 32) && if isMx code then decide (3 ≤ e ∧ e ≤ 9) else decide (e ≤ 2 ∨ 8 ≤ e ∧ e ≤ 11)

/-- The largest finite magnitude encoding. -/
def FF.maxFin (f : FF) : Nat :=
  match f.sp with
  | .ieee => (2 ^ f.eb - 1) * 2 ^ f.mb - 1
  | .e4m3 => 0x7E
  | .none => 2 ^ (f.eb + f.mb) - 1

def FF.canonNan (f : FF) : Nat :=
  match f.sp with
  | .ieee => if f.eb = 5 ∧ f.mb = 2 then 0x7F else (2 ^ f.eb - 1) * 2 ^ f.mb + 2 ^ (f.mb - 1)
  | .e4m3 => 0x7F
  | .none => 0

def FF.infBits (f : FF) : Nat := (2 ^ f.eb - 1) * 2 ^ f.mb

def FF.signBit (f : FF) : Nat := 2 ^ (f.eb + f.mb)

def sgn (f : FF) (neg : Bool) (mag : Nat) : Nat := if neg then f.signBit + mag else mag

/-- The value of an encoding (R25, R27). -/
def decodeF (f : FF) (x : Nat) : Val :=
  let neg := x.testBit (f.eb + f.mb)
  let mag := x % f.signBit
  if mag > f.maxFin then
    if f.sp = .ieee ∧ mag = f.infBits then .inf neg else .nan
  else
    let ef := mag / 2 ^ f.mb
    let m := mag % 2 ^ f.mb
    if ef = 0 then .fin neg m (1 - f.bias - f.mb)
    else .fin neg (m + 2 ^ f.mb) ((ef : Int) - f.bias - f.mb)

/-- A two's-complement field of `w` bits. -/
def sInt (w x : Nat) : Int := let y := x % 2 ^ w; if y < 2 ^ (w - 1) then y else (y : Int) - 2 ^ w

def valOfInt (i : Int) (e : Int) : Val := .fin (decide (i < 0)) i.natAbs e

/-- The value of one element, block scale left out (R29, R31, R49). -/
def decodeElem (code x : Nat) : Val :=
  match floatFmt (elemOf code) with
  | some f => decodeF f x
  | none =>
    match elemOf code with
    | 8 => valOfInt (sInt 8 x) (if isMx code then -6 else 0)
    | 9 => valOfInt (sInt 4 x) (if isMx code then -2 else 0)
    | 10 => valOfInt (sInt 48 x) 0
    | _ => valOfInt (sInt 32 x) 0

/-- A value times 2^k. -/
def Val.scale (v : Val) (k : Int) : Val :=
  match v with
  | .fin s m e => .fin s m (e + k)
  | v => v

/-- A block scale applied (R30). -/
def applyScale (v : Val) (x : Nat) : Val := if x = 0xFF then .nan else v.scale ((x : Int) - 127)

/-! ### Exact arithmetic -/

def Val.isNan : Val → Bool
  | .nan => true
  | _ => false

def Val.isInf : Val → Bool
  | .inf _ => true
  | _ => false

def Val.isFin : Val → Bool
  | .fin .. => true
  | _ => false

def Val.neg : Val → Val
  | .nan => .nan
  | .inf s => .inf (!s)
  | .fin s m e => .fin (!s) m e

def signed (s : Bool) (m : Nat) : Int := if s then -(m : Int) else m

/-- The exact sum; an exact zero is +0 unless both are −0 (R26, R28, R45). -/
def Val.add : Val → Val → Val
  | .nan, _ => .nan
  | _, .nan => .nan
  | .inf s, .inf t => if s = t then .inf s else .nan
  | .inf s, .fin .. => .inf s
  | .fin .., .inf t => .inf t
  | .fin s m e, .fin t n f =>
    let lo := min e f
    let i := signed s (m <<< (e - lo).toNat) + signed t (n <<< (f - lo).toNat)
    if i = 0 then .fin (m == 0 && n == 0 && s && t) 0 lo
    else .fin (decide (i < 0)) i.natAbs lo

/-- The exact product (R28). -/
def Val.mul : Val → Val → Val
  | .nan, _ => .nan
  | _, .nan => .nan
  | .inf s, .inf t => .inf (s != t)
  | .inf s, .fin t n _ => if n = 0 then .nan else .inf (s != t)
  | .fin s m _, .inf t => if m = 0 then .nan else .inf (s != t)
  | .fin s m e, .fin t n f => .fin (s != t) (m * n) (e + f)

/-- A quotient with 64 bits or more and a sticky bit: rounding it rounds the exact quotient. -/
def Val.div : Val → Val → Val
  | .nan, _ => .nan
  | _, .nan => .nan
  | .inf _, .inf _ => .nan
  | .inf s, .fin t _ _ => .inf (s != t)
  | .fin s _ _, .inf t => .fin (s != t) 0 0
  | .fin s m e, .fin t n f =>
    if n = 0 then if m = 0 then .nan else .inf (s != t)
    else
      let k := 64 + Nat.log2 n
      let q := (m <<< k) / n
      let r := (m <<< k) % n
      .fin (s != t) (2 * q + b2n (r != 0)) (e - f - k - 1)

/-- Total order of non-NaN values, −0 below +0 (R45). -/
def Val.lt : Val → Val → Bool
  | .inf s, .inf t => s && !t
  | .inf s, .fin .. => s
  | .fin .., .inf t => !t
  | .fin s m e, .fin t n f =>
    let lo := min e f
    let i := signed s (m <<< (e - lo).toNat)
    let j := signed t (n <<< (f - lo).toNat)
    if i = j then m == 0 && s && !t else decide (i < j)
  | _, _ => false

/-! ### Rounding (R35) -/

/-- A rounding mode: to nearest even, or stochastic with its 16 bits u. -/
inductive Rnd where
  | rne
  | sr (u : Nat)
  deriving DecidableEq, Repr

/-- m × 2^(−s) rounded to a whole number. -/
def roundShift (r : Rnd) (m s : Nat) : Nat :=
  let n := m >>> s
  let rem := m % 2 ^ s
  match r with
  | .rne =>
    if 2 * rem > 2 ^ s ∨ (2 * rem = 2 ^ s ∧ n % 2 = 1) then n + 1 else n
  | .sr u => if (rem <<< 16) >>> s + u ≥ 65536 then n + 1 else n

/-- m × 2^e rounded to a whole number of 2^q. -/
def roundAt (r : Rnd) (m : Nat) (e q : Int) : Nat :=
  if q ≤ e then m <<< (e - q).toNat else roundShift r m (q - e).toNat

/-- The magnitude encoding of m × 2^e after rounding; it may exceed the largest finite one. -/
def encodeMag (f : FF) (r : Rnd) (m : Nat) (e : Int) : Nat :=
  if m = 0 then 0
  else
    let qmin : Int := 1 - f.bias - f.mb
    let q := max ((Nat.log2 m : Int) + e - f.mb) qmin
    roundAt r m e q + (q - qmin).toNat * 2 ^ f.mb

/-- Conversion to FP32, BF16 or FP16 (R28, R37). -/
def encodeIeee (f : FF) (r : Rnd) (v : Val) : FlM Nat :=
  match v with
  | .nan => pure f.canonNan
  | .inf s => pure (sgn f s f.infBits)
  | .fin s m e =>
    let x := encodeMag f r m e
    if x > f.maxFin then do
      flag OVFL
      pure (sgn f s f.infBits)
    else pure (sgn f s x)

/-- Flags of an operation with operands `xs` and result `y` (R47). -/
def nanFlags (xs : List Val) (y : Val) : FlM Unit :=
  if xs.any Val.isNan then flag NAN_IN else flagIf y.isNan NAN_GEN

/-! ### FP32 operations on encodings (R45) -/

def f32 (x : Nat) : Val := decodeF ffFP32 x

def nan32 : Nat := 0x7FC00000

def round32 (v : Val) : FlM Nat := encodeIeee ffFP32 .rne v

def op2 (g : Val → Val → Val) (a b : Nat) : FlM Nat := do
  let y := g (f32 a) (f32 b)
  nanFlags [f32 a, f32 b] y
  round32 y

def fadd (a b : Nat) : FlM Nat := op2 Val.add a b
def fsub (a b : Nat) : FlM Nat := op2 (fun x y => x.add y.neg) a b
def fmul (a b : Nat) : FlM Nat := op2 Val.mul a b
def fdiv (a b : Nat) : FlM Nat := op2 Val.div a b

def fneg (a : Nat) : Nat := if a.testBit 31 then a - 0x80000000 else a + 0x80000000

/-- a × b + c, rounded once. -/
def ffma (a b c : Nat) : FlM Nat := do
  let p := (f32 a).mul (f32 b)
  let y := p.add (f32 c)
  nanFlags [f32 a, f32 b, f32 c] y
  round32 y

def fmax (a b : Nat) : FlM Nat := do
  if (f32 a).isNan || (f32 b).isNan then
    flag NAN_IN
    pure nan32
  else pure (if (f32 a).lt (f32 b) then b else a)

def fmin (a b : Nat) : FlM Nat := do
  if (f32 a).isNan || (f32 b).isNan then
    flag NAN_IN
    pure nan32
  else pure (if (f32 b).lt (f32 a) then b else a)

/-- An FP32 sum without flags. -/
def add32 (a b : Nat) : Nat := (fadd a b 0).1

/-- BF16 addition: widened, added in FP32, rounded to BF16 (R46). -/
def addBf16 (a b : Nat) : Nat :=
  let s := add32 (a <<< 16) (b <<< 16)
  (encodeIeee ffBF16 .rne (f32 s) 0).1

/-! ### Array sums (R39 to R44) -/

/-- The 5-bit weight and activation pairs of R39. -/
def pairOk (w a : Nat) : Bool :=
  let e := elemOf w
  let g := elemOf a
  if isMx w then
    isMx a && (if 3 ≤ e ∧ e ≤ 6 then decide (3 ≤ g ∧ g ≤ 6)
      else if e = 7 then decide (3 ≤ g ∧ g ≤ 7)
      else if e = 8 then g == 8
      else e == 9 && (g == 8 || g == 9))
  else
    !isMx a && (if e = 8 then g == 8 else if e = 9 then g == 8 || g == 9
      else (e == 1 || e == 2) && g == e)

/-- Products per K-block, by weight format (R40). -/
def kOf (w : Nat) : Nat :=
  match elemOf w with
  | 7 => 256 | 9 => 256 | 1 => 64 | 2 => 64 | _ => 128

/-- Columns of a tile, by weight format (R55). -/
def nOf (w : Nat) : Nat := if elemOf w = 1 ∨ elemOf w = 2 then 256 else 512

def intPair (w : Nat) : Bool := !isMx w && (elemOf w == 8 || elemOf w == 9)

/-- Truncation toward zero to a multiple of 2^q (R41). -/
def truncAt (q : Int) : Val → Val
  | .fin s m e => if q ≤ e then .fin s m e else .fin s (m >>> (q - e).toNat) q
  | v => v

/-- The largest exponent of a non-zero product (R41). -/
def anchor (ps : List Val) : Option Int :=
  ps.foldl (fun a p => match p with
    | .fin _ m e => if m = 0 then a else
        let x := (Nat.log2 m : Int) + e
        some (match a with | some y => max x y | none => x)
    | _ => a) none

/-- One float K-block reduced to FP32 (R41 to R43). `window` is W, none when unbounded. A block with a NaN operand
and an infinity times zero sets NAN_IN alone, where R43 says NAN_IN or NAN_GEN (DESIGN CHOICE, log 70). -/
def kBlock (window : Option Nat) (xs : List (Val × Val)) : FlM Nat := do
  let ps := xs.map fun p => p.1.mul p.2
  if xs.any (fun p => p.1.isNan || p.2.isNan) then
    flag NAN_IN
    pure nan32
  else if ps.any Val.isNan || (ps.contains (.inf true) && ps.contains (.inf false)) then
    flag NAN_GEN
    pure nan32
  else if ps.contains (.inf true) then pure 0xFF800000
  else if ps.contains (.inf false) then pure 0x7F800000
  else
    let qs := match window, anchor ps with
      | some w, some a => ps.map (truncAt (a - w + 1))
      | _, _ => ps
    match qs.foldl Val.add (.fin false 0 0) with
    | .fin _ 0 _ => pure 0
    | s => round32 s

/-- An INT32 accumulation with its wrap flag (R44). -/
def addInt32 (acc : Nat) (s : Int) : FlM Nat := do
  let t := sInt 32 acc + s
  flagIf (decide (t < -(2 ^ 31) ∨ t ≥ 2 ^ 31)) WRAP
  pure (t % 2 ^ 32).toNat

/-! ### Packing elements (R29, R32) -/

/-- `n` elements packed in `bs`, lowest bits first. -/
def unpackElems (code : Nat) (bs : List Byte) (n : Nat) : List Nat :=
  let w := elemBits (elemOf code)
  let x := leNat bs
  (List.range n).map fun i => (x >>> (w * i)) % 2 ^ w

def packElems (code : Nat) (xs : List Nat) : List Byte :=
  let w := elemBits (elemOf code)
  let p := xs.foldl (fun (a : Nat × Nat) x => (a.1 + x <<< a.2, a.2 + w)) (0, 0)
  toLe (divUp (w * xs.length) 8) p.1

/-- Bytes of an MX block (R32). -/
def blockBytes (code : Nat) : Nat := 32 * elemBits (elemOf code) / 8

/-- Elements decoded, with their block scales for an MX format. -/
def decodeVals (code : Nat) (bs scales : List Byte) (n : Nat) : List Val :=
  (unpackElems code bs n).mapIdx fun i x =>
    let v := decodeElem code x
    if isMx code then applyScale v (scales.getD (i / 32) 0).toNat else v

/-! ### Conversions (R33 to R37) -/

/-- Conversion to a saturating integer of `w` bits holding units of 2^q (R31, R34, R37). -/
def encodeInt (w : Nat) (q : Int) (r : Rnd) (v : Val) : FlM Nat :=
  let top := 2 ^ (w - 1) - 1
  let out (neg : Bool) (m : Nat) : Nat := if neg ∧ m ≠ 0 then 2 ^ w - m else m
  match v with
  | .nan => do
    flag NAN_IN
    pure 0
  | .inf s => do
    flag SATD
    pure (out s top)
  | .fin s m e =>
    let n := roundAt r m e q
    if n > top then do
      flag SATD
      pure (out s top)
    else pure (out s n)

/-- An MX float element, saturating (R34, R37). -/
def encodeMxFloat (f : FF) (r : Rnd) (v : Val) : FlM Nat :=
  match v with
  | .nan => do
    flag NAN_IN
    pure f.canonNan
  | .inf s =>
    if f.sp = .ieee then pure (sgn f s f.infBits) else do
      flag INF_NAN
      pure f.canonNan
  | .fin s m e =>
    let x := encodeMag f r m e
    if x > f.maxFin then do
      flag SATD
      pure (sgn f s f.maxFin)
    else pure (sgn f s x)

/-- The exponent of the element format's largest normal value (R33). -/
def emaxOf : Nat → Int
  | 3 => 8 | 4 => 15 | 5 => 4 | 6 => 2 | 7 => 2 | _ => 0

/-- R33's scale exponent of a block. -/
def scaleExp (elem : Nat) (xs : List Val) : Int :=
  match anchor xs with
  | none => -127
  | some a => max (-127) (min 127 (a - emaxOf elem))

/-- One MX block converted: its scale byte and its elements (R33, R34). In a block whose scale becomes 0xFF, R34
leaves the element bits open: a non-finite element is stored as 0, the finite ones at the scale R33 chooses
(DESIGN CHOICE, log 70). -/
def encodeMxBlock (elem : Nat) (xs : List (Val × Rnd)) : FlM (Nat × List Nat) := do
  let k := scaleExp elem (xs.map (·.1))
  let carriesNan := match floatFmt elem with
    | some f => f.sp != .none
    | none => false
  let bad := !carriesNan && xs.any fun x => !x.1.isFin
  let enc (x : Val × Rnd) : FlM Nat :=
    if !carriesNan && !x.1.isFin then do
      flag (if x.1.isInf then INF_NAN else NAN_IN)
      pure 0
    else match floatFmt elem with
      | some f => encodeMxFloat f x.2 (x.1.scale (-k))
      | none => if elem = 8 then encodeInt 8 (-6) x.2 (x.1.scale (-k))
                else encodeInt 4 (-2) x.2 (x.1.scale (-k))
  let es ← xs.mapM enc
  pure (if bad then 0xFF else (k + 127).toNat, es)

/-- Values converted to a format: the element array and the scale array. Element i is rounded
with `rnd i` (R33 to R37). -/
def encodeVals (code : Nat) (rnd : Nat → Rnd) (xs : List Val) : FlM (List Byte × List Byte) := do
  let ys := xs.mapIdx fun i x => (x, rnd i)
  if isMx code then
    let bl ← (chunks 32 ys).mapM (encodeMxBlock (elemOf code))
    pure (packElems code (bl.flatMap (·.2)), bl.map fun b => BitVec.ofNat 8 b.1)
  else
    let enc (x : Val × Rnd) : FlM Nat :=
      match floatFmt (elemOf code) with
      | some f => do
        flagIf x.1.isNan NAN_IN
        encodeIeee f x.2 x.1
      | none => encodeInt (elemBits (elemOf code)) 0 x.2 x.1
    let es ← ys.mapM enc
    pure (packElems code es, [])

/-- Values to FP32 by RNE, as encodings (R37). -/
def valsTo32 (xs : List Val) : FlM (List Nat) :=
  xs.mapM fun v => do
    flagIf v.isNan NAN_IN
    round32 v

/-! ### BSI48 (R48 to R54) -/

/-- A BSI48 block. -/
structure Bsi where
  exp : Nat
  flags : Nat
  bound : Nat
  csum : Nat
  elems : List Nat
  deriving DecidableEq, Repr, Inhabited

def P61 : Nat := 2 ^ 61 - 1

def bsiOvf : Nat := 1
def bsiNf : Nat := 2
def bsiSat : Nat := 4

def Bsi.expInt (b : Bsi) : Int := sInt 8 b.exp

/-- R48's layout. -/
def Bsi.read (bs : List Byte) : Bsi :=
  let h := leNat (bs.take 16)
  { exp := nfld h 7 0, flags := nfld h 15 8, bound := nfld h 47 16, csum := nfld h 124 64
    elems := unpackElems 10 (bs.drop 16) 40 }

def Bsi.bytes (b : Bsi) : List Byte :=
  toLe 16 (packNat [(0, b.exp), (8, b.flags), (16, b.bound), (64, b.csum)]) ++ packElems 10 b.elems

def bsiZero (exp : Nat) : Bsi := ⟨exp, 0, 0, 0, List.replicate 40 0⟩

/-- R50. Equal EXP is the caller's check. -/
def Bsi.add (a b : Bsi) : Bsi :=
  let bound := min 0xFFFFFFFF (a.bound + b.bound)
  { exp := a.exp
    flags := (a.flags ||| b.flags) ||| (if bound > 2 ^ 23 then bsiOvf else 0)
    bound := bound
    csum := (a.csum + b.csum) % P61
    elems := List.zipWith (fun x y => (x + y) % 2 ^ 48) a.elems b.elems }

/-- R51: the smallest t with every |x| below t × 2^24. -/
def bsiTerm (elems : List Nat) : Nat :=
  (elems.foldl (fun m x => max m (sInt 48 x).natAbs) 0) / 2 ^ 24 + 1

/-- R54: FP32 values to one block at EXP (signed). -/
def toBsi (exp : Int) (rnd : Nat → Rnd) (xs : List Val) : Bsi :=
  let top := 2 ^ 47 - 1
  let conv (i : Nat) (v : Val) : Nat × Nat :=
    match v with
    | .fin s m e =>
      let n := roundAt (rnd i) m e exp
      let k := min n top
      (if s ∧ k ≠ 0 then 2 ^ 48 - k else k, if n > top then bsiSat else 0)
    | _ => (0, bsiNf)
  let ys := xs.mapIdx conv
  let es := ys.map (·.1)
  { exp := (exp % 256).toNat, flags := ys.foldl (fun a y => a ||| y.2) 0
    bound := bsiTerm es, csum := 0, elems := es }

/-- R54: the block's values as FP32, rounded once. -/
def Bsi.vals (b : Bsi) : List Val := b.elems.map fun x => valOfInt (sInt 48 x) b.expInt

/-- R53: the checksum of elements under weights w i. -/
def bsiChecksum (weight : Nat → Nat) (elems : List Nat) : Nat :=
  (elems.mapIdx fun i x => weight i * ((sInt 48 x) % P61).toNat).foldl (fun a y => (a + y) % P61) 0

/-! ### Ripple (R392) -/

def rotl64 (x n : Nat) : Nat := (x <<< n + x >>> (64 - n)) % 2 ^ 64

def rippleRound (k : Nat) (cr : Nat × Nat) (x : Nat) : Nat :=
  (rotl64 ((x + k + cr.1) % 2 ^ 64) cr.2 * 0x0000010000010001) % 2 ^ 64

def ripple (seed step stream ctr : Nat) : Nat :=
  let x := rippleRound seed (0x5A3C96E10F7B2D48, 24) (ctr % 2 ^ 64)
  let x := rippleRound step (0xC2B41E876D09F35A, 40) x
  let x := rippleRound stream (0x3E91D7A248C60B5F, 12) x
  let x := rippleRound seed (0xA76F03D8B5E21C94, 52) x
  let x := rippleRound step (0x1D58E64B9A37C0F2, 28) x
  rippleRound stream (0xF0C72B953E4D86A1, 36) x

/-- The rounding of one element: RNE, or SR keyed by Ripple (R35, R36). -/
def rndOf (sr : Bool) (seed step stream ctr : Nat) : Rnd :=
  if sr then .sr (ripple seed step stream ctr % 65536) else .rne

end Sys2Proof.Machine
end

