-- ==== Sys2Proof/Machine/State.lean ====
section
/-! DEFINITION. The state of one Doruth device, as plain data, and the state right after reset.
Each structure's docstring names the rules that give the part that state. Registers the manual
computes from other state (SLC_STATUS, CST_HELD, MEM_QUOTA, ...) are views in Regs.lean. -/

namespace Sys2Proof.Machine

/-- Why a step stops with a fault. The manual names no event that stops the part: every failure is a status, a
discarded input or a recovery (R410, R532), so there is none. -/
inductive Fault where
  deriving DecidableEq, Repr

/-- Why a step is refused. -/
inductive Refusal where
  /-- Raised by `exec`'s arms for a command without a meaning. Safe: nothing is claimed of it. -/
  | notModelled (mnemonic : String)
  deriving DecidableEq, Repr

/-! ## Time, fuses, boot, power -/

/-- The 1 ns time base and its PTP state (R6, R435, R469). -/
structure TimeBase where
  now : Nat := 0
  locked : Bool := false
  holdover : Bool := false
  offset : Int := 0
  /-- what remains to be removed by slewing (R435) -/
  slew : Int := 0
  /-- oscillator ticks since reset (the model's own) -/
  ticks : Nat := 0
  deriving DecidableEq, Repr, Inhabited

/-- A leaf reservation record (R496). -/
structure LeafRec where
  counter : Nat
  next : Nat
  deriving DecidableEq, Repr, Inhabited

/-- A verified firmware image: header fields and bytes (R488). -/
structure FwImage where
  version : U32
  svn : Nat
  bytes : List Byte
  deriving DecidableEq, Repr, Inhabited

/-- What survives reset: fuses, the reserved flash area, the power-stage controller's LAST_RESET
(R485, R486, R488, R490, R494 to R496, R517). -/
structure Fuses where
  grade : Grade := .a
  mac : BitVec 48 := 0
  serial : U64 := 0
  svnFloor : Nat := 0
  provKey : BitVec 256 := 0
  /-- the identity key: seed and identifier in one-time fuses, and its public key (R495) -/
  idSeed : BitVec 256 := 0
  idIdent : BitVec 128 := 0
  idPublic : BitVec 448 := 0
  /-- Tirsil's signature in the identity certificate: 5,236 bytes, the first lowest (R495) -/
  certSign : BitVec 41888 := 0
  hssKey : List Byte := []
  /-- the bytes of the reserved flash area: header, body, signature; empty when it holds none (R488, R492) -/
  image : List Byte := []
  recA : Option LeafRec := some ⟨0, 0⟩
  recB : Option LeafRec := none
  lastReset : Nat := 0
  deriving DecidableEq, Repr, Inhabited

/-- BOOT_STATUS.STAGE (R500); `halted` is the halt of R487. -/
inductive Stage where
  | rom | flashMount | verify | dramTest | optics | network | ready | recovery | halted
  deriving DecidableEq, Repr, Inhabited

/-- A measurement log entry (R498). -/
structure MEntry where
  kind : Nat
  time : Nat
  digest : BitVec 256
  deriving DecidableEq, Repr, Inhabited

/-- The cause that turned the rails off and its restart condition (R504). -/
inductive OffCause where
  | brownOut | overVoltage | epo | thermalTrip
  /-- only the wait of R503 is left -/
  | stable
  deriving DecidableEq, Repr, Inhabited

/-- Power, thermal and sideband state (R502 to R519). -/
structure Power where
  cfg : U64 := 0x0000005A5F0964E2
  rails : Bool := true
  off : Option OffCause := none
  vin : Nat := 0
  pin : Nat := 0
  amps : Nat := 0
  vcore : Nat := 0
  limit : Nat := 0
  lowInput : Bool := false
  hold : Bool := false
  sbFault : Bool := false
  alert : Bool := false
  slot : BitVec 6 := 0
  epoLow : Bool := false
  faulty : List Sideband := []
  tj : List Int := []
  td : List Int := []
  tIn : Int := 0
  tOut : Int := 0
  err : Tbl U32 := []
  deriving DecidableEq, Repr, Inhabited

/-! ## Event log -/

/-- An event log entry (R522). -/
structure LogEntry where
  time : Nat
  sev : Nat
  part : Option Nat
  source : Nat
  code : Nat
  seq : U32
  data : BitVec 128
  deriving DecidableEq, Repr, Inhabited

/-- One (SOURCE, CODE) pair's count in the present second and entries left out (R527). -/
structure LogRate where
  source : Nat
  code : Nat
  written : Nat
  left : Nat
  deriving DecidableEq, Repr, Inhabited

/-- The log unit (R520 to R529, R534 to R536). Rings are oldest first. -/
structure EventLog where
  cfg : U64 := 0x00000000001803E8
  dram : List LogEntry := []
  sram : List LogEntry := []
  nextSeq : U32 := 0
  lastTime : Option Nat := none
  rates : List LogRate := []
  err : Tbl U32 := []
  deriving DecidableEq, Repr, Inhabited

/-! ## Host link -/

/-- A UHP message the part sends (R438). `seq` is zero for unsequenced types. -/
structure OutMsg where
  version : Byte
  session : Nat
  ty : BitVec 4
  seq : U64
  ackno : U64
  ece : Bool
  body : List Byte
  deriving DecidableEq, Repr, Inhabited

/-- A sequenced message not yet acknowledged, and how often it was retransmitted (R440, R443). -/
structure Unacked where
  msg : OutMsg
  tries : Nat
  deriving DecidableEq, Repr, Inhabited

/-- The key record of an opened session (R445). -/
structure KeyRec where
  key : BitVec 256
  keyId : U32
  mask : U32
  priv : Bool
  events : Bool
  expiry : U64
  deriving DecidableEq, Repr, Inhabited

/-- A transport session (R436 to R446). `id` is never reused (the model's own); `num` is the session ID on the wire.
`cfg` is HOST_UHP_CFG as it was when the session was opened (R467). -/
structure Session where
  id : Nat
  num : Nat
  cfg : U64
  hostAddr : IpAddr
  hostPort : U16
  uhp : Byte
  mbox : Byte
  isnHost : U64
  isnPart : U64
  challenge : BitVec 256
  /-- lowest sequence number not yet received -/
  rcvNext : U64
  /-- messages received and not yet delivered in SEQ order, with their types -/
  rcvHeld : List (Nat × UhpMsg)
  sndNext : U64
  unacked : List Unacked
  /-- messages waiting for window space -/
  waiting : List OutMsg
  window : Nat
  ackedInWindow : Nat
  lastHalved : Nat
  sinceAck : Nat
  ackDue : Bool
  ceSeen : Bool
  key : Option KeyRec
  macFails : Nat
  stalled : Bool
  deriving DecidableEq, Repr, Inhabited

/-- An accepted mailbox request whose response has not been sent (R450). -/
structure Req where
  id : ReqId
  seq : U64
  cmd : Nat
  part : Nat
  noevt : Bool
  body : List Byte
  /-- its effect has begun and completes later (SUBMIT held, PART_DESTROY, ABORT, FENCE_DEVICE) -/
  started : Bool
  /-- its response waits for window space and has not been sent (R442, R450) -/
  answered : Bool
  deriving DecidableEq, Repr, Inhabited

/-- Start-up state (R485 to R501, R513). -/
structure Boot where
  stage : Stage := .rom
  reason : Nat := 0
  fwVersion : U32 := 0
  /-- RESET_IN_N is low (R485) -/
  held : Bool := false
  slotSamples : List (BitVec 6) := []
  slotFixed : Bool := false
  slotLogged : Bool := false
  fwRegionOk : Bool := false
  dramDefect : Bool := false
  staged : Option FwImage := none
  /-- the FW_COMMIT that is writing, and its image (R492) -/
  commit : Option (Req × FwImage) := none
  /-- the response that a reset waits for: its session and SEQ (R454) -/
  resetAfter : Option (Nat × U64) := none
  /-- held leaves: `leafNext` to `leafEnd - 1` (R496) -/
  leafNext : Nat := 0
  leafEnd : Nat := 0
  mlog : List MEntry := []
  running : BitVec 256 := 0
  mlogFixed : Bool := false
  deriving DecidableEq, Repr, Inhabited

/-- Window kinds (R455). -/
inductive WinKind where
  | data | result | host | firmware
  deriving DecidableEq, Repr, Inhabited

/-- State of one result generation (R459 to R461). -/
inductive GenState where
  | assigned (sub : U32) | ended (sub : U32) | void | published (leaseEnd : Nat) | gone
  deriving DecidableEq, Repr, Inhabited

/-- A window of a mailbox (R455). -/
structure Window where
  kind : WinKind
  canWrite : Bool
  canRead : Bool
  addr : Nat
  len : Nat
  leaseMs : Nat
  /-- side pages its buffers take (R455) -/
  pages : Nat
  assigned : Nat
  published : Nat
  gens : Tbl GenState
  buf0 : Memory
  buf1 : Memory
  /-- source address and length of each assigned generation's result -/
  src : Tbl (Nat × Nat)
  /-- the session that sent the SUBMIT of each generation, its tag and NOEVT -/
  who : Tbl (Nat × U32 × Bool)
  deriving DecidableEq, Repr, Inhabited

/-- A READ_REQ the part has sent towards a HOST window, with the data received (R456, R457). -/
structure HostRead where
  session : Nat
  window : Nat
  reqId : U32
  offset : Nat
  len : Nat
  got : Memory
  gotBytes : Nat
  status : Byte
  deriving DecidableEq, Repr, Inhabited

/-- A HELLO and the answer it got, which a repetition within 1 s gets again (R439). -/
structure HelloMemo where
  addr : IpAddr
  port : U16
  isn : U64
  at_ : Nat
  answer : OutMsg
  ect : Bool
  deriving DecidableEq, Repr, Inhabited

/-- The PTP slave (R435). Times are of the time base, or the master's stamps, in ns. -/
structure Ptp where
  /-- masters that have announced themselves -/
  masters : List (PtpPort × PtpData) := []
  /-- a two-step Sync whose Follow_Up has not come: its number and arrival -/
  sync : Option (U16 × Nat) := none
  /-- the last Sync: the master's stamp and its arrival -/
  last : Option (Nat × Nat) := none
  /-- the Delay_Req under way: its number and departure -/
  req : Option (U16 × Nat) := none
  nextSeq : U16 := 0
  /-- the delay of the path -/
  delay : Option Int := none
  deriving DecidableEq, Repr, Inhabited

/-- The Ethernet port, UHP transport and mailboxes (R430 to R470). Windows are keyed by
64 × mailbox + number. -/
structure HostLink where
  netCfg : U64 := 0x0000002400000000
  ip4 : U64 := 0
  uhpCfg : U64 := 0x03E8040000040064
  ptpCfg : U32 := 0x00000100
  link : Bool := false
  downSince : Option Nat := none
  /-- when duplicate address detection of the link-local address began, while it runs; whether it found one (R433) -/
  llSince : Option Nat := none
  llDup : Bool := false
  /-- the global address, when its duplicate address detection began, and whether it found one (R433, R493) -/
  ip6 : Option (BitVec 128) := none
  ip6Since : Nat := 0
  ip6Dup : Bool := false
  ptp : Ptp := {}
  /-- answers of the last second's HELLOs (R439) -/
  hellos : List HelloMemo := []
  echoSecond : Nat := 0
  echoCount : Nat := 0
  err : Tbl U32 := []
  sessions : List Session := []
  nextSession : Nat := 0
  reqs : List Req := []
  windows : Tbl Window := []
  reads : List HostRead := []
  nextReadId : U32 := 0
  staging : Tbl Memory := []
  deriving DecidableEq, Repr, Inhabited

/-- Non-UHP frames the part sends (R433, R434, R493). -/
inductive OutFrame where
  | neighborAdvertisement (dst target : BitVec 128)
  | neighborSolicitation (target : BitVec 128)
  | echoReply (dst : BitVec 128) (data : List Byte)
  | arpReply (dst sender : U32)
  | lldp (chassis : BitVec 48) (port : DevId) (ttl : Nat) (serial : U64)
  | dhcpv6Solicit
  | dhcpv6Request (server : Nat) (addr : BitVec 128)
  | ptpDelayReq (domain : Byte) (seq : U16)
  deriving DecidableEq, Repr, Inhabited

/-- How a frame leaves: the tag and DSCP of HOST_NET_CFG as it then stands; a VID of 0 means untagged (R432, R465). -/
structure Framing where
  vid : BitVec 12
  pcp : BitVec 3
  dscp : BitVec 6
  deriving DecidableEq, Repr, Inhabited

/-- A UHP message on the Ethernet line: to which address and port, and whether it carries ECT(0) (R442). -/
structure LineMsg where
  msg : OutMsg
  addr : IpAddr
  port : U16
  ect : Bool
  framing : Framing
  deriving DecidableEq, Repr, Inhabited

/-- Another frame on the Ethernet line. -/
structure LineFrame where
  frame : OutFrame
  framing : Framing
  deriving DecidableEq, Repr, Inhabited

/-- What the part has put on its lines, oldest first (model's own record of its outputs). -/
structure Outputs where
  cells : List (Nat × Cell) := []
  hellos : List (Nat × LinkHello) := []
  msgs : List LineMsg := []
  frames : List LineFrame := []
  /-- credits advertised and returned in link control words: port, class, cells (R193, R194) -/
  credits : List (Nat × Nat × Nat) := []
  deriving DecidableEq, Repr, Inhabited

/-! ## Fabric -/

/-- FAB_PORT_STATUS.STATE (R206). -/
inductive PortState where
  | dark | training | hello | up | degraded | miswired | errors | disabled
  deriving DecidableEq, Repr, Inhabited

/-- A port (R174 to R196, R205, R206). Credits and queues are keyed by credit class: 0 to 6 for
VC0 to VC6, 7 to 9 for the VC7 classes of HOPS 1 to 3 (R192). -/
structure Port where
  cfg : U32 := 0x000010FD
  state : PortState := .dark
  lanes : BitVec 4 := 0
  version : Byte := 0
  peerPort : BitVec 6 := 0x3F
  peerId : DevId := 0
  spineRack : Option Byte := none
  attempts : Nat := 0
  hellosSeen : Nat := 0
  /-- when the own LINK_HELLO was last sent (R179) -/
  helloAt : Nat := 0
  pending : Option LinkHello := none
  discards : Nat := 0
  retrains : List Nat := []
  latency : Nat := 0
  /-- step 6 of R179 is under way, or done -/
  creditsKnown : Bool := false
  credits : Tbl Nat := []
  /-- FAB_CFG and FAB_CREDIT as they were when this bring-up began (R204, R208), and credits lent of the shared
  remainder (R194) -/
  fabCfg : U64 := 0x0000006401001020
  creditCfg : U32 := 0x20082008
  lent : Tbl Nat := []
  queue : List Cell := []
  /-- DWRR round: cells each VC may still send in the present round -/
  deficit : Tbl Nat := []
  crc : U32 := 0
  deriving DecidableEq, Repr, Inhabited

/-- An entry of the exclusion cache (R189). -/
structure ZExcl where
  dest : DevId
  plane : Nat
  entered : Nat
  deriving DecidableEq, Repr, Inhabited

/-- The router (R174 to R210). `links` is the rack link-state table by 28 × position + port:
0 in service, 1 degraded, 2 out of service; unlisted is in service. -/
structure Fabric where
  cfg : U64 := 0x0000006401001020
  ports : Tbl Port := []
  dwrrA : U32 := 0x0A140F28
  dwrrB : U32 := 0x0000050A
  credit : U32 := 0x20082008
  epoch : U32 := 0
  err : Tbl U32 := []
  links : Tbl Nat := []
  zexcl : List ZExcl := []
  rack : Option Byte := none
  /-- cells this device addressed to itself, not yet taken by their engine (log 24) -/
  loop : List Cell := []
  /-- cells that wait in the input buffers of their ports for Weir tokens (R366, log 81) -/
  waiting : List (Nat × Cell) := []
  deriving DecidableEq, Repr, Inhabited

/-! ## Rack memory -/

/-- The signal an operation raises (R215, R139, R337). -/
inductive SigTarget where
  | none
  | scoreboard (lcore idx : Nat)
  | semaphore (idx : Nat)
  deriving DecidableEq, Repr, Inhabited

/-- Where a rack-memory request stands (R214 to R224). -/
inductive RmPhase where
  | queued | heldFlag | sent | merged | waitFence | done
  deriving DecidableEq, Repr, Inhabited

/-- A request of stream (part, stream): its descriptor, tag, SEQ, cells and answers (R214 to R224).
`order` counts the stream's requests in push order. -/
structure RmReq where
  part : Nat
  stream : Nat
  order : Nat
  desc : BitVec 512
  phase : RmPhase
  tag : Option Nat
  seq : U32
  cells : List Cell
  retries : Nat
  /-- multicast: rack positions not yet confirmed -/
  unconfirmed : BitVec 64
  /-- LOAD data received, by byte offset, and the cells seen -/
  data : Memory
  gotCells : List Nat
  respStatus : Option Byte
  respOld : U64
  /-- RMEM_CFG when the request was sent (R229) -/
  cfg : U32
  deriving DecidableEq, Repr, Inhabited

/-- A request being received at the target (R219, R202). -/
structure RmRx where
  src : DevId
  part : Nat
  tag : Nat
  ty : Nat
  cmd : Option (BitVec 512)
  retry : Bool
  flagStore : Bool
  data : Tbl (BitVec 512)
  deriving DecidableEq, Repr, Inhabited

/-- A merged reduction waiting for its other cells (R202). -/
structure MergePair where
  src : DevId
  part : Nat
  tag : Nat
  data : Tbl (BitVec 512)
  contributors : Option (List (DevId × Nat))
  deriving DecidableEq, Repr, Inhabited

/-- A held flag or target fence (R221, R222). -/
structure HeldFlag where
  src : DevId
  part : Nat
  tag : Nat
  seq : U32
  fence : Bool
  cmd : BitVec 512
  data : List (BitVec 512)
  deriving DecidableEq, Repr, Inhabited

/-- A duplicate-window entry with its result and how long it is kept (R224). -/
structure RmDup where
  src : DevId
  part : Nat
  tag : Nat
  op : Nat
  life : Nat
  status : Byte
  old : U64
  entered : Nat
  seq : Nat
  deriving DecidableEq, Repr, Inhabited

/-- A combining-buffer entry (R225): element type, address (physical), contribution so far. -/
structure CombEntry where
  addr : Nat
  etype : Nat
  data : List Byte
  deriving DecidableEq, Repr, Inhabited

/-- A gateway window (R227): bytes written or read, by offset within its 4 KiB range. -/
structure GwWin where
  part : Nat
  stream : Nat
  base : U64
  isWrite : Bool
  /-- a read window whose data has not all come -/
  filling : Bool
  bytes : Tbl Byte
  mask : List Nat
  tag : Option Nat
  flushing : Bool
  cells : List Cell
  retries : Nat
  gotCells : List Nat
  status : Byte
  /-- the request that opened the window, in push order -/
  order : Nat
  /-- RMEM_CFG when its transfer was sent (R229) -/
  cfg : U32
  deriving DecidableEq, Repr, Inhabited

/-- The stream that wrote a page of a deterministic partition's export in a step (R228). A request of the fabric
names its device and no stream; one of this device is known by both. -/
structure PageWriter where
  part : Nat
  page : Nat
  step : Nat
  src : DevId
  stream : Option Nat
  deriving DecidableEq, Repr, Inhabited

/-- A gateway bulk write being received (R227). -/
structure GwRx where
  src : DevId
  part : Nat
  tag : Nat
  cmd : Option (BitVec 512)
  cells : Tbl (BitVec 512)
  deriving DecidableEq, Repr, Inhabited

/-- Sequence numbers applied or refused, per source rack position and partition (R220): every
number below `low`, and those listed. -/
structure SeqIn where
  low : U32
  above : List U32
  deriving DecidableEq, Repr, Inhabited

/-- A tag not yet reusable (R159, R224). -/
structure TagHold where
  tag : Nat
  peer : DevId
  /-- CLASS of the partition that used it: a held Sluice tag counts against its reserve (R154) -/
  cls : Nat
  deriving DecidableEq, Repr, Inhabited

/-- The rack-memory unit (R211 to R233). -/
structure Rmem where
  cfg : U32 := 0x06440028
  mcast : Tbl (BitVec 128) := []
  fenced : BitVec 64 := 0
  err : Tbl U32 := []
  reqs : List RmReq := []
  nextOrder : Nat := 0
  /-- next SEQ by 16 × target + partition -/
  seqOut : Tbl U32 := []
  /-- by 16 × rack position + partition -/
  seqIn : Tbl SeqIn := []
  rx : List RmRx := []
  merges : List MergePair := []
  heldFlags : List HeldFlag := []
  dup : List RmDup := []
  comb : List CombEntry := []
  wins : List GwWin := []
  gwRx : List GwRx := []
  /-- the writer of each page in its step (R228, log 26) -/
  writers : List PageWriter := []
  holds : List TagHold := []
  deriving DecidableEq, Repr, Inhabited

/-! ## Sluice -/

/-- One outgoing transfer of an exchange (R125, R154, R157). -/
structure OutXfer where
  dst : Nat
  dev : DevId
  part : Nat
  tag : Option Nat
  /-- all cells, count or header first, in OFFSET order; the first `sent` have been sent -/
  cells : List Cell
  sent : Nat
  /-- count, directory and record index cells -/
  nctl : Nat
  /-- runs of the directory: (LSLOT, rank, record indices), R134 -/
  runs : List (Nat × Nat × List Nat)
  /-- grant cells received, by OFFSET (R141) -/
  grants : Tbl (BitVec 512)
  counted : Bool
  ready : Bool
  deferred : Bool
  /-- acknowledged, or ended under R160 to R164 -/
  ended : Bool
  retries : Nat
  /-- the timer of R157 runs -/
  timing : Bool
  /-- the ACK has come before the grant cells (R141, R185) -/
  early : Bool
  /-- SLC_CFG when it started (R165) -/
  cfg : U32
  deriving DecidableEq, Repr, Inhabited

/-- One incoming transfer (R138 to R147, R158). -/
structure InXfer where
  src : Nat
  dev : DevId
  /-- this member itself: the loopback path (R125) -/
  own : Bool
  tag : Option Nat
  count : Option (BitVec 512)
  /-- directory and record index cells by OFFSET -/
  dir : Tbl (BitVec 512)
  /-- data cells received and not yet placed, by OFFSET; for COMBINE every data cell -/
  landed : Tbl (BitVec 512)
  /-- every OFFSET received (the bitmap of R158) -/
  seen : List Nat
  /-- (LSLOT, rank, first row, granted), in directory order (R140) -/
  grants : List (Nat × Nat × Nat × Nat)
  /-- cells placed -/
  placed : Nat
  readySent : Bool
  ackSent : Bool
  complete : Bool
  /-- landing buffers held for it: (pool, buffer) -/
  land : List (Nat × Nat)
  /-- COMBINE: return buffers held, by their number within the transfer -/
  rets : Tbl Nat
  retsHeld : Bool
  /-- SLC_CFG when its count or header cell came (R165) -/
  cfg : U32
  deriving DecidableEq, Repr, Inhabited

/-- Progress of an exchange (R132 to R163). -/
inductive ExchPhase where
  | waitTags | running | ended
  deriving DecidableEq, Repr, Inhabited

/-- An open exchange (R125 to R164). `uid` tells exchanges apart (the model's own). -/
structure Exch where
  uid : Nat
  part : Nat
  id : U32
  sub : U32
  lcore : Nat
  descAddr : Nat
  desc : BitVec 512
  combine : Bool
  rank : Nat
  peers : List (DevId × Nat)
  rxt : List (BitVec 512)
  phase : ExchPhase
  step : U64
  /-- T of the count vector -/
  tokens : Nat
  outs : List OutXfer
  ins : List InXfer
  rowsFixed : Bool
  /-- EXPECTED, cells placed, refused rows, sources with granted rows, ALLOC buffer, by LSLOT -/
  expected : Tbl Nat
  placed : Tbl Nat
  refusedAt : Tbl Nat
  srcRows : Tbl Nat
  rxBuf : Tbl Nat
  /-- slots whose header is final -/
  finals : List Nat
  srcDone : Nat
  /-- own records refused at destinations (REFUSED of R133) -/
  refused : Nat
  /-- COMBINE at the home: record indices expected from each source rank, in order (R151) -/
  homeRecs : Tbl (List Nat)
  summed : List Nat
  status : Byte
  cause : Nat
  peer : Nat
  /-- DONE_SEM is to be signalled (R163) -/
  signal : Bool
  /-- STATUS_WORD has been written -/
  wrote : Bool
  deriving DecidableEq, Repr, Inhabited

/-- A cell held for an exchange not yet posted, or for a transfer whose count cell has not come
(R138, R143). `whole` is the exchange of a transfer that was received whole and acknowledged (R158). -/
structure Stored where
  cell : Cell
  whole : Option U32
  /-- SLC_CFG when it came (R165) -/
  cfg : U32
  deriving DecidableEq, Repr, Inhabited

/-- Early credit held by this source towards (device, partition), or granted to a source (R156). `own` is the
partition that earned it, at the source. -/
structure EarlyCredit where
  own : Nat
  dev : DevId
  part : Nat
  source : Bool
  cells : Nat
  pool : Nat
  bufs : List Nat
  deriving DecidableEq, Repr, Inhabited

/-- A failed operation kept for queries (R162). -/
structure FailedOp where
  part : Nat
  id : U32
  seq : U32
  status : Byte
  deriving DecidableEq, Repr, Inhabited

/-- An SLC_ABORT awaiting its acknowledgement (R538). -/
structure PendingAbort where
  part : Nat
  id : U32
  cell : Cell
  resends : Nat
  /-- its receiver has been escalated (R538) -/
  escalated : Bool
  deriving DecidableEq, Repr, Inhabited

/-- A PEER_QUERY awaiting its PEER_STATE (R162). -/
structure Query where
  rill : Bool
  part : Nat
  id : U32
  seq : U32
  dev : DevId
  deriving DecidableEq, Repr, Inhabited

/-- Duplicate-window entry of Sluice (R158, R159). -/
structure SlcDup where
  src : DevId
  part : Nat
  tag : Nat
  id : U32
  entered : Nat
  /-- TIMEOUT_US × (RETRIES + 1) of its transfer, in nanoseconds (R159, R165) -/
  life : Nat
  /-- received whole and acknowledged; otherwise ended by a failure (R158, R161) -/
  whole : Bool
  deriving DecidableEq, Repr, Inhabited

/-- An exchange that has ended at this member, remembered until `until_` (the model's own, log 29). -/
structure PastExch where
  part : Nat
  id : U32
  combine : Bool
  until_ : Nat
  deriving DecidableEq, Repr

/-- The areas of a DISPATCH that has ended OK, which its COMBINE reads: nothing else may write them until that has
ended (R172). `rec_` and `cnt` are REC_ADDR and CNT_ADDR. -/
structure KeptAreas where
  part : Nat
  sub : U32
  rec_ : Nat
  cnt : Nat
  areas : List (Nat × Nat)
  deriving DecidableEq, Repr, Inhabited

/-- Sluice (R125 to R170, R537, R538). -/
structure Sluice where
  cfg : U32 := 0x400400C8
  tagres : U32 := 0x00800800
  err : Tbl U32 := []
  exch : List Exch := []
  nextUid : Nat := 0
  store : List Stored := []
  dup : List SlcDup := []
  holds : List TagHold := []
  credits : List EarlyCredit := []
  failed : List FailedOp := []
  aborts : List PendingAbort := []
  queries : List Query := []
  /-- exchanges that ended here not long ago, for SLC_ABORTs that come late (R161, log 29) -/
  past : List PastExch := []
  kept : List KeptAreas := []
  /-- R365: the partition whose XCHG was taken last, and its XCHGs of this round; the logical cores whose XCHG was
  held at issue, in order of arrival -/
  lastPart : Nat := 15
  used : Nat := 0
  held : List Nat := []
  deriving DecidableEq, Repr, Inhabited

/-! ## Rill -/

/-- A chunk slot of a stage (R244): the member's own contribution by slice rank, once copied in;
whole transfers by peer rank; cells of the others; the peers that the own contribution has not been
sent to. -/
structure Slot where
  stage : Nat
  chunk : Nat
  own : Option (Tbl (List Byte))
  rx : Tbl (List Byte)
  cells : Tbl (Tbl (BitVec 512))
  unsent : List Nat
  /-- the peer of each copy of a transfer that has failed its checksums (R255) -/
  bad : List Nat
  summed : Bool
  retained : Bool
  deriving DecidableEq, Repr, Inhabited

/-- An outgoing transfer of one chunk of one stage to one peer, sent (R245, R254). -/
structure CollXfer where
  stage : Nat
  chunk : Nat
  peer : Nat
  cells : List Cell
  isEmpty : Bool
  acked : Bool
  retries : Nat
  /-- the timer of R254 runs -/
  timing : Bool
  deriving DecidableEq, Repr, Inhabited

/-- The verdict round of a collective (R253): level, MISMATCH cells sent as 16,384 × level + peer rank, and the least
candidate so far as 16,384 × cause + rank. -/
structure Verdict where
  level : Nat
  sent : List Nat
  cand : Nat
  deriving DecidableEq, Repr, Inhabited

/-- A collective that has consumed a sequence number (R236 to R258). `uid` tells collectives apart
(the model's own). An ended one is kept for late cells. -/
structure Coll where
  uid : Nat
  part : Nat
  comm : Nat
  seq : U32
  sub : U32
  /-- logical core and address of the descriptor; none when posted by the sequencer -/
  at_ : Option (Nat × Nat)
  /-- bucket index and role when posted by the gradient sequencer: 0 reduce-scatter, 1 summary -/
  bucket : Option (Nat × Nat)
  desc : BitVec 512
  cm : BitVec 192
  /-- member devices by rank -/
  mem : List DevId
  chunkLog2 : Nat
  nchunk : Nat
  bufs : List Nat
  slotsHeld : Bool
  /-- the STATUS its OPEN cells carry, once they are due -/
  openStatus : Option Byte
  openSent : List Nat
  openAcked : List Nat
  /-- OPENs held, by peer rank: STATUS and HASH -/
  opens : Tbl (Byte × U64)
  started : Nat
  slots : List Slot
  outs : List CollXfer
  /-- FREED reported by a peer, by 16,384 × stage + peer rank -/
  freedBy : Tbl Nat
  /-- own FREED by stage, and chunks released above it -/
  freed : Tbl Nat
  above : Tbl (List Nat)
  /-- chunks complete and not yet signalled, and the number signalled -/
  doneAbove : List Nat
  signalled : Nat
  done : Nat
  verdict : Option Verdict
  /-- MISMATCH cells received: (level, peer rank, candidate) -/
  got : List (Nat × Nat × Nat)
  expCand : Option Nat
  /-- ABORT due to the peers: STATUS, CAUSE, RANK; and the peers it has been sent to -/
  abort : Option (Byte × Nat × Nat)
  abortSent : List Nat
  status : Byte
  cause : Nat
  rank : Nat
  ovf : Bool
  nf : Bool
  satd : Bool
  csumFixed : Bool
  /-- RILL_CFG when it was accepted (R259) -/
  cfg : U32
  ended : Bool
  deriving DecidableEq, Repr, Inhabited

/-- A chunk's retained contributions (R255, R278): the bucket table entry that posted the collective, the first block of
the shard they cover, and one contribution per level rank. -/
structure Retained where
  part : Nat
  entry : Option Nat
  first : Nat
  contribs : List (List Byte)
  bufs : List (Nat × Nat)
  deriving DecidableEq, Repr, Inhabited

/-- A resend hold (R254). -/
structure CollHold where
  part : Nat
  comm : Nat
  seq : U32
  stage : Nat
  chunk : Nat
  peer : Nat
  deriving DecidableEq, Repr, Inhabited

/-- An OPEN, ABORT or MISMATCH not yet acknowledged (R250). -/
structure CollCtl where
  part : Nat
  comm : Nat
  seq : U32
  kind : Nat
  level : Nat
  peer : Nat
  cell : Cell
  deriving DecidableEq, Repr, Inhabited

/-- Rill (R234 to R264). -/
structure Rill where
  cfg : U32 := 0x00240190
  colls : List Coll := []
  nextUid : Nat := 0
  /-- OPEN, ABORT and MISMATCH cells of collectives not yet posted -/
  store : List Cell := []
  ctl : List CollCtl := []
  retain : List Retained := []
  failed : List FailedOp := []
  holds : List CollHold := []
  /-- nanoseconds waited by level: window, input -/
  lvlWait : Tbl (Nat × Nat) := []
  err : Tbl U32 := []
  /-- R365: the partition whose COLL was taken last, and its COLLs of this round; the logical cores whose COLL was held
  at issue, in order of arrival -/
  lastPart : Nat := 15
  used : Nat := 0
  held : List Nat := []
  deriving DecidableEq, Repr, Inhabited

/-! ## Gate Unit -/

/-- A push in the command queue (R77, R94). -/
structure Push where
  part : Nat
  lcore : Nat
  sub : U32
  /-- index of the GATE_PUSH among the task's commands -/
  cmd : Nat
  w : BitVec 128
  deriving DecidableEq, Repr, Inhabited

/-- One token of an open step: held choices and substitutes as expert numbers, and scores and
flags (R102 to R109). -/
structure GToken where
  index : Nat
  skipped : Bool
  nan : Bool
  held : List (Option Nat)
  subs : List Nat
  scores : Tbl U32
  deriving DecidableEq, Repr, Inhabited

/-- An open Gate step (R98 to R101). `id` tells steps apart (the model's own). -/
structure GStep where
  id : Nat
  part : Nat
  slot : Nat
  sub : U32
  desc : BitVec 2048
  granted : Bool
  serve : Bool
  step : U64
  /-- pushes held aside until the workspace is granted (R94) -/
  held : List Push
  bias : List U32
  /-- placement table entries of the non-null experts, and the CAUSE of those that cannot be read -/
  table : List (BitVec 128)
  bad : Tbl Nat
  lasts : Nat
  tokens : List GToken
  closed : Bool
  written : Bool
  failed : Bool
  /-- SCH_RES as it was when the opening push was made (R383) -/
  res : U32
  deriving DecidableEq, Repr, Inhabited

/-- The Gate Unit (R93 to R124). Descriptors are keyed by 256 × partition + slot. -/
structure Gate where
  descs : Tbl (BitVec 2048) := []
  queue : List Push := []
  steps : List GStep := []
  nextId : Nat := 0
  lastPart : Nat := 15
  used : Nat := 0
  deriving DecidableEq, Repr, Inhabited

/-! ## Cores and tasks -/

/-- A weight plane (R55, R56): EMPTY when `fmt` is none. -/
structure Plane where
  fmt : Option Nat := none
  elems : List Byte := []
  scales : List Byte := []
  deriving DecidableEq, Repr, Inhabited

/-- An accumulator bank (R58): type, and words by 512 × row + column, unlisted zero. -/
structure Bank where
  int : Bool := false
  cells : Tbl U32 := []
  deriving DecidableEq, Repr, Inhabited

/-- The digest context of a core (R78, R83). -/
structure DigestCtx where
  accum : Nat := 0
  layer : Nat := 0
  tensor : Nat := 0
  row : U32 := 0
  col : U32 := 0
  deriving DecidableEq, Repr, Inhabited

/-- A command issued and not yet complete: its footprint, and its signal (R66, R67). -/
structure InFlight where
  idx : Nat
  w : BitVec 128
  reads : List (Nat × Nat)
  writes : List (Nat × Nat)
  /-- core movers: first half written; engine port: the engine has accepted the work -/
  half : Bool
  /-- bytes a control-space MOV has delivered -/
  accepted : Nat
  nullTile : Bool
  /-- replayed with its effects of R415 left out (R416) -/
  quiet : Bool
  /-- bytes a mover's half event has moved (R334, R335) -/
  moved : List Byte
  /-- the tile digest to add at completion, and the digest context at issue (R83) -/
  digest : Option U64
  ctx : DigestCtx
  deriving DecidableEq, Repr, Inhabited

/-- A task on a core or in a context slot (R359, R91, R415). `ip` indexes the program's commands.
The scoreboard here is the Task Scheduler's copy of R415, kept outside the core. -/
structure Task where
  part : Nat
  sub : U32
  entry : Nat
  prog : Nat
  task : Nat
  args : List U32
  start : Nat
  count : Nat
  ip : Nat
  sb : Tbl U32
  cnt : Tbl U32
  dig : DigestCtx
  loader : List InFlight
  array : List InFlight
  drain : List InFlight
  vector : List InFlight
  mover0 : List InFlight
  mover1 : List InFlight
  port : List InFlight
  holding : Option (BitVec 128)
  atStep : Bool
  stopped : Option Byte
  /-- effect log (R415): indices of commands whose bit is set -/
  effects : List Nat
  /-- ranges of device addresses that its commands have read, and whether its replay would have undefined contents:
  a byte it had read was written by it, or changed (R415) -/
  reads : List (Nat × Nat)
  broken : Bool
  stepAtStart : U64
  /-- replayed: the last command whose bit was set at the failure (R416) -/
  replay : Option Nat
  /-- step counter for Ripple keys during a replay (R416) -/
  replayStep : U64
  /-- bytes delivered by control-space MOVs that a failure cut short (R415) -/
  partials : Tbl Nat
  deriving DecidableEq, Repr, Inhabited

/-- SCH_CORE_STATUS.STATE (R89). -/
inductive CoreState where
  | fused | spare | basking | waking | idle | running | saving | failed
  deriving DecidableEq, Repr, Inhabited

/-- What a hand-over under way does when it ends (R356, R371). -/
structure Handover where
  outPart : Option Nat
  inPart : Option Nat
  deriving DecidableEq, Repr, Inhabited

/-- A physical core (R55 to R60, R89 to R92, R355). -/
structure Core where
  st : CoreState := .fused
  lcore : Option Nat := none
  part : Nat := 0
  holder : Option Nat := none
  ce : U16 := 0
  ue : U16 := 0
  sram : Memory := []
  plane0 : Plane := {}
  plane1 : Plane := {}
  acc0 : Bank := {}
  acc1 : Bank := {}
  task : Option Task := none
  handover : Option Handover := none
  /-- a core under recovery: the failed core's task, to be replayed (R414, R416) -/
  recovering : Option Nat := none
  deriving DecidableEq, Repr, Inhabited

/-- A saved context (R91, R353). -/
structure Ctx where
  task : Task
  plane0 : Plane
  plane1 : Plane
  acc0 : Bank
  acc1 : Bank
  /-- held by a pause rather than pre-empted (R373) -/
  paused : Bool
  deriving DecidableEq, Repr, Inhabited

/-! ## Partitions -/

/-- PART_CFG.STATE (R354). -/
inductive PState where
  | none | active | pausing | paused | destroying
  deriving DecidableEq, Repr, Inhabited

/-- A task table entry of a stored program (R63). -/
structure TaskDef where
  start : Nat
  count : Nat
  pinned : Bool
  lcore : Nat
  deriving DecidableEq, Repr, Inhabited

/-- A stored program (R62 to R65, R357). -/
structure Program where
  cmds : List (BitVec 128)
  tasks : List TaskDef
  sramUnits : Nat
  pages : Nat
  deriving DecidableEq, Repr, Inhabited

/-- A task queue entry (R358). -/
structure QEntry where
  sub : U32
  index : Nat
  prog : Nat
  task : Nat
  startEn : Bool
  startSem : Nat
  startVal : U32
  args : List U32
  deriving DecidableEq, Repr, Inhabited

/-- An operation that a partition has under way, by what tells it from every other. -/
inductive OpId where
  | cmd (core : Nat) (sub : U32) (entry idx : Nat)
  | gate (id : Nat)
  | exch (uid : Nat)
  | coll (uid : Nat)
  | rack (stream order : Nat)
  /-- the n-th descriptor of a channel -/
  | desc (ch n : Nat)
  | kv (seq : Nat)
  | bucket (index : Nat)
  deriving DecidableEq, Repr

/-- An open submission's completion record (R360, R378). -/
structure Sub where
  id : U32
  total : Nat
  /-- tasks retired, with their status, by entry -/
  retired : Tbl Byte
  aborting : Bool
  window : Option Nat
  gen : Nat
  req : ReqId
  noevt : Bool
  /-- rack-memory requests and fetched descriptors that were under way at its ABORT (R378) -/
  rest : List OpId
  /-- the status that a fault gives it, whatever its tasks end with (R409, R419) -/
  failed : Option Byte
  deriving DecidableEq, Repr, Inhabited

/-- A digest log entry (R399). -/
structure DigestEntry where
  step : U64
  layer : Nat
  tensor : Nat
  accum : Nat
  lcore : Nat
  value : U64
  time : Nat
  deriving DecidableEq, Repr, Inhabited

/-- The step barrier (R78, R478). -/
structure Barrier where
  participants : Nat
  job : Bool
  arrived : List Nat
  /-- the device's arrival has gone to the job barrier -/
  sentUp : Bool
  /-- a RELEASE has come and waits out its skew delay: (AND, PAUSE, SNAP) -/
  release : Option (Bool × Bool × Bool)
  /-- the release is applied; the commit is still to come -/
  released : Bool
  deriving DecidableEq, Repr, Inhabited

/-- Phase of a bucket within a step (R268 to R282); a `Post` phase waits for its place in the posting
order of its communicator. -/
inductive BPhase where
  | prepassPost | prepass | converting | rsPost | reducing | verifying | sumPost | summary | final
  deriving DecidableEq, Repr, Inhabited

/-- A bucket of the present step that has filled (R266 to R282). -/
structure Bucket where
  index : Nat
  entry : BitVec 1024
  phase : BPhase
  /-- reduced in this step -/
  launched : Bool
  eloc : Option Int
  emax : Option Int
  exp : Int
  predicted : Bool
  redo : Bool
  /-- the conversion set SATD -/
  satd : Bool
  /-- FLAGS of the entry -/
  flags : Nat
  status : Byte
  /-- its reduce-scatter is posted with this failing status -/
  fail : Option Byte
  /-- its summary round has ended with this status -/
  sumEnd : Option Byte
  deriving DecidableEq, Repr, Inhabited

/-- Barrier arrivals gathered at a collector, relay or root (R478, R479). -/
structure Gather where
  step : U64
  /-- sender, COUNT and AND of each arrival held -/
  from_ : List (DevId × Nat × Bool)
  /-- the column's, and the rack's, arrival has been sent on -/
  sentCol : Bool
  sentRack : Bool
  deriving DecidableEq, Repr, Inhabited

/-- A KV copy under way: sequence, and whether it suspends or resumes (R315). -/
structure KvCopy where
  seq : Nat
  suspend : Bool
  done : Bool
  /-- the pool pages concerned -/
  pages : List Nat
  deriving DecidableEq, Repr, Inhabited

/-- A SAVE_IMAGE under way: its request, the host window's session or the first LBA, the image; `failed` once the
host has refused a WRITE of it. -/
structure Saving where
  req : ReqId
  noevt : Bool
  toHost : Bool
  lba : Nat
  image : List Byte
  failed : Bool
  deriving DecidableEq, Repr, Inhabited

/-- A lowering of quotas that waits for the operations accepted before it (R300). -/
structure Lowering where
  units : Nat
  pages : Nat
  ext : Nat
  side : Nat
  ops : List OpId
  deriving DecidableEq, Repr, Inhabited

/-- The header of a snapshot generation: step counter, seeds, and the CRC-64/ECMA-182 of each region (R420). -/
structure SnapHead where
  gen : Nat
  step : U64
  seeds : List U64
  crcs : List U64
  deriving DecidableEq, Repr, Inhabited

/-- What the buddy holds of a member's generation besides its regions: the header, with the snapshot table by which
a spare finds them (R420, R421; log 82). -/
structure Mirror where
  dev : DevId
  head : SnapHead
  table : List Byte
  deriving DecidableEq, Repr, Inhabited

/-- Everything the manual keeps per partition number (R349 to R407 and the per-partition
registers of the other chapters). -/
structure Part where
  cls : Nat := 0
  det : Bool := false
  st : PState := .none
  coreset : U32 := 0
  /-- cores of the set that a PART_SET_QUOTA under way takes away (R351) -/
  leaving : U32 := 0
  /-- the quotas that operations accepted now are checked against (R300) -/
  lowering : Option Lowering := none
  sramUnits : Nat := 0
  pages : List Nat := []
  savePages : Nat := 0
  dlogPages : Nat := 0
  sideQuota : Nat := 0
  sideUsed : Nat := 0
  /-- physical pages of the charges outside the page list -/
  chargePages : List Nat := []
  flash : List Nat := []
  progs : Tbl Program := []
  queue : List QEntry := []
  heldSubs : List (Sub × List QEntry) := []
  subs : List Sub := []
  remembered : List U32 := []
  sems : Tbl U32 := []
  ctxs : Tbl Ctx := []
  images : Tbl Memory := []
  /-- words of its views, by logical core, with an uncorrectable error and not yet written in full (R60, R418) -/
  viewBad : Tbl (List Nat) := []
  arith : U32 := 0
  gateFlags : U32 := 0
  gateFault : U32 := 0
  slcLand : U32 := 0
  slcFlags : U32 := 0
  rillFlags : U32 := 0
  comms : Tbl (BitVec 192) := []
  rmExport : U32 := 0
  grdCfg : U64 := 0x0000000000020100
  grdCfgNext : Option U64 := none
  grdBtab : U64 := 0
  grdBtabNext : Option U64 := none
  /-- GRD_STATUS.PHASE is FAILED -/
  grdFailed : Bool := false
  /-- the present step's barrier is known not to release (R285) -/
  notReleased : Bool := false
  lastVote : Bool := false
  commitStep : U32 := 0
  grdFlags : U32 := 0
  grdErr : Tbl U32 := []
  buckets : List Bucket := []
  vote : Option Bool := none
  committed : Bool := false
  snap : BitVec 128 := 0
  /-- headers of the valid local generations, the newest last, and of the one that the buddy is being sent (R420) -/
  heads : List SnapHead := []
  snapHeld : Option SnapHead := none
  /-- copies of a commit, and of a snapshot, that the firmware channel is making; false once one has failed (R284, R420) -/
  promoting : Option Bool := none
  copying : Option Bool := none
  /-- generations of the member whose buddy this device is -/
  mirrors : List Mirror := []
  /-- the step whose copy a spare has asked its buddy for (R421) -/
  refill : Option U64 := none
  weight : Nat := 1
  watchdog : Nat := 100
  weirRate : U64 := 0
  weirBurst : U64 := 0x0100010001000100
  /-- bucket levels in bytes, by resource 0 to 3 -/
  weirLevel : Tbl Int := []
  /-- nanoseconds that operations waited, by resource (R368) -/
  weirWait : Tbl Nat := []
  barrier : Option Barrier := none
  step : U64 := 0
  seeds : Tbl U64 := []
  accum : Tbl U64 := []
  dlogLog2 : Nat := 10
  dlogWritten : U32 := 0
  dlog : List DigestEntry := []
  detReject : U32 := 0
  /-- a SAVE_IMAGE under way (R401) -/
  saving : Option Saving := none
  pauseReq : List (ReqId × Bool) := []
  resumeReq : List (ReqId × Bool) := []
  pauseAtRelease : Bool := false
  atBoundary : Bool := false
  /-- at its step boundary, its tasks and views being saved (R373) -/
  holding : Bool := false
  kvCfg : BitVec 320 := 0
  kvFree : List Nat := []
  kvCfgErr : Bool := false
  /-- flash slots of a suspended sequence, and copies begun at the last boundary -/
  kvSlots : Tbl (List Nat) := []
  kvCopies : List KvCopy := []
  /-- step boundaries that the KV page manager has yet to process (R315) -/
  kvDue : Nat := 0
  job : BitVec 128 := 0
  gather : Option Gather := none
  /-- the latest arrival sent as member, as column collector and as rack relay (R479) -/
  lastArrive : Option (U64 × Bool) := none
  lastCol : Option (U64 × Nat × Bool) := none
  lastRack : Option (U64 × Nat × Bool) := none
  deriving DecidableEq, Repr, Inhabited

/-! ## Memory tiers, Cistern, DMA -/

/-- DRAM and its maintenance (R292 to R305, R316, R317, R320). Rows and banks are numbered by
`Config.dramRow` and `Config.dramBank`. -/
structure MemTier where
  dram : Memory := []
  /-- line numbers (physical address / 64) of poisoned lines -/
  poison : List Nat := []
  cfg : U32 := 0x00000818
  /-- MEM_CFG in force, and when the present scrub period began (R316) -/
  cfgUsed : U32 := 0x00000818
  since : Nat := 0
  err : Tbl U32 := []
  /-- corrected errors of a row within the scrub period -/
  rowCe : Tbl Nat := []
  /-- (row, channel, since) being copied to a spare row -/
  rowSparing : List (Nat × Nat × Nat) := []
  /-- spare rows used, by 64 × bank + channel -/
  bankRows : Tbl Nat := []
  /-- rows with uncorrectable errors, by 64 × bank + channel -/
  badRows : Tbl (List Nat) := []
  /-- (channel, bank, since) being copied to the channel's spare bank -/
  bankSparing : List (Nat × Nat × Nat) := []
  sparedChans : List Nat := []
  refresh2x : Bool := false
  deriving DecidableEq, Repr, Inhabited

/-- The flash tier (R306 to R311, R318 to R320). Logical blocks are keyed by 4,096 × extent + block;
`place` gives the physical block holding one: 6,144 × erase block + index (log 38). -/
structure Flash where
  blocks : Tbl Memory := []
  lost : List Nat := []
  /-- blocks that no read can correct any more and none has met yet, and erase blocks whose reads need soft retries
  (R310; log 38) -/
  weak : List Nat := []
  soft : List Nat := []
  cfg : U64 := 0x00004070C350C814
  place : Tbl Nat := []
  /-- the erase block that takes new writes, and the 4 KiB blocks written into it -/
  openEb : Option (Nat × Nat) := none
  /-- erase blocks programmed since their last erase -/
  used : List Nat := []
  reads : Tbl Nat := []
  erases : Tbl Nat := []
  programmed : Nat := 0
  retired : List Nat := []
  /-- erase blocks waiting for relocation, with the reason: 0 read disturb, 1 scrub, 2 levelling -/
  relocQ : List (Nat × Nat) := []
  announced : Nat := 0
  err : Tbl U32 := []
  deriving DecidableEq, Repr, Inhabited

/-- A held buffer: holder and ENGINE bit (R328). -/
structure Held where
  part : Nat
  engine : Bool
  deriving DecidableEq, Repr, Inhabited

/-- A pool (R321 to R326, R343). -/
structure Pool where
  cfg : U64 := 0
  base : U64 := 0
  thr : U64 := 0x0000000000F0E0C0
  held : Tbl Held := []
  /-- last holder of each buffer (R323) -/
  prev : Tbl Nat := []
  pages : List Nat := []
  peak : Nat := 0
  level : Nat := 0
  deriving DecidableEq, Repr, Inhabited

/-- A waiting engine request (R327): what asked, so that the grant can be handed to it. -/
inductive WaitFor where
  | alloc (exch : U32) (lslot : Nat)
  | returns (exch : U32) (src : Nat)
  | slots (uid : Nat)
  | retain (comm chunk : Nat)
  deriving DecidableEq, Repr, Inhabited

structure WaitReq where
  pool : Nat
  part : Nat
  n : Nat
  who : WaitFor
  deriving DecidableEq, Repr, Inhabited

/-- Cistern (R321 to R331, R343, R344). Shares are keyed by 16 × pool + partition. -/
structure Cistern where
  sram : Memory := []
  /-- words with an uncorrectable error, not yet written in full (R305, R418) -/
  bad : List Nat := []
  pools : Tbl Pool := []
  shares : Tbl U64 := []
  waits : List WaitReq := []
  err : Tbl U32 := []
  deriving DecidableEq, Repr, Inhabited

/-- A bulk descriptor fetched by its channel (R337 to R341). -/
structure Desc where
  /-- the partition it works for -/
  part : Nat
  addr : Nat
  w : BitVec 512
  /-- step counter at the fetch, for Ripple -/
  step : U64
  started : Bool
  done : Bool
  halfDone : Bool
  status : Byte
  cause : Nat
  flags : Nat
  moved : Nat
  /-- a fabric transfer: requests still to issue, in order, and outstanding -/
  parts : List (BitVec 512)
  outstanding : Nat
  /-- a fabric transfer: the bytes acknowledged, as (offset, length), and those a FABRIC_READ wrote (R334, R335) -/
  acked : List (Nat × Nat)
  out : Tbl Byte
  deriving DecidableEq, Repr, Inhabited

/-- Channel states (R347). -/
inductive ChanState where
  | disabled | running | paused | fault
  deriving DecidableEq, Repr, Inhabited

/-- A bulk channel (R337, R346, R347). -/
structure Chan where
  cfg : U64 := 0x0000000000040000
  ring : U64 := 0
  head : Nat := 0
  state : ChanState := .disabled
  completed : U32 := 0
  fetched : List Desc := []
  deriving DecidableEq, Repr, Inhabited

/-- A bulk engine's register sets (R332, R342, R347): the channel whose descriptor stands in each, and
the round of R365. -/
structure Engine where
  active : Option Nat := none
  shadow : Option Nat := none
  lastPart : Nat := 15
  used : Nat := 0
  lastChan : Tbl Nat := []
  deriving DecidableEq, Repr, Inhabited

structure Dma where
  chans : Tbl Chan := []
  engs : Tbl Engine := []
  err : Tbl U32 := []
  deriving DecidableEq, Repr, Inhabited

/-! ## Scheduler, recovery, manager -/

/-- Device-wide scheduler registers (R90, R361, R370, R376, R381 to R385, R425, R426). -/
structure Sched where
  cfg : U32 := 3
  res : U32 := 0x00341040
  bask : U32 := 0x00010032
  err : Tbl U32 := []
  recovCfg : U32 := 0x000103E8
  replays : U16 := 0
  noReplay : U16 := 0
  lastPlaced : Tbl Nat := []
  /-- pre-emptions under way: waiting task's partition, submission, entry, and victim's core -/
  preempting : List (Nat × U32 × Nat × Nat) := []
  deriving DecidableEq, Repr, Inhabited

/-- A peer under probe (R412): when it began, whether the manager asked, routes tried. -/
structure Probe where
  peer : DevId
  since : Nat
  asManager : Bool
  /-- first-hop ports of the routes probed: an X or Y port of this device, or 28 + plane -/
  routes : List Nat
  /-- the manager that asked for the probe -/
  behalf : Option DevId
  /-- the devices that reported the peer to this manager -/
  askers : List DevId
  deriving DecidableEq, Repr, Inhabited

/-- A recovery that has begun (R423, R424). -/
structure Recovery where
  cls : Nat
  part : Option Nat
  unit : Nat
  since : Nat
  deriving DecidableEq, Repr, Inhabited

structure Recov where
  probes : List Probe := []
  running : List Recovery := []
  /-- peers declared lost -/
  lost : List DevId := []
  /-- silent peers that this device has reported to a manager -/
  reported : List DevId := []
  deriving DecidableEq, Repr, Inhabited

/-- A member's word that a snapshot is valid: both headers of the generation are written (R420, R421, log 22). -/
structure SnapReport where
  dev : DevId
  gen : Nat
  step : U64
  /-- the seeds of its header -/
  seeds : List U64
  deriving DecidableEq, Repr, Inhabited

/-- A job at its manager (R472 to R481). -/
structure Job where
  id : U64
  part : Nat
  spec : List Byte
  /-- members in rank order (R473) -/
  members : List DevId
  spares : List DevId
  subst : List (Nat × DevId)
  replaced : Nat
  acked : List Nat
  rounds : Nat
  status : Byte
  badPos : Option Nat
  launched : Bool
  req : ReqId
  noevt : Bool
  pauseMark : Bool
  /-- a pausing release has gone out, and its RESUME has not (R480) -/
  pausing : Bool
  paused : List DevId
  resumeAsked : Bool
  replaying : Bool
  /-- the steps whose arrivals the root discards, and the rack arrivals of the step that it gathers (R479) -/
  past : List U64
  arrivals : Option (U64 × List (DevId × Nat × Bool))
  /-- the valid snapshots that the members have reported (R421) -/
  reports : List SnapReport
  /-- the spares drawn, each with the step of the snapshot it was restored from: until a later one is valid there, it
  and its buddy may not both be lost (R421) -/
  fresh : List (DevId × U64)
  /-- the deputy that holds a copy of the launch (R477) -/
  deputy : DevId
  deriving DecidableEq, Repr, Inhabited

/-- A launch known at a receiver (R475). `created`: steps 2 to 5 are done. `open_`: LAUNCH_DONE has come.
The `old` fields are what an undone launch puts back. -/
structure Launch where
  id : U64
  part : Nat
  spec : List Byte
  subst : List (Nat × DevId)
  created : Bool
  open_ : Bool
  status : Byte
  manager : DevId
  oldStep : U64
  oldSeeds : Tbl U64
  oldSnap : BitVec 128
  deriving DecidableEq, Repr, Inhabited

/-- A FENCE_DEVICE under way at the manager (R482). -/
structure Fencing where
  dev : DevId
  rejoin : Bool
  epoch : BitVec 4
  waiting : List DevId
  req : Option ReqId
  started : Bool
  deriving DecidableEq, Repr, Inhabited

/-- The manager role (R471 to R484). `epochs` holds each rack's epoch as this manager knows it,
`cooling` the racks whose epoch advanced less than 10 ms ago. -/
structure Mgr where
  scm : U64 := 0x0000001400000000
  active : Bool := false
  /-- a heartbeat from PEER has been received, and one has been sent to it (R471) -/
  heard : Bool := false
  sent : Bool := false
  jobs : List Job := []
  launches : List Launch := []
  fences : List Fencing := []
  epochs : Tbl (BitVec 4) := []
  cooling : List Nat := []
  deriving DecidableEq, Repr, Inhabited

/-! ## The state -/

/-- One Doruth device but for what survives a reset. `grade` is the fuses' grade, read at reset
(R486); `fresh` counts the free values drawn (the model's own field). -/
structure Dev where
  grade : Grade := .a
  fresh : Nat := 0
  time : TimeBase := {}
  boot : Boot := {}
  pwr : Power := {}
  log : EventLog := {}
  host : HostLink := {}
  out : Outputs := {}
  fab : Fabric := {}
  rm : Rmem := {}
  slc : Sluice := {}
  rill : Rill := {}
  gate : Gate := {}
  cores : Tbl Core := []
  parts : Tbl Part := []
  mem : MemTier := {}
  ftl : Flash := {}
  cst : Cistern := {}
  dma : Dma := {}
  sched : Sched := {}
  rec_ : Recov := {}
  mgr : Mgr := {}
  deriving DecidableEq, Repr, Inhabited

/-- The machine: the commands waiting for the device, first in first out; what survives a reset;
and everything else. -/
structure State where
  pending : List Instr := []
  fuses : Fuses := {}
  dev : Dev := {}
  deriving DecidableEq, Repr, Inhabited

/-- The physical cores right after reset for a grade: the active cores IDLE (R90), two spares,
the rest fused off (R15). Which physical cores are active is the firmware's map (log 5). -/
def resetCores (g : Grade) : Tbl Core :=
  let active := match g with | .a => 32 | .b => 28
  (List.range 36).map fun n =>
    (n, if n < active then { st := .idle, lcore := some n }
        else if n < active + 2 then { st := .spare } else {})

/-- The ports that are not enabled at reset (R206). An unlisted port is at `Port`'s defaults. -/
def resetPorts : Tbl Port :=
  [44, 45, 46, 47].map fun n => (n, { cfg := 0x000010FC, state := .disabled })

/-- What the flash media keep through a reset (R307, R485). -/
def Flash.kept (x : Flash) : Flash :=
  { blocks := x.blocks, lost := x.lost, weak := x.weak, soft := x.soft, place := x.place, openEb := x.openEb, used := x.used, erases := x.erases
    programmed := x.programmed, retired := x.retired, announced := x.announced }

/-- The device right after a reset: everything lost but the fuses and the flash contents (R485). -/
def Dev.afterReset (g : Grade) (ftl : Flash) : Dev :=
  { grade := g, cores := resetCores g, fab := { ports := resetPorts }, ftl := ftl.kept }

/-- A machine that keeps its fuses and flash through a reset and has lost everything else (R485). -/
def afterReset (f : Fuses) (ftl : Flash) (queue : List Instr) : State :=
  { pending := queue, fuses := f, dev := Dev.afterReset f.grade ftl }

/-- The machine right after reset: every field at the manual's reset value, the others as
INVENTORY.md and log 4, 5, 19 and 20 say. -/
def State.reset : State := afterReset {} {} []

end Sys2Proof.Machine
end

