-- ==== Sys2Proof/Machine/Ops.lean ====
section
/-! DEFINITION. The operations every block uses: access to the parts of the state, the event log
(R520 to R527), host messages and events (R437 to R448, R462), device memory under the quotas
(R292 to R297), signals (R80 to R82), Weirs (R366). -/

namespace Sys2Proof.Machine

/-! ### Status codes (R532) and log sources and severities (R524, R525) -/

def sOk : Nat := 0x00
def sAccepted : Nat := 0x01
def sBusy : Nat := 0x02
def sNotReady : Nat := 0x03
def sExpired : Nat := 0x04
def sComplete : Nat := 0x05
def sAborted : Nat := 0x06
def sBadCommand : Nat := 0x10
def sBadField : Nat := 0x11
def sBadVersion : Nat := 0x12
def sBadLength : Nat := 0x13
def sDenied : Nat := 0x14
def sAuth : Nat := 0x15
def sQuota : Nat := 0x20
def sNoResource : Nat := 0x21
def sRetryLater : Nat := 0x22
def sMismatch : Nat := 0x30
def sPartial : Nat := 0x31
def sRedone : Nat := 0x32
def sProgFault : Nat := 0x40
def sNonDet : Nat := 0x41
def sRecovered : Nat := 0x50
def sInternal : Nat := 0x7F

def srcCore : Nat := 0x01
def srcGate : Nat := 0x02
def srcSluice : Nat := 0x03
def srcFabric : Nat := 0x04
def srcRmem : Nat := 0x05
def srcRill : Nat := 0x06
def srcGrd : Nat := 0x07
def srcMem : Nat := 0x08
def srcFtl : Nat := 0x09
def srcCistern : Nat := 0x0A
def srcDma : Nat := 0x0B
def srcSched : Nat := 0x0C
def srcDet : Nat := 0x0D
def srcHost : Nat := 0x0E
def srcBoot : Nat := 0x0F
def srcPwr : Nat := 0x10
def srcManager : Nat := 0x11
def srcRecovery : Nat := 0x12
def srcLog : Nat := 0x13

def sevInfo : Nat := 0
def sevNotice : Nat := 1
def sevWarning : Nat := 2
def sevError : Nat := 3
def sevCritical : Nat := 4

/-! ### Access to parts of the state -/

def Dev.part (d : Dev) (p : Nat) : Part := tgetD d.parts p {}

def Dev.modPart (d : Dev) (p : Nat) (f : Part → Part) : Dev :=
  { d with parts := tput d.parts p (f (d.part p)) }

def Dev.core (d : Dev) (pc : Nat) : Core := tgetD d.cores pc {}

def Dev.modCore (d : Dev) (pc : Nat) (f : Core → Core) : Dev :=
  { d with cores := tput d.cores pc (f (d.core pc)) }

def Dev.port (d : Dev) (n : Nat) : Port := tgetD d.fab.ports n {}

def Dev.modPort (d : Dev) (n : Nat) (f : Port → Port) : Dev :=
  { d with fab := { d.fab with ports := tput d.fab.ports n (f (d.port n)) } }

def Part.valid (x : Part) : Bool := x.st != .none

/-- The physical core that runs a logical core (R16). -/
def coreOf (d : Dev) (lcore : Nat) : Option Nat :=
  (d.cores.find? fun c => c.2.lcore == some lcore).map (·.1)

/-- The logical cores of a core set (R351). -/
def coreSet (x : Part) : List Nat := bitsSet 32 x.coreset.toNat

/-- A port in service (R206). -/
def Port.up (x : Port) : Bool := x.state == .up || x.state == .degraded

/-- The position a port stands for: itself, or the named port of a spare's MAP (R176). -/
def portRole (d : Dev) (n : Nat) : Nat := if n < 44 then n else fld (d.port n).cfg 7 2

/-- The port index in service for a named port: the port or the spare mapped to it (R176). -/
def portFor (d : Dev) (named : Nat) : Nat :=
  match [44, 45, 46, 47].find? fun n => bit (d.port n).cfg 0 && fld (d.port n).cfg 7 2 == named with
  | some n => if bit (d.port named).cfg 0 then named else n
  | none => named

def namedUp (d : Dev) (named : Nat) : Bool := (d.port (portFor d named)).up

/-- The device's rack (R181). -/
def rackNum (d : Dev) : Nat :=
  if (List.range 16).any fun q => namedUp d (28 + q) then (d.fab.rack.map (·.toNat)).getD 0
  else fld d.fab.cfg 23 16

/-- The device's own ID (R186). -/
def myId (d : Dev) : DevId := BitVec.ofNat 16 (rackNum d * 64 + d.pwr.slot.toNat)

def devX (i : DevId) : Nat := fld i 2 0
def devY (i : DevId) : Nat := fld i 5 3
def devRack (i : DevId) : Nat := fld i 13 6
def devPos (i : DevId) : Nat := fld i 5 0
def devPod (i : DevId) : Nat := fld i 13 10

/-- A saturating 32-bit counter of a block's error table (R11). -/
def bump (t : Tbl U32) (i n : Nat) : Tbl U32 := tmod t i 0 fun c => satAdd c n

/-- Draws the next free value's index. -/
def drawFree (d : Dev) : Nat × Dev := (d.fresh, { d with fresh := d.fresh + 1 })

/-! ### The event log (R520 to R527) -/

def dramRing : Nat := 2097152
def sramRing : Nat := 32768

/-- Puts one entry in the rings (R521, R523). -/
def writeEntry (d : Dev) (sev : Nat) (part : Option Nat) (source code data : Nat) : Dev :=
  let l := d.log
  let t := match l.lastTime with
    | some x => max d.time.now (x + 1)
    | none => d.time.now
  let e : LogEntry := ⟨t, sev, part, source, code, l.nextSeq, BitVec.ofNat 128 data⟩
  let copy := decide (sev ≥ fld l.cfg 21 19) || !d.boot.fwRegionOk
  let full := decide (l.dram.length ≥ dramRing)
  { d with log := { l with
      dram := lastN dramRing (l.dram ++ [e])
      sram := if copy then lastN sramRing (l.sram ++ [e]) else l.sram
      nextSeq := l.nextSeq + 1
      lastTime := some t
      err := if full then bump l.err 1 1 else l.err } }

/-- One log entry, unless below MIN_SEV or over the pair's RATE in this second (R521, R527). -/
def logIt (d : Dev) (sev : Nat) (part : Option Nat) (source code data : Nat) : Dev :=
  let l := d.log
  if sev < fld l.cfg 18 16 then d
  else
    let same (r : LogRate) : Bool := r.source == source && r.code == code
    let r := (l.rates.find? same).getD ⟨source, code, 0, 0⟩
    let rest := l.rates.filter fun x => !same x
    if r.written ≥ fld l.cfg 15 0 && sev != sevCritical then
      { d with log := { l with rates := rest ++ [{ r with left := r.left + 1 }], err := bump l.err 0 1 } }
    else
      writeEntry { d with log := { l with rates := rest ++ [{ r with written := r.written + 1 }] } }
        sev part source code data

/-- WRITE_IGNORED: a register write that was ignored (R526). -/
def logIgnored (d : Dev) (source : Nat) (r : Reg) (v : Nat) : Dev :=
  logIt d sevNotice none source 0x0002 (packNat [(0, (Config.regAddr r).toNat), (64, v % 2 ^ 64)])

/-- COUNTED: a counter was incremented (R526). -/
def logCounted (d : Dev) (sev source : Nat) (r : Reg) (cause count : Nat) : Dev :=
  logIt d sev none source 0x0003
    (packNat [(0, (Config.regAddr r).toNat), (64, cause % 2 ^ 32), (96, count % 2 ^ 32)])

/-- OP_STATUS: an operation ended (R526). -/
def logOp (d : Dev) (sev : Nat) (part : Option Nat) (source status cause unit ident addr : Nat) : Dev :=
  logIt d sev part source 0x0004
    (packNat [(0, status), (8, cause), (16, unit % 65536), (32, ident % 2 ^ 32), (64, addr % 2 ^ 64)])

/-! ### Weirs (R366, R367) -/

def resIdx : Resource → Nat
  | .dram => 0
  | .flash => 1
  | .fabric => 2
  | .host => 3

def weirRateOf (x : Part) (r : Nat) : Nat := fld x.weirRate (16 * r + 15) (16 * r)

/-- Bucket depth in bytes. -/
def weirDepth (x : Part) (r : Nat) : Nat := 4096 * fld x.weirBurst (16 * r + 15) (16 * r)

def weirLevelOf (x : Part) (r : Nat) : Int := tgetD x.weirLevel r (weirDepth x r)

/-- An operation on the resource may start (R366). -/
def weirOk (d : Dev) (p r : Nat) : Bool :=
  weirRateOf (d.part p) r == 0 || decide (weirLevelOf (d.part p) r > 0)

def weirCharge (d : Dev) (p r n : Nat) : Dev :=
  d.modPart p fun x => { x with weirLevel := tput x.weirLevel r (weirLevelOf x r - n) }

/-! ### Host messages (R437, R438, R440, R444) -/

def findSession (d : Dev) (sid : Nat) : Option Session := d.host.sessions.find? fun x => x.id == sid

def modSession (d : Dev) (sid : Nat) (f : Session → Session) : Dev :=
  { d with host := { d.host with sessions := updFirst (fun x => x.id == sid) f d.host.sessions } }

/-- The UHP header (R437). -/
def uhpHeader (version ty : Nat) (ece : Bool) (session len seq ackno : Nat) : List Byte :=
  toLe 32 (packNat [(0, version), (8, ty), (12, b2n ece), (16, session), (32, len), (64, seq), (128, ackno)])

/-- The truncated HMAC of a message whose MAC field is zero (R444). -/
def uhpMac (s : Session) (ty seq : Nat) (body : List Byte) : List Byte :=
  match s.key with
  | none => List.replicate 16 0
  | some k =>
    (hmac256 (toLe 32 k.key.toNat) (toLe 32 s.challenge.toNat ++ toLe 8 seq ++
      uhpHeader s.uhp.toNat ty false s.num body.length seq 0 ++ body)).take 16

def putMac (body mac : List Byte) (at_ : Nat) : List Byte := body.take at_ ++ mac ++ body.drop (at_ + 16)

/-- The window of unacknowledged messages in force (R442). -/
def sndWindow (s : Session) : Nat := min (if s.uhp.toNat ≥ 0x12 then s.window else 64) (fld s.cfg 47 32)

/-- The framing that HOST_NET_CFG gives a frame now (R465). -/
def framing (d : Dev) : Framing :=
  let v := d.host.netCfg
  ⟨BitVec.ofNat 12 (fld v 11 0), BitVec.ofNat 3 (fld v 14 12), BitVec.ofNat 6 (fld v 21 16)⟩

/-- UHP messages go out to a host's address and port; `ect` says whether they carry ECT(0). -/
def onLine (d : Dev) (addr : IpAddr) (port : U16) (ect : Bool) (ms : List OutMsg) : Dev :=
  { d with out := { d.out with msgs := d.out.msgs ++ ms.map fun m => ⟨m, addr, port, ect, framing d⟩ } }

/-- UHP messages of a session (R442). -/
def onSession (d : Dev) (s : Session) (ms : List OutMsg) : Dev := onLine d s.hostAddr s.hostPort (decide (s.uhp.toNat ≥ 0x12)) ms

/-- An MBOX_RESP has been sent: its request is outstanding no longer (R450). -/
def respSent (d : Dev) (sid : Nat) (m : OutMsg) : Dev :=
  let id : ReqId := ⟨sid, le m.body 1 1, BitVec.ofNat 32 (le m.body 4 4)⟩
  if m.ty = 3 then { d with host := { d.host with reqs := dropFirst (fun x => x.id == id && x.answered) d.host.reqs } } else d

/-- Puts waiting messages on the line while the window has room (R442). -/
def pumpFuel : Nat → Nat → Dev → Dev
  | 0, _, d => d
  | n + 1, sid, d =>
    match findSession d sid with
    | none => d
    | some s =>
      match s.waiting with
      | [] => d
      | m :: ms =>
        if s.unacked.length < sndWindow s && !s.stalled then
          let d := modSession d sid fun s => { s with waiting := ms, unacked := s.unacked ++ [⟨m, 0⟩] }
          pumpFuel n sid (respSent (onSession d s [m]) sid m)
        else d

def pumpSession (d : Dev) (sid : Nat) : Dev :=
  pumpFuel (((findSession d sid).map (·.waiting.length)).getD 0) sid d

/-- Sends one sequenced message; its MAC field lies at `macAt` of the body (R440, R444). -/
def sendSeq (d : Dev) (sid ty : Nat) (body : List Byte) (macAt : Nat) : Dev :=
  match findSession d sid with
  | none => d
  | some s =>
    let m : OutMsg := ⟨s.uhp, s.num, BitVec.ofNat 4 ty, s.sndNext, 0, false,
      putMac body (uhpMac s ty s.sndNext.toNat body) macAt⟩
    let d := modSession d sid fun s => { s with sndNext := s.sndNext + 1, waiting := s.waiting ++ [m] }
    pumpSession d sid

/-- As `sendSeq`, for a message of a mailbox: a partition's is charged to its host-link Weir (R366). -/
def sendMail (d : Dev) (sid ty mailbox : Nat) (body : List Byte) (macAt : Nat) : Dev :=
  if mailbox = 0 ∨ (findSession d sid).isNone then sendSeq d sid ty body macAt
  else sendSeq (weirCharge d (mailbox - 1) 3 body.length) sid ty body macAt

/-- An unsequenced message (HELLO, ACK, NAK) under a session ID of the wire. -/
def rawMsg (version : Byte) (num ty : Nat) (ackno : U64) (ece : Bool) (body : List Byte) : OutMsg :=
  ⟨version, num, BitVec.ofNat 4 ty, 0, ackno, ece, body⟩

/-- Sends one unsequenced message of a session. -/
def sendRaw (d : Dev) (s : Session) (ty : Nat) (ackno : U64) (ece : Bool) (body : List Byte) : Dev :=
  onSession d s [rawMsg s.uhp s.num ty ackno ece body]

/-- A mailbox response (R448). -/
def sendResp (d : Dev) (r : Req) (status detail : Nat) (body : List Byte) : Dev :=
  let version := ((findSession d r.id.session).map (·.mbox.toNat)).getD 0
  let hdr := toLe 16 (packNat [(0, version), (8, r.id.mailbox), (16, r.cmd), (32, r.id.tag.toNat),
    (64, body.length), (96, r.part), (104, status), (112, detail)]) ++ List.replicate 16 0
  sendMail d r.id.session 3 r.id.mailbox (hdr ++ body) 16

/-- The response of an outstanding request, which leaves the list when its MBOX_RESP is sent, or with a session that
has closed (R447, R450). -/
def respond (d : Dev) (r : Req) (status detail : Nat) (body : List Byte) : Dev :=
  if (findSession d r.id.session).isNone then { d with host := { d.host with reqs := dropFirst (fun x => x.id == r.id) d.host.reqs } }
  else sendResp { d with host := { d.host with reqs := updFirst (fun x => x.id == r.id) (fun x => { x with answered := true }) d.host.reqs } } r status detail body

def respondOk (d : Dev) (r : Req) (body : List Byte) : Dev := respond d r sOk 0xFFFF body

def respondErr (d : Dev) (r : Req) (status : Nat) : Dev := respond d r status 0xFFFF []

/-- An answer BUSY is counted (R470). -/
def respondBusy (d : Dev) (r : Req) : Dev :=
  respondErr { d with host := { d.host with err := bump d.host.err 6 1 } } r sBusy

/-! ### Events (R462, R463) -/

/-- An event. `dest` is the requesting session and its NOEVT, for an event that answers a
request. -/
structure Ev where
  code : Nat
  mailbox : Nat
  status : Nat
  tag : Nat := 0
  id : Nat := 0
  data : List Byte := []
  sev : Nat := 0
  part : Option Nat := none
  source : Nat
  dest : Option (Nat × Bool) := none
  deriving DecidableEq, Repr

def evBody (d : Dev) (e : Ev) : List Byte :=
  toLe 24 (packNat [(0, e.code), (16, e.mailbox), (24, e.status), (32, e.tag), (64, e.id % 2 ^ 32),
    (128, d.time.now % 2 ^ 64)]) ++ pad 40 e.data ++ List.replicate 16 0

/-- The sessions an event goes to (R462). -/
def evSessions (d : Dev) (e : Ev) : List Nat :=
  match e.dest with
  | some (sid, noevt) => if noevt then [] else [sid]
  | none => (d.host.sessions.filter fun s =>
      match s.key with
      | some k => k.events && bit k.mask e.mailbox
      | none => false).map (·.id)

/-- Sends an event and logs it (R462, R526, log 23). -/
def sendEvent (d : Dev) (e : Ev) : Dev :=
  let d := (evSessions d e).foldl (fun d sid => sendMail d sid 4 e.mailbox (evBody d e) 64) d
  logIt d e.sev e.part e.source (0x100 + e.code) (leNat (pad 16 e.data))

/-- DURATION_US: microseconds from `since` to now, rounded to the nearest as in the example of R417. -/
def usSince (d : Dev) (since : Nat) : Nat := (d.time.now - since + 500) / 1000

/-- The severity of an entry for an operation that ended with a status (R524). -/
def statusSev (st : Nat) : Nat := if st = sOk then sevInfo else if st = sInternal ∨ st = sProgFault then sevError else sevWarning

/-- The record of R424. -/
def recRecord (cls : Nat) (part : Option Nat) (scope unit us info : Nat) : List Byte :=
  toLe 16 (packNat [(0, cls), (8, part.getD 0), (12, b2n part.isSome), (13, scope), (16, unit % 65536),
    (32, min us 0xFFFFFFFF), (64, info % 2 ^ 64)])

/-- A recovery event to mailbox 0 and to the partition's mailbox (R424). -/
def recoveryEvent (d : Dev) (status cls : Nat) (part : Option Nat) (scope unit us info : Nat) : Dev :=
  let sev := if cls = 0x06 ∨ cls = 0x08 ∧ status ≠ sRecovered then sevCritical else if status = sRecovered then sevWarning else sevError
  let e : Ev := { code := 0x08, mailbox := 0, status := status, id := cls
                  data := recRecord cls part scope unit us info, sev := sev, part := part
                  source := srcRecovery }
  let d := sendEvent d e
  match part with
  | some p =>
    let e1 := { e with mailbox := p + 1 }
    (evSessions d e1).foldl (fun d sid => sendMail d sid 4 e1.mailbox (evBody d e1) 64) d
  | none => d

/-! ### Device addresses (R292 to R297, R329) -/

def pageSize : Nat := 2097152
def viewUnit : Nat := 65536
def dramTop : Nat := 0x005E00000000
def winBase : Nat := 0x800000000000
def winTop : Nat := 0x800024000000
def cstBase : Nat := 0x810000000000
def cstTop : Nat := 0x810008000000
def poolBase : Nat := 0x820000000000
def poolTop : Nat := 0x825E00000000
def ctlBase : Nat := 0xC10000000000
def ctlTop : Nat := 0xC10000100000

/-- Where a device address leads for its requester. -/
inductive Loc where
  | dram (phys : Nat)
  | view (lcore off : Nat)
  | cst (off : Nat)
  /-- the requester's own control block -/
  | ctl (off : Nat)
  | outside
  deriving DecidableEq, Repr, Inhabited

def Part.viewSize (x : Part) : Nat := x.sramUnits * viewUnit

def Pool.en (g : Pool) : Bool := bit g.cfg 0
def Pool.inDram (g : Pool) : Bool := bit g.cfg 1
def Pool.bsize (g : Pool) : Nat := 256 * 2 ^ fld g.cfg 5 2
def Pool.mode (g : Pool) : Nat := fld g.cfg 7 6
def Pool.zero (g : Pool) : Bool := bit g.cfg 8
def Pool.nbuf (g : Pool) : Nat := fld g.cfg 39 16
def Pool.addr (g : Pool) : Nat := fld g.base 47 0

/-- The enabled pool and buffer that hold a device address. -/
def bufferAt (d : Dev) (a : Nat) : Option (Nat × Nat) :=
  (d.cst.pools.find? fun g => g.2.en && inRange g.2.addr (g.2.nbuf * g.2.bsize) a).map fun g =>
    (g.1, (a - g.2.addr) / g.2.bsize)

/-- The buffer at `a` is allocated to p, with ENGINE clear unless the requester is the engine that
holds it (R329). -/
def ownsAt (d : Dev) (p : Nat) (engine : Bool) (a : Nat) : Bool :=
  match bufferAt d a with
  | none => false
  | some (g, i) =>
    match tget (tgetD d.cst.pools g {}).held i with
    | some h => h.part == p && (engine || !h.engine)
    | none => false

/-- R292 to R296: the decoding of one device address for partition p. -/
def locate (d : Dev) (p : Nat) (engine : Bool) (a : Nat) : Loc :=
  if a < dramTop then
    match (d.part p).pages[a / pageSize]? with
    | some pg => .dram (pg * pageSize + a % pageSize)
    | none => .outside
  else if winBase ≤ a ∧ a < winTop then
    let n := (a - winBase) / 0x1000000
    let o := (a - winBase) % 0x1000000
    if n < d.grade.lcores ∧ bit (d.part p).coreset n ∧ o < (d.part p).viewSize then .view n o
    else .outside
  else if cstBase ≤ a ∧ a < cstTop then
    if ownsAt d p engine a then .cst (a - cstBase) else .outside
  else if poolBase ≤ a ∧ a < poolTop then
    if ownsAt d p engine a then
      match bufferAt d a with
      | some (g, _) =>
        let x := tgetD d.cst.pools g {}
        match x.pages[(a - x.addr) / pageSize]? with
        | some pg => .dram (pg * pageSize + (a - x.addr) % pageSize)
        | none => .outside
      | none => .outside
    else .outside
  else if ctlBase ≤ a ∧ a < ctlTop then
    if (a - ctlBase) / 0x10000 = p then .ctl ((a - ctlBase) % 0x10000) else .outside
  else .outside

/-- The physical core in whose SRAM p's view on a logical core is resident (R355). -/
def residentAt (d : Dev) (p lcore : Nat) : Option Nat :=
  (d.cores.find? fun c => c.2.lcore == some lcore && c.2.holder == some p).map (·.1)

/-- p's view on a logical core: the resident SRAM, or the view image (R355). -/
def viewMem (d : Dev) (p lcore : Nat) : Memory :=
  match residentAt d p lcore with
  | some pc => (d.core pc).sram
  | none => tgetD (d.part p).images lcore []

def modView (d : Dev) (p lcore : Nat) (f : Memory → Memory) : Dev :=
  match residentAt d p lcore with
  | some pc => d.modCore pc fun c => { c with sram := f c.sram }
  | none => d.modPart p fun x => { x with images := tput x.images lcore (f (tgetD x.images lcore [])) }

def readLoc (d : Dev) (p : Nat) : Loc → Byte
  | .dram a => mget d.mem.dram a
  | .view n o => mget (viewMem d p n) o
  | .cst o => mget d.cst.sram o
  | _ => 0

def writeLoc (d : Dev) (p : Nat) (b : Byte) : Loc → Dev
  | .dram a => { d with mem := { d.mem with dram := mput d.mem.dram a b } }
  | .view n o => modView d p n fun m => mput m o b
  | .cst o => { d with cst := { d.cst with sram := mput d.cst.sram o b } }
  | _ => d

def Loc.plain : Loc → Bool
  | .dram _ => true
  | .view .. => true
  | .cst _ => true
  | _ => false

def locs (d : Dev) (p : Nat) (engine : Bool) (a n : Nat) : List Loc :=
  (List.range n).map fun i => locate d p engine (a + i)

/-- Every byte of the range is memory inside the quota (R297). -/
def okRange (d : Dev) (p : Nat) (engine : Bool) (a n : Nat) : Bool :=
  (locs d p engine a n).all Loc.plain

/-- The quotas while a lowering waits, as operations accepted after it meet them (R300). -/
def lowered (d : Dev) (p : Nat) : Dev :=
  match (d.part p).lowering with
  | none => d
  | some l => d.modPart p fun x => { x with
      pages := x.pages.take l.pages, sramUnits := min x.sramUnits l.units, flash := x.flash.take l.ext
      sideQuota := min x.sideQuota l.side }

/-- The quotas as one operation meets them: in full when a lowering waits for it (R300). -/
def opQuota (d : Dev) (p : Nat) (op : OpId) : Dev :=
  match (d.part p).lowering with
  | none => d
  | some l => if l.ops.contains op then d else lowered d p

/-- The range is inside the quota for an operation accepted now, and for one already accepted. -/
def okNew (d : Dev) (p : Nat) (engine : Bool) (a n : Nat) : Bool := okRange (lowered d p) p engine a n
def okFor (d : Dev) (p : Nat) (op : OpId) (engine : Bool) (a n : Nat) : Bool := okRange (opQuota d p op) p engine a n

/-- A word of p's view on a logical core has an uncorrectable error (R60). -/
def viewLostAt (d : Dev) (p lcore o : Nat) : Bool := (tgetD (d.part p).viewBad lcore []).contains (o / 8)

/-- The range meets a poisoned DRAM line or an SRAM word with an uncorrectable error (R60, R302). -/
def poisonAt (d : Dev) (p : Nat) (engine : Bool) (a n : Nat) : Option Nat :=
  (locs d p engine a n).findIdx? fun l =>
    match l with
    | .dram x => d.mem.poison.contains (x / 64)
    | .view k o => viewLostAt d p k o
    | .cst o => d.cst.bad.contains (o / 8)
    | _ => false

def readRange (d : Dev) (p : Nat) (engine : Bool) (a n : Nat) : List Byte :=
  (locs d p engine a n).map (readLoc d p)

def readNat (d : Dev) (p a n : Nat) : Nat := leNat (readRange d p false a n)

def readWord (d : Dev) (p : Nat) (engine : Bool) (w a : Nat) : BitVec w :=
  BitVec.ofNat w (leNat (readRange d p engine a (w / 8)))

/-- The words that a write of n bytes at `a` does not cover in full. -/
def wordsLeft (bad : List Nat) (a n : Nat) : List Nat := bad.filter fun w => !(decide (a ≤ 8 * w) && decide (8 * w + 8 ≤ a + n))

/-- The poisoned lines and words that a write of these locations covers in full are clean again (R302, R418). -/
def unpoison (d : Dev) (p : Nat) (ls : List Loc) : Dev :=
  let d :=
    if d.mem.poison.isEmpty then d
    else
      let full (line : Nat) : Bool := (List.range 64).all fun i => ls.contains (.dram (64 * line + i))
      { d with mem := { d.mem with poison := d.mem.poison.filter fun l => !full l } }
  let d :=
    if d.cst.bad.isEmpty then d
    else
      let full (w : Nat) : Bool := (List.range 8).all fun i => ls.contains (.cst (8 * w + i))
      { d with cst := { d.cst with bad := d.cst.bad.filter fun w => !full w } }
  if (d.part p).viewBad.isEmpty then d
  else
    let full (k w : Nat) : Bool := (List.range 8).all fun i => ls.contains (.view k (8 * w + i))
    d.modPart p fun x => { x with viewBad := x.viewBad.map fun e => (e.1, e.2.filter fun w => !full e.1 w) }

/-- An access to these locations writes the combining entries of their lines back first (R225, log 25). -/
def touchLines (d : Dev) (ls : List Loc) : Dev :=
  if d.rm.comb.isEmpty then d
  else
    let hit := ls.filterMap fun l => match l with
      | .dram a => some (a / 64)
      | _ => none
    let lines (e : CombEntry) : List Nat := (List.range (if e.etype = 0xA then 4 else 1)).map (e.addr / 64 + ·)
    { d with rm := { d.rm with comb := d.rm.comb.filter fun e => !((lines e).any fun l => hit.contains l) } }

/-- Applies f to every task of p, running or saved. -/
def modTasks (d : Dev) (p : Nat) (f : Task → Task) : Dev :=
  let mine (t : Task) : Task := if t.part = p then f t else t
  let d := { d with cores := d.cores.map fun (c : Nat × Core) => (c.1, { c.2 with task := c.2.task.map mine }) }
  d.modPart p fun x => { x with ctxs := x.ctxs.map fun c => (c.1, { c.2 with task := f c.2.task }) }

/-- A task of p has read memory. -/
def readers (d : Dev) (p : Nat) : Bool :=
  (d.cores.any fun c => c.2.task.any fun t => t.part == p && !t.reads.isEmpty) || (d.part p).ctxs.any fun c => !c.2.task.reads.isEmpty

/-- Bytes of p at a device address change: a task that has read one of them could not be replayed (R415). -/
def noteChange (d : Dev) (p a : Nat) (old new : List Byte) : Dev :=
  if !readers d p then d
  else
    let changed := ((old.zip new).mapIdx fun i x => (a + i, x)).filter fun x => x.2.1 != x.2.2
    modTasks d p fun t => if t.reads.any fun r => changed.any fun x => inRange r.1 r.2 x.1 then { t with broken := true } else t

/-- Firmware reads a range of p: its lines' combining entries are written back first (R225). -/
def touched (d : Dev) (p a n : Nat) : Dev := if d.rm.comb.isEmpty then d else touchLines d (locs d p false a n)

/-- Writes bytes at a device address of p; bytes outside the quota are not reached (R297). -/
def writeRange (d : Dev) (p : Nat) (engine : Bool) (a : Nat) (bs : List Byte) : Dev :=
  let ls := locs d p engine a bs.length
  let d := noteChange d p a (ls.map (readLoc d p)) bs
  touchLines (unpoison ((ls.zip bs).foldl (fun d x => writeLoc d p x.2 x.1) d) p ls) ls

/-- The bytes of a range that the DRAM Weir counts: DRAM, and views held in their image (R366). -/
def dramBytes (d : Dev) (p a n : Nat) (engine : Bool := false) : Nat :=
  ((locs d p engine a n).filter fun l => match l with
    | .dram _ => true
    | .view lc _ => (residentAt d p lc).isNone
    | _ => false).length

/-- An engine's access to a range: its bytes are charged, and its lines' combining entries written back. -/
def chargeRange (d : Dev) (p a n : Nat) (engine : Bool := false) : Dev :=
  touchLines (weirCharge d p 0 (dramBytes d p a n engine)) (locs d p engine a n)

/-- Bytes of a range that lie in a view image are charged (R366). -/
def chargeImage (d : Dev) (p a n : Nat) : Dev :=
  weirCharge d p 0 ((locs d p false a n).filter fun l => match l with
    | .view lc _ => (residentAt d p lc).isNone
    | _ => false).length

/-- An access refused by Cistern's ownership check is counted (R329). -/
def countDenied (d : Dev) (a n : Nat) : Dev :=
  if (List.range n).any fun i => inRange cstBase (cstTop - cstBase) (a + i) || inRange poolBase (poolTop - poolBase) (a + i)
  then { d with cst := { d.cst with err := bump d.cst.err 4 1 } }
  else d

/-- An access that finds its range outside the quota is counted where Cistern denies it (R329). -/
def noteDenied (d : Dev) (p a n : Nat) : Dev := if okRange d p false a n then d else countDenied d a n

/-- Bytes that a unit stores for p; those that Cistern denies are counted (R329). -/
def storeRange (d : Dev) (p a : Nat) (bs : List Byte) : Dev := writeRange (noteDenied d p a bs.length) p false a bs

/-! ### Core views (R59, R61) -/

def viewOk (d : Dev) (p a n : Nat) : Bool := decide (a + n ≤ (d.part p).viewSize)

def viewRead (d : Dev) (p lcore a n : Nat) : List Byte := mread (viewMem d p lcore) a n

/-- Bytes stored in p's view on a logical core; lost words that they cover in full are good again. -/
def viewWrite (d : Dev) (p lcore a : Nat) (bs : List Byte) : Dev :=
  let d := noteChange d p (winBase + 0x1000000 * lcore + a) (viewRead d p lcore a bs.length) bs
  let d := modView d p lcore fun m => mwrite m a bs
  match tget (d.part p).viewBad lcore with
  | some ws => d.modPart p fun x => { x with viewBad := tput x.viewBad lcore (wordsLeft ws a bs.length) }
  | none => d

/-- The lowest lost word of p's view on a logical core that one of the ranges meets (R60). -/
def viewLoss (d : Dev) (p lcore : Nat) (rs : List (Nat × Nat)) : Option Nat :=
  (((tgetD (d.part p).viewBad lcore []).filter fun w =>
    rs.any fun r => decide (r.1 < 8 * w + 8 ∧ 8 * w < r.1 + r.2)).min?).map (8 * ·)

/-! ### Signals (R80 to R82) -/

def semOf (d : Dev) (p i : Nat) : U32 := tgetD (d.part p).sems i 0

def setSem (d : Dev) (p i : Nat) (v : U32) : Dev :=
  d.modPart p fun x => { x with sems := tput x.sems i v }

def addSem (d : Dev) (p i : Nat) (v : U32) : Dev := setSem d p i (semOf d p i + v)

/-- Changes the task of partition p on a logical core, running or saved (R82). -/
def modTask (d : Dev) (p lcore : Nat) (f : Task → Task) : Dev :=
  match d.cores.find? fun c => c.2.lcore == some lcore && (c.2.task.map (·.part)) == some p with
  | some c => d.modCore c.1 fun x => { x with task := x.task.map f }
  | none => d.modPart p fun x =>
      match tget x.ctxs lcore with
      | some c => { x with ctxs := tput x.ctxs lcore { c with task := f c.task } }
      | none => x

/-- The task of partition p on a logical core. -/
def taskOn (d : Dev) (p lcore : Nat) : Option Task :=
  match d.cores.find? fun c => c.2.lcore == some lcore && (c.2.task.map (·.part)) == some p with
  | some c => c.2.task
  | none => (tget (d.part p).ctxs lcore).map (·.task)

def addSb (d : Dev) (p lcore i : Nat) (v : U32) : Dev :=
  modTask d p lcore fun t => { t with sb := tmod t.sb i 0 (· + v) }

/-- Raises a signal target once. -/
def raise (d : Dev) (p : Nat) : SigTarget → Dev
  | .none => d
  | .scoreboard n i => addSb d p n i 1
  | .semaphore i => addSem d p i 1

/-! ### Sticky flags -/

/-- PART_ARITH_FLAGS (R47, R88). -/
def setArith (d : Dev) (p fl : Nat) : Dev :=
  d.modPart p fun x => { x with arith := x.arith ||| BitVec.ofNat 32 fl }

/-! ### Commands as changes of the device -/

/-- A command whose effect lies in the device alone. -/
def onDev (f : Dev → Dev) (s : State) : Host.Outcome State Fault Refusal := .next { s with dev := f s.dev }

/-- A command that would act in any state; with the rails down, as while RESET_IN_N is asserted, the part does nothing
(R485). -/
def onLive (f : Dev → Dev) (s : State) : Host.Outcome State Fault Refusal := onDev (fun d => if d.pwr.rails then f d else d) s

/-- A command whose effect lies in the device alone and reads the fuses. -/
def onDevF (f : Fuses → Dev → Dev) (s : State) : Host.Outcome State Fault Refusal :=
  .next { s with dev := f s.fuses s.dev }

/-- A command whose condition does not hold leaves the device as it is (log 2). -/
def whenD (c : Bool) (d : Dev) (t : Dev) : Dev := if c then t else d

/-- The device is out of reset, powered and past boot (R464, R485). -/
def Dev.ready (d : Dev) : Bool := d.pwr.rails && !d.boot.held && d.boot.stage == .ready

end Sys2Proof.Machine
end

