-- ==== Sys2Proof/Machine/Fabric.lean ====
section
/-! DEFINITION. The fabric router: building, routing, queueing and checking cells (R174 to R210). -/

namespace Sys2Proof.Machine

/-! ### Cell types (R183) -/

def tyCount : Nat := 0x01
def tyDir : Nat := 0x02
def tyGrant : Nat := 0x03
def tyReady : Nat := 0x04
def tyCountAck : Nat := 0x05
def tyData : Nat := 0x06
def tySlcAck : Nat := 0x07
def tyAbort : Nat := 0x08
def tyCollData : Nat := 0x09
def tyCollAck : Nat := 0x0A
def tyBarrier : Nat := 0x0B
def tyRmLoad : Nat := 0x0C
def tyRmStore : Nat := 0x0D
def tyRmAtomic : Nat := 0x0E
def tyRmReduce : Nat := 0x0F
def tyRmMcast : Nat := 0x10
def tyRmFence : Nat := 0x11
def tyRmResp : Nat := 0x12
def tyGwWrite : Nat := 0x13
def tyGwRead : Nat := 0x14
def tyGwData : Nat := 0x15
def tyLinkState : Nat := 0x16
def tyUnreach : Nat := 0x17
def tyMgmt : Nat := 0x18
def tyReduceM : Nat := 0x19
def tyMerge : Nat := 0x1A
def tyPeerQuery : Nat := 0x1B
def tyPeerState : Nat := 0x1C

/-- The VCs a type may travel on before any detour (R183). -/
def vcsOf (ty : Nat) : List Nat :=
  if ty = 0 ∨ ty > 0x1C then []
  else if ty = tyData then [1, 2]
  else if ty = tyCollData then [3]
  else if (0x0C ≤ ty ∧ ty ≤ 0x11) ∨ ty = tyReduceM ∨ ty = tyMerge then [4]
  else if ty = tyRmResp ∨ ty = tyGwData then [5]
  else if ty = tyGwWrite ∨ ty = tyGwRead then [6]
  else [0]

/-- A cell originated here (R182, R199). -/
def mkCell (d : Dev) (dest : DevId) (vc ty part tag off : Nat) (pay : Payload) : Cell :=
  { dest := dest, src := myId d, vc := BitVec.ofNat 3 vc, ty := BitVec.ofNat 5 ty
    part := BitVec.ofNat 4 part, tag := BitVec.ofNat 13 tag, off := BitVec.ofNat 23 off
    epoch := BitVec.ofNat 4 (fld d.fab.epoch 3 0), last := false, retry := false, combine := false
    flagStore := false, hops := 0, rsvd := 0, crcOk := true, pay := pay }

def payBits (c : Cell) : BitVec 512 :=
  match c.pay with
  | .bits x => x
  | _ => 0

def payBytes (c : Cell) : List Byte := toLe 64 (payBits c).toNat

def bytesPay (bs : List Byte) : Payload := .bits (BitVec.ofNat 512 (leNat bs))

/-- The 96-bit header (R182). -/
def cellHeader (c : Cell) : BitVec 96 :=
  c.dest ++ c.src ++ c.vc ++ c.ty ++ c.part ++ c.tag ++ c.off ++ c.epoch ++
    BitVec.ofBool c.flagStore ++ BitVec.ofBool c.combine ++ BitVec.ofBool c.retry ++ BitVec.ofBool c.last ++ c.hops ++ c.rsvd

/-- The cell of a header, a payload and the result of the CRC check (R182). -/
def headerCell (h : BitVec 96) (pay : BitVec 512) (crcOk : Bool) : Cell :=
  { dest := h.extractLsb' 80 16, src := h.extractLsb' 64 16, vc := h.extractLsb' 61 3, ty := h.extractLsb' 56 5
    part := h.extractLsb' 52 4, tag := h.extractLsb' 39 13, off := h.extractLsb' 16 23, epoch := h.extractLsb' 12 4
    last := bit h 8, retry := bit h 9, combine := bit h 10, flagStore := bit h 11
    hops := h.extractLsb' 6 2, rsvd := h.extractLsb' 0 6, crcOk := crcOk, pay := .bits pay }

/-- The 80 bytes of a cell whose payload is 64 bytes: header, payload, and the CRC-32C over both (R182, log 73). -/
def cellImage (c : Cell) : List Byte :=
  let b := toLe 12 (cellHeader c).toNat ++ toLe 64 (payBits c).toNat
  b ++ toLe 4 (crc32c b)

/-- The cell that 80 bytes on a link spell. -/
def imageCell (bs : List Byte) : Cell :=
  headerCell (BitVec.ofNat 96 (leNat (bs.take 12))) (BitVec.ofNat 512 (leNat ((bs.drop 12).take 64)))
    (leNat (bs.drop 76) == crc32c (bs.take 76))

def fabErr (d : Dev) (i : Nat) : Dev := { d with fab := { d.fab with err := bump d.fab.err i 1 } }

/-! ### Wiring (R175) -/

def posX (p : Nat) : Nat := p % 8
def posY (p : Nat) : Nat := p / 8

/-- The first port of the pair from position `a` to a position that differs in one dimension. -/
def pairPort (a b : Nat) : Nat :=
  if posX a = posX b then 14 + 2 * ((posY b + 7 - posY a) % 8)
  else 2 * ((posX b + 7 - posX a) % 8)

/-- The position and port at the far end of an X or Y port of position `a` (R175). -/
def farEnd (a port : Nat) : Nat × Nat :=
  if port < 14 then
    let j := port / 2
    (8 * posY a + (posX a + j + 1) % 8, 2 * (6 - j) + port % 2)
  else
    let j := (port - 14) / 2
    (8 * ((posY a + j + 1) % 8) + posX a, 14 + 2 * (6 - j) + port % 2)

/-! ### Link states (R187) -/

def myPos (d : Dev) : Nat := d.pwr.slot.toNat

/-- The reported state of one of this device's X or Y ports: 0 in service, 1 degraded, 2 out. -/
def ownLink (d : Dev) (port : Nat) : Nat :=
  match (d.port (portFor d port)).state with
  | .up => 0
  | .degraded => 1
  | _ => 2

/-- What a device's end of a link reports. -/
def linkEnd (d : Dev) (pos port : Nat) : Nat :=
  if pos = myPos d then ownLink d port else tgetD d.fab.links (28 * pos + port) 0

/-- A link's state: the worse of what its ends report. -/
def linkState (d : Dev) (pos port : Nat) : Nat :=
  let f := farEnd pos port
  max (linkEnd d pos port) (linkEnd d f.1 f.2)

/-- At least one of the pair's two links is in service (R187). -/
def pairUp (d : Dev) (a b : Nat) : Bool :=
  let p := pairPort a b
  linkState d a p < 2 || linkState d a (p + 1) < 2

/-! ### Routing (R188 to R191) -/

def zhash (dest fc : Nat) : Nat := ((((dest <<< 4) ||| fc) * 0x9E3779B1) % 2 ^ 32) >>> 28

/-- The link of a pair that a cell takes: 0 or 1 (R190). -/
def pickLink (d : Dev) (c : Cell) (p : Nat) : Nat :=
  let h := (c.src.toNat + c.tag.toNat + c.off.toNat) % 65536
  let a := linkState d (myPos d) p
  let b := linkState d (myPos d) (p + 1)
  if a = 2 then 1
  else if b = 2 then 0
  else if a = 1 ∧ b = 0 then (if h % 3 = 0 then 0 else 1)
  else if a = 0 ∧ b = 1 then (if h % 3 = 0 then 1 else 0)
  else h % 2

/-- The credit class of a cell as it leaves: VC0 to VC6, or the VC7 class of its HOPS (R192). -/
def creditClass (c : Cell) : Nat := if c.vc = 7 then 6 + c.hops.toNat else c.vc.toNat

def creditOf (x : Port) (cls : Nat) : Nat := tgetD x.credits cls 0

def dwrrWeight (d : Dev) (vc : Nat) : Nat :=
  if vc ≤ 4 then fld d.fab.dwrrA (8 * vc - 1) (8 * vc - 8) else fld d.fab.dwrrB (8 * (vc - 4) - 1) (8 * (vc - 5))

/-- The cell a port sends next: VC0, then VC7, then VC1 to VC6 by deficit round robin (R193). -/
def nextCell (d : Dev) (x : Port) : Option (Cell × Tbl Nat) :=
  let can (c : Cell) : Bool := decide (creditOf x (creditClass c) > 0)
  match x.queue.find? fun c => c.vc == 0 && can c with
  | some c => some (c, x.deficit)
  | none =>
    match x.queue.find? fun c => c.vc == 7 && can c with
    | some c => some (c, x.deficit)
    | none =>
      let ready := [1, 2, 3, 4, 5, 6].filter fun v => x.queue.any fun c => c.vc.toNat == v && can c
      let pick (df : Tbl Nat) : Option (Cell × Tbl Nat) :=
        match ready.find? fun v => tgetD df v 0 > 0 with
        | some v => (x.queue.find? fun c => c.vc.toNat == v && can c).map fun c =>
            (c, tput df v (tgetD df v 0 - 1))
        | none => none
      match pick x.deficit with
      | some r => some r
      | none => pick (ready.map fun v => (v, dwrrWeight d v))

/-- Sends waiting cells while credits last. -/
def pumpPortFuel : Nat → Nat → Dev → Dev
  | 0, _, d => d
  | f + 1, n, d =>
    let x := d.port n
    if !x.up then d
    else match nextCell d x with
      | none => d
      | some (c, df) =>
        let cls := creditClass c
        let d := d.modPort n fun x => { x with
          queue := dropFirst (· == c) x.queue
          credits := tput x.credits cls (creditOf x cls - 1)
          deficit := df }
        pumpPortFuel f n { d with out := { d.out with cells := d.out.cells ++ [(n, c)] } }

def pumpPort (d : Dev) (n : Nat) : Dev := pumpPortFuel (d.port n).queue.length n d

/-! ### Combining in the network (R200 to R202) -/

/-- The cells of one reduction operation waiting in a queue. -/
def opCells (q : List Cell) (src : DevId) (tag : BitVec 13) (part : BitVec 4) : List Cell :=
  q.filter fun c => c.src == src && c.tag == tag && c.part == part && c.vc == 4 &&
    (c.ty.toNat == tyRmReduce || c.ty.toNat == tyReduceM || c.ty.toNat == tyMerge)

/-- A complete reduction in a queue: command cell, data cells in order, contributors. -/
structure RedOp where
  cmd : Cell
  data : List Cell
  merged : Option Cell
  deriving DecidableEq, Repr

def mergeEntries (c : Cell) : List Nat :=
  ((List.range 16).map fun i => fld (payBits c) (32 * i + 31) (32 * i)).filter (· != 0)

def RedOp.contributors (o : RedOp) : List Nat :=
  match o.merged with
  | some m => mergeEntries m
  | none => [packNat [(0, o.cmd.src.toNat), (16, o.cmd.tag.toNat)]]

def redOp (cs : List Cell) : Option RedOp :=
  match cs.find? fun c => c.ty.toNat == tyRmReduce && c.off == 0 with
  | none => none
  | some cmd =>
    let n := divUp (fld (payBits cmd) 56 48) 64
    let isM := cs.any fun c => c.ty.toNat == tyReduceM
    let data := sortBy (·.off.toNat) (cs.filter fun c =>
      c.off != 0 && c.ty.toNat == (if isM then tyReduceM else tyRmReduce))
    let mg := cs.find? fun c => c.ty.toNat == tyMerge
    if data.length = n ∧ mg.isSome = isM ∧ cs.all (fun c => !c.retry) then some ⟨cmd, data, mg⟩ else none

def redType (o : RedOp) : Nat := fld (payBits o.cmd) 69 65
def redAddr (o : RedOp) : Nat := fld (payBits o.cmd) 47 0

def opBytes (o : RedOp) : List Byte := o.data.flatMap payBytes

/-- Adds two lines or blocks: INT32 modulo 2^32, or BSI48 by R50. -/
def addLines (etype : Nat) (a b : List Byte) : List Byte :=
  if etype = 0x0A then ((Bsi.read a).add (Bsi.read b)).bytes
  else (List.zipWith (fun x y => toLe 4 (leNat x + leNat y)) (chunks 4 a) (chunks 4 b)).flatten

/-- R200: the two operations may be combined. -/
def canMerge (a b : RedOp) : Bool :=
  a.cmd.dest == b.cmd.dest && a.cmd.part == b.cmd.part && a.cmd.epoch == b.cmd.epoch &&
  redType a == redType b && (redType a == 0x0A || redType a == 0x0B) && redAddr a == redAddr b &&
  !(a.merged.isSome && b.merged.isSome) &&
  decide (a.contributors.length + b.contributors.length ≤ 16) &&
  (redType a != 0x0A || (Bsi.read (opBytes a)).exp == (Bsi.read (opBytes b)).exp)

/-- The merged operation's cells, with the first contributor's header (R202, log 16). -/
def mergeOps (a b : RedOp) : List Cell :=
  let sum := chunks 64 (addLines (redType a) (opBytes a) (opBytes b))
  let list := (a.contributors ++ b.contributors).mapIdx fun i x => (32 * i, x)
  a.cmd :: b.cmd :: (List.zipWith (fun c x => { c with ty := BitVec.ofNat 5 tyReduceM, pay := bytesPay x }) a.data sum ++
    [{ a.cmd with ty := BitVec.ofNat 5 tyMerge, pay := .bits (BitVec.ofNat 512 (packNat list)) }])

/-- Combines the newest operation with an earlier one waiting in the same queue (R200). -/
def mergeQueue (d : Dev) (n : Nat) (c : Cell) : Dev :=
  let x := d.port n
  let role := portRole d n
  if role ≥ 28 ∨ x.version ≠ 0x20 then d
  else
    let mine := opCells x.queue c.src c.tag c.part
    match redOp mine with
    | none => d
    | some b =>
      let heads := x.queue.filter fun h => h.ty.toNat == tyRmReduce && h.off == 0 && h != b.cmd
      match heads.findSome? fun h => (redOp (opCells x.queue h.src h.tag h.part)).bind fun a =>
          if canMerge a b then some (a, opCells x.queue h.src h.tag h.part) else none with
      | none => d
      | some (a, theirs) =>
        let q := x.queue.filter fun z => !mine.contains z && !theirs.contains z
        let d := d.modPort n fun x => { x with queue := q ++ mergeOps a b }
        { d with fab := { d.fab with err := bump d.fab.err 7 (mine.length - 1) } }

/-- Queues a cell on a port and sends what credits allow. -/
def enqueue (d : Dev) (named : Nat) (c : Cell) : Dev :=
  let n := portFor d named
  let d := pumpPort (d.modPort n fun x => { x with queue := x.queue ++ [c] }) n
  if c.vc = 4 ∧ (c.ty.toNat = tyRmReduce ∨ c.ty.toNat = tyReduceM ∨ c.ty.toNat = tyMerge) ∧
      (d.port n).queue.contains c then mergeQueue d n c else d

/-- Transmission onto the pair towards a neighbour position: HOPS counts the link (R188). -/
def sendPair (d : Dev) (c : Cell) (next : Nat) : Dev :=
  if c.hops = 3 then fabErr d 1
  else
    let c := { c with hops := c.hops + 1 }
    let p := pairPort (myPos d) next
    enqueue d (p + pickLink d c p) c

/-- Transmission on a Z port, or NO_ROUTE (R189). -/
def sendZ (d : Dev) (c : Cell) : Dev :=
  let p := zhash c.dest.toNat (c.tag.toNat % 16)
  let okPlane (q : Nat) : Bool :=
    namedUp d (28 + q) && !(d.fab.zexcl.any fun z => z.dest == c.dest && z.plane == q)
  match ((List.range 16).map fun i => (p + i) % 16).find? okPlane with
  | some q => enqueue d (28 + q) c
  | none => fabErr d 2

/-- Every pair of a path of positions is up. -/
def pathUp (d : Dev) : List Nat → Bool
  | a :: b :: t => (a == b || pairUp d a b) && pathUp d (b :: t)
  | _ => true

/-- Positions of a path with repetitions removed: its number of links. -/
def pathLinks : List Nat → Nat
  | a :: b :: t => (if a = b then 0 else 1) + pathLinks (b :: t)
  | _ => 0

/-- The candidate detours of R191 in order of preference: first hop and the whole path. -/
def detours (me dest : Nat) (dimX : Bool) : List (List Nat) :=
  let xm := posX me
  let ym := posY me
  let xd := posX dest
  let yd := posY dest
  if dimX then
    (if yd ≠ ym then [[me, 8 * yd + xm, dest]] else []) ++
      ((List.range 8).filter fun a => a != xm && a != xd).map fun a => [me, 8 * ym + a, 8 * yd + a, dest]
  else
    (((List.range 8).filter fun b => b != ym && b != yd).map fun b => [me, 8 * b + xm, dest]) ++
      ((List.range 8).filter fun a => a != xm).map fun a => [me, 8 * ym + a, 8 * yd + a, dest]

/-- R191: the cell moves to VC7 on the first qualifying detour, or is discarded. -/
def escape (d : Dev) (c : Cell) (dimX : Bool) : Dev :=
  let me := myPos d
  match (detours me (devPos c.dest) dimX).find? fun p =>
      pathUp d p && decide (c.hops.toNat + pathLinks p ≤ 3) with
  | some (_ :: nxt :: _) => sendPair d { c with vc := 7 } nxt
  | _ => fabErr d 2

/-- The next position in one dimension, if the destination differs there. -/
def stepTo (me dest : Nat) (dimX : Bool) : Option Nat :=
  if dimX then (if posX me = posX dest then none else some (8 * posY me + posX dest))
  else if posY me = posY dest then none else some (8 * posY dest + posX me)

/-- R188 in one dimension: sent, escaped or discarded. -/
def routeDim (d : Dev) (c : Cell) (dimX : Bool) (next : Nat) : Dev :=
  if pairUp d (myPos d) next then sendPair d c next
  else if c.vc = 7 then fabErr d 2
  else escape d c dimX

/-- R188: where a cell goes that this device originates or forwards. -/
def route (d : Dev) (c : Cell) : Dev :=
  if c.dest = myId d then { d with fab := { d.fab with loop := d.fab.loop ++ [c] } }
  else if devRack c.dest ≠ rackNum d then sendZ d c
  else
    let me := myPos d
    let dst := devPos c.dest
    let first := c.vc != 7
    match stepTo me dst first with
    | some n => routeDim d c first n
    | none =>
      match stepTo me dst (!first) with
      | some n => routeDim d c (!first) n
      | none => fabErr d 2

/-- Sends a cell originated for partition p, in the present epoch; VC1 to VC6 payload is charged (R199, R366). -/
def sendFor (d : Dev) (p : Nat) (c : Cell) : Dev :=
  route (if 1 ≤ c.vc.toNat ∧ c.vc.toNat ≤ 6 then weirCharge d p 2 64 else d)
    { c with epoch := BitVec.ofNat 4 (fld d.fab.epoch 3 0) }

def sendAll (d : Dev) (p : Nat) (cs : List Cell) : Dev := cs.foldl (fun d c => sendFor d p c) d

/-! ### Arrival (R184, R195, R199) -/

/-- The loopback port index for cells a device addresses to itself (log 24). -/
def loopPort : Nat := 48

/-- What becomes of an arriving cell. -/
inductive Arrival where
  | dropped (d : Dev)
  | here (d : Dev)
  | onward (d : Dev)

def countDiscard (d : Dev) (n : Nat) : Dev := d.modPort n fun x => { x with discards := x.discards + 1 }

/-- The header checks of R184 pass. -/
def headerOk (c : Cell) : Bool :=
  let vs := vcsOf c.ty.toNat
  !vs.isEmpty && (vs.contains c.vc.toNat || c.vc == 7) && c.rsvd == 0 && fld c.dest 15 14 == 0

/-- (FLOOR − EPOCH) mod 16 is 1 to 7 (R199). -/
def tooOld (floor epoch : BitVec 4) : Bool := decide (1 ≤ (floor - epoch).toNat ∧ (floor - epoch).toNat ≤ 7)

/-- The remainder of a port's input buffer that its minima leave, and a VC's largest share of it (R194). -/
def sharedCells (x : Port) : Nat := 8192 - 8 * (fld x.creditCfg 7 0 + 6 * fld x.creditCfg 15 8 + 3 * fld x.creditCfg 23 16)
def shareCap (x : Port) : Nat := sharedCells x * fld x.creditCfg 29 24 / 64

/-- Credits of the remainder that a class's VC holds: the three classes of VC7 count together (R192, R194). -/
def lentTo (x : Port) (cls : Nat) : Nat :=
  if cls ≤ 6 then tgetD x.lent cls 0 else ([7, 8, 9].map fun c => tgetD x.lent c 0).sum

/-- A cell of the class is consumed: its credit goes back, and one more while its VC may hold more of the
remainder (R194, log 47). -/
def giveBack (d : Dev) (n cls : Nat) : Dev :=
  let x := d.port n
  let more := decide (lentTo x cls < shareCap x ∧ (tvals x.lent).foldl (· + ·) 0 < sharedCells x)
  let d := { d with out := { d.out with credits := d.out.credits ++ [(n, cls, 1 + b2n more)] } }
  if more then d.modPort n fun x => { x with lent := tmod x.lent cls 0 (· + 1) } else d

/-- The device's epoch floor (R199). -/
def epochFloor (d : Dev) : BitVec 4 := BitVec.ofNat 4 (fld d.fab.epoch 7 4)

/-- A cell for this device: taken, or discarded as older than the floor (R199). -/
def atFloor (d : Dev) (c : Cell) : Arrival := if tooOld (epochFloor d) c.epoch then .dropped (fabErr d 5) else .here d

/-- The check of an arriving cell, its buffer's credit returned. No field of a damaged cell is read, the VC of the
buffer it took included (R195, log 47). -/
def screen (d : Dev) (n : Nat) (c : Cell) : Arrival :=
  if n = loopPort then
    if d.fab.loop.contains c then atFloor { d with fab := { d.fab with loop := dropFirst (· == c) d.fab.loop } } c
    else .dropped d
  else if !(d.port n).up then .dropped d
  else if !c.crcOk then .dropped (countDiscard (d.modPort n fun x => { x with crc := satAdd x.crc 1 }) n)
  else
    let d := giveBack d n (creditClass c)
    if !headerOk c then .dropped (countDiscard (fabErr d 3) n)
    else if 28 ≤ portRole d n ∧ c.dest ≠ myId d then .dropped (countDiscard (fabErr d 4) n)
    else if c.dest = myId d then atFloor d c
    else .onward d

/-- A cell command: checked, forwarded when addressed elsewhere, and handed to its engine when
addressed here and of one of the command's types. -/
def onCell (d : Dev) (n : Nat) (c : Cell) (types : List Nat) (deliver : Dev → Dev) : Dev :=
  match screen d n c with
  | .dropped d => d
  | .onward d => route d c
  | .here d1 => if types.contains c.ty.toNat then deliver d1 else d

/-- A sound cell for this device that the floor admits: one that may wait in its input buffer (R195, R199). -/
def mayWait (d : Dev) (c : Cell) : Bool := c.crcOk && headerOk c && c.dest == myId d && !tooOld (epochFloor d) c.epoch

/-- The cells whose engine moves DRAM bytes of their partition when it takes them (R366). -/
def dramTypes : List Nat :=
  [tyData, tyRmLoad, tyRmStore, tyRmAtomic, tyRmReduce, tyRmMcast, tyRmFence, tyGwWrite, tyGwRead, tyReduceM, tyMerge]

/-- A cell of partition P that must wait for DRAM tokens (R366). -/
def awaitsTokens (d : Dev) (c : Cell) : Bool := mayWait d c && !weirOk d c.part.toNat 0

/-- A cell stays in the input buffer of its port, whose credit it keeps (R194, R366, log 81). -/
def holdCell (d : Dev) (n : Nat) (c : Cell) : Dev :=
  if n = loopPort ∨ !(d.port n).up ∨ d.fab.waiting.contains (n, c) then d
  else { d with fab := { d.fab with waiting := d.fab.waiting ++ [(n, c)] } }

/-- The cell leaves those that wait. -/
def leaveBuffer (d : Dev) (n : Nat) (c : Cell) : Dev :=
  { d with fab := { d.fab with waiting := dropFirst (· == (n, c)) d.fab.waiting } }

/-- A cell command whose engine takes the cell only when `waits` holds nothing against it: until then the cell
waits in its input buffer, and the command comes again for it (R366, log 81). -/
def onCellWhen (waits : Dev → Cell → Bool) (d : Dev) (n : Nat) (c : Cell) (types : List Nat) (deliver : Dev → Dev) : Dev :=
  if types.contains c.ty.toNat && waits d c then holdCell d n c else onCell (leaveBuffer d n c) n c types deliver

/-! ### Port states (R179, R187, R206) -/

/-- The LINK_STATE payload: 28 ports, 2 bits each. The manual gives neither the codes nor the order: the model puts 0 in
service, 1 degraded, 2 out of service, port 0 lowest (DESIGN CHOICE, log 80). -/
def linkStatePay (d : Dev) : Payload :=
  .bits (BitVec.ofNat 512 (packNat ((List.range 28).map fun i => (2 * i, ownLink d i))))

/-- LINK_STATE to every other device of the rack (R187). -/
def announce (d : Dev) : Dev :=
  ((List.range 64).filter (· != myPos d)).foldl (fun d q =>
    route d (mkCell d (BitVec.ofNat 16 (rackNum d * 64 + q)) 0 tyLinkState 0 0 0 (linkStatePay d))) d

/-- A change of a reported X or Y state is announced. -/
def linksNoted (before d : Dev) : Dev :=
  if (List.range 28).any fun i => ownLink before i != ownLink d i then announce d else d

/-- Changes a port; a change of a reported X or Y state is announced. -/
def setPort (d : Dev) (n : Nat) (f : Port → Port) : Dev :=
  linksNoted d (d.modPort n f)

/-- The laser wavelengths are locked and ports run their bring-up: the boot has reached the network stage (R486). -/
def opticsOn (d : Dev) : Bool := d.boot.stage == .network || d.boot.stage == .ready

/-- The port is enabled and, for a spare position, mapped (R205). -/
def portEnabled (d : Dev) (n : Nat) : Bool := bit (d.port n).cfg 0 && decide (portRole d n < 44)

def portReset (x : Port) (st : PortState) : Port :=
  { x with state := st, lanes := 0, version := 0, peerPort := 0x3F, peerId := 0, spineRack := none
           hellosSeen := 0, helloAt := 0, pending := none, creditsKnown := false, credits := [], lent := [], queue := [], deficit := [] }

/-- Step 1 of R179: lasers on, training, by the FAB_CFG and FAB_CREDIT of this moment. A port not enabled is
DISABLED. -/
def startState (d : Dev) (n : Nat) (x : Port) : Port :=
  if !portEnabled d n then portReset x .disabled
  else if opticsOn d then { portReset x .training with fabCfg := d.fab.cfg, creditCfg := d.fab.credit }
  else portReset x .dark

/-- A port begins its bring-up, its buffers empty. -/
def startPort (d : Dev) (n : Nat) : Dev :=
  setPort { d with fab := { d.fab with waiting := d.fab.waiting.filter (·.1 != n) } } n (startState d n)

/-- The input class 6 log entry of a refused partner (R180, R181, R531). -/
def logPartner (d : Dev) (n : Nat) (h : LinkHello) : Dev :=
  logIt d sevWarning none srcFabric 0x0007
    (packNat [(0, 6), (16, n), (64, h.verMin.toNat), (72, h.verMax.toNat), (80, h.dev.toNat), (96, (myId d).toNat)])

/-- The highest link version inside both ranges, the own one as this bring-up began with it (R180, R204). -/
def linkVersion (d : Dev) (n : Nat) (h : LinkHello) : Option Nat :=
  [0x20, 0x11, 0x10].find? fun v => decide (v ≤ fld (d.port n).fabCfg 7 0 ∧ fld (d.port n).fabCfg 15 8 ≤ v ∧ v ≤ h.verMax.toNat ∧ h.verMin.toNat ≤ v)

/-- The wiring check (R181). -/
def wiringOk (d : Dev) (n : Nat) (h : LinkHello) : Bool :=
  let role := portRole d n
  if role < 28 then
    let f := farEnd (myPos d) role
    h.spine == none && devPos h.dev == f.1 && h.port.toNat == f.2 && devRack h.dev == rackNum d
  else
    match h.spine with
    | some (plane, rack) =>
      plane.toNat == role - 28 &&
        (!((List.range 16).any fun q => namedUp d (28 + q)) || d.fab.rack == some rack)
    | none => false

/-- The cells of a class's reserved minimum, advertised at credit initialisation (R194, R208). -/
def reservedMin (x : Port) (cls : Nat) : Nat :=
  8 * (if cls = 0 then fld x.creditCfg 7 0 else if cls ≤ 6 then fld x.creditCfg 15 8 else fld x.creditCfg 23 16)

/-- The part's own LINK_HELLO (R180). -/
def ownHello (d : Dev) (n : Nat) : LinkHello :=
  { verMin := BitVec.ofNat 8 (fld (d.port n).fabCfg 15 8), verMax := BitVec.ofNat 8 (fld (d.port n).fabCfg 7 0)
    dev := myId d, port := BitVec.ofNat 6 (portRole d n), lanes := 0xF
    epoch := BitVec.ofNat 4 (fld d.fab.epoch 3 0), spine := none }

def sendHello (d : Dev) (n : Nat) : Dev :=
  let d := { d with out := { d.out with hellos := d.out.hellos ++ [(n, ownHello d n)] } }
  d.modPort n fun x => { x with helloAt := d.time.now }

/-- Step 4 of R179: LINK_HELLO is sent again every 10 µs until the partner's has come twice. -/
def helloTick (d : Dev) : Dev :=
  let due (x : Port) : Bool := x.state == .hello && !x.creditsKnown && decide (x.helloAt + 10000 ≤ d.time.now)
  ((d.fab.ports.filter fun x => due x.2).map (·.1)).foldl sendHello d

end Sys2Proof.Machine
end

