-- ==== Sys2Proof/Machine/Probe.lean ====
section
/-! DEFINITION. Management cells, the report of lost data (R418), and probing a peer device: the escalation of R412. -/

namespace Sys2Proof.Machine

def mgmtCell (d : Dev) (dest : DevId) (m : Mgmt) : Cell := mkCell d dest 0 tyMgmt 0 0 0 (.mgmt m)

def sendMgmt (d : Dev) (dest : DevId) (m : Mgmt) : Dev := route d (mgmtCell d dest m)

/-! ### Lost data (R418) -/

/-- The manager of the job of partition p (R484). -/
def jobManager (d : Dev) (p : Nat) : Option DevId :=
  let j := (d.part p).job
  if bit j 0 then some (BitVec.ofNat 16 (fld j 79 64)) else none

/-- Lost data: an INTERNAL event of class DATA, and the log entry of its length; the manager of a training
partition's job is told, for a replay (R418, R424). -/
def dataLoss (d : Dev) (part : Option Nat) (unit addr len : Nat) : Dev :=
  let d := recoveryEvent d sInternal 0x06 part 3 unit 0 addr
  let d := logIt d sevCritical part srcRecovery 0x0108 (leNat (recRecord 0x06 part 3 unit 0 len))
  match part with
  | some p =>
    if (d.part p).cls ≠ 1 then d
    else match jobManager d p with
      | some m => sendMgmt d m (.faultReport (.sequencer p))
      | none => d
  | none => d

/-- What is lost with the byte at a device address: its DRAM line, its word of a view, or the Cistern
buffer that holds it (R418). -/
def lossUnit (d : Dev) (p a : Nat) : Nat × Nat :=
  match locate d p true a with
  | .view .. => (a / 8 * 8, 8)
  | .cst _ =>
    match bufferAt d a with
    | some (g, i) => let x := tgetD d.cst.pools g {}; (x.addr + i * x.bsize, x.bsize)
    | none => (a / 8 * 8, 8)
  | _ => (a / 64 * 64, 64)

/-- The loss that a read met at a device address of p is reported (R302, R418). -/
def lossHere (d : Dev) (p unit a : Nat) : Dev :=
  let u := lossUnit d p a
  dataLoss d (some p) unit u.1 u.2

/-- The first loss that a range meets is reported (R302, R418). -/
def lossAt (d : Dev) (p a n : Nat) (unit : Nat := 0) : Dev :=
  match poisonAt d p false a n with
  | some i => lossHere d p unit (a + i)
  | none => d

/-! ### Escalation (R412) -/

/-- The first-hop ports of the routes to a peer: the X or Y pair and each detour inside the rack,
the Z planes otherwise (R412). -/
def probeRoutes (d : Dev) (peer : DevId) : List Nat :=
  if devRack peer = rackNum d then
    let me := myPos d
    let dst := devPos peer
    let dimX := posX me != posX dst
    let hops := (match stepTo me dst dimX with
      | some n => [n]
      | none => []) ++ ((detours me dst dimX).filterMap fun p => p[1]?)
    (hops.map fun n => pairPort me n).eraseDups
  else (List.range 16).map (· + 28)

/-- Sends one probe on every route that is in service (R412). -/
def sendProbes (d : Dev) (peer : DevId) : Dev :=
  let c := mgmtCell d peer (.probe (myId d))
  ((probeRoutes d peer).mapIdx fun i p => (i, p)).foldl (fun d x =>
    let p := x.2
    if p ≥ 28 then (if namedUp d p then enqueue d p c else d)
    else
      let q := p + pickLink d c p
      if ownLink d q < 2 then enqueue d q { c with vc := (if x.1 = 0 then 0 else 7), hops := 1 } else d) d

/-- An engine, the manager, or a neighbour on a manager's behalf puts a peer under probe (R412). A probe of the same
peer for the same asker that still runs is not begun again; a manager's then hears of one more device that asks. -/
def escalateFor (d : Dev) (peer : DevId) (asManager : Bool) (behalf : Option DevId) (asker : List DevId := []) : Dev :=
  let same (x : Probe) : Bool := x.peer == peer && x.asManager == asManager && x.behalf == behalf
  if peer = myId d then d
  else if d.rec_.probes.any same then
    { d with rec_ := { d.rec_ with probes := updFirst same (fun x => { x with askers := (x.askers ++ asker).eraseDups }) d.rec_.probes } }
  else
    let d := { d with rec_ := { d.rec_ with
      probes := d.rec_.probes ++ [⟨peer, d.time.now, asManager, probeRoutes d peer, behalf, asker⟩] } }
    sendProbes d peer

def escalate (d : Dev) (peer : DevId) (asManager : Bool) : Dev := escalateFor d peer asManager none

end Sys2Proof.Machine
end

