-- ==== Sys2Proof/Machine/Bucket.lean ====
section
/-! DEFINITION. What Rill and the gradient sequencer share: bucket table entries (R266), the buckets
of the present step, a bucket that fails (R286), and a device that finds itself at fault (R539). -/

namespace Sys2Proof.Machine

/-! ### The sequencer's registers (R287, R288) -/

def grdEn (x : Part) : Bool := bit x.grdCfg 0
def grdSr (x : Part) : Bool := bit x.grdCfg 1
def grdSrSeed (x : Part) : Nat := fld x.grdCfg 3 2
def grdCsumSeed (x : Part) : Nat := fld x.grdCfg 5 4
def grdVeto (x : Part) : Bool := bit x.grdCfg 6
def grdSteps (x : Part) : Nat := fld x.grdCfg 14 8
def grdMargin (x : Part) : Nat := fld x.grdCfg 19 16
def grdRetPool (x : Part) : Nat := fld x.grdCfg 25 20
def grdCommitSem (x : Part) : Nat := fld x.grdCfg 41 32
def grdTable (x : Part) : Nat := fld x.grdBtab 47 0
def grdCount (x : Part) : Nat := min 4096 (fld x.grdBtab 60 48)

/-- A reduction step (R268). -/
def reductionStep (x : Part) : Bool := (x.step.toNat + 1) % grdSteps x == 0

/-- The weight of checksum element i of a bucket (R275). -/
def csumWeight (seed bucket i : Nat) : Nat :=
  let r := ripple seed bucket 4095 i % P61
  let w := r + (1 - r % 2)
  if w = P61 then 1 else w

def csumSeed (d : Dev) (p : Nat) : Nat := (tgetD (d.part p).seeds (grdCsumSeed (d.part p)) 0).toNat

/-- The checksum of block g of a bucket, recomputed from its elements (R53, R275). -/
def blockCsum (d : Dev) (p bucket g : Nat) (elems : List Nat) : Nat :=
  let seed := csumSeed d p
  bsiChecksum (fun j => csumWeight seed bucket (40 * g + j)) elems

/-! ### Entries (R266) -/

def beComm (e : BitVec 1024) : Nat := fld e 7 0
def beAgreed (e : BitVec 1024) : Bool := bit e 8
def beActive (e : BitVec 1024) : Bool := bit e 9
def beChunk (e : BitVec 1024) : Nat := fld e 12 10
def beFillSem (e : BitVec 1024) : Nat := fld e 25 16
def beReadySem (e : BitVec 1024) : Nat := fld e 35 26
def beTarget (e : BitVec 1024) : Nat := fld e 95 64
def beBucket (e : BitVec 1024) : Nat := fld e 127 96
def beLen (e : BitVec 1024) : Nat := fld e 159 128
def bePromote (e : BitVec 1024) : Nat := fld e 191 160
def beAcc (e : BitVec 1024) : Nat := fld e 239 192
def beWire (e : BitVec 1024) : Nat := fld e 303 256
def beShard (e : BitVec 1024) : Nat := fld e 367 320
def beGrad (e : BitVec 1024) : Nat := fld e 431 384
def beStage (e : BitVec 1024) : Nat := fld e 495 448
def beLive (e : BitVec 1024) : Nat := fld e 559 512
def beSum (e : BitVec 1024) : Nat := fld e 687 640

/-- EMAX of the entry; none when 0x8000. -/
def beEmax (e : BitVec 1024) : Option Int :=
  let v := fld e 599 584
  if v = 0x8000 then none else some (sInt 16 v)

def entryAddr (d : Dev) (p i : Nat) : Nat := grdTable (d.part p) + 128 * i

/-- The entry can be read: inside the quota and meeting no poisoned line (R267). -/
def entryReadable (d : Dev) (p i : Nat) : Bool :=
  okFor d p (.bucket i) false (entryAddr d p i) 128 && (poisonAt d p false (entryAddr d p i) 128).isNone

def readEntry (d : Dev) (p i : Nat) : BitVec 1024 := readWord d p false 1024 (entryAddr d p i)

/-! ### Buckets of the step -/

def bucketOf (d : Dev) (p i : Nat) : Option Bucket := (d.part p).buckets.find? fun b => b.index == i

def modBucket (d : Dev) (p i : Nat) (f : Bucket → Bucket) : Dev :=
  d.modPart p fun x => { x with buckets := updFirst (fun b => b.index == i) f x.buckets }

def grdErr (d : Dev) (p i : Nat) : Dev := d.modPart p fun x => { x with grdErr := bump x.grdErr i 1 }

def grdFlag (d : Dev) (p fl : Nat) : Dev :=
  d.modPart p fun x => { x with grdFlags := x.grdFlags ||| BitVec.ofNat 32 fl }

def flOvf : Nat := 1
def flSat : Nat := 2
def flNf : Nat := 4
def flResum : Nat := 8
def flFixed : Nat := 16

/-- STATUS and FLAGS of the last reduction are written into the entry. -/
def writeOutcome (d : Dev) (p i status flags : Nat) : Dev :=
  if okFor d p (.bucket i) false (entryAddr d p i) 128 then
    writeRange d p false (entryAddr d p i + 75) [BitVec.ofNat 8 status, BitVec.ofNat 8 flags]
  else countDenied d (entryAddr d p i) 128

/-- The bucket ends with a failing status: final, and the vote will be 0 (R282, R286). -/
def bucketFail (d : Dev) (p i status : Nat) : Dev :=
  match bucketOf d p i with
  | none => d
  | some b =>
    let d := writeOutcome d p i status b.flags
    let d := logOp d sevError (some p) srcGrd status 0 i (beBucket b.entry) (entryAddr d p i)
    modBucket d p i fun b => { b with phase := .final, status := BitVec.ofNat 8 status }

/-- A collective of the sequencer ended: role 0 the reduce-scatter, 1 a summary round. -/
def bucketEnded (d : Dev) (p i role status : Nat) (fixed : Bool) : Dev :=
  let d := if fixed then modBucket d p i fun b => { b with flags := b.flags ||| flFixed } else d
  if role = 1 then modBucket d p i fun b => { b with sumEnd := some (BitVec.ofNat 8 status) }
  else if status = sOk then modBucket d p i fun b => { b with phase := .verifying }
  else bucketFail d p i status

/-! ### A device at fault (R539) -/

/-- The managers of the jobs that have a partition here. -/
def jobManagers (d : Dev) : List DevId := ((List.range 16).filterMap (jobManager d)).eraseDups

/-- The manager of p's job is told of a failure of its sequencer; without a job, the partition's mailbox is
(R267, R285). -/
def seqReport (d : Dev) (p step : Nat) : Dev :=
  match jobManager d p with
  | some m => sendMgmt d m (.faultReport (.sequencer p))
  | none => sendEvent d { code := 0x08, mailbox := p + 1, status := sInternal, id := 0x0A
                          data := recRecord 0x0A (some p) 3 0 0 step, sev := sevError, part := some p, source := srcRecovery }

def selfFault (d : Dev) : Dev :=
  let me := myId d
  let d := logIt d sevCritical none srcRecovery 0x0108 (leNat (recRecord 0x08 none 4 me.toNat 0 0))
  let d := recoveryEvent d sInternal 0x08 none 4 me.toNat 0 0
  (jobManagers d).foldl (fun d m => sendMgmt d m (.faultReport (.selfFault me))) d

end Sys2Proof.Machine
end

