-- ==== Sys2Proof/Machine/Cistern.lean ====
section
/-! DEFINITION. Cistern: pools, shares, levels, the grant rule, waiting engine requests and frees
(R321 to R331). -/

namespace Sys2Proof.Machine

def poolOf (d : Dev) (g : Nat) : Pool := tgetD d.cst.pools g {}

def setPool (d : Dev) (g : Nat) (f : Pool → Pool) : Dev :=
  { d with cst := { d.cst with pools := tput d.cst.pools g (f (poolOf d g)) } }

def cstErr (d : Dev) (i : Nat) : Dev := { d with cst := { d.cst with err := bump d.cst.err i 1 } }

/-! ### Shares and levels (R324, R325) -/

def Pool.heldBy (x : Pool) (p : Nat) : Nat := (x.held.filter fun h => h.2.part == p).length

def shareOf (d : Dev) (g p : Nat) : U64 := tgetD d.cst.shares (16 * g + p) 0

def shareQuota (d : Dev) (g p : Nat) : Nat := fld (shareOf d g p) 23 0

def shareReserve (d : Dev) (g p : Nat) : Nat := fld (shareOf d g p) 47 24

/-- unmet(q): what q's reserve still holds back; zero under QUOTA (R326). -/
def unmet (d : Dev) (g q : Nat) : Nat :=
  if (poolOf d g).mode = 0 then 0 else shareReserve d g q - (poolOf d g).heldBy q

/-- in_use × 256 ≥ value × NBUF (R325). -/
def Pool.stands (x : Pool) (v : Nat) : Bool := decide (x.held.length * 256 ≥ v * x.nbuf)

/-- The highest level the pool stands at: 0 none, 1 WARN, 2 BACKPRESSURE, 3 CRITICAL (R325). -/
def Pool.levelNow (x : Pool) : Nat :=
  if !x.en then 0
  else if x.stands (fld x.thr 23 16) then 3
  else if x.stands (fld x.thr 15 8) then 2
  else if x.stands (fld x.thr 7 0) then 1
  else 0

/-- EVENT POOL_LEVEL to mailbox 0 and its log entry (R325, R463). -/
def poolEvent (d : Dev) (g l : Nat) : Dev :=
  sendEvent d { code := 0x09, mailbox := 0, status := sOk, id := g, data := [BitVec.ofNat 8 l]
                sev := sevWarning, source := srcCistern }

/-- The pool's level and peak after its use or thresholds changed; entering WARN or CRITICAL is
reported (R325). -/
def notePool (d : Dev) (g : Nat) : Dev :=
  let x := poolOf d g
  let new := x.levelNow
  let d := setPool d g fun x => { x with level := new, peak := max x.peak x.held.length }
  [1, 3].foldl (fun d l => if x.level < l ∧ l ≤ new then poolEvent d g l else d) d

/-! ### The grant rule (R326) -/

/-- The status with which a request of n buffers is refused; none when it is granted. -/
def grantTest (d : Dev) (g p n : Nat) : Option Nat :=
  let x := poolOf d g
  let free := x.nbuf - x.held.length
  let kept := (((List.range 16).filter (· != p)).map (unmet d g)).foldl (· + ·) 0
  if (x.mode = 0 ∨ x.mode = 2) ∧ x.heldBy p + n > shareQuota d g p then some sQuota
  else if n + kept > free then some sNoResource
  else if x.level = 3 ∧ n > unmet d g p then some sNoResource
  else none

/-- The n lowest-numbered free buffers. -/
def lowFree (held : Tbl Held) (nbuf : Nat) : Nat → Nat → Nat → List Nat
  | 0, _, _ => []
  | _ + 1, _, 0 => []
  | f + 1, i, n + 1 =>
    if i ≥ nbuf then []
    else if (tget held i).isSome then lowFree held nbuf f (i + 1) (n + 1)
    else i :: lowFree held nbuf f (i + 1) n

def Pool.bufAddr (x : Pool) (i : Nat) : Nat := x.addr + i * x.bsize

/-- Every byte of a buffer becomes zero. -/
def zeroBuf (d : Dev) (g i : Nat) : Dev :=
  let x := poolOf d g
  let a := x.bufAddr i
  if x.inDram then
    match x.pages[(a - x.addr) / pageSize]? with
    | some pg =>
      let lo := pg * pageSize + (a - x.addr) % pageSize
      { d with mem := { d.mem with dram := mclear d.mem.dram lo (lo + x.bsize)
                                   poison := d.mem.poison.filter fun l => !inRange lo x.bsize (64 * l) } }
    | none => d
  else { d with cst := { d.cst with sram := mclear d.cst.sram (a - cstBase) (a - cstBase + x.bsize)
                                    bad := wordsLeft d.cst.bad (a - cstBase) x.bsize } }

/-- Hands the buffer to p: zeroed under ZERO, or when its previous holder was another partition
(R323). -/
def takeBuf (d : Dev) (g p : Nat) (engine : Bool) (i : Nat) : Dev :=
  let x := poolOf d g
  let other := match tget x.prev i with
    | some q => q != p
    | none => false
  let d := if x.zero || other then zeroBuf d g i else d
  setPool d g fun x => { x with held := tput x.held i ⟨p, engine⟩ }

/-- Grants the n lowest-numbered free buffers to p (R326). -/
def takeBufs (d : Dev) (g p n : Nat) (engine : Bool) : List Nat × Dev :=
  let x := poolOf d g
  let is := lowFree x.held x.nbuf (x.held.length + n + 1) 0 n
  (is, notePool (is.foldl (fun d i => takeBuf d g p engine i) d) g)

/-- Returns buffers to their pool. -/
def freeBufs (d : Dev) (g : Nat) (is : List Nat) : Dev :=
  notePool (is.foldl (fun d i => setPool d g fun x =>
    match tget x.held i with
    | some h => { x with held := tdel x.held i, prev := tput x.prev i h.part }
    | none => x) d) g

def freeAll (d : Dev) (bs : List (Nat × Nat)) : Dev := bs.foldl (fun d b => freeBufs d b.1 [b.2]) d

/-- The ENGINE bit of an ALLOC receive region is cleared when its header is final (R328). -/
def releaseEngine (d : Dev) (g i : Nat) : Dev :=
  setPool d g fun x => match tget x.held i with
    | some h => { x with held := tput x.held i { h with engine := false } }
    | none => x

/-! ### Engine requests that wait (R327) -/

def waitsFor (d : Dev) (g p : Nat) : Bool := d.cst.waits.any fun w => w.pool == g && w.part == p

/-- The effects of BACKPRESSURE on Rill slots and retention, with their reserve exemption
(R325, R326). -/
def backOk (d : Dev) (g p n : Nat) : Bool := (poolOf d g).level < 2 || decide (n ≤ unmet d g p)

/-- Which engine requests BACKPRESSURE holds back. -/
def WaitFor.heldBack : WaitFor → Bool
  | .alloc .. => false
  | .returns .. => false
  | .slots _ => true
  | .retain .. => true

/-- The request may be granted now. -/
def requestOk (d : Dev) (g p n : Nat) (who : WaitFor) : Bool :=
  (grantTest d g p n).isNone && (!who.heldBack || backOk d g p n)

/-- An engine's request: granted in full, or waiting behind those of its (pool, partition). -/
def request (d : Dev) (g p n : Nat) (who : WaitFor) : Option (List Nat) × Dev :=
  if d.cst.waits.any fun w => w.pool == g && w.part == p && w.who == who then (none, d)
  else if !waitsFor d g p && requestOk d g p n who then
    let (is, d) := takeBufs d g p n true
    (some is, d)
  else (none, cstErr { d with cst := { d.cst with waits := d.cst.waits ++ [⟨g, p, n, who⟩] } } 3)

/-- The first waiting request of (g, p), with its buffers, when the rule now grants it. -/
def grantWaiting (d : Dev) (g p : Nat) : Option (WaitFor × List Nat) × Dev :=
  match d.cst.waits.find? fun w => w.pool == g && w.part == p with
  | none => (none, d)
  | some w =>
    if requestOk d g p w.n w.who then
      let d := { d with cst := { d.cst with waits := dropFirst (· == w) d.cst.waits } }
      let (is, d) := takeBufs d g p w.n true
      (some (w.who, is), d)
    else (none, d)

/-- A request that is no longer wanted leaves the queue. -/
def dropWaits (d : Dev) (k : WaitReq → Bool) : Dev :=
  { d with cst := { d.cst with waits := d.cst.waits.filter fun w => !k w } }

/-! ### ALLOC and FREE (R326, R327, R330, R341) -/

/-- The status and CAUSE with which an ALLOC is refused; none when it is granted. -/
def allocTest (d : Dev) (g p n : Nat) : Option (Nat × Nat) :=
  if waitsFor d g p then some (sNoResource, 5)
  else match grantTest d g p n with
    | none => none
    | some st => some (st, if st = sQuota then 4 else 5)

/-- One pointer of a FREE list against those before it: its buffer, or status and CAUSE (R330). -/
def freeTest (d : Dev) (g p : Nat) (before : List Nat) (a : Nat) : Nat ⊕ (Nat × Nat) :=
  let x := poolOf d g
  if !(x.en && inRange x.addr (x.nbuf * x.bsize) a) then .inr (sBadField, 6)
  else if (a - x.addr) % x.bsize ≠ 0 then .inr (sBadField, 7)
  else
    let i := (a - x.addr) / x.bsize
    match tget x.held i with
    | none => .inr (sBadField, 8)
    | some h =>
      if before.contains i then .inr (sBadField, 8)
      else if h.part ≠ p ∨ h.engine then .inr (sDenied, 9)
      else .inl i

/-- The whole list in order: the buffers, or the first failing check, with its pointer. -/
def freeTests (d : Dev) (g p : Nat) : List Nat → List Nat → List Nat ⊕ (Nat × Nat × Nat)
  | before, [] => .inl before
  | before, a :: as =>
    match freeTest d g p before a with
    | .inl i => freeTests d g p (before ++ [i]) as
    | .inr e => .inr (e.1, e.2, a)

/-- The counter of R330 for a failing check, and its log entry with the pointer. -/
def countBadFree (d : Dev) (p cause a : Nat) : Dev :=
  let i := if cause = 8 then 2 else if cause = 9 then 1 else 0
  let d := cstErr d i
  logOp d sevNotice (some p) srcCistern (if cause = 9 then sDenied else sBadField) cause 0xFFFF 0 a

/-- A destroyed partition's buffers return to their pools (R331). -/
def returnBuffers (d : Dev) (p : Nat) : Dev :=
  let d := dropWaits d fun w => w.part == p
  (tkeys d.cst.pools).foldl (fun d g =>
    freeBufs d g (((poolOf d g).held.filter fun h => h.2.part == p).map (·.1))) d

end Sys2Proof.Machine
end

