-- ==== Sys2Proof/Machine/Tasks.lean ====
section
/-! DEFINITION. What engines share about tasks: completing an engine command (R66, R77) and the
weighted round robin over partitions (R365). -/

namespace Sys2Proof.Machine

/-- SIG_EN and SIG_IDX of a command (R64): its completion adds 1 to a scoreboard entry. -/
def sigOf (w : BitVec 128) (sb : Tbl U32) : Tbl U32 :=
  if bit w 6 then tmod sb (fld w 13 8) 0 (· + 1) else sb

/-- A bit of the effect log is set (R415). -/
def logBit (es : List Nat) (i : Nat) : List Nat := if es.contains i then es else i :: es

/-- Commands of one unit complete in program order (R66): the leading finished ones leave. `half`
marks a finished command of the engine port. -/
def completePort (t : Task) : Task :=
  let done := t.port.takeWhile (·.half)
  { t with port := t.port.dropWhile (·.half), sb := done.foldl (fun sb x => sigOf x.w sb) t.sb }

/-- The engine has accepted the work of the command at `idx`: its bit is set at once, and it completes in its turn
(R66, R77, R415). -/
def portDone (d : Dev) (p lcore : Nat) (sub : U32) (idx : Nat) : Dev :=
  modTask d p lcore fun t =>
    if t.sub = sub then completePort { t with
      port := t.port.map fun x => if x.idx = idx then { x with half := true } else x, effects := logBit t.effects idx }
    else t

/-- The partition whose waiting command starts next: the last one while its weight lasts, else the
next in ascending number, a new round beginning at 0 (R365). -/
def nextPart (d : Dev) (waiting : Nat → Bool) (last used : Nat) : Option Nat :=
  if 0 < used ∧ used < (d.part last).weight ∧ waiting last then some last
  else match ((List.range 16).filter (· > last)).find? waiting with
    | some p => some p
    | none => (List.range 16).find? waiting

/-- The count of commands the partition has started in this round. -/
def usedNow (d : Dev) (last used p : Nat) : Nat :=
  if p = last ∧ 0 < used ∧ used < (d.part p).weight then used + 1 else 1

end Sys2Proof.Machine
end

