-- ==== Sys2Proof/Machine/Xdesc.lean ====
section
/-! DEFINITION. Sluice's operation descriptor and receive table, field by field, and the areas an exchange names
(R131, R139, R172). -/

namespace Sys2Proof.Machine

/-! ### Operation descriptor and receive table (R131, R139) -/

def xdKind (x : BitVec 512) : Nat := fld x 1 0
def xdGlobal (x : BitVec 512) : Bool := bit x 2
def xdVc (x : BitVec 512) : Nat := 1 + fld x 3 3
def xdXfmt (x : BitVec 512) : Nat := fld x 8 4
def xdSfmt (x : BitVec 512) : Nat := fld x 13 9
def xdOfmt (x : BitVec 512) : Nat := fld x 18 14
def xdRnd (x : BitVec 512) : Nat := fld x 20 19
def xdSeed (x : BitVec 512) : Nat := fld x 22 21
def xdK (x : BitVec 512) : Nat := fld x 27 23
def xdC (x : BitVec 512) : Nat := fld x 40 28
def xdStream (x : BitVec 512) : Nat := fld x 52 41
def xdS (x : BitVec 512) : Nat := fld x 63 53
def xdId (x : BitVec 512) : Nat := fld x 95 64
def xdW32 (x : BitVec 512) : Nat := fld x 105 96
def xdWidth (x : BitVec 512) : Nat := 32 * xdW32 x
def xdDone (x : BitVec 512) : Nat := fld x 115 106
def xdPool (x : BitVec 512) : Nat := fld x 121 116
def xdShared (x : BitVec 512) : Bool := bit x 122
def xdRec (x : BitVec 512) : Nat := fld x 175 128
def xdCnt (x : BitVec 512) : Nat := fld x 239 192
def xdData (x : BitVec 512) : Nat := fld x 303 256
def xdStride (x : BitVec 512) : Nat := 64 * fld x 319 304
def xdPeer (x : BitVec 512) : Nat := fld x 367 320
def xdRxt (x : BitVec 512) : Nat := fld x 431 384
def xdNl (x : BitVec 512) : Nat := fld x 444 432

def rxAddr (e : BitVec 512) : Nat := fld e 47 0
def rxStride (e : BitVec 512) : Nat := 64 * fld e 63 48
def rxScale (e : BitVec 512) : Nat := fld e 111 64
def rxRows (e : BitVec 512) : Nat := fld e 124 112
def rxAlloc (e : BitVec 512) : Bool := bit e 125
def rxOut (e : BitVec 512) : Nat := fld e 175 128
def rxOutStride (e : BitVec 512) : Nat := 64 * fld e 191 176
def rxHdr (e : BitVec 512) : Nat := fld e 239 192
def rxLcore (e : BitVec 512) : Nat := fld e 260 256

/-- A signal of an entry: its EN, SPACE and IDX fields begin at bit `b` (R139). -/
def rxSig (e : BitVec 512) (b : Nat) : SigTarget :=
  if !bit e b then .none
  else if bit e (b + 1) then .semaphore (fld e (b + 11) (b + 2))
  else .scoreboard (rxLcore e) (fld e (b + 11) (b + 2))

/-- Bytes of the elements of a row of `w` values. -/
def rowElems (code w : Nat) : Nat := w * elemBits (elemOf code) / 8

/-- Bytes of a row's scales. -/
def rowScales (code w : Nat) : Nat := if isMx code then w / 32 else 0

/-- RC, the cells of a row on the wire (R135). -/
def wireCells (code w : Nat) : Nat := divUp (rowElems code w + rowScales code w) 64

def rowCells (x : BitVec 512) : Nat := wireCells (xdXfmt x) (xdWidth x)

/-- b of R70: the stride unit that one scale stands for. -/
def strideUnit (code : Nat) : Nat := if isMx code then blockBytes code else 1

/-! ### Areas of an exchange (R172) -/

/-- E and CNT_ADDR of a Gate Descriptor (R96). -/
def gdE (x : BitVec 2048) : Nat := fld x 31 16
def gdCnt (x : BitVec 2048) : Nat := fld x 495 448

/-- What one receive table entry names: header, row map and output region, and the slot region of a DISPATCH. -/
def entryAreas (x e : BitVec 512) (combine : Bool) : List (Nat × Nat) :=
  (rxHdr e, 64 + 8 * rxRows e) :: (rxOut e, rxRows e * rxOutStride e) ::
    (if combine ∨ rxAlloc e then []
     else if isMx (xdXfmt x) then [(rxAddr e, rxRows e * rxStride e), (rxScale e, rxRows e * (rxStride e / strideUnit (xdXfmt x)))]
     else [(rxAddr e, rxRows e * rxStride e)])

/-- Bytes of the count vector at an address: its header, and one count for each expert of the Gate Descriptor that names
it (R117). -/
def countBytes (d : Dev) (p a : Nat) : Nat :=
  64 + 4 * ((d.gate.descs.filter fun g => g.1 / 256 == p && gdCnt g.2 == a).map fun g => gdE g.2).foldl max 0

/-- Records, count vector, slot regions, headers, row maps and output regions. -/
def exchAreas (d : Dev) (x : Exch) : List (Nat × Nat) :=
  let y := x.desc
  [(xdRec y, 16 * xdK y * x.tokens), (xdCnt y, countBytes d x.part (xdCnt y))] ++ x.rxt.flatMap (fun e => entryAreas y e x.combine) ++
  (if x.combine then [(xdData y, x.tokens * xdStride y)] else [])

/-- The areas of the partition's open exchanges, and those that an ended DISPATCH leaves to its COMBINE, but for those
of which `own` holds. -/
def areasBut (d : Dev) (p : Nat) (uid : Nat → Bool) (own : KeptAreas → Bool) : List (Nat × Nat) :=
  (d.slc.exch.filter fun x => x.part == p && !x.wrote && !uid x.uid).flatMap (exchAreas d) ++
  (d.slc.kept.filter fun k => k.part == p && !own k).flatMap (·.areas)

/-- These are the areas that the DISPATCH of the same Gate step has left: they name its records and count vector. -/
def KeptAreas.ofLayer (k : KeptAreas) (p : Nat) (x : BitVec 512) : Bool := k.part == p && k.rec_ == xdRec x && k.cnt == xdCnt x

/-- The areas that an exchange shares with no other. -/
def openAreas (d : Dev) (x : Exch) : List (Nat × Nat) :=
  areasBut d x.part (· == x.uid) fun k => x.combine && k.ofLayer x.part x.desc

/-- Writes bytes of p; those that lie in one of the areas `rs` of another agent hold undefined contents (R121, R172). -/
def writeShared (d : Dev) (p : Nat) (engine : Bool) (rs : List (Nat × Nat)) (a : Nat) (bs : List Byte) : Dev :=
  let rs := rs.filter fun r => decide (r.1 < a + bs.length ∧ a < r.1 + r.2)
  if rs.isEmpty then writeRange d p engine a bs
  else
    let (j, d) := drawFree d
    writeRange d p engine a (bs.mapIdx fun i b => if rs.any fun r => inRange r.1 r.2 (a + i) then Config.undefinedByte (j * 2 ^ 34 + i) else b)

end Sys2Proof.Machine
end

