-- ==== Sys2Proof/Machine/Gate.lean ====
section
/-! DEFINITION. The Gate Unit: pushes, step workspaces, scores, selection, capacity admission, weights
and outputs (R93 to R124). -/

namespace Sys2Proof.Machine

/-! ### Gate Descriptor fields (R95) -/

def gdBiasEn (x : BitVec 2048) : Bool := bit x 8
def gdK (x : BitVec 2048) : Nat := fld x 36 32
def gdScore (x : BitVec 2048) : Nat := fld x 41 40
def gdNorm (x : BitVec 2048) : Bool := bit x 42
def gdRenorm (x : BitVec 2048) : Bool := bit x 43
def gdGlobal (x : BitVec 2048) : Bool := bit x 44
def gdNextChoice (x : BitVec 2048) : Bool := bit x 45
def gdSkip (x : BitVec 2048) : Bool := bit x 46
def gdNullInNorm (x : BitVec 2048) : Bool := bit x 47
def gdG (x : BitVec 2048) : Nat := fld x 54 48
def gdTopG (x : BitVec 2048) : Nat := fld x 62 56
def gdNcDepth (x : BitVec 2048) : Nat := fld x 68 64
def gdNull (x : BitVec 2048) : Nat := fld x 85 72
def gdCap (x : BitVec 2048) : Nat := fld x 108 96
def gdEpSize (x : BitVec 2048) : Nat := fld x 122 112
def gdEpRank (x : BitVec 2048) : Nat := fld x 137 128
def gdMaxTokens (x : BitVec 2048) : Nat := fld x 174 160
def gdPushers (x : BitVec 2048) : Nat := fld x 181 176
def gdDoneSem (x : BitVec 2048) : Nat := fld x 201 192
def gdScale (x : BitVec 2048) : Nat := fld x 255 224
def gdBias (x : BitVec 2048) : Nat := fld x 303 256
def gdEpt (x : BitVec 2048) : Nat := fld x 367 320
def gdRec (x : BitVec 2048) : Nat := fld x 431 384

/-- Workspace of a step in KiB (R99). -/
def gdWsKib (x : BitVec 2048) : Nat :=
  roundUp (gdMaxTokens x * (gdK x + gdNcDepth x) * 8 + gdE x * 16) 65536 / 1024

/-- GATE_PUSH operands (R77). -/
def gpSlot (w : BitVec 128) : Nat := fld w 23 16
def gpLast (w : BitVec 128) : Bool := bit w 24
def gpSkipEn (w : BitVec 128) : Bool := bit w 25
def gpSrc (w : BitVec 128) : Nat := fld w 55 32
def gpBase (w : BitVec 128) : Nat := fld w 71 56
def gpNtok (w : BitVec 128) : Nat := fld w 87 72
def gpSkipSrc (w : BitVec 128) : Nat := fld w 111 88

def findStep (d : Dev) (k : Nat) : Option GStep := d.gate.steps.find? fun g => g.id == k

def modStep (d : Dev) (k : Nat) (f : GStep → GStep) : Dev :=
  { d with gate := { d.gate with steps := updFirst (fun g => g.id == k) f d.gate.steps } }

/-- A step that has closed and failed is over. -/
def sweepSteps (d : Dev) : Dev :=
  { d with gate := { d.gate with steps := d.gate.steps.filter fun g => !(g.closed && g.failed) } }

def gateFlag (d : Dev) (p i : Nat) : Dev :=
  d.modPart p fun x => { x with gateFlags := x.gateFlags ||| (1#32 <<< i) }

/-! ### Workspaces and step places (R99, R376) -/

/-- A step holds its place and workspace from the grant until its outputs are written or it ends. -/
def GStep.holds (g : GStep) : Bool := g.granted && !g.failed

def wsTotalKib : Nat := 6656

def wsHeld (d : Dev) (serve : Bool) : Nat :=
  (d.gate.steps.filter fun g => g.holds && g.serve == serve).foldl (fun a g => a + gdWsKib g.desc) 0

def placesHeld (d : Dev) (serve : Bool) : Nat := (d.gate.steps.filter fun g => g.holds && g.serve == serve).length

/-- What is left of `total` for a class: everything for SERVE, what lies outside the SERVE reserve for
the others. -/
def classFree (total reserve serveHeld otherHeld : Nat) (serve : Bool) : Nat :=
  if serve then total - serveHeld - otherHeld else total - otherHeld - max reserve serveHeld

/-- The step's share can supply its place and workspace (R99), by the reserves in force at its opening push (R383). -/
def stepFits (d : Dev) (g : GStep) : Bool :=
  let wsFree := classFree wsTotalKib (64 * fld g.res 22 16) (wsHeld d true) (wsHeld d false) g.serve
  let plFree := classFree 32 (fld g.res 14 9) (placesHeld d true) (placesHeld d false) g.serve
  decide (gdWsKib g.desc ≤ wsFree ∧ 1 ≤ plFree)

/-! ### Output regions (R116, R117, R121) -/

/-- The record array and the count vector of a descriptor. -/
def gdOutputs (x : BitVec 2048) : List (Nat × Nat) := [(gdRec x, gdMaxTokens x * gdK x * 16), (gdCnt x, 64 + 4 * gdE x)]

/-- The output regions of the partition's other loaded slots. -/
def otherOutputs (d : Dev) (p slot : Nat) : List (Nat × Nat) :=
  (d.gate.descs.filter fun g => g.1 / 256 == p && g.1 % 256 != slot).flatMap fun g => gdOutputs g.2

/-- Writes output bytes; those that lie in another slot's output region, or in an area of an exchange, hold undefined
contents (R121, R172). What lies in a view image is charged (R366). -/
def gateWrite (d : Dev) (p slot a : Nat) (bs : List Byte) : Dev :=
  let areas := areasBut d p (fun _ => false) fun _ => false
  chargeImage (writeShared d p false (otherOutputs d p slot ++ areas) a bs) p a bs.length

/-! ### Step faults (R119, R124) -/

/-- The step fails: header with the failing STATUS, DONE_SEM, GATE_FAULT, log entry and EVENT. R526 gives the entry of
a Gate step neither identifier nor address: the model puts the slot and CNT_ADDR (DESIGN CHOICE, log 72). -/
def gateFault (d : Dev) (k : Nat) (cause token : Nat) : Dev :=
  match findStep d k with
  | none => d
  | some g =>
    if g.failed then d
    else
      let p := g.part
      let st := if cause = 5 then sInternal else sProgFault
      let hdr := toLe 64 (packNat [(256, st), (320, g.step.toNat)])
      let d := if okFor d p (.gate k) false (gdCnt g.desc) 64 then gateWrite d p g.slot (gdCnt g.desc) hdr else d
      let image := packNat [(0, g.slot), (8, cause), (16, token)]
      let d := gateFlag (d.modPart p fun x => { x with gateFault := BitVec.ofNat 32 image }) p 10
      let d := modStep d k fun g => { g with failed := true }
      let d := logOp d sevError (some p) srcGate st cause 0xFFFF g.slot (gdCnt g.desc)
      let d := sendEvent d { code := 0x03, mailbox := p + 1, status := st, id := g.slot, data := toLe 4 image
                             sev := sevError, part := some p, source := srcGate }
      addSem d p (gdDoneSem g.desc) 1

/-- A step fault whose cause is a read of n bytes: outside the quota, or a lost line or word, reported where it lies
(R418). -/
def gateReadFault (d : Dev) (k : Nat) (p cause token addr n : Nat) : Dev :=
  let lost (d : Dev) : Dev := lossHere d p 0 (addr + (poisonAt d p false addr n).getD 0)
  gateFault (if cause = 5 then lost d else d) k cause token

/-- CAUSE of a read of a device range, or none (R119). -/
def gateReadCause (d : Dev) (p a n : Nat) : Option Nat :=
  if !okRange d p false a n then some 4
  else if (poisonAt d p false a n).isSome then some 5
  else none

/-! ### Scores and keys (R102 to R104) -/

def nan32? (x : Nat) : Bool := (f32 x).isNan

/-- A prepared logit: its value, whether it was a NaN, whether it was +∞ (R102). -/
def prepLogit (x : Nat) : Nat × Bool × Bool :=
  if nan32? x then (ninf32, true, false)
  else if x = pinf32 then (0x7F7FFFFF, false, true)
  else (x, false, false)

/-- Position in R105's order: a higher key gives a smaller number, and −0 equals +0. -/
def descKey (x : Nat) : Nat := if x.testBit 31 then 2 ^ 31 + x % 2 ^ 31 else 2 ^ 31 - x

/-- Adds the list in R103's order: 32 partial sums, then the fixed tree. -/
def treeSum (n : Nat) (xs : List Nat) : FlM Nat := do
  let parts ← (List.range 32).mapM fun j =>
    ((xs.mapIdx fun i x => (i, x)).filter fun y => y.1 % 32 == j && decide (y.1 < n)).foldlM (fun a y => fadd a y.2) 0
  treeFold fadd [16, 8, 4, 2, 1] parts

def softmaxScores (xs : List Nat) : FlM (List Nat) := do
  let fin := xs.filter (· != ninf32)
  match fin with
  | [] => pure (xs.map fun _ => 0)
  | y :: ys =>
    let mx ← ys.foldlM fmax y
    let v ← xs.mapM fun x => if x = ninf32 then pure 0 else do fexp (← fsub x mx)
    let p0 ← treeSum xs.length v
    let r ← fdiv one32 p0
    v.mapM fun e => fmul e r

def scoresOf (mode : Nat) (xs : List Nat) : FlM (List Nat) :=
  match mode with
  | 0 => softmaxScores xs
  | 1 => xs.mapM fsigmoid
  | _ => pure xs

/-- A candidate expert: its number, score and key. -/
structure Cand where
  e : Nat
  score : Nat
  key : Nat
  deriving DecidableEq, Repr

/-- Every expert of a token with its score and key, and whether it is eligible (R102 to R104). -/
def candidates (x : BitVec 2048) (bias : List U32) (prepped : List Nat) : List (Cand × Bool) :=
  let scores := (scoresOf (gdScore x) prepped 0).1
  let withBias := (scores.zip prepped).mapIdx fun e s =>
    let key := add32 s.1 (if gdBiasEn x then (bias.getD e 0).toNat else 0)
    (⟨e, s.1, key⟩, s.2)
  withBias.map fun c => (c.1, c.2 != ninf32 && !nan32? c.1.key && c.1.key != ninf32)

/-! ### Selection (R105 to R107) -/

/-- The best `n` by descending key, earlier elements first among equals. -/
def bestBy {α : Type} (key : α → Nat) (n : Nat) (xs : List α) : List α :=
  xs.foldl (fun acc x => (insertBy (fun y => descKey (key y)) x acc).take n) []

def groupScore (cs : List Cand) : Option Nat :=
  match bestBy Cand.key 2 cs with
  | [] => none
  | [a] => some a.key
  | a :: b :: _ => some (add32 a.key b.key)

/-- The first `n` candidates of the chosen groups in R105's order. -/
def selectTop (x : BitVec 2048) (cs : List (Cand × Bool)) (n : Nat) : List Cand :=
  let size := gdE x / gdG x
  let groups := ((chunks size cs).mapIdx fun g c => (g, (c.filter (·.2)).map (·.1)))
  let scored := groups.filterMap fun g => (groupScore g.2).map fun s => (g.1, s)
  let chosen := (bestBy (fun (g : Nat × Nat) => g.2) (gdTopG x) scored).map (·.1)
  bestBy Cand.key n ((groups.filter fun g => chosen.contains g.1).flatMap (·.2))

/-- One routed token: scored, keyed and selected. Also whether a logit was +∞ (R102, R107). -/
def gateToken (x : BitVec 2048) (bias : List U32) (index : Nat) (logits : List Nat) : GToken × Bool :=
  let pre := logits.map prepLogit
  let cs := candidates x bias (pre.map (·.1))
  let nan := pre.any (·.2.1) || cs.any fun c => nan32? c.1.key
  let depth := if gdNextChoice x then gdNcDepth x else 0
  let top := selectTop x cs (gdK x + depth)
  let held := top.take (gdK x)
  let pads := List.replicate (gdK x - held.length) none
  (⟨index, false, nan, held.map (fun c => some c.e) ++ pads, (top.drop (gdK x)).map (·.e),
      sortBy (·.1) (top.map fun c => (c.e, BitVec.ofNat 32 c.score))⟩, pre.any (·.2.2))

/-! ### Admission (R110 to R113) -/

/-- What a rank of a token ended with. -/
structure Choice where
  token : Nat
  rank : Nat
  expert : Nat := 0xFFFF
  nul : Bool := false
  nocand : Bool := false
  subst : Bool := false
  drop : Bool := false
  skip : Bool := false
  nan : Bool := false
  replica : Nat := 0
  dest : Nat := 0xFFFF
  slot : Nat := 0xFFFF
  lslot : Nat := 0xFFFF
  score : Nat := 0
  weight : Nat := 0
  deriving DecidableEq, Repr

/-- Admission state: counters, COUNT by expert, remaining substitutes by token, choices made, entry
reads, and the first failing read with its token. -/
structure Admit where
  cnt : Tbl Nat := []
  count : Tbl Nat := []
  subs : Tbl (List Nat) := []
  out : List Choice := []
  reads : Nat := 0
  bad : Option (Nat × Nat × Nat) := none
  deriving DecidableEq, Repr

/-- The serving replica of expert e for token t (R110). -/
def replicaOf (x : BitVec 2048) (entry : BitVec 128) (t : Nat) : Option Nat :=
  let live := bitsSet 4 (fld entry 67 64)
  if live.isEmpty then none else live[(gdEpRank x * 65536 + t) % live.length]?

def capOf (x : BitVec 2048) : Nat := if gdGlobal x then gdCap x else divUp (gdCap x) (gdEpSize x)

/-- R112's loop for one choice. -/
def admitLoop (g : GStep) (t : GToken) : Nat → Choice → Nat → Admit → Admit
  | 0, _, _, a => a
  | f + 1, c, e, a =>
    let x := g.desc
    let score := (tgetD t.scores e 0).toNat
    if e ≥ gdE x - gdNull x then { a with out := a.out ++ [{ c with nul := true, score := score }] }
    else match tget g.bad e with
      | some cause => { a with bad := some (a.bad.getD (cause, t.index, gdEpt x + 16 * e)) }
      | none =>
        let entry := g.table.getD e 0
        let q := replicaOf x entry t.index
        let key := if gdGlobal x then 4 * e + q.getD 0 else e
        let n := tgetD a.cnt key 0
        let a := { a with reads := a.reads + 1 }
        let named : Choice := match q with
          | some r => { c with expert := e, score := score, replica := r
                               dest := fld entry (16 * r + 15) (16 * r), lslot := fld entry 91 80 }
          | none => { c with expert := e, score := score, replica := 0, dest := 0xFFFF, lslot := 0xFFFF }
        if q.isSome ∧ n < capOf x then
          { a with cnt := tput a.cnt key (n + 1), count := tmod a.count e 0 (· + 1)
                   out := a.out ++ [{ named with slot := n }] }
        else match tgetD a.subs t.index t.subs with
          | s :: ss => admitLoop g t f { c with subst := true } s { a with subs := tput a.subs t.index ss }
          | [] => { a with out := a.out ++ [{ named with drop := true }] }

/-- One (rank, token) of the admission order. -/
def admitOne (g : GStep) (r : Nat) (a : Admit) (t : GToken) : Admit :=
  let c : Choice := { token := t.index, rank := r, nan := t.nan }
  if t.skipped then { a with out := a.out ++ [{ c with skip := true }] }
  else match t.held.getD (r - 1) none with
    | none => { a with out := a.out ++ [{ c with nul := true, nocand := true }] }
    | some e => admitLoop g t (t.subs.length + 1) c e a

def admitAll (g : GStep) : Admit :=
  let ts := sortBy (·.index) g.tokens
  ((List.range (gdK g.desc)).map (· + 1)).foldl (fun a r => ts.foldl (admitOne g r) a) {}

/-! ### Weights (R114, R115) -/

/-- The rank belongs to its token's normalising set. -/
def inSet (x : BitVec 2048) (c : Choice) : Bool :=
  !c.skip && !c.nocand && (!c.nul || gdNullInNorm x) && (!c.drop || !gdRenorm x)

/-- The weights of one token's ranks, and whether it counts in UNNORM_TOKENS. -/
def tokenWeights (x : BitVec 2048) (cs : List Choice) : List Choice × Bool :=
  let set := cs.filter (inSet x)
  let sigma := set.foldl (fun a c => add32 a c.score) 0
  let fine := gdNorm x && (f32 sigma).isFin && (Val.fin false 0 0).lt (f32 sigma)
  let weight (c : Choice) : Nat :=
    if c.drop || c.nocand || c.skip || (c.nul && !gdNullInNorm x) then 0
    else if fine then (fmul (fdiv c.score sigma 0).1 (gdScale x) 0).1
    else (fmul c.score (gdScale x) 0).1
  (cs.map fun c => { c with weight := weight c }, gdNorm x && !fine && !set.isEmpty)

/-! ### Outputs (R116, R117) -/

def recordBytes (c : Choice) : List Byte :=
  toLe 16 (packNat [(0, c.token), (16, c.rank), (24, b2n c.drop), (25, b2n c.subst), (26, b2n c.nul), (27, b2n c.skip),
    (28, b2n c.nan), (29, b2n c.nocand), (30, c.replica), (32, if c.nul then 0xFFFF else c.expert), (48, c.dest),
    (64, c.slot), (80, c.lslot), (96, c.weight)])

/-- Writes the records in order; the token of the first that lies outside the quota. -/
def writeRecords (d : Dev) (p id slot base k : Nat) : List Choice → Dev × Option Nat
  | [] => (d, none)
  | c :: cs =>
    let a := base + (c.token * k + c.rank - 1) * 16
    if okFor d p (.gate id) false a 16 then writeRecords (gateWrite d p slot a (recordBytes c)) p id slot base k cs
    else (d, some c.token)

def countWhere (f : Choice → Bool) (cs : List Choice) : Nat := (cs.filter f).length

def countHeader (g : GStep) (cs : List Choice) (unnorm : Nat) : List Byte :=
  let t := g.tokens.length
  let dropped := countWhere (·.drop) cs
  let nulls := countWhere (·.nul) cs
  let skips := (g.tokens.filter (·.skipped)).length
  let admitted := cs.length - dropped - nulls - gdK g.desc * skips
  toLe 64 (packNat [(0, t), (32, t * gdK g.desc), (64, admitted), (96, dropped), (128, nulls), (160, skips),
    (192, countWhere (·.subst) cs), (224, (g.tokens.filter (·.nan)).length), (256, sOk), (288, unnorm), (320, g.step.toNat)])

/-- The step closes: missing tokens, admission, weights, records and count vector (R98, R112). Of several missing
tokens GATE_FAULT names the lowest, where R124 leaves open which (DESIGN CHOICE, log 72). -/
def gateClose (d : Dev) (k : Nat) : Dev :=
  match findStep d k with
  | none => d
  | some g =>
    if g.failed || g.written then d
    else
      let x := g.desc
      let p := g.part
      let top := g.tokens.foldl (fun a t => max a (t.index + 1)) 0
      match (List.range top).find? fun i => !(g.tokens.any fun t => t.index == i) with
      | some i => gateFault d k 3 i
      | none =>
        let a := admitAll g
        let d := weirCharge d p 0 (a.reads * dramBytes d p (gdEpt x) 16)
        match a.bad with
        | some (cause, t, addr) => gateReadFault d k p cause t addr 16
        | none =>
          let ts := (List.range top).map fun t => tokenWeights x (sortBy (·.rank) (a.out.filter fun c => c.token == t))
          let cs := ts.flatMap (·.1)
          let d := if cs.any (·.drop) then gateFlag d p 8 else d
          let d := if cs.any (·.nocand) then gateFlag d p 9 else d
          match writeRecords d p g.id g.slot (gdRec x) (gdK x) cs with
          | (d, some t) => gateFault d k 4 t
          | (d, none) =>
            let vec := countHeader g cs (ts.filter (·.2)).length ++
              (List.range (gdE x)).flatMap fun e => toLe 4 (tgetD a.count e 0)
            if okFor d p (.gate k) false (gdCnt x) vec.length then
              modStep (gateWrite d p g.slot (gdCnt x) vec) k fun g => { g with written := true }
            else gateFault d k 4 0xFFFF

/-! ### Taking a push (R100, R109) -/

def rowStride (e : Nat) : Nat := roundUp (4 * e) 64

/-- The bytes of the pushing core's view (R61, R366). -/
def pushBytes (u : Push) (a n : Nat) (d : Dev) : List Byte × Dev :=
  (viewRead d u.part u.lcore a n, chargeRange d u.part (winBase + 0x1000000 * u.lcore + a) n)

/-- A lost word of the pushing core's view that n bytes at `a` meet. -/
def pushLost (d : Dev) (u : Push) (a n : Nat) : Option Nat :=
  (viewLoss d u.part u.lcore [(a, n)]).map fun o => winBase + 0x1000000 * u.lcore + o

/-- Row i of the push enters the step, or fails it. GATE_FAULT.TOKEN holds 16 bits of an index beyond them
(DESIGN CHOICE, log 72). Only the replaced +inf logit sets OVFL: whether a key, group score or weight that overflows does so
too is open between R47 and R123 (DESIGN CHOICE, log 80). -/
def takeRow (k : Nat) (g : GStep) (u : Push) (skip : Nat → Bool) (d : Dev) (i : Nat) : Dev :=
  match findStep d k with
  | none => d
  | some now =>
    let t := gpBase u.w + i
    if now.failed then d
    else if t ≥ gdMaxTokens g.desc then gateFault d k 2 (t % 65536)
    else if now.tokens.any fun y => y.index == t then gateFault d k 1 t
    else if skip i then modStep d k fun y => { y with tokens := y.tokens ++ [⟨t, true, false, [], [], []⟩] }
    else
      let a := gpSrc u.w + i * rowStride (gdE g.desc)
      if !viewOk (opQuota d u.part (.gate k)) u.part a (4 * gdE g.desc) then gateFault d k 4 t
      else match pushLost d u a (4 * gdE g.desc) with
      | some x => gateReadFault d k u.part 5 t x 1
      | none =>
        let (bs, d) := pushBytes u a (4 * gdE g.desc) d
        let logits := (chunks 4 bs).map leNat
        let (tok, inf) := gateToken g.desc now.bias t logits
        let d := if tok.nan then gateFlag d u.part 0 else d
        let d := if inf then gateFlag d u.part 3 else d
        modStep d k fun y => { y with tokens := y.tokens ++ [tok] }

/-- A push of a granted step: its rows are read and its GATE_PUSH completes (R77, R100). -/
def takePush (k : Nat) (d : Dev) (u : Push) : Dev :=
  match findStep d k with
  | none => portDone d u.part u.lcore u.sub u.cmd
  | some g =>
    let useSkip := gpSkipEn u.w && gdSkip g.desc
    let n := gpNtok u.w
    let d :=
      if useSkip ∧ !viewOk (opQuota d u.part (.gate k)) u.part (gpSkipSrc u.w) (divUp n 8) then gateFault d k 4 0xFFFF
      else match if useSkip then pushLost d u (gpSkipSrc u.w) (divUp n 8) else none with
      | some x => gateReadFault d k u.part 5 0xFFFF x 1
      | none =>
        let (bs, d) := if useSkip then pushBytes u (gpSkipSrc u.w) (divUp n 8) d else ([], d)
        let bits := leNat bs
        (List.range n).foldl (takeRow k g u (fun i => bits.testBit i)) d
    portDone d u.part u.lcore u.sub u.cmd

/-- The grant: biases and the placement table version are fixed (R101), the pushes held aside are
taken, and a step whose last push has come closes. -/
def grantStep (d : Dev) (k : Nat) : Dev :=
  match findStep d k with
  | none => d
  | some g =>
    let x := g.desc
    let p := g.part
    let n := 4 * gdE x
    let experts := gdE x - gdNull x
    let biasBad := if gdBiasEn x then gateReadCause (opQuota d p (.gate k)) p (gdBias x) n else none
    let bias := if gdBiasEn x ∧ biasBad = none then (chunks 4 (readRange d p false (gdBias x) n)).map fun b => BitVec.ofNat 32 (leNat b) else []
    let table := (List.range experts).map fun e => readWord d p false 128 (gdEpt x + 16 * e)
    let bad := (List.range experts).filterMap fun e => (gateReadCause (opQuota d p (.gate k)) p (gdEpt x + 16 * e) 16).map fun c => (e, c)
    let d := if gdBiasEn x then chargeRange d p (gdBias x) n else d
    let d := modStep d k fun g => { g with granted := true, held := [], bias := bias, table := table, bad := bad }
    let d := match biasBad with
      | some c => gateReadFault d k p c 0xFFFF (gdBias x) n
      | none => d
    let d := g.held.foldl (takePush k) d
    if g.closed then sweepSteps (gateClose d k) else d

/-! ### The commands -/

/-- The step a push belongs to: the slot's step that has not closed. -/
def openStep (p slot : Nat) (g : GStep) : Bool := g.part == p && g.slot == slot && !g.closed

/-- A push is counted towards its step, which closes with the PUSHERS-th LAST (R98). -/
def receivePush (d : Dev) (u : Push) : Dev :=
  let p := u.part
  let slot := gpSlot u.w
  let d :=
    if d.gate.steps.any (openStep p slot) then d
    else
      let desc := tgetD d.gate.descs (256 * p + slot) 0
      let g : GStep := ⟨d.gate.nextId, p, slot, u.sub, desc, false, (d.part p).cls == 0, (d.part p).step, [], [], [], [], 0, [],
        false, false, false, d.sched.res⟩
      { d with gate := { d.gate with steps := d.gate.steps ++ [g], nextId := d.gate.nextId + 1 } }
  match d.gate.steps.find? (openStep p slot) with
  | none => d
  | some g =>
    let lasts := g.lasts + b2n (gpLast u.w)
    let closing := decide (lasts ≥ gdPushers g.desc)
    let d := modStep d g.id fun g => { g with lasts := lasts, closed := closing }
    if g.granted then
      let d := takePush g.id d u
      if closing then sweepSteps (gateClose d g.id) else d
    else modStep d g.id fun g => { g with held := g.held ++ [u] }

/-- GATE_PUSH_ACCEPT: the next push of the queue by R365. -/
def execGatePushAccept (s : State) :=
  onDev (fun d =>
    let waiting (p : Nat) : Bool := (d.gate.queue.any fun u => u.part == p) && weirOk d p 0
    match nextPart d waiting d.gate.lastPart d.gate.used with
    | none => d
    | some p =>
      match d.gate.queue.find? fun u => u.part == p with
      | none => d
      | some u =>
        let used := usedNow d d.gate.lastPart d.gate.used p
        let d := { d with gate := { d.gate with queue := dropFirst (· == u) d.gate.queue, lastPart := p, used := used } }
        receivePush d u) s

/-- GATE_STEP_OPEN: the first waiting step of a queue, when its share can supply it (R99). -/
def execGateStepOpen (serve : Bool) (s : State) :=
  onDev (fun d =>
    match d.gate.steps.find? fun g => !g.granted && g.serve == serve with
    | none => d
    | some g => if stepFits d g then grantStep d g.id else d) s

/-- GATE_STEP_DONE: outputs acknowledged, DONE_SEM signalled, workspace and place released (R118). -/
def execGateStepDone (p slot : Nat) (s : State) :=
  onDev (fun d =>
    let k (g : GStep) : Bool := g.part == p && g.slot == slot && g.written && g.closed
    match d.gate.steps.find? k with
    | none => d
    | some g => addSem { d with gate := { d.gate with steps := dropFirst k d.gate.steps } } p (gdDoneSem g.desc) 1) s

/-- An uncorrectable error in the workspace of step k (R94, R119): the step fails with cause 5. The record, which no
rule gives for this source, is of class DATA with the slot as UNIT, address 0 and the 8 bytes of a word (DESIGN CHOICE,
log 80). -/
def workspaceError (d : Dev) (k : Nat) : Dev :=
  match findStep d k with
  | none => d
  | some g => if g.holds then sweepSteps (gateFault (dataLoss d (some g.part) g.slot 0 8) k 5 0xFFFF) else d

/-- UNCLOSED: steps that are still open, or still wait for their workspace, are discarded when their
submission ends or their partition goes away (R120). The manual gives entry and EVENT neither status, identifier nor
address: the model puts PROGRAM_FAULT, whatever discards the step, the slot and 0 (DESIGN CHOICE, log 72). -/
def gateDiscard (d : Dev) (k : GStep → Bool) (sev : Nat) (event : Bool) : Dev :=
  let gone := d.gate.steps.filter fun g => k g && (!g.closed || !g.granted)
  gone.foldl (fun d g =>
    let p := g.part
    let image := packNat [(0, g.slot), (8, 6), (16, 0xFFFF)]
    let d := { d with gate := { d.gate with steps := d.gate.steps.filter fun y => y.id != g.id } }
    let d := g.held.foldl (fun d u => portDone d u.part u.lcore u.sub u.cmd) d
    let d := gateFlag (d.modPart p fun x => { x with gateFault := BitVec.ofNat 32 image }) p 10
    let d := logOp d sev (some p) srcGate sProgFault 6 0xFFFF g.slot 0
    if event then
      sendEvent d { code := 0x03, mailbox := p + 1, status := sProgFault, id := g.slot, data := toLe 4 image
                    sev := sev, part := some p, source := srcGate }
    else d) d

/-- Nothing of a destroyed partition stays in the Gate Unit. -/
def gateForget (d : Dev) (p : Nat) : Dev :=
  { d with gate := { d.gate with
      descs := d.gate.descs.filter fun x => x.1 / 256 != p
      queue := d.gate.queue.filter fun u => u.part != p
      steps := d.gate.steps.filter fun g => g.part != p } }

end Sys2Proof.Machine
end

