-- ==== Sys2Proof/Machine/Sluice.lean ====
section
/-! DEFINITION. Sluice, part 1: descriptors, acceptance checks, the pack stage, tags, sending and
failing (R125 to R137, R154 to R164). -/

namespace Sys2Proof.Machine

/-! ### Routing records (R116) -/

def rcToken (r : BitVec 128) : Nat := fld r 15 0
def rcRank (r : BitVec 128) : Nat := fld r 23 16
def rcSkip (r : BitVec 128) : Bool := bit r 27
def rcDest (r : BitVec 128) : Nat := fld r 63 48
def rcLslot (r : BitVec 128) : Nat := fld r 95 80
def rcWeight (r : BitVec 128) : Nat := fld r 127 96

/-- DROP, NULL, NOCAND and SKIP are all clear (R134). -/
def rcSends (r : BitVec 128) : Bool := !bit r 24 && !bit r 26 && !bit r 27 && !bit r 29

/-! ### Access to exchanges -/

def findX (d : Dev) (uid : Nat) : Option Exch := d.slc.exch.find? fun x => x.uid == uid

/-- The exchange of a partition that goes by an identifier. -/
def openX (d : Dev) (p : Nat) (id : U32) : Option Exch :=
  d.slc.exch.find? fun x => x.part == p && x.id == id && !x.wrote

def modX (d : Dev) (uid : Nat) (f : Exch → Exch) : Dev :=
  { d with slc := { d.slc with exch := updFirst (fun x => x.uid == uid) f d.slc.exch } }

def modOut (d : Dev) (uid dst : Nat) (f : OutXfer → OutXfer) : Dev :=
  modX d uid fun x => { x with outs := updFirst (fun o => o.dst == dst) f x.outs }

def modIn (d : Dev) (uid src : Nat) (f : InXfer → InXfer) : Dev :=
  modX d uid fun x => { x with ins := updFirst (fun i => i.src == src) f x.ins }

def slcErr (d : Dev) (i : Nat) : Dev := { d with slc := { d.slc with err := bump d.slc.err i 1 } }

def slcFlag (d : Dev) (p fl : Nat) : Dev :=
  d.modPart p fun x => { x with slcFlags := x.slcFlags ||| BitVec.ofNat 32 (fl % 32) }

/-- RETRIES of an SLC_CFG: of the one under which the transfer started (R165). -/
def slcRetries (cfg : U32) : Nat := fld cfg 19 16

/-- Writes bytes for an exchange; those in an area of another exchange hold undefined contents (R172). -/
def slcWrite (d : Dev) (x : Exch) (engine : Bool) (a : Nat) (bs : List Byte) : Dev :=
  writeShared d x.part engine (openAreas d x) a bs

/-- As `slcWrite`, for headers, row maps and records, of which only what lies in a view image is charged (R366). -/
def slcNote (d : Dev) (x : Exch) (a : Nat) (bs : List Byte) : Dev := chargeImage (slcWrite d x false a bs) x.part a bs.length

/-- TIMEOUT_US × (RETRIES + 1) under an SLC_CFG, in nanoseconds (R159). -/
def slcLife (cfg : U32) : Nat := 1000 * fld cfg 15 0 * (fld cfg 19 16 + 1)

/-! ### Open exchanges (R127, R376) -/

def openCount (d : Dev) (serve : Bool) : Nat :=
  (d.slc.exch.filter fun x => !x.wrote && ((d.part x.part).cls == 0) == serve).length

/-- One more exchange of the partition may be open. -/
def slcFits (d : Dev) (p : Nat) : Bool :=
  decide (1 ≤ classFree 256 (fld d.sched.res 8 0) (openCount d true) (openCount d false) ((d.part p).cls == 0))

/-! ### Acceptance checks (R126, R131, R132, R139) -/

/-- A peer table entry: device and partition. -/
def peerOf (w : Nat) : DevId × Nat := (BitVec.ofNat 16 (nfld w 15 0), nfld w 19 16)

/-- The peer table's words, when it can be read (R126). -/
def peerWords (d : Dev) (p : Nat) (x : BitVec 512) : Option (List Nat) :=
  let n := 4 * xdS x
  if 1 ≤ xdS x ∧ xdS x ≤ 1024 ∧ xdPeer x % 64 = 0 ∧ okNew d p false (xdPeer x) n ∧ poisonAt d p false (xdPeer x) n = none then
    some ((chunks 4 (readRange d p false (xdPeer x) n)).map leNat)
  else none

/-- The posting device's EP rank: its own ID stands exactly once. -/
def ownRank (d : Dev) (ps : List (DevId × Nat)) : Option Nat :=
  match (ps.mapIdx fun i y => (i, y)).filter fun y => y.2.1 == myId d with
  | [y] => some y.1
  | _ => none

/-- The conditions of R126 on a table in which the own ID stands once. -/
def peersOk (p rank : Nat) (ws : List Nat) : Bool :=
  let ps := ws.map peerOf
  let devs := ps.map (·.1)
  ws.all (fun w => nfld w 31 20 == 0) && decide (devs.eraseDups.length = devs.length) &&
  ((ps.getD rank (0, 0)).2 == p) && devs.all fun i => devPod i == devPod (devs.getD 0 0)

/-- Ranges, combinations and reserved bits of R131 for an XCHG of this KIND. -/
def xdFieldsOk (x : BitVec 512) (kind : Nat) : Bool :=
  let disp := kind == 0
  xdKind x == kind &&
  (if disp then [0x01, 0x13, 0x14, 0x15, 0x16, 0x17] else [0x01, 0x13]).contains (xdXfmt x) &&
  decide (xdSfmt x ≤ 1) && (if disp then xdOfmt x == 0 && !xdShared x else decide (xdOfmt x ≤ 1)) &&
  decide (xdRnd x ≤ 1 ∧ 1 ≤ xdK x ∧ xdK x ≤ 16 ∧ 1 ≤ xdC x ∧ xdC x ≤ 4096 ∧ 1 ≤ xdS x ∧ xdS x ≤ 1024 ∧
    1 ≤ xdW32 x ∧ xdW32 x ≤ 512 ∧ 1 ≤ fld x 319 304 ∧ xdNl x ≤ 4096) &&
  fld x 127 123 == 0 && fld x 191 176 == 0 && fld x 255 240 == 0 && fld x 383 368 == 0 && fld x 447 445 == 0 &&
  [xdRec x, xdCnt x, xdData x, xdPeer x, xdRxt x].all fun a => a % 64 == 0

/-- Rows that every slot region must hold: C, or S × ceil(C/S) under LOCAL (R139). -/
def rowsNeeded (x : BitVec 512) : Nat := if xdGlobal x then xdC x else xdS x * divUp (xdC x) (xdS x)

/-- A receive table entry is valid (R139). -/
def rxOk (d : Dev) (x e : BitVec 512) (kind : Nat) : Bool :=
  fld e 127 126 == 0 && fld e 255 240 == 0 && fld e 511 285 == 0 && decide (rxLcore e < d.grade.lcores) &&
  (bit e 262 || decide (fld e 272 263 < 64)) && (bit e 274 || decide (fld e 284 275 < 64)) &&
  (if kind = 0 then
    decide (rowElems (xdXfmt x) (xdWidth x) ≤ rxStride e ∧ rxStride e % strideUnit (xdXfmt x) = 0 ∧
      rowsNeeded x ≤ rxRows e ∧ 1 ≤ rxRows e ∧ rxRows e ≤ 4096)
  else decide (rowElems (xdSfmt x) (xdWidth x) ≤ rxOutStride e))

/-- The receive table, when it can be read. -/
def rxTable (d : Dev) (p : Nat) (x : BitVec 512) : Option (List (BitVec 512)) :=
  let n := 64 * xdNl x
  if okNew d p false (xdRxt x) n ∧ poisonAt d p false (xdRxt x) n = none then
    some ((List.range (xdNl x)).map fun i => readWord d p false 512 (xdRxt x + 64 * i))
  else none

/-- STATUS, CAUSE and place of a region that cannot be read when Sluice reaches it (R132). -/
def regionFault (d : Dev) (p a n : Nat) : Option (Nat × Nat × Nat) :=
  if !okRange d p false a n then some (sBadField, 2, (a + ((List.range n).find? fun i => !okRange d p false (a + i) 1).getD 0))
  else (poisonAt d p false a n).map fun i => (sInternal, 14, a + i)

/-- The count vector or the records at acceptance: outside the quota, or lost. -/
def acceptFault (d : Dev) (p a n : Nat) : Option (Nat × Nat) := (regionFault (lowered d p) p a n).map fun f => (f.1, f.2.1)

/-- The loss or the denied access that made a table unreadable at acceptance is reported (R132, R329, R418). -/
def tableReport (d : Dev) (p a n : Nat) : Dev :=
  match regionFault (lowered d p) p a n with
  | some (_, 14, b) => lossHere d p 0 b
  | some (_, _, b) => countDenied d b 1
  | none => d

/-- As `tableReport`, of the first table that cannot be read. -/
def tablesReport (d : Dev) (p : Nat) (x : BitVec 512) : Dev :=
  let ts := [(xdPeer x, 4 * xdS x), (xdRxt x, 64 * xdNl x), (xdCnt x, 64), (xdRec x, 16 * xdK x * readNat d p (xdCnt x) 4)]
  match ts.find? fun t => (regionFault (lowered d p) p t.1 t.2).isSome with
  | some t => tableReport d p t.1 t.2
  | none => d

/-- The first failing check of R132 but for the duplicate identifier; none when all pass. -/
def xdCheck (d : Dev) (p : Nat) (x : BitVec 512) (kind : Nat) (rank : Option Nat) : Option (Nat × Nat) :=
  let sized := decide (1 ≤ xdS x ∧ xdS x ≤ 1024 ∧ xdPeer x % 64 = 0 ∧ xdNl x ≤ 4096 ∧ xdRxt x % 64 = 0)
  if sized ∧ ((peerWords d p x).isNone ∨ (rxTable d p x).isNone) then some (sBadField, 2)
  else if !xdFieldsOk x kind then some (sBadField, 1)
  else match peerWords d p x, rxTable d p x with
    | some ws, some rxt =>
      match rank with
      | none => some (sBadField, 3)
      | some r =>
        if !peersOk p r ws then some (sBadField, 3)
        else if !(rxt.all fun e => rxOk d x e kind) then some (sBadField, 1)
        else if !xdGlobal x ∧ rowsNeeded x > 4096 then some (sBadField, 1)
        else match acceptFault d p (xdCnt x) 64 with
          | some f => some f
          | none =>
            let hdr := readWord d p false 512 (xdCnt x)
            if kind = 0 ∧ (fld hdr 263 256 ≠ sOk ∨ (fld hdr 31 0 > 0 ∧ fld hdr 63 32 ≠ xdK x * fld hdr 31 0)) then some (sProgFault, 4)
            else acceptFault d p (xdRec x) (16 * xdK x * fld hdr 31 0)
    | _, _ => some (sBadField, 2)

def recordsOf (d : Dev) (p : Nat) (x : BitVec 512) (tokens : Nat) : List (BitVec 128) :=
  (List.range (xdK x * tokens)).map fun i => readWord d p false 128 (xdRec x + 16 * i)

/-! ### Slot headers (R144) -/

def slotHeader (count expected srcDone srcRows refused id buf : Nat) (final : Bool) : List Byte :=
  toLe 64 (packNat [(0, count), (32, expected), (64, srcDone), (80, srcRows), (96, refused), (128, id),
    (160, b2n final), (176, buf)])

/-- The empty headers written at acceptance, or the address of one that lies outside the quota. -/
def writeHeaders (d : Dev) (x : Exch) : List (BitVec 512) → Nat ⊕ Dev
  | [] => .inr d
  | e :: es =>
    if okNew d x.part false (rxHdr e) 64 then
      writeHeaders (slcNote d x (rxHdr e) (slotHeader 0 0 0 0 0 x.id.toNat 0 false)) x es
    else .inl (rxHdr e)

/-! ### Cells -/

/-- Count and COMBINE header payload (R136, R150). -/
def countPay (x : BitVec 512) (rank status nrow nrun : Nat) : BitVec 512 :=
  pack 512 [(0, xdId x), (32, nrow), (64, nrun), (96, status), (104, xdXfmt x), (109, b2n (xdGlobal x)), (110, xdK x),
    (115, xdC x), (128, xdS x), (139, xdW32 x), (149, rank)]

def ctRows (c : BitVec 512) : Nat := fld c 63 32
def ctRuns (c : BitVec 512) : Nat := fld c 95 64
def ctStatus (c : BitVec 512) : Nat := fld c 103 96
def ctNd (c : BitVec 512) : Nat := divUp (ctRuns c) 16

/-- Cells before the data: count, directory and record index cells; a COMBINE has its header alone. -/
def ctNctl (combine : Bool) (c : BitVec 512) : Nat :=
  if combine then 1 else 1 + ctNd c + divUp (ctRows c) 16

/-- Sixteen 32-bit entries a cell, zero after the last (R137, R537). -/
def entryCells (es : List Nat) : List (BitVec 512) :=
  (chunks 16 es).map fun c => BitVec.ofNat 512 (packNat (c.mapIdx fun i e => (32 * i, e)))

def slcCell (d : Dev) (combine : Bool) (dev : DevId) (vc ty part off : Nat) (pay : BitVec 512) : Cell :=
  { mkCell d dev vc ty part 0 off (.bits pay) with combine := combine }

/-! ### The pack stage (R134, R135) -/

/-- Record indices in the order of R134, as runs of equal (LSLOT, RANK). -/
def runsOf (recs : List (BitVec 128)) (idx : List Nat) : List (Nat × Nat × List Nat) :=
  let key (i : Nat) : Nat := let r := recs.getD i 0; 256 * rcLslot r + rcRank r
  (sortBy key idx).foldl (fun acc i =>
    let r := recs.getD i 0
    match acc.getLast? with
    | some (l, k, is) =>
      if l = rcLslot r ∧ k = rcRank r then acc.dropLast ++ [(l, k, is ++ [i])] else acc ++ [(rcLslot r, rcRank r, [i])]
    | none => [(rcLslot r, rcRank r, [i])]) []

/-- The sendable records of each destination rank; none when a DEST is not in the peer table. -/
def byRank (peers : List (DevId × Nat)) (recs : List (BitVec 128)) : Option (Tbl (List Nat)) :=
  let sends := (recs.mapIdx fun i r => (i, r)).filter fun y => rcSends y.2
  sends.foldl (fun acc y =>
    match acc, peers.findIdx? fun q => q.1.toNat == rcDest y.2 with
    | some t, some r => some (tmod t r [] (· ++ [y.1]))
    | _, _ => none) (some [])

/-- A row read in one format and converted to the wire format, padded to whole cells, with flags. -/
def wireRow (d : Dev) (p : Nat) (x : BitVec 512) (step : U64) (addr ctr : Nat) : List Byte × Nat :=
  let w := xdWidth x
  let vals := decodeVals (xdSfmt x) (readRange d p false addr (rowElems (xdSfmt x) w)) [] w
  let seed := (tgetD (d.part p).seeds (xdSeed x) 0).toNat
  let ((es, ss), fl) := encodeVals (xdXfmt x)
    (fun i => rndOf (xdRnd x == 1) seed step.toNat (xdStream x) (ctr + i)) vals 0
  (pad (64 * rowCells x) (es ++ ss), fl)

/-- The data cells of rows, from OFFSET `first` (R142). -/
def dataCells (d : Dev) (x : BitVec 512) (combine : Bool) (dev : DevId) (part first : Nat) (rows : List (List Byte)) : List Cell :=
  (rows.flatMap (chunks 64)).mapIdx fun i b =>
    { slcCell d combine dev (xdVc x) tyData part (first + i) 0 with pay := bytesPay b }

def maxCells : Nat := 262144

/-- The rows of one destination: the first read that fails, or their wire bytes and flags. -/
def packRows (d : Dev) (p : Nat) (x : BitVec 512) (step : U64) (recs : List (BitVec 128)) :
    List Nat → (Nat × Nat × Nat) ⊕ (List (List Byte) × Nat)
  | [] => .inr ([], 0)
  | i :: is =>
    let t := rcToken (recs.getD i 0)
    let a := xdData x + t * xdStride x
    match regionFault d p a (rowElems (xdSfmt x) (xdWidth x)) with
    | some f => .inl f
    | none =>
      let (row, fl) := wireRow d p x step a (t * xdWidth x)
      match packRows d p x step recs is with
      | .inl f => .inl f
      | .inr (rows, fls) => .inr (row :: rows, fl ||| fls)

def newOut (dst : Nat) (peer : DevId × Nat) (cells : List Cell) (nctl : Nat) (runs : List (Nat × Nat × List Nat)) : OutXfer :=
  { dst := dst, dev := peer.1, part := peer.2, tag := none, cells := cells, sent := 0, nctl := nctl, runs := runs, grants := []
    counted := false, ready := false, deferred := false, ended := false, retries := 0, timing := false, early := false, cfg := 0 }

def newIn (src : Nat) (dev : DevId) (own : Bool) : InXfer :=
  { src := src, dev := dev, own := own, tag := none, count := none, dir := [], landed := [], seen := [], grants := []
    placed := 0, readySent := false, ackSent := false, complete := false, land := [], rets := [], retsHeld := false, cfg := 0 }

/-- The transfer to one rank: count, directory, record index and data cells. Under GLOBAL the limit of 262,144 cells is
judged on the announced rows, since R155 does not say whether it is the granted ones (DESIGN CHOICE, log 80). -/
def packOut (d : Dev) (x : BitVec 512) (p rank dst : Nat) (peer : DevId × Nat) (step : U64) (recs : List (BitVec 128))
    (idx : List Nat) : (Nat × Nat × Nat) ⊕ (OutXfer × Nat) :=
  let runs := runsOf recs idx
  let order := runs.flatMap (·.2.2)
  let dir := entryCells (runs.map fun r => packNat [(0, r.1), (12, r.2.1 - 1), (16, r.2.2.length)])
  let ctl := (countPay x rank sOk order.length runs.length) :: (dir ++ entryCells order)
  let total := ctl.length + order.length * rowCells x
  if total > maxCells then .inl (sProgFault, 8, 0)
  else match packRows d p x step recs order with
    | .inl f => .inl f
    | .inr (rows, fl) =>
      let mk (off : Nat) (pay : BitVec 512) : Cell :=
        slcCell d false peer.1 0 (if off = 0 then tyCount else tyDir) peer.2 off pay
      .inr (newOut dst peer (ctl.mapIdx mk ++ dataCells d x false peer.1 peer.2 ctl.length rows) ctl.length runs, fl)

/-- All transfers of a DISPATCH, in ascending EP rank, with the conversion flags. -/
def packAll (d : Dev) (x : BitVec 512) (p rank : Nat) (peers : List (DevId × Nat)) (step : U64) (recs : List (BitVec 128)) :
    (Nat × Nat × Nat) ⊕ (List OutXfer × Nat) :=
  match byRank peers recs with
  | none => .inl (sProgFault, 5, 0)
  | some t =>
    (peers.mapIdx fun i y => (i, y)).foldl (fun acc y =>
      match acc with
      | .inl f => .inl f
      | .inr (outs, fl) =>
        match packOut d x p rank y.1 y.2 step recs (tgetD t y.1 []) with
        | .inl f => .inl f
        | .inr (o, fl1) => .inr (outs ++ [o], fl ||| fl1)) (.inr ([], 0))

/-! ### Tags (R154, R159) -/

/-- Tags in use: from the first cell sent until the ACK or the end (R154). -/
def tagsInUse (d : Dev) : List Nat := d.slc.exch.flatMap fun x => x.outs.filterMap fun o => if o.ended then none else o.tag

/-- Tags that no transfer may take: in use, or not yet reusable (R159). -/
def slcTags (d : Dev) : List Nat := tagsInUse d ++ d.slc.holds.map (·.tag)

/-- Tags that count against a class: those in use by its partitions, and those its partitions used that wait for
their reuse, so that no class waits on another's (R154). -/
def classTags (d : Dev) (cls : Nat) : Nat :=
  ((d.slc.exch.filter fun x => (d.part x.part).cls == cls).flatMap fun x =>
    x.outs.filter fun o => !o.ended && o.tag.isSome).length + (d.slc.holds.filter fun h => h.cls == cls).length

def tagReserve (d : Dev) (cls : Nat) : Nat :=
  if cls = 0 then fld d.slc.tagres 12 0 else if cls = 1 then fld d.slc.tagres 25 13 else 0

/-- n tags can be taken at once: from the class reserve first, then from the unreserved remainder. -/
def tagsFit (d : Dev) (cls n : Nat) : Bool :=
  let beyond (k : Nat) : Nat := classTags d k - tagReserve d k
  let rest := 4096 - tagReserve d 0 - tagReserve d 1 - (beyond 0 + beyond 1 + beyond 2)
  decide (n ≤ (tagReserve d cls - classTags d cls) + rest ∧ n + (slcTags d).length ≤ 4096)

def lowTags (used : List Nat) (n : Nat) : List Nat := ((List.range 4096).filter fun t => !used.contains t).take n

/-! ### Sending (R136, R143, R156, R157) -/

/-- Sends a transfer's cells up to index `upto` that have not been sent. The timer runs until
COUNT_ACK, and again from the last cell. -/
def sendTo (d : Dev) (uid dst upto : Nat) : Dev :=
  match findX d uid with
  | none => d
  | some x =>
    match x.outs.find? fun o => o.dst == dst with
    | none => d
    | some o =>
      let upto := min upto o.cells.length
      let cells := ((o.cells.take upto).drop o.sent).map fun c => { c with tag := BitVec.ofNat 13 (o.tag.getD 0) }
      let sent := max o.sent upto
      let d := modOut d uid dst fun o => { o with sent := sent, timing := !o.deferred && (!o.counted || sent == o.cells.length) }
      sendAll d x.part cells

/-- The early credit of partition `own` towards (device, partition) is used by the transfer that starts (R156). -/
def takeCredit (d : Dev) (own : Nat) (dev : DevId) (part : Nat) : Nat × Dev :=
  let k (c : EarlyCredit) : Bool := c.source && c.own == own && c.dev == dev && c.part == part
  match d.slc.credits.find? k with
  | some c => (c.cells, { d with slc := { d.slc with credits := dropFirst k d.slc.credits } })
  | none => (0, d)

/-- A transfer starts: control cells, and early data under LOCAL or COMBINE (R143, R150). -/
def startOut (uid : Nat) (d : Dev) (dst : Nat) : Dev :=
  match findX d uid with
  | none => d
  | some x =>
    match x.outs.find? fun o => o.dst == dst with
    | none => d
    | some o =>
      let early := o.cells.length > o.nctl && (x.combine || !xdGlobal x.desc)
      let (n, d) := if early then takeCredit d x.part o.dev o.part else (0, d)
      sendTo (modOut d uid dst fun o => { o with cfg := d.slc.cfg }) uid dst (o.nctl + n)

/-- EXCHANGE_TAGS_TAKEN: every outgoing transfer to another device takes its tag at once (R154). -/
def takeTags (d : Dev) (x : Exch) : Dev :=
  let outs := x.outs.filter fun o => !o.ended
  if x.phase ≠ .waitTags ∨ !tagsFit d (d.part x.part).cls outs.length then d
  else
    let tags := lowTags (slcTags d) outs.length
    let tagged := (outs.zip tags).foldl (fun os y => updFirst (fun o => o.dst == y.1.dst) (fun o => { o with tag := some y.2 }) os) x.outs
    let d := modX d x.uid fun x => { x with outs := tagged, phase := if x.status = 0 then .running else .ended }
    (outs.map (·.dst)).foldl (startOut x.uid) d

/-! ### Ending a transfer; failing (R161, R163, R164, R538) -/

/-- The tag's reuse waits TIMEOUT_US × (RETRIES + 1) (R159). -/
def endOut (d : Dev) (uid dst : Nat) : Dev :=
  match (findX d uid).bind fun x => (x.outs.find? fun o => o.dst == dst).map fun o => (x, o) with
  | none => d
  | some (x, o) =>
    if o.ended then d
    else
      let d := modOut d uid dst fun o => { o with ended := true, timing := false }
      match o.tag with
      | some t => { d with slc := { d.slc with holds := d.slc.holds ++ [⟨t, o.dev, (d.part x.part).cls⟩] } }
      | none => d

/-- A transfer with the peer, in either direction, is unfinished. -/
def unfinished (x : Exch) (rank : Nat) : Bool :=
  x.outs.any (fun o => o.dst == rank && !o.ended) || x.ins.any (fun i => i.src == rank && !i.complete)

/-- SLC_ABORT to one peer, kept until it is acknowledged (R538). -/
def sendAbort (status cause : Nat) (x : Exch) (d : Dev) (rank : Nat) : Dev :=
  let peer := x.peers.getD rank (0, 0)
  let tag := ((x.outs.find? fun o => o.dst == rank && !o.ended).bind (·.tag)).getD 0
  let c := { slcCell d x.combine peer.1 0 tyAbort peer.2 0 (pack 512 [(0, x.id.toNat), (32, status), (40, cause)]) with
    tag := BitVec.ofNat 13 tag }
  let d := { d with slc := { d.slc with aborts := d.slc.aborts ++ [⟨x.part, x.id, c, 0, false⟩] } }
  sendAll d x.part [c]

/-- Enters a transfer in the duplicate window: received whole, or ended by a failure (R158, R159). -/
def enterSlcDup (d : Dev) (cfg : U32) (src : DevId) (part tag : Nat) (id : U32) (whole : Bool) : Dev :=
  let full := decide (d.slc.dup.length ≥ 65536)
  let young := match d.slc.dup with
    | e :: _ => full && decide (d.time.now < e.entered + e.life)
    | [] => false
  let d := if young then
      let d := slcErr d 5
      logCounted d sevWarning srcSluice (.slcErr 5) 0 (tgetD d.slc.err 5 0).toNat
    else d
  { d with slc := { d.slc with dup := lastN 65536 (d.slc.dup ++ [⟨src, part, tag, id, d.time.now, slcLife cfg, whole⟩]) } }

/-- Cells that still come of the incoming transfers that end with their exchange are discarded (R161). -/
def closeIns (d : Dev) (x : Exch) : Dev :=
  x.ins.foldl (fun d i =>
    match i.tag with
    | some t => if i.own ∨ i.ackSent then d else enterSlcDup d i.cfg i.dev x.part t x.id false
    | none => d) d

/-- Buffers and waiting requests of an exchange that ends early: landing and return buffers, and
ALLOC regions whose header is not final, go back to their pools (log 29). -/
def dropBuffers (d : Dev) (x : Exch) : Dev :=
  let d := dropWaits d fun w => w.part == x.part && (match w.who with
    | .alloc id _ => id == x.id
    | .returns id _ => id == x.id
    | _ => false)
  let d := freeAll d (x.ins.flatMap (·.land))
  let pool := xdPool x.desc
  let open_ := x.rxBuf.filter fun y => !x.finals.contains y.1
  freeAll d ((open_.map fun y => (pool, y.2)) ++ x.ins.flatMap fun i => i.rets.map fun y => (pool, y.2))

def noPeer : Nat := 0x3FF

/-- Each engine keeps the last 256 operations that failed before their first cells (R162). -/
def noteFailed (xs : List FailedOp) (p : Nat) (id seq : U32) (status : Nat) : List FailedOp :=
  lastN 256 (xs ++ [⟨p, id, seq, BitVec.ofNat 8 status⟩])

/-- A member's count cell with a failing STATUS, to each distinct other device (R136, R161). -/
def failOuts (d : Dev) (x : Exch) (status : Nat) : List OutXfer :=
  let others := (x.peers.mapIdx fun i y => (i, y)).filter fun y => y.2.1 != myId d
  let firsts := others.filter fun y => others.all fun z => z.2.1 != y.2.1 || decide (y.1 ≤ z.1)
  firsts.map fun y =>
    newOut y.1 y.2 [slcCell d false y.2.1 0 tyCount y.2.2 0 (countPay x.desc x.rank status 0 0)] 1 []

/-- In a serving job the loss of a device ends with INTERNAL the submissions whose exchanges involved it (R411, R419). A
job that keeps snapshots replays. -/
def lostServing (d : Dev) (x : Exch) (status cause : Nat) : Dev :=
  if status ≠ sInternal ∨ cause ≠ 11 ∨ !bit (d.part x.part).job 0 ∨ bit (d.part x.part).snap 0 then d
  else d.modPart x.part fun y => { y with
    subs := updFirst (fun s => s.id == x.sub) (fun s => { s with failed := some (BitVec.ofNat 8 sInternal) }) y.subs }

/-- The exchange ends with a failing status. Before the count cells of a DISPATCH: failing count
cells. Afterwards, and for a COMBINE: SLC_ABORT to every peer with an unfinished transfer, which is every peer while
no return transfer of a COMBINE has been fixed (R125); `gone` are ranks with which every transfer has ended already. -/
def slcFail (d : Dev) (uid status cause peer : Nat) (gone : List Nat) : Dev :=
  match findX d uid with
  | none => d
  | some x =>
    if x.status ≠ 0 ∨ x.wrote then d
    else
      let set (x : Exch) : Exch := { x with status := BitVec.ofNat 8 status, cause := cause, peer := peer }
      let d := logOp d sevError (some x.part) srcSluice status cause peer x.id.toNat x.descAddr
      let d := lostServing (closeIns (dropBuffers d x) x) x status cause
      if x.phase = .waitTags ∧ !x.combine then
        let outs := failOuts d x status
        modX d uid fun x => { set x with outs := outs, ins := [], phase := if outs.isEmpty then .ended else .waitTags }
      else
        let ranks := (List.range x.peers.length).filter fun r =>
          r != x.rank && !gone.contains r && (unfinished x r || (x.phase == .waitTags && x.outs.isEmpty && x.ins.isEmpty))
        let d := ranks.foldl (sendAbort status cause x) d
        let d := (x.outs.map (·.dst)).foldl (fun d r => endOut d uid r) d
        let d := if x.phase = .waitTags then { d with slc := { d.slc with failed := noteFailed d.slc.failed x.part x.id 0 status } } else d
        modX d uid fun x => { set x with ins := [], phase := .ended }

/-- A region that Sluice reaches cannot be used: the exchange ends. What it lost is reported where it was met, and
an access that Cistern denied is counted (R132, R329, R418). -/
def slcRegionFail (d : Dev) (uid p : Nat) (f : Nat × Nat × Nat) : Dev :=
  let d := if f.2.1 = 14 then lossHere d p 0 f.2.2 else if f.2.1 = 2 then countDenied d f.2.2 1 else d
  slcFail d uid f.1 f.2.1 noPeer []

/-- STATUS_WORD is written into the descriptor in core SRAM (R133). -/
def writeStatus (d : Dev) (x : Exch) : Dev :=
  let refused := if !x.combine && xdGlobal x.desc then x.refused else 0
  let word := toLe 8 (packNat [(0, x.status.toNat), (8, x.peer), (24, x.cause), (32, refused)])
  if viewOk (opQuota d x.part (.exch x.uid)) x.part x.descAddr 64 then viewWrite d x.part x.lcore (x.descAddr + 56) word else d

/-! ### Posting (R77, R132, R150, R162) -/

/-- What the checks before the pack stage give: the exchange, and whether its rank is known. -/
def newExch (d : Dev) (p lcore : Nat) (sub : U32) (addr kind : Nat) (x : BitVec 512) (rank : Nat) (peers : List (DevId × Nat)) : Exch :=
  { uid := d.slc.nextUid, part := p, id := BitVec.ofNat 32 (xdId x), sub := sub, lcore := lcore, descAddr := addr, desc := x
    combine := kind == 1, rank := rank, peers := peers, rxt := [], phase := .waitTags, step := (d.part p).step, tokens := 0
    outs := [], ins := [], rowsFixed := false, expected := [], placed := [], refusedAt := [], srcRows := [], rxBuf := []
    finals := [], srcDone := 0, refused := 0, homeRecs := [], summed := [], status := 0, cause := 0, peer := noPeer
    signal := true, wrote := false }

def addX (d : Dev) (x : Exch) : Dev :=
  { d with slc := { d.slc with exch := d.slc.exch ++ [x], nextUid := d.slc.nextUid + 1 } }

/-- The own transfer of a DISPATCH, through the loopback path (R125). -/
def loopIn (x : Exch) (o : OutXfer) : InXfer :=
  let pays := o.cells.map fun c => (c.off.toNat, payBits c)
  { newIn x.rank (x.peers.getD x.rank (0, 0)).1 true with
    count := (pays.head?).map (·.2)
    dir := pays.filter fun y => 1 ≤ y.1 && y.1 < o.nctl
    landed := pays.filter fun y => o.nctl ≤ y.1
    seen := pays.map (·.1) }

/-- A DISPATCH that passed R132: headers, pack stage, and its incoming transfers. -/
def startDispatch (d : Dev) (x : Exch) : Dev :=
  let d := addX d x
  match writeHeaders d x x.rxt with
  | .inl a => slcRegionFail d x.uid x.part (sBadField, 2, a)
  | .inr d =>
    let recs := recordsOf d x.part x.desc x.tokens
    match packAll (opQuota d x.part (.exch x.uid)) x.desc x.part x.rank x.peers x.step recs with
    | .inl f => slcRegionFail d x.uid x.part f
    | .inr (outs, fl) =>
      let d := (recs.filter rcSends).foldl (fun d r => chargeRange d x.part (xdData x.desc + rcToken r * xdStride x.desc)
        (rowElems (xdSfmt x.desc) (xdWidth x.desc))) d
      let d := slcFlag d x.part fl
      let own := outs.find? fun o => o.dst == x.rank
      let ins := x.peers.mapIdx fun i y => if i = x.rank then (own.map (loopIn x)).getD (newIn i y.1 true) else newIn i y.1 false
      let others := outs.filter fun o => o.dst != x.rank
      modX d x.uid fun x => { x with
        outs := others, ins := ins, phase := if others.isEmpty then .running else .waitTags }

/-- The status of a member that cannot fix its EP rank: it sends nothing and keeps the failure for
queries (R136, R161). -/
def slcSilent (d : Dev) (x : Exch) (f : Nat × Nat) : Dev :=
  let d := logOp d sevError (some x.part) srcSluice f.1 f.2 noPeer x.id.toNat x.descAddr
  addX { d with slc := { d.slc with failed := noteFailed d.slc.failed x.part x.id 0 f.1 } }
    { x with status := BitVec.ofNat 8 f.1, cause := f.2, phase := .ended }

/-- The combining entries of the tables that Sluice reads at acceptance are written back first (R225). -/
def tablesTouched (d : Dev) (p : Nat) (x : BitVec 512) : Dev :=
  if d.rm.comb.isEmpty then d
  else [(xdPeer x, 4 * xdS x), (xdRxt x, 64 * xdNl x), (xdCnt x, 64)].foldl (fun d t => touched d p t.1 t.2) d

/-- XCHG reaches Sluice with a descriptor whose EXCH_ID can be read: the checks of R132. `start` begins an exchange
that passes them. A descriptor with another word lost is unreadable: the member sends nothing (R132, R161). -/
def slcPost (d : Dev) (p lcore : Nat) (sub : U32) (addr kind : Nat) (startCombine : Dev → Exch → Dev) : Dev :=
  let x : BitVec 512 := BitVec.ofNat 512 (leNat (viewRead d p lcore addr 64))
  let lost := viewLoss d p lcore [(addr, 56)]
  let words := if lost.isSome then none else peerWords d p x
  let peers := (words.getD []).map peerOf
  let rank := ownRank d peers
  let e := newExch d p lcore sub addr kind x (rank.getD 0) peers
  let dup := (openX d p e.id).isSome
  match if lost.isSome then some (sBadField, 2) else xdCheck d p x kind rank with
  | some f =>
    let d := match lost with
      | some o => lossHere d p 0 (winBase + 0x1000000 * lcore + o)
      | none => if f = (sBadField, 2) ∨ f = (sInternal, 14) then tablesReport d p x else d
    if dup then
      addX (logOp d sevError (some p) srcSluice f.1 f.2 noPeer e.id.toNat addr)
        { e with status := BitVec.ofNat 8 f.1, cause := f.2, phase := .ended }
    else if rank.isNone then slcSilent d e f
    else slcFail (addX d e) e.uid f.1 f.2 noPeer []
  | none =>
    if dup then
      addX (logOp d sevError (some p) srcSluice sBadField 1 noPeer e.id.toNat addr)
        { e with status := BitVec.ofNat 8 sBadField, cause := 1, phase := .ended }
    else
      let e := { e with rxt := (rxTable d p x).getD [], tokens := readNat d p (xdCnt x) 4 }
      let d := tablesTouched d p x
      if kind = 0 then startDispatch d e else startCombine d e

end Sys2Proof.Machine
end

