-- ==== Sys2Proof/Machine/Exchange.lean ====
section
/-! DEFINITION. Sluice, part 2: arriving cells, rows, placement, signals, home sums, completion, timers
and failures (R138 to R164, R537, R538). -/

namespace Sys2Proof.Machine

/-! ### Answers (R138, R158, R538) -/

/-- A control cell that answers another: its TAG and PART (R538). -/
def answerSlc (d : Dev) (c : Cell) (ty off : Nat) (pay : BitVec 512) : Dev :=
  route d { mkCell d c.src 0 ty c.part.toNat c.tag.toNat off (.bits pay) with combine := c.combine }

def sendCountAck (d : Dev) (c : Cell) (id : Nat) (defer_ : Bool) : Dev :=
  answerSlc d c tyCountAck 0 (pack 512 [(0, b2n defer_), (32, id)])

/-- EARLY_CELLS of an SLC_CFG. -/
def landCells (cfg : U32) : Nat := fld cfg 31 20

/-- The early credit of an ACK, when the landing pool can reserve its buffers and no request of the pair waits (R156, R327); `cfg` is the SLC_CFG of the
transfer acknowledged (R165). -/
def grantCredit (d : Dev) (cfg : U32) (dev : DevId) (p : Nat) : Nat × Dev :=
  let l := (d.part p).slcLand
  let g := fld l 5 0
  let n := divUp (64 * landCells cfg) (poolOf d g).bsize
  if bit l 6 && decide (0 < n) && (poolOf d g).en && decide ((poolOf d g).level < 2) && !waitsFor d g p && (grantTest d g p n).isNone then
    let (is, d) := takeBufs d g p n true
    (landCells cfg, { d with slc := { d.slc with credits := d.slc.credits ++ [⟨p, dev, p, false, landCells cfg, g, is⟩] } })
  else (0, d)

/-- The ACK of a transfer; the credit it returns is carried in OFFSET (R156, log 30). -/
def sendSlcAck (d : Dev) (dev : DevId) (combine : Bool) (part tag id credit : Nat) : Dev :=
  route d { mkCell d dev 0 tySlcAck part tag credit (.bits (pack 512 [(0, id)])) with combine := combine }

/-! ### The count store (R138) -/

/-- The cells a count or header cell announces (R136, R137, R142, R150). -/
def announced (combine : Bool) (c : BitVec 512) : Nat :=
  ctNctl combine c + ctRows c * wireCells (fld c 108 104) (32 * fld c 148 139)

/-- Bytes of the bitmap of received cells of a transfer, one bit a cell (R158). -/
def bitmapBytes (combine : Bool) (c : BitVec 512) : Nat := divUp (announced combine c) 8

/-- Bytes of the count store in use: stored count, directory and record index cells, and the bitmap of every
incoming transfer from its count or header cell until its ACK (R138, R158). -/
def storeBytes (d : Dev) : Nat :=
  let ctl := d.slc.store.filter fun s => s.cell.ty.toNat != tyData && s.cell.ty.toNat != tyAbort
  let counts := ctl.filter fun s => s.cell.ty.toNat == tyCount && s.whole.isNone
  let ins (x : Exch) : Nat := (x.ins.map fun i =>
    if i.own || i.ackSent then 0 else ((i.count.map (bitmapBytes x.combine)).getD 0)).sum
  64 * ctl.length + (counts.map fun s => bitmapBytes s.cell.combine (payBits s.cell)).sum + (d.slc.exch.map ins).sum

/-- The bitmap that a cell needs: that of its transfer, when it is a count or header cell. -/
def cellBitmap (c : Cell) : Nat := if c.ty.toNat = tyCount then bitmapBytes c.combine (payBits c) else 0

/-- Room in the 1 MiB count store for the bitmap of a count or header cell that joins an open exchange. -/
def bitmapRoom (d : Dev) (c : Cell) : Bool := decide (storeBytes d + cellBitmap c ≤ 1048576)

/-- Room for one more stored cell, with its bitmap. -/
def storeRoom (d : Dev) (c : Cell) : Bool := decide (storeBytes d + 64 + cellBitmap c ≤ 1048576)

/-- A cell for which the count store has no room is discarded, counted and deferred (R138). -/
def deferCell (d : Dev) (c : Cell) (id : Nat) : Dev := sendCountAck (slcErr d 3) c id true

/-- A stored cell of the transfer that `c` belongs to; `whole` tells a transfer that was acknowledged from
a later one of the same tag. -/
def sameXfer (c : Cell) (whole : Option U32) (s : Stored) : Bool :=
  s.cell.src == c.src && s.cell.part == c.part && s.cell.tag == c.tag && s.whole == whole && s.cell.ty.toNat != tyAbort

def storeCell (d : Dev) (c : Cell) : Dev := { d with slc := { d.slc with store := d.slc.store ++ [⟨c, none, d.slc.cfg⟩] } }

/-- The stored count cell and the exchange of a stored transfer of which every cell has come (R158). -/
def storedWhole (d : Dev) (c : Cell) : Option (Stored × U32) :=
  let mine := d.slc.store.filter (sameXfer c none)
  match mine.find? fun s => s.cell.ty.toNat == tyCount with
  | none => none
  | some s =>
    let y := payBits s.cell
    if ctStatus y ≠ sOk ∨ (!s.cell.combine ∧ bit y 109 ∧ ctRows y > 0) ∨ mine.length ≠ announced s.cell.combine y then none
    else some (s, BitVec.ofNat 32 (fld y 31 0))

/-- A transfer that is received whole before its exchange is posted is acknowledged: its cells wait in the
count store and the landing pool, and no timer of its source runs on (R157, R158). -/
def ackStored (d : Dev) (c : Cell) : Dev :=
  match storedWhole d c with
  | none => d
  | some (n, id) =>
    let d := { d with slc := { d.slc with store := d.slc.store.map fun s => if sameXfer c none s then { s with whole := some id } else s } }
    let (k, d) := grantCredit d n.cfg c.src c.part.toNat
    sendSlcAck (enterSlcDup d n.cfg c.src c.part.toNat c.tag.toNat id true) c.src n.cell.combine c.part.toNat c.tag.toNat id.toNat k

/-- A cell of no known transfer: a duplicate, stored, or discarded for want of space with a deferring
COUNT_ACK. A stored count cell is answered (R138). -/
def keepCell (d : Dev) (c : Cell) : Dev :=
  let id := if c.ty.toNat = tyCount then fld (payBits c) 31 0
    else (((d.slc.store.find? fun s => sameXfer c none s && s.cell.ty.toNat == tyCount).map fun s => fld (payBits s.cell) 31 0)).getD 0
  let isCount := c.ty.toNat == tyCount
  if d.slc.store.any fun s => sameXfer c none s && s.cell.off == c.off then
    let d := slcErr d 0
    if isCount then sendCountAck d c id false else d
  else if c.ty.toNat = tyData then ackStored (storeCell d c) c
  else if storeRoom d c then
    let d := storeCell d c
    ackStored (if isCount then sendCountAck d c id false else d) c
  else deferCell d c id

/-! ### Rows of a transfer (R140 to R142) -/

/-- Directory entries of a transfer whose directory is complete: (LSLOT, rank, N). -/
def dirEntries (i : InXfer) : List (Nat × Nat × Nat) :=
  match i.count with
  | none => []
  | some c =>
    (List.range (ctRuns c)).map fun k =>
      let e := nfld (tgetD i.dir (1 + k / 16) 0).toNat (32 * (k % 16) + 31) (32 * (k % 16))
      (nfld e 11 0, nfld e 15 12 + 1, nfld e 31 16)

def dirWhole (i : InXfer) : Bool :=
  match i.count with
  | none => false
  | some c => (List.range (ctNd c)).all fun k => (tget i.dir (1 + k)).isSome

def grantedRows (i : InXfer) : Nat := i.grants.foldl (fun a g => a + g.2.2.2) 0

/-- The slot and row of the k-th row sent (R140). -/
def rowOf : List (Nat × Nat × Nat × Nat) → Nat → Option (Nat × Nat)
  | [], _ => none
  | (l, _, first, n) :: gs, k => if k < n then some (l, first + k) else rowOf gs (k - n)

/-- The slot and row of the k-th row announced, when it was granted. -/
def announcedRow : List (Nat × Nat) → List (Nat × Nat × Nat × Nat) → Nat → Option (Nat × Nat)
  | (_, n) :: ns, (l, _, first, g) :: gs, k =>
    if k < n then (if k < g then some (l, first + k) else none) else announcedRow ns gs (k - n)
  | _, _, _ => none

/-- The data cells of the granted rows alone, renumbered from `first` (R141, R142). -/
def grantedCells (rc first : Nat) (runs : List (Nat × Nat)) (cells : List Cell) : List Cell :=
  let rows := chunks rc cells
  let keep := (runs.foldl (fun (acc : List (List Cell) × Nat) r =>
    (acc.1 ++ ((rows.drop acc.2).take r.1).take r.2, acc.2 + r.1)) ([], 0)).1
  keep.flatten.mapIdx fun i c => { c with off := BitVec.ofNat 23 (first + i) }

/-! ### Signals (R147, R148) -/

def sluiceRaise (d : Dev) (p : Nat) (t : SigTarget) : Dev :=
  match t with
  | .scoreboard n _ =>
    if (taskOn d p n).isSome then raise d p t
    else
      let d := slcErr d 4
      logCounted d sevError srcSluice (.slcErr 4) n (tgetD d.slc.err 4 0).toNat
  | _ => raise d p t

/-! ### Placement (R142 to R148) -/

/-- Base of a slot's elements and of its scale array. -/
def slotBase (d : Dev) (x : Exch) (l : Nat) : Option (Nat × Nat) :=
  let e := x.rxt.getD l 0
  if rxAlloc e then
    (tget x.rxBuf l).map fun b =>
      let a := (poolOf d (xdPool x.desc)).bufAddr b
      (a, a + tgetD x.expected l 0 * rxStride e)
  else some (rxAddr e, rxScale e)

/-- The slot's rows are all placed: its header is written final, then RDY is raised (R144, R148). -/
def expertDone (uid : Nat) (d : Dev) (l : Nat) : Dev :=
  match findX d uid with
  | none => d
  | some x =>
    if x.status ≠ 0 ∨ x.finals.contains l then d
    else
      let e := x.rxt.getD l 0
      let n := tgetD x.expected l 0
      let buf := match tget x.rxBuf l with
        | some b => (poolOf d (xdPool x.desc)).bufAddr b
        | none => 0
      if !okFor d x.part (.exch uid) false (rxHdr e) 64 then slcRegionFail d uid x.part (sBadField, 2, rxHdr e)
      else
        let d := slcNote d x (rxHdr e)
          (slotHeader n n x.srcDone (tgetD x.srcRows l 0) (tgetD x.refusedAt l 0) x.id.toNat buf true)
        let d := match tget x.rxBuf l with
          | some b => releaseEngine d (xdPool x.desc) b
          | none => d
        let d := modX d uid fun x => { x with finals := x.finals ++ [l] }
        sluiceRaise d x.part (rxSig e 273)

/-- Writes the bytes of one wire cell of a row: elements, then scales, padding discarded (R135); or the address that
lies outside the quota. -/
def placeBytes (d : Dev) (x : Exch) (l row o : Nat) (bs : List Byte) (base : Nat × Nat) : Nat ⊕ Dev :=
  let e := x.rxt.getD l 0
  let code := xdXfmt x.desc
  let eb := rowElems code (xdWidth x.desc)
  let sb := rowScales code (xdWidth x.desc)
  let els := bs.take (eb - o)
  let scs := (bs.drop (eb - o)).take (eb + sb - max o eb)
  let ea := base.1 + row * rxStride e + o
  let sa := base.2 + row * (rxStride e / strideUnit code) + (o - eb)
  let eng := rxAlloc e
  let put (d : Dev) (a : Nat) (bs : List Byte) : Dev := chargeRange (slcWrite d x eng a bs) x.part a bs.length eng
  if !okFor d x.part (.exch x.uid) eng ea els.length then .inl ea
  else if isMx code ∧ !scs.isEmpty then
    if !okFor d x.part (.exch x.uid) eng sa scs.length then .inl sa
    else .inr (put (put d ea els) sa scs)
  else .inr (put d ea els)

/-- Places one landed data cell whose slot is ready and, where the row lies in DRAM, whose partition's DRAM Weir is
not empty (R366); it stays landed otherwise. -/
def placeCell (uid src : Nat) (d : Dev) (off : Nat) : Dev :=
  match findX d uid with
  | none => d
  | some x =>
    match x.ins.find? fun i => i.src == src with
    | none => d
    | some i =>
      match i.count, tget i.landed off with
      | some c, some pay =>
        let q := off - ctNctl false c
        let rc := rowCells x.desc
        match rowOf i.grants (q / rc) with
        | none => modIn d uid src fun i => { i with landed := tdel i.landed off }
        | some (l, row) =>
          match slotBase d x l with
          | none => d
          | some base =>
            if !weirOk d x.part 0 && decide (dramBytes d x.part (base.1 + row * rxStride (x.rxt.getD l 0)) 1 (rxAlloc (x.rxt.getD l 0)) > 0) then d
            else match placeBytes d x l row (q % rc * 64) (toLe 64 pay.toNat) base with
            | .inl a => slcRegionFail d uid x.part (sBadField, 2, a)
            | .inr d =>
              let d := modIn d uid src fun i => { i with landed := tdel i.landed off, placed := i.placed + 1 }
              let n := tgetD x.placed l 0 + 1
              let d := modX d uid fun x => { x with placed := tput x.placed l n }
              if n = tgetD x.expected l 0 * rc then expertDone uid d l else d
      | _, _ => d

/-- Every ALLOC region that the source's runs reach is allocated. -/
def regionsReady (x : Exch) (i : InXfer) : Bool :=
  i.grants.all fun g => !(rxAlloc (x.rxt.getD g.1 0)) || tgetD x.expected g.1 0 == 0 || (tget x.rxBuf g.1).isSome

/-- Places what has landed of a source once its rows are fixed. Its landing buffers are freed when no cell of it can
land any more: every region that it reaches is there (R143, R146). -/
def placeAll (uid : Nat) (d : Dev) (src : Nat) : Dev :=
  match findX d uid with
  | none => d
  | some x =>
    if x.combine ∨ !x.rowsFixed ∨ x.status ≠ 0 then d
    else match x.ins.find? fun i => i.src == src with
      | none => d
      | some i =>
        let d := (tkeys i.landed).foldl (placeCell uid src) d
        match (findX d uid).bind fun x => (x.ins.find? fun i => i.src == src).map fun i => (x, i) with
        | some (x, i) =>
          if regionsReady x i ∧ i.landed.isEmpty ∧ !i.land.isEmpty then freeAll (modIn d uid src fun i => { i with land := [] }) i.land else d
        | none => d

/-- Landed cells of the partition's exchanges that waited for the DRAM Weir are placed (R366). -/
def placeWaiting (d : Dev) (p : Nat) : Dev :=
  (d.slc.exch.filter fun x => x.part == p && x.rowsFixed).foldl (fun d x => (x.ins.map (·.src)).foldl (placeAll x.uid) d) d

/-- Row map entries of the granted rows named by one record index cell (R145, R537). -/
def writeRowMap (uid src : Nat) (d : Dev) (off : Nat) : Dev :=
  match findX d uid with
  | none => d
  | some x =>
    match x.ins.find? fun i => i.src == src with
    | none => d
    | some i =>
      match i.count, tget i.dir off with
      | some c, some pay =>
        let first := 16 * (off - 1 - ctNd c)
        let ns := (dirEntries i).map fun e => (e.1, e.2.2)
        let rows := (List.range (min 16 (ctRows c - first))).filterMap fun k =>
          (announcedRow ns i.grants (first + k)).map fun lr => (lr.1, lr.2, fld pay (32 * k + 17) (32 * k))
        rows.foldl (fun d y =>
          let a := rxHdr (x.rxt.getD y.1 0) + 64 + 8 * y.2.1
          if okFor d x.part (.exch uid) false a 8 then slcNote d x a (toLe 8 (packNat [(0, y.2.2), (18, src)]))
          else slcRegionFail d uid x.part (sBadField, 2, a)) d
      | _, _ => d

/-! ### READY and grants (R141, R143, R146) -/

/-- READY, or the grant cells under GLOBAL, to a source with rows to send. -/
def answerReady (d : Dev) (x : Exch) (i : InXfer) : Dev :=
  let mk (ty off : Nat) (pay : BitVec 512) : Cell :=
    { mkCell d i.dev 0 ty x.part (i.tag.getD 0) off (.bits pay) with combine := x.combine }
  if !x.combine && xdGlobal x.desc then
    let gs := (chunks 32 (i.grants.map fun g => g.2.2.2)).mapIdx fun j g =>
      mk tyGrant j (BitVec.ofNat 512 (packNat (g.mapIdx fun k n => (16 * k, n))))
    gs.foldl route d
  else route d (mk tyReady 0 (pack 512 [(0, x.id.toNat)]))

def readyIf (uid : Nat) (d : Dev) (src : Nat) : Dev :=
  match findX d uid with
  | none => d
  | some x =>
    match x.ins.find? fun i => i.src == src with
    | none => d
    | some i =>
      let rows := (i.count.map ctRows).getD 0
      let can := if x.combine then i.retsHeld else x.rowsFixed && regionsReady x i
      if x.status ≠ 0 ∨ i.own ∨ i.readySent ∨ rows = 0 ∨ !can then d
      else answerReady (modIn d uid src fun i => { i with readySent := true }) x i

/-! ### Acknowledgement of a transfer (R158) -/

/-- The cells a transfer has in all, when that is known. -/
def totalCells (x : Exch) (i : InXfer) : Option Nat :=
  i.count.bind fun c =>
    if x.combine ∨ !xdGlobal x.desc then some (ctNctl x.combine c + ctRows c * rowCells x.desc)
    else if x.rowsFixed then some (ctNctl false c + grantedRows i * rowCells x.desc)
    else if ctRows c = 0 then some (ctNctl false c)
    else none

def ackIf (uid : Nat) (d : Dev) (src : Nat) : Dev :=
  match findX d uid with
  | none => d
  | some x =>
    match x.ins.find? fun i => i.src == src with
    | none => d
    | some i =>
      if i.own ∨ i.ackSent ∨ totalCells x i ≠ some i.seen.length then d
      else
        let d := modIn d uid src fun i => { i with ackSent := true }
        let (n, d) := grantCredit d i.cfg i.dev x.part
        let d := enterSlcDup d i.cfg i.dev x.part (i.tag.getD 0) x.id true
        sendSlcAck d i.dev x.combine x.part (i.tag.getD 0) x.id.toNat n

/-! ### Arriving cells of a known transfer -/

/-- The transfer in progress that a cell belongs to: its exchange and source rank. -/
def findIn (d : Dev) (c : Cell) : Option (Exch × InXfer) :=
  d.slc.exch.findSome? fun x =>
    if x.part = c.part.toNat ∧ x.status = 0 then
      (x.ins.find? fun i => i.dev == c.src && !i.own && i.tag == some c.tag.toNat && i.count.isSome && !i.ackSent).map fun i => (x, i)
    else none

/-- The duplicate window holds the transfer (R158). -/
def slcDupOf (d : Dev) (c : Cell) : Option SlcDup :=
  d.slc.dup.find? fun e => e.src == c.src && e.part == c.part.toNat && e.tag == c.tag.toNat

/-- A directory, record index or data cell of a known transfer. -/
def takeCell (uid src : Nat) (d : Dev) (c : Cell) : Dev :=
  match (findX d uid).bind fun x => (x.ins.find? fun i => i.src == src).map fun i => (x, i) with
  | none => d
  | some (x, i) =>
    let off := c.off.toNat
    if i.seen.contains off then slcErr d 0
    else
      let d := modIn d uid src fun i => { i with seen := off :: i.seen }
      let d :=
        if c.ty.toNat = tyDir then
          let d := modIn d uid src fun i => { i with dir := tput i.dir off (payBits c) }
          if x.rowsFixed then writeRowMap uid src d off else d
        else
          let d := modIn d uid src fun i => { i with landed := tput i.landed off (payBits c) }
          if x.rowsFixed then placeCell uid src d off else d
      ackIf uid d src

/-- Count or header cell fields against this member's own descriptor (R138, R151). -/
def countAgrees (x : Exch) (i : InXfer) (c : BitVec 512) : Bool :=
  let y := x.desc
  fld c 108 104 == xdXfmt y && bit c 109 == xdGlobal y && fld c 114 110 == xdK y && fld c 127 115 == xdC y &&
  fld c 138 128 == xdS y && fld c 148 139 == xdW32 y && fld c 158 149 == i.src &&
  (!x.combine || ctRows c == (tgetD x.homeRecs i.src []).length)

/-- The landing buffers granted to the source for its next transfer are now this one's (R156). -/
def adoptLanding (d : Dev) (uid src : Nat) (dev : DevId) (p : Nat) : Dev :=
  let k (c : EarlyCredit) : Bool := !c.source && c.dev == dev && c.part == p
  match d.slc.credits.find? k with
  | some c =>
    let d := { d with slc := { d.slc with credits := dropFirst k d.slc.credits } }
    modIn d uid src fun i => { i with land := i.land ++ c.bufs.map fun b => (c.pool, b) }
  | none => d

/-- A count or header cell joins its open exchange (R138, R151, R161), with the stored cells of its
transfer; `whole` is the exchange of a stored transfer that was acknowledged, and `cfg` the SLC_CFG when the cell came. A header cell that differs
fails a COMBINE at once; a count cell that differs fails a DISPATCH when every count cell is held, so that
the lowest rank is named (R161). -/
def joinCount (d : Dev) (x : Exch) (i : InXfer) (c : Cell) (whole : Option U32) (cfg : U32) : Dev :=
  let pay := payBits c
  let uid := x.uid
  let mine := d.slc.store.filter fun s => sameXfer c whole s && s.cell.ty.toNat != tyCount
  let d := { d with slc := { d.slc with store := d.slc.store.filter fun s => !sameXfer c whole s } }
  let d := modIn d uid i.src fun i =>
    { i with count := some pay, tag := some c.tag.toNat, seen := 0 :: i.seen, ackSent := whole.isSome, cfg := cfg }
  if ctStatus pay = sAborted then slcFail d uid sAborted 13 i.src []
  else if ctStatus pay ≠ sOk then slcFail d uid sProgFault 9 i.src []
  else if x.combine ∧ !countAgrees x i pay then slcFail d uid sMismatch 12 i.src []
  else
    let d := if ctRows pay > 0 ∧ (x.combine ∨ !xdGlobal x.desc) then adoptLanding d uid i.src c.src x.part else d
    let d := (mine.map (·.cell)).foldl (takeCell uid i.src) d
    readyIf uid (ackIf uid d i.src) i.src

/-- A count or header cell of no finished transfer (R138, R151, R158). A sender that is not in the peer
table, and a home that expects no rows of the sender, differ (R161). -/
def newCount (c : Cell) (id : U32) (d : Dev) : Dev :=
  match (findIn d c).filter fun y => y.1.id == id with
  | some (x, i) =>
    let d := sendCountAck (slcErr d 0) c id.toNat false
    if i.readySent then answerReady d x i else d
  | none =>
    match openX d c.part.toNat id with
    | none => keepCell d c
    | some x =>
      let ended (d : Dev) : Dev := enterSlcDup (sendCountAck d c id.toNat false) d.slc.cfg c.src c.part.toNat c.tag.toNat id false
      if x.combine ≠ c.combine then keepCell d c
      else if x.status ≠ 0 then ended d
      else match x.peers.findIdx? fun q => q.1 == c.src with
        | none => slcFail (ended d) x.uid sMismatch 12 (fld (payBits c) 158 149) []
        | some r =>
          match x.ins.find? fun i => i.src == r && !i.own with
          | some i =>
            if i.count.isNone then
              if bitmapRoom d c then joinCount (sendCountAck d c id.toNat false) x i c none d.slc.cfg
              else deferCell d c id.toNat
            else sendCountAck (slcErr d 0) c id.toNat false
          | none => slcFail (ended d) x.uid sMismatch 12 r []

/-- SLC_COUNT (R138, R150, R158). A tag that the window holds for another exchange is in use anew; a cell of the same one
is a duplicate, counted and answered again. -/
def countCell (c : Cell) (d : Dev) : Dev :=
  let id : U32 := BitVec.ofNat 32 (fld (payBits c) 31 0)
  match slcDupOf d c with
  | some e =>
    if e.id = id then
      let d := slcErr d 0
      if e.whole then sendSlcAck d c.src c.combine c.part.toNat c.tag.toNat id.toNat 0 else sendCountAck d c id.toNat false
    else newCount c id { d with slc := { d.slc with dup := d.slc.dup.filter fun e =>
      !(e.src == c.src && e.part == c.part.toNat && e.tag == c.tag.toNat) } }
  | none => newCount c id d

/-- SLC_DIR and SLC_DATA (R137, R142, R537). A cell of a transfer that was received whole is a duplicate; one of a
transfer that a failure ended is discarded (R158, R161). R159 gives only the least time that an entry of the duplicate
window stays: here it stays until its place or its tag is taken, and a body cell of a reused tag that comes before its
count cell is discarded as a duplicate (DESIGN CHOICE, log 80). -/
def bodyCell (c : Cell) (d : Dev) : Dev :=
  match findIn d c with
  | some (x, i) => takeCell x.uid i.src d c
  | none =>
    match slcDupOf d c with
    | some e => if e.whole then slcErr d 0 else d
    | none => keepCell d c

def execSlcCount (port : Nat) (c : Cell) (s : State) := onDev (fun d => onCell d port c [tyCount] (countCell c)) s
def execSlcDir (port : Nat) (c : Cell) (s : State) := onDev (fun d => onCell d port c [tyDir] (bodyCell c)) s

/-- A data cell waits in its input buffer while the partition's DRAM Weir is empty (R366). -/
def execSlcData (port : Nat) (c : Cell) (s : State) :=
  onDev (fun d => onCellWhen awaitsTokens d port c [tyData] (bodyCell c)) s

/-- SLC_ABORT of an open exchange: every transfer with the sender ends, and with it the exchange (R161). -/
def endByAbort (d : Dev) (x : Exch) (c : Cell) : Dev :=
  let st := fld (payBits c) 39 32
  match x.peers.findIdx? fun (q : DevId × Nat) => q.1 == c.src with
  | some r =>
    if st = sAborted then slcFail d x.uid sAborted 13 r [r]
    else if st = sMismatch then slcFail d x.uid sMismatch 12 r [r]
    else slcFail d x.uid sProgFault 9 r [r]
  | none => d

/-- What the count store holds for an exchange just posted: count and header cells join it, then an
SLC_ABORT that came before ends it (R138, R161). An exchange that failed at once discards them. -/
def absorbStored (d : Dev) (uid : Nat) : Dev :=
  match findX d uid with
  | none => d
  | some x =>
    if (openX d x.part x.id).map (·.uid) ≠ some uid then d
    else
      let isMine (s : Stored) : Bool := s.cell.part.toNat == x.part && s.cell.combine == x.combine &&
        (s.cell.ty.toNat == tyCount || s.cell.ty.toNat == tyAbort) && fld (payBits s.cell) 31 0 == x.id.toNat
      let (aborts, counts) := (d.slc.store.filter isMine).partition fun s => s.cell.ty.toNat == tyAbort
      let d := { d with slc := { d.slc with store := d.slc.store.filter fun s => !(isMine s && s.cell.ty.toNat == tyAbort) } }
      let d := (sortBy (fun s => ((x.peers.findIdx? fun q => q.1 == s.cell.src)).getD x.peers.length) counts).foldl (fun d s =>
        match findX d uid with
        | none => d
        | some x =>
          let drop (d : Dev) : Dev :=
            let d := if s.whole.isNone then enterSlcDup d s.cfg s.cell.src x.part s.cell.tag.toNat x.id false else d
            { d with slc := { d.slc with store := d.slc.store.filter fun t => !sameXfer s.cell s.whole t } }
          if x.status ≠ 0 then drop d
          else match x.peers.findIdx? fun q => q.1 == s.cell.src with
            | none => slcFail (drop d) uid sMismatch 12 (fld (payBits s.cell) 158 149) []
            | some r =>
              match x.ins.find? fun i => i.src == r && !i.own with
              | some i => if i.count.isNone then joinCount d x i s.cell s.whole s.cfg else drop d
              | none => slcFail (drop d) uid sMismatch 12 r []) d
      aborts.foldl (fun d s =>
        match findX d uid with
        | some x => if x.status = 0 then endByAbort d x s.cell else d
        | none => d) d

/-! ### Rows fixed (R140, R141, R144 to R146) -/

/-- Runs of every source in R140's order: (LSLOT, rank, source, place in its directory, N). -/
def allRuns (x : Exch) : List (Nat × Nat × Nat × Nat × Nat) :=
  let rs := x.ins.flatMap fun i => (dirEntries i).mapIdx fun k e => (e.1, e.2.1, i.src, k, e.2.2)
  sortBy (fun r => (r.1 * 32 + r.2.1) * 1024 + r.2.2.1) rs

/-- Base row and granted rows of every run, and the rows of each slot (R140, R141). -/
def fixRows (x : Exch) : List (Nat × Nat × Nat × Nat × Nat × Nat × Nat) × Tbl Nat :=
  (allRuns x).foldl (fun acc r =>
    let (l, rank, src, k, n) := r
    let row := tgetD acc.2 l 0
    let g := if xdGlobal x.desc then min n (xdC x.desc - row) else n
    (acc.1 ++ [(l, rank, src, k, n, row, g)], tput acc.2 l (row + g))) ([], [])

/-- A record refused under GLOBAL: DROP set, SLOT 0xFFFF, WEIGHT +0 (R141). -/
def refuseRecord (uid : Nat) (d : Dev) (rec_ : Nat) : Dev :=
  match findX d uid with
  | none => d
  | some x =>
    let a := xdRec x.desc + 16 * rec_
    if x.status ≠ 0 then d
    else if !okFor d x.part (.exch uid) false a 16 then slcRegionFail d uid x.part (sBadField, 2, a)
    else
      let w := readWord d x.part false 128 a
      let w := merge (ones 128 127 96 ||| ones 128 79 64 ||| ones 128 24 24) w (pack 128 [(24, 1), (64, 0xFFFF)])
      modX (slcNote d x a (toLe 16 w.toNat)) uid fun x => { x with refused := x.refused + 1 }

/-- Records of a transfer's runs beyond the granted rows. -/
def refusedRecs (runs : List (Nat × Nat × List Nat)) (grants : List Nat) : List Nat :=
  (runs.zip grants).flatMap fun y => y.1.2.2.drop y.2

/-- The own transfer under GLOBAL: only its granted rows remain, and refused records are rewritten. -/
def trimOwn (uid : Nat) (d : Dev) : Dev :=
  match findX d uid with
  | none => d
  | some x =>
    match x.ins.find? fun i => i.own, xdGlobal x.desc with
    | some i, true =>
      match i.count with
      | none => d
      | some c =>
        let first := ctNctl false c
        let runs := (dirEntries i).zip i.grants |>.map fun y => (y.1.2.2, y.2.2.2.2)
        let cells := (tvals i.landed).map fun b => slcCell d false i.dev 1 tyData x.part 0 b
        let kept := grantedCells (rowCells x.desc) first runs cells
        let recs := (List.range (ctRows c)).map fun k =>
          fld (tgetD i.dir (1 + ctNd c + k / 16) 0) (32 * (k % 16) + 17) (32 * (k % 16))
        let gone := (runs.foldl (fun (acc : List Nat × Nat) r =>
          (acc.1 ++ (((recs.drop acc.2).take r.1).drop r.2), acc.2 + r.1)) ([], 0)).1
        let d := modIn d uid i.src fun i => { i with landed := kept.map fun c => (c.off.toNat, payBits c) }
        gone.foldl (refuseRecord uid) d
    | _, _ => d

/-- ROWS_FIXED (R140). -/
def rowsFix (x : Exch) (d : Dev) : Dev :=
  let uid := x.uid
  let (runs, rows) := fixRows x
  let odd := x.ins.filter fun i => !i.own && !countAgrees x i (i.count.getD 0)
  if !odd.isEmpty then slcFail d uid sMismatch 12 (odd.foldl (fun a i => min a i.src) noPeer) []
  else if runs.any fun r => r.1 ≥ xdNl x.desc then slcFail d uid sProgFault 6 noPeer []
  else if rows.any fun y => y.2 > rxRows (x.rxt.getD y.1 0) then slcFail d uid sProgFault 7 noPeer []
  else
    let grantsOf (src : Nat) : List (Nat × Nat × Nat × Nat) :=
      (sortBy (fun r => r.2.2.2.1) (runs.filter fun r => r.2.2.1 == src)).map fun r => (r.1, r.2.1, r.2.2.2.2.2.1, r.2.2.2.2.2.2)
    let slots := List.range (xdNl x.desc)
    let refusedOf (l : Nat) : Nat := (runs.filter fun r => r.1 == l).foldl (fun a r => a + (r.2.2.2.2.1 - r.2.2.2.2.2.2)) 0
    let srcsOf (l : Nat) : Nat := ((runs.filter fun r => r.1 == l && decide (r.2.2.2.2.2.2 > 0)).map (·.2.2.1)).eraseDups.length
    let d := modX d uid fun x => { x with
      rowsFixed := true, expected := rows, refusedAt := slots.map fun l => (l, refusedOf l)
      srcRows := slots.map fun l => (l, srcsOf l), ins := x.ins.map fun i => { i with grants := grantsOf i.src } }
    let d := trimOwn uid d
    let d := x.ins.foldl (fun d i =>
      match i.count with
      | some c => ((List.range (divUp (ctRows c) 16)).map (· + 1 + ctNd c)).foldl (writeRowMap uid i.src) d
      | none => d) d
    let d := (slots.filter fun l => tgetD rows l 0 == 0).foldl (expertDone uid) d
    let srcs := x.ins.map (·.src)
    let d := srcs.foldl (placeAll uid) d
    let d := srcs.foldl (readyIf uid) d
    srcs.foldl (ackIf uid) d

/-- Every member's count cell and directory are held (R140). -/
def canFix (x : Exch) : Bool :=
  !x.combine && !x.rowsFixed && x.status == 0 && x.phase != .ended && x.ins.all fun i => i.count.isSome && dirWhole i

def execRowsFixed (p : Nat) (exch : U32) (s : State) :=
  onDev (fun d => match openX d p exch with
    | some x => if canFix x then rowsFix x d else d
    | none => d) s

/-- A buffer for an ALLOC region: placed cells, READY and grants that waited for it go on (R146). -/
def giveRegion (d : Dev) (uid l : Nat) (is : List Nat) : Dev :=
  match findX d uid, is with
  | some x, b :: _ =>
    let e := x.rxt.getD l 0
    let n := tgetD x.expected l 0
    let need := n * rxStride e + (if isMx (xdXfmt x.desc) then n * (rxStride e / strideUnit (xdXfmt x.desc)) else 0)
    let d := modX d uid fun x => { x with rxBuf := tput x.rxBuf l b }
    if need > (poolOf d (xdPool x.desc)).bsize then slcFail d uid sBadField 1 noPeer []
    else
      let srcs := x.ins.map (·.src)
      srcs.foldl (readyIf uid) (srcs.foldl (placeAll uid) d)
  | _, _ => d

/-- RX_BUF_ALLOC (R146). -/
def rxBufAlloc (p : Nat) (exch : U32) (l : Nat) (d : Dev) : Dev :=
  match openX d p exch with
  | none => d
  | some x =>
    if !x.rowsFixed ∨ x.status ≠ 0 ∨ l ≥ xdNl x.desc ∨ !(rxAlloc (x.rxt.getD l 0)) ∨ tgetD x.expected l 0 = 0 ∨ (tget x.rxBuf l).isSome then d
    else match request d (xdPool x.desc) p 1 (.alloc exch l) with
      | (some is, d) => giveRegion d x.uid l is
      | (none, d) => d

def execRxBufAlloc (p : Nat) (exch : U32) (lslot : Nat) (s : State) := onDev (rxBufAlloc p exch lslot) s

/-! ### Transfers complete (R147) -/

/-- All granted rows of the transfer are placed, or all its cells have come for a COMBINE. -/
def xferDone (x : Exch) (i : InXfer) : Bool :=
  match i.count with
  | none => false
  | some c =>
    if x.combine then decide (i.seen.length = 1 + ctRows c * rowCells x.desc)
    else ctRows c == 0 || (x.rowsFixed && i.placed == grantedRows i * rowCells x.desc)

/-- The distinct targets of the entries with ARR_EN. -/
def arrTargets (x : Exch) : List SigTarget := ((x.rxt.map fun e => rxSig e 261).filter (· != .none)).eraseDups

/-- TRANSFER_COMPLETE: the last transfer waits for every final header (R147). -/
def xferComplete (p : Nat) (exch : U32) (src : Nat) (d : Dev) : Dev :=
  match openX d p exch with
  | none => d
  | some x =>
    match x.ins.find? fun i => i.src == src with
    | none => d
    | some i =>
      let last := x.ins.all fun y => y.src == src || y.complete
      if x.status ≠ 0 ∨ i.complete ∨ !xferDone x i ∨ (!x.combine ∧ last ∧ x.finals.length < xdNl x.desc) then d
      else
        let d := modIn d x.uid src fun i => { i with complete := true }
        let d := modX d x.uid fun x => { x with srcDone := x.srcDone + 1 }
        if x.combine then d else (arrTargets x).foldl (fun d t => sluiceRaise d p t) d

def execTransferComplete (p : Nat) (exch : U32) (src : Nat) (s : State) := onDev (xferComplete p exch src) s

/-! ### COMBINE (R150 to R152) -/

/-- Bytes of one return row. -/
def retRow (x : BitVec 512) : Nat := rowElems (xdXfmt x) (xdWidth x) + rowScales (xdXfmt x) (xdWidth x)

/-- Return rows that one buffer of POOL holds (log 31). -/
def retPer (d : Dev) (x : BitVec 512) : Nat := (poolOf d (xdPool x)).bsize / retRow x

/-- The output rows of one slot: (home rank, REC, address), or the failing check (R150). -/
def slotReturns (d : Dev) (p : Nat) (x e : BitVec 512) : (Nat × Nat × Nat) ⊕ List (Nat × Nat × Nat) :=
  match regionFault d p (rxHdr e) 64 with
  | some f => .inl f
  | none =>
    let hdr := readWord d p false 512 (rxHdr e)
    let n := fld hdr 63 32
    if !bit hdr 160 then .inl (sProgFault, 7, 0)
    else match regionFault d p (rxHdr e + 64) (8 * n) with
      | some f => .inl f
      | none =>
        let rows := (List.range n).map fun k =>
          let m := readWord d p false 64 (rxHdr e + 64 + 8 * k)
          (fld m 27 18, fld m 17 0, rxOut e + k * rxOutStride e)
        if rows.any fun r => r.1 ≥ xdS x then .inl (sProgFault, 7, 0)
        else match rows.findSome? fun r => regionFault d p r.2.2 (rowElems (xdSfmt x) (xdWidth x)) with
          | some f => .inl f
          | none => .inr rows

def allReturns (d : Dev) (p : Nat) (x : BitVec 512) : List (BitVec 512) → (Nat × Nat × Nat) ⊕ List (Nat × Nat × Nat)
  | [] => .inr []
  | e :: es =>
    match slotReturns d p x e, allReturns d p x es with
    | .inr a, .inr b => .inr (a ++ b)
    | .inl f, _ => .inl f
    | _, .inl f => .inl f

/-- COMBINE: what the home expects, and the return transfers of this expert device. -/
def startCombine (d : Dev) (x : Exch) : Dev :=
  let y := x.desc
  let p := x.part
  let d := addX d x
  let recs := recordsOf d p y x.tokens
  match byRank x.peers recs with
  | none => slcFail d x.uid sProgFault 5 noPeer []
  | some t =>
    let home := t.map fun z => (z.1, (runsOf recs z.2).flatMap (·.2.2))
    if !home.isEmpty ∧ (poolOf d (xdPool y)).bsize < retRow y then slcFail d x.uid sBadField 1 noPeer []
    else match allReturns (opQuota d p (.exch x.uid)) p y x.rxt with
      | .inl f => slcRegionFail d x.uid p f
      | .inr rows =>
        let ranks := (List.range x.peers.length).filter fun r => rows.any fun z => z.1 == r
        let built := ranks.map fun r =>
          let mine := rows.filter fun z => z.1 == r
          let wires := mine.map fun z => wireRow d p y x.step z.2.2 ((r * 2 ^ 18 + z.2.1) * xdWidth y)
          let peer := x.peers.getD r (0, 0)
          let hdr := slcCell d true peer.1 0 tyCount peer.2 0 (countPay y x.rank sOk mine.length 0)
          (newOut r peer (hdr :: dataCells d y true peer.1 peer.2 1 (wires.map (·.1))) 1 [], wires.foldl (fun a w => a ||| w.2) 0)
        if built.any fun o => o.1.cells.length > maxCells then slcFail d x.uid sProgFault 8 noPeer []
        else
          let outs := (built.map (·.1)).filter fun o => o.dst != x.rank
          let own := (built.map (·.1)).find? fun o => o.dst == x.rank
          let ins := (tkeys home).map fun r =>
            if r = x.rank then
              match own with
              | some o => { loopIn { x with rank := r } { o with nctl := 1 } with dir := [] }
              | none => { newIn r (myId d) true with count := some (countPay y x.rank sOk 0 0), seen := [0] }
            else newIn r (x.peers.getD r (0, 0)).1 false
          let d := rows.foldl (fun d z => chargeRange d p z.2.2 (rowElems (xdSfmt y) (xdWidth y))) d
          let d := slcFlag d p (built.foldl (fun a o => a ||| o.2) 0)
          let d := modX d x.uid fun x => { x with
            homeRecs := home, outs := outs, ins := ins, phase := if outs.isEmpty then .running else .waitTags }
          let ownRows := (own.map fun o => (o.cells.length - 1) / rowCells y).getD 0
          if ownRows ≠ (tgetD home x.rank []).length then slcFail d x.uid sMismatch 12 x.rank []
          else absorbStored d x.uid

/-- The posting of an XCHG, with what is already stored for it (R132, R138). -/
def xchgPost (d : Dev) (p lcore : Nat) (sub : U32) (addr kind : Nat) : Dev :=
  let uid := d.slc.nextUid
  absorbStored (slcPost d p lcore sub addr kind startCombine) uid

def giveReturns (d : Dev) (uid src : Nat) (is : List Nat) : Dev :=
  let land := (((findX d uid).bind fun x => x.ins.find? fun i => i.src == src).map (·.land)).getD []
  let d := modIn d uid src fun i => { i with rets := is.mapIdx fun k b => (k, b), retsHeld := true, land := [] }
  readyIf uid (freeAll d land) src

/-- RETURN_BUFFERS_HELD (R151). -/
def returnBuffers_ (p : Nat) (exch : U32) (src : Nat) (d : Dev) : Dev :=
  match openX d p exch with
  | none => d
  | some x =>
    match x.ins.find? fun i => i.src == src with
    | none => d
    | some i =>
      if !x.combine ∨ x.status ≠ 0 ∨ i.retsHeld then d
      else
        let n := divUp (tgetD x.homeRecs src []).length (retPer d x.desc)
        match request d (xdPool x.desc) p n (.returns exch src) with
        | (some is, d) => giveReturns d x.uid src is
        | (none, d) => d

def execReturnBuffersHeld (p : Nat) (exch : U32) (src : Nat) (s : State) := onDev (returnBuffers_ p exch src) s

/-- The source and place of a record's returned row. -/
def returnOf (x : Exch) (i : Nat) : Option (Nat × Nat) :=
  x.homeRecs.findSome? fun h => (h.2.findIdx? (· == i)).map fun q => (h.1, q)

/-- The returned row of a record: its wire bytes, when its cells have come and its buffers are held. -/
def returnRow (x : Exch) (i : Nat) : Option (List Byte) :=
  (returnOf x i).bind fun sq => (x.ins.find? fun y => y.src == sq.1).bind fun y =>
    let rc := rowCells x.desc
    let offs := (List.range rc).map fun k => 1 + sq.2 * rc + k
    if y.retsHeld && y.count.isSome && offs.all fun o => (tget y.landed o).isSome then
      some (offs.flatMap fun o => toLe 64 (tgetD y.landed o 0).toNat)
    else none

def foldRows (acc : List Nat) (w : Nat) (row : List Nat) : FlM (List Nat) :=
  (acc.zip row).mapM fun y => ffma w y.2 y.1

/-- The sum of one token in ascending rank, the shared output last, in FP32 (R152). -/
def sumToken (x : BitVec 512) (terms : List (Nat × List Byte)) (shared : Option (List Byte)) : FlM (List Nat) := do
  let w := xdWidth x
  let eb := rowElems (xdXfmt x) w
  let acc ← terms.foldlM (fun acc t => do
    let row ← valsTo32 (decodeVals (xdXfmt x) (t.2.take eb) ((t.2.drop eb).take (rowScales (xdXfmt x) w)) w)
    foldRows acc t.1 row) (List.replicate w 0)
  match shared with
  | none => pure acc
  | some bs => do
    let row ← valsTo32 (decodeVals (xdOfmt x) bs [] w)
    (acc.zip row).mapM fun y => fadd y.1 y.2

/-- Return buffers whose rows are all summed go back to POOL (R151). -/
def freeReturns (uid : Nat) (d : Dev) : Dev :=
  match findX d uid with
  | none => d
  | some x =>
    let per := retPer d x.desc
    x.ins.foldl (fun d i =>
      let recs := tgetD x.homeRecs i.src []
      let done := i.rets.filter fun b => ((recs.drop (b.1 * per)).take per).all fun r => x.summed.contains (r / xdK x.desc)
      let d := modIn d uid i.src fun i => { i with rets := i.rets.filter fun b => !done.contains b }
      freeAll d (done.map fun b => (xdPool x.desc, b.2))) d

/-- HOME_SUM (R152). It waits while the partition's DRAM Weir is empty (R366). -/
def homeSum (p : Nat) (exch : U32) (t : Nat) (d : Dev) : Dev :=
  match openX d p exch with
  | none => d
  | some x =>
    if !x.combine ∨ x.status ≠ 0 ∨ t ≥ x.tokens ∨ x.summed.contains t ∨ !weirOk d p 0 then d
    else
      let y := x.desc
      let k := xdK y
      let rbase := xdRec y + 16 * t * k
      let w := xdWidth y
      let out := xdData y + t * xdStride y
      let n := rowElems (xdOfmt y) w
      match regionFault (opQuota d p (.exch x.uid)) p rbase (16 * k) with
      | some f => slcRegionFail d x.uid p f
      | none =>
        let recs := (List.range k).map fun r => (t * k + r, readWord d p false 128 (rbase + 16 * r))
        let skip := rcSkip ((recs.head?.map (·.2)).getD 0)
        let used := if skip then [] else recs.filter fun r => rcSends r.2
        let rows := used.map fun r => (rcWeight r.2, returnRow x r.1)
        if rows.any fun r => r.2.isNone then d
        else
          let wantShared := xdShared y && !skip
          match (if wantShared then regionFault (opQuota d p (.exch x.uid)) p out n else none) with
          | some f => slcRegionFail d x.uid p f
          | none =>
            let shared := if wantShared then some (readRange d p false out n) else none
            let (acc, fl) := sumToken y (rows.map fun r => (r.1, r.2.getD [])) shared 0
            let ((bs, _), fl2) := encodeVals (xdOfmt y) (fun _ => .rne) (acc.map f32) 0
            if !okFor d p (.exch x.uid) false out n then slcRegionFail d x.uid p (sBadField, 2, out)
            else
              let d := chargeRange (slcWrite d x false out bs) p out n
              let d := if wantShared then chargeRange d p out n else d
              let d := slcFlag d p (fl ||| fl2)
              freeReturns x.uid (modX d x.uid fun x => { x with summed := t :: x.summed })

def execHomeSum (p : Nat) (exch : U32) (token : Nat) (s : State) := onDev (homeSum p exch token) s

/-! ### Answers at the source (R138, R141, R143, R158) -/

def findOut (d : Dev) (c : Cell) : Option (Exch × OutXfer) :=
  d.slc.exch.findSome? fun x =>
    (x.outs.find? fun o => o.dev == c.src && o.tag == some c.tag.toNat && !o.ended).map fun o => (x, o)

/-- SLC_COUNT_ACK: stops the count timer, or defers a resend. A failing count cell ends with it. -/
def countAckCell (c : Cell) (d : Dev) : Dev :=
  match findOut d c with
  | none => d
  | some (x, o) =>
    if bit (payBits c) 0 then modOut d x.uid o.dst fun o => { o with deferred := true, timing := false }
    else if x.status ≠ 0 then endOut d x.uid o.dst
    else modOut d x.uid o.dst fun o => { o with counted := true, timing := o.sent == o.cells.length }

def execSlcCountAck (port : Nat) (c : Cell) (s : State) := onDev (fun d => onCell d port c [tyCountAck] (countAckCell c)) s

/-- SLC_READY: the rest of the data cells (R143). -/
def readyCell (c : Cell) (d : Dev) : Dev :=
  match findOut d c with
  | some (x, o) =>
    if o.ready ∨ x.status ≠ 0 ∨ (!x.combine ∧ xdGlobal x.desc) then d
    else sendTo (modOut d x.uid o.dst fun o => { o with ready := true }) x.uid o.dst o.cells.length
  | none => d

def execSlcReady (port : Nat) (c : Cell) (s : State) := onDev (fun d => onCell d port c [tyReady] (readyCell c)) s

/-- SLC_GRANT: with every grant cell in hand, the granted rows are sent and the refused records
rewritten (R141). -/
def grantCell (c : Cell) (d : Dev) : Dev :=
  match findOut d c with
  | none => d
  | some (x, o) =>
    if o.ready ∨ x.status ≠ 0 ∨ x.combine ∨ !xdGlobal x.desc then d
    else
      let gs := tput o.grants c.off.toNat (payBits c)
      let need := divUp o.runs.length 32
      let d := modOut d x.uid o.dst fun o => { o with grants := gs }
      if !((List.range need).all fun k => (tget gs k).isSome) then d
      else
        let granted := (List.range o.runs.length).map fun k => fld (tgetD gs (k / 32) 0) (16 * (k % 32) + 15) (16 * (k % 32))
        let sizes := (o.runs.map fun r => r.2.2.length).zip granted
        let data := grantedCells (rowCells x.desc) o.nctl sizes (o.cells.drop o.nctl)
        let cells := o.cells.take o.nctl ++ data
        let d := (refusedRecs o.runs granted).foldl (refuseRecord x.uid) d
        let d := sendTo (modOut d x.uid o.dst fun o => { o with ready := true, cells := cells }) x.uid o.dst cells.length
        if o.early then endOut d x.uid o.dst else d

def execSlcGrant (port : Nat) (c : Cell) (s : State) := onDev (fun d => onCell d port c [tyGrant] (grantCell c)) s

/-- The source still needs the grants of a GLOBAL transfer, to rewrite its refused records (R141). -/
def awaitsGrants (x : Exch) (o : OutXfer) : Bool := !x.combine && xdGlobal x.desc && !o.ready && !o.runs.isEmpty

/-- SLC_ACK: a transfer ends with its early credit, or an SLC_ABORT is acknowledged (R156, R538). An ACK that
overtakes the grant cells ends the transfer when they have come (R185). -/
def ackCell (c : Cell) (d : Dev) : Dev :=
  if bit (payBits c) 32 then
    let k (a : PendingAbort) : Bool := a.cell.dest == c.src && a.cell.part == c.part && a.id.toNat == fld (payBits c) 31 0
    { d with slc := { d.slc with aborts := d.slc.aborts.filter fun a => !k a } }
  else match findOut d c with
    | some (x, o) =>
      let d := if awaitsGrants x o then modOut d x.uid o.dst fun o => { o with early := true, timing := false } else endOut d x.uid o.dst
      if c.off = 0 then d
      else { d with slc := { d.slc with credits := d.slc.credits ++ [⟨x.part, c.src, o.part, true, c.off.toNat, 0, []⟩] } }
    | none => d

def execSlcAck (port : Nat) (c : Cell) (s : State) := onDev (fun d => onCell d port c [tySlcAck] (ackCell c)) s

/-- The exchange of an SLC_ABORT is one that this member has completed: its record is still here, or it ended less
than TIMEOUT_US × (RETRIES + 1) ago, for as long as the SLC_ABORT may be resent (R161, log 29). -/
def endedHere (d : Dev) (p : Nat) (id : U32) (combine : Bool) : Bool :=
  (d.slc.exch.any fun x => x.part == p && x.id == id && x.combine == combine) ||
  d.slc.past.any fun x => x.part == p && x.id == id && x.combine == combine && decide (d.time.now < x.until_)

/-- An SLC_ABORT that waits for the posting of its exchange. -/
def abortHeld (d : Dev) (c : Cell) (id : U32) : Bool :=
  d.slc.store.any fun s => s.cell.ty.toNat == tyAbort && s.cell.src == c.src && s.cell.part == c.part &&
    s.cell.combine == c.combine && fld (payBits s.cell) 31 0 == id.toNat

/-- SLC_ABORT: it ends the open exchange, or waits until the exchange is posted; one of a completed exchange changes
nothing. It is acknowledged in every case (R161, R163, R538). -/
def abortCell (c : Cell) (d : Dev) : Dev :=
  let id : U32 := BitVec.ofNat 32 (fld (payBits c) 31 0)
  let p := c.part.toNat
  let d : Dev := match (openX d p id).filter fun x => x.combine == c.combine with
    | some x => endByAbort d x c
    | none => if endedHere d p id c.combine ∨ abortHeld d c id ∨ !(d.part p).valid then d else storeCell d c
  answerSlc d c tySlcAck 0 (pack 512 [(0, id.toNat), (32, 1)])

def execSlcAbort (port : Nat) (c : Cell) (s : State) := onDev (fun d => onCell d port c [tyAbort] (abortCell c)) s

/-! ### Tags taken, completion, abort (R133, R154, R163) -/

def execExchangeTagsTaken (p : Nat) (exch : U32) (s : State) :=
  onDev (fun d =>
    match d.slc.exch.find? fun x => x.part == p && x.id == exch && x.phase == .waitTags with
    | some x => takeTags d x
    | none => d) s

/-- The conditions of R133. -/
def exchDone (x : Exch) : Bool :=
  x.outs.all (·.ended) &&
  (if x.status ≠ 0 then x.phase == .ended
   else x.phase == .running && x.ins.all (·.complete) && (!x.combine || decide (x.summed.length = x.tokens)))

def removeX (d : Dev) (uid : Nat) : Dev :=
  { d with slc := { d.slc with exch := d.slc.exch.filter fun x => x.uid != uid } }

/-- The exchange has ended here, and is remembered for a while (log 29). -/
def closeX (d : Dev) (x : Exch) : Dev :=
  let past := d.slc.past.filter fun y => decide (d.time.now < y.until_)
  let d := removeX d x.uid
  { d with slc := { d.slc with past := past ++ [⟨x.part, x.id, x.combine, d.time.now + slcLife d.slc.cfg⟩] } }

/-- A DISPATCH that ended OK leaves its areas to the COMBINE of the same layer, whose end sets them free (R172). -/
def keepAreas (d : Dev) (x : Exch) : Dev :=
  let others := d.slc.kept.filter fun k => !k.ofLayer x.part x.desc
  let kept := if x.combine then others
    else if x.wrote || x.status != 0 then d.slc.kept
    else others ++ [⟨x.part, x.sub, xdRec x.desc, xdCnt x.desc, exchAreas d x⟩]
  { d with slc := { d.slc with kept := kept } }

/-- EXCHANGE_COMPLETE: STATUS_WORD, then DONE_SEM (R133). -/
def exchComplete (p : Nat) (exch : U32) (d : Dev) : Dev :=
  match d.slc.exch.find? fun x => x.part == p && x.id == exch && exchDone x with
  | none => d
  | some x =>
    let d := keepAreas (closeX d x) x
    if x.wrote then d
    else
      let d := writeStatus d x
      if x.signal then addSem d p (xdDone x.desc) 1 else d

def execExchangeComplete (p : Nat) (exch : U32) (s : State) := onDev (exchComplete p exch) s

/-- EXCHANGE_ABORT: the submission ended or was aborted, or the partition is destroyed (R163). An exchange that has failed
already keeps its STATUS, which R161 and R163 leave open (DESIGN CHOICE, log 80). -/
def abortX (gone : Bool) (d : Dev) (x : Exch) : Dev :=
  let d := slcFail d x.uid sAborted 13 noPeer []
  match findX d x.uid with
  | none => d
  | some y =>
    let d := if gone ∨ y.wrote then d else writeStatus d y
    let d := modX d y.uid fun x => { x with wrote := true, signal := false }
    if y.outs.all (·.ended) then closeX d y else d

/-- The exchanges of a submission that ends are aborted, and no COMBINE of it is waited for any more (R163, R172). -/
def abortSub (d : Dev) (p : Nat) (sub : U32) : Dev :=
  let d := { d with slc := { d.slc with kept := d.slc.kept.filter fun k => !(k.part == p && k.sub == sub) } }
  (d.slc.exch.filter fun x => x.part == p && x.sub == sub && !x.wrote).foldl (abortX false) d

/-- A partition goes away: its exchanges are aborted, and its stored cells and early credits are dropped (R156). -/
def slcForget (d : Dev) (p : Nat) : Dev :=
  let d := (d.slc.exch.filter fun x => x.part == p && !x.wrote).foldl (abortX true) d
  let bufs := (d.slc.credits.filter fun c => !c.source && c.part == p).flatMap fun c => c.bufs.map fun b => (c.pool, b)
  let d := freeAll d bufs
  { d with slc := { d.slc with
      store := d.slc.store.filter fun s => s.cell.part.toNat != p
      credits := d.slc.credits.filter fun c => (c.source || c.part != p) && (!c.source || c.own != p)
      past := d.slc.past.filter fun x => x.part != p
      kept := d.slc.kept.filter fun k => k.part != p
      queries := d.slc.queries.filter fun q => q.part != p || q.rill } }

/-- An exchange of the partition is open. -/
def slcBusy (d : Dev) (p : Nat) : Bool := d.slc.exch.any fun x => x.part == p && !x.wrote

/-! ### Timers (R138, R156, R157, R538) -/

/-- The cells of a transfer that have been sent, resent with RETRY (R157). -/
def resendOut (d : Dev) (x : Exch) (o : OutXfer) (retry : Bool) (n : Nat) : Dev :=
  sendAll d x.part ((o.cells.take n).map fun c => { c with tag := BitVec.ofNat 13 (o.tag.getD 0), retry := retry })

/-- SLC_TRANSFER_TIMEOUT: a resend, or the peer's escalation (R157, R412). -/
def slcTimeout (p : Nat) (exch : U32) (dst : Nat) (d : Dev) : Dev :=
  match d.slc.exch.findSome? fun x =>
      if x.part = p ∧ x.id = exch then (x.outs.find? fun o => o.dst == dst && o.timing && !o.ended).map fun o => (x, o) else none with
  | none => d
  | some (x, o) =>
    if o.retries < slcRetries o.cfg then
      resendOut (slcErr (modOut d x.uid dst fun o => { o with retries := o.retries + 1 }) 1) x o true o.sent
    else escalate (slcErr (modOut d x.uid dst fun o => { o with timing := false }) 2) o.dev false

def execSlcTransferTimeout (p : Nat) (exch : U32) (dst : Nat) (s : State) := onDev (slcTimeout p exch dst) s

/-- SLC_DEFER_RESEND: count, directory and record index cells again, not a retry (R138). -/
def slcDefer (p : Nat) (exch : U32) (dst : Nat) (d : Dev) : Dev :=
  match d.slc.exch.findSome? fun x =>
      if x.part = p ∧ x.id = exch then (x.outs.find? fun o => o.dst == dst && o.deferred && !o.ended).map fun o => (x, o) else none with
  | none => d
  | some (x, o) => resendOut (modOut d x.uid dst fun o => { o with deferred := false, timing := true }) x o false o.nctl

def execSlcDeferResend (p : Nat) (exch : U32) (dst : Nat) (s : State) := onDev (slcDefer p exch dst) s

/-- EARLY_CREDIT_LAPSE: the source's unused credit ends, or the destination's reservation, unless
cells of a transfer that uses it have come (R156). -/
def creditLapse (dev : DevId) (p : Nat) (source : Bool) (d : Dev) : Dev :=
  let k (c : EarlyCredit) : Bool := c.source == source && c.dev == dev && c.part == p
  let inUse := !source && d.slc.store.any fun s => s.cell.src == dev && s.cell.part.toNat == p
  match d.slc.credits.find? k with
  | some c =>
    if inUse then d
    else
      let d := { d with slc := { d.slc with credits := dropFirst k d.slc.credits } }
      freeAll d (c.bufs.map fun b => (c.pool, b))
  | none => d

def execEarlyCreditLapse (dev : DevId) (p : Nat) (source : Bool) (s : State) := onDev (creditLapse dev p source) s

/-- SLC_ABORT_RESEND: resent, or its receiver escalated, once, after RETRIES resends (R538). R165 does not say whether a
write of RETRIES reaches an SLC_ABORT under way: the present SLC_CFG counts (DESIGN CHOICE, log 80). -/
def abortResend (p : Nat) (exch : U32) (dev : DevId) (d : Dev) : Dev :=
  let k (a : PendingAbort) : Bool := a.part == p && a.id == exch && a.cell.dest == dev
  match d.slc.aborts.find? k with
  | none => d
  | some a =>
    let set (f : PendingAbort → PendingAbort) : Dev := { d with slc := { d.slc with aborts := updFirst k f d.slc.aborts } }
    if a.resends < slcRetries d.slc.cfg then
      sendFor (set fun a => { a with resends := a.resends + 1 }) a.part { a.cell with retry := true }
    else if a.escalated then d
    else escalate (slcErr (set fun a => { a with escalated := true }) 2) dev false

def execSlcAbortResend (p : Nat) (exch : U32) (dev : DevId) (s : State) := onDev (abortResend p exch dev) s

/-! ### Peers: resend after a LINK fault, loss, queries (R157, R162, R164) -/

/-- After fault handling re-routed around a link, the transfers to the peer are resent once more, and counted (R157,
R170). -/
def slcResendTo (d : Dev) (peer : DevId) : Dev :=
  let d := d.slc.exch.foldl (fun d x => (x.outs.filter fun o =>
    o.dev == peer && !o.ended && o.tag.isSome && decide (o.retries ≥ slcRetries o.cfg) && !o.timing && !o.deferred).foldl (fun d o =>
      resendOut (slcErr (modOut d x.uid o.dst fun o => { o with timing := true }) 1) x o true o.sent) d) d
  (d.slc.aborts.filter fun a => a.cell.dest == peer && decide (a.resends ≥ slcRetries d.slc.cfg)).foldl (fun d a =>
    sendFor d a.part { a.cell with retry := true }) d

/-- A peer is lost or fenced: transfers with it end, and its exchanges with INTERNAL (R164). -/
def slcFenceDevice (d : Dev) (dev : DevId) : Dev :=
  let d := d.slc.exch.foldl (fun d x =>
    match x.peers.findIdx? fun q => q.1 == dev with
    | some r =>
      if r = x.rank then d
      else
        let d := endOut d x.uid r
        slcFail d x.uid sInternal 11 r [r]
    | none => d) d
  let d := d.slc.exch.foldl (fun d x => (x.outs.filter fun o => o.dev == dev).foldl (fun d o => endOut d x.uid o.dst) d) d
  let bufs := (d.slc.credits.filter fun c => !c.source && c.dev == dev).flatMap fun c => c.bufs.map fun b => (c.pool, b)
  let d := freeAll d bufs
  { d with slc := { d.slc with
      store := d.slc.store.filter fun s => s.cell.src != dev
      credits := d.slc.credits.filter fun c => c.dev != dev
      aborts := d.slc.aborts.filter fun a => a.cell.dest != dev
      queries := d.slc.queries.filter fun q => q.dev != dev } }

/-- A waiting member's own first cell has left towards the peer, whose first cell has not come. -/
def slcWaits (x : Exch) (dev : DevId) : Bool :=
  x.status == 0 && x.phase == .running &&
  (x.outs.any fun o => o.dev == dev && decide (o.sent > 0)) && (x.ins.any fun i => i.dev == dev && !i.own && i.count.isNone)

def queryPay (rill : Bool) (state status : Nat) (id seq : Nat) : BitVec 512 :=
  pack 512 [(0, b2n rill), (8, state), (16, status), (32, id), (64, seq)]

/-- A PEER_QUERY on VC0, remembered until it is answered. -/
def sendQuery (d : Dev) (rill : Bool) (p : Nat) (id seq : U32) (dev : DevId) (part : Nat) : Dev :=
  let q : Query := ⟨rill, p, id, seq, dev⟩
  let qs := if d.slc.queries.contains q then d.slc.queries else d.slc.queries ++ [q]
  let d := { d with slc := { d.slc with queries := qs } }
  route d (mkCell d dev 0 tyPeerQuery part 0 0 (.bits (queryPay rill 0 0 id.toNat seq.toNat)))

def slcQueryTimer (p : Nat) (id : U32) (dev : DevId) (d : Dev) : Dev :=
  match openX d p id with
  | some x =>
    if slcWaits x dev then
      let part := ((x.peers.find? fun q => q.1 == dev).map (·.2)).getD 0
      sendQuery d false p id 0 dev part
    else d
  | none => d

/-- The partition may still post the operation: pausing, paused, or with an open submission. -/
def mayPost (d : Dev) (p : Nat) : Bool :=
  let x := d.part p
  x.st == .pausing || x.st == .paused || (x.valid && !x.subs.isEmpty)

/-- What this engine answers about an operation: STATE and STATUS (R162). The count cells of an aborted DISPATCH that
are still to be sent or acknowledged are in flight: OPEN. -/
def slcState (d : Dev) (p : Nat) (id : U32) : Nat × Nat :=
  match openX d p id with
  | some x =>
    if x.status ≠ 0 ∧ d.slc.failed.any (fun f => f.part == p && f.id == id) then (2, x.status.toNat) else (0, 0)
  | none =>
    if d.slc.exch.any fun x => x.part == p && x.id == id && x.outs.any fun o => !o.ended then (0, 0)
    else match (d.slc.failed.filter fun f => f.part == p && f.id == id).getLast? with
    | some f => (2, f.status.toNat)
    | none => if mayPost d p then (1, 0) else (3, 0)

/-- PEER_STATE at a waiting member: FAILED and IDLE end the exchange, naming the peer (R162). -/
def slcPeerState (c : Cell) (d : Dev) : Dev :=
  let pay := payBits c
  let id := fld pay 63 32
  let st := fld pay 9 8
  let hits := d.slc.exch.filter fun x => x.id.toNat == id && slcWaits x c.src &&
    x.peers.any fun q => q.1 == c.src && q.2 == c.part.toNat
  hits.foldl (fun d x =>
    let d := { d with slc := { d.slc with queries := d.slc.queries.filter fun q =>
      !(!q.rill && q.part == x.part && q.id == x.id && q.dev == c.src) } }
    let r := (x.peers.findIdx? fun q => q.1 == c.src).getD 0
    if st = 2 then slcFail d x.uid sProgFault 9 r []
    else if st = 3 then slcFail d x.uid sProgFault 10 r []
    else d) d

end Sys2Proof.Machine
end

