-- ==== Sys2Proof/Machine/Rill.lean ====
section
/-! DEFINITION. Rill, part 1: communicators, descriptors, the plan of stages, posting, sending,
releasing slots, the verdict round and ending (R234 to R258). -/

namespace Sys2Proof.Machine

/-! ### Communicators (R234, R235) -/

def cmId (c : BitVec 192) : Nat := fld c 31 0
def cmN1 (c : BitVec 192) : Nat := fld c 35 32
def cmN2 (c : BitVec 192) : Nat := fld c 39 36
def cmN3 (c : BitVec 192) : Nat := fld c 48 40
def cmRank (c : BitVec 192) : Nat := fld c 77 64
def cmPool (c : BitVec 192) : Nat := fld c 85 80
def cmValid (c : BitVec 192) : Bool := bit c 86
def cmMembers (c : BitVec 192) : Nat := fld c 143 96
def cmNext (c : BitVec 192) : Nat := fld c 175 144
def cmN (c : BitVec 192) : Nat := cmN1 c * cmN2 c * cmN3 c

def commOf (d : Dev) (p comm : Nat) : BitVec 192 := tgetD (d.part p).comms comm 0

/-- Members of a level, 0 to 2 for L1 to L3. -/
def levelSize (c : BitVec 192) : Nat → Nat
  | 0 => cmN1 c
  | 1 => cmN2 c
  | _ => cmN3 c

/-- A rank's coordinate at a level. -/
def coord (c : BitVec 192) (r : Nat) : Nat → Nat
  | 0 => r % cmN1 c
  | 1 => r / cmN1 c % cmN2 c
  | _ => r / (cmN1 c * cmN2 c)

/-- The rank with another coordinate at one level. -/
def withCoord (c : BitVec 192) (r l v : Nat) : Nat :=
  let at_ (k : Nat) : Nat := if k = l then v else coord c r k
  at_ 0 + cmN1 c * (at_ 1 + cmN2 c * at_ 2)

/-- The members of r's level, r included, by level rank. -/
def levelMembers (c : BitVec 192) (r l : Nat) : List Nat := (List.range (levelSize c l)).map (withCoord c r l)

/-- The first n coordinates agree. -/
def sameUpTo (c : BitVec 192) (a b n : Nat) : Bool := (List.range n).all fun l => coord c a l == coord c b l

/-! ### Descriptors (R237) -/

def ldOp (x : BitVec 512) : Nat := fld x 2 0
def ldRed (x : BitVec 512) : Nat := fld x 4 3
def ldType (x : BitVec 512) : Nat := fld x 9 5
def ldCsum (x : BitVec 512) : Bool := bit x 10
def ldRetain (x : BitVec 512) : Bool := bit x 11
def ldChunk (x : BitVec 512) : Nat := fld x 14 12
def ldCsig (x : BitVec 512) : Bool := bit x 15
def ldRoot (x : BitVec 512) : Nat := fld x 29 16
def ldLen (x : BitVec 512) : Nat := fld x 71 32
def ldDone (x : BitVec 512) : Nat := fld x 81 72
def ldChunkSem (x : BitVec 512) : Nat := fld x 91 82
def ldSrc (x : BitVec 512) : Nat := fld x 143 96
def ldDst (x : BitVec 512) : Nat := fld x 207 160
def ldBucket (x : BitVec 512) : Nat := fld x 255 224

def opAllReduce : Nat := 0
def opReduceScatter : Nat := 1
def opAllGather : Nat := 2
def opBroadcast : Nat := 3
def opAllToAll : Nat := 4
def opBarrier : Nat := 5

def Coll.op (x : Coll) : Nat := ldOp x.desc
def Coll.me (x : Coll) : Nat := cmRank x.cm
def Coll.size (x : Coll) : Nat := cmN x.cm

/-- A reduction of BSI48 blocks. -/
def Coll.bsi (x : Coll) : Bool := (x.op == opAllReduce || x.op == opReduceScatter) && ldType x.desc == 0x0A

/-! ### The plan (R240, R243) -/

def stagesOf : Nat → List Nat
  | 0 => [0, 1, 2, 3, 4, 5]
  | 1 => [0, 1, 2]
  | 2 => [3, 4, 5]
  | 3 => [3, 4, 5]
  | 4 => [6]
  | 5 => [0, 1, 2]
  | _ => []

def Coll.stages (x : Coll) : List Nat := stagesOf x.op

/-- The level of a stage: 0 to 2, or 3 for the direct stage. -/
def stageLevel : Nat → Nat
  | 0 => 0
  | 1 => 1
  | 2 => 2
  | 3 => 2
  | 4 => 1
  | 5 => 0
  | _ => 3

def isReducing (x : Coll) (st : Nat) : Bool := st < 3 && (x.op == opAllReduce || x.op == opReduceScatter)

def stagePeers (x : Coll) (st : Nat) : List Nat :=
  if st = 6 then (List.range x.size).filter (· != x.me)
  else (levelMembers x.cm x.me (stageLevel st)).filter (· != x.me)

/-- Every peer of every stage. -/
def allPeers (x : Coll) : List Nat := (x.stages.flatMap (stagePeers x)).eraseDups

def nextStage (x : Coll) (st : Nat) : Option Nat := x.stages.find? (st < ·)

/-- q, the slice (R243). -/
def sliceOf (logc n : Nat) : Nat := 2 ^ logc / n / 256 * 256

def Coll.q (x : Coll) : Nat := sliceOf x.chunkLog2 x.size

/-- Bytes from one chunk to the next within a block, or within LEN for a BROADCAST. -/
def Coll.base (x : Coll) : Nat := if x.op = opBroadcast then 2 ^ x.chunkLog2 else x.q

def sliceLen (x : Coll) (c : Nat) : Nat := min x.base (ldLen x.desc - c * x.base)

/-- The ranks whose slices member a sends to member b at a stage; none for an EMPTY transfer. -/
def sliceKeys (x : Coll) (st a b : Nat) : Option (List Nat) :=
  if x.op = opBarrier then none
  else if x.op = opBroadcast then
    if sameUpTo x.cm a (ldRoot x.desc) (stageLevel st + 1) then some [0] else none
  else if st = 6 then some [b]
  else
    let t := if st < 3 then b else a
    some ((List.range x.size).filter fun k => sameUpTo x.cm k t (stageLevel st + 1))

/-- Bytes of the transfer that peer r sends here. -/
def needBytes (x : Coll) (st c r : Nat) : Nat :=
  match sliceKeys x st r x.me with
  | some ks => ks.length * sliceLen x c
  | none => 0

/-- The last reducing stage whose level has more than one member (R278). -/
def lastReducing (x : Coll) : Nat := (([2, 1, 0] : List Nat).find? fun st => levelSize x.cm st > 1).getD 2

/-- The stage's contributions are to be retained (R255, R278). -/
def retains (x : Coll) (st : Nat) : Bool := ldRetain x.desc && x.bsi && isReducing x st && st == lastReducing x

/-- The descriptor hash (R251). -/
def collHash (x : Coll) : Nat :=
  crc64 (toLe 4 (cmId x.cm) ++ toLe 4 x.seq.toNat ++ toLe 8 (ldLen x.desc) ++
    [x.op, ldRed x.desc, ldType x.desc, x.chunkLog2].map (BitVec.ofNat 8) ++ toLe 2 (ldRoot x.desc) ++
    [BitVec.ofNat 8 (b2n (ldCsum x.desc) + 2 * b2n (ldRetain x.desc))] ++ List.replicate 9 0)

/-! ### Access -/

def findC (d : Dev) (uid : Nat) : Option Coll := d.rill.colls.find? fun x => x.uid == uid

def modC (d : Dev) (uid : Nat) (f : Coll → Coll) : Dev :=
  { d with rill := { d.rill with colls := updFirst (fun x => x.uid == uid) f d.rill.colls } }

/-- The collective that runs on a communicator: the first not ended (R236). -/
def curC (d : Dev) (p comm : Nat) : Option Coll :=
  d.rill.colls.find? fun x => x.part == p && x.comm == comm && !x.ended

def seqC (d : Dev) (p comm : Nat) (seq : Nat) : Option Coll :=
  d.rill.colls.find? fun x => x.part == p && x.comm == comm && x.seq.toNat == seq

def rillErr (d : Dev) (i : Nat) : Dev := { d with rill := { d.rill with err := bump d.rill.err i 1 } }

def rillFlag (d : Dev) (p fl : Nat) : Dev :=
  d.modPart p fun x => { x with rillFlags := x.rillFlags ||| BitVec.ofNat 32 fl }

def Coll.retryLimit (x : Coll) : Nat := fld x.cfg 19 16

/-- One collective runs and 16 wait (R236). -/
def collRoom (d : Dev) (p comm : Nat) : Bool :=
  decide ((d.rill.colls.filter fun x => x.part == p && x.comm == comm && !x.ended).length < 17)

/-- Chunks in flight on the device (R247). -/
def chunksInFlight (d : Dev) : Nat :=
  (d.rill.colls.filter fun x => !x.ended).foldl (fun a x => a + (x.started - x.done)) 0

def rankOfDev (x : Coll) (dev : DevId) : Option Nat := (x.mem.findIdx? (· == dev)).filter (· != x.me)

def getSlot (x : Coll) (st c : Nat) : Option Slot := x.slots.find? fun s => s.stage == st && s.chunk == c

def modSlot (d : Dev) (uid st c : Nat) (f : Slot → Slot) : Dev :=
  modC d uid fun x => { x with slots := updFirst (fun s => s.stage == st && s.chunk == c) f x.slots }

def newSlot (x : Coll) (st c : Nat) : Slot :=
  { stage := st, chunk := c, own := none, rx := [], cells := [], unsent := stagePeers x st, bad := [], summed := false
    retained := !retains x st }

/-- The slot of a chunk exists afterwards. -/
def needSlot (d : Dev) (uid st c : Nat) : Dev :=
  modC d uid fun x => if (getSlot x st c).isSome then x else { x with slots := x.slots ++ [newSlot x st c] }

def freedOf (x : Coll) (st : Nat) : Nat := tgetD x.freed st 0

/-- The chunk's slot has been released. -/
def isReleased (x : Coll) (st c : Nat) : Bool := decide (c < freedOf x st) || (tgetD x.above st []).contains c

/-- Slot c mod 4 of the stage is free for chunk c (R244). -/
def slotFree (x : Coll) (st c : Nat) : Bool := decide (c < 4) || isReleased x st (c - 4)

def outOf (x : Coll) (st c r : Nat) : Option CollXfer := x.outs.find? fun o => o.stage == st && o.chunk == c && o.peer == r

def modOutC (d : Dev) (uid st c r : Nat) (f : CollXfer → CollXfer) : Dev :=
  modC d uid fun x => { x with outs := updFirst (fun o => o.stage == st && o.chunk == c && o.peer == r) f x.outs }

/-- The peer's OPEN is held with STATUS OK and the same hash (R252). -/
def matched (x : Coll) (r : Nat) : Bool :=
  match tget x.opens r with
  | some o => o.1 == 0 && o.2.toNat == collHash x
  | none => false

def allOpens (x : Coll) : Bool := (allPeers x).all fun r => (tget x.opens r).isSome

/-- Its OPEN cells, with STATUS OK, are due or sent: its slots are held. -/
def Coll.opened (x : Coll) : Bool := x.openStatus == some 0

/-! ### Cells (R248, R249) -/

def collTag (comm st c : Nat) : Nat := 32 * comm + 4 * st + c % 4

def tagComm (c : Cell) : Nat := fld c.tag 12 5
def tagStage (c : Cell) : Nat := fld c.tag 4 2

def ctlPay (kind seq : Nat) (fields : List (Nat × Nat)) : Payload := .bits (pack 512 ([(0, kind), (64, seq)] ++ fields))

/-- A control cell to a member, with its chunk's bits in TAG and OFFSET. -/
def collCell (d : Dev) (x : Coll) (r st c kind : Nat) (fields : List (Nat × Nat)) : Cell :=
  mkCell d (x.mem.getD r 0) 0 tyCollAck x.part (collTag x.comm st c) (131072 * (c % 64)) (ctlPay kind x.seq.toNat fields)

def sendCtl (d : Dev) (x : Coll) (r st c kind : Nat) (fields : List (Nat × Nat)) : Dev :=
  sendFor d x.part (collCell d x r st c kind fields)

/-- An OPEN, ABORT or MISMATCH: sent, and kept until it is acknowledged (R250). -/
def sendKept (d : Dev) (x : Coll) (r kind level : Nat) (fields : List (Nat × Nat)) : Dev :=
  let c := collCell d x r 7 0 kind fields
  let k : CollCtl := ⟨x.part, x.comm, x.seq, kind, level, r, c⟩
  sendFor { d with rill := { d.rill with ctl := d.rill.ctl ++ [k] } } x.part c

def kOpen : Nat := 0
def kOpenAck : Nat := 1
def kAck : Nat := 2
def kFree : Nat := 3
def kProbe : Nat := 4
def kEmpty : Nat := 5
def kNak : Nat := 6
def kAbort : Nat := 7
def kMismatch : Nat := 8

/-- No new collective of the communicator starts towards a peer to which a transfer of another one was
resent a moment ago (R254). -/
def openHeld (d : Dev) (x : Coll) (r : Nat) : Bool :=
  d.rill.holds.any fun h => h.part == x.part && h.comm == x.comm && h.peer == r && h.seq != x.seq

/-- No chunk 64 higher in the same stage starts towards the peer, and none of a new collective (R254). -/
def chunkHeld (d : Dev) (x : Coll) (st c r : Nat) : Bool :=
  d.rill.holds.any fun h => h.part == x.part && h.comm == x.comm && h.peer == r &&
    (h.seq != x.seq || (h.stage == st && decide (h.chunk + 64 ≤ c)))

/-- OPEN cells that are due, then ABORT cells behind them (R250, R257). -/
def sendDue (d : Dev) (uid : Nat) : Dev :=
  match findC d uid with
  | none => d
  | some x =>
    let d := match x.openStatus with
      | none => d
      | some st => ((allPeers x).filter fun r => !x.openSent.contains r && !openHeld d x r).foldl (fun d r =>
          sendKept (modC d uid fun x => { x with openSent := x.openSent ++ [r] }) x r kOpen 0
            [(8, st.toNat), (24, x.me), (192, collHash x)]) d
    match findC d uid, x.abort with
    | some x, some (st, cause, rank) =>
      ((allPeers x).filter fun r => x.openSent.contains r && !x.abortSent.contains r).foldl (fun d r =>
        sendKept (modC d uid fun x => { x with abortSent := x.abortSent ++ [r] }) x r kAbort 0
          [(8, st.toNat), (16, cause), (24, rank)]) d
    | _, _ => d

/-! ### Sending a chunk's transfers (R240, R245, R250) -/

def freedByOf (x : Coll) (st r : Nat) : Nat := tgetD x.freedBy (16384 * st + r) 0

/-- The window towards the peer is open for the chunk (R245). -/
def windowOpen (x : Coll) (st c r : Nat) : Bool := decide (c < freedByOf x st r + 4)

/-- The cells of a transfer of the own contribution. -/
def xferCells (d : Dev) (x : Coll) (st c r : Nat) (own : Tbl (List Byte)) : List Cell × Bool :=
  match sliceKeys x st x.me r with
  | none => ([collCell d x r st c kEmpty [(96, c)]], true)
  | some ks =>
    let bytes := ks.flatMap fun k => tgetD own k []
    let cell (i : Nat) (b : List Byte) : Cell :=
      mkCell d (x.mem.getD r 0) 3 tyCollData x.part (collTag x.comm st c) (131072 * (c % 64) + i) (bytesPay b)
    ((chunks 64 bytes).mapIdx cell, false)

/-- Bytes moved in slots use the partition's DRAM tokens while the slots lie in DRAM; a BARRIER has no
slots (R244, R366). -/
def slotTokens (d : Dev) (x : Coll) : Bool := x.op == opBarrier || !(poolOf d (cmPool x.cm)).inDram || weirOk d x.part 0

/-- Bytes moved in slots are charged while the slots lie in DRAM (R366). -/
def chargeSlots (d : Dev) (x : Coll) (n : Nat) : Dev :=
  if (poolOf d (cmPool x.cm)).inDram then weirCharge d x.part 0 n else d

/-- The transfer to one peer may go out, as far as the collective itself is concerned (R244, R245, R254). -/
def sendOpen (d : Dev) (x : Coll) (st c r : Nat) : Bool := x.openSent.contains r && windowOpen x st c r && !chunkHeld d x st c r

/-- Sends the transfer to one peer if nothing holds it back; its bytes are read from the slot. -/
def trySend (uid st c : Nat) (d : Dev) (r : Nat) : Dev :=
  match findC d uid with
  | none => d
  | some x =>
    match getSlot x st c with
    | none => d
    | some s =>
      match s.own with
      | none => d
      | some own =>
        let (cells, empty) := xferCells d x st c r own
        if sendOpen d x st c r && (empty || (weirOk d x.part 2 && slotTokens d x)) then
          let d := if empty then d else chargeSlots d x (64 * cells.length)
          let d := modC d uid fun x => { x with
            slots := updFirst (fun s => s.stage == st && s.chunk == c) (fun s => { s with unsent := s.unsent.filter (· != r) }) x.slots
            outs := x.outs ++ [⟨st, c, r, cells, empty, false, 0, !empty⟩] }
          sendAll d x.part cells
        else d

/-! ### Releasing slots (R244, R245) -/

def raiseFreed : Nat → Nat → List Nat → Nat
  | 0, f, _ => f
  | n + 1, f, above => if above.contains f then raiseFreed n (f + 1) above else f

/-- The slot is released; a risen FREED is reported to every peer of the stage. A BARRIER has no slots
and reports none (R244, R245). -/
def releaseSlot (d : Dev) (uid st c : Nat) : Dev :=
  match findC d uid with
  | none => d
  | some x =>
    let above := c :: tgetD x.above st []
    let f := raiseFreed above.length (freedOf x st) above
    let d := modC d uid fun x => { x with
      slots := x.slots.filter fun s => !(s.stage == st && s.chunk == c)
      freed := tput x.freed st f
      above := tput x.above st (above.filter fun k => decide (f ≤ k)) }
    if f > freedOf x st && x.op != opBarrier then (stagePeers x st).foldl (fun d r => sendCtl d x r st 0 kFree [(128, f)]) d else d

/-- A slot whose output has been written onward, and whose contribution has been sent and, where
asked, retained, is released. -/
def tryRelease (uid : Nat) (d : Dev) (sc : Nat × Nat) : Dev :=
  match (findC d uid).bind fun x => getSlot x sc.1 sc.2 with
  | some s => if s.summed && s.retained && s.unsent.isEmpty then releaseSlot d uid sc.1 sc.2 else d
  | none => d

/-- Sends every transfer that may go, and releases what is done with. -/
def pumpColl (d : Dev) (uid : Nat) : Dev :=
  match findC d uid with
  | none => d
  | some x =>
    let d := x.slots.foldl (fun d s => s.unsent.foldl (trySend uid s.stage s.chunk) d) d
    (x.slots.map fun s => (s.stage, s.chunk)).foldl (tryRelease uid) d

/-! ### Ending (R246, R253, R256 to R258) -/

/-- The level at which a rank is a level peer, 3 for none or direct. -/
def levelOf (x : Coll) (r : Nat) : Nat :=
  if x.op = opAllToAll ∨ r ≥ x.size then 3
  else match ([0, 1, 2] : List Nat).filter fun l => coord x.cm r l != coord x.cm x.me l with
    | [l] => l
    | _ => 3

def noRank : Nat := 0x3FFF

/-- STATUS_WORD (R256). -/
def collWord (x : Coll) (status cause rank : Nat) : Nat :=
  packNat [(0, status), (8, rank), (22, levelOf x rank), (24, cause), (32, b2n x.ovf), (33, b2n x.nf), (34, b2n x.satd),
    (35, b2n x.csumFixed)]

/-- STATUS_WORD is written, and DONE_SEM signalled, for a collective a task posted; the sequencer is
told of its own. -/
def reportColl (d : Dev) (x : Coll) (status cause rank : Nat) (signal : Bool) : Dev :=
  let d := match x.at_ with
    | some (n, a) =>
      let d := if viewOk (opQuota d x.part (.coll x.uid)) x.part a 64 then viewWrite d x.part n (a + 56) (toLe 8 (collWord x status cause rank)) else d
      if signal then addSem d x.part (ldDone x.desc) 1 else d
    | none => d
  match x.bucket with
  | some (i, role) => bucketEnded d x.part i role status x.csumFixed
  | none => d

/-- The collective ends here. `fwd` is the rank that a forwarded ABORT names. -/
def collEnd (d : Dev) (uid status cause rank : Nat) (signal : Bool) (fwd : Option Nat) : Dev :=
  match findC d uid with
  | none => d
  | some x =>
    if x.ended then d
    else
      let good := status = sOk ∨ status = sMismatch
      let pool := cmPool x.cm
      let cur := ((curC d x.part x.comm).map (·.uid)) == some uid
      let d := if status = sOk then d else logOp d sevError (some x.part) srcRill status cause rank x.seq.toNat (cmId x.cm)
      let d := dropWaits d fun w => w.part == x.part && (match w.who with
        | .slots u => u == uid
        | .retain c _ => cur && c == x.comm
        | _ => false)
      let d := freeBufs d pool x.bufs
      let d := if x.openStatus.isNone then
          { d with rill := { d.rill with failed := noteFailed d.rill.failed x.part (BitVec.ofNat 32 (cmId x.cm)) x.seq status } }
        else d
      let d := modC d uid fun x => { x with
        ended := true, slots := [], outs := [], bufs := [], slotsHeld := false
        openStatus := x.openStatus.orElse fun _ => some (BitVec.ofNat 8 status)
        abort := if good then none else some (BitVec.ofNat 8 status, cause, fwd.getD x.me)
        status := BitVec.ofNat 8 status, cause := cause, rank := rank }
      let d := if status = sMismatch then rillErr d 6 else d
      reportColl d x status cause rank signal

/-! ### The verdict round (R253) -/

def candOf (cause rank : Nat) : Nat := 16384 * cause + rank

def noCand : Nat := candOf 15 noRank

/-- The member's own candidate, from the OPENs it holds and from an EXP conflict. -/
def ownCand (x : Coll) : Nat :=
  let h := collHash x
  let hash := (x.opens.filter fun o => o.2.2.toNat != h).foldl (fun a o => min a (candOf 7 (max x.me o.1))) noCand
  match x.expCand with
  | some r => min hash (candOf 8 r)
  | none => hash

def levelPeers (x : Coll) (l : Nat) : List Nat := (levelMembers x.cm x.me l).filter (· != x.me)

/-- Level by level: MISMATCH to every level peer, behind the OPEN to it (R250), then the least of what they sent. -/
def verdictFuel : Nat → Nat → Dev → Dev
  | 0, _, d => d
  | n + 1, uid, d =>
    match findC d uid with
    | none => d
    | some x =>
      match x.verdict with
      | none => d
      | some v =>
        if v.level ≥ 3 then
          if x.ended then d else collEnd d uid sMismatch (v.cand / 16384) (v.cand % 16384) true none
        else
          let ps := levelPeers x v.level
          let key (r : Nat) : Nat := 16384 * v.level + r
          let due := ps.filter fun r => x.openSent.contains r && !v.sent.contains (key r)
          let v := { v with sent := v.sent ++ due.map key }
          let d := due.foldl (fun d r => sendKept d x r kMismatch v.level
              [(16, v.cand / 16384), (24, v.cand % 16384), (38, v.level)])
            (modC d uid fun x => { x with verdict := some v })
          let hits := x.got.filter fun g => g.1 == v.level && ps.contains g.2.1
          if ps.all fun r => v.sent.contains (key r) && hits.any fun g => g.2.1 == r then
            let cand := hits.foldl (fun a g => min a g.2.2) v.cand
            verdictFuel n uid (modC d uid fun x => { x with verdict := some { v with level := v.level + 1, cand := cand } })
          else d

/-- A member that holds every OPEN joins when it has a candidate or a MISMATCH has come; one that has
ended answers with the OPENs it holds (R253, R257). -/
def verdictStep (d : Dev) (uid : Nat) : Dev :=
  match findC d uid with
  | none => d
  | some x =>
    let due := x.verdict.isNone && (if x.ended then !x.got.isEmpty
      else x.opened && allOpens x && (ownCand x < noCand || !x.got.isEmpty))
    let d := if due then modC d uid fun x => { x with verdict := some ⟨0, [], ownCand x⟩ } else d
    verdictFuel 4 uid d

/-! ### Chunks complete (R246) -/

def signalFuel : Nat → Nat → Dev → Dev
  | 0, _, d => d
  | n + 1, uid, d =>
    match findC d uid with
    | none => d
    | some x =>
      if x.doneAbove.contains x.signalled then
        let d := if ldCsig x.desc && x.at_.isSome then addSem d x.part (ldChunkSem x.desc) 1 else d
        signalFuel n uid (modC d uid fun x => { x with
          signalled := x.signalled + 1, doneAbove := x.doneAbove.filter (· != x.signalled) })
      else d

/-- CHUNK_COMPLETE: chunk signals rise in ascending chunk order. -/
def chunkComplete (d : Dev) (uid c : Nat) : Dev :=
  let d := modC d uid fun x => { x with done := x.done + 1, doneAbove := x.doneAbove ++ [c] }
  signalFuel (((findC d uid).map (·.doneAbove.length)).getD 0) uid d

/-- The last chunk is complete, every transfer acknowledged and every slot released; with no chunks,
every OPEN matched and acknowledged (R239, R246). -/
def collDone (x : Coll) : Bool :=
  x.opened && x.verdict.isNone &&
  (if x.nchunk = 0 then (allPeers x).all fun r => matched x r && x.openAcked.contains r
   else x.done == x.nchunk && x.slots.isEmpty && x.outs.all (·.acked))

/-! ### Settling (R236, R239, R244, R250) -/

/-- A BARRIER's stages follow each other as soon as every EMPTY has come. -/
def barrierFuel : Nat → Nat → Dev → Dev
  | 0, _, d => d
  | n + 1, uid, d =>
    match findC d uid with
    | none => d
    | some x =>
      if x.op ≠ opBarrier ∨ x.verdict.isSome then d
      else
        let ready (s : Slot) : Bool := s.own.isSome && !s.summed && (stagePeers x s.stage).all fun r => (tget s.rx r).isSome
        match x.slots.find? ready with
        | none => d
        | some s =>
          let d := modSlot d uid s.stage s.chunk fun s => { s with summed := true }
          let d := match nextStage x s.stage with
            | some st => modSlot (needSlot d uid st s.chunk) uid st s.chunk fun s => { s with own := some [] }
            | none => chunkComplete d uid s.chunk
          barrierFuel n uid (pumpColl d uid)

/-- Slots are reserved, or none are needed: the OPEN cells are due. -/
def openColl (d : Dev) (uid : Nat) (bufs : List Nat) : Dev :=
  modC d uid fun x => { x with slotsHeld := true, bufs := bufs, openStatus := some 0 }

/-- An accepted collective reserves its slots, all of them or, while the pool cannot supply them, none (R244). -/
def askSlots (d : Dev) (uid : Nat) : Dev :=
  match findC d uid with
  | none => d
  | some x =>
    if x.ended ∨ x.openStatus.isSome then d
    else if x.nchunk = 0 ∨ x.op = opBarrier then openColl d uid []
    else match request d (cmPool x.cm) x.part (4 * x.stages.length) (.slots uid) with
      | (some is, d) => openColl d uid is
      | (none, d) => d

/-- Every effect that follows by itself from the state of a communicator's collectives. -/
def settleComm : Nat → Nat → Nat → Dev → Dev
  | 0, _, _, d => d
  | n + 1, p, comm, d =>
    let mine := (d.rill.colls.filter fun x => x.part == p && x.comm == comm).map (·.uid)
    let d := mine.foldl sendDue d
    let d := (mine.filter fun u => (findC d u).any fun x => x.ended && x.verdict.isSome).foldl verdictStep d
    match curC d p comm with
    | none => d
    | some x =>
      if x.openStatus.isNone then d
      else
        let d := verdictStep (barrierFuel 4 x.uid (pumpColl d x.uid)) x.uid
        match findC d x.uid with
        | none => d
        | some x =>
          if x.ended then settleComm n p comm d
          else if collDone x then settleComm n p comm (collEnd d x.uid sOk 0 noRank true none)
          else d

def settleColl (d : Dev) (p comm : Nat) : Dev := settleComm (2 * d.rill.colls.length + 4) p comm d

/-! ### Cells of collectives that may not be posted yet (R250, R253, R257) -/

def ctlSeq (c : Cell) : Nat := fld (payBits c) 95 64
def ctlKind (c : Cell) : Nat := fld (payBits c) 3 0
def ctlChunk (c : Cell) : Nat := fld (payBits c) 127 96

/-- An OPEN reaches its collective. -/
def takeOpen (d : Dev) (uid : Nat) (c : Cell) : Dev :=
  match findC d uid with
  | none => d
  | some x =>
    match rankOfDev x c.src with
    | none => d
    | some r =>
      if (tget x.opens r).isSome then d
      else
        let st := fld (payBits c) 15 8
        let d := modC d uid fun x => { x with opens := tput x.opens r (BitVec.ofNat 8 st, BitVec.ofNat 64 (fld (payBits c) 255 192)) }
        if st ≠ 0 ∧ x.verdict.isNone then collEnd d uid sProgFault 4 r true none else d

/-- An ABORT reaches its collective, unless that has ended or joined a verdict round. -/
def takeAbort (d : Dev) (uid : Nat) (c : Cell) : Dev :=
  match findC d uid with
  | none => d
  | some x =>
    let pay := payBits c
    let st := fld pay 15 8
    let rank := fld pay 37 24
    if x.ended ∨ x.verdict.isSome ∨ (rankOfDev x c.src).isNone then d
    else if st = sAborted ∨ st = sInternal then collEnd d uid st (fld pay 23 16) rank true (some rank)
    else collEnd d uid sProgFault 4 rank true (some rank)

/-- A MISMATCH reaches its collective. -/
def takeMismatch (d : Dev) (uid : Nat) (c : Cell) : Dev :=
  match findC d uid with
  | none => d
  | some x =>
    match rankOfDev x c.src with
    | none => d
    | some r =>
      let pay := payBits c
      let l := fld pay 39 38
      if x.got.any fun g => g.1 == l && g.2.1 == r then d
      else verdictStep (modC d uid fun x => { x with got := x.got ++ [(l, r, candOf (fld pay 23 16) (fld pay 37 24))] }) uid

/-- Cells stored for a collective just posted. -/
def absorbColl (d : Dev) (uid p comm seq : Nat) : Dev :=
  let mine (c : Cell) : Bool := c.part.toNat == p && tagComm c == comm && ctlSeq c == seq
  let cs := d.rill.store.filter mine
  let d := { d with rill := { d.rill with store := d.rill.store.filter fun c => !mine c } }
  cs.foldl (fun d c =>
    if ctlKind c = kOpen then takeOpen d uid c
    else if ctlKind c = kAbort then takeAbort d uid c
    else takeMismatch d uid c) d

/-! ### Posting (R236 to R239) -/

/-- Bytes of SRC and DST (R239). -/
def srcBytes (x : BitVec 512) (n rank : Nat) : Nat :=
  match ldOp x with
  | 0 => n * ldLen x
  | 1 => n * ldLen x
  | 2 => ldLen x
  | 3 => if rank = ldRoot x then ldLen x else 0
  | 4 => n * ldLen x
  | _ => 0

def dstBytes (x : BitVec 512) (n : Nat) : Nat :=
  match ldOp x with
  | 0 => n * ldLen x
  | 1 => ldLen x
  | 2 => n * ldLen x
  | 3 => ldLen x
  | 4 => n * ldLen x
  | _ => 0

def chunkLog (d : Dev) (x : BitVec 512) : Nat :=
  16 + (if ldChunk x = 7 then fld d.rill.cfg 22 20 else ldChunk x)

/-- Fields of R237 and R239 in range. -/
def ldFieldsOk (x : BitVec 512) (n : Nat) : Bool :=
  let red := decide (ldOp x ≤ 1)
  decide (ldOp x ≤ 5 ∧ ldRed x ≤ 2) && fld x 31 30 == 0 && fld x 95 92 == 0 && fld x 159 144 == 0 && fld x 223 208 == 0 &&
  fld x 447 256 == 0 &&
  (if red then [0x00, 0x01, 0x0A, 0x0B].contains (ldType x) else ldRed x == 0) &&
  (ldRed x == 0 || ldType x == 0x00 || ldType x == 0x0B) &&
  (if ldOp x = opBroadcast then decide (ldRoot x < n) else ldRoot x == 0) &&
  (if ldOp x = opBarrier then ldLen x == 0 else ldLen x % 256 == 0)

/-- The first range outside the quota: its address and length. -/
def ldOutside (d : Dev) (p : Nat) (cm : BitVec 192) (x : BitVec 512) : Option (Nat × Nat) :=
  [(ldSrc x, srcBytes x (cmN cm) (cmRank cm)), (ldDst x, dstBytes x (cmN cm))].find? fun r => !okNew d p false r.1 r.2

/-- The first failing check of R238, in the order of its table; none when all pass. -/
def ldCheck (d : Dev) (p : Nat) (cm : BitVec 192) (x : BitVec 512) : Option (Nat × Nat) :=
  let n := cmN cm
  let sn := srcBytes x n (cmRank cm)
  let dn := dstBytes x n
  let s := ldSrc x
  let t := ldDst x
  if !cmValid cm then some (sBadField, 3)
  else if (ldOutside d p cm x).isSome then some (sBadField, 2)
  else if !ldFieldsOk x n then some (sBadField, 1)
  else if sn > 0 ∧ dn > 0 ∧ s < t + dn ∧ t < s + sn ∧ !(ldOp x == opAllReduce && s == t) then some (sBadField, 1)
  else if ldOp x ≠ opBarrier ∧ ldLen x ≠ 0 ∧
      (sliceOf (chunkLog d x) n < 256 ∨ (poolOf d (cmPool cm)).bsize < 2 ^ chunkLog d x) then some (sBadField, 1)
  else none

def chunkCount (x : BitVec 512) (logc n : Nat) : Nat :=
  if ldOp x = opBarrier then 1
  else if ldOp x = opBroadcast then divUp (ldLen x) (2 ^ logc)
  else divUp (ldLen x) (sliceOf logc n)

/-- The member devices, by rank (R234). -/
def memberTable (d : Dev) (p : Nat) (cm : BitVec 192) : List DevId :=
  (chunks 2 (readRange d p false (cmMembers cm) (2 * cmN cm))).map fun b => BitVec.ofNat 16 (leNat b)

def newColl (d : Dev) (p comm : Nat) (sub : U32) (at_ : Option (Nat × Nat)) (bucket : Option (Nat × Nat)) (x : BitVec 512)
    (cm : BitVec 192) : Coll :=
  { uid := d.rill.nextUid, part := p, comm := comm, seq := BitVec.ofNat 32 (cmNext cm), sub := sub, at_ := at_, bucket := bucket
    desc := x, cm := cm, mem := memberTable d p cm, chunkLog2 := chunkLog d x, nchunk := 0, bufs := [], slotsHeld := false
    openStatus := none, openSent := [], openAcked := [], opens := [], started := 0, slots := [], outs := [], freedBy := []
    freed := [], above := [], doneAbove := [], signalled := 0, done := 0, verdict := none, got := [], expCand := none
    abort := none, abortSent := [], status := 0, cause := 0, rank := noRank, ovf := false, nf := false, satd := false
    csumFixed := false, cfg := d.rill.cfg, ended := false }

/-- Rill accepts a collective: it consumes a sequence number, and a failing check, or the failing
status `fail` with which the sequencer posts, ends it at once (R236, R238, R250, R267). -/
def collAccept (d : Dev) (p comm : Nat) (sub : U32) (at_ bucket : Option (Nat × Nat)) (x : BitVec 512) (fail : Option Nat) : Dev :=
  let cm := commOf d p comm
  let bad := match fail with
    | some st => some (st, 0)
    | none => ldCheck d p cm x
  let c := newColl d p comm sub at_ bucket x cm
  let c := if bad.isNone then { c with nchunk := chunkCount x c.chunkLog2 (cmN cm) } else c
  let next := BitVec.ofNat 192 (((cmNext cm + 1) % 2 ^ 32) <<< 144)
  let d := d.modPart p fun y => { y with comms := tput y.comms comm ((cm &&& ~~~(ones 192 175 144)) ||| next) }
  let d := { d with rill := { d.rill with colls := d.rill.colls ++ [c], nextUid := d.rill.nextUid + 1 } }
  let d := match (if bad == some (sBadField, 2) then ldOutside d p cm x else none) with
    | some r => countDenied d r.1 r.2
    | none => d
  let d := match bad with
    | some (st, cause) => collEnd d c.uid st cause noRank true none
    | none => askSlots d c.uid
  settleColl (absorbColl d c.uid p comm c.seq.toNat) p comm

/-- COLL reaches Rill with a readable descriptor (R238). -/
def collPost (d : Dev) (p lcore : Nat) (sub : U32) (addr comm : Nat) : Dev :=
  collAccept d p comm sub (some (lcore, addr)) none (BitVec.ofNat 512 (leNat (viewRead d p lcore addr 64))) none

/-! ### Aborting, losing a peer, forgetting a partition (R258) -/

/-- The submission ended or was aborted, or its partition is destroyed. -/
def rillAbort (d : Dev) (x : Coll) : Dev := collEnd d x.uid sAborted 9 noRank false none

def rillAbortSub (d : Dev) (p : Nat) (sub : U32) : Dev :=
  let hit := d.rill.colls.filter fun x => x.part == p && x.sub == sub && x.at_.isSome && !x.ended
  let d := hit.foldl rillAbort d
  ((hit.map (·.comm)).eraseDups).foldl (fun d c => settleColl d p c) d

def rillBusy (d : Dev) (p : Nat) : Bool := d.rill.colls.any fun x => x.part == p && !x.ended

/-- Nothing of a destroyed partition stays but the ABORT cells its peers have not acknowledged. -/
def rillForget (d : Dev) (p : Nat) : Dev :=
  let d := (d.rill.colls.filter fun x => x.part == p && !x.ended).foldl rillAbort d
  let d := ((d.rill.colls.filter fun x => x.part == p).map (·.uid)).foldl sendDue d
  { d with rill := { d.rill with
      colls := d.rill.colls.filter fun x => x.part != p
      store := d.rill.store.filter fun c => c.part.toNat != p
      ctl := d.rill.ctl.filter fun k => k.part != p || k.kind == kAbort
      retain := d.rill.retain.filter fun r => r.part != p
      holds := d.rill.holds.filter fun h => h.part != p } }

/-- A replay ends every collective of p on every member at once, with no word to the peers, and the communicators count
their collectives from 0 again, as those of a spare do (R421, log 82). -/
def rillRestart (d : Dev) (p : Nat) : Dev :=
  let mine := d.rill.colls.filter fun x => x.part == p
  let d := dropWaits d fun w => w.part == p && (match w.who with
    | .slots u => mine.any fun x => x.uid == u
    | .retain _ _ => true
    | _ => false)
  let d := mine.foldl (fun d x => freeBufs d (cmPool x.cm) x.bufs) d
  let again (c : BitVec 192) : BitVec 192 := c &&& ~~~(ones 192 175 144)
  let d := d.modPart p fun x => { x with comms := x.comms.map fun c => (c.1, again c.2) }
  { d with rill := { d.rill with
      colls := d.rill.colls.filter fun x => x.part != p
      store := d.rill.store.filter fun c => c.part.toNat != p
      ctl := d.rill.ctl.filter fun k => k.part != p
      holds := d.rill.holds.filter fun h => h.part != p } }

/-- A communicator is replaced or deleted: its ended collectives go. -/
def dropComm (d : Dev) (p comm : Nat) : Dev :=
  { d with rill := { d.rill with
      colls := d.rill.colls.filter fun x => !(x.part == p && x.comm == comm)
      store := d.rill.store.filter fun c => !(c.part.toNat == p && tagComm c == comm)
      ctl := d.rill.ctl.filter fun k => !(k.part == p && k.comm == comm)
      holds := d.rill.holds.filter fun h => !(h.part == p && h.comm == comm) } }

/-- A collective is open or waiting on the communicator. -/
def commBusy (d : Dev) (p comm : Nat) : Bool := (curC d p comm).isSome

/-- Fault handling declared a peer lost or fenced it: INTERNAL, CAUSE 6. -/
def rillFenceDevice (d : Dev) (dev : DevId) : Dev :=
  let d := { d with rill := { d.rill with
    ctl := d.rill.ctl.filter fun k => k.cell.dest != dev
    store := d.rill.store.filter fun c => c.src != dev } }
  let hit := d.rill.colls.filterMap fun x =>
    match rankOfDev x dev with
    | some r => if (allPeers x).contains r then some (x, r) else none
    | none => none
  let d := hit.foldl (fun d (y : Coll × Nat) =>
    let d := modC d y.1.uid fun x => { x with openSent := x.openSent ++ [y.2], abortSent := x.abortSent ++ [y.2] }
    if y.1.ended then d else collEnd d y.1.uid sInternal 6 y.2 true none) d
  ((hit.map fun y => (y.1.part, y.1.comm)).eraseDups).foldl (fun d k => settleColl d k.1 k.2) d

/-- The whole transfer goes again with RETRY, and what may not follow it at once is held (R254). -/
def resendXfer (d : Dev) (x : Coll) (o : CollXfer) : Dev :=
  let d := modOutC d x.uid o.stage o.chunk o.peer fun o => { o with timing := true }
  let h : CollHold := ⟨x.part, x.comm, x.seq, o.stage, o.chunk, o.peer⟩
  let d := { d with rill := { d.rill with holds := d.rill.holds.filter (· != h) ++ [h] } }
  sendAll d x.part (o.cells.map fun c => { c with retry := true })

/-- Escalated transfers to a peer are resent once more after a LINK fault (R412). -/
def rillResendTo (d : Dev) (dev : DevId) : Dev :=
  d.rill.colls.foldl (fun d x =>
    match rankOfDev x dev with
    | none => d
    | some r => (x.outs.filter fun o => o.peer == r && !o.acked && !o.isEmpty && !o.timing).foldl (fun d o => resendXfer d x o) d) d

/-! ### Waiting time (R262) -/

/-- A chunk of this level is ready to send and its window is closed. -/
def waitsWindow (x : Coll) (l : Nat) : Bool :=
  x.slots.any fun s => stageLevel s.stage == l && s.own.isSome && s.unsent.any fun r => !windowOpen x s.stage s.chunk r

/-- A slot of this level holds its contributions and waits for the own input or for the next slot. -/
def waitsInput (x : Coll) (l : Nat) : Bool :=
  x.slots.any fun s => stageLevel s.stage == l && !s.summed && (stagePeers x s.stage).all (fun r => (tget s.rx r).isSome) &&
    (s.own.isNone || match nextStage x s.stage with
      | some st => !slotFree x st s.chunk
      | none => false)

/-- One nanosecond passes. -/
def rillTick (d : Dev) : Dev :=
  let live := d.rill.colls.filter fun x => !x.ended && x.op != opBarrier
  if live.isEmpty then d
  else
    let w := (List.range 4).foldl (fun t l =>
      let a := live.any fun x => waitsWindow x l
      let b := live.any fun x => waitsInput x l
      if a || b then tmod t l (0, 0) (fun y => (y.1 + b2n a, y.2 + b2n b)) else t) d.rill.lvlWait
    { d with rill := { d.rill with lvlWait := w } }

/-! ### Queries (R162) -/

/-- The member's OPEN has gone to the peer, whose own has not come. -/
def rillWaits (x : Coll) (r : Nat) : Bool := !x.ended && x.openSent.contains r && (tget x.opens r).isNone

def rillQueryTimer (p : Nat) (id : U32) (dev : DevId) (d : Dev) : Dev :=
  match d.rill.colls.findSome? fun x =>
      if x.part = p ∧ cmId x.cm = id.toNat then
        (rankOfDev x dev).bind fun r => if rillWaits x r then some x else none
      else none with
  | some x => sendQuery d true p id x.seq dev p
  | none => d

/-- What Rill answers about a collective: STATE and STATUS. -/
def rillState (d : Dev) (p id seq : Nat) : Nat × Nat :=
  let pending := if mayPost d p then (1, 0) else (3, 0)
  let past (other : Nat × Nat) : Nat × Nat :=
    match (d.rill.failed.filter fun f => f.part == p && f.id.toNat == id && f.seq.toNat == seq).getLast? with
    | some f => (2, f.status.toNat)
    | none => other
  match (d.part p).comms.find? fun c => cmValid c.2 && cmId c.2 == id with
  | none => past pending
  | some c => if seq < cmNext c.2 then past (0, 0) else pending

/-- PEER_STATE at a waiting member: FAILED and IDLE end the collective. -/
def rillPeerState (c : Cell) (d : Dev) : Dev :=
  let pay := payBits c
  let st := fld pay 9 8
  let hits := d.rill.colls.filterMap fun x =>
    if x.part = c.part.toNat ∧ cmId x.cm = fld pay 63 32 ∧ x.seq.toNat = fld pay 95 64 then
      (rankOfDev x c.src).bind fun r => if rillWaits x r then some (x, r) else none
    else none
  hits.foldl (fun d (y : Coll × Nat) =>
    let x := y.1
    let d := { d with slc := { d.slc with queries := d.slc.queries.filter fun q =>
      !(q.rill && q.part == x.part && q.id.toNat == cmId x.cm && q.seq == x.seq && q.dev == c.src) } }
    let d := if st = 2 then collEnd d x.uid sProgFault 4 y.2 true none
      else if st = 3 then collEnd d x.uid sProgFault 5 y.2 true none
      else d
    settleColl d x.part x.comm) d

end Sys2Proof.Machine
end

