-- ==== Sys2Proof/Machine/Stage.lean ====
section
/-! DEFINITION. Rill, part 2: a chunk's input, the sums of a stage, retention, and what a received
transfer is checked for (R240 to R247, R255, R278). -/

namespace Sys2Proof.Machine

/-! ### A chunk starts (R247) -/

/-- The own contribution to the first stage: slices by rank; or the status and the address that end it. -/
def inputSlices (d : Dev) (x : Coll) (c : Nat) : (Nat × Nat) ⊕ Tbl (List Byte) :=
  let n := sliceLen x c
  let s := ldSrc x.desc
  let want : List (Nat × Nat) :=
    if x.op = opBarrier then []
    else if x.op = opBroadcast then (if x.me = ldRoot x.desc then [(0, s + c * x.base)] else [])
    else if x.op = opAllGather then [(x.me, s + c * x.base)]
    else (List.range x.size).map fun j => (j, s + j * ldLen x.desc + c * x.base)
  match want.find? fun w => !okFor d x.part (.coll x.uid) false w.2 n with
  | some w => .inl (sBadField, w.2)
  | none => match want.findSome? fun w => (poisonAt d x.part false w.2 n).map fun i => w.2 + i with
    | some a => .inl (sInternal, a / 64 * 64)
    | none => .inr (want.map fun w => (w.1, readRange d x.part false w.2 n))

def bytesIn (t : Tbl (List Byte)) : Nat := t.foldl (fun a y => a + y.2.length) 0

/-- A chunk may start but for the tokens of its slot (R244, R247). -/
def chunkReady (d : Dev) (x : Coll) (chunk : Nat) : Bool :=
  match x.stages with
  | [] => false
  | st :: _ => x.opened && x.verdict.isNone && chunk == x.started && decide (chunk < x.nchunk) && slotFree x st chunk &&
      decide (chunksInFlight d < 1024)

/-- CHUNK_START: the next chunk, under the device's bound of 1,024 and with its slot free. -/
def chunkStart (p comm chunk : Nat) (d : Dev) : Dev :=
  match curC d p comm with
  | none => d
  | some x =>
    match x.stages with
    | [] => d
    | st :: _ =>
      if !chunkReady d x chunk || !slotTokens d x then d
      else
        let src := ldSrc x.desc
        let d := (List.range x.size).foldl (fun d j => touched d p (src + j * ldLen x.desc + chunk * x.base) (sliceLen x chunk)) d
        let d := match inputSlices d x chunk with
          | .inl (st, a) =>
            let d := if st = sInternal then dataLoss d (some p) 0 a 64 else countDenied d a (sliceLen x chunk)
            collEnd d x.uid st 2 noRank true none
          | .inr own =>
            let d := modC d x.uid fun x => { x with started := x.started + 1 }
            let d := modSlot (needSlot d x.uid st chunk) x.uid st chunk fun s => { s with own := some own }
            chargeSlots d x (bytesIn own)
        settleColl d p comm

/-! ### The addition of a stage (R241, R242) -/

def words32 (bs : List Byte) : List Nat := (chunks 4 bs).map leNat
def words16 (bs : List Byte) : List Nat := (chunks 2 bs).map leNat
def bytesOf (n : Nat) (xs : List Nat) : List Byte := xs.flatMap (toLe n)

def zipM (f : Nat → Nat → FlM Nat) : List Nat → List Nat → FlM (List Nat)
  | a :: as, b :: bs => do
    let y ← f a b
    let ys ← zipM f as bs
    pure (y :: ys)
  | _, _ => pure []

def foldM (f : Nat → Nat → FlM Nat) : List Nat → List (List Nat) → FlM (List Nat)
  | acc, [] => pure acc
  | acc, x :: xs => do
    let acc ← zipM f acc x
    foldM f acc xs

def maxInt32 (a b : Nat) : Nat := if sInt 32 a < sInt 32 b then b else a
def minInt32 (a b : Nat) : Nat := if sInt 32 b < sInt 32 a then b else a

/-- Contributions of one BSI48 block in ascending level rank, with their member ranks: the pair of
members whose EXP differ, or the sum. -/
def sumBlock (first : Nat) (acc : Bsi) : List (Nat × Bsi) → (Nat × Nat) ⊕ Bsi
  | [] => .inr acc
  | (r, b) :: bs => if b.exp = acc.exp then sumBlock first (acc.add b) bs else .inl (first, r)

/-- One slice's sum: its bytes and flags; or an EXP conflict (the candidate); or a summed block whose
checksum does not match, `chk g` being the recomputed checksum of block g of the slice. -/
def sumBsi (chk : Nat → List Nat → Nat) (csum : Bool) (parts : List (Nat × List Byte)) : (Option Nat) ⊕ (List Byte × Nat) :=
  match parts with
  | [] => .inr ([], 0)
  | (r0, b0) :: rest =>
    (List.range (b0.length / 256)).foldl (fun acc g =>
      match acc with
      | .inl e => .inl e
      | .inr (out, fl) =>
        let blk (bs : List Byte) : Bsi := Bsi.read ((bs.drop (256 * g)).take 256)
        match sumBlock r0 (blk b0) (rest.map fun y => (y.1, blk y.2)) with
        | .inl (a, b) => .inl (some (max a b))
        | .inr s =>
          let ovf := s.flags % 2 == 1
          if csum && !ovf && chk g s.elems != s.csum then .inl none
          else .inr (out ++ s.bytes, fl ||| (if ovf then 256 else 0) ||| (if s.flags / 4 % 2 = 1 then SATD else 0))) (.inr ([], 0))

/-- The SATD flag of R263, where a block carries it. -/
def satdOf (bs : List Byte) : Nat := if (chunks 256 bs).any fun b => (b.getD 1 0).toNat.testBit 2 then SATD else 0

/-- One slice's sum in the other element types (R242). -/
def sumPlain (ty red : Nat) (parts : List (List Byte)) : FlM (List Byte) :=
  match parts with
  | [] => pure []
  | b0 :: rest =>
    if rest.isEmpty then pure b0
    else if ty = 0x0B then do
      let f := if red = 0 then fun a b => (a + b) % 2 ^ 32 else if red = 1 then maxInt32 else minInt32
      let ys ← foldM (fun a b => pure (f a b)) (words32 b0) (rest.map words32)
      pure (bytesOf 4 ys)
    else if ty = 0x01 then do
      let wide (b : List Byte) : List Nat := (words16 b).map (· * 65536)
      let ys ← foldM fadd (wide b0) (rest.map wide)
      let zs ← ys.mapM fun y => encodeIeee ffBF16 .rne (f32 y)
      pure (bytesOf 2 zs)
    else do
      let f := if red = 0 then fadd else if red = 1 then fmax else fmin
      let ys ← foldM f (words32 b0) (rest.map words32)
      pure (bytesOf 4 ys)

/-- Index of the first block of a slice's chunk in the bucket (R265). -/
def firstBlock (x : Coll) (k c : Nat) : Nat := (k * ldLen x.desc + c * x.q) / 256

/-- The contributions to the n-th kept slice, in ascending level rank (R241). -/
def contribs (x : Coll) (s : Slot) (own : Tbl (List Byte)) (n k : Nat) : List (Nat × List Byte) :=
  let len := sliceLen x s.chunk
  (levelMembers x.cm x.me (stageLevel s.stage)).map fun r =>
    (r, if r = x.me then tgetD own k [] else ((tgetD s.rx r []).drop (n * len)).take len)

/-- The slices after a reducing stage, with flags. -/
def reduceSlices (d : Dev) (x : Coll) (s : Slot) (own : Tbl (List Byte)) : (Option Nat) ⊕ (Tbl (List Byte) × Nat) :=
  let keep := (sliceKeys x s.stage x.me x.me).getD []
  (keep.mapIdx fun n k => (n, k)).foldl (fun acc nk =>
    match acc with
    | .inl e => .inl e
    | .inr (t, fl) =>
      let parts := contribs x s own nk.1 nk.2
      if ldType x.desc = 0x0A then
        let chk (g : Nat) (es : List Nat) : Nat := blockCsum d x.part (ldBucket x.desc) (firstBlock x nk.2 s.chunk + g) es
        if parts.length = 1 then .inr (tput t nk.2 (tgetD own nk.2 []), fl ||| satdOf (tgetD own nk.2 []))
        else match sumBsi chk (ldCsum x.desc) parts with
          | .inl e => .inl e
          | .inr (bs, f) => .inr (tput t nk.2 bs, fl ||| f)
      else
        let (bs, f) := sumPlain (ldType x.desc) (ldRed x.desc) (parts.map (·.2)) 0
        .inr (tput t nk.2 bs, fl ||| f)) (.inr ([], 0))

/-- The slices after a stage that only moves data. -/
def gatherSlices (x : Coll) (s : Slot) (own : Tbl (List Byte)) : Tbl (List Byte) :=
  let len := sliceLen x s.chunk
  if x.op = opAllToAll then
    (stagePeers x s.stage).foldl (fun t r => tput t r (tgetD s.rx r [])) (tput [] x.me (tgetD own x.me []))
  else
    (stagePeers x s.stage).foldl (fun t r =>
      (((sliceKeys x s.stage r x.me).getD []).mapIdx fun n k => (n, k)).foldl (fun t nk =>
        tput t nk.2 (((tgetD s.rx r []).drop (nk.1 * len)).take len)) t) own

/-! ### Retention (R278) -/

/-- Retention buffers are in hand: the contributions are kept and the slot may be released. -/
def giveRetain (d : Dev) (uid chunk : Nat) (pool : Nat) (is : List Nat) : Dev :=
  match findC d uid with
  | none => d
  | some x =>
    match getSlot x (lastReducing x) chunk with
    | none => freeBufs d pool is
    | some s =>
      let own := s.own.getD []
      let parts := contribs x s own 0 x.me
      let r : Retained := ⟨x.part, x.bucket.map (·.1), chunk * x.q / 256, parts.map (·.2), is.map fun i => (pool, i)⟩
      let d := { d with rill := { d.rill with retain := d.rill.retain ++ [r] } }
      let d := if (poolOf d pool).inDram then weirCharge d x.part 0 (parts.foldl (fun a y => a + y.2.length) 0) else d
      tryRelease uid (modSlot d uid s.stage chunk fun s => { s with retained := true }) (s.stage, chunk)

/-- Retention is asked for; the slot waits while RET_POOL cannot supply it. -/
def askRetain (d : Dev) (uid chunk : Nat) : Dev :=
  match findC d uid with
  | none => d
  | some x =>
    if x.ended then d else
    let pool := grdRetPool (d.part x.part)
    let n := divUp ((levelSize x.cm (lastReducing x)) * sliceLen x chunk) (poolOf d pool).bsize
    match request d pool x.part (max 1 n) (.retain x.comm chunk) with
    | (some is, d) => giveRetain d uid chunk pool is
    | (none, d) => d

/-- Retention of one table entry's bucket, or of every bucket of the partition, goes back to its pool. -/
def releaseRetention (d : Dev) (p : Nat) (entry : Option Nat) : Dev :=
  let hit (r : Retained) : Bool := r.part == p && (entry.isNone || r.entry == entry)
  let d := freeAll d ((d.rill.retain.filter hit).flatMap (·.bufs))
  { d with rill := { d.rill with retain := d.rill.retain.filter fun r => !hit r } }

/-! ### STAGE_SUM -/

/-- The slices of the last stage are written to DST, or the range outside the quota is named; the flags of R256 are gathered, and SATD of the result is
sticky (R263). -/
def writeOutput (d : Dev) (x : Coll) (c : Nat) (res : Tbl (List Byte)) : (Nat × Nat) ⊕ Dev :=
  let addr (k : Nat) : Nat :=
    ldDst x.desc + c * x.base + (if x.op = opReduceScatter ∨ x.op = opBroadcast then 0 else k * ldLen x.desc)
  match res.find? fun y => !okFor d x.part (.coll x.uid) false (addr y.1) y.2.length with
  | some y => .inl (addr y.1, y.2.length)
  | none =>
    let d := res.foldl (fun d y => writeRange d x.part false (addr y.1) y.2) d
    let fl := if x.bsi then res.foldl (fun a y => (chunks 256 y.2).foldl (fun a b => a ||| (b.getD 1 0).toNat) a) 0 else 0
    let d := if fl.testBit 2 then rillFlag d x.part SATD else d
    .inr (modC d x.uid fun x => { x with
      ovf := x.ovf || fl.testBit 0, nf := x.nf || fl.testBit 1, satd := x.satd || fl.testBit 2 })

/-- A stage's slices are written onward: into the next stage's slot, or to DST. -/
def writeOnward (d : Dev) (x : Coll) (st c : Nat) (res : Tbl (List Byte)) : Dev :=
  let d := modSlot d x.uid st c fun s => { s with summed := true }
  let d := match nextStage x st with
    | some nx => chargeSlots (modSlot (needSlot d x.uid nx c) x.uid nx c fun s => { s with own := some res }) x (bytesIn res)
    | none => match writeOutput d x c res with
      | .inr d => chunkComplete d x.uid c
      | .inl r => collEnd (countDenied d r.1 r.2) x.uid sBadField 2 noRank true none
  if retains x st then askRetain d x.uid c else d

/-- Every contribution is present and the output has a place to go (R241, R244). -/
def sumReady (x : Coll) (s : Slot) : Bool :=
  let room := match nextStage x s.stage with
    | some nx => slotFree x nx s.chunk
    | none => true
  x.opened && x.verdict.isNone && x.expCand.isNone && s.own.isSome && !s.summed && room && x.op != opBarrier &&
    (stagePeers x s.stage).all fun r => (tget s.rx r).isSome

/-- STAGE_SUM, under the tokens of the slot (R241, R244). -/
def stageSum (p comm st chunk : Nat) (d : Dev) : Dev :=
  match curC d p comm with
  | none => d
  | some x =>
    match getSlot x st chunk with
    | none => d
    | some s =>
      match s.own with
      | none => d
      | some own =>
        if !sumReady x s || !slotTokens d x then d
        else
          let d := chargeSlots d x (bytesIn own + bytesIn s.rx)
          let d :=
            if isReducing x st then
              match reduceSlices d x s own with
              | .inl (some r) => modC d x.uid fun x => { x with expCand := some r }
              | .inl none =>
                selfFault (collEnd (rillErr d 5) x.uid sInternal 10 noRank true none)
              | .inr (res, fl) => writeOnward (if fl = 0 then d else rillFlag d p fl) x st chunk res
            else writeOnward d x st chunk (gatherSlices x s own)
          settleColl d p comm

/-! ### A transfer is whole (R254, R255) -/

/-- Every block of an arriving BSI48 transfer has the checksum it should, but for those with OVF. -/
def transferOk (d : Dev) (x : Coll) (st c r : Nat) (bytes : List Byte) : Bool :=
  if ldCsum x.desc && x.bsi then
    let len := sliceLen x c
    (((sliceKeys x st r x.me).getD []).mapIdx fun n k => (n, k)).all fun nk =>
      (List.range (len / 256)).all fun g =>
        let b := Bsi.read ((bytes.drop (nk.1 * len + 256 * g)).take 256)
        b.flags % 2 == 1 || blockCsum d x.part (ldBucket x.desc) (firstBlock x nk.2 c + g) b.elems == b.csum
  else true

def ackTransfer (d : Dev) (x : Coll) (st c r : Nat) : Dev :=
  let f := ((findC d x.uid).map fun x => freedOf x st).getD 0
  sendCtl d x r st c kAck [(96, c), (128, f)]

/-- The chunk named by its residues: the one that the slot window holds, or one released before
(R244, R254). -/
def chunkNamed (x : Coll) (st c4 c64 : Nat) : Option Nat :=
  let f := freedOf x st
  let c := f + (c4 + 4 - f % 4) % 4
  if c % 64 = c64 ∧ c < x.nchunk then some c
  else
    let back := (f + 63 - c64) % 64
    if back < f ∧ (f - 1 - back) % 4 = c4 then some (f - 1 - back) else none

/-- A whole transfer: checked, held in its slot, and acknowledged; or discarded and NAK. One of which every copy that
RETRIES allows has failed is not recovered: the collective ends (R255, R276, log 74). -/
def takeTransfer (d : Dev) (x : Coll) (st c r : Nat) (bytes : List Byte) : Dev :=
  let failed := ((getSlot x st c).map fun s => (s.bad.filter (· == r)).length).getD 0
  let nak (d : Dev) : Dev :=
    sendCtl (modSlot (rillErr d 4) x.uid st c fun s => { s with cells := tdel s.cells r, bad := r :: s.bad }) x r st c kNak [(96, c)]
  if transferOk d x st c r bytes then
    let d := modSlot d x.uid st c fun s => { s with rx := tput s.rx r bytes, cells := tdel s.cells r }
    let d := modC d x.uid fun x => { x with csumFixed := x.csumFixed || failed != 0 }
    settleColl (ackTransfer d x st c r) x.part x.comm
  else if failed < x.retryLimit then nak d
  else settleColl (collEnd (nak d) x.uid sInternal 10 noRank true none) x.part x.comm

/-- A resent transfer of the last collective that ended OK here is acknowledged again (R254). -/
def ackEnded (d : Dev) (p comm st : Nat) (c : Cell) : Dev :=
  let ended := d.rill.colls.filter fun x => x.part == p && x.comm == comm && x.ended && x.status == 0
  match ended.getLast? with
  | none => d
  | some x =>
    match rankOfDev x c.src with
    | none => d
    | some r =>
      match chunkNamed x st (fld c.tag 1 0) (fld c.off 22 17) with
      | none => d
      | some k =>
        if matched x r && x.stages.contains st && (stagePeers x st).contains r && needBytes x st k r > 0 then
          ackTransfer d x st k r
        else d

/-- COLL_DATA (R248, R252, R254). -/
def collData (c : Cell) (d : Dev) : Dev :=
  let p := c.part.toNat
  let comm := tagComm c
  let st := tagStage c
  let idx := fld c.off 16 0
  let again (d : Dev) : Dev := if idx = 0 && c.retry then ackEnded (rillErr d 2) p comm st c else rillErr d 2
  match curC d p comm with
  | none => again d
  | some x =>
    match rankOfDev x c.src with
    | none => rillErr d 2
    | some r =>
      if !matched x r ∨ !x.opened then (if (tget x.opens r).isNone then again d else rillErr d 2)
      else if !x.stages.contains st ∨ !(stagePeers x st).contains r then rillErr d 2
      else match chunkNamed x st (fld c.tag 1 0) (fld c.off 22 17) with
        | none => rillErr d 2
        | some k =>
          let need := needBytes x st k r
          let have_ := isReleased x st k || ((getSlot x st k).bind fun s => tget s.rx r).isSome
          if need = 0 then rillErr d 2
          else if have_ then (if idx = 0 then ackTransfer (rillErr d 2) x st k r else rillErr d 2)
          else
            let d := needSlot d x.uid st k
            match (findC d x.uid).bind fun x => getSlot x st k with
            | none => d
            | some s =>
              let got := tgetD s.cells r []
              let n := divUp need 64
              if idx ≥ n ∨ (tget got idx).isSome then rillErr d 2
              else
                let got := tput got idx (payBits c)
                let d := chargeSlots d x 64
                let d := modSlot d x.uid st k fun s => { s with cells := tput s.cells r got }
                if got.length = n then takeTransfer d x st k r ((got.flatMap fun y => toLe 64 y.2.toNat).take need)
                else d

/-- COLL_EMPTY (R250, R252). -/
def collEmpty (c : Cell) (d : Dev) : Dev :=
  let p := c.part.toNat
  let comm := tagComm c
  let st := tagStage c
  let k := ctlChunk c
  match seqC d p comm (ctlSeq c) with
  | none => rillErr d 2
  | some x =>
    match rankOfDev x c.src with
    | none => rillErr d 2
    | some r =>
      if !matched x r ∨ k ≥ x.nchunk ∨ !x.stages.contains st ∨ !(stagePeers x st).contains r ∨ needBytes x st k r > 0 then rillErr d 2
      else if x.ended then (if x.status = 0 then ackTransfer (rillErr d 2) x st k r else d)
      else if !x.opened then rillErr d 2
      else if isReleased x st k || ((getSlot x st k).bind fun s => tget s.rx r).isSome then ackTransfer (rillErr d 2) x st k r
      else if k ≥ freedOf x st + 4 then rillErr d 2
      else takeTransfer (needSlot d x.uid st k) x st k r []

end Sys2Proof.Machine
end

