-- ==== Sys2Proof/Machine/Grad.lean ====
section
/-! DEFINITION. The gradient reduction sequencer: launching buckets, conversion, posting order,
verification, summary rounds, redo and finishing (R265 to R282, R286). -/

namespace Sys2Proof.Machine

/-! ### Choosing the scale (R270 to R273) -/

/-- k_M (R271). -/
def headroom (m : Nat) : Nat :=
  (((List.range 23).map (· + 24)).filter fun k => m * (2 ^ (k - 24) + 1) ≤ 2 ^ 23).foldl max 0

/-- EXP from the agreed maximum (R272). -/
def agreedExp (e : Option Int) (m : Nat) : Int :=
  match e with
  | some e => max (e + 1 - headroom m) (-128)
  | none => 0

/-- EXP from the last reduction's maximum (R273). -/
def predictedExp (emax : Int) (margin m : Nat) : Int := max (emax + 1 + margin - headroom m) (-128)

/-- Elements of the bucket (R265). -/
def bucketElems (m len : Nat) : Nat := 40 * m * len / 256

def bucketMembers (d : Dev) (p : Nat) (e : BitVec 1024) : Nat := cmN (commOf d p (beComm e))

/-- ACC as FP32 values. -/
def accVals (d : Dev) (p : Nat) (e : BitVec 1024) (m : Nat) : List Val :=
  (words32 (readRange d p false (beAcc e) (4 * bucketElems m (beLen e)))).map f32

/-- e_loc (R270). -/
def localMax (vs : List Val) : Option Int := anchor (vs.filter Val.isFin)

/-- Where a read of ACC meets a poisoned line (R274). -/
def accPoison (d : Dev) (p : Nat) (e : BitVec 1024) (m : Nat) : Option Nat :=
  (poisonAt d p false (beAcc e) (4 * bucketElems m (beLen e))).map fun i => (beAcc e + i) / 64 * 64

/-! ### The entry check (R267) -/

def beReservedOk (e : BitVec 1024) : Bool :=
  fld e 15 13 == 0 && fld e 63 36 == 0 && fld e 255 240 == 0 && fld e 319 304 == 0 && fld e 383 368 == 0 &&
  fld e 447 432 == 0 && fld e 511 496 == 0 && fld e 575 560 == 0 && fld e 639 616 == 0 && fld e 1023 688 == 0 &&
  fld e 615 613 == 0

/-- The address ranges of an entry. -/
def beRanges (e : BitVec 1024) (m : Nat) : List (Nat × Nat) :=
  [(beAcc e, 4 * bucketElems m (beLen e)), (beWire e, m * beLen e), (beShard e, beLen e), (beGrad e, beLen e / 8 * 5),
    (beStage e, bePromote e), (beLive e, bePromote e), (beSum e, 256 * m)]

/-- Every address is aligned and inside the quota, one of an empty range too (R266, R267). -/
def beAddrsOk (d : Dev) (p : Nat) (e : BitVec 1024) (m : Nat) : Bool :=
  (beRanges e m).all fun a => a.1 % 256 == 0 && okNew d p false a.1 (max a.2 1)

def entryOk (d : Dev) (p : Nat) (e : BitVec 1024) : Bool :=
  let m := bucketMembers d p e
  decide (beLen e % 256 = 0 ∧ 4 * 2 ^ 20 ≤ m * beLen e ∧ m * beLen e ≤ 64 * 2 ^ 20) && beReservedOk e &&
  beAddrsOk d p e m &&
  decide (256 ≤ sliceOf (16 + (if beChunk e = 7 then fld d.rill.cfg 22 20 else beChunk e)) m)

/-! ### The summary area (R280) -/

/-- The chunk code of a summary round: the smallest whose slice is at least 256 bytes. -/
def summaryChunk (m : Nat) : Nat := ((List.range 7).find? fun c => 256 ≤ sliceOf (16 + c) m).getD 6

def none32 : Nat := 0x80000000

/-- Writes this member's words: 1 or 0, e_loc, and −2^31 everywhere else. -/
def writeSummary (d : Dev) (p : Nat) (e : BitVec 1024) (m : Nat) (word0 : Bool) (eloc : Option Int) : Dev :=
  let w1 := match eloc with
    | some x => (x % 2 ^ 32).toNat
    | none => none32
  storeRange d p (beSum e) (bytesOf 4 ([b2n word0, w1] ++ List.replicate (64 * m - 2) none32))

/-- The result: whether a member overflowed or saturated, and the agreed maximum. -/
def readSummary (d : Dev) (p : Nat) (e : BitVec 1024) : Bool × Option Int :=
  let w0 := readNat d p (beSum e) 4
  let w1 := readNat d p (beSum e + 4) 4
  (w0 == 1, if w1 = none32 then none else some (sInt 32 w1))

/-! ### Posting (R269, R277, R280, R281) -/

/-- The reduce-scatter of a bucket (R277). -/
def reduceDesc (e : BitVec 1024) : BitVec 512 :=
  pack 512 [(0, opReduceScatter), (5, 0x0A), (10, 1), (11, 1), (12, beChunk e), (32, beLen e), (96, beWire e), (160, beShard e),
    (224, beBucket e)]

/-- A summary round (R280). -/
def summaryDesc (e : BitVec 1024) (m : Nat) : BitVec 512 :=
  pack 512 [(0, opAllReduce), (3, 1), (5, 0x0B), (12, summaryChunk m), (32, 256), (96, beSum e), (160, beSum e)]

/-- The bucket has posted every collective that comes before the redos of the step. -/
def postedAll (b : Bucket) : Bool :=
  b.redo || b.phase == .final || b.phase == .summary ||
  ((b.phase == .reducing || b.phase == .verifying) && (!b.predicted || b.fail.isSome))

/-- Indices of the readable ACTIVE entries on a communicator, in table order. -/
def activeOn (d : Dev) (p comm : Nat) : List Nat :=
  (List.range (grdCount (d.part p))).filter fun i =>
    entryReadable d p i && (let e := readEntry d p i; beActive e && beComm e == comm)

/-- The posting order lets the bucket post its next collective (R269, R281). -/
def mayPostBucket (d : Dev) (p : Nat) (b : Bucket) : Bool :=
  let others := activeOn d p (beComm b.entry)
  let done (i : Nat) : Bool := match bucketOf d p i with
    | some o => postedAll o
    | none => false
  if b.redo then
    (others.filter (· != b.index)).all done &&
    (others.filter (· < b.index)).all fun i => match bucketOf d p i with
      | some o => o.phase == .final || (o.redo && (o.phase == .reducing || o.phase == .verifying))
      | none => false
  else (others.filter (· < b.index)).all done

/-- Posts the collective that a bucket waits to post, when its turn has come and the communicator has
room. -/
def postBucket (p : Nat) (d : Dev) (i : Nat) : Dev :=
  match bucketOf d p i with
  | none => d
  | some b =>
    let comm := beComm b.entry
    let m := bucketMembers d p b.entry
    if !mayPostBucket d p b ∨ !collRoom d p comm then d
    else match b.phase with
      | .prepassPost =>
        collAccept (modBucket d p i fun b => { b with phase := .prepass }) p comm 0 none (some (i, 1)) (summaryDesc b.entry m) none
      | .sumPost =>
        collAccept (modBucket d p i fun b => { b with phase := .summary }) p comm 0 none (some (i, 1)) (summaryDesc b.entry m) none
      | .rsPost =>
        let d := if b.redo then releaseRetention d p (some i) else d
        collAccept (modBucket d p i fun b => { b with phase := .reducing }) p comm 0 none (some (i, 0)) (reduceDesc b.entry)
          (b.fail.map (·.toNat))
      | _ => d

/-- Everything the sequencer of partition p can post now. -/
def seqPump (d : Dev) (p : Nat) : Dev :=
  let is := sortBy id ((d.part p).buckets.map (·.index))
  is.foldl (postBucket p) (is.foldl (postBucket p) d)

/-- After any event of Rill: the sequencers post what the ended collectives made room for. -/
def seqPumpAll (d : Dev) : Dev :=
  ((tkeys d.parts).filter fun p => !(d.part p).buckets.isEmpty).foldl seqPump d

/-! ### Filling and launching (R267 to R269) -/

/-- The entry cannot name its peers (R267): final with a failure, PHASE FAILED, reported. -/
def entryLost (d : Dev) (p i : Nat) (status : Nat) (e : BitVec 1024) : Dev :=
  let b : Bucket := { index := i, entry := e, phase := .final, launched := true, eloc := none, emax := none, exp := 0
                      predicted := false, redo := false, satd := false, flags := 0, status := BitVec.ofNat 8 status
                      fail := none, sumEnd := none }
  let d := d.modPart p fun x => { x with buckets := x.buckets ++ [b], grdFailed := true }
  seqReport (logOp d sevError (some p) srcGrd status 0 0xFFFF i (entryAddr d p i)) p 0

/-- The bucket launches: the entry check, e_loc, and the scale or the pre-pass. -/
def launchBucket (d : Dev) (p i : Nat) (e : BitVec 1024) : Dev :=
  let m := bucketMembers d p e
  let b : Bucket := { index := i, entry := e, phase := .rsPost, launched := true, eloc := none, emax := none, exp := 0
                      predicted := false, redo := false, satd := false, flags := 0, status := 0, fail := none, sumEnd := none }
  let add (d : Dev) (b : Bucket) : Dev := seqPump (d.modPart p fun x => { x with buckets := x.buckets ++ [b] }) p
  if !cmValid (commOf d p (beComm e)) then entryLost d p i sBadField e
  else if !entryOk d p e then
    let d := match (beRanges e m).find? fun a => !okNew d p false a.1 (max a.2 1) with
      | some a => countDenied d a.1 (max a.2 1)
      | none => d
    add d { b with fail := some (BitVec.ofNat 8 sBadField) }
  else match accPoison d p e m with
    | some a => add (dataLoss d (some p) 0 a 64) { b with fail := some (BitVec.ofNat 8 sInternal) }
    | none =>
      let d := touched d p (beAcc e) (4 * bucketElems m (beLen e))
      let eloc := localMax (accVals d p e m)
      match beAgreed e, beEmax e with
      | false, some emax =>
        add d { b with phase := .converting, eloc := eloc, predicted := true, exp := predictedExp emax (grdMargin (d.part p)) m }
      | _, _ => add (writeSummary d p e m false eloc) { b with phase := .prepassPost, eloc := eloc }

/-- BUCKET_FILLED: FILL_SEM reaches FILL_TARGET, or the entry cannot be read. -/
def bucketFilled (p i : Nat) (d : Dev) : Dev :=
  let x := d.part p
  if !x.valid ∨ !grdEn x ∨ i ≥ grdCount x ∨ (bucketOf d p i).isSome then d
  else if !entryReadable d p i then
    let a := entryAddr d p i
    let d := match poisonAt d p false a 128 with
      | some j => lossHere d p 0 (a + j)
      | none => noteDenied d p a 128
    entryLost d p i sInternal 0
  else
    let d := touched d p (entryAddr d p i) 128
    let e := readEntry d p i
    if !beActive e ∨ (semOf d p (beFillSem e)).toNat < beTarget e then d
    else
      let d := setSem d p (beFillSem e) (semOf d p (beFillSem e) - BitVec.ofNat 32 (beTarget e))
      if reductionStep x then launchBucket d p i e
      else
        let b : Bucket := { index := i, entry := e, phase := .final, launched := false, eloc := none, emax := none, exp := 0
                            predicted := false, redo := false, satd := false, flags := 0, status := 0, fail := none, sumEnd := none }
        d.modPart p fun x => { x with buckets := x.buckets ++ [b] }

/-! ### Conversion (R274) -/

/-- One block of WIRE. -/
def wireBlock (d : Dev) (p : Nat) (b : Bucket) (g : Nat) (vs : List Val) : Bsi :=
  let x := d.part p
  let seed := (tgetD x.seeds (grdSrSeed x) 0).toNat
  let key := beBucket b.entry
  let t := toBsi b.exp (fun j => rndOf (grdSr x) seed x.step.toNat 4094 (2 ^ 32 * key + 40 * g + j)) vs
  { t with csum := blockCsum d p key g t.elems }

/-- Conversion flags as those of GRD_FLAGS and of the entry. -/
def convFlags (vs : List Val) (fl : Nat) : Nat × Nat :=
  let sat := fl / 4 % 2 == 1
  let nf := fl / 2 % 2 == 1
  ((if vs.any Val.isNan then NAN_IN else 0) ||| (if sat then SATD else 0) ||| (if nf then 512 else 0),
    (if sat then flSat else 0) ||| (if nf then flNf else 0))

/-- BUCKET_CONVERTED: ACC is converted into WIRE, and the reduce-scatter is due. -/
def bucketConverted (p i : Nat) (d : Dev) : Dev :=
  match bucketOf d p i with
  | none => d
  | some b =>
    if b.phase ≠ .converting then d
    else
      let m := bucketMembers d p b.entry
      match accPoison d p b.entry m with
      | some a =>
        let d := dataLoss d (some p) 0 a 64
        seqPump (modBucket d p i fun b => { b with phase := .rsPost, fail := some (BitVec.ofNat 8 sInternal) }) p
      | none =>
        let d := touched d p (beAcc b.entry) (4 * bucketElems m (beLen b.entry))
        let vs := accVals d p b.entry m
        let blocks := (chunks 40 vs).mapIdx fun g v => wireBlock d p b g v
        let fl := blocks.foldl (fun a t => a ||| t.flags) 0
        let (gf, ef) := convFlags vs fl
        let d := storeRange d p (beWire b.entry) (blocks.flatMap Bsi.bytes)
        let d := if gf = 0 then d else grdFlag d p gf
        seqPump (modBucket d p i fun b => { b with
          phase := .rsPost, satd := b.satd || fl / 4 % 2 == 1, flags := b.flags ||| ef, eloc := localMax vs }) p

/-! ### Finishing (R282) -/

/-- BUCKET_FINISH: decode, entry, ACC cleared, READY_SEM, in this order; a SHARD that can no longer be read ends the
bucket (R302). -/
def bucketFinish (d : Dev) (p i : Nat) : Dev :=
  match bucketOf d p i with
  | none => d
  | some b =>
    let e := b.entry
    let m := bucketMembers d p e
    let st := if b.redo then sRedone else sOk
    if (poisonAt d p false (beShard e) (beLen e)).isSome then bucketFail (lossAt d p (beShard e) (beLen e)) p i sInternal
    else
    let d := touched (noteDenied d p (beShard e) (beLen e)) p (beShard e) (beLen e)
    let shard := chunks 256 (readRange d p false (beShard e) (beLen e))
    let grad := shard.flatMap fun t => ((Bsi.read t).vals.map fun v => (round32 v 0).1)
    let d := storeRange d p (beGrad e) (bytesOf 4 grad)
    let emax := match b.emax with
      | some x => (x % 65536).toNat
      | none => 0x8000
    let d := if okFor d p (.bucket i) false (entryAddr d p i) 128 then
        writeRange d p false (entryAddr d p i + 72)
          ([BitVec.ofNat 8 (b.exp % 256).toNat] ++ toLe 2 emax ++ [BitVec.ofNat 8 st, BitVec.ofNat 8 b.flags])
      else countDenied d (entryAddr d p i) 128
    let d := storeRange d p (beAcc e) (List.replicate (4 * bucketElems m (beLen e)) 0)
    let d := addSem d p (beReadySem e) 1
    let d := if b.redo then grdFlag d p 1024 else d
    modBucket d p i fun b => { b with phase := .final, status := BitVec.ofNat 8 st }

/-! ### Verification (R279) -/

/-- The contributions kept for a block of the shard of table entry i. -/
def retainedFor (d : Dev) (p i g : Nat) : Option (List (List Byte)) :=
  (d.rill.retain.find? fun r => r.part == p && r.entry == some i &&
    inRange r.first ((r.contribs.headD []).length / 256) g).map fun r =>
      r.contribs.map fun c => (c.drop (256 * (g - r.first))).take 256

/-- Re-sums a block in the order of R241. -/
def resum (cs : List (List Byte)) : Option Bsi :=
  match cs.map Bsi.read with
  | [] => none
  | b :: bs => some (bs.foldl Bsi.add b)

/-- One block of the shard: verified, or re-summed and checked again. False after a second failure. -/
def verifyBlock (p i : Nat) (b : Bucket) (acc : Bool × Dev) (g : Nat) : Bool × Dev :=
  let d := acc.2
  if !acc.1 then acc
  else
    let e := b.entry
    let key := beBucket e
    let whole := cmRank (commOf d p (beComm e)) * (beLen e / 256) + g
    let ok (t : Bsi) : Bool := t.flags % 2 == 1 || blockCsum d p key whole t.elems == t.csum
    let a := beShard e + 256 * g
    if ok (Bsi.read (readRange d p false a 256)) then acc
    else
      let d := grdFlag (grdErr d p 1) p 2048
      let d := modBucket d p i fun b => { b with flags := b.flags ||| flResum }
      match (retainedFor d p i g).bind resum with
      | some t => if ok t then (true, storeRange d p a t.bytes) else (false, grdErr d p 2)
      | none => (false, grdErr d p 2)

/-- SHARD_VERIFY: after a reduce-scatter that ended OK, while SHARD can be read (R302). -/
def shardVerify (p i : Nat) (d : Dev) : Dev :=
  match bucketOf d p i with
  | none => d
  | some b =>
    if b.phase ≠ .verifying then d
    else if (poisonAt d p false (beShard b.entry) (beLen b.entry)).isSome then
      seqPump (bucketFail (lossAt d p (beShard b.entry) (beLen b.entry)) p i sInternal) p
    else
      let d := touched (noteDenied d p (beShard b.entry) (beLen b.entry)) p (beShard b.entry) (beLen b.entry)
      let n := beLen b.entry / 256
      let (good, d) := (List.range n).foldl (verifyBlock p i b) (true, d)
      let fl := (List.range n).foldl (fun a g => a ||| (readNat d p (beShard b.entry + 256 * g + 1) 1)) 0
      let ef := (if fl.testBit 0 then flOvf else 0) ||| (if fl.testBit 1 then flNf else 0) ||| (if fl.testBit 2 then flSat else 0)
      let d := if fl.testBit 0 then grdFlag d p 256 else d
      let d := modBucket d p i fun b => { b with flags := b.flags ||| ef }
      if !good then seqPump (selfFault (bucketFail d p i sInternal)) p
      else
        if b.predicted && !b.redo then
          let d := writeSummary d p b.entry (bucketMembers d p b.entry) (fl.testBit 0 || b.satd) b.eloc
          seqPump (modBucket d p i fun b => { b with phase := .sumPost }) p
        else seqPump (bucketFinish d p i) p

/-! ### Summary rounds (R272, R281) -/

/-- SUMMARY_DONE: the pre-pass gives the scale; the summary of a PREDICTED bucket finishes it or has
it redone. -/
def summaryDone (p i : Nat) (d : Dev) : Dev :=
  match bucketOf d p i with
  | none => d
  | some b =>
    match b.sumEnd with
    | none => d
    | some st =>
      let d := modBucket d p i fun b => { b with sumEnd := none }
      if st ≠ 0 then seqPump (bucketFail d p i st.toNat) p
      else if (poisonAt d p false (beSum b.entry) 8).isSome then
        seqPump (bucketFail (lossAt d p (beSum b.entry) 8) p i sInternal) p
      else
        let d := touched (noteDenied d p (beSum b.entry) 8) p (beSum b.entry) 8
        let (w0, e) := readSummary d p b.entry
        let exp := agreedExp e (bucketMembers d p b.entry)
        if b.phase = .prepass then modBucket d p i fun b => { b with phase := .converting, emax := e, exp := exp }
        else if b.phase = .summary ∧ w0 then
          seqPump (modBucket (grdErr d p 0) p i fun b => { b with phase := .converting, emax := e, exp := exp, redo := true }) p
        else if b.phase = .summary then seqPump (bucketFinish (modBucket d p i fun b => { b with emax := e }) p i) p
        else d

def execBucketFilled (p i : Nat) (s : State) := onDev (bucketFilled p i) s
def execBucketConverted (p i : Nat) (s : State) := onDev (bucketConverted p i) s
def execShardVerify (p i : Nat) (s : State) := onDev (shardVerify p i) s
def execSummaryDone (p i : Nat) (s : State) := onDev (summaryDone p i) s

/-! ### GRD_CFG and GRD_BTAB (R287, R288) -/

/-- No task of the partition is running or pre-empted: a step boundary (R373). -/
def noTasks (d : Dev) (p : Nat) : Bool :=
  (d.part p).ctxs.isEmpty && d.cores.all fun c => (c.2.task.map (·.part)) != some p

/-- At a step boundary the written values take effect. -/
def grdBoundary (d : Dev) (p : Nat) : Dev :=
  d.modPart p fun x => { x with
    grdCfg := x.grdCfgNext.getD x.grdCfg, grdCfgNext := none, grdBtab := x.grdBtabNext.getD x.grdBtab, grdBtabNext := none }

/-- What has just ended may have left no task: the boundary is taken then (R287, R373). -/
def grdNoTasks (d : Dev) (p : Nat) : Dev := if noTasks d p then grdBoundary d p else d

/-- The RW fields of GRD_CFG. -/
def grdCfgMask : U64 := BitVec.ofNat 64 0x3FF03FF7F7F

/-- A write is judged when it is made, and takes effect at the next step boundary. -/
def grdCfgWrite (p : Nat) (v : U64) (d : Dev) : Dev :=
  let n := fld v 14 8
  if p ≥ 16 then d
  else if n = 0 ∨ n > 64 then logIgnored d srcGrd (.grdCfg p) v.toNat
  else
    grdNoTasks (d.modPart p fun x => { x with grdCfgNext := some (merge grdCfgMask 0 v) }) p

def grdBtabMask : U64 := BitVec.ofNat 64 (2 ^ 61 - 1)

def grdBtabWrite (p : Nat) (v : U64) (d : Dev) : Dev :=
  grdNoTasks (d.modPart p fun x => { x with grdBtabNext := some (merge grdBtabMask 0 v) }) p

def execGrdCfgWrite (p : Nat) (v : U64) (s : State) := onLive (grdCfgWrite p v) s

end Sys2Proof.Machine
end

