-- ==== Sys2Proof/Machine/Collectives.lean ====
section
/-! DEFINITION. Rill, part 3: what each command of the collective engine does (R236 to R257), and the
queries of R162 for both engines. -/

namespace Sys2Proof.Machine

/-- A COLL_ACK cell of one KIND, taken by the command of that KIND. -/
def onColl (d : Dev) (port : Nat) (c : Cell) (kind : Nat) (deliver : Dev → Dev) : Dev :=
  onCell d port c [tyCollAck] fun d1 => if ctlKind c = kind then seqPumpAll (deliver d1) else d

/-- An event of Rill, after which the sequencers may post. -/
def onRill (f : Dev → Dev) (s : State) : Host.Outcome State Fault Refusal := onDev (fun d => seqPumpAll (f d)) s

/-- The answer to a control cell (R250). -/
def answerColl (d : Dev) (c : Cell) (kind chunk : Nat) : Dev :=
  sendFor d c.part.toNat (mkCell d c.src 0 tyCollAck c.part.toNat (collTag (tagComm c) 7 0) 0
    (ctlPay kind (ctlSeq c) [(96, chunk)]))

/-! ### Slots and chunks -/

/-- The first collective of the communicator that waits for its slots, running or not (R244). -/
def slotless (d : Dev) (p comm : Nat) : Option Coll :=
  d.rill.colls.find? fun x => x.part == p && x.comm == comm && !x.ended && x.openStatus.isNone

/-- COLL_SLOTS_RESERVED: a waiting collective's slots, then its OPEN cells (R244, R250). -/
def slotsReserved (p comm : Nat) (d : Dev) : Dev :=
  match slotless d p comm with
  | none => d
  | some x =>
    let pool := cmPool x.cm
    match d.cst.waits.find? fun w => w.pool == pool && w.part == p with
    | some w =>
      if w.who = .slots x.uid then
        match grantWaiting d pool p with
        | (some (_, is), d) => settleColl (openColl d x.uid is) p comm
        | (none, d) => d
      else d
    | none => d

def execCollSlotsReserved (p comm : Nat) (s : State) := onRill (slotsReserved p comm) s

def execChunkStart (p comm chunk : Nat) (s : State) := onRill (chunkStart p comm chunk) s

def execStageSum (p comm stage chunk : Nat) (s : State) := onRill (stageSum p comm stage chunk) s

/-! ### Cells -/

/-- A data cell waits in its input buffer while its slot lies in DRAM and the partition's DRAM Weir is
empty (R366). -/
def slotAwaits (d : Dev) (c : Cell) : Bool :=
  mayWait d c && (match curC d c.part.toNat (tagComm c) with
    | some x => !slotTokens d x
    | none => false)

def execCollData (port : Nat) (c : Cell) (s : State) :=
  onRill (fun d => onCellWhen slotAwaits d port c [tyCollData] (collData c)) s

/-- Cells of collectives not yet posted are kept while their 256 KiB store has room (R250). -/
def keepEarly (d : Dev) (c : Cell) (kind chunk : Nat) : Dev :=
  let same (e : Cell) : Bool := e.src == c.src && e.part == c.part && tagComm e == tagComm c && payBits e == payBits c
  if d.rill.store.any same then answerColl d c kind chunk
  else if 64 * (d.rill.store.length + 1) ≤ 262144 then
    answerColl { d with rill := { d.rill with store := d.rill.store ++ [c] } } c kind chunk
  else if ctlKind c = kOpen then rillErr d 3
  else d

/-- An OPEN, ABORT or MISMATCH: for a posted collective, for one that has gone, or for one to come. -/
def controlCell (c : Cell) (kind chunk : Nat) (take : Dev → Nat → Cell → Dev) (d : Dev) : Dev :=
  let p := c.part.toNat
  let comm := tagComm c
  if !(d.part p).valid then d
  else match seqC d p comm (ctlSeq c) with
    | some x => settleColl (take (answerColl d c kind chunk) x.uid c) p comm
    | none =>
      if cmValid (commOf d p comm) && decide (ctlSeq c < cmNext (commOf d p comm)) then answerColl d c kind chunk
      else keepEarly d c kind chunk

/-- COLL_OPEN (R250, R252). -/
def execCollOpen (port : Nat) (c : Cell) (s : State) :=
  onDev (fun d => onColl d port c kOpen (controlCell c kOpenAck 0 takeOpen)) s

/-- COLL_ABORT (R257). -/
def execCollAbort (port : Nat) (c : Cell) (s : State) :=
  onDev (fun d => onColl d port c kAbort (controlCell c kAck 0xFFFFFFFF takeAbort)) s

/-- COLL_MISMATCH (R253). -/
def execCollMismatch (port : Nat) (c : Cell) (s : State) :=
  onDev (fun d => onColl d port c kMismatch (controlCell c kAck (0xFFFFFFF0 + fld (payBits c) 39 38) takeMismatch)) s

/-- A kept control cell is acknowledged. -/
def dropKept (d : Dev) (c : Cell) (kind level : Nat) : Dev :=
  let k (y : CollCtl) : Bool := y.part == c.part.toNat && y.comm == tagComm c && y.seq.toNat == ctlSeq c && y.kind == kind &&
    y.level == level && y.cell.dest == c.src
  { d with rill := { d.rill with ctl := dropFirst k d.rill.ctl } }

/-- COLL_OPEN_ACK (R250). -/
def openAck (c : Cell) (d : Dev) : Dev :=
  let d := dropKept d c kOpen 0
  match seqC d c.part.toNat (tagComm c) (ctlSeq c) with
  | none => d
  | some x =>
    match rankOfDev x c.src with
    | none => d
    | some r =>
      settleColl (modC d x.uid fun x => if x.openAcked.contains r then x else { x with openAcked := x.openAcked ++ [r] })
        x.part x.comm

def execCollOpenAck (port : Nat) (c : Cell) (s : State) := onDev (fun d => onColl d port c kOpenAck (openAck c)) s

/-- FREED as a peer reports it. -/
def noteFreed (d : Dev) (x : Coll) (st r f : Nat) : Dev :=
  modC d x.uid fun x => { x with freedBy := tput x.freedBy (16384 * st + r) (max f (freedByOf x st r)) }

/-- COLL_ACK: of a control cell, or of a transfer with the peer's FREED (R245, R250, R254). -/
def collAck (c : Cell) (d : Dev) : Dev :=
  let st := tagStage c
  let k := ctlChunk c
  if st = 7 then
    if k = 0xFFFFFFFF then dropKept d c kAbort 0 else dropKept d c kMismatch (k - 0xFFFFFFF0)
  else match seqC d c.part.toNat (tagComm c) (ctlSeq c) with
    | none => d
    | some x =>
      match rankOfDev x c.src with
      | none => d
      | some r =>
        if x.ended then d
        else
          let d := modOutC d x.uid st k r fun o => { o with acked := true, timing := false }
          settleColl (noteFreed d x st r (fld (payBits c) 159 128)) x.part x.comm

def execCollAck (port : Nat) (c : Cell) (s : State) := onDev (fun d => onColl d port c kAck (collAck c)) s

/-- COLL_FREE (R245). -/
def collFree (c : Cell) (d : Dev) : Dev :=
  match seqC d c.part.toNat (tagComm c) (ctlSeq c) with
  | none => d
  | some x =>
    match rankOfDev x c.src with
    | none => d
    | some r => if x.ended then d else settleColl (noteFreed d x (tagStage c) r (fld (payBits c) 159 128)) x.part x.comm

def execCollFree (port : Nat) (c : Cell) (s : State) := onDev (fun d => onColl d port c kFree (collFree c)) s

/-- COLL_PROBE is answered with FREE (R245). -/
def collProbe (c : Cell) (d : Dev) : Dev :=
  match seqC d c.part.toNat (tagComm c) (ctlSeq c) with
  | none => d
  | some x =>
    match rankOfDev x c.src with
    | none => d
    | some r => sendCtl d x r (tagStage c) 0 kFree [(128, freedOf x (tagStage c))]

def execCollProbe (port : Nat) (c : Cell) (s : State) := onDev (fun d => onColl d port c kProbe (collProbe c)) s

def execCollEmpty (port : Nat) (c : Cell) (s : State) := onDev (fun d => onColl d port c kEmpty (collEmpty c)) s

/-! ### Retries (R254, R255) -/

/-- The transfer is resent with RETRY, or its peer escalated after the last retry. -/
def collRetry (d : Dev) (x : Coll) (o : CollXfer) : Dev :=
  if o.retries < x.retryLimit then
    resendXfer (modOutC (rillErr d 0) x.uid o.stage o.chunk o.peer fun o => { o with retries := o.retries + 1 }) x o
  else
    escalate (modOutC (rillErr d 1) x.uid o.stage o.chunk o.peer fun o => { o with timing := false }) (x.mem.getD o.peer 0) false

/-- COLL_NAK: resent as for a timeout (R255). -/
def collNak (c : Cell) (d : Dev) : Dev :=
  match seqC d c.part.toNat (tagComm c) (ctlSeq c) with
  | none => d
  | some x =>
    match (rankOfDev x c.src).bind fun r => outOf x (tagStage c) (ctlChunk c) r with
    | none => d
    | some o => if o.acked || o.isEmpty then d else collRetry d x o

def execCollNak (port : Nat) (c : Cell) (s : State) := onDev (fun d => onColl d port c kNak (collNak c)) s

/-- COLL_TRANSFER_TIMEOUT (R254). -/
def collTimeout (p comm st chunk peer : Nat) (d : Dev) : Dev :=
  match curC d p comm with
  | none => d
  | some x =>
    match outOf x st chunk peer with
    | none => d
    | some o => if o.acked || !o.timing then d else collRetry d x o

def execCollTransferTimeout (p comm stage chunk peer : Nat) (s : State) := onRill (collTimeout p comm stage chunk peer) s

/-- COLL_WINDOW_PROBE: a transfer is ready and its window has been closed (R245). -/
def windowProbe (p comm st peer : Nat) (d : Dev) : Dev :=
  match curC d p comm with
  | none => d
  | some x =>
    if x.slots.any fun s => s.stage == st && s.own.isSome && s.unsent.contains peer && !windowOpen x st s.chunk peer then
      sendCtl d x peer st 0 kProbe []
    else d

def execCollWindowProbe (p comm stage peer : Nat) (s : State) := onRill (windowProbe p comm stage peer) s

/-- COLL_CONTROL_RESEND: what the peer has not acknowledged of this KIND goes again (R250). -/
def controlResend (p comm kind peer : Nat) (d : Dev) : Dev :=
  let kept := d.rill.ctl.filter fun k => k.part == p && k.comm == comm && k.kind == kind && k.peer == peer
  let d := sendAll d p (kept.map fun k => { k.cell with retry := true })
  match curC d p comm with
  | none => d
  | some x =>
    if kind = kEmpty then
      sendAll d p ((x.outs.filter fun o => o.isEmpty && !o.acked && o.peer == peer).flatMap fun o =>
        o.cells.map fun c => { c with retry := true })
    else d

def execCollControlResend (p comm kind peer : Nat) (s : State) := onRill (controlResend p comm kind peer) s

/-- The end of a resend hold towards a peer: what it held back may go (R254). -/
def rillHoldExpiry (p comm peer : Nat) (d : Dev) : Dev :=
  let k (h : CollHold) : Bool := h.part == p && h.comm == comm && h.peer == peer
  settleColl { d with rill := { d.rill with holds := dropFirst k d.rill.holds } } p comm

/-! ### Queries (R162) -/

def execPeerQueryTimer (rill : Bool) (p : Nat) (id : U32) (dev : DevId) (s : State) :=
  onDev (if rill then rillQueryTimer p id dev else slcQueryTimer p id dev) s

/-- PEER_QUERY is answered with PEER_STATE. -/
def peerQueryCell (c : Cell) (d : Dev) : Dev :=
  let pay := payBits c
  let rill := bit pay 0
  let p := c.part.toNat
  let id := fld pay 63 32
  let seq := fld pay 95 64
  let (st, status) := if rill then rillState d p id seq else slcState d p (BitVec.ofNat 32 id)
  route d (mkCell d c.src 0 tyPeerState p 0 0 (.bits (queryPay rill st status id seq)))

def execPeerQuery (port : Nat) (c : Cell) (s : State) := onDev (fun d => onCell d port c [tyPeerQuery] (peerQueryCell c)) s

def execPeerState (port : Nat) (c : Cell) (s : State) :=
  onDev (fun d => onCell d port c [tyPeerState] fun d =>
    if bit (payBits c) 0 then seqPumpAll (rillPeerState c d) else slcPeerState c d) s

/-- A query left unanswered escalates the peer; the member keeps querying (R162). -/
def execPeerQueryUnanswered (rill : Bool) (p : Nat) (id : U32) (dev : DevId) (s : State) :=
  onDev (fun d =>
    if d.slc.queries.any fun q => q.rill == rill && q.part == p && q.id == id && q.dev == dev then
      escalate d dev false
    else d) s

end Sys2Proof.Machine
end

