-- ==== Sys2Proof/Machine/Ftl.lean ====
section
/-! DEFINITION. The flash tier: logical blocks, placement, wear, read disturb, scrub and relocation
(R306 to R311, R318 to R320). Placement is the model's (log 38): no read sees it. -/

namespace Sys2Proof.Machine

def blockSize : Nat := 4096

/-- Blocks of 4 KiB in an erase block; four to a page of 16 KiB. -/
def ebBlocks : Nat := 6144

/-- Erase blocks of 24 MiB in 3.07 TB. -/
def ebTotal : Nat := 121990

/-- Rated endurance in bytes programmed. -/
def rating : Nat := 6000000000000000

def ftlErr (d : Dev) (i : Nat) : Dev := { d with ftl := { d.ftl with err := bump d.ftl.err i 1 } }

/-- The logical block of a partition's LBA; none beyond its extent list (R306). -/
def lbaKey (d : Dev) (p lba : Nat) : Option Nat :=
  ((d.part p).flash[lba / 4096]?).map fun e => 4096 * e + lba % 4096

/-- The partition and LBA that a logical block belongs to. -/
def lbaOwner (d : Dev) (key : Nat) : Option (Nat × Nat) :=
  d.parts.findSome? fun x => (x.2.flash.findIdx? (· == key / 4096)).map fun i => (x.1, 4096 * i + key % 4096)

/-! ### Wear (R311) -/

/-- FTL_STATUS.WEAR in thousandths of the rating. -/
def wearOf (f : Flash) : Nat := min 0xFFFF (f.programmed * 1000 / rating)

/-- Bytes programmed; an EVENT at 80, 90 and 100 per cent. -/
def addWear (d : Dev) (n : Nat) : Dev :=
  let d := { d with ftl := { d.ftl with programmed := d.ftl.programmed + n } }
  let reached := ([800, 900, 1000].filter (· ≤ wearOf d.ftl)).length
  let due := ([80, 90, 100].take reached).drop d.ftl.announced
  let d := due.foldl (fun d pc => sendEvent d
    { code := 0x0A, mailbox := 0, status := sOk, data := [BitVec.ofNat 8 pc], sev := sevWarning
      source := srcFtl }) d
  { d with ftl := { d.ftl with announced := max d.ftl.announced reached } }

/-! ### Placement (R308, R309) -/

def eraseCount (f : Flash) (eb : Nat) : Nat := tgetD f.erases eb 0

def ebFree (f : Flash) (eb : Nat) : Bool :=
  decide (eb < ebTotal) && !f.used.contains eb && !f.retired.contains eb

/-- The free erase block with the lowest erase count, the lowest number first (R309). -/
def freeEb (f : Flash) : Option Nat :=
  match (List.range (f.used.length + f.retired.length + f.erases.length + 1)).find? fun e =>
      ebFree f e && eraseCount f e == 0 with
  | some e => some e
  | none => ((sortBy (·.2) f.erases).find? fun e => ebFree f e.1).map (·.1)

/-- The logical blocks that lie in an erase block. -/
def liveIn (f : Flash) (eb : Nat) : List Nat := (f.place.filter fun x => x.2 / ebBlocks == eb).map (·.1)

/-- An erase block is erased: its page-read count restarts at zero (R309). -/
def eraseEb (f : Flash) (eb : Nat) : Flash :=
  { f with used := f.used.filter (· != eb), reads := tdel f.reads eb, soft := f.soft.filter (· != eb)
           erases := tput f.erases eb (eraseCount f eb + 1)
           relocQ := f.relocQ.filter fun x => x.1 != eb }

/-- The spread of erase counts exceeds WL_DELTA: the least-erased block in use is to be moved. -/
def checkSpread (f : Flash) : Flash :=
  match sortBy (eraseCount f) f.used with
  | [] => f
  | least :: _ =>
    let most := f.erases.foldl (fun a e => max a e.2) 0
    if most > eraseCount f least + fld f.cfg 15 8 ∧ !(f.relocQ.any fun x => x.1 == least) then
      { f with relocQ := f.relocQ ++ [(least, 2)] }
    else f

/-- Opens an erase block for new writes: the free one of R309, or one whose blocks are all stale. -/
def openNew (f : Flash) : Flash :=
  let f := match freeEb f with
    | some _ => f
    | none => match f.used.find? fun e => (liveIn f e).isEmpty with
      | some e => checkSpread (eraseEb f e)
      | none => f
  match freeEb f with
  | some e => { f with openEb := some (e, 0), used := f.used ++ [e] }
  | none => { f with openEb := none }

/-- A logical block is programmed at the next place of the open erase block. -/
def placeBlock (f : Flash) (key : Nat) : Flash :=
  let f := match f.openEb with
    | some (_, n) => if n < ebBlocks then f else openNew f
    | none => openNew f
  match f.openEb with
  | some (e, n) => { f with place := tput f.place key (ebBlocks * e + n), openEb := some (e, n + 1) }
  | none => f

/-! ### Block access (R306, R307) -/

/-- A block that has never been written, or has been trimmed, reads as zeros. -/
def readBlock (f : Flash) (key : Nat) : List Byte := mread (tgetD f.blocks key []) 0 blockSize

def writeBlock (d : Dev) (key : Nat) (bs : List Byte) : Dev :=
  let f := placeBlock d.ftl key
  addWear { d with ftl := { f with
    blocks := tput f.blocks key (mwrite [] 0 bs), lost := f.lost.filter (· != key), weak := f.weak.filter (· != key) } } blockSize

def trimBlock (d : Dev) (key : Nat) : Dev :=
  { d with ftl := { d.ftl with
      blocks := tdel d.ftl.blocks key, place := tdel d.ftl.place key
      lost := d.ftl.lost.filter (· != key), weak := d.ftl.weak.filter (· != key) } }

/-- Every block of an extent is trimmed: it is granted so (R299). -/
def trimExtent (d : Dev) (e : Nat) : Dev :=
  let out (k : Nat) : Bool := k / 4096 != e
  { d with ftl := { d.ftl with
      blocks := d.ftl.blocks.filter fun x => out x.1, place := d.ftl.place.filter fun x => out x.1
      lost := d.ftl.lost.filter out, weak := d.ftl.weak.filter out } }

/-- Page reads are counted against their erase blocks; a block at RD_LIMIT waits for relocation
(R309). -/
def countReads (d : Dev) (keys : List Nat) : Dev :=
  let pages := ((keys.filterMap fun k => tget d.ftl.place k).map (· / 4)).eraseDups
  pages.foldl (fun d pg =>
    let eb := pg / (ebBlocks / 4)
    let f := d.ftl
    let n := tgetD f.reads eb 0 + 1
    let q := if n ≥ fld f.cfg 35 16 ∧ !(f.relocQ.any fun x => x.1 == eb) then f.relocQ ++ [(eb, 0)] else f.relocQ
    { d with ftl := { f with reads := tput f.reads eb n, relocQ := q } }) d

/-! ### Background work -/

/-- The live blocks of an erase block are programmed elsewhere. -/
def moveLive (d : Dev) (eb : Nat) : Dev :=
  let keys := (liveIn d.ftl eb).filter fun k => !d.ftl.lost.contains k
  let f := match d.ftl.openEb with
    | some (e, _) => if e = eb then { d.ftl with openEb := none } else d.ftl
    | none => d.ftl
  addWear { d with ftl := keys.foldl placeBlock f } (blockSize * keys.length)

/-- FLASH_RELOCATION: a relocation that was waiting completes and its block is erased (R309). -/
def flashRelocation (eb : Nat) (d : Dev) : Dev :=
  match d.ftl.relocQ.find? fun x => x.1 == eb with
  | none => d
  | some (_, why) =>
    let d := moveLive d eb
    let d := { d with ftl := checkSpread (eraseEb d.ftl eb) }
    if why = 0 then ftlErr d 0 else if why = 1 then ftlErr d 1 else d

def execFlashRelocation (eb : Nat) (s : State) := onDev (flashRelocation eb) s

/-- An uncorrectable block: logged and lost, its erase block retired, the rest of it moved (R310). -/
def loseKey (d : Dev) (key : Nat) : Dev :=
  let d := ftlErr d 3
  match tget d.ftl.place key with
  | none => d
  | some at_ =>
    let eb := at_ / ebBlocks
    let d := { d with ftl := { d.ftl with
      lost := d.ftl.lost ++ [key], weak := d.ftl.weak.filter (· != key), place := tdel d.ftl.place key } }
    let d := logCounted d sevError srcFtl (.ftlErr 3) key (tgetD d.ftl.err 3 0).toNat
    let d := match lbaOwner d key with
      | some (p, lba) => dataLoss d (some p) 0 lba blockSize
      | none => d
    let d := moveLive d eb
    { d with ftl := { d.ftl with
        retired := d.ftl.retired ++ [eb], used := d.ftl.used.filter (· != eb), soft := d.ftl.soft.filter (· != eb)
        relocQ := d.ftl.relocQ.filter fun x => x.1 != eb } }

/-- Reads of blocks: counted against their erase blocks and, where hard decoding fails, as soft retries; a block that
no retry corrects is found so (R309, R310). What was found earlier costs no read. -/
def flashRead (d : Dev) (keys : List Nat) : Dev :=
  let keys := keys.filter fun k => !d.ftl.lost.contains k
  let hard (k : Nat) : Bool := match tget d.ftl.place k with
    | some a => d.ftl.soft.contains (a / ebBlocks)
    | none => false
  let soft (d : Dev) (k : Nat) : Dev :=
    let d := ftlErr d 2
    logCounted d sevWarning srcFtl (.ftlErr 2) k (tgetD d.ftl.err 2 0).toNat
  let d := (keys.filter hard).foldl soft (countReads d keys)
  (keys.filter d.ftl.weak.contains).foldl loseKey d

/-- FLASH_PATROL_SCRUB of a written erase block (R309, R310). `bits` is the most corrected bits of a
codeword. The scrub reads every written block. -/
def scrubErase (eb : Nat) (r : MediaResult) (d : Dev) : Dev :=
  let d := flashRead d (liveIn d.ftl eb)
  if d.ftl.retired.contains eb then d
  else match r with
  | .clean => d
  | .corrected bits =>
    let d := logOp d sevWarning none srcFtl sOk 0 0xFFFF eb bits
    if bits > fld d.ftl.cfg 47 40 ∧ !(d.ftl.relocQ.any fun x => x.1 == eb) then
      { d with ftl := { d.ftl with relocQ := d.ftl.relocQ ++ [(eb, 1)] } }
    else d
  | .uncorrectable =>
    match liveIn d.ftl eb with
    | key :: _ => loseKey d key
    | [] =>
      let d := ftlErr d 3
      let d := logCounted d sevError srcFtl (.ftlErr 3) eb (tgetD d.ftl.err 3 0).toNat
      { d with ftl := { d.ftl with
        retired := d.ftl.retired ++ [eb], used := d.ftl.used.filter (· != eb), soft := d.ftl.soft.filter (· != eb)
        relocQ := d.ftl.relocQ.filter fun x => x.1 != eb } }

/-- A change of the medium, which the table has no row for: the reads of an erase block need soft retries from now on,
or a block in it cannot be corrected any more, as its next read will find (DESIGN CHOICE, log 38). -/
def ageErase (eb : Nat) (r : MediaResult) (d : Dev) : Dev :=
  match r with
  | .clean => d
  | .corrected _ => { d with ftl := { d.ftl with soft := eb :: d.ftl.soft.filter (· != eb) } }
  | .uncorrectable => { d with ftl := { d.ftl with weak := (d.ftl.weak ++ (liveIn d.ftl eb).take 1).eraseDups } }

/-- Numbers beyond the last erase block stand for such a change. -/
def flashScrub (eb : Nat) (r : MediaResult) (d : Dev) : Dev :=
  if ebTotal ≤ eb then (if d.ftl.used.contains (eb - ebTotal) then ageErase (eb - ebTotal) r d else d)
  else if !d.ftl.used.contains eb then d
  else scrubErase eb r d

def execFlashPatrolScrub (eb : Nat) (r : MediaResult) (s : State) := onLive (flashScrub eb r) s

end Sys2Proof.Machine
end

