-- ==== Sys2Proof/Machine/Bulk.lean ====
section
/-! DEFINITION. Bulk descriptors and channels: the fields of R338, check values (R334), the status a
descriptor takes (R341) and its half event (R335), the requests of a fabric transfer (R339). -/

namespace Sys2Proof.Machine

def bdOp (x : BitVec 512) : Nat := fld x 3 0
def bdOwn (x : BitVec 512) : Bool := bit x 4
def bdFixS (x : BitVec 512) : Bool := bit x 5
def bdFixD (x : BitVec 512) : Bool := bit x 6
def bdCrc (x : BitVec 512) : Nat := fld x 8 7
def bdCvt (x : BitVec 512) : Bool := bit x 9
def bdSigEn (x : BitVec 512) : Bool := bit x 10
def bdHalf (x : BitVec 512) : Bool := bit x 11
def bdSem (x : BitVec 512) : Nat := fld x 21 12
def bdSfmt (x : BitVec 512) : Nat := fld x 26 22
def bdDfmt (x : BitVec 512) : Nat := fld x 31 27
def bdRnd (x : BitVec 512) : Nat := fld x 33 32
def bdSeed (x : BitVec 512) : Nat := fld x 35 34
def bdStream (x : BitVec 512) : Nat := fld x 47 36
def bdPool (x : BitVec 512) : Nat := fld x 53 48
def bdSrc (x : BitVec 512) : Nat := fld x 127 64
def bdDst (x : BitVec 512) : Nat := fld x 191 128
def bdLen (x : BitVec 512) : Nat := fld x 223 192

def chanOf (d : Dev) (ch : Nat) : Chan := tgetD d.dma.chans ch {}

def modChan (d : Dev) (ch : Nat) (f : Chan → Chan) : Dev :=
  { d with dma := { d.dma with chans := tput d.dma.chans ch (f (chanOf d ch)) } }

/-- DMA_CHAN_CFG[n] (R346). -/
def Chan.en (x : Chan) : Bool := bit x.cfg 0
def Chan.part (x : Chan) : Nat := fld x.cfg 4 1
def Chan.kickSem (x : Chan) : Nat := fld x.cfg 15 6
def Chan.ringLen (x : Chan) : Nat := 2 ^ fld x.cfg 20 16

/-- The k-th descriptor that the channel holds (R300). -/
def descOp (d : Dev) (ch k : Nat) : OpId := .desc ch ((chanOf d ch).completed.toNat + k)

/-- The channel's first descriptor that has not ended. -/
def frontOp (d : Dev) (ch : Nat) : OpId := descOp d ch (((chanOf d ch).fetched.findIdx? fun x => !x.done).getD 0)

def dmaErr (d : Dev) (i : Nat) : Dev := { d with dma := { d.dma with err := bump d.dma.err i 1 } }

/-- The check value of R334: CRC-32C in 4 bytes or CRC-64/ECMA-182 in 8. -/
def checkValue (kind : Nat) (bs : List Byte) : List Byte :=
  if kind = 1 then toLe 4 (crc32c bs) else if kind = 2 then toLe 8 (crc64 bs) else []

def checkLen (kind : Nat) : Nat := if kind = 1 then 4 else if kind = 2 then 8 else 0

/-- The descriptor ends with a status and a cause. -/
def Desc.finish (x : Desc) (status cause : Nat) : Desc :=
  { x with done := true, status := BitVec.ofNat 8 status, cause := cause }

/-- The half event: with SIG_EN and HALF, DONE_SEM gains 1 once half of LEN has been moved
(R335, R338). -/
def halfEvent (d : Dev) (p : Nat) (x : Desc) (sourceBytes : Nat) : Dev × Desc :=
  if bdSigEn x.w && bdHalf x.w && !x.halfDone && decide (2 * sourceBytes ≥ bdLen x.w) then
    (addSem d p (bdSem x.w) 1, { x with halfDone := true })
  else (d, x)

/-- A descriptor leaves its channel: COMPLETED, and the count and the log of one that did not end OK (R341, R347,
R348). -/
def countEnd (d : Dev) (ch : Nat) (x : Desc) : Dev :=
  let d := modChan d ch fun c => { c with completed := c.completed + 1 }
  if x.status ≠ 0 then
    logOp (dmaErr d 1) (if x.status.toNat = sInternal then sevError else sevNotice) (some x.part) srcDma
      x.status.toNat x.cause ch 0 x.addr
  else d

/-! ### The fabric transfers (R339) -/

/-- LOAD, STORE or stream fence as a request descriptor (R215). -/
def fabricReq (op fabricAddr laddr len : Nat) : BitVec 512 :=
  pack 512 [(0, op), (32, len), (64, fabricAddr), (128, laddr)]

/-- The requests of a transfer, cut at 256-byte boundaries of the fabric address. -/
def fabricParts (op : Nat) : Nat → Nat → Nat → Nat → List (BitVec 512)
  | 0, _, _, _ => []
  | f + 1, fa, la, n =>
    if n = 0 then []
    else
      let k := min n (256 - fa % 256)
      fabricReq op fa la k :: fabricParts op f (fa + k) (la + k) (n - k)

/-- All requests of a descriptor, the stream fence last (R222, R339). -/
def descParts (x : BitVec 512) : List (BitVec 512) :=
  let n := bdLen x
  (if bdOp x = 5 then fabricParts 1 (n / 256 + 2) (bdSrc x) (bdDst x) n
   else fabricParts 2 (n / 256 + 2) (bdDst x) (bdSrc x) n) ++ [fabricReq 7 0 0 0]

end Sys2Proof.Machine
end

