-- ==== Sys2Proof/Machine/Engines.lean ====
section
/-! DEFINITION. The bulk engines' active and shadow register sets and the choice of the next descriptor
(R332, R342, R365, R366). -/

namespace Sys2Proof.Machine

def engOf (d : Dev) (e : Nat) : Engine := tgetD d.dma.engs e {}

def modEng (d : Dev) (e : Nat) (f : Engine → Engine) : Dev :=
  { d with dma := { d.dma with engs := tput d.dma.engs e (f (engOf d e)) } }

/-- Descriptors of a channel that stand in a register set or wait for one, in ring order. One that ended at its fetch
needs no set. -/
def standing (c : Chan) : List Desc := c.fetched.filter fun x => x.started || !x.done

/-- Register sets that hold a descriptor of the channel. -/
def setsOf (g : Engine) (ch : Nat) : Nat := b2n (g.active == some ch) + b2n (g.shadow == some ch)

/-- The channel's next descriptor that stands in neither set. -/
def nextDesc (d : Dev) (ch : Nat) : Option Desc := (standing (chanOf d ch))[setsOf (engOf d (ch / 8)) ch]?

/-- The Weirs an operation needs: DRAM, flash for flash operations, fabric injection for fabric ones (R342, R366). -/
def bdWeirOk (d : Dev) (p op : Nat) : Bool :=
  (op == 4 || weirOk d p 0) && (!(op == 2 || op == 3 || op == 4) || weirOk d p 1) && (!(op == 5 || op == 6) || weirOk d p 2)

/-- The descriptor has started, or its partition's Weirs admit it. -/
def admitted (d : Dev) (x : Desc) : Bool := x.started || bdWeirOk d x.part (bdOp x.w)

/-- The channel whose descriptor is loaded next: 8e + 7 first, then the partitions in weighted round
robin and a partition's channels in ascending order, round robin. A partition with an empty Weir is passed over
(R342, R365). -/
def chooseChan (d : Dev) (e : Nat) : Option (Nat × Dev) :=
  let g := engOf d e
  let has (p ch : Nat) : Bool := match nextDesc d ch with
    | some x => x.part == p && admitted d x
    | none => false
  if has e (8 * e + 7) then some (8 * e + 7, d)
  else
    let chans := (List.range 7).map (8 * e + ·)
    match nextPart d (fun p => chans.any (has p)) g.lastPart g.used with
    | none => none
    | some p =>
      let last := tgetD g.lastChan p 127
      let mine := chans.filter (has p)
      match (mine.find? fun c => last < 128 && c > last) <|> mine.head? with
      | none => none
      | some c => some (c, modEng d e fun g => { g with
          used := usedNow d g.lastPart g.used p, lastPart := p, lastChan := tput g.lastChan p c })

/-- The k-th standing descriptor of the set's channel is held back by an empty Weir. -/
def heldBack (d : Dev) (set : Option Nat) (k : Nat) : Bool :=
  match set.bind fun ch => (standing (chanOf d ch))[k]? with
  | some x => !admitted d x
  | none => false

/-- Descriptors that have not started leave their sets while an empty Weir holds them back: they count among the starts
of their partition's round no more (R365, R366). -/
def passOver (d : Dev) (e : Nat) : Dev :=
  let g := engOf d e
  let both := g.active.isSome && g.active == g.shadow
  let a := heldBack d g.active 0
  let s := heldBack d g.shadow (b2n both) || (a && both)
  let own (set : Option Nat) : Bool := set.any fun ch => (chanOf d ch).part == g.lastPart && ch % 8 != 7
  if a || s then modEng d e fun g => { g with
    active := if a then none else g.active, shadow := if s then none else g.shadow
    used := g.used - (b2n (a && own g.active) + b2n (s && own g.shadow)) }
  else d

/-- The shadow set takes over from a free active set, and both are filled (R332). -/
def loadEngine (d : Dev) (e : Nat) : Dev :=
  let d := passOver d e
  let d := modEng d e fun g => if g.active.isNone then { g with active := g.shadow, shadow := none } else g
  let d := if (engOf d e).active.isNone then match chooseChan d e with
      | some (c, d) => modEng d e fun g => { g with active := some c }
      | none => d
    else d
  if (engOf d e).active.isSome && (engOf d e).shadow.isNone then match chooseChan d e with
    | some (c, d) => modEng d e fun g => { g with shadow := some c }
    | none => d
  else d

/-- Every engine, after a Weir was filled. -/
def loadEngines (d : Dev) : Dev := (d.dma.engs.map (·.1)).foldl loadEngine d

/-- The engine's active set is free again. -/
def endActive (d : Dev) (ch : Nat) : Dev :=
  loadEngine (modEng d (ch / 8) fun g => if g.active = some ch then { g with active := none } else g) (ch / 8)

end Sys2Proof.Machine
end

