-- ==== Sys2Proof/Machine/Rmem.lean ====
section
/-! DEFINITION. Rack memory: requests at the source, their application at the target, flags, fences,
multicast, retries, the gateway to other racks (R211 to R233). -/

namespace Sys2Proof.Machine

/-! ### Request descriptors (R215) -/

def rqOp (x : BitVec 512) : Nat := fld x 3 0
def rqGlobal (x : BitVec 512) : Bool := bit x 4
def rqTgt (x : BitVec 512) : Bool := bit x 5
def rqAop (x : BitVec 512) : Nat := fld x 8 6
def rqA64 (x : BitVec 512) : Bool := bit x 9
def rqEtype (x : BitVec 512) : Nat := fld x 14 10
def rqSigEn (x : BitVec 512) : Bool := bit x 15
def rqSigSem (x : BitVec 512) : Bool := bit x 16
def rqSigIdx (x : BitVec 512) : Nat := fld x 26 17
def rqLen (x : BitVec 512) : Nat := fld x 40 32
def rqGroup (x : BitVec 512) : Nat := fld x 55 48
def rqOff (x : BitVec 512) : Nat := fld x 111 64
def rqDev (x : BitVec 512) : DevId := BitVec.ofNat 16 (fld x 127 112)
def rqLaddr (x : BitVec 512) : Nat := fld x 175 128
def rqStat (x : BitVec 512) : Nat := fld x 239 192
def rqA (x : BitVec 512) : Nat := fld x 319 256
def rqB (x : BitVec 512) : Nat := fld x 383 320
def rqFlagOff (x : BitVec 512) : Nat := fld x 431 384
def rqFlagVal (x : BitVec 512) : Nat := fld x 511 448

/-- OP numbers (R215). -/
def opLoad : Nat := 1
def opStore : Nat := 2
def opFlagged : Nat := 3
def opAtomic : Nat := 4
def opReduce : Nat := 5
def opMcast : Nat := 6
def opFence : Nat := 7

def rmErr (d : Dev) (i : Nat) : Dev := { d with rm := { d.rm with err := bump d.rm.err i 1 } }

def modReq (d : Dev) (k : RmReq → Bool) (f : RmReq → RmReq) : Dev :=
  { d with rm := { d.rm with reqs := updFirst k f d.rm.reqs } }

/-- The request descriptor and the writing requests of R220. -/
def isWriting (op : Nat) : Bool := op == opStore || op == opFlagged || op == opAtomic || op == opReduce

/-- R216's length and alignment rule of LOAD and STORE data. -/
def dataRule (off len : Nat) : Bool :=
  decide (8 ≤ len ∧ len ≤ 256 ∧ len % 8 = 0 ∧ off % 8 = 0 ∧ off / 256 = (off + len - 1) / 256)

/-- Bytes an atomic acts on. -/
def atomSize (x : BitVec 512) : Nat := if rqA64 x then 8 else 4

/-- R215 and R216: reserved bits zero, FLAG_GLOBAL, TGT and GROUP zero where the OP has none, sizes and alignment
kept. Other fields that the OP does not use are not looked at. -/
def rqFieldsOk (x : BitVec 512) : Bool :=
  let op := rqOp x
  fld x 31 27 == 0 && fld x 47 41 == 0 && fld x 63 56 == 0 && fld x 191 176 == 0 &&
  fld x 255 240 == 0 && fld x 447 432 == 0 &&
  decide (1 ≤ op ∧ op ≤ 7) &&
  (op == opFlagged || !rqGlobal x) && (op == opFence || !rqTgt x) && (op == opMcast || rqGroup x == 0) &&
  rqStat x % 16 == 0 && (!rqSigEn x || rqSigSem x || decide (rqSigIdx x < 64)) &&
  (match op with
   | 1 => dataRule (rqOff x) (rqLen x)
   | 2 => dataRule (rqOff x) (rqLen x)
   | 3 => (rqLen x == 0 || dataRule (rqOff x) (rqLen x)) && rqFlagOff x % 8 == 0
   | 4 => rqLen x == 0 && decide (rqAop x ≤ 4) && rqOff x % atomSize x == 0
   | 5 => (([0, 1, 0xB].contains (rqEtype x)) && rqLen x == 64 && rqOff x % 64 == 0) ||
          (rqEtype x == 0xA && rqLen x == 256 && rqOff x % 256 == 0)
   | 6 => dataRule (rqOff x) (rqLen x) && rqDev x == 0
   | _ => rqLen x == 0 && (rqTgt x || rqDev x == 0))

/-- Data or an old value comes back to LADDR, where 0 stands for none; a bulk stream has no such mark (R215, R333). -/
def rqReturns (st : Nat) (x : BitVec 512) : Bool :=
  (rqOp x == opLoad || rqOp x == opAtomic) && (rqLaddr x != 0 || st ≥ 64)

/-- Bytes at LADDR that the request reads or writes. -/
def rqLocal (st : Nat) (x : BitVec 512) : Nat :=
  if rqOp x = opLoad ∨ rqOp x = opAtomic then
    (if rqReturns st x then (if rqOp x = opAtomic then atomSize x else rqLen x) else 0)
  else rqLen x

/-- The first local range outside the quota: its address and length (R217). -/
def rqOutside (d : Dev) (p st : Nat) (x : BitVec 512) : Option (Nat × Nat) :=
  if !okRange d p false (rqLaddr x) (rqLocal st x) then some (rqLaddr x, rqLocal st x)
  else if rqStat x ≠ 0 ∧ !okRange d p false (rqStat x) 16 then some (rqStat x, 16)
  else none

def groupOk (d : Dev) (p g : Nat) : Bool :=
  let m := tgetD d.rm.mcast g 0
  bit m 68 && fld m 67 64 == p

def otherRack (d : Dev) (x : BitVec 512) : Bool := devRack (rqDev x) != rackNum d

/-- The stream's checks in R217's order; none when the request may be sent. -/
def rqCheck (d : Dev) (p st : Nat) (x : BitVec 512) : Option Nat :=
  let op := rqOp x
  let addressed := op != opMcast && (op != opFence || rqTgt x)
  let away := addressed && otherRack d x
  if !rqFieldsOk x || (rqOutside d p st x).isSome then some sBadField
  else if addressed && fld (rqDev x) 15 14 != 0 then some sBadField
  else if away && ((op == opFlagged && !rqGlobal x) || op == opFence) then some sBadField
  else if op == opMcast && !groupOk d p (rqGroup x) then some sBadField
  else if (d.part p).det && ((op == opReduce && (rqEtype x == 0 || rqEtype x == 1)) ||
      (away && (op == opLoad || op == opStore))) then some sNonDet
  else if addressed && !away && bit d.rm.fenced (devPos (rqDev x)) then some sInternal
  else none

/-! ### Completion at the source (R218) -/

/-- A request descriptor pushed to the request port: room for 64 unsent ones (R214). -/
def rmRoom (d : Dev) (p st : Nat) : Bool :=
  decide ((d.rm.reqs.filter fun r => r.part == p && r.stream == st && (r.phase == .queued || r.phase == .heldFlag)).length < 64)

def rmPush (d : Dev) (p st : Nat) (x : BitVec 512) : Dev :=
  { d with rm := { d.rm with
      nextOrder := d.rm.nextOrder + 1
      reqs := d.rm.reqs ++ [⟨p, st, d.rm.nextOrder, x, .queued, none, 0, [], 0, 0, [], [], none, 0, d.rm.cfg⟩] } }

/-- The next requests of a fabric descriptor go to the stream's port while it has room. -/
def dmaPumpFuel : Nat → Nat → Dev → Dev
  | 0, _, d => d
  | n + 1, ch, d =>
    let c := chanOf d ch
    match c.fetched.find? fun x => x.started && !x.done with
    | none => d
    | some x =>
      match x.parts with
      | [] => d
      | r :: rs =>
        if rmRoom d x.part (64 + ch) then
          let take (x : Desc) : Desc := { x with parts := rs, outstanding := x.outstanding + 1 }
          let d := modChan d ch fun c => { c with fetched := updFirst (fun x => x.started && !x.done) take c.fetched }
          dmaPumpFuel n ch (rmPush d x.part (64 + ch) r)
        else d

def dmaPump (d : Dev) (ch : Nat) : Dev := dmaPumpFuel 64 ch d

/-- Bytes written for p at a local address that an operation names, and charged; those of a buffer freed meanwhile are
an access that Cistern denies (R329, R366). -/
def rmStore (d : Dev) (p a : Nat) (bs : List Byte) : Dev :=
  chargeRange (storeRange d p a bs) p a bs.length

/-- A fabric descriptor whose requests have all been answered: the check value over the bytes it wrote is stored
(R334) and it ends. -/
def fabricEnd (d : Dev) (x : Desc) : Dev × Desc :=
  if x.parts.isEmpty && x.outstanding == 0 then
    let d := if x.status = 0 then
        rmStore d x.part (bdDst x.w + bdLen x.w) (checkValue (bdCrc x.w) (mread x.out 0 (bdLen x.w)))
      else d
    (d, { x with done := true })
  else (d, x)

/-- The first ceil(LEN ÷ 2) bytes have been written and acknowledged (R335). -/
def firstHalf (x : Desc) : Bool :=
  let h := divUp (bdLen x.w) 2
  decide (h ≤ (x.acked.map fun y => min (y.1 + y.2) h - y.1).sum)

/-- The transfer takes its first failing status, after which only the fence is still to be issued (R341). -/
def Desc.fails (x : Desc) (status cause : Nat) : Desc :=
  if x.status = 0 ∧ status ≠ 0 then
    { x with status := BitVec.ofNat 8 status, cause := cause, parts := x.parts.filter fun r => rqOp r == opFence }
  else x

/-- A bulk stream's request ends: its descriptor counts what it moved, or fails. What firmware read needs no further
command to complete. -/
def dmaPartDone (d : Dev) (ch status : Nat) (r : RmReq) : Dev :=
  match (chanOf d ch).fetched.find? fun x => x.started && !x.done with
  | none => d
  | some x =>
    let n := if rqOp r.desc = opFence then 0 else rqLen r.desc
    let off := rqLaddr r.desc - (if bdOp x.w = 5 then bdDst x.w else bdSrc x.w)
    let x := { x.fails status 11 with outstanding := x.outstanding - 1 }
    let x := if status ≠ 0 ∨ n = 0 then x
      else { x with moved := x.moved + n, acked := x.acked ++ [(off, n)]
                    out := if bdCrc x.w = 0 then x.out else mwrite x.out off (mread r.data 0 n) }
    let (d, x) := halfEvent d x.part x (if firstHalf x then bdLen x.w else 0)
    let (d, x) := fabricEnd d x
    let keep := !(ch % 8 = 7 ∧ x.done ∧ bdOp x.w = 5)
    let d := modChan d ch fun c => { c with
      fetched := if keep then updFirst (fun y => y.started && !y.done) (fun _ => x) c.fetched
        else dropFirst (fun y => y.started && !y.done) c.fetched }
    if x.done then (if keep then d else endActive (countEnd d ch x) ch) else dmaPump d ch

/-- A request of a bulk stream met a loss in its own source: the transfer is stopped by uncorrectable media
(R341, R348). -/
def dmaMedia (d : Dev) (st : Nat) : Dev :=
  if st < 64 then d
  else modChan (dmaErr d 2) (st - 64) fun c => { c with
    fetched := updFirst (fun x => x.started && !x.done) (fun x => x.fails sInternal 10) c.fetched }

/-- A tag is not reused within TIMEOUT_US × (RETRIES + 1) (R224). -/
def holdTag (d : Dev) (tag : Option Nat) (peer : DevId) : Dev :=
  match tag with
  | some t => { d with rm := { d.rm with holds := d.rm.holds ++ [⟨t, peer, 0⟩] } }
  | none => d

/-- One operation of p refused as not deterministic, at issue or by this device as its target (R407, log 26). -/
def detRejected (d : Dev) (p : Nat) : Dev := d.modPart p fun y => { y with detReject := satAdd y.detReject 1 }


/-- A request completes: LOAD data or old value first, then the status block, then the signal. -/
def rmComplete (d : Dev) (r : RmReq) (status : Nat) (mask : Nat) : Dev :=
  let x := r.desc
  let d := holdTag { d with rm := { d.rm with reqs := dropFirst (fun y => y.order == r.order) d.rm.reqs } } r.tag (rqDev x)
  if !(d.part r.part).valid then d
  else
    let d := if status = sOk ∧ rqReturns r.stream x then
        rmStore d r.part (rqLaddr x) (if rqOp x = opAtomic then toLe (atomSize x) r.respOld.toNat else mread r.data 0 (rqLen x))
      else d
    let d := if rqStat x ≠ 0 then rmStore d r.part (rqStat x) (toLe 16 (packNat [(0, status), (64, mask)])) else d
    if r.stream ≥ 64 then dmaPartDone d (r.stream - 64) status r
    else if rqSigEn x then
      raise d r.part (if rqSigSem x then .semaphore (rqSigIdx x) else .scoreboard r.stream (rqSigIdx x))
    else d

/-! ### The command cell (R219) -/

def cmdPay (x : BitVec 512) (seq : Nat) : BitVec 512 :=
  pack 512 [(0, rqOff x), (48, rqLen x), (57, rqOp x), (61, rqAop x), (64, b2n (rqA64 x)), (65, rqEtype x),
    (70, b2n (decide (rqOp x = opAtomic ∧ rqLaddr x ≠ 0))), (72, rqGroup x), (96, seq), (128, rqA x), (192, rqB x),
    (256, rqFlagOff x), (320, rqFlagVal x)]

def ccOff (c : BitVec 512) : Nat := fld c 47 0
def ccLen (c : BitVec 512) : Nat := fld c 56 48
def ccOp (c : BitVec 512) : Nat := fld c 60 57
def ccAop (c : BitVec 512) : Nat := fld c 63 61
def ccA64 (c : BitVec 512) : Bool := bit c 64
def ccEtype (c : BitVec 512) : Nat := fld c 69 65
def ccRet (c : BitVec 512) : Bool := bit c 70
def ccGroup (c : BitVec 512) : Nat := fld c 79 72
def ccSeq (c : BitVec 512) : Nat := fld c 127 96
def ccA (c : BitVec 512) : Nat := fld c 191 128
def ccB (c : BitVec 512) : Nat := fld c 255 192
def ccFlagOff (c : BitVec 512) : Nat := fld c 303 256
def ccFlagVal (c : BitVec 512) : Nat := fld c 383 320

def rqType (op : Nat) : Nat :=
  match op with
  | 1 => tyRmLoad | 2 => tyRmStore | 3 => tyRmStore | 4 => tyRmAtomic | 5 => tyRmReduce | 6 => tyRmMcast | _ => tyRmFence

/-- The cells of a request: the command cell, then 64-byte data cells (R219). -/
def rqCells (d : Dev) (p : Nat) (dest : DevId) (x : BitVec 512) (seq tag : Nat) (data : List Byte) : List Cell :=
  let ty := rqType (rqOp x)
  let mk (off : Nat) (pay : Payload) : Cell :=
    { mkCell d dest 4 ty p tag off pay with flagStore := decide (rqOp x = opFlagged) }
  mk 0 (.bits (cmdPay x seq)) :: (chunks 64 data).mapIdx fun i b => mk (i + 1) (bytesPay (pad 64 b))

/-! ### Application at the target (R212, R216, R221, R224, R225, R228) -/

/-- A response: status, old value, LOAD data. -/
structure RmAns where
  status : Nat
  old : Nat := 0
  data : List Byte := []
  deriving DecidableEq, Repr

/-- The partition exists and its export is enabled (R212). -/
def exported (d : Dev) (p : Nat) : Bool := (d.part p).valid && bit (d.part p).rmExport 0

/-- The request's bytes lie in the window of partition p (R212). -/
def windowOk (d : Dev) (p off n : Nat) : Bool :=
  exported d p && decide (off + n ≤ fld (d.part p).rmExport 25 8 * pageSize) && okNew d p false off n

/-- The stream of a request of this device; a request of the fabric does not name its stream (log 26). -/
def writerStream (d : Dev) (src : DevId) (p tag : Nat) : Option Nat :=
  if src = myId d then (d.rm.reqs.find? fun r => r.part == p && r.tag == some tag).map (·.stream) else none

/-- The export pages of n bytes, n not 0. -/
def pagesOf (off n : Nat) : List Nat := (List.range ((off + n - 1) / pageSize + 1 - off / pageSize)).map (off / pageSize + ·)

/-- Another stream has written one of these pages in the partition's step (R228). -/
def pageTaken (d : Dev) (p off n : Nat) (src : DevId) (stream : Option Nat) : Bool :=
  (pagesOf off n).any fun g => d.rm.writers.any fun w =>
    w.part == p && w.page == g && w.step == (d.part p).step.toNat && !(w.src == src && w.stream == stream)

def takePages (d : Dev) (p off n : Nat) (src : DevId) (stream : Option Nat) : Dev :=
  let keep := d.rm.writers.filter fun w => !(w.part == p && (pagesOf off n).contains w.page)
  { d with rm := { d.rm with writers := keep ++ (pagesOf off n).map fun g => ⟨p, g, (d.part p).step.toNat, src, stream⟩ } }

/-- The signed reading of a word of `n` bytes. -/
def atomInt (n v : Nat) : Int := sInt (8 * n) v

/-- AOP applied to an old value (R216). -/
def atomNew (aop n old a b : Nat) : Nat :=
  let m := 2 ^ (8 * n)
  match aop with
  | 0 => (old + a) % m
  | 1 => if atomInt n (a % m) < atomInt n old then a % m else old
  | 2 => if atomInt n (a % m) > atomInt n old then a % m else old
  | 3 => a % m
  | _ => if old = a % m then b % m else old

/-- REDUCE_INTO of one line or block (R46, R50); none when EXP differs. -/
def reduceBytes (etype : Nat) (old new : List Byte) : Option (List Byte) :=
  match etype with
  | 0 => some (List.zipWith (fun x y => toLe 4 (add32 (leNat x) (leNat y))) (chunks 4 old) (chunks 4 new)).flatten
  | 1 => some (List.zipWith (fun x y => toLe 2 (addBf16 (leNat x) (leNat y))) (chunks 2 old) (chunks 2 new)).flatten
  | 0xA => if (Bsi.read old).exp = (Bsi.read new).exp then some (addLines 0xA old new) else none
  | _ => some (addLines 0xB old new)

/-- The combining buffer's entry of a reduced line, 32 entries, oldest out first (R225, log 25). -/
def noteComb (d : Dev) (p off etype : Nat) (line : List Byte) : Dev :=
  match locate d p false off with
  | .dram a =>
    let rest := d.rm.comb.filter fun e => e.addr != a
    { d with rm := { d.rm with comb := lastN 32 (rest ++ [⟨a, etype, line⟩]) } }
  | _ => d

/-- Applies a request of partition p from `src` that passed the duplicate window: its answer. -/
def rmEffect (d : Dev) (src : DevId) (p tag : Nat) (c : BitVec 512) (data : List Byte) : Dev × RmAns :=
  let op := ccOp c
  let off := ccOff c
  let n := if op = opAtomic then (if ccA64 c then 8 else 4) else ccLen c
  let flagRange := op == opFlagged
  let restricted := op == opStore || op == opFlagged || op == opMcast || (op == opAtomic && (ccAop c ≥ 3 || ccRet c))
  let spans := (if n = 0 then [] else [(off, n)]) ++ (if flagRange then [(ccFlagOff c, 8)] else [])
  let stream := writerStream d src p tag
  if !(exported d p && spans.all fun s => windowOk d p s.1 s.2) then (rmErr d 4, ⟨sDenied, 0, []⟩)
  else if (d.part p).det && restricted && spans.any fun s => pageTaken d p s.1 s.2 src stream then
    (detRejected (rmErr d 5) p, ⟨sNonDet, 0, []⟩)
  else
    let d := if (d.part p).det && restricted then spans.foldl (fun d s => takePages d p s.1 s.2 src stream) d else d
    let d := weirCharge d p 0 (spans.foldl (fun a s => a + s.2) 0)
    match op with
    | 1 =>
      if (poisonAt d p false off n).isSome then (lossAt d p off n, ⟨sInternal, 0, []⟩)
      else (touchLines d (locs d p false off n), ⟨sOk, 0, readRange d p false off n⟩)
    | 4 =>
      if (poisonAt d p false off n).isSome then (lossAt d p off n, ⟨sInternal, 0, []⟩)
      else
        let old := readNat d p off n
        (writeRange d p false off (toLe n (atomNew (ccAop c) n old (ccA c) (ccB c))), ⟨sOk, if ccRet c then old else 0, []⟩)
    | 5 =>
      if (poisonAt d p false off n).isSome then (lossAt d p off n, ⟨sInternal, 0, []⟩)
      else
        match reduceBytes (ccEtype c) (readRange d p false off n) (data.take n) with
        | none => (d, ⟨sMismatch, 0, []⟩)
        | some line =>
          let d := writeRange d p false off line
          (if ccEtype c ≥ 0xA then noteComb d p off (ccEtype c) line else d, ⟨sOk, 0, []⟩)
    | 3 => (writeRange (writeRange d p false off (data.take n)) p false (ccFlagOff c) (toLe 8 (ccFlagVal c)), ⟨sOk, 0, []⟩)
    | 7 => (d, ⟨sOk, 0, []⟩)
    | _ => (writeRange d p false off (data.take n), ⟨sOk, 0, []⟩)

/-- Sequence numbers applied or refused by source position and partition (R220). -/
def seqKey (pos p : Nat) : Nat := 16 * pos + p

def SeqIn.settleFuel : Nat → SeqIn → SeqIn
  | 0, s => s
  | n + 1, s => if s.above.contains s.low then settleFuel n ⟨s.low + 1, s.above.filter (· != s.low)⟩ else s

def SeqIn.add (s : SeqIn) (q : U32) : SeqIn :=
  if s.low = q then SeqIn.settleFuel s.above.length ⟨s.low + 1, s.above⟩
  else if s.above.contains q then s else ⟨s.low, q :: s.above⟩

def seqOf (d : Dev) (pos p : Nat) : SeqIn := tgetD d.rm.seqIn (seqKey pos p) ⟨0, []⟩

/-- A tracked writing request has been applied or refused (R220). -/
def markSeq (d : Dev) (src : DevId) (p op seq : Nat) : Dev :=
  if isWriting op && devRack src == rackNum d then
    let tbl := tput d.rm.seqIn (seqKey (devPos src) p) ((seqOf d (devPos src) p).add (BitVec.ofNat 32 seq))
    { d with rm := { d.rm with seqIn := tbl } }
  else d

/-- SEQ a comes before b in the 32-bit count, which goes on past its end (R220). -/
def seqBefore (a b : U32) : Bool := a != b && decide ((b - a).toNat < 2 ^ 31)

/-- Every lower SEQ of the source has been applied or refused (R221). -/
def lowerDone (d : Dev) (src : DevId) (p seq : Nat) : Bool :=
  devRack src != rackNum d || !seqBefore (seqOf d (devPos src) p).low (BitVec.ofNat 32 seq)

/-- A first sending of a writing request whose SEQ lies below what has been applied: its source has created the
partition anew, and the count of it restarts (R220, log 65). -/
def sourceRestart (d : Dev) (src : DevId) (p op seq : Nat) (retry : Bool) : Dev :=
  if isWriting op && devRack src == rackNum d && !retry && seqBefore (BitVec.ofNat 32 seq) (seqOf d (devPos src) p).low then
    { d with rm := { d.rm with seqIn := tput d.rm.seqIn (seqKey (devPos src) p) ⟨0, []⟩ } }
  else d

def dupCap : Nat := 16384

/-- TIMEOUT_US × (RETRIES + 1) in nanoseconds (R224). -/
def rmLife (d : Dev) : Nat := 1000 * fld d.rm.cfg 15 0 * (fld d.rm.cfg 19 16 + 1)

/-- Enters a result in the duplicate window; LOADs are not entered (R224). -/
def enterDup (d : Dev) (src : DevId) (p tag seq : Nat) (op : Nat) (a : RmAns) : Dev :=
  if op = opLoad then d
  else
    let young := match d.rm.dup with
      | e :: _ => decide (d.rm.dup.length ≥ dupCap ∧ d.time.now < e.entered + e.life)
      | [] => false
    let d := if young then
        let d := rmErr d 6
        logCounted d sevWarning srcRmem (.rmErr 6) tag (tgetD d.rm.err 6 0).toNat
      else d
    { d with rm := { d.rm with dup := lastN dupCap (d.rm.dup ++
      [⟨src, p, tag, op, rmLife d, BitVec.ofNat 8 a.status, BitVec.ofNat 64 a.old, d.time.now, seq⟩]) } }

/-- The window holds the request. A tag that its source uses anew is told by the operation, by its SEQ, or by the
entry's age, which a resent request with a SEQ of its own may exceed (R220, R224, log 65). -/
def findDup (d : Dev) (src : DevId) (p tag op seq : Nat) (retry : Bool) : Option RmDup :=
  (d.rm.dup.reverse.find? fun e => e.src == src && e.part == p && e.tag == tag).filter fun e =>
    e.op == op && e.seq == seq && ((retry && isWriting op && devRack src == rackNum d) || decide (d.time.now < e.entered + e.life))

/-- RM_RESP cells to the requester (R219). -/
def answerCells (d : Dev) (dest : DevId) (p tag : Nat) (a : RmAns) : List Cell :=
  mkCell d dest 5 tyRmResp p tag 0 (.bits (pack 512 [(0, a.status), (64, a.old)])) ::
    ((chunks 64 a.data).mapIdx fun i b => mkCell d dest 5 tyRmResp p tag (i + 1) (bytesPay (pad 64 b)))

def answer (d : Dev) (dest : DevId) (p tag : Nat) (a : RmAns) : Dev := sendAll d p (answerCells d dest p tag a)

/-- A flag or target fence waits at the target (R221). -/
def isHeldKind (op : Nat) : Bool := op == opFlagged || op == opFence

/-- A complete request at the target: answered from the window, held, or applied and answered. The
answer is none while it is held or discarded. -/
def rmServe (d : Dev) (src : DevId) (p tag : Nat) (c : BitVec 512) (data : List Byte) (retry : Bool) : Dev × Option RmAns :=
  let op := ccOp c
  match findDup d src p tag op (ccSeq c) retry with
  | some e => (rmErr d 2, some ⟨e.status.toNat, e.old.toNat, []⟩)
  | none =>
    let d := sourceRestart d src p op (ccSeq c) retry
    if isHeldKind op && !lowerDone d src p (ccSeq c) then
      if d.rm.heldFlags.any fun h => h.src == src && h.part == p && h.tag == tag then (d, none)
      else if d.rm.heldFlags.length ≥ 256 then (rmErr d 3, none)
      else ({ d with rm := { d.rm with heldFlags := d.rm.heldFlags ++
        [⟨src, p, tag, BitVec.ofNat 32 (ccSeq c), op == opFence, c, (chunks 64 data).map fun b => BitVec.ofNat 512 (leNat b)⟩] } }, none)
    else
      let (d, a) := rmEffect d src p tag c data
      (enterDup (markSeq d src p op (ccSeq c)) src p tag (ccSeq c) op a, some a)

/-- The answers of a served request go back over the fabric. -/
def serveAndAnswer (d : Dev) (src : DevId) (p tag : Nat) (c : BitVec 512) (data : List Byte) (retry : Bool) : Dev :=
  match rmServe d src p tag c data retry with
  | (d, some a) => answer d src p tag a
  | (d, none) => d

/-- The request of this cell has been served, or is held: its tag is not used again while the entry is young
(R224), so the cell belongs to a copy of it. -/
def servedTag (d : Dev) (c : Cell) : Bool :=
  let mine (src : DevId) (p tag : Nat) : Bool := src == c.src && p == c.part.toNat && tag == c.tag.toNat
  (d.rm.dup.any fun e => mine e.src e.part e.tag && decide (d.time.now < e.entered + e.life)) ||
  d.rm.heldFlags.any fun h => mine h.src h.part h.tag

/-- A cell of a late copy: its command is answered from the window, or dropped with what the target holds, and its
data is discarded (R195, R197, R224). None for a cell of a request that has not been served. -/
def lateCell (d : Dev) (c : Cell) (cmd : BitVec 512) (op seq : Nat) : Option Dev :=
  let p := c.part.toNat
  let tag := c.tag.toNat
  if c.off ≠ 0 then (if servedTag d c then some d else none)
  else match findDup d c.src p tag op seq c.retry with
    | some e => some (answer (rmErr d 2) c.src p tag ⟨e.status.toNat, e.old.toNat, []⟩)
    | none => if d.rm.heldFlags.any fun h => h.src == c.src && h.part == p && h.tag == tag && h.cmd == cmd then some d else none

def rxOf (c : Cell) (x : RmRx) : Bool := x.src == c.src && x.part == c.part.toNat && x.tag == c.tag.toNat

/-- A request cell of a late copy, while no copy is being received (R224). -/
def rmLate (d : Dev) (c : Cell) : Option Dev :=
  if d.rm.rx.any (rxOf c) then none else lateCell d c (payBits c) (ccOp (payBits c)) (ccSeq (payBits c))

/-- A request cell is gathered; the data when the whole request is present (R219). -/
def rmGather (d : Dev) (c : Cell) : Dev × Option (BitVec 512 × List Byte) :=
  let k := rxOf c
  let x := (d.rm.rx.find? k).getD ⟨c.src, c.part.toNat, c.tag.toNat, c.ty.toNat, none, c.retry, c.flagStore, []⟩
  let x := if c.off = 0 then { x with cmd := some (payBits c) } else { x with data := tput x.data c.off.toNat (payBits c) }
  let rest := d.rm.rx.filter fun y => !k y
  match x.cmd with
  | some cmd =>
    let n := divUp (ccLen cmd) 64
    let need := if ccOp cmd = opLoad then 0 else n
    if (List.range need).all fun i => (tget x.data (i + 1)).isSome then
      ({ d with rm := { d.rm with rx := rest } },
        some (cmd, ((List.range need).flatMap fun i => toLe 64 (tgetD x.data (i + 1) 0).toNat).take (ccLen cmd)))
    else ({ d with rm := { d.rm with rx := rest ++ [x] } }, none)
  | none => ({ d with rm := { d.rm with rx := rest ++ [x] } }, none)

/-! ### Merged reductions at the target (R202) -/

def mergeKey (c : Cell) (m : MergePair) : Bool := m.src == c.src && m.part == c.part.toNat && m.tag == c.tag.toNat

def modMerge (d : Dev) (c : Cell) (f : MergePair → MergePair) : Dev :=
  let m := (d.rm.merges.find? (mergeKey c)).getD ⟨c.src, c.part.toNat, c.tag.toNat, [], none⟩
  { d with rm := { d.rm with merges := d.rm.merges.filter (fun x => !mergeKey c x) ++ [f m] } }

/-- The negative acknowledgement of R202: the source resends with RETRY (log 27). -/
def nakStatus : Nat := sRetryLater

/-- The command cell of a contributor, when it has come (log 16). -/
def mergeCmd (d : Dev) (p : Nat) (k : DevId × Nat) : Option (BitVec 512) :=
  (d.rm.rx.find? fun x => x.src == k.1 && x.part == p && x.tag == k.2).bind (·.cmd)

/-- A contributor is in the duplicate window. Where its retry has taken its command cell, the tag tells (R202). -/
def mergeOld (d : Dev) (p : Nat) (k : DevId × Nat) : Bool :=
  match mergeCmd d p k with
  | some c => (findDup d k.1 p k.2 opReduce (ccSeq c) false).isSome
  | none => d.rm.dup.any fun e => e.src == k.1 && e.part == p && e.tag == k.2 && e.op == opReduce && decide (d.time.now < e.entered + e.life)

/-- Both halves are present: discarded with a contributor in the duplicate window, its others told at once; else
applied once when each contributor's command cell has come (log 16). -/
def tryMerge (d : Dev) (m : MergePair) : Dev :=
  let p := m.part
  match m.contributors with
  | none => d
  | some cs =>
    let ops := cs.filterMap fun k => (mergeCmd d p k).map fun c => (k.1, k.2, c)
    let n := match ops with
      | k :: _ => divUp (ccLen k.2.2) 64
      | [] => 1
    let old := cs.filter (mergeOld d p)
    if (!old.isEmpty || cs.all fun k => (mergeCmd d p k).isSome) && (List.range n).all fun i => (tget m.data (i + 1)).isSome then
      let d := { d with rm := { d.rm with
        merges := dropFirst (· == m) d.rm.merges
        rx := d.rm.rx.filter fun x => !(x.part == p && x.data.isEmpty && cs.contains (x.src, x.tag)) } }
      if !old.isEmpty then
        (cs.filter fun k => !old.contains k).foldl (fun d k => answer d k.1 p k.2 ⟨nakStatus, 0, []⟩) (fabErr d 6)
      else
        match ops with
        | [] => d
        | (src, tag, cmd) :: _ =>
          let data := (List.range n).flatMap fun i => toLe 64 (tgetD m.data (i + 1) 0).toNat
          let d := ops.foldl (fun d k => sourceRestart d k.1 p opReduce (ccSeq k.2.2) false) d
          let (d, a) := rmEffect d src p tag cmd (data.take (ccLen cmd))
          ops.foldl (fun d k =>
            answer (enterDup (markSeq d k.1 p opReduce (ccSeq k.2.2)) k.1 p k.2.1 (ccSeq k.2.2) opReduce a) k.1 p k.2.1 a) d
    else d

def settleMerges (d : Dev) : Dev := d.rm.merges.foldl tryMerge d

/-! ### Arriving requests (R219) -/

def rmArrive (d : Dev) (c : Cell) : Dev :=
  match rmLate d c with
  | some d => d
  | none => match rmGather d c with
    | (d, some (cmd, data)) => serveAndAnswer d c.src c.part.toNat c.tag.toNat cmd data c.retry
    | (d, none) => settleMerges d

/-- A request cell waits in its input buffer while its partition's DRAM Weir is empty (R366). -/
def rmCell (n : Nat) (c : Cell) (ty : Nat) (d : Dev) : Dev := onCellWhen awaitsTokens d n c [ty] fun d => rmArrive d c

def execRmLoad (port : Nat) (c : Cell) (s : State) := onDev (rmCell port c tyRmLoad) s
def execRmStore (port : Nat) (c : Cell) (s : State) := onDev (rmCell port c tyRmStore) s
def execRmAtomic (port : Nat) (c : Cell) (s : State) := onDev (rmCell port c tyRmAtomic) s
def execRmReduce (port : Nat) (c : Cell) (s : State) := onDev (rmCell port c tyRmReduce) s
def execRmFence (port : Nat) (c : Cell) (s : State) := onDev (rmCell port c tyRmFence) s

/-- Forwards a multicast copy along the relay's column (R223). -/
def relayCopies (d : Dev) (c : Cell) (cmd : BitVec 512) : Dev :=
  let g := tgetD d.rm.mcast (ccGroup cmd) 0
  let me := myPos d
  ((bitsSet 64 (fld g 63 0)).filter fun q => q != me && posX q == posX me && q != devPos c.src).foldl
    (fun d q => route d { c with dest := BitVec.ofNat 16 (rackNum d * 64 + q), hops := 0 }) d

/-- The cells that a relay forwards when `c` comes: the command cell and what came before it, or a data cell
of a request whose command cell has come. -/
def relayed (d : Dev) (c : Cell) : List (BitVec 512 × Cell) :=
  match d.rm.rx.find? fun y => y.src == c.src && y.part == c.part.toNat && y.tag == c.tag.toNat with
  | some x =>
    if c.off = 0 then (payBits c, c) :: x.data.map fun y => (payBits c, { c with off := BitVec.ofNat 23 y.1, pay := .bits y.2 })
    else match x.cmd with
      | some k => [(k, c)]
      | none => []
  | none => if c.off = 0 then [(payBits c, c)] else []

/-- RM_MCAST (R223): a relay in the source's row forwards the copy, and a member applies it. -/
def mcastCell (c : Cell) (d : Dev) : Dev :=
  let (d1, done) := match rmLate d c with
    | some d => (d, none)
    | none => rmGather d c
  let d2 := if !c.retry && posY (myPos d) == posY (devPos c.src) then
      (relayed d c).foldl (fun d y => relayCopies d y.2 y.1) d1
    else d1
  match done with
  | some (k, data) =>
    if bit (tgetD d.rm.mcast (ccGroup k) 0) (myPos d) then serveAndAnswer d2 c.src c.part.toNat c.tag.toNat k data c.retry else d2
  | none => d2

def execRmMcast (port : Nat) (c : Cell) (s : State) :=
  onDev (fun d => onCellWhen awaitsTokens d port c [tyRmMcast] (mcastCell c)) s

/-- HELD_FLAG_WRITE (R221), under the DRAM Weir (R366). -/
def heldWrite (src : DevId) (tag p : Nat) (d : Dev) : Dev :=
  let k (h : HeldFlag) : Bool := h.src == src && h.part == p && h.tag == tag
  match d.rm.heldFlags.find? k with
  | none => d
  | some h =>
    if lowerDone d src p h.seq.toNat && weirOk d p 0 then
      let d := { d with rm := { d.rm with heldFlags := dropFirst k d.rm.heldFlags } }
      serveAndAnswer d src p tag h.cmd (h.data.flatMap fun b => toLe 64 b.toNat) false
    else d

def execHeldFlagWrite (src : DevId) (tag : BitVec 13) (p : Nat) (s : State) := onDev (heldWrite src tag.toNat p) s

def execRmReduceM (port : Nat) (c : Cell) (s : State) :=
  onDev (fun d => onCellWhen awaitsTokens d port c [tyReduceM] fun d =>
    settleMerges (modMerge d c fun m => { m with data := tput m.data c.off.toNat (payBits c) })) s

def execRmMerge (port : Nat) (c : Cell) (s : State) :=
  onDev (fun d => onCellWhen awaitsTokens d port c [tyMerge] fun d =>
    settleMerges (modMerge d c fun m => { m with contributors := some ((mergeEntries c).map fun e =>
      (BitVec.ofNat 16 (e % 65536), nfld e 28 16)) })) s

/-- MERGE_PAIR_TIMEOUT: an incomplete pair is discarded (R202). -/
def execMergePairTimeout (src : DevId) (tag : BitVec 13) (p : Nat) (s : State) :=
  onDev (fun d => { d with rm := { d.rm with
    merges := d.rm.merges.filter fun m => !(m.src == src && m.part == p && m.tag == tag.toNat)
    rx := d.rm.rx.filter fun m => !(m.src == src && m.part == p && m.tag == tag.toNat && m.ty == tyRmReduce && m.data.isEmpty) } }) s

/-! ### Tags and gateway windows at the source (R214, R224, R227) -/

def tagUsed (d : Dev) (t : Nat) : Bool :=
  d.rm.reqs.any (fun r => r.tag == some t) || d.rm.wins.any (fun w => w.tag == some t) || d.rm.holds.any (fun h => h.tag == t)

def freeTag (d : Dev) : Option Nat := ((List.range 4096).map (· + 4096)).find? fun t => !tagUsed d t

def winKey (p st : Nat) (base : U64) (isW : Bool) (w : GwWin) : Bool :=
  w.part == p && w.stream == st && w.base == base && w.isWrite == isW

def modWin (d : Dev) (k : GwWin → Bool) (f : GwWin → GwWin) : Dev :=
  { d with rm := { d.rm with wins := updFirst k f d.rm.wins } }

def winDev (w : GwWin) : DevId := BitVec.ofNat 16 (fld w.base 63 48)

/-- The 4 KiB range of a fabric address. -/
def winBaseOf (x : BitVec 512) : U64 := BitVec.ofNat 64 (fld x 127 64 / 4096 * 4096)

/-- GW_WRITE: command cell, 8 byte-mask cells, 64 data cells (R227). -/
def gwWriteCells (d : Dev) (w : GwWin) (tag : Nat) : List Cell :=
  let cmd := pack 512 [(0, fld w.base 47 0), (57, opStore)]
  let mk (off : Nat) (pay : Payload) : Cell := mkCell d (winDev w) 6 tyGwWrite w.part tag off pay
  let mask := packNat (w.mask.map fun i => (i, 1))
  let data := (List.range 4096).map fun i => tgetD w.bytes i 0
  mk 0 (.bits cmd) :: (((List.range 8).map fun i => mk (1 + i) (.bits (BitVec.ofNat 512 (mask >>> (512 * i))))) ++
    ((chunks 64 data).mapIdx fun i b => mk (9 + i) (bytesPay b)))

/-- A STORE merged into the window's range. Once the window is flushed, its gotCells name the transfer. -/
def inWin (w : GwWin) (r : RmReq) : Bool :=
  r.part == w.part && r.stream == w.stream && r.phase == .merged && rqOp r.desc == opStore && winBaseOf r.desc == w.base

/-- Flushes a write window when a tag is free (R227). -/
def flushWin (d : Dev) (w : GwWin) : Dev :=
  if !w.isWrite || w.flushing then d
  else match freeTag d with
    | none => d
    | some t =>
      let cs := gwWriteCells d w t
      let d := modWin d (fun y => winKey w.part w.stream w.base true y && !y.flushing) fun w =>
        { w with tag := some t, flushing := true, cells := cs, cfg := d.rm.cfg }
      let reqs := d.rm.reqs.map fun r => if inWin w r && r.gotCells.isEmpty then { r with gotCells := [t] } else r
      let d := { d with rm := { d.rm with reqs := reqs } }
      sendAll d w.part cs

def flushStream (d : Dev) (p st : Nat) : Dev :=
  (d.rm.wins.filter fun w => w.part == p && w.stream == st && w.isWrite).foldl flushWin d

/-- A window may be added: 1,024 on the device, 128 of the partition (R227). -/
def winRoom (d : Dev) (p : Nat) : Bool :=
  decide (d.rm.wins.length < 1024) && decide ((d.rm.wins.filter fun w => w.part == p).length < 128)

/-- Merges a STORE into its write window (R227). -/
def gwStore (d : Dev) (p st order : Nat) (x : BitVec 512) (data : List Byte) : Dev :=
  let base := winBaseOf x
  let o := rqOff x % 4096
  let add (w : GwWin) : GwWin := { w with
    bytes := (data.mapIdx fun i b => (o + i, b)).foldl (fun t y => tput t y.1 y.2) w.bytes
    mask := (w.mask ++ (List.range data.length).map (o + ·)).eraseDups }
  if d.rm.wins.any (fun w => winKey p st base true w && !w.flushing) then
    modWin d (fun w => winKey p st base true w && !w.flushing) add
  else { d with rm := { d.rm with wins := d.rm.wins ++ [add ⟨p, st, base, true, false, [], [], none, false, [], 0, [], 0, order, d.rm.cfg⟩] } }

/-- Starts a read window with GW_READ (R227). -/
def gwFetch (d : Dev) (p st order : Nat) (x : BitVec 512) (tag : Nat) : Dev :=
  let base := winBaseOf x
  let cmd := mkCell d (rqDev x) 6 tyGwRead p tag 0 (.bits (pack 512 [(0, fld base 47 0), (57, opLoad)]))
  let d := { d with rm := { d.rm with wins := d.rm.wins ++
    [⟨p, st, base, false, true, [], [], some tag, false, [cmd], 0, [], 0, order, d.rm.cfg⟩] } }
  sendFor d p cmd

/-- Copies a filled read window's bytes into a merged LOAD's data. -/
def serveLoad (w : GwWin) (r : RmReq) : RmReq :=
  let o := rqOff r.desc % 4096
  { r with data := mwrite [] 0 ((List.range (rqLen r.desc)).map fun i => tgetD w.bytes (o + i) 0)
           respStatus := some w.status }

/-! ### Issue by a stream (R214, R217, R222, R223) -/

/-- The stream's next unsent request, in push order. -/
def nextOf (d : Dev) (p st : Nat) : Option RmReq :=
  d.rm.reqs.find? fun r => r.part == p && r.stream == st && (r.phase == .queued || r.phase == .heldFlag)

/-- Requests of the stream pushed before another one and not yet complete. -/
def earlier (d : Dev) (r : RmReq) : List RmReq :=
  d.rm.reqs.filter fun y => y.part == r.part && y.stream == r.stream && decide (y.order < r.order)

def writeWins (d : Dev) (p st : Nat) : List GwWin :=
  d.rm.wins.filter fun w => w.part == p && w.stream == st && w.isWrite

/-- The stream's windows that requests before `f` opened. -/
def GwWin.before (w : GwWin) (f : RmReq) : Bool := w.part == f.part && w.stream == f.stream && decide (w.order < f.order)

/-- A stream fence may complete: earlier requests done but for gateway requests, whose windows are
flushed and acknowledged and whose read data has come (R222, R227). -/
def fenceReady (d : Dev) (f : RmReq) : Bool :=
  (earlier d f).all (fun y => y.phase == .merged && y.respStatus.isSome) && !(d.rm.wins.any fun w => w.isWrite && w.before f)

/-- The stream's oldest waiting fence. -/
def waitingFence (d : Dev) (p st : Nat) : Option RmReq :=
  d.rm.reqs.find? fun r => r.part == p && r.stream == st && r.phase == .waitFence

/-- Completes the stream's oldest waiting fence, with the gateway requests it covers. -/
def settleFuel : Nat → Nat → Nat → Dev → Dev
  | 0, _, _, d => d
  | n + 1, p, st, d =>
    match waitingFence d p st with
    | none => d
    | some f =>
      if fenceReady d f then
        let d := (earlier d f).foldl (fun d y => rmComplete d y ((y.respStatus.map (·.toNat)).getD 0) 0) d
        let d := { d with rm := { d.rm with wins := d.rm.wins.filter fun w => !(!w.isWrite && w.before f) } }
        settleFuel n p st (rmComplete d f sOk 0)
      else d

/-- What the stream's fences can complete completes; a fence that still waits flushes the write windows before it
that had no tag (R227). -/
def settle (d : Dev) (p st : Nat) : Dev :=
  let d := settleFuel d.rm.reqs.length p st d
  match waitingFence d p st with
  | some f => (d.rm.wins.filter fun w => w.isWrite && w.before f).foldl flushWin d
  | none => d

/-- The next SEQ towards a target, taken by a writing request and named by a target fence; 0 for a LOAD and for
another rack (R219, R220). -/
def takeSeq (d : Dev) (dest : DevId) (p op : Nat) : U32 × Dev :=
  if devRack dest ≠ rackNum d ∨ op = opLoad then (0, d)
  else
    let k := seqKey (devPos dest) p
    let q := tgetD d.rm.seqOut k 0
    (q, if isWriting op then { d with rm := { d.rm with seqOut := tput d.rm.seqOut k (q + 1) } } else d)

def rqData (d : Dev) (p : Nat) (x : BitVec 512) : List Byte :=
  let op := rqOp x
  if op = opStore ∨ op = opFlagged ∨ op = opReduce ∨ op = opMcast then readRange d p false (rqLaddr x) (rqLen x) else []

/-- The source's bytes are read for p (R366). -/
def chargeLocal (d : Dev) (r : RmReq) (n : Nat) : Dev := chargeRange d r.part (rqLaddr r.desc) n

/-- The DRAM Weir of a request: it reads or writes DRAM for p at LADDR, or is served on this device (R366). -/
def rmWeirOk (d : Dev) (p st : Nat) (x : BitVec 512) : Bool :=
  let here := if rqOp x = opMcast then bit (tgetD d.rm.mcast (rqGroup x) 0) (myPos d) else rqDev x == myId d
  weirOk d p 0 || !(here || decide (0 < dramBytes d p (rqLaddr x) (rqLocal st x)))

/-- Sends a request under a tag, or serves it here when it names this device (R213). -/
def rmSend (d : Dev) (r : RmReq) (tag : Nat) : Dev :=
  let x := r.desc
  let p := r.part
  let dest := rqDev x
  let data := rqData d p x
  let d := chargeLocal d r data.length
  let (seq, d) := takeSeq d dest p (rqOp x)
  let cs := if dest = myId d then [] else rqCells d p dest x seq.toNat tag data
  let d := modReq d (fun y => y.order == r.order) fun y => { y with
    tag := some tag, phase := .sent, seq := seq, cells := cs, cfg := d.rm.cfg }
  if dest = myId d then
    match rmServe d dest p tag (cmdPay x seq.toNat) data false with
    | (d, some a) =>
      let r := { r with tag := some tag, respOld := BitVec.ofNat 64 a.old, data := mwrite [] 0 a.data }
      settle (rmComplete d r a.status 0) p r.stream
    | (d, none) => d
  else sendAll d p cs

/-- A multicast of which a member has just confirmed or answered: complete when every member has (R223). -/
def mcastEnd (d : Dev) (r : RmReq) : Dev :=
  let members := bitsSet 64 (fld (tgetD d.rm.mcast (rqGroup r.desc) 0) 63 0)
  if r.unconfirmed = 0 then settle (rmComplete d r sOk 0) r.part r.stream
  else if members.all fun q => r.gotCells.contains q then settle (rmComplete d r sPartial r.unconfirmed.toNat) r.part r.stream
  else modReq d (fun y => y.order == r.order) fun _ => r

/-- A multicast: one copy to each column's relay, unicast copies where the relay is fenced (R223). -/
def mcastSend (d : Dev) (r : RmReq) (tag : Nat) : Dev :=
  let x := r.desc
  let p := r.part
  let me := myPos d
  let members := bitsSet 64 (fld (tgetD d.rm.mcast (rqGroup x) 0) 63 0)
  let data := rqData d p x
  let d := chargeLocal d r data.length
  let cols := (List.range 8).filter fun a => members.any fun q => posX q == a
  let id (q : Nat) : DevId := BitVec.ofNat 16 (rackNum d * 64 + q)
  let dests := cols.flatMap fun a =>
    let relay := 8 * posY me + a
    if relay = me then members.filter fun q => posX q == a && q != me
    else if bit d.rm.fenced relay then members.filter fun q => posX q == a
    else [relay]
  let cs := rqCells d p 0 x 0 tag data
  let d := modReq d (fun y => y.order == r.order) fun y => { y with
    tag := some tag, phase := .sent, cells := cs, cfg := d.rm.cfg
    unconfirmed := BitVec.ofNat 64 (packNat (members.map fun q => (q, 1))) }
  let d := dests.foldl (fun d q => sendAll d p (cs.map fun c => { c with dest := id q })) d
  let d := if members.contains me then
      match rmServe d (myId d) p tag (cmdPay x 0) data false with
      | (d, some a) => modReq d (fun y => y.order == r.order) fun y => { y with
          gotCells := me :: y.gotCells
          unconfirmed := if a.status = sOk then y.unconfirmed &&& ~~~(1#64 <<< me) else y.unconfirmed }
      | (d, none) => d
    else d
  match d.rm.reqs.find? fun y => y.order == r.order with
  | some r => mcastEnd d r
  | none => d

/-- The read window that a LOAD is served from: one of its stream, opened since the stream's last fence (R227). -/
def readWin (d : Dev) (r : RmReq) : Option GwWin :=
  d.rm.wins.find? fun w => winKey r.part r.stream (winBaseOf r.desc) false w &&
    !(d.rm.reqs.any fun f => f.phase == .waitFence && w.before f && decide (f.order < r.order))

/-- The partition needs a window: one of its write windows is flushed (R227). -/
def flushOne (d : Dev) (p : Nat) : Dev :=
  match d.rm.wins.find? fun w => w.part == p && w.isWrite && !w.flushing with
  | some w => flushWin d w
  | none => d

/-- The gateway path of a LOAD or STORE to another rack (R227). A LOAD's gotCells name the read it waits for. -/
def gwIssue (d : Dev) (r : RmReq) : Dev :=
  let x := r.desc
  let p := r.part
  let st := r.stream
  let toMerged (d : Dev) (f : RmReq → RmReq) : Dev :=
    modReq d (fun y => y.order == r.order) fun y => f { y with phase := .merged }
  let base := winBaseOf x
  if rqOp x = opStore then
    if d.rm.wins.any (fun w => winKey p st base true w && !w.flushing) || winRoom d p then
      toMerged (gwStore (chargeLocal d r (rqLen x)) p st r.order x (rqData d p x)) id
    else flushOne d p
  else
    match readWin d r with
    | some w => toMerged d fun y => if w.filling then { y with gotCells := w.tag.toList } else serveLoad w y
    | none =>
      if !winRoom d p then flushOne d p
      else
        match freeTag d with
        | some t => toMerged (gwFetch d p st r.order x t) fun y => { y with gotCells := [t] }
        | none => d

/-- The quotas that a request is checked against: those of the transfer it belongs to, or its own (R300). -/
def rqQuota (d : Dev) (p st order : Nat) : Dev := opQuota d p (if st < 64 then .rack st order else frontOp d (st - 64))

/-- A request refused at issue, in `q`'s quotas, is counted: as not deterministic, or as an access that Cistern denies (R329, R407). -/
def rqRefused (d q : Dev) (p st : Nat) (x : BitVec 512) (status : Nat) : Dev :=
  if status = sNonDet then detRejected d p
  else if rqFieldsOk x then
    match rqOutside q p st x with
    | some y => countDenied d y.1 y.2
    | none => d
  else d

/-- A request whose data meets a loss ends with INTERNAL (R302, R348). -/
def rmPoisoned (d : Dev) (p st : Nat) (r : RmReq) : Option Dev :=
  let n := (rqData d p r.desc).length
  if (poisonAt d p false (rqLaddr r.desc) n).isSome then
    some (settle (rmComplete (dmaMedia (lossAt d p (rqLaddr r.desc) n) st) r sInternal 0) p st)
  else none

/-- The stream issues its next request when it is of the command's OP (R214). -/
def rmIssue (p st op : Nat) (tgt : Bool) (d : Dev) : Dev :=
  match nextOf d p st with
  | none => d
  | some r =>
    let x := r.desc
    if rqOp x ≠ op ∨ r.phase ≠ .queued ∨ (op = opFence ∧ rqTgt x ≠ tgt) then d
    else if !(d.part p).valid then { d with rm := { d.rm with reqs := dropFirst (fun y => y.order == r.order) d.rm.reqs } }
    else
      let q := rqQuota d p st r.order
      match rqCheck q p st x with
      | some st' => settle (rmComplete (rqRefused d q p st x st') r st' 0) p st
      | none =>
        if !weirOk d p 2 || !rmWeirOk d p st x then d
        else match rmPoisoned d p st r with
          | some d => d
          | none =>
            if op = opFence ∧ !tgt then
              settle (flushStream (modReq d (fun y => y.order == r.order) fun y => { y with phase := .waitFence }) p st) p st
            else if op = opFlagged ∧ rqGlobal x then
              flushStream (modReq d (fun y => y.order == r.order) fun y => { y with phase := .heldFlag }) p st
            else if (op = opLoad ∨ op = opStore) ∧ otherRack d x then gwIssue d r
            else
              match freeTag d with
              | none => d
              | some t => if op = opMcast then mcastSend d r t else rmSend d r t

def execLoad (p st : Nat) (s : State) := onDev (rmIssue p st opLoad false) s
def execStore (p st : Nat) (s : State) := onDev (rmIssue p st opStore false) s
def execFlaggedStore (p st : Nat) (s : State) := onDev (rmIssue p st opFlagged false) s
def execAtomic (p st : Nat) (s : State) := onDev (rmIssue p st opAtomic false) s
def execReduceInto (p st : Nat) (s : State) := onDev (rmIssue p st opReduce false) s
def execMulticastStore (p st : Nat) (s : State) := onDev (rmIssue p st opMcast false) s
def execStreamFence (p st : Nat) (s : State) := onDev (rmIssue p st opFence false) s
def execTargetFence (p st : Nat) (s : State) := onDev (rmIssue p st opFence true) s

/-- FLAG_GLOBAL_SEND: every earlier request of the stream is complete, its windows included (R221). Its bytes are read
now, so its local ranges are looked at again (R217, R329). -/
def flagGlobal (p st : Nat) (d : Dev) : Dev :=
  match nextOf d p st with
  | none => d
  | some r =>
    if r.phase ≠ .heldFlag then d
    else if (earlier d r).all (fun y => y.phase == .merged && y.respStatus.isSome) && (writeWins d p st).isEmpty then
      let q := rqQuota d p st r.order
      if (rqOutside q p st r.desc).isSome then settle (rmComplete (rqRefused d q p st r.desc sBadField) r sBadField 0) p st
      else match rmPoisoned d p st r, freeTag d with
        | some d, _ => d
        | none, some t => rmSend d r t
        | none, none => d
    else flushStream d p st

def execFlagGlobalSend (p st : Nat) (s : State) := onDev (flagGlobal p st) s

/-! ### Responses (R218, R223) -/

/-- All data cells of a LOAD have come, or the request has no data. -/
def respWhole (r : RmReq) : Bool :=
  match r.respStatus with
  | none => false
  | some st =>
    if rqOp r.desc = opLoad ∧ st = 0 then
      (List.range (divUp (rqLen r.desc) 64)).all fun i => r.gotCells.contains (i + 1)
    else true

/-- A response cell of an ordinary request. -/
def respCell (d : Dev) (r : RmReq) (c : Cell) : Dev :=
  let x := payBits c
  if c.off = 0 ∧ fld x 7 0 = nakStatus then
    let cs := r.cells.map fun y => { y with retry := true }
    sendAll (modReq d (fun y => y.order == r.order) fun y => { y with cells := cs }) r.part cs
  else
    let r := if c.off = 0 then
        { r with respStatus := some (BitVec.ofNat 8 (fld x 7 0)), respOld := BitVec.ofNat 64 (fld x 127 64) }
      else { r with data := mwrite r.data (64 * (c.off.toNat - 1)) (payBytes c), gotCells := c.off.toNat :: r.gotCells }
    if respWhole r then settle (rmComplete d r ((r.respStatus.map (·.toNat)).getD 0) 0) r.part r.stream
    else modReq d (fun y => y.order == r.order) fun _ => r

/-- A member's confirmation of a multicast: complete when every member has answered (R223). -/
def respMcast (d : Dev) (r : RmReq) (c : Cell) : Dev :=
  let pos := devPos c.src
  let okAns := c.off == 0 && fld (payBits c) 7 0 == sOk
  let r := { r with gotCells := (pos :: r.gotCells).eraseDups
                    unconfirmed := if okAns then r.unconfirmed &&& ~~~(1#64 <<< pos) else r.unconfirmed }
  mcastEnd d r

/-- A gateway write's acknowledgement: the window ends and its stores take its status (R227). -/
def respWin (d : Dev) (w : GwWin) (status : Nat) : Dev :=
  let d := { d with rm := { d.rm with
    wins := dropFirst (fun y => y.tag == w.tag) d.rm.wins
    reqs := d.rm.reqs.map fun r => if inWin w r && r.gotCells == w.tag.toList && r.respStatus.isNone then
      { r with respStatus := some (BitVec.ofNat 8 status) } else r } }
  settle (holdTag d w.tag (winDev w)) w.part w.stream

/-- RM_RESP (R218): matched by tag; late copies are discarded (R197). -/
def rmResp (c : Cell) (d : Dev) : Dev :=
  match d.rm.reqs.find? fun r => r.tag == some c.tag.toNat && r.part == c.part.toNat && r.phase == .sent with
  | some r => if rqOp r.desc = opMcast then respMcast d r c else respCell d r c
  | none =>
    match d.rm.wins.find? fun w => w.tag == some c.tag.toNat && w.part == c.part.toNat && w.flushing with
    | some w => respWin d w (fld (payBits c) 7 0)
    | none => d

def execRmResp (port : Nat) (c : Cell) (s : State) := onDev (fun d => onCell d port c [tyRmResp] (rmResp c)) s

/-! ### Timeouts (R224) -/

/-- A whole request resent with RETRY set, its bytes and tag kept. -/
def resend (d : Dev) (p : Nat) (cs : List Cell) : Dev := sendAll d p (cs.map fun c => { c with retry := true })

/-- The unanswered members of a multicast, resent as unicast (R223). -/
def mcastResend (d : Dev) (r : RmReq) : Dev :=
  (bitsSet 64 r.unconfirmed.toNat).foldl (fun d q =>
    if r.gotCells.contains q then d
    else resend d r.part (r.cells.map fun c => { c with dest := BitVec.ofNat 16 (rackNum d * 64 + q) })) d

def retryLimit (cfg : U32) : Nat := fld cfg 19 16

/-- The members of a multicast that have stayed silent. -/
def silentMembers (d : Dev) (r : RmReq) : List DevId :=
  ((bitsSet 64 r.unconfirmed.toNat).filter fun q => !r.gotCells.contains q).map fun q => BitVec.ofNat 16 (rackNum d * 64 + q)

/-- RM_REQUEST_TIMEOUT: the request is resent, or its target escalated after the last retry; a multicast then ends,
each silent member escalated (R223, R224). -/
def rmTimeout (tag : Nat) (d : Dev) : Dev :=
  match d.rm.reqs.find? fun r => r.tag == some tag && r.phase == .sent with
  | some r =>
    if r.retries < retryLimit r.cfg then
      let d := rmErr (modReq d (fun y => y.order == r.order) fun y => { y with retries := y.retries + 1 }) 0
      if rqOp r.desc = opMcast then mcastResend d r else resend d r.part r.cells
    else if rqOp r.desc = opMcast then
      settle (rmComplete ((silentMembers d r).foldl (fun d q => escalate d q false) (rmErr d 1)) r sPartial r.unconfirmed.toNat) r.part r.stream
    else escalate (rmErr d 1) (rqDev r.desc) false
  | none =>
    match d.rm.wins.find? fun w => w.tag == some tag && (w.flushing || w.filling) with
    | some w =>
      if w.retries < retryLimit w.cfg then
        resend (rmErr (modWin d (fun y => y.tag == some tag) fun y => { y with retries := y.retries + 1 }) 0) w.part w.cells
      else escalate (rmErr d 1) (winDev w) false
    | none => d

def execRmRequestTimeout (tag : BitVec 13) (s : State) := onDev (rmTimeout tag.toNat) s

/-- After a LINK fault the escalated requests to the peer are resent once more (R412). -/
def rmResendTo (d : Dev) (peer : DevId) : Dev :=
  let d := (d.rm.reqs.filter fun r => r.phase == .sent && rqOp r.desc != opMcast && rqDev r.desc == peer && decide (r.retries ≥ retryLimit r.cfg)).foldl
    (fun d r => resend d r.part r.cells) d
  (d.rm.wins.filter fun w => (w.flushing || w.filling) && winDev w == peer && decide (w.retries ≥ retryLimit w.cfg)).foldl
    (fun d w => resend d w.part w.cells) d

/-- A device is fenced or lost: requests to it end with INTERNAL, those held at the source included, multicasts that
include it with PARTIAL and its bit in MASK, and it leaves every group (R224, R226). -/
def rmFenceDevice (d : Dev) (dev : DevId) : Dev :=
  let pos := devPos dev
  let inRack := devRack dev == rackNum d
  let hit (r : RmReq) : Bool := (rqOp r.desc != opMcast && (r.phase == .sent || r.phase == .heldFlag) && rqDev r.desc == dev)
  let multi (r : RmReq) : Bool :=
    inRack && rqOp r.desc == opMcast && r.phase == .sent && bit (tgetD d.rm.mcast (rqGroup r.desc) 0) pos
  let mask (r : RmReq) : Nat := (r.unconfirmed ||| (1#64 <<< pos)).toNat
  let ended := d.rm.reqs.filter fun r => hit r || multi r
  let d := ended.foldl (fun d r => settle (if multi r then rmComplete d r sPartial (mask r) else rmComplete d r sInternal 0) r.part r.stream) d
  let gone := d.rm.wins.filter fun w => winDev w == dev
  let d := { d with rm := { d.rm with
    wins := d.rm.wins.filter fun w => winDev w != dev
    reqs := d.rm.reqs.map fun r => if r.phase == .merged && rqDev r.desc == dev && r.respStatus.isNone then
      { r with respStatus := some (BitVec.ofNat 8 sInternal) } else r } }
  let d := gone.foldl (fun d w => settle (holdTag d w.tag dev) w.part w.stream) d
  if inRack then
    { d with rm := { d.rm with mcast := d.rm.mcast.map fun g => (g.1, g.2 &&& ~~~(1#128 <<< pos)) } }
  else d

/-! ### The gateway at its target and its read data (R227) -/

/-- A write window received whole: its marked bytes are written, once, and it is answered (R227, R228). -/
def gwWhole (d : Dev) (c : Cell) (x : GwRx) (cmd : BitVec 512) : Dev :=
  let mask := packNat ((List.range 8).map fun i => (512 * i, (tgetD x.cells (i + 1) 0).toNat))
  let data := (List.range 64).flatMap fun i => toLe 64 (tgetD x.cells (i + 9) 0).toNat
  let set := bitsSet 4096 mask
  let base := ccOff cmd
  let det := (d.part x.part).det && !set.isEmpty
  let finish (d : Dev) (status : Nat) : Dev :=
    answer (enterDup d c.src x.part x.tag 0 opStore ⟨status, 0, []⟩) c.src x.part x.tag ⟨status, 0, []⟩
  match findDup d c.src x.part x.tag opStore 0 c.retry with
  | some e => answer (rmErr d 2) c.src x.part x.tag ⟨e.status.toNat, 0, []⟩
  | none =>
    if !(exported d x.part && set.all fun i => windowOk d x.part (base + i) 1) then finish (rmErr d 4) sDenied
    else if det && pageTaken d x.part base 1 c.src none then finish (detRejected (rmErr d 5) x.part) sNonDet
    else
      let d := if det then takePages d x.part base 1 c.src none else d
      let d := weirCharge d x.part 0 set.length
      finish (set.foldl (fun d i => writeRange d x.part false (base + i) [data.getD i 0]) d) sOk

/-- One cell of a write window: the command cell, 8 mask cells, 64 data cells (R227). -/
def gwWriteCell (c : Cell) (d : Dev) : Dev :=
  let k (x : GwRx) : Bool := x.src == c.src && x.part == c.part.toNat && x.tag == c.tag.toNat
  match (if d.rm.gwRx.any k then none else lateCell d c (payBits c) opStore 0) with
  | some d => d
  | none =>
    let x := (d.rm.gwRx.find? k).getD ⟨c.src, c.part.toNat, c.tag.toNat, none, []⟩
    let x := if c.off = 0 then { x with cmd := some (payBits c) } else { x with cells := tput x.cells c.off.toNat (payBits c) }
    let rest := d.rm.gwRx.filter fun y => !k y
    match x.cmd with
    | some cmd =>
      if (List.range 72).all fun i => (tget x.cells (i + 1)).isSome then
        gwWhole { d with rm := { d.rm with gwRx := rest } } c x cmd
      else { d with rm := { d.rm with gwRx := rest ++ [x] } }
    | none => { d with rm := { d.rm with gwRx := rest ++ [x] } }

def execGwWrite (port : Nat) (c : Cell) (s : State) :=
  onDev (fun d => onCellWhen awaitsTokens d port c [tyGwWrite] (gwWriteCell c)) s

/-- GW_READ is answered with GW_DATA: OFFSET 0 holds STATUS, OFFSET 1 to 64 the data (log 28). -/
def gwReadCell (c : Cell) (d : Dev) : Dev :=
  let p := c.part.toNat
  let base := ccOff (payBits c)
  let ok := windowOk d p base 4096
  let bad := (poisonAt d p false base 4096).isSome
  let st := if !ok then sDenied else if bad then sInternal else sOk
  let data := if st = sOk then readRange d p false base 4096 else []
  let d := if !ok then rmErr d 4 else if bad then lossAt d p base 4096 else touchLines (weirCharge d p 0 4096) (locs d p false base 4096)
  let first := mkCell d c.src 5 tyGwData p c.tag.toNat 0 (.bits (pack 512 [(0, st)]))
  let rest := (chunks 64 data).mapIdx fun i b => mkCell d c.src 5 tyGwData p c.tag.toNat (i + 1) (bytesPay b)
  sendAll d p (first :: rest)

def execGwRead (port : Nat) (c : Cell) (s : State) :=
  onDev (fun d => onCellWhen awaitsTokens d port c [tyGwRead] (gwReadCell c)) s

/-- A read window's data cell; when whole, the loads merged into it take their bytes. -/
def gwDataCell (c : Cell) (d : Dev) : Dev :=
  let k (w : GwWin) : Bool := w.tag == some c.tag.toNat && w.part == c.part.toNat && w.filling
  match d.rm.wins.find? k with
  | none => d
  | some w =>
    let got := c.off.toNat :: w.gotCells
    let bytes := ((payBytes c).mapIdx fun i b => (64 * (c.off.toNat - 1) + i, b)).foldl (fun t y => tput t y.1 y.2) w.bytes
    let w := if c.off = 0 then { w with status := BitVec.ofNat 8 (fld (payBits c) 7 0), gotCells := got }
      else { w with gotCells := got, bytes := bytes }
    let whole := w.gotCells.contains 0 && (w.status.toNat != 0 || (List.range 64).all fun i => w.gotCells.contains (i + 1))
    let d := modWin d k fun _ => { w with filling := !whole, tag := if whole then none else w.tag }
    if whole then
      let mine (r : RmReq) : Bool :=
        r.part == w.part && r.stream == w.stream && r.phase == .merged && rqOp r.desc == opLoad && r.gotCells == w.tag.toList && r.respStatus.isNone
      let reqs := d.rm.reqs.map fun r => if mine r then serveLoad w r else r
      let d := { d with rm := { d.rm with reqs := reqs } }
      settle (holdTag d w.tag (winDev w)) w.part w.stream
    else d

def execGwData (port : Nat) (c : Cell) (s : State) := onDev (fun d => onCell d port c [tyGwData] (gwDataCell c)) s

/-- GW_IDLE_FLUSH (R227). -/
def execGwIdleFlush (p st : Nat) (base : U64) (s : State) :=
  onDev (fun d => match d.rm.wins.find? fun w => winKey p st base true w && !w.flushing with
    | some w => flushWin d w
    | none => d) s

end Sys2Proof.Machine
end

