-- ==== Sys2Proof/Machine/Dma.lean ====
section
/-! DEFINITION. The bulk DMA engines: fetch, choice of descriptor, checks, the operations, completion
(R332 to R334, R337 to R342). -/

namespace Sys2Proof.Machine

/-! ### Fetching (R337) -/

/-- The channel halts in state FAULT, with its EVENT (R337, R463). -/
def chanFault (d : Dev) (ch : Nat) : Dev :=
  let c := chanOf d ch
  sendEvent (modChan d ch fun c => { c with state := .fault })
    { code := 0x0B, mailbox := c.part + 1, status := sInternal, id := ch, data := toLe 8 c.head
      sev := sevError, part := some c.part, source := srcDma }

/-- The channel may fetch (R337); it waits while its partition's DRAM Weir is empty (R366). -/
def fetchReady (d : Dev) (ch : Nat) : Bool :=
  let c := chanOf d ch
  c.en && c.state == .running && decide (c.fetched.length < 16) && decide (semOf d c.part c.kickSem ≠ 0) && weirOk d c.part 0

/-- DMA_FETCH: the descriptor at HEAD is copied; one with OWN clear is skipped. -/
def dmaFetch (ch : Nat) (d : Dev) : Dev :=
  if !fetchReady d ch then d
  else
    let c := chanOf d ch
    let p := c.part
    let a := c.ring.toNat + 64 * c.head
    if !okNew d p false a 64 then chanFault (countDenied d a 64) ch
    else if (poisonAt d p false a 64).isSome then lossAt (chanFault d ch) p a 64 ch
    else
      let w := readWord d p false 512 a
      let d := chargeRange (setSem d p c.kickSem (semOf d p c.kickSem - 1)) p a 64
      let d := modChan d ch fun c => { c with head := (c.head + 1) % c.ringLen }
      if !bdOwn w then
        let d := dmaErr d 0
        logCounted d sevNotice srcDma (.dmaErr 0) ch (tgetD d.dma.err 0 0).toNat
      else
        let x : Desc := { part := p, addr := a, w := w, step := (d.part p).step, started := false, done := false
                          halfDone := false, status := 0, cause := 0, flags := 0, moved := 0, parts := []
                          outstanding := 0, acked := [], out := [] }
        let x := if bdOp w = 0 ∨ bdOp w > 8 then x.finish sBadField 1 else x
        loadEngine (modChan d ch fun c => { c with fetched := c.fetched ++ [x] }) (ch / 8)

def execDmaFetch (ch : Nat) (s : State) := onDev (dmaFetch ch) s

/-! ### The checks of a descriptor (R333, R334, R338, R339, R341) -/

/-- The allowed conversion pairs: FP32 with BF16 or FP16, MX clear (R339). -/
def cvtPair (s t : Nat) : Bool := (s == 0 && (t == 1 || t == 2)) || ((s == 1 || s == 2) && t == 0)

/-- Bytes of an element of FP32, BF16 or FP16. -/
def cvtBytes (f : Nat) : Nat := if f = 0 then 4 else 2

/-- Bytes written at the destination, the check value apart (R333). -/
def bdOut (x : BitVec 512) : Nat :=
  if bdCvt x then bdLen x / cvtBytes (bdSfmt x) * cvtBytes (bdDfmt x) else bdLen x

/-- Every field, option and length is one that R333, R334, R338 and R339 allow. With CVT clear nothing is converted, and
SFMT, DFMT and RND are not looked at, a reserved code in them included (R24 and R341 leave it open; DESIGN CHOICE, log
80). -/
def bdFieldsOk (x : BitVec 512) : Bool :=
  let op := bdOp x
  let n := bdLen x
  let dev (a : Nat) : Bool := decide (a < 2 ^ 48)
  let lba (a : Nat) : Bool := decide (a < 2 ^ 32)
  let noOpt := !bdFixS x && !bdFixD x && !bdCvt x
  fld x 63 54 == 0 && fld x 447 224 == 0 && fld x 511 504 == 0 && bdCrc x != 3 &&
  (op == 7 || op == 8 || bdPool x == 0) &&
  (op == 1 || noOpt) && (op == 1 || op == 2 || op == 5 || bdCrc x == 0) &&
  (match op with
   | 1 => dev (bdSrc x) && dev (bdDst x) && n != 0 &&
      (!bdCvt x || (cvtPair (bdSfmt x) (bdDfmt x) && decide (bdRnd x < 2) && n % cvtBytes (bdSfmt x) == 0)) &&
      (!bdFixS x || (bdSrc x % 64 == 0 && n % 64 == 0)) &&
      (!bdFixD x || (bdDst x % 64 == 0 && bdOut x % 64 == 0 && bdCrc x == 0))
   | 2 => lba (bdSrc x) && dev (bdDst x) && n != 0 && n % 4096 == 0
   | 3 => dev (bdSrc x) && lba (bdDst x) && n != 0 && n % 4096 == 0
   | 4 => bdSrc x == 0 && lba (bdDst x) && n != 0 && n % 4096 == 0
   | 5 => bdSrc x % 8 == 0 && dev (bdDst x) && n != 0 && n % 8 == 0
   | 6 => dev (bdSrc x) && bdDst x % 8 == 0 && n != 0 && n % 8 == 0
   | 7 => bdSrc x == 0 && dev (bdDst x) && decide (1 ≤ n ∧ n ≤ 256)
   | 8 => dev (bdSrc x) && bdDst x == 0 && decide (1 ≤ n ∧ n ≤ 256)
   | _ => false)

/-- Every LBA of the range lies in the partition's extents (R306). -/
def lbaOk (d : Dev) (p lba n : Nat) : Bool := decide (lba + n / blockSize ≤ 4096 * (d.part p).flash.length)

/-- The device ranges a descriptor reads and writes, the check value included (R334). -/
def bdRanges (x : BitVec 512) : List (Nat × Nat) :=
  let n := bdLen x
  let dst := (bdDst x, (if bdFixD x then 64 else bdOut x) + checkLen (bdCrc x))
  match bdOp x with
  | 1 => [(bdSrc x, if bdFixS x then 64 else n), dst]
  | 2 => [dst]
  | 3 => [(bdSrc x, n)]
  | 5 => [dst]
  | 6 => [(bdSrc x, n)]
  | 7 => [(bdDst x, 8 * n)]
  | 8 => [(bdSrc x, 8 * n)]
  | _ => []

/-- The cause with which a descriptor fails its checks: FIELD, ADDRESS or POOL (R341). -/
def bdCheck (d : Dev) (p : Nat) (x : BitVec 512) : Option Nat :=
  if !bdFieldsOk x then some 1
  else if (bdRanges x).any fun r => !okRange d p false r.1 r.2 then some 2
  else if (bdOp x = 2 ∧ !lbaOk d p (bdSrc x) (bdLen x)) ∨
      ((bdOp x = 3 ∨ bdOp x = 4) ∧ !lbaOk d p (bdDst x) (bdLen x)) then some 2
  else if (bdOp x = 7 ∨ bdOp x = 8) ∧ !(poolOf d (bdPool x)).en then some 3
  else none

/-! ### Running a descriptor -/

/-- The checks of a descriptor of firmware: the ranges of a copy; one outside the quota is reported as lost (R284). -/
def firmwareCheck (d q : Dev) (ch : Nat) (x : Desc) : Option Nat × Dev :=
  match (if bdOp x.w = 1 then bdRanges x.w else []).find? fun r => !okRange q x.part false r.1 r.2 with
  | some r => (some 2, dataLoss d (some x.part) ch r.1 r.2)
  | none => (none, d)

/-- The active descriptor of the channel's engine, when it is of the command's operation, is checked and run. A
descriptor whose Weirs are empty gives its set to another partition's (R365, R366). -/
def runBulk (op : Nat) (f : Dev → Nat → Nat → Desc → Dev × Desc) (ch : Nat) (d : Dev) : Dev :=
  if (engOf d (ch / 8)).active ≠ some ch then loadEngine d (ch / 8)
  else match (standing (chanOf d ch)).head? with
    | none => d
    | some x =>
      if bdOp x.w ≠ op ∨ x.started then d
      else if !bdWeirOk d x.part op then loadEngine d (ch / 8)
      else
        let p := x.part
        let x := { x with started := true }
        let q := opQuota d p (frontOp d ch)
        let (bad, d) := if ch % 8 = 7 then firmwareCheck d q ch x else (bdCheck q p x.w, d)
        let (d, x) := match bad with
          | some cause => ((bdRanges x.w).foldl (fun d r =>
              if cause = 2 ∧ !okRange q p false r.1 r.2 then countDenied d r.1 r.2 else d) d,
              x.finish sBadField cause)
          | none => f d p ch x
        modChan d ch fun c => { c with fetched := updFirst (fun y => !y.done) (fun _ => x) c.fetched }

/-- A transfer stopped by an uncorrectable block (R310, R341, R348). -/
def mediaEnd (d : Dev) (p ch : Nat) (x : Desc) (moved addr len : Nat) : Dev × Desc :=
  let d := dataLoss (dmaErr d 2) (some p) ch addr len
  (d, { x.finish sInternal 10 with moved := moved })

/-- A transfer stopped by a loss at device address `a` (R302, R341, R348). -/
def lossEnd (d : Dev) (p ch : Nat) (x : Desc) (moved a : Nat) : Dev × Desc :=
  (lossHere (dmaErr d 2) p ch a, { x.finish sInternal 10 with moved := moved })

/-- The check value is stored after the last byte (R334). -/
def putCheck (d : Dev) (p kind a : Nat) (bs : List Byte) : Dev :=
  let v := checkValue kind bs
  chargeRange (writeRange d p false a v) p a v.length

/-- The DRAM Weir is charged for n bytes at `a`, or n bytes of a fixed 64-byte unit there (R333, R366). -/
def chargeUnit (d : Dev) (p a n : Nat) (fixed : Bool) : Dev :=
  if fixed then touchLines (weirCharge d p 0 (dramBytes d p a 64 * (n / 64))) (locs d p false a 64) else chargeRange d p a n

/-! ### COPY (R333, R334, R339) -/

/-- The 64 bytes of a fixed source for every unit. -/
def fillBytes (unit : List Byte) (n : Nat) : List Byte := ((List.replicate (n / 64) unit).flatten)

/-- The bytes that reach the destination, and the flags of a conversion. -/
def cvtBytesOf (d : Dev) (p : Nat) (x : Desc) (src : List Byte) : List Byte × Nat :=
  let w := x.w
  if bdCvt w then
    let seed := (tgetD (d.part p).seeds (bdSeed w) 0).toNat
    let vals := decodeVals (bdSfmt w) src [] (src.length / cvtBytes (bdSfmt w))
    let r := encodeVals (bdDfmt w) (fun i => rndOf (bdRnd w == 1) seed x.step.toNat (bdStream w) i) vals 0
    (r.1.1, r.2 % 32)
  else (src, 0)

/-- A source that runs into its own destination: which of the bytes written ahead of the reads are
read is not said, so they are free (log 37). -/
def overlapped (w : BitVec 512) (bs : List Byte) : List Byte :=
  let s := bdSrc w
  let t := bdDst w
  let n := bs.length
  if bdFixS w || bdFixD w then bs
  else if bdCvt w then
    if s < t + n ∧ t < s + bdLen w then (List.range n).map fun i => Config.overlapByte (t + bdLen w - s) bs i else bs
  else if s < t ∧ t < s + n then bs.mapIdx fun i b => if i < t - s then b else Config.overlapByte (t - s) bs i
  else bs

/-- COPY: bytes before a poisoned line are written; the check value follows the last byte. -/
def copyDesc (d : Dev) (p ch : Nat) (x : Desc) : Dev × Desc :=
  let w := x.w
  let n := bdLen w
  let unit := if bdCvt w then cvtBytes (bdSfmt w) else 1
  let bad := poisonAt d p false (bdSrc w) (if bdFixS w then 64 else n)
  let lim := match bad with
    | some i => if bdFixS w then 0 else i / unit * unit
    | none => n
  let src := if bdFixS w then fillBytes (readRange d p false (bdSrc w) 64) lim else readRange d p false (bdSrc w) lim
  let (out, fl) := cvtBytesOf d p x src
  let out := overlapped w out
  let d := chargeUnit (chargeUnit d p (bdSrc w) lim (bdFixS w)) p (bdDst w) out.length (bdFixD w)
  let d := if bdFixD w then writeRange d p false (bdDst w) (lastN 64 (out.take (out.length / 64 * 64)))
    else writeRange d p false (bdDst w) out
  let moved := if bdFixD w then out.length / 64 * 64 else out.length
  let x := { x with flags := fl, moved := moved }
  let (d, x) := halfEvent d p x lim
  match bad with
  | some i => lossEnd d p ch x moved (bdSrc w + i)
  | none => (putCheck d p (bdCrc w) (bdDst w + out.length) out, x.finish sOk 0)

def execCopy (ch : Nat) (s : State) := onDev (runBulk 1 copyDesc ch) s

/-! ### Flash operations (R306, R307, R310) -/

def flashKeys (d : Dev) (p lba n : Nat) : List Nat :=
  (List.range (n / blockSize)).filterMap fun i => lbaKey d p (lba + i)

/-- FLASH_READ: the blocks before an uncorrectable one are written to memory. -/
def flashReadDesc (d : Dev) (p ch : Nat) (x : Desc) : Dev × Desc :=
  let w := x.w
  let n := bdLen w
  let keys := flashKeys d p (bdSrc w) n
  let meets (k : Nat) : Bool := d.ftl.lost.contains k || d.ftl.weak.contains k
  let good := keys.takeWhile fun k => !meets k
  let bs := good.flatMap (readBlock d.ftl)
  let met := (keys.drop good.length).head?
  let known := met.any d.ftl.lost.contains
  let d := flashRead (weirCharge d p 1 bs.length) (keys.take (good.length + 1))
  let d := chargeRange (writeRange d p false (bdDst w) bs) p (bdDst w) bs.length
  let x := { x with moved := bs.length }
  let (d, x) := halfEvent d p x bs.length
  if known then mediaEnd (ftlErr d 3) p ch x bs.length (bdSrc w + good.length) blockSize
  else if met.isSome then (dmaErr d 2, { x.finish sInternal 10 with moved := bs.length })
  else (putCheck d p (bdCrc w) (bdDst w + n) bs, x.finish sOk 0)

def execFlashRead (ch : Nat) (s : State) := onDev (runBulk 2 flashReadDesc ch) s

/-- FLASH_WRITE: every block is programmed and journalled, up to a poisoned source line. -/
def flashWriteDesc (d : Dev) (p ch : Nat) (x : Desc) : Dev × Desc :=
  let w := x.w
  let n := bdLen w
  let bad := poisonAt d p false (bdSrc w) n
  let lim := match bad with
    | some i => i / blockSize * blockSize
    | none => n
  let d := chargeRange (weirCharge d p 1 lim) p (bdSrc w) lim
  let blocks := (flashKeys d p (bdDst w) lim).zip (chunks blockSize (readRange d p false (bdSrc w) lim))
  let d := blocks.foldl (fun d b => writeBlock d b.1 b.2) d
  let x := { x with moved := lim }
  let (d, x) := halfEvent d p x lim
  match bad with
  | some i => lossEnd d p ch x lim (bdSrc w + i)
  | none => (d, x.finish sOk 0)

def execFlashWrite (ch : Nat) (s : State) := onDev (runBulk 3 flashWriteDesc ch) s

/-- FLASH_TRIM: the blocks read as zeros (R306). -/
def flashTrimDesc (d : Dev) (p _ch : Nat) (x : Desc) : Dev × Desc :=
  let d := (flashKeys d p (bdDst x.w) (bdLen x.w)).foldl trimBlock d
  (weirCharge d p 1 (bdLen x.w), { x.finish sOk 0 with moved := bdLen x.w })

def execFlashTrim (ch : Nat) (s : State) := onDev (runBulk 4 flashTrimDesc ch) s

/-! ### Fabric operations (R339, R214, R222) -/

/-- The transfer's LOADs or STOREs and its stream fence go to the channel's stream; a transfer of firmware has its
requests already. -/
def fabricDesc (d : Dev) (_p ch : Nat) (x : Desc) : Dev × Desc :=
  (d, if ch % 8 = 7 then x else { x with parts := descParts x.w })

def fabricRun (op ch : Nat) (d : Dev) : Dev := dmaPump (runBulk op fabricDesc ch d) ch

def execFabricRead (ch : Nat) (s : State) := onDev (fabricRun 5 ch) s
def execFabricWrite (ch : Nat) (s : State) := onDev (fabricRun 6 ch) s

/-! ### ALLOC and FREE (R326, R327, R330, R339) -/

def allocDesc (d : Dev) (p _ch : Nat) (x : Desc) : Dev × Desc :=
  let g := bdPool x.w
  let n := bdLen x.w
  match allocTest d g p n with
  | some (st, cause) => (d, x.finish st cause)
  | none =>
    let (is, d) := takeBufs d g p n false
    let d := chargeRange d p (bdDst x.w) (8 * n)
    let d := writeRange d p false (bdDst x.w) (is.flatMap fun i => toLe 8 ((poolOf d g).bufAddr i))
    (d, { x.finish sOk 0 with moved := n })

def execAlloc (ch : Nat) (s : State) := onDev (runBulk 7 allocDesc ch) s

def freeDesc (d : Dev) (p ch : Nat) (x : Desc) : Dev × Desc :=
  let g := bdPool x.w
  let n := bdLen x.w
  match poisonAt d p false (bdSrc x.w) (8 * n) with
  | some i => lossEnd d p ch x 0 (bdSrc x.w + i)
  | none =>
    let ptrs := (chunks 8 (readRange d p false (bdSrc x.w) (8 * n))).map leNat
    let d := chargeRange d p (bdSrc x.w) (8 * n)
    match freeTests d g p [] ptrs with
    | .inr (st, cause, a) => (countBadFree d p cause a, x.finish st cause)
    | .inl is => (freeBufs d g is, { x.finish sOk 0 with moved := n })

def execFree (ch : Nat) (s : State) := onDev (runBulk 8 freeDesc ch) s

/-! ### Completion (R340, R341) -/

/-- The status word, bytes 56 to 63 of the descriptor (R338). -/
def statusWord (x : Desc) : List Byte :=
  toLe 8 (packNat [(0, x.status.toNat), (8, x.cause), (16, x.flags), (24, x.moved % 2 ^ 32)])

/-- The write-back of a ring's descriptor: the status word, then OWN, then DONE_SEM (R340). -/
def writeBack (d : Dev) (x : Desc) : Dev :=
  let p := x.part
  let d := chargeRange (writeRange d p false (x.addr + 56) (statusWord x)) p (x.addr + 56) 8
  let d := chargeRange (writeRange d p false x.addr (toLe 1 (fld x.w 7 0 % 16 + fld x.w 7 5 * 32))) p x.addr 1
  if bdSigEn x.w then addSem d p (bdSem x.w) 1 else d

/-- A copy of firmware has ended: a promotion's, marked 2, or a snapshot's (R284, R420). -/
def copyEnded (d : Dev) (x : Desc) : Dev :=
  let ok := x.status == 0
  d.modPart x.part fun y => if x.addr = 2 then { y with promoting := y.promoting.map (· && ok) } else { y with copying := y.copying.map (· && ok) }

/-- DESCRIPTOR_COMPLETE: the channel's oldest descriptor has finished or stopped. The engine goes on to its shadow
set. A write-back waits while the partition's DRAM Weir is empty (R366). A copy of firmware stands in no ring; what
firmware writes to a buddy completes at SNAPSHOT_VALID. -/
def descriptorComplete (ch : Nat) (d : Dev) : Dev :=
  match (chanOf d ch).fetched with
  | [] => d
  | x :: rest =>
    let fw := ch % 8 == 7
    if !x.done || (if fw then bdOp x.w != 1 else !weirOk d x.part 0) then d
    else
      let d := if fw then copyEnded d x else writeBack d x
      let d := countEnd (modChan d ch fun c => { c with fetched := rest }) ch x
      let e := ch / 8
      let d := if x.started then modEng d e fun g => if g.active = some ch then { g with active := none } else g else d
      loadEngine d e

def execDescriptorComplete (ch : Nat) (s : State) := onDev (descriptorComplete ch) s

/-- Nothing of these channels stays with the engines. A firmware channel has no ring to reset. -/
def leaveEngines (mine : List Nat) (d : Dev) : Dev :=
  let d := mine.foldl (fun d ch => modChan d ch fun c => if ch % 8 = 7 then { c with fetched := [] } else {}) d
  (mine.map (· / 8)).eraseDups.foldl (fun d e =>
    loadEngine (modEng d e fun g => { g with
      active := g.active.filter fun c => !mine.contains c, shadow := g.shadow.filter fun c => !mine.contains c }) e) d

/-- A destroyed partition's descriptors are abandoned and its channels taken out of service (R340). -/
def dropChannels (d : Dev) (p : Nat) : Dev :=
  leaveEngines ((d.dma.chans.filter fun c => (c.2.en && c.2.part == p) || c.1 == 8 * p + 7).map (·.1)) d

end Sys2Proof.Machine
end

