-- ==== Sys2Proof/Machine/Operands.lean ====
section
/-! DEFINITION. The fields of tile commands (R64, R69 to R78), the count rule (R79), their SRAM footprints
(R67) and the check LOAD_PROGRAM makes of each (R24, R39, R65, R70 to R77, R333, R334). -/

namespace Sys2Proof.Machine

abbrev Cmd := BitVec 128

def cOp (w : Cmd) : Nat := fld w 5 0
def cSigEn (w : Cmd) : Bool := bit w 6
def cDigEn (w : Cmd) : Bool := bit w 7
def cSigIdx (w : Cmd) : Nat := fld w 13 8

/-! ### LDW, MM and ACC_OUT (R69 to R71) -/

/-- LDW and MM: the plane. MM also names a bank; ACC_OUT's bank stands in PLANE's place. -/
def cPlane (w : Cmd) : Nat := fld w 16 16
def ldwFmt (w : Cmd) : Nat := fld w 26 22
def ldwSrc (w : Cmd) : Nat := fld w 55 32
def ldwScale (w : Cmd) : Nat := fld w 87 64
def ldwRowBase (w : Cmd) : Nat := fld w 107 96
def mmAcc (w : Cmd) : Nat := fld w 22 22
def mmZero (w : Cmd) : Bool := bit w 23
def mmAfmt (w : Cmd) : Nat := fld w 28 24
def mmWfmt (w : Cmd) : Nat := fld w 93 89
def mmScale (w : Cmd) : Nat := 64 * fld w 81 64
def mmRow0 (w : Cmd) : Nat := fld w 88 82
/-- SRC of MM, DST of ACC_OUT. -/
def cAddr (w : Cmd) : Nat := fld w 55 32
/-- M of MM and ACC_OUT. -/
def cM (w : Cmd) : Nat := fld w 63 56
/-- STRIDE and ROW_BASE of MM and ACC_OUT. -/
def cStride (w : Cmd) : Nat := fld w 113 96
def cRowBase (w : Cmd) : Nat := fld w 125 114
def aoFmt (w : Cmd) : Nat := fld w 26 22
def aoRow0 (w : Cmd) : Nat := fld w 70 64
def aoCols (w : Cmd) : Nat := 32 * fld w 75 71

/-! ### VOP and CVT (R72, R73) -/

def vopFunc (w : Cmd) : Nat := fld w 21 16
def vopBmode (w : Cmd) : Nat := fld w 23 22
def vopRow (w : Cmd) : Nat := 64 * fld w 31 24
def vopA (w : Cmd) : Nat := fld w 55 32
def vopB (w : Cmd) : Nat := fld w 79 56
def vopDst (w : Cmd) : Nat := fld w 103 80
def vopLen (w : Cmd) : Nat := fld w 127 104
def cvtS (w : Cmd) : Nat := fld w 20 16
def cvtD (w : Cmd) : Nat := fld w 25 21
def cvtRnd (w : Cmd) : Nat := fld w 27 26
def cvtSeed (w : Cmd) : Nat := fld w 29 28
def cvtSrc (w : Cmd) : Nat := fld w 55 32
def cvtDst (w : Cmd) : Nat := fld w 79 56
def cvtScale (w : Cmd) : Nat := fld w 103 80
def cvtExp (w : Cmd) : Nat := fld w 87 80
def cvtStream (w : Cmd) : Nat := fld w 115 104
def cvtLen (w : Cmd) : Nat := fld w 127 116

/-! ### MOV (R74) -/

def movMover (w : Cmd) : Nat := fld w 16 16
/-- SRAM to device. -/
def movOut (w : Cmd) : Bool := bit w 17
def movCrc (w : Cmd) : Nat := fld w 24 23
def movHalf (w : Cmd) : Bool := bit w 25
def movFixS (w : Cmd) : Bool := bit w 26
def movFixD (w : Cmd) : Bool := bit w 27
def movS (w : Cmd) : Nat := fld w 55 32
def movLen (w : Cmd) : Nat := fld w 79 56
def movD (w : Cmd) : Nat := fld w 127 80

/-! ### Control and engine commands (R75 to R78) -/

def cIndex (w : Cmd) : Nat := fld w 25 16
/-- The counter is a partition semaphore. -/
def cSem (w : Cmd) : Bool := bit w 26
def waitLdcnt (w : Cmd) : Bool := bit w 27
def waitCnt (w : Cmd) : Nat := fld w 31 28
def waitThr (w : Cmd) : Nat := fld w 63 32
def waitHdr (w : Cmd) : Nat := fld w 87 64
def waitDec (w : Cmd) : Bool := bit w 88
def sigSet (w : Cmd) : Bool := bit w 27
def sigVal (w : Cmd) : U32 := BitVec.ofNat 32 (fld w 63 32)
def engDesc (w : Cmd) : Nat := fld w 55 32
def xchgKind (w : Cmd) : Nat := fld w 17 16
def collComm (w : Cmd) : Nat := fld w 23 16
def digFlush (w : Cmd) : Bool := bit w 16
def digAccum (w : Cmd) : Nat := fld w 20 17
def digLayer (w : Cmd) : Nat := fld w 41 32
def digTensor (w : Cmd) : Nat := fld w 63 48
def digRow (w : Cmd) : U32 := BitVec.ofNat 32 (fld w 95 64)
def digCol (w : Cmd) : U32 := BitVec.ofNat 32 (fld w 127 96)
def stepParts (w : Cmd) : Nat := fld w 21 16
def stepJob (w : Cmd) : Bool := bit w 22

/-! ### The count rule (R79) -/

def countOf (cnt : Tbl U32) (i : Nat) : Nat := (tgetD cnt i 0).toNat

/-- min(M, max(0, COUNT − ROW_BASE)) with CNT_EN set; LDW takes M as 128. -/
def effRows (cnt : Tbl U32) (w : Cmd) (m base : Nat) : Nat :=
  if bit w 17 then min m (countOf cnt (fld w 21 18) - base) else m

/-- The command is a null tile under the task's counts. -/
def nullTile (cnt : Tbl U32) (w : Cmd) : Bool :=
  match cOp w with
  | 1 => effRows cnt w 128 (ldwRowBase w) == 0
  | 2 => effRows cnt w (cM w) (cRowBase w) == 0
  | 3 => effRows cnt w (cM w) (cRowBase w) == 0
  | 6 => bit w 18 && countOf cnt (fld w 22 19) == 0
  | _ => false

/-! ### Shapes -/

/-- Bytes of a weight tile's elements and scales in SRAM (R55, R56). -/
def tileElems (f : Nat) : Nat := nOf f * kOf f * elemBits (elemOf f) / 8
def tileScales (f : Nat) : Nat := if isMx f then nOf f * kOf f / 32 else 0

/-- Bytes of one activation row of K elements of a format, for a weight format. -/
def actRow (wf af : Nat) : Nat := kOf wf * elemBits (elemOf af) / 8

/-- The stride of the scale rows: one byte per block of the row stride (R70). -/
def scaleStride (w : Cmd) : Nat := cStride w / blockBytes (mmAfmt w)

/-- Bytes of one ACC_OUT row. -/
def aoRow (w : Cmd) : Nat := aoCols w * elemBits (elemOf (aoFmt w)) / 8

/-- Rows of a VOP. -/
def vopRows (w : Cmd) : Nat := if vopRow w = 0 then 1 else vopLen w / vopRow w

/-- Bytes read as operand B. RMSNORM's is one row-length vector with eps behind it whatever BMODE says, which R72
leaves open (DESIGN CHOICE, log 59). -/
def vopBBytes (w : Cmd) : Nat :=
  if isUnary (vopFunc w) then 0
  else if vopFunc w = 0x1B then 4 * (vopRow w + 1)
  else match vopBmode w with
    | 0 => 4 * vopLen w
    | 1 => 4 * vopRows w
    | 2 => 4 * vopRow w
    | _ => 4

def vopOut (w : Cmd) : Nat := if onePerRow (vopFunc w) then 4 * vopRows w else 4 * vopLen w

/-- Elements of a CVT: 40 to a block on a BSI48 side, else 32 to a unit. -/
def cvtElems (w : Cmd) : Nat := (if cvtS w = 0xA ∨ cvtD w = 0xA then 40 else 32) * cvtLen w

/-- Bytes of one side of a CVT. -/
def cvtSide (w : Cmd) (f : Nat) : Nat :=
  if f = 0xA then 256 * cvtLen w else cvtElems w * elemBits (elemOf f) / 8

/-- The bytes a check value takes (R334). -/
def crcLen (k : Nat) : Nat := if k = 1 then 4 else if k = 2 then 8 else 0

/-- The ranges of a MOV: in SRAM, and at the device address. -/
def movSram (w : Cmd) : Nat × Nat :=
  (movS w, if movOut w then (if movFixS w then 64 else movLen w)
    else (if movFixD w then 64 else movLen w) + crcLen (movCrc w))

def movDev (w : Cmd) : Nat × Nat :=
  (movD w, if movOut w then (if movFixD w then 64 else movLen w) + crcLen (movCrc w)
    else (if movFixS w then 64 else movLen w))

/-! ### Footprints (R67) -/

/-- From the lowest to the highest byte of m rows. -/
def rowsRange (a stride m n : Nat) : List (Nat × Nat) := if m = 0 then [] else [(a, (m - 1) * stride + n)]

/-- The SRAM ranges a command reads. -/
def cmdReads (cnt : Tbl U32) (w : Cmd) : List (Nat × Nat) :=
  if nullTile cnt w then []
  else match cOp w with
    | 1 => (ldwSrc w, tileElems (ldwFmt w)) :: (if isMx (ldwFmt w) then [(ldwScale w, tileScales (ldwFmt w))] else [])
    | 2 =>
      let m := effRows cnt w (cM w) (cRowBase w)
      rowsRange (cAddr w) (cStride w) m (actRow (mmWfmt w) (mmAfmt w)) ++
        (if isMx (mmAfmt w) then rowsRange (mmScale w) (scaleStride w) m (kOf (mmWfmt w) / 32) else [])
    | 4 => (vopA w, 4 * vopLen w) :: ((if vopBBytes w = 0 then [] else [(vopB w, vopBBytes w)]) ++
        (if vopFunc w = 4 then [(vopDst w, 4 * vopLen w)] else []))
    | 5 => (cvtSrc w, cvtSide w (cvtS w)) :: (if isMx (cvtS w) then [(cvtScale w, cvtLen w)] else [])
    | 6 => if movOut w then [movSram w] else []
    | 8 => if waitLdcnt w then [(waitHdr w, 4)] else []
    | 0xD => [(engDesc w, 64)]
    | 0xE => [(engDesc w, 64)]
    | _ => []

/-- The SRAM ranges a command writes. -/
def cmdWrites (cnt : Tbl U32) (w : Cmd) : List (Nat × Nat) :=
  if nullTile cnt w then []
  else match cOp w with
    | 3 => rowsRange (cAddr w) (cStride w) (effRows cnt w (cM w) (cRowBase w)) (aoRow w)
    | 4 => [(vopDst w, vopOut w)]
    | 5 => (cvtDst w, cvtSide w (cvtD w)) :: (if isMx (cvtD w) then [(cvtScale w, cvtLen w)] else [])
    | 6 => if movOut w then [] else [movSram w]
    | _ => []

def meets (a b : List (Nat × Nat)) : Bool :=
  a.any fun x => b.any fun y => decide (x.1 < y.1 + y.2 ∧ y.1 < x.1 + x.2)

/-! ### The check of R65 -/

/-- The formats a plane may be loaded with (R39, R55). -/
def weightOk (f : Nat) : Bool :=
  let e := elemOf f
  if isMx f then decide (3 ≤ e ∧ e ≤ 9) else e == 1 || e == 2 || e == 8 || e == 9

def storesData (op : Nat) : Bool := op == 3 || op == 4 || op == 5 || op == 6

/-- VOP's row length and operand modes (R72). -/
def vopOk (w : Cmd) : Bool :=
  let row := vopRow w
  let shaped := row != 0 && vopLen w % row == 0
  funcOk (vopFunc w) && vopLen w != 0 && vopA w % 4 == 0 && (isUnary (vopFunc w) || vopB w % 4 == 0) && vopDst w % 4 == 0 &&
  (if isRowFunc (vopFunc w) then shaped
   else if vopBmode w = 0 ∨ vopBmode w = 3 then row == 0
   else shaped)

/-- CVT between FP32 and another format; to INT32 R37 gives no conversion, from it RNE (R23, R37, R73, log 59). -/
def cvtOk (w : Cmd) : Bool :=
  let s := cvtS w
  let t := cvtD w
  codeOk s && codeOk t && (s == 0 || t == 0) && t != 0xB && decide (cvtRnd w < 2) && cvtLen w != 0 &&
  fld w 31 30 == 0 && (!(s == 0xA || t == 0xA) || fld w 103 88 == 0)

/-- MOV's fixed addresses and check values (R333, R334). -/
def movOk (w : Cmd) : Bool :=
  let src := if movOut w then movS w else movD w
  let dst := if movOut w then movD w else movS w
  fld w 31 28 == 0 && movCrc w != 3 && movLen w != 0 &&
  (!movFixS w || (src % 64 == 0 && movLen w % 64 == 0)) &&
  (!movFixD w || (dst % 64 == 0 && movLen w % 64 == 0 && movCrc w == 0))

/-- LOAD_PROGRAM accepts the command (R65). WAIT's HDR is checked with LDCNT clear as well, where R75 leaves open
whether its alignment then matters (DESIGN CHOICE, log 59). -/
def cmdOk (w : Cmd) : Bool :=
  let op := cOp w
  fld w 15 14 == 0 && (!cDigEn w || storesData op) && (op != 0x3F || !cSigEn w) &&
  (match op with
   | 1 => fld w 31 27 == 0 && fld w 63 56 == 0 && fld w 95 88 == 0 && fld w 127 108 == 0 && weightOk (ldwFmt w) &&
      ldwSrc w % 64 == 0 && (!isMx (ldwFmt w) || ldwScale w % 64 == 0)
   | 2 => fld w 31 29 == 0 && fld w 95 94 == 0 && fld w 127 126 == 0 && weightOk (mmWfmt w) && codeOk (mmAfmt w) &&
      pairOk (mmWfmt w) (mmAfmt w) && decide (1 ≤ cM w ∧ cM w ≤ 128 ∧ mmRow0 w + cM w ≤ 128) &&
      (!isMx (mmAfmt w) || cStride w % blockBytes (mmAfmt w) == 0)
   | 3 => fld w 31 27 == 0 && fld w 95 76 == 0 && fld w 127 126 == 0 && [0, 1, 2, 0xB].contains (aoFmt w) &&
      decide (1 ≤ cM w ∧ cM w ≤ 128 ∧ aoRow0 w + cM w ≤ 128) && decide (32 ≤ aoCols w ∧ aoCols w ≤ 512)
   | 4 => vopOk w
   | 5 => cvtOk w
   | 6 => movOk w
   | 8 => (cSem w || decide (cIndex w < 64)) && waitHdr w % 64 == 0 && fld w 127 89 == 0
   | 9 => (cSem w || decide (cIndex w < 64)) && fld w 31 28 == 0 && fld w 127 64 == 0
   | 0xC => fld w 31 26 == 0 && fld w 127 112 == 0 && decide (1 ≤ fld w 87 72 ∧ fld w 87 72 ≤ 4096)
   | 0xD => fld w 31 18 == 0 && fld w 127 56 == 0 && decide (xchgKind w < 2) && engDesc w % 64 == 0
   | 0xE => fld w 31 24 == 0 && fld w 127 56 == 0 && engDesc w % 64 == 0
   | 0x10 => fld w 31 21 == 0 && fld w 47 42 == 0
   | 0x11 => fld w 127 23 == 0 && decide (1 ≤ stepParts w ∧ stepParts w ≤ 32)
   | 0x3F => fld w 127 16 == 0
   | _ => false)

end Sys2Proof.Machine
end

