-- ==== Sys2Proof/Machine/Sched.lean ====
section
/-! DEFINITION. The Task Scheduler: tasks, submissions and results, hand-overs, placement, pre-emption,
Basking, the watchdog and pauses (R80 to R82, R89 to R92, R355 to R363, R369 to R379, R459 to R461). -/

namespace Sys2Proof.Machine

/-! ### Tasks -/

def Task.unit (t : Task) : CoreUnit → List InFlight
  | .loader => t.loader
  | .array => t.array
  | .drain => t.drain
  | .vector => t.vector
  | .mover m => if m = 0 then t.mover0 else t.mover1
  | .port => t.port

def Task.setUnit (t : Task) (u : CoreUnit) (q : List InFlight) : Task :=
  match u with
  | .loader => { t with loader := q }
  | .array => { t with array := q }
  | .drain => { t with drain := q }
  | .vector => { t with vector := q }
  | .mover m => if m = 0 then { t with mover0 := q } else { t with mover1 := q }
  | .port => { t with port := q }

/-- Every command issued and not yet complete. -/
def Task.inFlight (t : Task) : List InFlight :=
  t.loader ++ t.array ++ t.drain ++ t.vector ++ t.mover0 ++ t.mover1 ++ t.port

def Task.idle (t : Task) : Bool := t.inFlight.isEmpty

/-- The units of R91 are idle; what an engine has yet to accept stays with the engine. -/
def Task.unitsIdle (t : Task) : Bool := (t.loader ++ t.array ++ t.drain ++ t.vector ++ t.mover0 ++ t.mover1).isEmpty

/-- The step counter that keys Ripple for the task: the logged one during a replay (R393, R416). -/
def stepKey (d : Dev) (t : Task) : U64 := if t.replay.isSome then t.replayStep else (d.part t.part).step

/-- The command's effects of R415 are left out: its bit is set and the task is replayed (R416). -/
def Task.suppressed (t : Task) : Bool := t.replay.isSome && t.effects.contains t.ip

def modCoreTask (d : Dev) (pc : Nat) (f : Task → Task) : Dev := d.modCore pc fun c => { c with task := c.task.map f }

def schErr (d : Dev) (i : Nat) : Dev := { d with sched := { d.sched with err := bump d.sched.err i 1 } }

def programOf (d : Dev) (p prog : Nat) : Option Program := tget (d.part p).progs prog

def taskDef (d : Dev) (p : Nat) (q : QEntry) : Option TaskDef := (programOf d p q.prog).bind fun g => g.tasks[q.task]?

/-- A task as R359 starts it. -/
def newTask (d : Dev) (p : Nat) (q : QEntry) : Task :=
  let def_ := (taskDef d p q).getD ⟨0, 0, false, 0⟩
  { part := p, sub := q.sub, entry := q.index, prog := q.prog, task := q.task, args := q.args, start := def_.start
    count := def_.count, ip := def_.start, sb := [], cnt := q.args.mapIdx fun i a => (8 + i, a), dig := {}, loader := []
    array := [], drain := [], vector := [], mover0 := [], mover1 := [], port := [], holding := none, atStep := false
    stopped := none, effects := [], reads := [], broken := false, stepAtStart := (d.part p).step, replay := none, replayStep := (d.part p).step
    partials := [] }

/-! ### Engine operations (R82, R340, R373, R395) -/

/-- A fetched bulk descriptor of the partition; on a firmware channel, one that has not ended. -/
def descOpen (d : Dev) (p : Nat) : Bool :=
  d.dma.chans.any fun c => c.2.fetched.any fun x => x.part == p && (c.1 % 8 != 7 || !x.done)

/-- An exchange, collective, rack-memory request or fetched descriptor of the partition is open. -/
def transfersOpen (d : Dev) (p : Nat) : Bool :=
  d.slc.exch.any (fun x => x.part == p && !x.wrote) || rillBusy d p || d.rm.reqs.any (fun r => r.part == p) ||
  descOpen d p

/-! ### Operations under way (R300, R378) -/

/-- Rack-memory requests, and fetched bulk descriptors. -/
def rackOps (d : Dev) (p : Nat) : List OpId := (d.rm.reqs.filter fun r => r.part == p).map fun r => .rack r.stream r.order

def descOps (d : Dev) (p : Nat) : List OpId :=
  d.dma.chans.flatMap fun c => (c.2.fetched.mapIdx fun i x => (i, x)).filterMap fun x =>
    if x.2.part == p && (c.1 % 8 != 7 || !x.2.done) then some (descOp d c.1 x.1) else none

/-- Commands that p's tasks have issued. -/
def cmdOps (d : Dev) (p : Nat) : List OpId :=
  d.cores.flatMap fun c => match c.2.task with
    | some t => if t.part == p then t.inFlight.map fun x => .cmd c.1 t.sub t.entry x.idx else []
    | none => []

/-- Every operation of the partition that was accepted and has not completed. -/
def openOps (d : Dev) (p : Nat) : List OpId :=
  cmdOps d p ++ (d.gate.steps.filter fun g => g.part == p).map (fun g => .gate g.id) ++
  (d.slc.exch.filter fun x => x.part == p && !x.wrote).map (fun x => .exch x.uid) ++
  (d.rill.colls.filter fun x => x.part == p && !x.ended).map (fun x => .coll x.uid) ++ rackOps d p ++ descOps d p ++
  ((d.part p).kvCopies.filter fun k => !k.done).map (fun k => .kv k.seq) ++
  ((d.part p).buckets.filter fun b => b.launched && b.phase != .final).map (fun b => .bucket b.index)

/-- As above, or a Gate step. -/
def enginesOpen (d : Dev) (p : Nat) : Bool := d.gate.steps.any (fun g => g.part == p) || transfersOpen d p

/-- An engine operation that will signal the scoreboard of p's task on a logical core (R78): an
exchange with a receive table entry that names it, a rack-memory request with a scoreboard signal. A
collective signals semaphores alone (R237). -/
def willSignal (d : Dev) (p lcore : Nat) : Bool :=
  d.slc.exch.any (fun x => x.part == p && !x.wrote && x.rxt.any fun e =>
    (bit e 261 && !bit e 262 && rxLcore e == lcore) || (bit e 273 && !bit e 274 && rxLcore e == lcore)) ||
  d.rm.reqs.any (fun r => r.part == p && r.stream == lcore && rqSigEn r.desc && !rqSigSem r.desc)

/-! ### Submissions (R358 to R360, R378, R379) -/

def winIdx (mb win : Nat) : Nat := 64 * mb + win

def modWindow (d : Dev) (k : Nat) (f : Window → Window) : Dev :=
  { d with host := { d.host with windows := match tget d.host.windows k with
      | some w => tput d.host.windows k (f w)
      | none => d.host.windows } }

/-- SUB_DONE, to the session that sent the SUBMIT (R360, R462). -/
def subDone (d : Dev) (p : Nat) (req : ReqId) (noevt : Bool) (id : U32) (status gen : Nat) : Dev :=
  sendEvent d { code := 0x01, mailbox := p + 1, status := status, tag := req.tag.toNat, id := id.toNat, data := toLe 4 gen
                sev := statusSev status, part := some p, source := srcSched
                dest := some (req.session, noevt) }

/-- OK when every task ended at END, else the status of the failed task that stands first (R360). -/
def subStatus (s : Sub) : Nat :=
  match s.failed with
  | some st => st.toNat
  | none =>
  if s.aborting then sAborted
  else match s.retired.find? fun r => r.2 != 0 with
    | some r => r.2.toNat
    | none => sOk

/-- Requests that wait for a submission's end: its ABORTs (R378). -/
def abortReqs (d : Dev) (p : Nat) (id : U32) : List Req :=
  d.host.reqs.filter fun r => r.started && !r.answered && r.cmd == 0x22 && r.id.mailbox == p + 1 && le r.body 0 4 == id.toNat

/-- The queue entries of held submissions are taken in once they fit (R358). -/
def admitFuel : Nat → Nat → Dev → Dev
  | 0, _, d => d
  | n + 1, p, d =>
    let x := d.part p
    match x.heldSubs with
    | [] => d
    | (s, es) :: rest =>
      if x.queue.length + es.length > 256 then d
      else
        let d := d.modPart p fun x => { x with heldSubs := rest, queue := x.queue ++ es, subs := x.subs ++ [s] }
        let d := match d.host.reqs.find? fun r => r.id == s.req with
          | some r => respond d r sAccepted 0xFFFF (toLe 4 s.gen)
          | none => d
        admitFuel n p d

def admitHeld (d : Dev) (p : Nat) : Dev := admitFuel (d.part p).heldSubs.length p d

/-- Gate steps, exchanges and collectives of a submission that is aborted or has ended (R120, R163, R258). -/
def endSubOps (d : Dev) (p : Nat) (s : Sub) : Dev :=
  let d := gateDiscard d (fun g => g.part == p && g.sub == s.id) (if s.aborting then sevNotice else sevError) true
  seqPumpAll (rillAbortSub (abortSub d p s.id) p s.id)

/-- A submission whose last task has retired, or that was aborted, ends (R120, R163, R258, R360,
R378): the engines discard what it left open, and its result is published in turn, or never. -/
def subComplete (d : Dev) (p : Nat) (s : Sub) : Dev :=
  let status := subStatus s
  let d := endSubOps d p s
  let d := d.modPart p fun x => { x with
    subs := dropFirst (fun y => y.id == s.id) x.subs
    remembered := lastN 1024 (x.remembered.filter (· != s.id) ++ [s.id]) }
  let d := match s.window with
    | some k =>
      let g := if status = sOk then GenState.ended s.id else .void
      modWindow d (winIdx (p + 1) k) fun w => { w with gens := tput w.gens s.gen g }
    | none => d
  let d := if s.aborting && s.failed.isNone then schErr d 3 else d
  let d := if status = sOk ∧ s.window.isSome then d else subDone d p s.req s.noevt s.id status 0
  let d := (abortReqs d p s.id).foldl (fun d r => respondOk d r []) d
  admitHeld d p

def findSub (d : Dev) (p : Nat) (id : U32) : Option Sub := (d.part p).subs.find? fun s => s.id == id

/-- The cores that run, or are taking up, a task of a submission. -/
def subTasks (d : Dev) (p : Nat) (id : U32) : List Nat :=
  (d.cores.filter fun c => match c.2.task with
    | some t => t.part == p && t.sub == id
    | none => false).map (·.1)

/-- All that an ABORT waits for has ended: its tasks, and the requests and descriptors issued before it (R378). -/
def abortEnded (d : Dev) (p : Nat) (s : Sub) : Bool :=
  (subTasks d p s.id).isEmpty && !(s.rest.any (rackOps d p ++ descOps d p).contains)

/-- Aborted submissions whose end has come. -/
def abortsDue (d : Dev) (p : Nat) : Dev :=
  ((d.part p).subs.filter (·.aborting)).foldl (fun d s => if abortEnded d p s then subComplete d p s else d) d

/-- A partition's aborted submissions end with it (R354). -/
def endSubs (d : Dev) (p : Nat) : Dev := ((d.part p).subs.filter (·.aborting)).foldl (fun d s => subComplete d p s) d

/-- One task of a submission has retired with a status. -/
def taskRetired (d : Dev) (p : Nat) (id : U32) (entry : Nat) (status : Nat) : Dev :=
  let mark (s : Sub) : Sub := { s with retired := tput s.retired entry (BitVec.ofNat 8 status) }
  let d := d.modPart p fun x => { x with subs := updFirst (fun s => s.id == id) mark x.subs }
  match findSub d p id with
  | some s =>
    let done := if s.aborting then abortEnded d p s else decide (s.retired.length ≥ s.total)
    if done then subComplete d p s else d
  | none => d

/-! ### Hand-overs (R356, R373) -/

/-- A pre-emption has chosen the core's task as its victim (R371). -/
def preempted (d : Dev) (pc : Nat) : Bool := d.sched.preempting.any fun x => x.2.2.2 == pc

/-- The save engine starts: the core shows SAVING (R356, R385). -/
def beginHandover (d : Dev) (pc : Nat) (inPart : Option Nat) : Dev :=
  let c := d.core pc
  if c.handover.isSome then d
  else schErr (d.modCore pc fun c => { c with st := .saving, handover := some ⟨c.holder, inPart⟩ }) 1

/-- A placed task begins on an idle core, after a hand-over if another partition holds it. -/
def beginTask (d : Dev) (pc : Nat) : Dev :=
  let c := d.core pc
  match c.task with
  | none => d.modCore pc fun c => { c with st := .idle }
  | some t =>
    if c.holder = some t.part then d.modCore pc fun c => { c with st := .running, part := t.part }
    else beginHandover d pc (some t.part)

/-- The recovery of a core ends: its record is written (R416, R424). -/
def recoveryDone (d : Dev) (pc : Nat) : Dev :=
  match (d.core pc).recovering with
  | none => d
  | some old =>
    let mine (r : Recovery) : Bool := r.cls == 1 && r.unit == old
    let d := d.modCore pc fun c => { c with recovering := none }
    match d.rec_.running.find? mine with
    | none => d
    | some r =>
      recoveryEvent { d with rec_ := { d.rec_ with running := dropFirst mine d.rec_.running } } sRecovered 0x01 r.part 1 old
        (usSince d r.since) 0

/-- The task leaves its core (R92, R360). -/
def retireTask (d : Dev) (pc status : Nat) : Dev :=
  let c := d.core pc
  match c.task with
  | none => d
  | some t =>
    let d := recoveryDone d pc
    let d := d.modCore pc fun c => { c with task := none, st := if c.st = .running then .idle else c.st }
    let d := { d with sched := { d.sched with preempting := d.sched.preempting.filter fun x => x.2.2.2 != pc } }
    let d := grdNoTasks d t.part
    taskRetired d t.part t.sub t.entry status

/-- What follows when a core's units are idle: a stopped task retires; a pre-empted or paused one is
saved; a core that a pausing partition holds hands its view over. -/
def settleCore (d : Dev) (pc : Nat) : Dev :=
  let c := d.core pc
  match c.task with
  | some t =>
    if !t.unitsIdle || c.st != .running || (c.recovering.isSome && t.stopped.isNone) then d
    else match t.stopped with
      | some s =>
        if !t.idle then d
        else
          let d := retireTask d pc s.toNat
          if (d.part t.part).holding then beginHandover d pc none else d
      | none =>
        match d.sched.preempting.find? fun x => x.2.2.2 == pc with
        | some x => beginHandover d pc (some x.1)
        | none => if (d.part t.part).holding then beginHandover d pc none else d
  | none =>
    match c.holder with
    | some p => if (d.part p).holding ∧ (c.st = .idle ∨ c.st = .basking) then beginHandover d pc none else d
    | none => d

/-- A run-time fault, or the loss of R336, ends the task: issue stops, in-flight commands complete,
the EVENT carries the command's index: the pointer's, unless a command already issued is at fault (R92). -/
def stopTask (d : Dev) (pc status : Nat) (idx : Option Nat := none) : Dev :=
  let c := d.core pc
  match c.task with
  | none => d
  | some t =>
    if t.stopped.isSome then d
    else
      let d := modCoreTask d pc fun t => { t with stopped := some (BitVec.ofNat 8 status), holding := none, atStep := false }
      let d := sendEvent d
        { code := 0x02, mailbox := t.part + 1, status := status, id := t.sub.toNat
          data := toLe 9 (packNat [(0, t.prog), (16, t.task), (32, idx.getD t.ip), (64, c.lcore.getD 0x3F)])
          sev := sevError, part := some t.part, source := srcCore }
      settleCore d pc

/-- A stop without event or fault: the submission is aborted (R378). Pushes that the Gate Unit has not
taken are dropped. The recovery of the task's core comes first (R423). -/
def abortTask (d : Dev) (pc : Nat) : Dev :=
  let c := d.core pc
  match c.task with
  | none => d
  | some t =>
    if c.recovering.isSome then d
    else
    let mine (u : Push) : Bool := u.part == t.part && u.sub == t.sub && some u.lcore == c.lcore
    let d := { d with gate := { d.gate with queue := d.gate.queue.filter fun u => !mine u } }
    if c.st = .running then
      settleCore (modCoreTask d pc fun t => { t with
        stopped := some (BitVec.ofNat 8 sAborted), holding := none, atStep := false, port := [] }) pc
    else retireTask d pc sAborted

/-- The recovery of a core is over: an abort that waited for it stops the task (R423). -/
def abortWaiting (d : Dev) (pc : Nat) : Dev :=
  match (d.core pc).task with
  | some t => if t.stopped.isNone && (findSub d t.part t.sub).any (·.aborting) then abortTask d pc else d
  | none => d

/-- A core's replay has ended when its task has run past the last logged command (R416). -/
def replayEnded (d : Dev) (pc : Nat) : Dev :=
  match (d.core pc).task with
  | some t =>
    if t.replay.isNone && (d.core pc).st == .running && (d.core pc).recovering.isSome then
      settleCore (abortWaiting (recoveryDone d pc) pc) pc
    else d
  | none => d

/-- ABORT has won a submission (R378): what its tasks opened ends, queued entries and contexts go, its tasks stop. -/
def abortSubmission (d : Dev) (p : Nat) (id : U32) : Dev :=
  let d := { d with gate := { d.gate with queue := d.gate.queue.filter fun u => !(u.part == p && u.sub == id) } }
  let d := d.modPart p fun x => { x with
    subs := updFirst (fun s => s.id == id) (fun s => { s with aborting := true, rest := rackOps d p ++ descOps d p }) x.subs
    queue := x.queue.filter fun q => q.sub != id
    ctxs := x.ctxs.filter fun c => c.2.task.sub != id }
  let d := match findSub d p id with
    | some s => endSubOps d p s
    | none => d
  let d := grdNoTasks d p
  let cs := subTasks d p id
  if cs.isEmpty then
    match findSub d p id with
    | some s => if abortEnded d p s then subComplete d p s else d
    | none => d
  else cs.foldl abortTask d

/-! ### HANDOVER_DONE -/

/-- The outgoing view goes to its image, with the context of a task that is pre-empted or paused. -/
def saveOut (d : Dev) (pc lcore q : Nat) (victim : Bool) : Dev :=
  let c := d.core pc
  let d := d.modPart q fun x => { x with images := tput x.images lcore c.sram }
  match c.task with
  | some t =>
    if victim then
      let ctx : Ctx := ⟨t, c.plane0, c.plane1, c.acc0, c.acc1, (d.part q).holding⟩
      (d.modCore pc fun c => { c with task := none }).modPart q fun x => { x with ctxs := tput x.ctxs lcore ctx }
    else d
  | none => d

/-- The incoming partition's image is restored into the SRAM. -/
def restoreIn (d : Dev) (pc lcore : Nat) (inPart : Option Nat) : Dev :=
  match inPart with
  | none => d.modCore pc fun c => { c with holder := none, sram := [], st := .idle, handover := none }
  | some p =>
    let img := tgetD (d.part p).images lcore []
    let d := d.modPart p fun x => { x with images := tdel x.images lcore }
    d.modCore pc fun c => { c with holder := some p, sram := img, st := .idle, handover := none, part := p }

/-- A fresh task takes the core: planes EMPTY, banks zero (R359). -/
def loadFresh (d : Dev) (pc p : Nat) (q : QEntry) : Dev :=
  let t := newTask d p q
  let d := d.modPart p fun x => { x with queue := dropFirst (· == q) x.queue }
  admitHeld (d.modCore pc fun c => { c with
    task := some t, part := p, plane0 := {}, plane1 := {}, acc0 := {}, acc1 := {} }) p

/-- The rotation of its class starts after the partition placed last (R361). -/
def placed (d : Dev) (p : Nat) : Dev :=
  { d with sched := { d.sched with lastPlaced := tput d.sched.lastPlaced (d.part p).cls p } }

/-- A queued task of the partition may go to core n: the core stays in the set, and no task of the partition waits to
resume there, which goes first (R351, R361). -/
def takesQueued (x : Part) (n : Nat) : Bool := bit x.coreset n && !bit x.leaving n && (tget x.ctxs n).isNone

/-- HANDOVER_DONE (R356, R371). The waiting task is placed, unless its partition pauses, it was aborted or the core
left the partition's set meanwhile (R351, R373, R378). -/
def handoverDone (n : Nat) (d : Dev) : Dev :=
  match coreOf d n with
  | none => d
  | some pc =>
    let c := d.core pc
    match c.handover with
    | none => d
    | some h =>
      let victim := match c.task with
        | some t => h.outPart == some t.part && h.inPart != some t.part
        | none => false
      let d := match h.outPart with
        | some q => if (d.part q).valid then saveOut d pc n q victim else d
        | none => d
      let d := restoreIn d pc n (h.inPart.filter fun p => bit (d.part p).coreset n)
      match d.sched.preempting.find? fun x => x.2.2.2 == pc with
      | some x =>
        let d := { d with sched := { d.sched with preempting := dropFirst (fun y => y.2.2.2 == pc) d.sched.preempting } }
        match if (d.part x.1).st == .active && takesQueued (d.part x.1) n then (d.part x.1).queue.find? fun q => q.sub == x.2.1 && q.index == x.2.2.1 else none with
        | some q => beginTask (loadFresh (placed d x.1) pc x.1 q) pc
        | none => settleCore d pc
      | none => settleCore (beginTask d pc) pc

def execHandoverDone (n : Nat) (s : State) := onDev (handoverDone n) s

/-! ### Placement (R361 to R363) -/

/-- A queued task is eligible: its program is loaded and its start condition holds. -/
def eligible (d : Dev) (p : Nat) (q : QEntry) : Bool :=
  (taskDef d p q).isSome && (!q.startEn || decide (semOf d p q.startSem ≥ q.startVal))

def coreFree (c : Core) : Bool := (c.st == .idle || c.st == .basking) && c.task.isNone && c.handover.isNone

/-- The lcore a PINNED task names. -/
def pinnedTo (d : Dev) (p : Nat) (q : QEntry) : Option Nat :=
  (taskDef d p q).bind fun t => if t.pinned then some t.lcore else none

/-- The partition's pre-empted tasks may resume: it is ACTIVE, or PAUSING and not yet at its boundary. -/
def mayResume (x : Part) : Bool := x.st == .active || (x.st == .pausing && !x.holding)

/-- A pre-empted task is PINNED. -/
def ctxPinned (d : Dev) (p : Nat) (c : Ctx) : Bool :=
  ((programOf d p c.task.prog).bind fun g => g.tasks[c.task.task]?).any (·.pinned)

/-- A PINNED task of some partition waits for the core, queued or pre-empted: it is not free to FLOATING
ones (R362, R363). -/
def pinnedWaits (d : Dev) (n : Nat) : Bool :=
  (List.range 16).any fun p =>
    ((d.part p).st == .active && (d.part p).queue.any fun q => eligible d p q && pinnedTo d p q == some n) ||
    (mayResume (d.part p) && (tget (d.part p).ctxs n).any (ctxPinned d p))

def lcoreCore (d : Dev) (n : Nat) : Core := ((coreOf d n).map d.core).getD {}

/-- The first free core of a partition's set for a FLOATING task (R362). -/
def firstFree (d : Dev) (p : Nat) : Option Nat :=
  let free := (coreSet (d.part p)).filter fun n => !bit (d.part p).leaving n && coreFree (lcoreCore d n) && !pinnedWaits d n
  match free.find? fun n => (lcoreCore d n).holder == some p with
  | some n => some n
  | none => free.head?

/-- The queued task may go to core n. -/
def takesCore (d : Dev) (p n : Nat) (q : QEntry) : Bool :=
  eligible d p q && (match pinnedTo d p q with
    | some k => k == n
    | none => firstFree d p == some n)

/-- The partition has a task for core n: a context, or a queued entry. -/
def taskFor (d : Dev) (p n : Nat) : Option (Option QEntry) :=
  let x := d.part p
  if !(coreSet x).contains n then none
  else if (tget x.ctxs n).isSome && mayResume x then some none
  else if x.st != .active || bit x.leaving n then none
  else (x.queue.find? (takesCore d p n)).map some

/-- Partitions by class, and within a class in rotation after the one placed last (R361). -/
def placeOrder (d : Dev) : List Nat :=
  [0, 1, 2].flatMap fun cls =>
    let last := tgetD d.sched.lastPlaced cls 15
    ((List.range 16).map fun i => (last + 1 + i) % 16).filter fun p => (d.part p).valid && (d.part p).cls == cls

/-- TASK_PLACE on logical core n. A Basking core wakes first (R90). -/
def taskPlace (n : Nat) (d : Dev) : Dev :=
  match coreOf d n with
  | none => d
  | some pc =>
    let c := d.core pc
    if !coreFree c then d
    else match (placeOrder d).findSome? fun p => (taskFor d p n).map fun q => (p, q) with
      | none => d
      | some (p, q) =>
        let d := placed d p
        let d := match q with
          | some q => loadFresh d pc p q
          | none =>
            match tget (d.part p).ctxs n with
            | some x =>
              let d := d.modPart p fun y => { y with ctxs := tdel y.ctxs n }
              d.modCore pc fun c => { c with
                task := some x.task, part := p, plane0 := x.plane0, plane1 := x.plane1, acc0 := x.acc0, acc1 := x.acc1 }
            | none => d
        if c.st = .basking then d.modCore pc fun c => { c with st := .waking } else beginTask d pc

def execTaskPlace (n : Nat) (s : State) := onDev (taskPlace n) s

/-- BASKING_ENTRY (R90). -/
def execBaskingEntry (n : Nat) (s : State) :=
  onDev (fun d =>
    match coreOf d n with
    | none => d
    | some pc =>
      whenD (bit d.sched.bask 16 && (d.core pc).st == .idle && (d.core pc).handover.isNone) d
        (d.modCore pc fun c => { c with st := .basking })) s

/-- CORE_WAKE_DONE (R90): the core reaches IDLE and its waiting task goes on. -/
def execCoreWakeDone (n : Nat) (s : State) :=
  onDev (fun d =>
    match coreOf d n with
    | none => d
    | some pc =>
      let c := d.core pc
      if c.st ≠ .waking ∨ c.recovering.isSome then d
      else settleCore (beginTask (d.modCore pc fun c => { c with st := .idle }) pc) pc) s

/-! ### Pre-emption (R369 to R371) -/

/-- The pre-emption policy for a class (R381). -/
def mayPreempt (d : Dev) (cls : Nat) : Bool := (cls == 0 && bit d.sched.cfg 0) || (cls == 1 && bit d.sched.cfg 1)

/-- The victim of R370: lowest class, then highest logical core. A task on a core that its partition's set is to lose
runs to its END (R351). -/
def victimFor (d : Dev) (p : Nat) (cands : List Nat) : Option Nat :=
  let cls := (d.part p).cls
  let ok (n : Nat) : Option (Nat × Nat) :=
    (coreOf d n).bind fun pc =>
      let c := d.core pc
      match c.task with
      | some t =>
        if c.st == .running && decide ((d.part t.part).cls > cls) && t.stopped.isNone && c.recovering.isNone &&
            !preempted d pc && !bit (d.part t.part).leaving n then
          some (64 * (d.part t.part).cls + n, pc)
        else none
      | none => none
  ((cands.filterMap ok).foldl (fun (b : Option (Nat × Nat)) x => match b with
    | some y => if x.1 > y.1 then some x else some y
    | none => some x) none).map (·.2)

/-- PREEMPT for the waiting task at index i of p's queue: its victim stops issuing. -/
def preempt (p i : Nat) (d : Dev) : Dev :=
  let x := d.part p
  match x.queue[i]? with
  | none => d
  | some q =>
    if x.st ≠ .active ∨ !mayPreempt d x.cls ∨ !eligible d p q ∨
        d.sched.preempting.any (fun y => y.1 == p && y.2.1 == q.sub && y.2.2.1 == q.index) then d
    else
      let (free, cands) := match pinnedTo d p q with
        | some n => (coreFree (lcoreCore d n), [n].filter (takesQueued x))
        | none => ((firstFree d p).isSome, (coreSet x).filter (takesQueued x))
      if free then d
      else match victimFor d p cands with
        | none => d
        | some pc =>
          settleCore (schErr { d with sched := { d.sched with
            preempting := d.sched.preempting ++ [(p, q.sub, q.index, pc)] } } 0) pc

def execPreempt (p i : Nat) (s : State) := onDev (preempt p i) s

/-- The counter a WAIT looks at (R75). -/
def counterOf (d : Dev) (t : Task) (w : Cmd) : Nat :=
  if cSem w then (semOf d t.part (cIndex w)).toNat else (tgetD t.sb (cIndex w) 0).toNat

/-- The WAIT at which a task holds is still unsatisfied (R82). -/
def waitOpen (d : Dev) (t : Task) : Bool := t.holding.any fun w => decide (counterOf d t w < waitThr w)

/-- WATCHDOG_EXPIRY of a WAIT that is still unsatisfied (R82): not while an engine operation is open, the partition is
pausing or the part is in thermal hold. -/
def watchdogExpiry (n : Nat) (d : Dev) : Dev :=
  match coreOf d n with
  | none => d
  | some pc =>
    match (d.core pc).task with
    | none => d
    | some t =>
      let x := d.part t.part
      if !waitOpen d t ∨ t.stopped.isSome ∨ (d.core pc).st ≠ .running ∨ enginesOpen d t.part ∨ x.st = .pausing ∨ d.pwr.hold then d
      else stopTask (schErr d 2) pc sProgFault

def execWatchdogExpiry (n : Nat) (s : State) := onDev (watchdogExpiry n) s

/-! ### Pausing (R373) -/

/-- The cores that hold p's view or run its task. -/
def coresOf (d : Dev) (p : Nat) : List Nat :=
  (d.cores.filter fun c => c.2.holder == some p || (c.2.task.map (·.part)) == some p).map (·.1)

def modChansOf (d : Dev) (p : Nat) (f : Chan → Chan) : Dev :=
  { d with dma := { d.dma with chans := d.dma.chans.map fun c => (c.1, if c.2.en && c.2.part == p then f c.2 else c.2) } }

/-- The core is being brought in for a failed one whose task belongs to p: a pause waits (R423). -/
def recoveringFor (p : Nat) (c : Nat × Core) : Bool := c.2.recovering.isSome && (c.2.task.map (·.part)) == some p

/-- PAUSE_BOUNDARY: the step boundary of a PAUSING partition; its tasks are held, its channels stop
fetching. -/
def pauseBoundary (p : Nat) (d : Dev) : Dev :=
  let x := d.part p
  if x.st ≠ .pausing ∨ x.holding ∨ !(x.atBoundary || noTasks d p) ∨ d.cores.any (recoveringFor p) then d
  else
    let d := d.modPart p fun x => { x with holding := true, atBoundary := false }
    let d := modChansOf d p fun c => if c.state = .running then { c with state := .paused } else c
    (coresOf d p).foldl settleCore d

def execPauseBoundary (p : Nat) (s : State) := onDev (pauseBoundary p) s

/-- PARTITION_PAUSED: contexts saved, views handed over and engine operations ended; PAUSED is reported
to those who asked and to the job's manager (R373, R480). -/
def partitionPaused (p : Nat) (d : Dev) : Dev :=
  let x := d.part p
  if x.st ≠ .pausing ∨ !x.holding ∨ !(coresOf d p).isEmpty ∨ transfersOpen d p then d
  else
    let d := d.modPart p fun x => { x with st := .paused, holding := false, pauseReq := [] }
    let d := x.pauseReq.foldl (fun d r => sendEvent d
      { code := 0x04, mailbox := p + 1, status := sOk, tag := r.1.tag.toNat, data := toLe 8 x.step.toNat
        part := some p, source := srcSched, dest := some (r.1.session, r.2) }) d
    match jobManager d p with
    | some m => sendMgmt d m (.pausedReport p)
    | none => d

def execPartitionPaused (p : Nat) (s : State) := onDev (partitionPaused p) s

/-! ### Results (R459 to R461) -/

def GenState.settled : GenState → Bool
  | .void => true
  | .published _ => true
  | .gone => true
  | _ => false

/-- The generation whose turn it is: ended OK, every lower one published or void, the one that used the
same buffer released or expired (R460). -/
def nextGen (w : Window) : Option (Nat × U32) :=
  match w.gens.find? fun g => !g.2.settled with
  | some (g, .ended sub) =>
    if g < 3 then some (g, sub)
    else match tget w.gens (g - 2) with
      | some (.published _) => none
      | _ => some (g, sub)
  | _ => none

def setBuf (w : Window) (g : Nat) (bs : List Byte) : Window :=
  if g % 2 = 0 then { w with buf0 := mwrite [] 0 bs } else { w with buf1 := mwrite [] 0 bs }

/-- RESULT_PUBLISH. A result that can no longer be read becomes void (R302, R297). -/
def resultPublish (mb win : Nat) (d : Dev) : Dev :=
  let k := winIdx mb win
  match tget d.host.windows k with
  | none => d
  | some w =>
    match nextGen w with
    | none => d
    | some (g, sub) =>
      let p := mb - 1
      let (src, len) := tgetD w.src g (0, 0)
      let (sid, tag, noevt) := tgetD w.who g (0, 0, true)
      let req : ReqId := ⟨sid, mb, tag⟩
      if !weirOk d p 0 && decide (0 < dramBytes d p src len) then d
      else if !okNew d p false src len then
        subDone (modWindow d k fun w => { w with gens := tput w.gens g .void }) p req noevt sub sBadField 0
      else match poisonAt d p false src len with
        | some i =>
          let d := lossHere d p 0 (src + i)
          subDone (modWindow d k fun w => { w with gens := tput w.gens g .void }) p req noevt sub sInternal 0
        | none =>
          let bs := readRange d p false src len
          let d := chargeRange d p src len
          let d := modWindow d k fun w => { setBuf w g bs with
            published := g, gens := tput w.gens g (.published (d.time.now + 1000000 * w.leaseMs)) }
          subDone d p req noevt sub sOk g

def execResultPublish (mb win : Nat) (s : State) := onDev (resultPublish mb win) s

/-- A published generation ends: released, or its lease over (R461). -/
def endGen (d : Dev) (k g : Nat) : Dev :=
  modWindow d k fun w => match tget w.gens g with
    | some (.published _) => { w with gens := tput w.gens g .gone }
    | _ => w

def execResultLeaseExpiry (mb win gen : Nat) (s : State) := onDev (fun d => endGen d (winIdx mb win) gen) s

end Sys2Proof.Machine
end

