-- ==== Sys2Proof/Machine/Parts.lean ====
section
/-! DEFINITION. Partitions: creation, quotas, Weirs and destruction, and the pools that PART_SET_QUOTA
manages (R298 to R300, R322 to R324, R349 to R354, R367, R382, R452). -/

namespace Sys2Proof.Machine

/-! ### The device's free units (R298, R299) -/

def devPages : Nat := 192512
def devExtents : Nat := 149011

def usedPages (d : Dev) : List Nat :=
  d.parts.flatMap (fun x => x.2.pages ++ x.2.chargePages) ++ d.cst.pools.flatMap (·.2.pages)

def usedExtents (d : Dev) : List Nat := d.parts.flatMap (·.2.flash)

/-- The `n` lowest numbers below `top` not in use, by fuel. -/
def lowestFuel (used : List Nat) (top : Nat) : Nat → Nat → Nat → List Nat
  | 0, _, _ => []
  | f + 1, k, n =>
    if n = 0 ∨ k ≥ top then []
    else if used.contains k then lowestFuel used top f (k + 1) n
    else k :: lowestFuel used top f (k + 1) (n - 1)

def lowestFree (used : List Nat) (top n : Nat) : List Nat := lowestFuel used top (n + used.length) 0 n

def freePages (d : Dev) : Nat := devPages - (usedPages d).length
def freeExtents (d : Dev) : Nat := devExtents - (usedExtents d).length

/-- DRAM pages are zeroed before they are granted, their combining entries written back before (R60, R225, R299). -/
def zeroPages (d : Dev) (pgs : List Nat) : Dev :=
  let d := { d with rm := { d.rm with comb := d.rm.comb.filter fun e => !pgs.contains (e.addr / pageSize) } }
  { d with mem := { d.mem with
      dram := d.mem.dram.filter fun c => !pgs.contains (c.1 / pageSize)
      poison := d.mem.poison.filter fun l => !pgs.contains (l * 64 / pageSize) } }

/-- The lowest-numbered free pages, zeroed. -/
def grantPages (d : Dev) (n : Nat) : List Nat × Dev :=
  let pgs := lowestFree (usedPages d) devPages n
  (pgs, zeroPages d pgs)

/-! ### Charges outside the page list (R353, R398) -/

/-- Pages of the save area for a core set and view size. -/
def saveArea (coreset : U32) (units : Nat) : Nat :=
  divUp ((bitsSet 32 coreset.toNat).length * (units * viewUnit + pageSize)) pageSize

def dlogArea (log2 : Nat) : Nat := divUp (32 * 2 ^ log2) pageSize

/-- A core set that the grade has (R17, R351). -/
def coresetOk (d : Dev) (c : U32) : Bool := c != 0 && decide (c.toNat < 2 ^ d.grade.lcores)

/-! ### PART_CREATE (R349 to R353, R452) -/

/-- A channel entry: number, log2 of the ring length, semaphore, ring address (R337). -/
structure ChanReq where
  ch : Nat
  log2 : Nat
  sem : Nat
  addr : Nat
  rsvd : Nat
  deriving DecidableEq, Repr

def pcChans (b : List Byte) : List ChanReq :=
  (List.range (le b 10 1)).map fun i =>
    let o := 64 + 16 * i
    ⟨le b o 1, le b (o + 1) 1, le b (o + 2) 2, le b (o + 8) 8, le b (o + 4) 4⟩

def chanReqOk (d : Dev) (c : ChanReq) : Bool :=
  decide (c.ch < 128) && c.ch % 8 != 7 && !(chanOf d c.ch).en && decide (4 ≤ c.log2 ∧ c.log2 ≤ 16) && decide (c.sem < 1024) &&
  c.rsvd == 0 && c.addr % 64 == 0 && decide (c.addr + 64 * 2 ^ c.log2 ≤ dramTop)

def pcLenOk (b : List Byte) : Bool := decide (b.length ≥ 64) && b.length == 64 + 16 * le b 10 1

/-- The fixed fields of the body (R12, R17, R349 to R351). -/
def pcFieldsOk (d : Dev) (b : List Byte) : Bool :=
  decide (le b 0 1 < 3) && decide (le b 1 1 < 2) && decide (10 ≤ le b 2 1 ∧ le b 2 1 ≤ 20) &&
  coresetOk d (BitVec.ofNat 32 (le b 4 4)) && decide (le b 8 2 ≤ 256) && le b 11 1 == 0 && le b 40 24 == 0

/-- The first channel entry that is not valid, or names a channel that an earlier one names (R337, R448). -/
def pcBadChan (d : Dev) (cs : List ChanReq) : Option Nat :=
  (cs.mapIdx fun i c => (i, c)).findSome? fun x =>
    if chanReqOk d x.2 && !((cs.take x.1).any fun c => c.ch == x.2.ch) then none else some x.1

/-- A BURST field of zero is stored as 1 (R367). -/
def burstOf (v : Nat) : U64 :=
  pack 64 ((List.range 4).map fun i => (16 * i, max 1 (nfld v (16 * i + 15) (16 * i))))

def setWeir (d : Dev) (p rate burst : Nat) : Dev :=
  let v := burstOf burst
  let d := d.modPart p fun x => { x with weirRate := BitVec.ofNat 64 rate, weirBurst := v, weirLevel := [] }
  if v.toNat = burst % 2 ^ 64 then d else logIgnored d srcSched (.weirBurst p) burst

def classWeight (cls : Nat) : Nat := if cls = 0 then 8 else if cls = 1 then 4 else 1

/-- Rack-memory sequence numbers towards and from the partition restart at zero, and no earlier request
or page's writer of it is remembered (R220, R224, R228, R403, R404). -/
def restartSeqs (d : Dev) (p : Nat) : Dev :=
  { d with rm := { d.rm with
    writers := d.rm.writers.filter fun w => w.part != p
    seqOut := d.rm.seqOut.filter fun x => x.1 % 16 != p, seqIn := d.rm.seqIn.filter fun x => x.1 % 16 != p
    dup := d.rm.dup.filter fun e => e.part != p } }

/-- PART_CREATE: the failing status and DETAIL, or the response and the device with the partition. -/
def partCreate (d : Dev) (p : Nat) (b : List Byte) : (Nat × Nat) ⊕ (List Byte × Dev) :=
  if !pcLenOk b then .inl (sBadLength, 0xFFFF)
  else if (d.part p).st ≠ .none ∨ p ≥ 16 ∨ !pcFieldsOk d b then .inl (sBadField, 0xFFFF)
  else match pcBadChan d (pcChans b) with
  | some i => .inl (sBadField, i)
  | none =>
    let coreset : U32 := BitVec.ofNat 32 (le b 4 4)
    let units := le b 8 2
    let total := le b 12 4
    let ext := le b 16 4
    let side := le b 20 4
    let save := saveArea coreset units
    let dlog := dlogArea (le b 2 1)
    if save + dlog + side > total then .inl (sQuota, 0xFFFF)
    else if total > freePages d ∨ ext > freeExtents d then .inl (sNoResource, 0xFFFF)
    else
      let n := total - save - dlog - side
      let (all, d) := grantPages d total
      let exts := lowestFree (usedExtents d) devExtents ext
      let d := exts.foldl trimExtent d
      let cls := le b 0 1
      let weight := if le b 3 1 = 0 then classWeight cls else le b 3 1
      let d := d.modPart p fun x => { x with
        cls := cls, det := bit (BitVec.ofNat 8 (le b 1 1)) 0, st := .active, coreset := coreset, sramUnits := units
        step := 0, seeds := [], pages := all.take n, chargePages := all.drop n, savePages := save, dlogPages := dlog, sideQuota := side
        flash := exts, weight := weight, dlogLog2 := le b 2 1 }
      let d := restartSeqs (setWeir d p (le b 24 8) (le b 32 8)) p
      let d := (pcChans b).foldl (fun d c => modChan d c.ch fun _ => {
        cfg := pack 64 [(0, 1), (1, p), (6, c.sem), (16, c.log2)], ring := BitVec.ofNat 64 c.addr, state := .running }) d
      .inr (toLe 8 (packNat [(0, n), (32, save + dlog)]), d)

/-! ### Pool entries of PART_SET_QUOTA (R322, R324) -/

/-- The checks of R322, with the failing status. -/
def poolFails (d : Dev) (cfg base : U64) : Option Nat :=
  let x : Pool := { cfg := cfg, base := base }
  let size := x.nbuf * x.bsize
  let (lo, hi) := if x.inDram then (poolBase, poolTop) else (cstBase, cstTop)
  if !x.en ∨ fld cfg 5 2 > 13 ∨ x.mode = 3 ∨ fld cfg 15 9 ≠ 0 ∨ fld cfg 63 40 ≠ 0 ∨ x.nbuf = 0 ∨ fld base 63 48 ≠ 0 ∨
      x.addr % x.bsize ≠ 0 ∨ (x.inDram ∧ x.addr % pageSize ≠ 0) ∨ x.addr < lo ∨ hi < x.addr + size ∨
      d.cst.pools.any (fun g => g.2.en && decide (g.2.addr < x.addr + size ∧ x.addr < g.2.addr + g.2.nbuf * g.2.bsize)) then
    some sBadField
  else if x.inDram ∧ divUp size pageSize > freePages d then some sNoResource
  else none

/-- A share is valid in its pool (R324). -/
def shareOk (d : Dev) (g p : Nat) (v : U64) : Bool :=
  let x := poolOf d g
  let others := (((List.range 16).filter (· != p)).map (shareReserve d g)).foldl (· + ·) 0
  fld v 63 48 == 0 && decide (others + fld v 47 24 ≤ x.nbuf) && (x.mode != 2 || decide (fld v 47 24 ≤ fld v 23 0))

def setShare (d : Dev) (g p : Nat) (v : U64) : Dev :=
  { d with cst := { d.cst with shares := tput d.cst.shares (16 * g + p) v } }

/-- A pool is created: its buffers start with no bytes of another partition (R60). -/
def createPool (d : Dev) (g : Nat) (cfg base : U64) : Dev :=
  let x : Pool := { cfg := cfg, base := base, thr := (poolOf d g).thr, peak := (poolOf d g).peak }
  let size := x.nbuf * x.bsize
  if x.inDram then
    let (pgs, d) := grantPages d (divUp size pageSize)
    setPool d g fun _ => { x with pages := pgs }
  else
    let d := { d with cst := { d.cst with
      sram := mclear d.cst.sram (x.addr - cstBase) (x.addr - cstBase + size), bad := wordsLeft d.cst.bad (x.addr - cstBase) size } }
    setPool d g fun _ => x

/-- One pool entry: the failing status, or the device with it applied. -/
def poolEntry (d : Dev) (p : Nat) (b : List Byte) : Nat ⊕ Dev :=
  let g := le b 0 1
  let op := le b 1 1
  let cfg : U64 := BitVec.ofNat 64 (le b 8 8)
  let base : U64 := BitVec.ofNat 64 (le b 16 8)
  let share : U64 := BitVec.ofNat 64 (le b 24 8)
  if g ≥ 64 ∨ op > 2 ∨ le b 2 6 ≠ 0 then .inl sBadField
  else match op with
    | 0 => if shareOk d g p share then .inr (setShare d g p share) else .inl sBadField
    | 1 =>
      if (poolOf d g).en then .inl sBadField
      else match poolFails d cfg base with
        | some s => .inl s
        | none =>
          let d := createPool d g cfg base
          if shareOk d g p share then .inr (notePool (setShare d g p share) g) else .inl sBadField
    | _ =>
      if !(poolOf d g).held.isEmpty then .inl sBusy
      else .inr (setPool d g fun x => { thr := x.thr, peak := x.peak })

/-- All pool entries in order; the index of the first that fails. -/
def poolEntries (p : Nat) : Nat → List (List Byte) → Dev → (Nat × Nat) ⊕ Dev
  | _, [], d => .inr d
  | i, b :: bs, d =>
    match poolEntry d p b with
    | .inl s => .inl (s, i)
    | .inr d => poolEntries p (i + 1) bs d

/-! ### PART_SET_QUOTA (R299, R300, R351, R353) -/

structure QuotaReq where
  coreset : U32
  units : Nat
  pages : Nat
  ext : Nat
  side : Nat
  deriving DecidableEq, Repr

def quotaReq (b : List Byte) : QuotaReq := ⟨BitVec.ofNat 32 (le b 0 4), le b 4 2, le b 8 4, le b 12 4, le b 16 4⟩

def quotaLenOk (b : List Byte) : Bool := decide (b.length ≥ 32) && b.length == 32 + 32 * le b 6 2

/-- Cores of the set that the request removes. -/
def removedCores (x : Part) (q : QuotaReq) : U32 := x.coreset &&& ~~~q.coreset

/-- A task keeps a removed core (R351). -/
def coreKept (d : Dev) (p : Nat) (q : QuotaReq) : Bool :=
  let x := d.part p
  (bitsSet 32 (removedCores x q).toNat).any fun n =>
    (x.queue.any fun e => pinnedTo d p e == some n) || (tget x.ctxs n).isSome ||
    (d.cores.any fun c => c.2.lcore == some n && match c.2.task with
      | some t => t.part == p && ((programOf d p t.prog).bind fun g => g.tasks[t.task]?).any (·.pinned)
      | none => false)

/-- The failing status of the quotas themselves; what makes the command BUSY is judged once, before it waits. -/
def quotaFails (d : Dev) (p : Nat) (q : QuotaReq) (rsvd : Nat) (started : Bool) : Option Nat :=
  let x := d.part p
  let charge := saveArea q.coreset q.units + x.dlogPages + q.side
  if !x.valid ∨ x.st = .destroying ∨ !coresetOk d q.coreset ∨ q.units > 256 ∨ rsvd ≠ 0 then some sBadField
  else if !started ∧ (x.saving.isSome ∨ coreKept d p q ∨ (q.units < x.sramUnits ∧ !noTasks d p) ∨ q.side < x.sideUsed) then some sBusy
  else if charge > q.pages then some sQuota
  else if q.pages > x.pages.length + x.chargePages.length + freePages d ∨ q.ext > x.flash.length + freeExtents d then some sNoResource
  else none

/-- Pages that the request leaves to the page list. -/
def quotaPages (d : Dev) (p : Nat) (q : QuotaReq) : Nat :=
  q.pages - (saveArea q.coreset q.units + (d.part p).dlogPages + q.side)

/-- The request takes units away from the end of a list or of the views (R300). -/
def lowers (d : Dev) (p : Nat) (q : QuotaReq) : Bool :=
  let x := d.part p
  decide (quotaPages d p q < x.pages.length ∨ q.ext < x.flash.length ∨ q.units < x.sramUnits)

/-- A task still runs, or waits to resume, on a core that the request removes (R351). -/
def coreRuns (d : Dev) (p : Nat) (q : QuotaReq) : Bool :=
  let gone (n : Nat) : Bool := bit (removedCores (d.part p) q) n
  (d.part p).ctxs.any (fun c => gone c.1) ||
  d.cores.any fun c => (c.2.task.map (·.part)) == some p && c.2.lcore.any gone

/-- The lowering as operations accepted from now on meet it, and those that it waits for. -/
def loweringOf (d : Dev) (p : Nat) (q : QuotaReq) : Option Lowering :=
  if lowers d p q then
    some (((d.part p).lowering).getD ⟨q.units, quotaPages d p q, q.ext, max q.side (d.part p).sideUsed, openOps d p⟩)
  else none

/-- Operations accepted before the lowering are still under way, or a removed core still runs its task (R300, R351). -/
def quotaWaits (d : Dev) (p : Nat) (q : QuotaReq) : Bool :=
  coreRuns d p q || (match loweringOf d p q with
    | some l => l.ops.any (openOps d p).contains
    | none => false)

/-- A view loses what lies at or beyond `top`. -/
def cutView (d : Dev) (p top n : Nat) : Dev :=
  (modView d p n fun m => m.filter fun c => c.1 < top).modPart p fun x => { x with
    viewBad := x.viewBad.map fun e => if e.1 = n then (e.1, e.2.filter fun w => 8 * w < top) else e }

/-- A core leaves the set: the partition's view on it is discarded (R351). -/
def dropView (d : Dev) (p n : Nat) : Dev :=
  let d := match residentAt d p n with
    | some pc => d.modCore pc fun c => { c with holder := none, sram := [] }
    | none => d
  d.modPart p fun x => { x with images := tdel x.images n, viewBad := tdel x.viewBad n }

/-- The quotas take effect. -/
def applyQuota (d : Dev) (p : Nat) (q : QuotaReq) : Dev :=
  let x := d.part p
  let d := (bitsSet 32 (removedCores x q).toNat).foldl (fun d n => dropView d p n) d
  let d := if q.units < x.sramUnits then (bitsSet 32 q.coreset.toNat).foldl (fun d n => cutView d p (q.units * viewUnit) n) d else d
  let save := saveArea q.coreset q.units
  let charge := save + x.dlogPages + q.side
  let n := q.pages - charge
  let d := d.modPart p fun x => { x with pages := x.pages.take n, chargePages := x.chargePages.take charge, flash := x.flash.take q.ext }
  let (more, d) := grantPages d (n - x.pages.length)
  let d := d.modPart p fun x => { x with pages := x.pages ++ more }
  let (extra, d) := grantPages d (charge - x.chargePages.length)
  let exts := lowestFree (usedExtents d) devExtents (q.ext - x.flash.length)
  let d := exts.foldl trimExtent d
  d.modPart p fun x => { x with
    coreset := q.coreset, leaving := 0, lowering := none, sramUnits := q.units, savePages := save, sideQuota := q.side
    chargePages := x.chargePages ++ extra, flash := x.flash ++ exts }

/-- What becomes of a PART_SET_QUOTA: a status with its DETAIL, a wait, or the device after it. -/
inductive QuotaResult where
  | fails (status detail : Nat)
  | waits (d : Dev)
  | done (d : Dev)

/-- PART_SET_QUOTA: quotas and pool entries, all or nothing. -/
def setQuota (d : Dev) (p : Nat) (b : List Byte) (started : Bool) : QuotaResult :=
  let q := quotaReq b
  match quotaFails d p q (le b 20 12) started with
  | some s => .fails s 0xFFFF
  | none =>
    match poolEntries p 0 (chunks 32 (b.drop 32)) (applyQuota d p q) with
    | .inl (s, i) => .fails s i
    | .inr d' => if quotaWaits d p q then
        .waits (d.modPart p fun x => { x with leaving := removedCores x q, lowering := loweringOf d p q })
      else .done d'

/-! ### Quiet partitions (R395) -/

/-- No task queued, running or held. -/
def taskless (d : Dev) (p : Nat) : Bool :=
  let x := d.part p
  x.queue.isEmpty && x.heldSubs.isEmpty && noTasks d p

/-- STEP_SET and SEED_SET are accepted. -/
def quiet (d : Dev) (p : Nat) : Bool := (d.part p).st == .paused || (taskless d p && !enginesOpen d p)

/-! ### PART_DESTROY (R354) -/

/-- What a destroyed partition number keeps: registers that only their own reads and writes change. -/
def Part.cleared (x : Part) : Part :=
  { watchdog := x.watchdog, slcLand := x.slcLand, arith := x.arith, gateFlags := x.gateFlags, gateFault := x.gateFault
    slcFlags := x.slcFlags, rillFlags := x.rillFlags, grdFlags := x.grdFlags, grdErr := x.grdErr, weirWait := x.weirWait
    detReject := x.detReject, step := x.step, seeds := x.seeds }

/-- Every open submission is aborted, every held one taken in and aborted; `failed` is the status of each where a fault
is the cause. -/
def abortAll (d : Dev) (p : Nat) (failed : Option Byte) : Dev :=
  let held := (d.part p).heldSubs
  let d := d.modPart p fun x => { x with
    heldSubs := [], subs := (x.subs ++ held.map (·.1)).map fun s => { s with failed := if failed.isSome then failed else s.failed } }
  let d := held.foldl (fun d h => match d.host.reqs.find? fun r => r.id == h.1.req with
    | some r => respond d r sAccepted 0xFFFF (toLe 4 h.1.gen)
    | none => d) d
  ((d.part p).subs.map (·.id)).foldl (fun d id => abortSubmission d p id) d

def beginDestroy (d : Dev) (p : Nat) : Dev := abortAll (d.modPart p fun x => { x with st := .destroying }) p none

/-- No core runs a task of the partition or is being handed over by or to it. -/
def destroyReady (d : Dev) (p : Nat) : Bool :=
  d.cores.all fun c => (c.2.task.map (·.part)) != some p && (match c.2.handover with
    | some h => h.outPart != some p && h.inPart != some p
    | none => true)

/-- The engines let go of the partition, and its units return to the device. A member that manages the partition's
job keeps no record of the job it has left; a manager that is no member of it keeps the job (R354, R472; log 80). -/
def finishDestroy (d : Dev) (p : Nat) : Dev :=
  let d := gateDiscard d (fun g => g.part == p) sevNotice false
  let d := gateForget d p
  let d := slcForget d p
  let d := rillForget d p
  let d := (d.rm.reqs.filter fun r => r.part == p).foldl (fun d r => holdTag d r.tag (rqDev r.desc)) d
  let d := (d.rm.wins.filter fun w => w.part == p).foldl (fun d w => holdTag d w.tag (winDev w)) d
  let d := { d with rm := { d.rm with
    reqs := d.rm.reqs.filter fun r => r.part != p, wins := d.rm.wins.filter fun w => w.part != p
    rx := d.rm.rx.filter fun r => r.part != p, heldFlags := d.rm.heldFlags.filter fun h => h.part != p
    merges := d.rm.merges.filter fun m => m.part != p, writers := d.rm.writers.filter fun w => w.part != p
    gwRx := d.rm.gwRx.filter fun r => r.part != p, mcast := d.rm.mcast.filter fun g => fld g.2 67 64 != p } }
  let d := returnBuffers d p
  let d := dropChannels d p
  let mine (n : Nat) : Bool := (d.core n).holder == some p
  let d := (tkeys d.cores).foldl (fun d n => if mine n then d.modCore n fun c => { c with holder := none, sram := [] } else d) d
  let d := { d with host := { d.host with
    windows := d.host.windows.filter fun w => w.1 / 64 != p + 1, reads := d.host.reads.filter fun r => r.window / 64 != p + 1 } }
  let me := myId d
  let d := { d with mgr := { d.mgr with
    launches := d.mgr.launches.filter fun l => l.part != p
    jobs := d.mgr.jobs.filter fun j => !(j.part == p && j.members.contains me) } }
  d.modPart p Part.cleared

end Sys2Proof.Machine
end

