-- ==== Sys2Proof/Machine/Job.lean ====
section
/-! DEFINITION. Jobs: the launch specification, its members, the Spawn tree, who may command a worker, and the
places of R478 where barrier arrivals are gathered (R471 to R475, R478, R484). -/

namespace Sys2Proof.Machine

/-! ### SCH_MGR (R483) -/

def role (d : Dev) : Nat := fld d.mgr.scm 1 0
def blockFirst (d : Dev) : Nat := fld d.mgr.scm 7 4
def blockPods (d : Dev) : Nat := fld d.mgr.scm 12 8
def peerDev (d : Dev) : DevId := BitVec.ofNat 16 (fld d.mgr.scm 31 16)

/-- A device of the named pods. -/
def inPods (first n : Nat) (x : DevId) : Bool := fld x 15 14 == 0 && decide (first ≤ devPod x ∧ devPod x < first + n)

def inBlock (d : Dev) (x : DevId) : Bool := inPods (blockFirst d) (blockPods d) x

/-- This device is the manager of its block, and its role is in effect (R471). -/
def isManager (d : Dev) : Bool := role d == 1 && d.mgr.active

/-! ### The launch specification (R473) -/

def spVer (b : List Byte) : Nat := le b 0 1
def spPart (b : List Byte) : Nat := le b 1 1
def spFirst (b : List Byte) : Nat := le b 2 1
def spPods (b : List Byte) : Nat := le b 3 1
def spNexcl (b : List Byte) : Nat := le b 4 2
def spCreate (b : List Byte) : Bool := (le b 6 1).testBit 0
def spSnap (b : List Byte) : Bool := (le b 6 1).testBit 1
def spStep (b : List Byte) : U64 := BitVec.ofNat 64 (le b 8 8)
def spSeed (b : List Byte) (i : Nat) : U64 := BitVec.ofNat 64 (le b (16 + 8 * i) 8)
def spTable (b : List Byte) : Nat := le b 48 8
def spNreg (b : List Byte) : Nat := le b 56 2
def spEvery (b : List Byte) : Nat := le b 58 2
def spPcLen (b : List Byte) : Nat := le b 60 2
def spBody (b : List Byte) : List Byte := (b.drop 64).take (spPcLen b)

/-- The exclusion entries: device, KIND, reserved byte. -/
def spExcl (b : List Byte) : List (DevId × Nat × Nat) :=
  (List.range (spNexcl b)).map fun i =>
    let o := 64 + spPcLen b + 4 * i
    (BitVec.ofNat 16 (le b o 2), le b (o + 2) 1, le b (o + 3) 1)

def spLen (b : List Byte) : Nat := 64 + spPcLen b + 4 * spNexcl b

/-- Every device ID of the pods, ascending. -/
def podDevices (first n : Nat) : List DevId := (List.range (1024 * n)).map fun i => BitVec.ofNat 16 (1024 * first + i)

/-- The members in rank order as launched (R473). -/
def spMembers (b : List Byte) : List DevId :=
  let out := (spExcl b).map (·.1)
  (podDevices (spFirst b) (spPods b)).filter fun x => !out.contains x

def spSpares (b : List Byte) : List DevId := ((spExcl b).filter fun e => e.2.1 == 0).map (·.1)

/-- The members with each drawn spare at the rank it took (R476, R481). -/
def membersOf (spec : List Byte) (subst : List (Nat × DevId)) : List DevId :=
  subst.foldl (fun ms x => ms.set x.1 x.2) (spMembers spec)

/-- The list L of R474. -/
def spawnList (ms : List DevId) (manager : DevId) : List DevId := manager :: ms.filter (· != manager)

def spawnChildren (n j : Nat) : List Nat := ((List.range 16).map fun i => 16 * j + 1 + i).filter (· < n)

/-! ### Sending over the tree -/

/-- A manager's message that a member passes on keeps the manager as its source. -/
def relayMgmt (d : Dev) (src dest : DevId) (m : Mgmt) : Dev := route d { mgmtCell d dest m with src := src }

/-- The number that stands at the rank of a lost member of a serving job while no spare takes it (log 62). -/
def noDev : DevId := 0xFFFF

/-- A message for the children of position j of a list L. -/
def toChildren (d : Dev) (src : DevId) (l : List DevId) (j : Nat) (m : Nat → DevId → Mgmt) : Dev :=
  (spawnChildren l.length j).foldl (fun d k =>
    let x := l.getD k 0
    if x = noDev then d else relayMgmt d src x (m k x)) d

def jobList (d : Dev) (j : Job) : List DevId := spawnList j.members (myId d)

/-- Positions under which a message over the tree starts: the root, and those of lost devices. -/
def treeRoots (d : Dev) (j : Job) : List Nat :=
  0 :: (List.range (jobList d j).length).filter fun k =>
    let x := (jobList d j).getD k 0
    x == noDev || d.rec_.lost.contains x

/-- A message over the tree to every member, and to the deputy. -/
def toMembers (d : Dev) (j : Job) (m : Mgmt) : Dev :=
  let ls := jobList d j
  let d := (treeRoots d j).foldl (fun d k => toChildren d (myId d) ls k fun _ _ => m) d
  if role d = 1 ∧ j.deputy ≠ myId d ∧ !j.members.contains j.deputy then sendMgmt d j.deputy m else d

/-! ### What a worker knows of a job (R472, R484) -/

def launchOf (d : Dev) (p : Nat) : Option Launch := d.mgr.launches.find? fun l => l.part == p && l.created
def launchById (d : Dev) (id : U64) : Option Launch := d.mgr.launches.find? fun l => l.id == id
def launchMembers (l : Launch) : List DevId := membersOf l.spec l.subst

def jobValid (x : Part) : Bool := bit x.job 0
def jobMan (x : Part) : DevId := BitVec.ofNat 16 (fld x.job 79 64)
def jobDep (x : Part) : DevId := BitVec.ofNat 16 (fld x.job 95 80)

/-- PART_JOB (R484). -/
def partJob (rank n : Nat) (man dep : DevId) (id : U64) : BitVec 128 :=
  pack 128 [(0, 1), (16, rank % 16384), (32, n % 32768), (64, man.toNat), (80, dep.toNat), (96, id.toNat % 2 ^ 32)]

/-- Managers and deputies that the device's jobs record, and the peer of its own role. -/
def bosses (d : Dev) : List DevId :=
  ((List.range 16).filter fun p => jobValid (d.part p)).flatMap (fun p => [jobMan (d.part p), jobDep (d.part p)]) ++
    (if role d = 0 then [] else [peerDev d]) ++ (if role d = 1 then [myId d] else [])

/-- A MGMT cell that the device acts on (R472). A device that knows no manager takes what comes. -/
def trusted (d : Dev) (src : DevId) : Bool := (bosses d).isEmpty || (bosses d).contains src

/-- A manager or deputy learns the epoch of a rack from the cells of its devices, which carry it (R199, R482). -/
def learnEpoch (d : Dev) (c : Cell) : Dev :=
  let rack := devRack c.src
  let old := tgetD d.mgr.epochs rack c.epoch
  if role d = 0 ∨ (c.epoch - old).toNat ≥ 8 then d
  else { d with mgr := { d.mgr with epochs := tput d.mgr.epochs rack c.epoch } }

/-- A cell carrying a MGMT message, for the command of that message. `boss` says whether only a
manager or deputy may send it; another's is discarded and counted (R472). -/
def onMgmt (d : Dev) (n : Nat) (c : Cell) (boss : Bool) (f : Mgmt → Option (Dev → Dev)) : Dev :=
  onCell d n c [tyMgmt] fun d1 =>
    match c.pay with
    | .mgmt m =>
      match f m with
      | none => d
      | some g => if boss && !trusted d1 c.src then fabErr d1 3 else g (learnEpoch d1 c)
    | _ => d

/-! ### Gathering places (R478) -/

def sameRack (a b : DevId) : Bool := devRack a == devRack b

/-- The column collector of a member: the lowest-Y member of its column in its rack. -/
def collectorOf (ms : List DevId) (x : DevId) : DevId :=
  ((ms.filter fun m => sameRack m x && devX m == devX x).foldl (fun (b : Option DevId) m => match b with
    | some y => if devY m < devY y then some m else some y
    | none => some m) none).getD x

def collectorsIn (ms : List DevId) (x : DevId) : List DevId := ((ms.filter (sameRack x)).map (collectorOf ms)).eraseDups

/-- The rack relay: the lowest-X collector. -/
def relayOf (ms : List DevId) (x : DevId) : DevId :=
  ((collectorsIn ms x).foldl (fun (b : Option DevId) m => match b with
    | some y => if devX m < devX y then some m else some y
    | none => some m) none).getD x

def columnOf (ms : List DevId) (x : DevId) : List DevId := ms.filter fun m => sameRack m x && devX m == devX x

def relaysOf (ms : List DevId) : List DevId := (ms.map (relayOf ms)).eraseDups

end Sys2Proof.Machine
end

