-- ==== Sys2Proof/Machine/Flags.lean ====
section
/-! DEFINITION. Flag computations: the sticky flags and their clearing by ones (R11, R47, R88), tile digests
(R83). -/

namespace Sys2Proof.Machine

/-- A W1C write: the bits written as one are cleared (R11). -/
def clearOnes (old v : BitVec w) : BitVec w := old &&& ~~~v

/-- The core arithmetic flags of R88 that a computation set, and the data it gave. -/
def runFlags {α : Type} (d : Dev) (p : Nat) (m : FlM α) : α × Dev :=
  let r := m 0
  (r.1, setArith d p (r.2 % 64))

/-- The conversion flags of R54: SATD of R47 when a block saturated. -/
def bsiArith (fl : Nat) : Nat := if fl.testBit 2 then SATD else 0

/-- The tile digest of R83. -/
def tileDigest (c : DigestCtx) (rowBase : Nat) (bs : List Byte) : U64 :=
  let block := toLe 16 (packNat [(0, c.layer), (16, c.tensor), (32, (c.row.toNat + rowBase) % 2 ^ 32), (64, c.col.toNat),
    (96, bs.length % 2 ^ 32)])
  BitVec.ofNat 64 (crc64 (block ++ bs))

/-- A tile digest is added to its accumulator modulo 2^64 (R83). -/
def addDigest (d : Dev) (p accum : Nat) (v : U64) : Dev :=
  d.modPart p fun x => { x with accum := tmod x.accum accum 0 (· + v) }

end Sys2Proof.Machine
end

