-- ==== Sys2Proof/Machine/Tiers.lean ====
section
/-! DEFINITION. DRAM maintenance: patrol scrub, poison, row and bank sparing (R302 to R304, R316, R320,
R418). Rows and banks are numbered by `Config.dramRow` and `Config.dramBank` (log 36). -/

namespace Sys2Proof.Machine

def memErr (d : Dev) (i : Nat) : Dev := { d with mem := { d.mem with err := bump d.mem.err i 1 } }

/-- The channel of a physical address (R225). -/
def dramChan (a : Nat) : Nat := (List.range 6).foldl (fun c i => c ^^^ nfld (a >>> (6 + 6 * i)) 5 0) 0

/-- The partition and device address that a physical address belongs to: a page list entry, a held
buffer of a DRAM pool, or a charge outside the page list. -/
def physOwner (d : Dev) (a : Nat) : Option (Nat × Nat) :=
  let pg := a / pageSize
  let o := a % pageSize
  match d.parts.findSome? fun x => (x.2.pages.findIdx? (· == pg)).map fun i => (x.1, i * pageSize + o) with
  | some r => some r
  | none =>
    match d.cst.pools.findSome? fun g => (g.2.pages.findIdx? (· == pg)).bind fun i =>
        let dev := g.2.addr + i * pageSize + o
        (tget g.2.held ((dev - g.2.addr) / g.2.bsize)).map fun h => (h.part, dev) with
    | some r => some r
    | none => (d.parts.find? fun x => x.2.chargePages.contains pg).map fun x => (x.1, 0)

/-- The bank is copied to its channel's spare bank; a channel with none left reports a fault (R304). -/
def spareBank (d : Dev) (chan bank : Nat) : Dev :=
  if d.mem.bankSparing.any fun x => x.1 == chan && x.2.1 == bank then d
  else if d.mem.sparedChans.contains chan then recoveryEvent d sInternal 0x03 none 2 chan 0 0
  else { d with mem := { d.mem with
    sparedChans := d.mem.sparedChans ++ [chan], bankSparing := d.mem.bankSparing ++ [(chan, bank, d.time.now)] } }

/-- A row is copied to one of its bank's 32 spare rows (R304). -/
def spareRow (d : Dev) (chan row : Nat) : Dev :=
  let key := 64 * Config.dramBank row + chan
  let used := tgetD d.mem.bankRows key 0
  let d := { d with mem := { d.mem with rowCe := tdel d.mem.rowCe row } }
  if used ≥ 32 then spareBank d chan (Config.dramBank row)
  else { d with mem := { d.mem with
    bankRows := tput d.mem.bankRows key (used + 1), rowSparing := d.mem.rowSparing ++ [(row, chan, d.time.now)] } }

/-- A corrected error (R302, R304). -/
def correctedLine (d : Dev) (a : Nat) : Dev :=
  let row := Config.dramRow (a / 64)
  let d := memErr d 0
  let d := logCounted d sevWarning srcMem (.memErr 0) (a / 64) (tgetD d.mem.err 0 0).toNat
  let n := tgetD d.mem.rowCe row 0 + 1
  let d := { d with mem := { d.mem with rowCe := tput d.mem.rowCe row n } }
  if n ≥ fld d.mem.cfgUsed 15 8 ∧ !(d.mem.rowSparing.any fun x => x.1 == row) then spareRow d (dramChan a) row else d

/-- An uncorrectable error: the line is poisoned and its owner's loss is reported (R302, R418). -/
def poisonLine (d : Dev) (a : Nat) : Dev :=
  let line := a / 64
  if d.mem.poison.contains line then d
  else
    let row := Config.dramRow line
    let key := 64 * Config.dramBank row + dramChan a
    let rows := (row :: tgetD d.mem.badRows key []).eraseDups
    let d := { d with mem := { d.mem with
      poison := d.mem.poison ++ [line], badRows := tput d.mem.badRows key rows } }
    let d := match physOwner d (64 * line) with
      | some (p, dev) => dataLoss d (some p) 0 dev 64
      | none => logOp d sevError none srcMem sInternal 0 (dramChan a) 0 (64 * line)
    if rows.length ≥ 2 then spareBank d (dramChan a) (Config.dramBank row) else d

/-- A new scrub period begins SCRUB_H hours after the last one, with MEM_CFG as it then stands
(R303, R316). -/
def scrubPeriod (d : Dev) : Dev :=
  if d.time.now ≥ d.mem.since + fld d.mem.cfgUsed 7 0 * 3600000000000 then
    { d with mem := { d.mem with since := d.time.now, rowCe := [], cfgUsed := d.mem.cfg } }
  else d

/-! ### SRAM errors (R60, R89, R94, R305, R413, R418)

The table has no row for an error in SRAM. It comes with DRAM_PATROL_SCRUB, whose address then lies beyond DRAM: in
the window of the physical core's number, in Cistern SRAM, or, for the workspace of Gate step k, at gateSram + k
(DESIGN CHOICE, log 71). -/

def gateSram : Nat := 0x900000000000

/-- A corrected or uncorrectable error in a word of a physical core's SRAM. -/
def coreSramError (d : Dev) (pc o : Nat) (r : MediaResult) : Dev :=
  let c := d.core pc
  let w := o / 8
  match r with
  | .clean => d
  | .corrected _ =>
    let d := d.modCore pc fun c => { c with ce := satAdd c.ce 1 }
    logCounted d sevWarning srcCore (.coreEcc pc) w (satAdd c.ce 1).toNat
  | .uncorrectable =>
    let d := d.modCore pc fun c => { c with ue := satAdd c.ue 1 }
    let zeroed (d : Dev) : Dev := logOp (d.modCore pc fun c => { c with sram := mclear c.sram (8 * w) (8 * w + 8) })
      sevWarning none srcCore sOk 0 pc 0 (8 * w)
    match c.lcore, c.holder with
    | some n, some p =>
      if 8 * w < (d.part p).viewSize then
        lossHere (d.modPart p fun x => { x with viewBad := tput x.viewBad n (w :: (tgetD x.viewBad n []).filter (· != w)) })
          p pc (winBase + 0x1000000 * n + o)
      else zeroed d
    | _, _ => zeroed d

/-- The same in a word of Cistern SRAM: lost with its buffer while a partition holds it. -/
def cisternError (d : Dev) (o : Nat) (r : MediaResult) : Dev :=
  let w := o / 8
  let holder := (bufferAt d (cstBase + o)).bind fun b => (tget (tgetD d.cst.pools b.1 {}).held b.2).map (·.part)
  match r with
  | .clean => d
  | .corrected _ => logOp d sevWarning none srcCistern sOk 0 0xFFFF 0 (cstBase + o)
  | .uncorrectable =>
    match holder with
    | some p => lossHere { d with cst := { d.cst with bad := w :: d.cst.bad.filter (· != w) } } p 0 (cstBase + o)
    | none => logOp { d with cst := { d.cst with sram := mclear d.cst.sram (8 * w) (8 * w + 8) } } sevWarning none srcCistern sOk 0 0xFFFF 0
        (cstBase + o)

/-- DRAM_PATROL_SCRUB: the line at a physical address, or a word of SRAM that an access found in error. -/
def dramScrub (a : Nat) (r : MediaResult) (d : Dev) : Dev :=
  if winBase ≤ a ∧ a < winBase + 36 * 0x1000000 then
    coreSramError d ((a - winBase) / 0x1000000) ((a - winBase) % 0x1000000) r
  else if cstBase ≤ a ∧ a < cstTop then cisternError d (a - cstBase) r
  else if gateSram ≤ a then (if r = .uncorrectable then workspaceError d (a - gateSram) else d)
  else
    let d := scrubPeriod d
    match r with
    | .clean => d
    | .corrected _ => correctedLine d a
    | .uncorrectable => poisonLine d a

def execDramPatrolScrub (line : Nat) (r : MediaResult) (s : State) := onLive (dramScrub line r) s

/-- ROW_SPARE_DONE (R304). -/
def rowSpareDone (row : Nat) (d : Dev) : Dev :=
  match d.mem.rowSparing.find? fun x => x.1 == row with
  | none => d
  | some (_, chan, t) =>
    let d := memErr { d with mem := { d.mem with rowSparing := dropFirst (fun x => x.1 == row) d.mem.rowSparing } } 1
    recoveryEvent d sRecovered 0x02 none 2 chan (usSince d t) 0

def execRowSpareDone (row : Nat) (s : State) := onDev (rowSpareDone row) s

/-- BANK_SPARE_DONE (R304): the bank's rows start afresh on the spare bank. -/
def bankSpareDone (chan : Nat) (d : Dev) : Dev :=
  match d.mem.bankSparing.find? fun x => x.1 == chan with
  | none => d
  | some (_, bank, t) =>
    let d := memErr { d with mem := { d.mem with
      bankSparing := dropFirst (fun x => x.1 == chan) d.mem.bankSparing
      bankRows := tdel d.mem.bankRows (64 * bank + chan), badRows := tdel d.mem.badRows (64 * bank + chan) } } 2
    recoveryEvent d sRecovered 0x03 none 2 chan (usSince d t) 0

def execBankSpareDone (chan : Nat) (s : State) := onDev (bankSpareDone chan) s

end Sys2Proof.Machine
end

