-- ==== Sys2Proof/Machine/Kv.lean ====
section
/-! DEFINITION. The KV page manager (R312 to R315). -/

namespace Sys2Proof.Machine

/-! ### MEM_KV_CFG (R312) -/

def kvEn (x : Part) : Bool := bit x.kvCfg 0
def kvPsize (c : BitVec 320) : Nat := 65536 * 2 ^ fld c 3 1
def kvSem (x : Part) : Nat := fld x.kvCfg 25 16
def kvNpage (c : BitVec 320) : Nat := fld c 63 32
def kvPool (c : BitVec 320) : Nat := fld c 111 64
def kvMaxSeq (c : BitVec 320) : Nat := fld c 127 112
def kvTab (c : BitVec 320) : Nat := fld c 175 128
def kvMaxP (c : BitVec 320) : Nat := fld c 191 176
def kvChg (c : BitVec 320) : Nat := fld c 239 192
def kvLba (c : BitVec 320) : Nat := fld c 287 256

/-- The RW fields. -/
def kvMask : BitVec 320 :=
  ones 320 3 0 ||| ones 320 25 16 ||| ones 320 111 32 ||| ones 320 239 112 ||| ones 320 287 256

/-- The regions in device memory: pool, sequence table with its page lists, change list. -/
def kvRegions (c : BitVec 320) : List (Nat × Nat) :=
  [(kvPool c, kvNpage c * kvPsize c), (kvTab c, kvMaxSeq c * (16 + 4 * kvMaxP c)), (kvChg c, 64 + 16 * kvMaxSeq c)]

def overlap (a b : Nat × Nat) : Bool := decide (a.1 < b.1 + b.2 ∧ b.1 < a.1 + a.2)

/-- A write with EN set may take effect (R312). -/
def kvCfgOk (d : Dev) (p : Nat) (c : BitVec 320) : Bool :=
  let x := (lowered d p).part p
  let rs := kvRegions c
  let disjoint := match rs with
    | [a, b, e] => !overlap a b && !overlap a e && !overlap b e
    | _ => false
  x.cls == 0 && decide (fld c 3 1 ≤ 5) && kvPool c % pageSize == 0 && decide (kvPool c + kvNpage c * kvPsize c ≤ x.pages.length * pageSize) &&
  rs.all (fun r => okNew d p false r.1 r.2) && disjoint &&
  decide (kvLba c + kvNpage c * kvPsize c / blockSize ≤ 4096 * x.flash.length)

/-- A write of MEM_KV_CFG: ignored with CFG_ERR, or taken; enabling starts with every page free and
every sequence FREE. -/
def kvCfgWrite (p : Nat) (v : BitVec 320) (d : Dev) : Dev :=
  let c := v &&& kvMask
  if p ≥ 16 then d
  else if bit c 0 && !kvCfgOk d p c then
    logIgnored (d.modPart p fun x => { x with kvCfgErr := true }) srcMem (.memKvCfg p 0) (fld v 63 0)
  else
    let d := d.modPart p fun x => { x with
      kvCfg := c, kvCfgErr := false, kvSlots := [], kvCopies := [], kvDue := 0
      kvFree := if bit c 0 then List.range (kvNpage c) else [] }
    if bit c 0 then writeRange d p false (kvTab c) (List.replicate (16 * kvMaxSeq c) 0) else d

def execMemKvCfgWrite (p : Nat) (v : BitVec 320) (s : State) := onLive (kvCfgWrite p v) s

/-! ### The sequence table (R313) -/

structure KvSeq where
  state : Nat
  npages : Nat
  deriving DecidableEq, Repr

def kvSeqAt (d : Dev) (p s : Nat) : KvSeq :=
  let w := readNat d p (kvTab (d.part p).kvCfg + 16 * s) 16
  ⟨nfld w 1 0, nfld w 63 32⟩

def setKvSeq (d : Dev) (p s state npages : Nat) : Dev :=
  writeRange d p false (kvTab (d.part p).kvCfg + 16 * s)
    (toLe 16 (packNat [(0, state), (32, npages), (64, (d.part p).step.toNat)]))

def kvListAddr (d : Dev) (p s : Nat) : Nat :=
  let c := (d.part p).kvCfg
  kvTab c + 16 * kvMaxSeq c + s * 4 * kvMaxP c

def kvPages (d : Dev) (p s n : Nat) : List Nat := (chunks 4 (readRange d p false (kvListAddr d p s) (4 * n))).map leNat

def setKvPages (d : Dev) (p s first : Nat) (pages : List Nat) : Dev :=
  writeRange d p false (kvListAddr d p s + 4 * first) (pages.flatMap (toLe 4))

/-! ### Pool pages and flash slots -/

/-- The lowest-numbered n free pool pages. -/
def takeKv (d : Dev) (p n : Nat) : List Nat × Dev :=
  let free := (d.part p).kvFree
  (free.take n, d.modPart p fun x => { x with kvFree := free.drop n })

def giveKv (d : Dev) (p : Nat) (pages : List Nat) : Dev :=
  d.modPart p fun x => { x with kvFree := pages.foldl (fun a v => if a.contains v then a else insertBy id v a) x.kvFree }

/-- Flash slots of a page each from FLASH_LBA to the end of the partition's flash range (R312; log 38). -/
def kvSlotCount (x : Part) : Nat := (4096 * x.flash.length - kvLba x.kvCfg) * blockSize / kvPsize x.kvCfg

/-- The lowest-numbered n flash slots that no suspended sequence holds, when there are as many. -/
def freeSlots (x : Part) (n : Nat) : Option (List Nat) :=
  let used := x.kvSlots.flatMap (·.2)
  let free := ((List.range (min (kvSlotCount x) (used.length + n))).filter fun i => !used.contains i).take n
  if free.length < n then none else some free

def holdSlots (d : Dev) (p s : Nat) (slots : List Nat) : Dev := d.modPart p fun x => { x with kvSlots := tput x.kvSlots s slots }

def dropSlots (d : Dev) (p s : Nat) : Dev := d.modPart p fun x => { x with kvSlots := tdel x.kvSlots s }

/-! ### The change list (R314, R315) -/

structure KvChange where
  kind : Nat
  seq : Nat
  pages : Nat
  addr : Nat
  deriving DecidableEq, Repr

def setKvStatus (d : Dev) (p : Nat) (c : KvChange) (status : Nat) : Dev :=
  writeRange d p false (c.addr + 1) [BitVec.ofNat 8 status]

/-- The entries of the change list; none when they lie outside the quota. -/
def kvChanges (d : Dev) (p : Nat) : Option (List KvChange) :=
  let a := kvChg (d.part p).kvCfg
  if !okNew d p false a 64 then none
  else
    let n := readNat d p a 4
    if !okNew d p false (a + 64) (16 * n) then none
    else some ((List.range n).map fun i =>
      let at_ := a + 64 + 16 * i
      let w := readNat d p at_ 16
      ⟨nfld w 2 0, nfld w 63 32, nfld w 95 64, at_⟩)

/-- What the manager reads for one entry: the sequence's table entry and page list. -/
def kvReads (d : Dev) (p : Nat) (c : KvChange) : List (Nat × Nat) :=
  let cfg := (d.part p).kvCfg
  if c.seq < kvMaxSeq cfg then [(kvTab cfg + 16 * c.seq, 16), (kvListAddr d p c.seq, 4 * min (kvMaxP cfg) (kvSeqAt d p c.seq).npages)] else []

/-- The combining entries of what the manager reads at a boundary are written back first (R225). -/
def kvTouched (d : Dev) (p : Nat) : Dev :=
  if d.rm.comb.isEmpty then d
  else
    let a := kvChg (d.part p).kvCfg
    let cs := (kvChanges d p).getD []
    ((a, 64 + 16 * cs.length) :: cs.flatMap (kvReads d p)).foldl (fun d r => touched d p r.1 r.2) d

/-- The address of a loss that the manager meets at a boundary (R302). -/
def kvLoss (d : Dev) (p : Nat) : Option Nat :=
  let a := kvChg (d.part p).kvCfg
  let meets (r : Nat × Nat) : Option Nat := (poisonAt d p false r.1 r.2).map (r.1 + ·)
  match meets (a, 64) with
  | some b => some b
  | none =>
    match kvChanges d p with
    | none => none
    | some cs => ((a + 64, 16 * cs.length) :: cs.flatMap (kvReads d p)).findSome? meets

/-- An entry's KIND suits its sequence's STATE, its SEQ is new in the list and its pages fit (R314). -/
def kvEntryOk (d : Dev) (p : Nat) (before : List Nat) (c : KvChange) : Bool :=
  let cfg := (d.part p).kvCfg
  decide (c.seq < kvMaxSeq cfg) && !before.contains c.seq &&
  (let q := kvSeqAt d p c.seq
   decide (q.npages + c.pages ≤ kvMaxP cfg) &&
   match c.kind with
   | 1 => q.state != 0
   | 2 => q.state == 1
   | 3 => q.state == 0
   | 4 => q.state == 2
   | _ => false)

/-- Pages and copies begun at the last boundary are finished. -/
def kvFinish (d : Dev) (p : Nat) : Dev :=
  let d := (d.part p).kvCopies.foldl (fun d k =>
    if k.suspend then giveKv d p k.pages
    else dropSlots (setKvSeq d p k.seq 1 k.pages.length) p k.seq) d
  d.modPart p fun x => { x with kvCopies := [] }

def kvLeave (d : Dev) (p : Nat) (c : KvChange) : Dev :=
  let q := kvSeqAt d p c.seq
  let d := if q.state = 2 then d else giveKv d p (kvPages d p c.seq q.npages)
  setKvStatus (setKvSeq (dropSlots d p c.seq) p c.seq 0 0) p c sOk

def addCopy (d : Dev) (p : Nat) (k : KvCopy) : Dev := d.modPart p fun x => { x with kvCopies := x.kvCopies ++ [k] }

/-- GROW and RESUME (R315). A sequence for which the flash area has too few slots stays ACTIVE (log 38). -/
def kvGrow (d : Dev) (p : Nat) (c : KvChange) : Dev :=
  let q := kvSeqAt d p c.seq
  if c.kind = 2 then
    if c.pages ≤ (d.part p).kvFree.length then
      let (pages, d) := takeKv d p c.pages
      setKvStatus (setKvSeq (setKvPages d p c.seq q.npages pages) p c.seq 1 (q.npages + c.pages)) p c sOk
    else match freeSlots (d.part p) q.npages with
      | none => setKvStatus d p c sRetryLater
      | some slots =>
        let d := holdSlots (addCopy d p ⟨c.seq, true, false, kvPages d p c.seq q.npages⟩) p c.seq slots
        setKvStatus (setKvSeq d p c.seq 2 q.npages) p c sRetryLater
  else if q.npages ≤ (d.part p).kvFree.length then
    let (pages, d) := takeKv d p q.npages
    let d := addCopy (setKvPages d p c.seq 0 pages) p ⟨c.seq, false, false, pages⟩
    setKvStatus (setKvSeq d p c.seq 3 q.npages) p c sOk
  else setKvStatus d p c sRetryLater

/-- A join, and whether joins after it are refused. -/
def kvJoin (p : Nat) (acc : Dev × Bool) (c : KvChange) : Dev × Bool :=
  let (d, refusing) := acc
  if !refusing && decide (c.pages ≤ (d.part p).kvFree.length) then
    let (pages, d) := takeKv d p c.pages
    (setKvStatus (setKvSeq (setKvPages d p c.seq 0 pages) p c.seq 1 c.pages) p c sOk, false)
  else (setKvStatus d p c sRetryLater, true)

/-- The good entries, and the rest. -/
def kvJudge (d : Dev) (p : Nat) : List Nat → List KvChange → List KvChange × List KvChange
  | _, [] => ([], [])
  | before, c :: cs =>
    let r := kvJudge d p (c.seq :: before) cs
    if kvEntryOk d p before c then (c :: r.1, r.2) else (r.1, c :: r.2)

/-- The change list in R315's order. -/
def kvProcess (d : Dev) (p : Nat) (cs : List KvChange) : Dev :=
  let (good, bad) := kvJudge d p [] cs
  let d := bad.foldl (fun d c => setKvStatus d p c sBadField) d
  let d := (good.filter (·.kind == 1)).foldl (fun d c => kvLeave d p c) d
  let d := (sortBy (·.seq) (good.filter fun c => c.kind == 2 || c.kind == 4)).foldl (fun d c => kvGrow d p c) d
  ((good.filter (·.kind == 3)).foldl (kvJoin p) (d, false)).1

/-- The part's step counter advances with the manager enabled: a boundary is due (R315). -/
def kvStep (d : Dev) (p : Nat) : Dev := if kvEn (d.part p) then d.modPart p fun x => { x with kvDue := x.kvDue + 1 } else d

/-- KV_BOUNDARY: once every copy of the last boundary is done; each boundary that is due is processed and signalled
by itself. A list that meets a loss changes nothing (R302; log 38). -/
def kvBoundary (p : Nat) (d : Dev) : Dev :=
  let x := d.part p
  if x.kvDue = 0 || !kvEn x || x.kvCopies.any (fun k => !k.done) then d
  else
    let d := kvTouched (kvFinish (d.modPart p fun x => { x with kvDue := x.kvDue - 1 }) p) p
    let d := match kvLoss d p, kvChanges d p with
      | some a, _ => lossHere d p 0 a
      | none, some cs => kvProcess d p cs
      | none, none => d
    addSem d p (kvSem x) 1

def execKvBoundary (p : Nat) (s : State) := onDev (kvBoundary p) s

/-! ### Copies (R315, R366) -/

/-- Logical blocks of a flash slot. -/
def slotKeys (d : Dev) (p slot : Nat) : List Nat :=
  let c := (d.part p).kvCfg
  let n := kvPsize c / blockSize
  (List.range n).filterMap fun i => lbaKey d p (kvLba c + slot * n + i)

/-- One block to flash; a poisoned source is a loss that the block carries on (R302, R418). -/
def kvOut (p : Nat) (d : Dev) (x : Nat × Nat) : Dev :=
  let (key, a) := x
  let d1 := writeBlock d key (readRange d p false a blockSize)
  match poisonAt d p false a blockSize with
  | none => d1
  | some i => dataLoss { d1 with ftl := { d1.ftl with lost := d1.ftl.lost ++ [key] } } (some p) 0 ((a + i) / 64 * 64) 64

/-- One block from flash; a lost block's memory is poisoned. -/
def kvIn (p : Nat) (d : Dev) (x : Nat × Nat) : Dev :=
  let (key, a) := x
  let known := d.ftl.lost.contains key
  let d := flashRead d [key]
  if d.ftl.lost.contains key then
    let lines := ((locs d p false a blockSize).filterMap fun l => match l with
      | .dram y => some (y / 64)
      | _ => none).eraseDups
    let d := { d with mem := { d.mem with poison := (d.mem.poison ++ lines).eraseDups } }
    if known then dataLoss (ftlErr d 3) (some p) 0 (((lbaOwner d key).map (·.2)).getD 0) blockSize else d
  else writeRange d p false a (readBlock d.ftl key)

/-- KV_COPY_DONE: a suspension or resumption copy finishes. -/
def kvCopyDone (p s : Nat) (d : Dev) : Dev :=
  let x := d.part p
  match x.kvCopies.find? fun k => k.seq == s && !k.done with
  | none => d
  | some k =>
    if !weirOk d p 0 || !weirOk d p 1 then d
    else
      let ps := kvPsize x.kvCfg
      let blocks := ((tgetD x.kvSlots s []).zip k.pages).flatMap fun y =>
        (slotKeys d p y.1).mapIdx fun i key => (key, kvPool x.kvCfg + y.2 * ps + i * blockSize)
      let d := blocks.foldl (if k.suspend then kvOut p else kvIn p) d
      let d := weirCharge (weirCharge d p 0 (k.pages.length * ps)) p 1 (k.pages.length * ps)
      d.modPart p fun x => { x with
        kvCopies := updFirst (fun y => y.seq == s && !y.done) (fun y => { y with done := true }) x.kvCopies }

def execKvCopyDone (p seq : Nat) (s : State) := onDev (kvCopyDone p seq) s

end Sys2Proof.Machine
end

