-- ==== Sys2Proof/Machine/Ctl.lean ====
section
/-! DEFINITION. The registers that a partition reaches in its control block (R296): their values as words,
and the effect of reading and of writing them (R11, R88, R289 to R291, R301, R312). -/

namespace Sys2Proof.Machine

/-- GRD_STATUS[p].PHASE (log 46). -/
def grdPhase (x : Part) : Nat :=
  if x.grdFailed then 5
  else if !grdEn x then 0
  else if x.committed then 4
  else if x.vote.isSome then 3
  else if x.buckets.any fun b => b.launched && b.phase != .final then 2
  else if !x.buckets.isEmpty then 1
  else 0

/-- GRD_STATUS[p] (R289). -/
def grdStatus (x : Part) : Nat :=
  packNat [(0, grdPhase x), (3, b2n x.lastVote), (8, (x.buckets.filter fun b => b.phase == .final).length % 8192),
    (32, x.commitStep.toNat)]

/-- MEM_QUOTA[p] (R301): DRAM_PAGES counts the page list and the charges outside it. -/
def memQuota (x : Part) : Nat :=
  packNat [(0, x.sramUnits), (16, x.pages.length + x.savePages + x.dlogPages + x.sideQuota), (40, x.flash.length)]

/-- MEM_KV_STATUS[p] (R312). -/
def kvStatus (x : Part) : Nat := packNat [(0, x.kvFree.length), (32, b2n x.kvCfgErr)]

/-- A word of p's control block and the effect of reading it: GRD_ERRCNT is cleared (R11, R296). -/
def ctlRead (d : Dev) (p off : Nat) : Nat × Dev :=
  let x := d.part p
  if 0x1020 ≤ off ∧ off < 0x1040 then
    let i := (off - 0x1020) / 8
    ((tgetD x.grdErr i 0).toNat, d.modPart p fun x => { x with grdErr := tdel x.grdErr i })
  else if 0x2000 ≤ off ∧ off < 0x3000 then
    let i := 2 * ((off - 0x2000) / 8)
    ((semOf d p i).toNat + 2 ^ 32 * (semOf d p (i + 1)).toNat, d)
  else if 0x3028 ≤ off ∧ off < 0x3050 then
    let i := (off - 0x3028) / 8
    (fld x.kvCfg (64 * i + 63) (64 * i), d)
  else match off with
    | 0x1000 => ((x.grdCfgNext.getD x.grdCfg).toNat, d)
    | 0x1008 => ((x.grdBtabNext.getD x.grdBtab).toNat, d)
    | 0x1010 => (grdStatus x, d)
    | 0x1018 => (x.grdFlags.toNat, d)
    | 0x3000 => (x.arith.toNat, d)
    | 0x3008 => (x.gateFlags.toNat, d)
    | 0x3010 => (x.slcFlags.toNat, d)
    | 0x3018 => (x.rillFlags.toNat, d)
    | 0x3020 => (memQuota x, d)
    | 0x3050 => (kvStatus x, d)
    | _ => (0, d)

/-- A write of one word; MEM_KV_CFG apart. -/
def ctlWrite (d : Dev) (p off v : Nat) : Dev :=
  let w := BitVec.ofNat 32 v
  if 0x2000 ≤ off ∧ off < 0x3000 then
    let i := 2 * ((off - 0x2000) / 8)
    setSem (setSem d p i w) p (i + 1) (BitVec.ofNat 32 (v / 2 ^ 32))
  else match off with
    | 0x1000 => grdCfgWrite p (BitVec.ofNat 64 v) d
    | 0x1008 => grdBtabWrite p (BitVec.ofNat 64 v) d
    | 0x1018 => d.modPart p fun x => { x with grdFlags := clearOnes x.grdFlags w }
    | 0x3000 => d.modPart p fun x => { x with arith := clearOnes x.arith w }
    | 0x3008 => d.modPart p fun x => { x with gateFlags := clearOnes x.gateFlags w }
    | 0x3010 => d.modPart p fun x => { x with slcFlags := clearOnes x.slcFlags w }
    | 0x3018 => d.modPart p fun x => { x with rillFlags := clearOnes x.rillFlags w }
    | _ => d

/-- Words read in order. -/
def ctlReads (p : Nat) : Nat → Nat → Dev → List Byte × Dev
  | 0, _, d => ([], d)
  | n + 1, off, d =>
    let (v, d) := ctlRead d p off
    let (bs, d) := ctlReads p n (off + 8) d
    (toLe 8 v ++ bs, d)

/-- One transfer's words written in order; those of MEM_KV_CFG are one write (log 10). -/
def ctlWrites (d : Dev) (p off : Nat) (bs : List Byte) : Dev :=
  let ws := (chunks 8 bs).mapIdx fun i b => (off + 8 * i, leNat b)
  let kv := ws.filter fun w => decide (0x3028 ≤ w.1 ∧ w.1 < 0x3050)
  let d := ws.foldl (fun d w => ctlWrite d p w.1 w.2) d
  if kv.isEmpty then d
  else
    let v := kv.foldl (fun (v : BitVec 320) w =>
      let i := (w.1 - 0x3028) / 8
      (v &&& ~~~(ones 320 (64 * i + 63) (64 * i))) ||| (BitVec.ofNat 320 w.2 <<< (64 * i))) (d.part p).kvCfg
    kvCfgWrite p v d

end Sys2Proof.Machine
end

