-- ==== Sys2Proof/Machine/Tile.lean ====
section
/-! DEFINITION. The tile commands of an Expert Core: issue and interlocks, the array, the vector unit, the movers,
waits, signals, engine commands, digests and END (R55 to R87, R91, R92, R335, R336, R398, R415, R416). A command's
computation is made at issue, its signal and digest at completion (log 9). -/

namespace Sys2Proof.Machine

/-! ### Issue (R66, R67) -/

/-- The physical core and task that may issue on logical core n. -/
def issuer (d : Dev) (n : Nat) : Option (Nat × Task) :=
  match coreOf d n with
  | none => none
  | some pc =>
    let c := d.core pc
    match c.task with
    | none => none
    | some t =>
      let x := d.part t.part
      let held := preempted d pc || x.holding || x.atBoundary
      if c.st == .running && c.handover.isNone && !(held && c.recovering.isNone) && !d.pwr.hold && t.stopped.isNone then some (pc, t)
      else none

/-- The command at the task's pointer is `w`, and nothing holds issue. -/
def issueNext (d : Dev) (n op : Nat) (w : Cmd) : Option (Nat × Task) :=
  match issuer d n with
  | none => none
  | some (pc, t) =>
    if t.holding.isNone && !t.atStep && decide (t.ip < t.start + t.count) && cOp w == op &&
        ((programOf d t.part t.prog).bind fun g => g.cmds[t.ip]?) == some w then some (pc, t)
    else none

/-- The rows of a push (R67): its descriptor gives their stride. -/
def pushReads (d : Dev) (p : Nat) (w : Cmd) : List (Nat × Nat) :=
  let x := tgetD d.gate.descs (256 * p + gpSlot w) 0
  (gpSrc w, gpNtok w * rowStride (gdE x)) :: (if gpSkipEn w then [(gpSkipSrc w, divUp (gpNtok w) 8)] else [])

def readsOf (d : Dev) (t : Task) (w : Cmd) : List (Nat × Nat) :=
  if cOp w = 0xC then pushReads d t.part w else cmdReads t.cnt w

/-- An interlock of R67 holds the command. -/
def interlocked (d : Dev) (t : Task) (w : Cmd) : Bool :=
  let rd := readsOf d t w
  let wr := cmdWrites t.cnt w
  t.inFlight.any (fun x => meets rd x.writes || meets wr (x.reads ++ x.writes)) ||
  (match cOp w with
   | 1 => t.array.any fun x => cPlane x.w == cPlane w
   | 2 => t.loader.any (fun x => cPlane x.w == cPlane w) || t.drain.any fun x => cPlane x.w == mmAcc w
   | 3 => t.array.any fun x => mmAcc x.w == cPlane w
   | _ => false)

/-- As `issueNext`, with room in the unit's queue and no interlock. The command under execution counts among the
four of the queue, which R66 leaves open (DESIGN CHOICE, log 59). -/
def issueTo (d : Dev) (n op : Nat) (w : Cmd) (u : CoreUnit) : Option (Nat × Task) :=
  match issueNext d n op w with
  | none => none
  | some (pc, t) => if (t.unit u).length < 4 && !interlocked d t w then some (pc, t) else none

/-- The command as it enters its unit's queue. -/
def flight (d : Dev) (t : Task) (w : Cmd) (digest : Option U64) : InFlight :=
  { idx := t.ip, w := w, reads := readsOf d t w, writes := cmdWrites t.cnt w, half := false
    accepted := tgetD t.partials t.ip 0, nullTile := nullTile t.cnt w, quiet := t.suppressed, moved := [], digest := digest
    ctx := t.dig }

/-- Every SRAM range of the command lies in the partition's view (R61). -/
def rangesOk (d : Dev) (t : Task) (w : Cmd) : Bool :=
  (cmdReads t.cnt w ++ cmdWrites t.cnt w).all fun r => viewOk (lowered d t.part) t.part r.1 r.2

/-- A core reads a lost word of the view at offset `o`: the loss is reported and the task ends (R60, R418). -/
def sramStop (d : Dev) (pc n p o : Nat) : Dev := stopTask (lossHere d p pc (winBase + 0x1000000 * n + o)) pc sInternal

/-- The command's ranges are those of the view, and what it reads there is not lost; otherwise the task is stopped
(R60, R61, R92). -/
def sramCheck (d : Dev) (pc n : Nat) (t : Task) (w : Cmd) : Option Dev :=
  if !rangesOk d t w then some (stopTask d pc sProgFault)
  else (viewLoss d t.part n (cmdReads t.cnt w)).map (sramStop d pc n t.part)

/-- The command pointer moves on; a replay ends behind its last logged command (R416). -/
def Task.advance (t : Task) : Task :=
  { t with ip := t.ip + 1, holding := none, atStep := false, replay := t.replay.filter fun last => t.ip + 1 ≤ last }

/-- The replay on logical core n ends once its task has run past the last logged command (R416). -/
def replayCheck (n : Nat) (d : Dev) : Dev :=
  match coreOf d n with
  | some pc => replayEnded d pc
  | none => d

/-- A command of the task on logical core n, after which a replay may have ended (R416). -/
def onTile (n : Nat) (f : Dev → Dev) (s : State) : Host.Outcome State Fault Refusal :=
  onDev (fun d => replayCheck n (f d)) s

/-! ### Completion (R64, R66, R79, R83) -/

/-- A completed command adds its digest and its signal, and its bit is set, unless it is replayed. -/
def finishCmd (d : Dev) (pc : Nat) (x : InFlight) : Dev :=
  match (d.core pc).task with
  | none => d
  | some t =>
    if x.quiet then d
    else
      let d := match x.digest with
        | some v => addDigest d t.part x.ctx.accum v
        | none => d
      let noted := cSigEn x.w || x.digest.isSome
      modCoreTask d pc fun t => { t with
        sb := sigOf x.w t.sb, effects := if noted then logBit t.effects x.idx else t.effects }

/-- The half event's signal (R74, R335). The mover event sets the command's bit, so a replay of the MOV signals no
more (R415, R416; log 59). -/
def halfSignal (d : Dev) (pc : Nat) (x : InFlight) : Dev :=
  if cOp x.w == 6 && movHalf x.w && cSigEn x.w && !x.quiet then
    modCoreTask d pc fun t => { t with sb := sigOf x.w t.sb, effects := logBit t.effects x.idx }
  else d

/-- Null tiles at the head of a unit's queue retire, half event first (R79). -/
def retireUnit (u : CoreUnit) : Nat → Nat → Dev → Dev
  | 0, _, d => d
  | f + 1, pc, d =>
    match (d.core pc).task.bind fun t => (t.unit u).head? with
    | none => d
    | some x =>
      if x.nullTile then
        retireUnit u f pc (finishCmd (halfSignal (modCoreTask d pc fun t => t.setUnit u ((t.unit u).drop 1)) pc x) pc x)
      else d

def retireNulls (d : Dev) (pc : Nat) : Dev :=
  [CoreUnit.loader, .array, .drain, .mover 0, .mover 1].foldl (fun d u => retireUnit u 4 pc d) d

/-- The task reads and writes ranges of device addresses: one that writes a byte it has read is not replayable
(R415). -/
def Task.touches (t : Task) (rd wr : List (Nat × Nat)) : Task :=
  let all := t.reads ++ rd.filter fun r => decide (r.2 > 0) && !t.reads.contains r
  { t with reads := all, broken := t.broken || (t.replay.isNone && meets wr all) }

/-- Ranges of the view on logical core n, as device addresses. -/
def viewSpan (n : Nat) (rs : List (Nat × Nat)) : List (Nat × Nat) := rs.map fun r => (winBase + 0x1000000 * n + r.1, r.2)

/-- The command joins its unit's queue. -/
def queueCmd (d : Dev) (pc : Nat) (u : CoreUnit) (x : InFlight) : Dev :=
  let n := ((d.core pc).lcore).getD 0
  let seen (t : Task) : Task := if x.nullTile then t else t.touches (viewSpan n x.reads) (viewSpan n x.writes)
  retireNulls (modCoreTask d pc fun t => (seen (t.setUnit u (t.unit u ++ [x]))).advance) pc

/-- The bytes that a command stores: undefined in the replay of a task that is not replayable (R415). -/
def stored (d : Dev) (t : Task) (bs : List Byte) : List Byte × Dev :=
  if t.broken && t.replay.isSome then
    let (k, d) := drawFree d
    (bs.mapIdx fun i _ => Config.undefinedByte (k * 2 ^ 34 + i), d)
  else (bs, d)

/-- The head of a unit's queue leaves it, complete. -/
def popUnit (d : Dev) (pc : Nat) (u : CoreUnit) (x : InFlight) : Dev :=
  settleCore (retireNulls (finishCmd (modCoreTask d pc fun t => t.setUnit u ((t.unit u).drop 1)) pc x) pc) pc

/-- COMMAND_COMPLETE (R66). With nothing to complete, a stopped core is looked at again. -/
def commandComplete (n : Nat) (u : CoreUnit) (d : Dev) : Dev :=
  match coreOf d n with
  | none => d
  | some pc =>
    match (d.core pc).task with
    | none => d
    | some t =>
      match u, (t.unit u).head? with
      | .mover _, _ => d
      | .port, _ => settleCore d pc
      | u, some x => popUnit d pc u x
      | _, none => d

def execCommandComplete (n : Nat) (u : CoreUnit) (s : State) := onDev (commandComplete n u) s

/-- A control command has completed. -/
def controlDone (d : Dev) (pc : Nat) (w : Cmd) : Dev :=
  modCoreTask d pc fun t =>
    if cSigEn w && !t.suppressed then
      { t with sb := sigOf w t.sb, effects := logBit t.effects t.ip }.advance
    else t.advance

/-! ### The array (R55 to R58, R69 to R71) -/

def planeOf (c : Core) (i : Nat) : Plane := if i = 0 then c.plane0 else c.plane1

def setPlane (c : Core) (i : Nat) (x : Plane) : Core := if i = 0 then { c with plane0 := x } else { c with plane1 := x }

def bankOf (c : Core) (i : Nat) : Bank := if i = 0 then c.acc0 else c.acc1

def setBank (c : Core) (i : Nat) (x : Bank) : Core := if i = 0 then { c with acc0 := x } else { c with acc1 := x }

/-- The 512 words of a bank's row. -/
def bankRow (b : Bank) (r : Nat) : List Nat := (List.range 512).map fun j => (tgetD b.cells (512 * r + j) 0).toNat

def setRow (b : Bank) (r : Nat) (xs : List Nat) : Bank :=
  let row := (xs.mapIdx fun j x => (512 * r + j, BitVec.ofNat 32 x)).filter fun c => c.2 ≠ 0
  { b with cells := b.cells.filter (fun c => c.1 < 512 * r) ++ row ++ b.cells.filter (fun c => c.1 ≥ 512 * (r + 1)) }

/-- LDW: a whole tile, or EMPTY under the count rule. -/
def ldw (n : Nat) (w : Cmd) (d : Dev) : Dev :=
  match issueTo d n 1 w .loader with
  | none => d
  | some (pc, t) =>
    match sramCheck d pc n t w with
    | some d => d
    | none =>
      let f := ldwFmt w
      let (es, d) := stored d t (viewRead d t.part n (ldwSrc w) (tileElems f))
      let x : Plane := if nullTile t.cnt w then {} else ⟨some f, es, viewRead d t.part n (ldwScale w) (tileScales f)⟩
      queueCmd (d.modCore pc fun c => setPlane c (cPlane w) x) pc .loader (flight d t w none)

def execLdw (n : Nat) (w : BitVec 128) (s : State) := onTile n (ldw n w) s

/-- Column j of a plane. -/
def planeCol (p : Plane) (f j : Nat) : List Nat × List Byte :=
  let k := kOf f
  let b := k * elemBits (elemOf f) / 8
  (unpackElems f ((p.elems.drop (j * b)).take b) k, (p.scales.drop (j * (k / 32))).take (k / 32))

/-- Elements with their block scales as values (R30). -/
def scaled (f : Nat) (es : List Nat) (sc : List Byte) : List Val :=
  es.mapIdx fun i x =>
    let v := decodeElem f x
    if isMx f then applyScale v (sc.getD (i / 32) 0).toNat else v

/-- W of R41: 56 bits for BF16 and FP16. -/
def windowOf (f : Nat) : Option Nat := if nOf f = 256 then some 56 else none

/-- One activation row through a plane into one bank row (R41 to R44, R57). Adding a block that is a NaN consumes a
NaN operand, so a block that set NAN_GEN sets NAN_IN too (R43, R47; DEDUCED, log 70). -/
def mmRow (p : Plane) (wf af : Nat) (acts : List Nat) (sc : List Byte) (old : List Nat) : FlM (List Nat) := do
  let bits (f : Nat) : Nat := elemBits (elemOf f)
  let new ← ((List.range (nOf wf)).zip old).mapM fun (j, o) =>
    let (es, ws) := planeCol p wf j
    if intPair wf then
      addInt32 o ((es.zip acts).foldl (fun a x => a + sInt (bits wf) x.1 * sInt (bits af) x.2) 0)
    else do
      let y ← kBlock (windowOf wf) ((scaled wf es ws).zip (scaled af acts sc))
      fadd o y
  pure (new ++ old.drop (nOf wf))

/-- All rows of an MM, into its bank. -/
def mmRows (d : Dev) (p n : Nat) (pl : Plane) (w : Cmd) (m : Nat) (b : Bank) : FlM Bank :=
  let wf := mmWfmt w
  let af := mmAfmt w
  let k := kOf wf
  (List.range m).foldlM (fun b i => do
    let acts := unpackElems af (viewRead d p n (cAddr w + i * cStride w) (actRow wf af)) k
    let sc := if isMx af then viewRead d p n (mmScale w + i * scaleStride w) (k / 32) else []
    let old := if mmZero w then List.replicate 512 0 else bankRow b (mmRow0 w + i)
    let row ← mmRow pl wf af acts sc old
    pure (setRow b (mmRow0 w + i) row)) b

/-- The rows of a bank that an MM has added to, as `stored`. -/
def storedRows (d : Dev) (t : Task) (b : Bank) (r0 m : Nat) : Bank × Dev :=
  if t.broken && t.replay.isSome then
    (List.range m).foldl (fun (y : Bank × Dev) i =>
      let (bs, d) := stored y.2 t ((bankRow y.1 (r0 + i)).flatMap (toLe 4))
      (setRow y.1 (r0 + i) ((chunks 4 bs).map leNat), d)) (b, d)
  else (b, d)

/-- MM (R58, R70). -/
def mm (n : Nat) (w : Cmd) (d : Dev) : Dev :=
  match issueTo d n 2 w .array with
  | none => d
  | some (pc, t) =>
    let c := d.core pc
    let pl := planeOf c (cPlane w)
    let b := bankOf c (mmAcc w)
    let ty := intPair (mmWfmt w)
    if nullTile t.cnt w then queueCmd d pc .array (flight d t w none)
    else if pl.fmt ≠ some (mmWfmt w) ∨ (!mmZero w ∧ b.int ≠ ty) then stopTask d pc sProgFault
    else match sramCheck d pc n t w with
    | some d => d
    | none =>
      let b : Bank := if b.int = ty then b else ⟨ty, []⟩
      let m := effRows t.cnt w (cM w) (cRowBase w)
      let (b, d) := runFlags d t.part (mmRows d t.part n pl w m b)
      let (b, d) := storedRows d t b (mmRow0 w) m
      queueCmd (d.modCore pc fun c => setBank c (mmAcc w) b) pc .array (flight d t w none)

def execMm (n : Nat) (w : BitVec 128) (s : State) := onTile n (mm n w) s

/-- The tile digest of a storing command (R83). -/
def digestOf (t : Task) (w : Cmd) (rowBase : Nat) (bs : List Byte) : Option U64 :=
  if cDigEn w && !t.suppressed then some (tileDigest t.dig rowBase bs) else none

/-- A row of a bank in OFMT (R71). -/
def outRow (b : Bank) (f r cols : Nat) : FlM (List Byte) :=
  let xs := (bankRow b r).take cols
  if f = 1 ∨ f = 2 then do
    let y ← encodeVals f (fun _ => .rne) (xs.map f32)
    pure y.1
  else pure (xs.flatMap (toLe 4))

/-- ACC_OUT (R71). -/
def accOut (n : Nat) (w : Cmd) (d : Dev) : Dev :=
  match issueTo d n 3 w .drain with
  | none => d
  | some (pc, t) =>
    let b := bankOf (d.core pc) (cPlane w)
    if nullTile t.cnt w then queueCmd d pc .drain (flight d t w none)
    else if !rangesOk d t w ∨ b.int ≠ (aoFmt w == 0xB) then stopTask d pc sProgFault
    else
      let m := effRows t.cnt w (cM w) (cRowBase w)
      let (rows, d) := runFlags d t.part ((List.range m).mapM fun i => outRow b (aoFmt w) (aoRow0 w + i) (aoCols w))
      let (bs, d) := stored d t rows.flatten
      let rows := chunks ((rows.headD []).length) bs
      let d := (rows.mapIdx fun i r => (i, r)).foldl (fun d r => viewWrite d t.part n (cAddr w + r.1 * cStride w) r.2) d
      queueCmd d pc .drain (flight d t w (digestOf t w (cRowBase w) rows.flatten))

def execAccOut (n : Nat) (w : BitVec 128) (s : State) := onTile n (accOut n w) s

/-! ### The vector unit (R72, R73, R85) -/

def fpWords (bs : List Byte) : List Nat := (chunks 4 bs).map leNat

/-- The values of operand B for each element (R72). -/
def operandB (w : Cmd) (b : List Nat) (e : Nat) : Nat :=
  match vopBmode w with
  | 0 => b.getD e 0
  | 1 => b.getD (e / vopRow w) 0
  | 2 => b.getD (e % vopRow w) 0
  | _ => b.getD 0 0

/-- The result of a VOP over its operands. -/
def vopResult (w : Cmd) (a b c : List Nat) : FlM (List Nat) :=
  let f := vopFunc w
  if isRowFunc f then do
    let rows ← (chunks (vopRow w) a).mapM fun r => rowFn f r (b.take (vopRow w)) (b.getD (vopRow w) 0)
    pure rows.flatten
  else (a.mapIdx fun e x => (e, x)).mapM fun x => elemFn f x.2 (operandB w b x.1) (c.getD x.1 0)

/-- VOP. -/
def vop (n : Nat) (w : Cmd) (d : Dev) : Dev :=
  match issueTo d n 4 w .vector with
  | none => d
  | some (pc, t) =>
    match sramCheck d pc n t w with
    | some d => d
    | none =>
      let rd (a k : Nat) : List Nat := fpWords (viewRead d t.part n a k)
      let a := rd (vopA w) (4 * vopLen w)
      let b := rd (vopB w) (vopBBytes w)
      let c := if vopFunc w = 4 then rd (vopDst w) (4 * vopLen w) else []
      let (ys, d) := runFlags d t.part (vopResult w a b c)
      let (bs, d) := stored d t (ys.flatMap (toLe 4))
      queueCmd (viewWrite d t.part n (vopDst w) bs) pc .vector (flight d t w (digestOf t w 0 bs))

def execVop (n : Nat) (w : BitVec 128) (s : State) := onTile n (vop n w) s

/-- The source values of a CVT: those of a BSI48 side at the command's EXP (R30, R54, R73). -/
def cvtVals (w : Cmd) (src sc : List Byte) : List Val :=
  if cvtS w = 0xA then (chunks 256 src).flatMap fun b => { Bsi.read b with exp := cvtExp w }.vals
  else decodeVals (cvtS w) src sc (cvtElems w)

/-- The elements and scales that a CVT stores, with its flags in the order of R88 (R33 to R37, R54). -/
def cvtOut (w : Cmd) (rnd : Nat → Rnd) (xs : List Val) : FlM (List Byte × List Byte) :=
  if cvtD w = 0xA then do
    let bl := (chunks 40 xs).mapIdx fun k b => toBsi (sInt 8 (cvtExp w)) (fun i => rnd (40 * k + i)) b
    flagIf (xs.any Val.isNan) NAN_IN
    flagIf (bl.any fun b => b.flags.testBit 2) SATD
    pure (bl.flatMap Bsi.bytes, [])
  else if cvtD w = 0 then do
    let ys ← valsTo32 xs
    pure (ys.flatMap (toLe 4), [])
  else encodeVals (cvtD w) rnd xs

/-- CVT. -/
def cvt (n : Nat) (w : Cmd) (d : Dev) : Dev :=
  match issueTo d n 5 w .vector with
  | none => d
  | some (pc, t) =>
    match sramCheck d pc n t w with
    | some d => d
    | none =>
      let p := t.part
      let seed := (tgetD (d.part p).seeds (cvtSeed w) 0).toNat
      let rnd := rndOf (cvtRnd w == 1) seed (stepKey d t).toNat (cvtStream w)
      let src := viewRead d p n (cvtSrc w) (cvtSide w (cvtS w))
      let sc := if isMx (cvtS w) then viewRead d p n (cvtScale w) (cvtLen w) else []
      let ((es, scs), d) := runFlags d p (cvtOut w rnd (cvtVals w src sc))
      let (es, d) := stored d t es
      let d := viewWrite (viewWrite d p n (cvtDst w) es) p n (cvtScale w) scs
      queueCmd d pc .vector (flight d t w (digestOf t w 0 (es ++ scs)))

def execCvt (n : Nat) (w : BitVec 128) (s : State) := onTile n (cvt n w) s

/-! ### MOV and the mover events (R74, R296, R333 to R336) -/

def toCtl (w : Cmd) : Bool := decide (ctlBase ≤ movD w)

/-- A MOV to its own control block: whole words; whole descriptors for the request port (R214, R296). -/
def ctlMovOk (p : Nat) (w : Cmd) : Bool :=
  let off := movD w - ctlBase - 0x10000 * p
  let n := movLen w
  decide (ctlBase + 0x10000 * p ≤ movD w ∧ (movDev w).1 + (movDev w).2 ≤ ctlBase + 0x10000 * (p + 1)) &&
  movD w % 8 == 0 && n % 8 == 0 && (movDev w).2 % 8 == 0 &&
  (!movOut w || decide (off ≥ 64) || (off == 0 && n % 64 == 0))

/-- MOV: the transfer is queued; one replayed to control space whose bit is set is skipped (R416). A device
address in memory is checked when each access is made (R329, R336). -/
def mov (n : Nat) (w : Cmd) (d : Dev) : Dev :=
  match issueTo d n 6 w (.mover (movMover w)) with
  | none => d
  | some (pc, t) =>
    if nullTile t.cnt w then queueCmd d pc (.mover (movMover w)) (flight d t w none)
    else if !rangesOk d t w ∨ (toCtl w ∧ !ctlMovOk t.part w) then stopTask d pc sProgFault
    else if t.suppressed && movOut w && toCtl w then modCoreTask d pc Task.advance
    else queueCmd d pc (.mover (movMover w)) (flight d t w none)

def execMov (n : Nat) (w : BitVec 128) (s : State) := onTile n (mov n w) s

/-- Bytes `lo` to `hi - 1` of a transfer, from a source that may be fixed. -/
def segBytes (read : Nat → Nat → List Byte) (fixed : Bool) (a lo hi : Nat) : List Byte :=
  if fixed then
    let u := read a 64
    (List.range (hi - lo)).map fun i => u.getD ((lo + i) % 64) 0
  else read (a + lo) (hi - lo)

/-- The ranges a segment is written to: a fixed destination keeps its last unit (R333). -/
def segPlaces (fixed : Bool) (a lo : Nat) (bs : List Byte) : List (Nat × List Byte) :=
  if fixed then (lastN 64 (bs.mapIdx fun i b => (a + (lo + i) % 64, [b]))) else [(a + lo, bs)]

/-- The mover's source runs into its own destination in the core's view: bytes written ahead of their
read are free (log 37). -/
def movOverlap (d : Dev) (p n : Nat) (w : Cmd) (lo : Nat) (bs : List Byte) : List Byte :=
  match locate d p false (movD w) with
  | .view k o =>
    let s := if movOut w then movS w else o
    let t := if movOut w then o else movS w
    if k = n ∧ !movFixS w ∧ !movFixD w ∧ s < t ∧ t < s + lo + bs.length then
      bs.mapIdx fun i b => if lo + i < t - s then b else Config.overlapByte (t - s) bs (lo + i)
    else bs
  | _ => bs

/-- Words and requests to control space: a request port takes units while it has room. The number of
bytes taken is given back (R214, R296, R415). No unit is taken while the device's tags are exhausted. -/
def ctlDeliver (p n : Nat) (port : Bool) (fixed : Bool) (off : Nat) : Nat → Nat → List Byte → Dev → Nat × Dev
  | 0, k, _, d => (k, d)
  | f + 1, k, bs, d =>
    match bs with
    | [] => (k, d)
    | _ =>
      let at_ := if fixed then off else off + k
      if port ∧ at_ = 0 then
        if rmRoom d p n && (freeTag d).isSome then
          ctlDeliver p n port fixed off f (k + 64) (bs.drop 64) (rmPush d p n (BitVec.ofNat 512 (leNat (bs.take 64))))
        else (k, d)
      else ctlDeliver p n port fixed off f (k + 64) (bs.drop 64) (ctlWrites d p at_ (bs.take 64))

/-- A mover has stopped (R336): its command leaves the queue and the task ends at that command's index. -/
def moverStop (d : Dev) (pc m idx status : Nat) : Dev :=
  stopTask (modCoreTask d pc fun t => t.setUnit (.mover m) ((t.unit (.mover m)).drop 1)) pc status (some idx)

/-- Why a mover's access stops the transfer (R336): the address is outside the quota, or the byte read is lost. -/
inductive MoverStop where
  | outside
  | lost
  deriving DecidableEq, Repr

/-- The command at `idx` of the task on a core. -/
def cmdOp (d : Dev) (pc idx : Nat) : OpId :=
  match (d.core pc).task with
  | some t => .cmd pc t.sub t.entry idx
  | none => .cmd pc 0 0 idx

/-- The first byte `lo + i` of a segment whose access stops the mover, looking at the n bytes at `da` of device
space and, for a MOV out of the view, at those at `sa` of the view. A fixed address counts as the first byte. -/
def moverMeets (d : Dev) (p n : Nat) (w : Cmd) (lo hi : Nat) : Option (Nat × MoverStop) :=
  let fixed := if movOut w then movFixD w else movFixS w
  let da := if fixed then movD w else movD w + lo
  let k := if fixed then 64 else hi - lo
  let at_ (i : Nat) : Nat := if fixed then lo else lo + i
  let out := ((locs d p false da k).findIdx? fun l => !l.plain).map at_
  let lost := if movOut w then
      let sa := if movFixS w then movS w else movS w + lo
      (viewLoss d p n [(sa, if movFixS w then 64 else hi - lo)]).map fun o => if movFixS w then lo else lo + (o - sa)
    else (poisonAt d p false da k).map at_
  match out, lost with
  | some i, some j => if j < i then some (j, .lost) else some (i, .outside)
  | some i, none => some (i, .outside)
  | none, some j => some (j, .lost)
  | none, none => none

/-- Bytes `lo` to `hi - 1` of a transfer to or from memory are moved, up to an access that stops the mover (R329,
R336). None: it has stopped. -/
def moveSeg (d : Dev) (pc p n m : Nat) (x : InFlight) (lo hi : Nat) : Option (List Byte) × Dev :=
  let w := x.w
  let da := movD w
  let bad := moverMeets (opQuota d p (cmdOp d pc x.idx)) p n w lo hi
  let hi' := (bad.map (·.1)).getD hi
  let bs := movOverlap d p n w lo (if movOut w then segBytes (viewRead d p n) (movFixS w) (movS w) lo hi'
    else segBytes (readRange d p false) (movFixS w) da lo hi')
  let (bs, d) := match (d.core pc).task with
    | some t => stored d t bs
    | none => (bs, d)
  let span : Nat × Nat := if (if movOut w then movFixD w else movFixS w) then (da, 64) else (da + lo, bs.length)
  let d := modCoreTask d pc fun t => if movOut w then t.touches [] [span] else t.touches [span] []
  let d := if movOut w then
      chargeRange ((segPlaces (movFixD w) da lo bs).foldl (fun d r => writeRange d p false r.1 r.2) d) p
        (if movFixD w then da else da + lo) (if movFixD w then 64 else bs.length)
    else
      (segPlaces (movFixD w) (movS w) lo bs).foldl (fun d r => viewWrite d p n r.1 r.2)
        (chargeRange d p (if movFixS w then da else da + lo) (if movFixS w then 64 else bs.length))
  match bad with
  | some (i, .outside) => (none, moverStop (countDenied d (if movFixS w || movFixD w then da else da + i) 1) pc m x.idx sProgFault)
  | some (i, .lost) =>
    let a := if movOut w then winBase + 0x1000000 * n + movS w + (if movFixS w then 0 else i) else if movFixS w then da else da + i
    (none, moverStop (lossHere d p pc a) pc m x.idx sInternal)
  | none => (some bs, d)

/-- The same to or from control space, up to a unit that holds a lost word (R336). None: the request port has no room
for the rest, or the mover has stopped. -/
def moveCtl (d : Dev) (pc p n m : Nat) (x : InFlight) (lo hi : Nat) : Option (List Byte) × Dev :=
  let w := x.w
  let off := movD w - ctlBase - 0x10000 * p
  if movOut w then
    let k0 := x.accepted
    let unit := if off = 0 then 64 else 8
    let lost := (viewLoss d p n [if movFixS w then (movS w, 64) else (movS w + k0, hi - k0)]).map fun o =>
      (o, if movFixS w then k0 else max k0 ((o - movS w) / unit * unit))
    let top := (lost.map (·.2)).getD hi
    let bs := segBytes (viewRead d p n) (movFixS w) (movS w) 0 top
    let (k, d) := ctlDeliver p n (off == 0) (movFixD w) off (hi / 8 + 1) k0 (bs.drop k0) d
    let mark (y : InFlight) : InFlight := if y.idx = x.idx then { y with accepted := k } else y
    let d := modCoreTask d pc fun t =>
      let t := t.setUnit (.mover m) ((t.unit (.mover m)).map mark)
      { t with partials := tput t.partials x.idx k }
    match lost with
    | some (o, _) => (none, if k ≥ top then moverStop (lossHere d p pc (winBase + 0x1000000 * n + o)) pc m x.idx sInternal else d)
    | none => (if k ≥ hi then some (bs.drop lo) else none, d)
  else
    let (bs, d) := if movFixS w then
        let (u, d) := ctlReads p 8 off d
        (segBytes (fun _ _ => u) true 0 lo hi, d)
      else ctlReads p ((hi - lo) / 8) (off + lo) d
    (some bs, (segPlaces (movFixD w) (movS w) lo bs).foldl (fun d r => viewWrite d p n r.1 r.2) d)

/-- Where the half event stands: at half the bytes, at a whole word or request in control space. -/
def halfPoint (w : Cmd) : Nat :=
  let h := divUp (movLen w) 2
  if toCtl w then min (movLen w) (roundUp h (if movOut w then 64 else 8)) else h

/-- The transfer reads or writes DRAM for p (R366). -/
def moverDram (d : Dev) (p : Nat) (w : Cmd) : Bool :=
  !toCtl w && decide (0 < dramBytes d p (movD w) (if (if movOut w then movFixD w else movFixS w) then 64 else movLen w))

/-- The head of mover m, when it may move bytes now. -/
def moverHead (d : Dev) (n m : Nat) : Option (Nat × Task × InFlight) :=
  match coreOf d n with
  | none => none
  | some pc =>
    match (d.core pc).task with
    | none => none
    | some t =>
      match (t.unit (.mover m)).head? with
      | some x => if (weirOk d t.part 0 || !moverDram d t.part x.w) && ((d.core pc).st == .running) then some (pc, t, x) else none
      | none => none

def moveBytes (d : Dev) (pc p n m : Nat) (x : InFlight) (lo hi : Nat) : Option (List Byte) × Dev :=
  if toCtl x.w then moveCtl d pc p n m x lo hi else moveSeg d pc p n m x lo hi

/-- MOVER_HALF_EVENT. -/
def moverHalfEvent (n m : Nat) (d : Dev) : Dev :=
  match moverHead d n m with
  | none => d
  | some (pc, t, x) =>
    if !movHalf x.w ∨ x.half then d
    else match moveBytes d pc t.part n m x 0 (halfPoint x.w) with
      | (none, d) => d
      | (some bs, d) =>
        let mark (y : InFlight) : InFlight := if y.idx = x.idx then { y with half := true, moved := bs } else y
        halfSignal (modCoreTask d pc fun t => t.setUnit (.mover m) ((t.unit (.mover m)).map mark)) pc x

def execMoverHalfEvent (n m : Nat) (s : State) := onDev (moverHalfEvent n m) s

/-- The check value follows the bytes written (R334). -/
def movCheck (d : Dev) (p n : Nat) (w : Cmd) (bs : List Byte) : Dev :=
  let v := checkValue (movCrc w) bs
  if v.isEmpty then d
  else if movOut w ∧ toCtl w then ctlWrites d p (movD w + movLen w - ctlBase - 0x10000 * p) v
  else if movOut w then chargeRange (writeRange d p false (movD w + movLen w) v) p (movD w + movLen w) v.length
  else viewWrite d p n (movS w + movLen w) v

/-- MOVER_FULL_EVENT: the rest of the bytes, the check value, the digest and the signal. -/
def moverFullEvent (n m : Nat) (d : Dev) : Dev :=
  match moverHead d n m with
  | none => d
  | some (pc, t, x) =>
    if movHalf x.w ∧ !x.half then d
    else
      let lo := if x.half then halfPoint x.w else 0
      match moveBytes d pc t.part n m x lo (movLen x.w) with
      | (none, d) => d
      | (some bs, d) =>
        let all := x.moved ++ bs
        let a := movD x.w + movLen x.w
        if movOut x.w && !toCtl x.w && !okFor d t.part (cmdOp d pc x.idx) false a (crcLen (movCrc x.w)) then
          moverStop (countDenied d a (crcLen (movCrc x.w))) pc m x.idx sProgFault
        else
        let d := movCheck d t.part n x.w all
        let dig := if cDigEn x.w && !x.quiet then some (tileDigest x.ctx 0 all) else none
        let ctl := toCtl x.w && movOut x.w
        let d := if ctl then modCoreTask d pc fun t => { t with
            effects := logBit t.effects x.idx, partials := tdel t.partials x.idx }
          else d
        popUnit d pc (.mover m) { x with digest := dig }

def execMoverFullEvent (n m : Nat) (s : State) := onDev (moverFullEvent n m) s

/-! ### Control commands (R75, R76, R78) -/

/-- The counter is changed. -/
def modCounter (d : Dev) (pc p : Nat) (w : Cmd) (f : U32 → U32) : Dev :=
  if cSem w then setSem d p (cIndex w) (f (semOf d p (cIndex w)))
  else modCoreTask d pc fun t => { t with sb := tmod t.sb (cIndex w) 0 f }

/-- A WAIT passes: DEC, then LDCNT (R75); a replayed one only loads its count (R416). -/
def passWait (d : Dev) (pc n : Nat) (t : Task) (w : Cmd) : Dev :=
  let p := t.part
  let d := if t.suppressed then d
    else
      let d := if waitDec w then modCounter d pc p w (· - BitVec.ofNat 32 (waitThr w)) else d
      modCoreTask d pc fun t => { t with effects := logBit t.effects t.ip }
  if waitLdcnt w ∧ !viewOk (lowered d p) p (waitHdr w) 4 then stopTask d pc sProgFault
  else if waitLdcnt w ∧ viewLostAt d p n (waitHdr w) then sramStop d pc n p (waitHdr w)
  else
    let v : U32 := BitVec.ofNat 32 (leNat (viewRead d p n (waitHdr w) 4))
    let d := if waitLdcnt w then modCoreTask d pc fun t =>
        { t.touches (viewSpan n [(waitHdr w, 4)]) [] with cnt := tput t.cnt (waitCnt w) v }
      else d
    modCoreTask d pc fun u => if cSigEn w && !t.suppressed then { u with sb := sigOf w u.sb }.advance else u.advance

/-- WAIT: passes, or holds the issue of what follows. -/
def wait (n : Nat) (w : Cmd) (d : Dev) : Dev :=
  match issueNext d n 8 w with
  | none => d
  | some (pc, t) =>
    if interlocked d t w then d
    else if t.suppressed || decide (counterOf d t w ≥ waitThr w) then passWait d pc n t w
    else modCoreTask d pc fun t => { t with holding := some w }

def execWait (n : Nat) (w : BitVec 128) (s : State) := onTile n (wait n w) s

/-- WAIT_SATISFIED. -/
def waitSatisfied (n : Nat) (d : Dev) : Dev :=
  match issuer d n with
  | none => d
  | some (pc, t) =>
    match t.holding with
    | none => d
    | some w => if counterOf d t w ≥ waitThr w then passWait d pc n t w else d

def execWaitSatisfied (n : Nat) (s : State) := onTile n (waitSatisfied n) s

/-- SIG, once every earlier command has completed. -/
def sig (n : Nat) (w : Cmd) (d : Dev) : Dev :=
  match issueNext d n 9 w with
  | none => d
  | some (pc, t) =>
    if !t.idle then d
    else if t.suppressed then modCoreTask d pc Task.advance
    else
      let d := modCounter d pc t.part w fun v => if sigSet w then sigVal w else v + sigVal w
      modCoreTask d pc fun t => { t with sb := sigOf w t.sb, effects := logBit t.effects t.ip }.advance

def execSig (n : Nat) (w : BitVec 128) (s : State) := onTile n (sig n w) s

/-- DIGEST SET. -/
def digestSet (n : Nat) (w : Cmd) (d : Dev) : Dev :=
  match issueNext d n 0x10 w with
  | none => d
  | some (pc, _) =>
    if digFlush w then d
    else
      let x : DigestCtx := ⟨digAccum w, digLayer w, digTensor w, digRow w, digCol w⟩
      controlDone (modCoreTask d pc fun t => { t with dig := x }) pc w

def execDigestSet (n : Nat) (w : BitVec 128) (s : State) := onTile n (digestSet n w) s

/-- DIGEST FLUSH (R84, R398, R399). -/
def digestFlush (n : Nat) (w : Cmd) (d : Dev) : Dev :=
  match issueNext d n 0x10 w with
  | none => d
  | some (pc, t) =>
    if !digFlush w then d
    else if t.suppressed then modCoreTask d pc Task.advance
    else
      let v := tgetD (d.part t.part).accum (digAccum w) 0
      let e : DigestEntry := ⟨stepKey d t, digLayer w, digTensor w, digAccum w, n, v, d.time.now⟩
      let d := d.modPart t.part fun x => { x with
        dlog := lastN (2 ^ x.dlogLog2) (x.dlog ++ [e]), dlogWritten := x.dlogWritten + 1, accum := tput x.accum (digAccum w) 0 }
      modCoreTask d pc fun t => { t with sb := sigOf w t.sb, effects := logBit t.effects t.ip }.advance

def execDigestFlush (n : Nat) (w : BitVec 128) (s : State) := onTile n (digestFlush n w) s

/-- END: every earlier command complete, no engine operation left that signals the scoreboard. -/
def endTask (n : Nat) (w : Cmd) (d : Dev) : Dev :=
  match issueNext d n 0x3F w with
  | none => d
  | some (pc, t) =>
    if !t.idle ∨ willSignal d t.part n then d
    else
      let d := retireTask d pc sOk
      if (d.part t.part).holding then settleCore d pc else d

def execEndTask (n : Nat) (w : BitVec 128) (s : State) := onTile n (endTask n w) s

/-! ### Engine commands (R77) -/

/-- An accepted engine command: its bit is set at once and, in order, it completes (R415). -/
def portAccepted (d : Dev) (pc : Nat) (x : InFlight) : Dev :=
  modCoreTask d pc fun t => completePort { t with
    port := t.port ++ [{ x with half := true }], effects := logBit t.effects x.idx }.advance

/-- GATE_PUSH: into the Gate Unit's command queue (R94, R97). -/
def gatePush (n : Nat) (w : Cmd) (d : Dev) : Dev :=
  match issueTo d n 0xC w .port with
  | none => d
  | some (pc, t) =>
    if t.suppressed then modCoreTask d pc Task.advance
    else if (tget d.gate.descs (256 * t.part + gpSlot w)).isNone then stopTask d pc sProgFault
    else if d.gate.queue.length ≥ 64 then d
    else
      let x := flight d t w none
      let d := { d with gate := { d.gate with queue := d.gate.queue ++ [⟨t.part, n, t.sub, t.ip, w⟩] } }
      modCoreTask d pc fun t => { t with port := t.port ++ [x] }.advance

def execGatePush (n : Nat) (w : BitVec 128) (s : State) := onTile n (gatePush n w) s

/-- The partition's DRAM and fabric Weirs admit a command of an engine (R366). -/
def weirsAdmit (d : Dev) (p : Nat) : Bool := weirOk d p 0 && weirOk d p 2

/-- Sluice admits an XCHG of partition p, from any core (R127, R366). -/
def xchgAdmits (d : Dev) (_ p : Nat) (_ : Cmd) : Bool := slcFits d p && weirsAdmit d p

/-- OP of the collective descriptor that a COLL on logical core n names. -/
def collOp (d : Dev) (n p : Nat) (w : Cmd) : Nat := ldOp (BitVec.ofNat 512 (leNat (viewRead d p n (engDesc w) 64)))

/-- Rill admits a COLL of partition p on logical core n; a BARRIER moves no bytes that a Weir counts (R236, R366). -/
def collAdmits (d : Dev) (n p : Nat) (w : Cmd) : Bool :=
  collRoom d p (collComm w) && (collOp d n p w == opBarrier || weirsAdmit d p)

/-- The partition whose command of an engine stands at issue on logical core n and could be taken: `admits` looks at
the core, the partition and the command. -/
def offered (d : Dev) (op : Nat) (admits : Nat → Nat → Cmd → Bool) (n : Nat) : Option Nat :=
  (issuer d n).bind fun y =>
    match (programOf d y.2.part y.2.prog).bind fun g => g.cmds[y.2.ip]? with
    | some w => if (issueTo d n op w .port).isSome && !y.2.suppressed && admits n y.2.part w then some y.2.part else none
    | none => none

/-- The partition whose command an engine takes next, of those that stand at issue (R365). -/
def portTurn (d : Dev) (op : Nat) (admits : Nat → Nat → Cmd → Bool) (last used : Nat) : Option Nat :=
  let ps := (List.range d.grade.lcores).filterMap (offered d op admits)
  nextPart d ps.contains last used

/-- The logical cores whose command was held at issue, in order of arrival, and which still stand there. -/
def stillHeld (d : Dev) (op : Nat) (ns : List Nat) : List Nat := ns.filter fun n => (offered d op (fun _ _ _ => true) n).isSome

/-- The command of core n is the first of its partition to have arrived, of those that could be taken (R365). -/
def firstCome (d : Dev) (op : Nat) (admits : Nat → Nat → Cmd → Bool) (held : List Nat) (n p : Nat) : Bool :=
  ((stillHeld d op held).find? fun m => offered d op admits m == some p).all (· == n)

/-- Core n joins those held at issue. -/
def joinHeld (d : Dev) (op : Nat) (held : List Nat) (n : Nat) : List Nat :=
  let ns := stillHeld d op held
  if ns.contains n then ns else ns ++ [n]

/-- The descriptor of an engine's command lies in the view, and none of the words at `from_` that the engine must read is
lost; otherwise the task ends with PROGRAM_FAULT, and a loss is reported (R61, R92, R161, R238, R418). -/
def engCheck (d : Dev) (pc n : Nat) (t : Task) (w : Cmd) (from_ bytes : Nat) : Option Dev :=
  if !rangesOk d t w then some (stopTask d pc sProgFault)
  else (viewLoss d t.part n [(engDesc w + from_, bytes)]).map fun o =>
    stopTask (lossHere d t.part pc (winBase + 0x1000000 * n + o)) pc sProgFault

/-- XCHG: Sluice takes the descriptor when it has a place for the exchange (R126, R132). EXCH_ID and DONE_SEM lie in its
second word. -/
def xchg (kind n : Nat) (w : Cmd) (d : Dev) : Dev :=
  match issueTo d n 0xD w .port with
  | none => d
  | some (pc, t) =>
    if xchgKind w ≠ kind then d
    else if t.suppressed then modCoreTask d pc Task.advance
    else match engCheck d pc n t w 8 8 with
    | some d => d
    | none =>
    if !xchgAdmits d n t.part w ∨ portTurn d 0xD (xchgAdmits d) d.slc.lastPart d.slc.used ≠ some t.part ∨
        !firstCome d 0xD (xchgAdmits d) d.slc.held n t.part then
      { d with slc := { d.slc with held := joinHeld d 0xD d.slc.held n } }
    else
      let used := usedNow d d.slc.lastPart d.slc.used t.part
      let x := flight d t w none
      let d := { d with slc := { d.slc with lastPart := t.part, used := used, held := d.slc.held.filter (· != n) } }
      portAccepted (xchgPost d t.part n t.sub (engDesc w) kind) pc x

def execDispatch (n : Nat) (w : BitVec 128) (s : State) := onTile n (xchg 0 n w) s
def execCombine (n : Nat) (w : BitVec 128) (s : State) := onTile n (xchg 1 n w) s

/-- COLL: Rill takes a descriptor of operation `op` when the communicator has a place for it (R235 to
R239). A descriptor whose OP is reserved is refused by the engine whichever command names it. -/
def coll (op n : Nat) (w : Cmd) (d : Dev) : Dev :=
  match issueTo d n 0xE w .port with
  | none => d
  | some (pc, t) =>
    if t.suppressed then modCoreTask d pc Task.advance
    else match engCheck d pc n t w 0 56 with
    | some d => d
    | none =>
      let o := collOp d n t.part w
      if o ≠ op ∧ o < 6 then d
      else if !collAdmits d n t.part w ∨ portTurn d 0xE (collAdmits d) d.rill.lastPart d.rill.used ≠ some t.part ∨
          !firstCome d 0xE (collAdmits d) d.rill.held n t.part then
        { d with rill := { d.rill with held := joinHeld d 0xE d.rill.held n } }
      else
        let used := usedNow d d.rill.lastPart d.rill.used t.part
        let x := flight d t w none
        let d := { d with rill := { d.rill with lastPart := t.part, used := used, held := d.rill.held.filter (· != n) } }
        portAccepted (collPost d t.part n t.sub (engDesc w) (collComm w)) pc x

def execAllReduce (n : Nat) (w : BitVec 128) (s : State) := onTile n (coll 0 n w) s
def execReduceScatter (n : Nat) (w : BitVec 128) (s : State) := onTile n (coll 1 n w) s
def execAllGather (n : Nat) (w : BitVec 128) (s : State) := onTile n (coll 2 n w) s
def execBroadcast (n : Nat) (w : BitVec 128) (s : State) := onTile n (coll 3 n w) s
def execAllToAll (n : Nat) (w : BitVec 128) (s : State) := onTile n (coll 4 n w) s
def execBarrier (n : Nat) (w : BitVec 128) (s : State) := onTile n (coll 5 n w) s

end Sys2Proof.Machine
end

