-- ==== Sys2Proof/Machine/Barrier.lean ====
section
/-! DEFINITION. The step barrier, the sequencer's vote and commit, the job barrier, snapshots, and the orders of a
replay (R78, R283 to R285, R420, R421, R478 to R480). -/

namespace Sys2Proof.Machine

def modBarrier (d : Dev) (p : Nat) (f : Barrier → Barrier) : Dev :=
  d.modPart p fun x => { x with barrier := x.barrier.map f }

def findJob (d : Dev) (p : Nat) : Option Job := d.mgr.jobs.find? fun j => j.part == p

def modJob (d : Dev) (p : Nat) (f : Job → Job) : Dev :=
  { d with mgr := { d.mgr with jobs := updFirst (fun j => j.part == p) f d.mgr.jobs } }

/-! ### Orders of a replay (R421) -/

/-- The buddy of a member: the next member of its pod in rank order, the first for the last (R475). -/
def buddyOf (ms : List DevId) (x : DevId) : DevId :=
  let pod := ms.filter fun m => devPod m == devPod x
  match pod.findIdx? (· == x) with
  | some i => pod.getD ((i + 1) % pod.length) x
  | none => x

/-- A valid snapshot joins the reports; the device has written over what it reported of the same generation. -/
def addReport (j : Job) (r : SnapReport) : Job :=
  { j with reports := (j.reports.filter fun x => !(x.gen == r.gen && x.dev == r.dev)) ++ [r] }

/-- A snapshot release begins: each member writes over the generation that is not its newest. -/
def newestOnly (rs : List SnapReport) : List SnapReport :=
  rs.filter fun r => rs.all fun x => x.dev != r.dev || decide (x.step.toNat ≤ r.step.toNat)

/-- A generation of the same step is valid on every member. -/
def onEvery (j : Job) (r : SnapReport) : Bool :=
  j.members.all fun m => j.reports.any fun x => x.dev == m && x.step == r.step

/-- The newest step of which a generation is valid on every member. A lost member's reports stand for its buddy's copy
and pass to the spare that takes its rank (`reassign`). -/
def replayPoint (j : Job) : Option SnapReport :=
  (j.reports.filter (onEvery j)).foldl (fun b r => match b with
    | some x => if x.step.toNat < r.step.toNat then some r else b
    | none => some r) none

/-- The reports of each rank follow it to the device that holds it now. -/
def reassign (before after : List DevId) (rs : List SnapReport) : List SnapReport :=
  rs.map fun r => match before.findIdx? (· == r.dev) with
    | some k => { r with dev := after.getD k r.dev }
    | none => r

/-- A replay of partition p's job that runs. -/
def replayOf (p : Nat) (r : Recovery) : Bool := r.part == some p && (r.cls == 0x08 || r.cls == 0x0A)

/-- A job that ends with INTERNAL leaves nothing of itself on a member: its submissions end, whatever they wait for, and
no barrier is gathered any more (R409). -/
def jobEnds (d : Dev) (p : Nat) : Dev :=
  let d := { d with mgr := { d.mgr with launches := d.mgr.launches.filter fun l => l.part != p } }
  abortAll (d.modPart p fun x => { x with
    job := 0, barrier := none, gather := none, lastArrive := none, lastCol := none, lastRack := none }) p (some (BitVec.ofNat 8 sInternal))

/-- The step counter that a record of the job names: of the snapshot that it goes back to, else the device's own. -/
def jobStep (d : Dev) (j : Job) : Nat := ((replayPoint j).map (·.step.toNat)).getD (d.part j.part).step.toNat

/-- A job that no mechanism can go on with ends with INTERNAL, on every member (R409, R421); `since` is when the fault
was found. -/
def jobFails (d : Dev) (j : Job) (cls : Nat) (unit : DevId) (since : Nat) : Dev :=
  let d := { d with rec_ := { d.rec_ with running := d.rec_.running.filter fun r => !replayOf j.part r } }
  let d := recoveryEvent d sInternal cls (some j.part) 4 unit.toNat (usSince d since) (jobStep d j)
  let d := toMembers d j (.jobFailed j.id)
  let d := if j.members.contains (myId d) then jobEnds d j.part else d
  { d with mgr := { d.mgr with jobs := d.mgr.jobs.filter fun y => y.id != j.id } }

/-- The order of a member to go back to step `step`: its own generation of that step, and the seeds of its header. -/
def restoreOrder (j : Job) (step : U64) (buddy : Option DevId) (lost spare x : DevId) : Option Mgmt :=
  (j.reports.find? fun r => r.dev == x && r.step == step).map fun r =>
    .snapshotRestore j.part r.gen step r.seeds buddy lost spare

/-- The arrivals of the broken step, and of the last one released, are no longer gathered; nor is any report kept of a
generation that the members have left behind. -/
def replayFrom (step : U64) (j : Job) : Job :=
  let seen := match j.past with
    | s :: _ => [s, s + 1]
    | [] => []
  { j with
    replaying := true, arrivals := none, reports := j.reports.filter (·.step == step)
    past := (seen ++ j.arrivals.toList.map (·.1)).eraseDups.filter (· != step) }

/-- The host of the manager is asked for the input batches from the step on (R421, log 82). -/
def askBatches (d : Dev) (step : U64) : Dev :=
  sendEvent d { code := 0x05, mailbox := 0, status := sOk, tag := 0, data := toLe 8 step.toNat, source := srcManager }

/-- Every member is ordered to the snapshot; `lost` and `spare` are equal when no member is replaced. A spare gets its
order when it has acknowledged its set-up (`launchAck`). -/
def orderReplay (d : Dev) (j : Job) (cls : Nat) (lost spare : DevId) (since : Nat) : Dev :=
  match replayPoint j with
  | none => jobFails d j cls lost since
  | some r =>
    let old := j.members.filter fun x => lost == spare || x != spare
    let d := old.foldl (fun d x => match restoreOrder j r.step none lost spare x with
      | some m => sendMgmt d x m
      | none => d) d
    let d := askBatches (modJob d j.part (replayFrom r.step)) r.step
    let r : Recovery := ⟨cls, some j.part, if lost = spare then 0xFFFF else lost.toNat, since⟩
    { d with rec_ := { d.rec_ with running := d.rec_.running ++ [r] } }

/-- The first release after a replay ends it: the records are written, with the step resumed from, and the deputy
is told (R423, R424). -/
def replayOver (d : Dev) (j : Job) (step : U64) : Dev :=
  if !j.replaying then d
  else
    let d := (d.rec_.running.filter (replayOf j.part)).foldl (fun d r =>
      recoveryEvent d sRecovered r.cls r.part 4 r.unit (usSince d r.since) step.toNat) d
    let d := { d with rec_ := { d.rec_ with running := d.rec_.running.filter fun r => !replayOf j.part r } }
    if j.deputy = myId d then d else sendMgmt d j.deputy (.launch j.id 0 0 j.spec j.subst j.deputy)

/-- A replay of class REPLAY on the same devices. -/
def replayJob (d : Dev) (p : Nat) : Dev :=
  match findJob d p with
  | some j => orderReplay d j 0x0A 0 0 d.time.now
  | none => d

/-! ### The job barrier (R478 to R480) -/

/-- Members of the job of partition p, as its root or as a member knows them. -/
def jobMembers (d : Dev) (p : Nat) : List DevId :=
  let own := (launchOf d p).map launchMembers
  (match findJob d p with
  | some j => if role d = 1 then j.members else own.getD j.members
  | none => own.getD []).filter (· != noDev)

def barrierCell (d : Dev) (dest : DevId) (p kind : Nat) (and_ pause snap : Bool) (count : Nat) (step : U64) : Cell :=
  mkCell d dest 0 tyBarrier p 0 0 (.bits (pack 512
    [(0, kind), (2, b2n and_), (3, b2n pause), (4, b2n snap), (32, count % 65536), (64, step.toNat)]))

def sendArrive (d : Dev) (dest : DevId) (p : Nat) (step : U64) (count : Nat) (and_ : Bool) : Dev :=
  route d (barrierCell d dest p 0 and_ false false count step)

def modGather (d : Dev) (p : Nat) (f : Gather → Gather) : Dev :=
  d.modPart p fun x => { x with gather := x.gather.map f }

/-- An arrival or release of another step is discarded and logged (R479). -/
def logBarrier (d : Dev) (p : Nat) (src : DevId) (step : U64) : Dev :=
  logOp d sevNotice (some p) srcManager sMismatch 0 src.toNat 0 step.toNat

/-- Total COUNT and AND of the arrivals of the named senders; none while one is missing. -/
def gathered (held : List (DevId × Nat × Bool)) : List DevId → Option (Nat × Bool)
  | [] => some (0, true)
  | x :: xs =>
    match held.find? (fun e => e.1 == x), gathered held xs with
    | some e, some r => some (e.2.1 + r.1, e.2.2 && r.2)
    | _, _ => none

/-- The AND travels back along the path of the arrivals: 1 is a release, 0 is none (R283, R285). -/
def passRelease (d : Dev) (p : Nat) (ms : List DevId) (and_ pause snap : Bool) (step : U64) : Dev :=
  let me := myId d
  let dests := (if ms.contains me && relayOf ms me == me then collectorsIn ms me else []) ++
    (if ms.contains me && collectorOf ms me == me then columnOf ms me else [])
  (dests.filter (· != me)).foldl (fun d x => route d (barrierCell d x p 1 and_ pause snap 0 step)) d

/-- A member takes a release: it waits out its skew delay. -/
def takeRelease (d : Dev) (p : Nat) (and_ pause snap : Bool) (step : U64) : Dev :=
  let x := d.part p
  if x.step ≠ step then d
  else modBarrier d p fun b => if b.release.isSome then b else { b with release := some (and_, pause, snap) }

/-- The release of a step is a snapshot release when EVERY divides the commits from the launch's STEP to it; a replayed
step is marked as it was the first time (R420, log 82). -/
def snapMark (j : Job) (step : U64) : Bool :=
  let n := (step - spStep j.spec).toNat
  spSnap j.spec && spEvery j.spec != 0 && n != 0 && n % spEvery j.spec == 0

/-- The members of a job that are devices. -/
def liveMembers (j : Job) : List DevId := j.members.filter (· != noDev)

/-- The root's AND goes to the relays, and along its own path where it is a member. -/
def rootAnswer (d : Dev) (p : Nat) (j : Job) (step : U64) (and_ pause snap : Bool) : Dev :=
  let me := myId d
  let ms := liveMembers j
  let d := ((relaysOf ms).filter (· != me)).foldl (fun d x => route d (barrierCell d x p 1 and_ pause snap 0 step)) d
  if ms.contains me ∧ relayOf ms me = me then
    let d := d.modPart p fun x => { x with gather := none }
    takeRelease (passRelease d p ms and_ pause snap step) p and_ pause snap step
  else d

/-- The root has every arrival: it releases; or it answers the AND of 0, which releases nothing, and starts a replay
(R283, R285, R480, log 75). -/
def rootReady (d : Dev) (p : Nat) (j : Job) (step : U64) (and_ : Bool) : Dev :=
  if !and_ then replayJob (rootAnswer d p j step false false false) p
  else
    let snap := snapMark j step
    let d := modJob d p fun j => { j with
      past := [step], arrivals := none, pauseMark := false, pausing := j.pausing || j.pauseMark, replaying := false
      reports := if snap then newestOnly j.reports else j.reports }
    rootAnswer (replayOver d j step) p j step true j.pauseMark snap

/-- Every rack has arrived. -/
def rootSettle (d : Dev) (p : Nat) : Dev :=
  match findJob d p with
  | none => d
  | some j => match j.arrivals with
    | none => d
    | some (step, held) =>
      if role d ≠ 1 ∨ !j.launched then d
      else match gathered held (relaysOf (liveMembers j)) with
        | some a => rootReady d p j step a.2
        | none => d

/-- The arrival of a rack at the root (R478, R479). A step released before is discarded. A new root does not know which
steps those are: where one rack is a step further than another, the old root had released the step between, and the
release goes out again. -/
def rootArrive (d : Dev) (p : Nat) (src : DevId) (step : U64) (count : Nat) (and_ : Bool) : Dev :=
  match findJob d p with
  | none => d
  | some j =>
    let again (s : U64) : Dev := rootAnswer d p j s true false (snapMark j s)
    let hold (d : Dev) (xs : List (DevId × Nat × Bool)) : Dev :=
      rootSettle (modJob d p fun j => { j with arrivals := some (step, xs ++ [(src, count, and_)]) }) p
    if j.past.contains step then d
    else match j.arrivals with
      | none => hold d []
      | some (s, xs) =>
        if s = step then if xs.any fun e => e.1 == src then d else hold d xs
        else if j.past.isEmpty ∧ step = s + 1 then hold (again s) []
        else if j.past.isEmpty ∧ s = step + 1 then again step
        else logBarrier d p src step

/-- What the arrivals held at this device complete: its column, its rack. -/
def gatherSettle (d : Dev) (p : Nat) : Dev :=
  let me := myId d
  let ms := jobMembers d p
  let isMem := ms.contains me
  let relay := relayOf ms me
  let rack (d : Dev) : Dev :=
    match (d.part p).gather with
    | none => d
    | some g =>
      if !isMem ∨ relay ≠ me ∨ !g.sentCol ∨ g.sentRack then d
      else match gathered g.from_ (columnOf ms me ++ (collectorsIn ms me).filter (· != me)) with
        | none => d
        | some (n, a) =>
          let man := if (findJob d p).isSome ∧ role d = 1 then me else jobMan (d.part p)
          let d := (modGather d p fun g => { g with sentRack := true }).modPart p fun x => { x with lastRack := some (g.step, n, a) }
          if man = me then rootArrive d p me g.step n a else sendArrive d man p g.step n a
  let col (d : Dev) : Dev :=
    match (d.part p).gather with
    | none => d
    | some g =>
      if !isMem ∨ collectorOf ms me ≠ me ∨ g.sentCol then d
      else match gathered g.from_ (columnOf ms me) with
        | none => d
        | some (n, a) =>
          let d := (modGather d p fun g => { g with sentCol := true }).modPart p fun x => { x with lastCol := some (g.step, n, a) }
          if relay = me then d else sendArrive d relay p g.step n a
  rack (col d)

/-- An arrival joins those gathered; a second one of its sender is discarded. -/
def gatherAdd (d : Dev) (p : Nat) (src : DevId) (step : U64) (count : Nat) (and_ : Bool) : Dev :=
  let g := ((d.part p).gather).getD ⟨step, [], false, false⟩
  if g.from_.any fun e => e.1 == src then d
  else
    let g' : Gather := { g with from_ := g.from_ ++ [(src, count, and_)] }
    gatherSettle (d.modPart p fun x => { x with gather := some g' }) p

/-- This device's own arrival goes to its column collector. -/
def ownArrival (d : Dev) (p : Nat) (step : U64) (and_ : Bool) : Dev :=
  let me := myId d
  let c := collectorOf (jobMembers d p) me
  if c = me then gatherAdd d p me step 1 and_ else sendArrive d c p step 1 and_

/-! ### The step barrier (R78, R283, R285) -/

/-- Every arrival of the step is counted. -/
def Barrier.full (b : Barrier) : Bool := decide (b.arrived.length ≥ b.participants)

/-- The barrier is job-wide. -/
def jobWide (x : Part) (b : Barrier) : Bool := b.job && jobValid x

/-- The barrier will not release, for a vote of 0 here or at another member: PHASE becomes FAILED, and the event is
counted once (R285). -/
def voteFailed (d : Dev) (p : Nat) : Dev :=
  if (d.part p).notReleased then d
  else (grdErr d p 3).modPart p fun x => { x with grdFailed := true, notReleased := true }

/-- Once arrivals and vote are in: the arrival goes to the job barrier, or a local vote of 0 stops the step. -/
def barrierUp (d : Dev) (p : Nat) : Dev :=
  let x := d.part p
  match x.barrier with
  | none => d
  | some b =>
    if !b.full ∨ (grdEn x ∧ x.vote.isNone) ∨ b.sentUp then d
    else
      let v := if grdEn x then x.vote.getD true else true
      let d := modBarrier d p fun b => { b with sentUp := true }
      if jobWide x b then
        let d := if v then d else voteFailed d p
        ownArrival (d.modPart p fun x => { x with lastArrive := some (x.step, v) }) p x.step v
      else if v then d
      else seqReport (voteFailed d p) p x.step.toNat

/-- STEP: the task arrives at the partition's step barrier and waits there. -/
def stepCmd (n : Nat) (w : Cmd) (d : Dev) : Dev :=
  match issueNext d n 0x11 w with
  | none => d
  | some (pc, t) =>
    let p := t.part
    let held := match (d.part p).barrier with
      | some b => b.arrived.contains n && t.replayStep == (d.part p).step
      | none => false
    if !t.idle then d
    else if t.suppressed then
      if held then modCoreTask d pc fun t => { t with atStep := true }
      else modCoreTask d pc fun t => { t.advance with replayStep := t.replayStep + 1 }
    else
      let b := ((d.part p).barrier).getD ⟨stepParts w, stepJob w, [], false, none, false⟩
      if b.participants ≠ stepParts w ∨ b.job ≠ stepJob w then stopTask d pc sProgFault
      else
        let d := modCoreTask d pc fun t => { t with atStep := true, effects := logBit t.effects t.ip }
        let b := { b with arrived := b.arrived ++ [n] }
        barrierUp (d.modPart p fun x => { x with barrier := some b }) p

def execStep (n : Nat) (w : BitVec 128) (s : State) := onTile n (stepCmd n w) s

/-! ### SEQUENCER_VOTE (R283) -/

/-- Every ACTIVE bucket is final for the step; an entry that cannot be read counts once it is. -/
def allFinal (d : Dev) (p : Nat) : Bool :=
  (List.range (grdCount (d.part p))).all fun i =>
    let fin := match bucketOf d p i with
      | some b => b.phase == .final
      | none => false
    if entryReadable d p i then !beActive (readEntry d p i) || fin else fin

def voteOf (x : Part) : Bool :=
  x.buckets.all fun b => !b.launched ||
    ((b.status.toNat == sOk || b.status.toNat == sRedone) && !(grdVeto x && b.flags / flNf % 2 == 1))

def sequencerVote (p : Nat) (d : Dev) : Dev :=
  let x := d.part p
  if !x.valid ∨ !grdEn x ∨ x.vote.isSome ∨ !allFinal d p then d
  else
    let v := voteOf x
    let d := d.modPart p fun x => { x with vote := some v, lastVote := v }
    barrierUp (if v then d else grdFlag d p 4096) p

def execSequencerVote (p : Nat) (s : State) := onDev (sequencerVote p) s

/-! ### COMMIT (R284) -/

/-- The firmware channel of engine p carries the bulk copies of partition p's commits and its snapshot traffic. -/
def snapChan (p : Nat) : Nat := 8 * p + 7

/-- A transfer of firmware for partition p joins the firmware channel: the engine takes it like a fetched descriptor,
and the command of its operation starts it (R337, R342, log 77). It stands in no ring; `mark`, in place of an address,
is the generation that a snapshot writes, or 2 for a promotion. The requests of a fabric transfer follow one another on
the channel's stream. -/
def firmwareTransfer (d : Dev) (p mark : Nat) (w : BitVec 512) (parts : List (BitVec 512)) : Dev :=
  let x : Desc := { part := p, addr := mark, w := w, step := (d.part p).step, started := false, done := false
                    halfDone := false, status := 0, cause := 0, flags := 0, moved := 0, parts := parts, outstanding := 0
                    acked := [], out := [] }
  loadEngine (modChan d (snapChan p) fun c => { c with fetched := c.fetched ++ [x] }) p

/-- A copy of n bytes on the firmware channel. -/
def firmwareCopy (d : Dev) (p mark src dst n : Nat) : Dev :=
  if n = 0 then d else firmwareTransfer d p mark (pack 512 [(0, 1), (64, src), (128, dst), (192, n)]) []

/-- Copies with one of these marks are under way on the firmware channel. -/
def copiesOut (d : Dev) (p : Nat) (marks : List Nat) : Bool :=
  (chanOf d (snapChan p)).fetched.any fun x => bdOp x.w == 1 && marks.contains x.addr

/-- The promotion copy of table entry i, where it is ACTIVE and promotes; one that can no longer be read, of a bucket
launched in this step, fails like a copy. -/
def promoteEntry (p : Nat) (acc : Bool × Dev) (i : Nat) : Bool × Dev :=
  let d := acc.2
  let a := entryAddr d p i
  if entryReadable d p i then
    let d := touched d p a 128
    let e := readEntry d p i
    if beActive e then (acc.1, firmwareCopy d p 2 (beStage e) (beLive e) (bePromote e)) else acc
  else if (bucketOf d p i).any (·.launched) then
    (false, if (poisonAt d p false a 128).isSome then lossAt d p a 128 else dataLoss (countDenied d a 128) (some p) 0 a 128)
  else acc

/-- After a failed promotion, the manager of a job of another class than TRAIN is told too (R284, R418). -/
def promoteFailed (d : Dev) (p : Nat) : Dev :=
  let d := d.modPart p fun x => { x with grdFailed := true }
  match jobManager d p with
  | some m => if (d.part p).cls = 1 then d else sendMgmt d m (.faultReport (.sequencer p))
  | none => d

/-- The barrier lets the sequencer commit: released with AND 1, or complete with a vote of 1. -/
def mayCommit (x : Part) : Bool :=
  match x.barrier with
  | none => false
  | some b =>
    if jobWide x b then b.released && (b.release.map (·.1)).getD false else b.full && x.vote == some true

/-- Every promotion copy has ended: retention is released, and COMMIT_SEM signalled when all were good. -/
def promotionEnd (d : Dev) (p : Nat) (good : Bool) : Dev :=
  let d := (releaseRetention d p none).modPart p fun x => { x with promoting := none }
  if good then
    (addSem d p (grdCommitSem (d.part p)) 1).modPart p fun x => { x with
      committed := true, commitStep := BitVec.ofNat 32 x.step.toNat }
  else promoteFailed d p

/-- The promotion copies of a step that reduced a bucket join the firmware channel, in ascending table index. -/
def promoteAll (d : Dev) (p : Nat) : Bool × Dev :=
  let x := d.part p
  if reductionStep x && x.buckets.any (·.launched) then (List.range (grdCount x)).foldl (promoteEntry p) (true, d) else (true, d)

/-- COMMIT: it begins the promotion copies, and comes again when they have ended; a commit without one ends at
once. -/
def commit (p : Nat) (d : Dev) : Dev :=
  let x := d.part p
  if !grdEn x ∨ x.committed ∨ x.grdFailed ∨ !mayCommit x then d
  else match x.promoting with
    | some good => if copiesOut d p [2] then d else promotionEnd d p good
    | none =>
      let (good, d) := promoteAll d p
      if copiesOut d p [2] then d.modPart p fun x => { x with promoting := some good } else promotionEnd d p good

def execCommit (p : Nat) (s : State) := onDev (commit p) s

/-! ### Snapshots (R420, R427 to R429) -/

def snEn (x : Part) : Bool := bit x.snap 0
def snBuddy (x : Part) : DevId := BitVec.ofNat 16 (fld x.snap 47 32)
def snNreg (x : Part) : Nat := fld x.snap 59 48
def snTable (x : Part) : Nat := fld x.snap 111 64

/-- A snapshot table entry: SRC, LEN, LOCAL, REMOTE (R428). -/
structure SnapReg where
  src : Nat
  len : Nat
  loc : Nat
  rem : Nat
  deriving DecidableEq, Repr

def snapRegs (d : Dev) (p : Nat) : List SnapReg :=
  let x := d.part p
  (List.range (snNreg x)).map fun i =>
    let w : BitVec 256 := readWord d p false 256 (snTable x + 32 * i)
    ⟨fld w 47 0, fld w 95 64, fld w 175 128, fld w 239 192⟩

/-- The snapshot table can be read. -/
def snapTableOk (d : Dev) (p : Nat) : Bool :=
  let n := 32 * snNreg (d.part p)
  okNew d p false (snTable (d.part p)) n && (poisonAt d p false (snTable (d.part p)) n).isNone

/-- The generation that the next snapshot writes: never the newest valid one (R420). -/
def otherGen (x : Part) : Nat :=
  match x.heads.getLast? with
  | some h => 1 - h.gen
  | none => 0

/-- The local copies of a snapshot release join the firmware channel. The generation that they overwrite is valid no
more. -/
def beginSnapshot (d : Dev) (p : Nat) : Dev :=
  let x := d.part p
  let g := otherGen x
  if !snapTableOk d p then
    let n := 32 * snNreg x
    (lossAt (noteDenied d p (snTable x) n) p (snTable x) n (snapChan p)).modPart p fun x => { x with copying := some false }
  else
    let d := touched d p (snTable x) (32 * snNreg x)
    let d := d.modPart p fun x => { x with copying := some true, heads := x.heads.filter (·.gen != g) }
    (snapRegs d p).foldl (fun d r => firmwareCopy d p g r.src (r.loc + g * r.len) r.len) d

/-- The local copies are made: what goes to the buddy is begun, with the header of the generation. The step counter
has advanced, so the header's step is the one to go on with (R420, R421). -/
def snapshotCopied (d : Dev) (p : Nat) (good : Bool) : Dev :=
  let d := d.modPart p fun x => { x with copying := none }
  if !good then d
  else
    let x := d.part p
    let g := otherGen x
    let regs := snapRegs d p
    let head : SnapHead := ⟨g, x.step, (List.range 4).map fun i => tgetD x.seeds i 0,
      regs.map fun r => BitVec.ofNat 64 (crc64 (readRange d p false (r.loc + g * r.len) r.len))⟩
    let base := (snBuddy x).toNat * 2 ^ 48
    let parts := regs.flatMap fun r => fabricParts 2 (r.len / 256 + 2) (base + r.rem + g * r.len) (r.loc + g * r.len) r.len
    firmwareTransfer (d.modPart p fun x => { x with snapHeld := some head }) p g (BitVec.ofNat 512 6) (parts ++ [fabricReq 7 0 0 0])

/-- The managers of p's job hear of its valid generations (R421, log 22). -/
def reportSnapshots (d : Dev) (p : Nat) (hs : List SnapHead) : Dev :=
  let x := d.part p
  let me := myId d
  if !jobValid x then d
  else hs.foldl (fun d h => [jobMan x, jobDep x].eraseDups.foldl (fun d m =>
    sendMgmt d m (.snapshotReport me p h.gen h.step h.seeds)) d) d

/-- SNAPSHOT_VALID: the buddy's copy is written, and the header follows, locally and at the buddy; with a failed write
the generation is not valid. -/
def snapshotValid (p : Nat) (d : Dev) : Dev :=
  let x := d.part p
  let ch := snapChan p
  match (chanOf d ch).fetched with
  | t :: rest =>
    if !t.done ∨ bdOp t.w ≠ 6 then d
    else
      let d := endActive (countEnd (modChan d ch fun c => { c with fetched := rest }) ch t) ch
      let d := d.modPart p fun x => { x with snapHeld := none }
      match x.snapHeld with
      | none => d
      | some h =>
        if t.status ≠ 0 then d
        else
          let d := d.modPart p fun x => { x with heads := x.heads.filter (·.gen != h.gen) ++ [h] }
          let table := readRange d p false (snTable x) (32 * snNreg x)
          reportSnapshots (sendMgmt d (snBuddy x) (.snapHeader (myId d) p h.gen h.step h.seeds h.crcs table)) p [h]
  | [] => d

def execSnapshotValid (p : Nat) (s : State) := onDev (snapshotValid p) s

/-! ### STEP_BARRIER_RELEASE (R78, R373) -/

/-- The release may be applied. -/
def mayRelease (x : Part) : Bool :=
  match x.barrier with
  | none => false
  | some b =>
    let up := if jobWide x b then b.released && (b.release.map (·.1)).getD false else b.full && (!grdEn x || x.vote == some true)
    up && (!grdEn x || (x.committed && !x.grdFailed))

/-- A waiting task goes past its STEP, with its signal. -/
def passStep (d : Dev) (p n : Nat) (w : Task → BitVec 128) : Dev :=
  modTask d p n fun t => if t.atStep then { t.advance with sb := sigOf (w t) t.sb, replayStep := t.replayStep + 1 } else t

/-- The release of the barrier, with its snapshot when one has been copied. -/
def releaseStep (d : Dev) (p : Nat) (b : Barrier) (pause : Bool) (copied : Option Bool) : Dev :=
  let x := d.part p
  let word (t : Task) : BitVec 128 := (((programOf d t.part t.prog).bind fun g => g.cmds[t.ip]?).getD 0)
  let d := b.arrived.foldl (fun d n => passStep d p n word) d
  let pausing := x.st == .pausing || (pause && x.st == .active)
  let d := d.modPart p fun x => { x with
    step := x.step + 1, barrier := none, buckets := [], vote := none, committed := false, notReleased := false
    st := if pausing then .pausing else x.st, atBoundary := x.atBoundary || pausing }
  let d := grdBoundary (kvStep d p) p
  let d := match copied with
    | some good => snapshotCopied d p good
    | none => d
  pauseBoundary p (d.cores.foldl (fun d c => replayEnded d c.1) d)

/-- A bit of a job-wide release that has arrived: AND, pause or snapshot. -/
def releaseSays (x : Part) (b : Barrier) (k : Bool × Bool × Bool → Bool) : Bool := jobWide x b && (b.release.map k).getD false

/-- STEP_BARRIER_RELEASE. A snapshot release begins the local copies and comes again when they have ended; until then
the tasks stand at STEP. It also waits for the write of the snapshot before (R420, log 82). -/
def stepBarrierRelease (p : Nat) (d : Dev) : Dev :=
  let x := d.part p
  if !mayRelease x then d
  else match x.barrier with
    | none => d
    | some b =>
      let pause := releaseSays x b (·.2.1)
      if !releaseSays x b (·.2.2) || !snEn x then releaseStep d p b pause none
      else if x.snapHeld.isSome then d
      else
        let d := if x.copying.isNone then beginSnapshot d p else d
        if copiesOut d p [0, 1] then d else releaseStep d p b pause (d.part p).copying

def execStepBarrierRelease (p : Nat) (s : State) := onDev (stepBarrierRelease p) s

/-! ### Barrier cells -/

/-- A rack's arrival is for the root; a column's or a member's is for the device that gathers it. -/
def forRoot (d : Dev) (p : Nat) (src : DevId) : Bool :=
  role d == 1 && src != myId d && (findJob d p).any fun j => (relaysOf (liveMembers j)).contains src

/-- BARRIER_ARRIVE at a collector, a relay or the root. -/
def barrierArrive (c : Cell) (d : Dev) : Dev :=
  let p := c.part.toNat
  let w := payBits c
  let step : U64 := BitVec.ofNat 64 (fld w 127 64)
  let x := d.part p
  if fld w 1 0 ≠ 0 ∨ !(jobMembers d p).contains c.src then d
  else if forRoot d p c.src then rootArrive d p c.src step (fld w 47 32) (bit w 2)
  else
    let expected := match x.gather, x.barrier with
      | some g, _ => some g.step
      | none, some b => some (if b.release.isSome then x.step + 1 else x.step)
      | none, none => if jobValid x then some x.step else none
    if expected.isSome ∧ expected ≠ some step then logBarrier d p c.src step
    else gatherAdd d p c.src step (fld w 47 32) (bit w 2)

def execBarrierArrive (port : Nat) (c : Cell) (s : State) := onDev (fun d => onCell d port c [tyBarrier] (barrierArrive c)) s

/-- BARRIER_RELEASE at a relay, a collector or a member. -/
def barrierRelease (c : Cell) (d : Dev) : Dev :=
  let p := c.part.toNat
  let w := payBits c
  let step : U64 := BitVec.ofNat 64 (fld w 127 64)
  let x := d.part p
  match x.barrier with
  | none => d
  | some b =>
    if fld w 1 0 ≠ 1 ∨ b.release.isSome then d
    else if x.step ≠ step then logBarrier d p c.src step
    else
      let ms := jobMembers d p
      let d := d.modPart p fun x => { x with gather := none }
      takeRelease (passRelease d p ms (bit w 2) (bit w 3) (bit w 4) step) p (bit w 2) (bit w 3) (bit w 4) step

def execBarrierRelease (port : Nat) (c : Cell) (s : State) := onDev (fun d => onCell d port c [tyBarrier] (barrierRelease c)) s

/-- RELEASE_DELAY: the member applies the release; one with AND 0 does not release (R285). -/
def releaseDelay (p : Nat) (d : Dev) : Dev :=
  match (d.part p).barrier.bind (·.release) with
  | none => d
  | some r =>
    if ((d.part p).barrier.map (·.released)).getD false then d
    else
      let d := modBarrier d p fun b => { b with released := true }
      if r.1 then d else voteFailed d p

def execReleaseDelay (p : Nat) (s : State) := onDev (releaseDelay p) s

end Sys2Proof.Machine
end

