-- ==== Sys2Proof/Machine/Tables.lean ====
section
/-! DEFINITION. What names a device of a job: placement, peer and member tables, GRD_SNAP.BUDDY and the launch record,
and how a member learns that a spare has taken a rank (R128, R234, R388, R419, R421, R427, R481). -/

namespace Sys2Proof.Machine

/-- Changes every placement table entry that a loaded Gate Descriptor of p reaches. -/
def modEpt (d : Dev) (p : Nat) (f : BitVec 128 → BitVec 128) : Dev :=
  (d.gate.descs.filter fun g => g.1 / 256 == p).foldl (fun d g =>
    let d := touched d p (gdEpt g.2) (16 * gdE g.2)
    (List.range (gdE g.2)).foldl (fun d i =>
      let a := gdEpt g.2 + 16 * i
      let e : BitVec 128 := readWord d p false 128 a
      if f e = e then d else writeRange d p false a (toLe 16 (f e).toNat)) d) d

/-- The places of an entry that hold a device. -/
def eptPlaces (e : BitVec 128) (dev : DevId) : List Nat :=
  (List.range 4).filter fun k => fld e (16 * k + 15) (16 * k) == dev.toNat

/-- The live bits of a lost device are cleared. -/
def eptUnlive (dev : DevId) (e : BitVec 128) : BitVec 128 := (eptPlaces e dev).foldl (fun e k => e &&& ~~~(1#128 <<< (64 + k))) e

/-- A spare stands in the place of a lost device. -/
def eptSpare (lost spare : DevId) (e : BitVec 128) : BitVec 128 :=
  (eptPlaces e lost).foldl (fun e k => merge (ones 128 (16 * k + 15) (16 * k)) e (BitVec.ofNat 128 (spare.toNat * 2 ^ (16 * k)))) e

/-- The peer tables (address and words) that the XCHG commands of p's loaded programs reach through their
descriptors in its views. -/
def peerTables (d : Dev) (p : Nat) : List (Nat × List Nat) :=
  let descs := ((d.part p).progs.flatMap fun g => g.2.cmds.filterMap fun w =>
    if cOp w = 0xD then some (engDesc w, xchgKind w) else none).eraseDups
  ((List.range 32).flatMap fun n => descs.filterMap fun a =>
    let x : BitVec 512 := BitVec.ofNat 512 (leNat (viewRead d p n a.1 64))
    if fld x 1 0 = a.2 ∧ viewOk d p a.1 64 then (peerWords d p x).map fun ws => (xdPeer x, ws) else none).eraseDups

/-- Their entries name the spare. -/
def repeer (d : Dev) (p : Nat) (lost spare : DevId) : Dev :=
  (peerTables d p).foldl (fun d t => let d := touched d p t.1 (4 * t.2.length); (t.2.mapIdx fun i w => (i, w)).foldl (fun d y =>
    if (peerOf y.2).1 = lost then writeRange d p false (t.1 + 4 * y.1) (toLe 2 spare.toNat) else d) d) d

/-- Member tables of p's communicators, its peer tables and its placement tables name the spare in place of the
lost device. -/
def retable (d : Dev) (p : Nat) (lost spare : DevId) : Dev :=
  let d := (d.part p).comms.foldl (fun d c =>
    let m := c.2
    if !cmValid m then d
    else
      let d := touched d p (cmMembers m) (2 * cmN m)
      (List.range (cmN m)).foldl (fun d i =>
      let a := cmMembers m + 2 * i
      if readNat d p a 2 = lost.toNat then writeRange d p false a (toLe 2 spare.toNat) else d) d) d
  modEpt (repeer d p lost spare) p (eptSpare lost spare)

/-- A serving job's members route around a lost device. -/
def unlive (d : Dev) (dev : DevId) : Dev :=
  (d.mgr.launches.filter fun l => l.created && !spSnap l.spec && (launchMembers l).contains dev).foldl (fun d l =>
    modEpt d l.part (eptUnlive dev)) d

/-- The rack-memory requests to the partition that a spare has created are numbered from 0, in both directions (R220). -/
def restartPeer (d : Dev) (p : Nat) (spare : DevId) : Dev :=
  if devRack spare ≠ rackNum d ∨ spare = noDev then d
  else
    let k := seqKey (devPos spare) p
    { d with rm := { d.rm with seqOut := tdel d.rm.seqOut k, seqIn := tdel d.rm.seqIn k } }

/-- GRD_SNAP.BUDDY and the generations held for a lost member follow its rank to the spare. -/
def rebuddy (d : Dev) (p : Nat) (lost spare : DevId) : Dev :=
  d.modPart p fun x => { x with
    snap := if snBuddy x = lost then merge (ones 128 47 32) x.snap (pack 128 [(32, spare.toNat)]) else x.snap
    mirrors := x.mirrors.map fun m => if m.dev = lost then { m with dev := spare } else m }

/-- The members change at one rank, as a member of the job sees it. A serving job's placement tables lose the live bits
of the lost device, and name the spare at its places (R419). -/
def replaceIn (d : Dev) (l : Launch) (lost spare : DevId) : Dev :=
  let p := l.part
  if spSnap l.spec then restartPeer (rebuddy d p lost spare) p spare
  else
    let d := modEpt d p (eptUnlive lost)
    if spare = noDev then d else restartPeer (retable d p lost spare) p spare

def modLaunch (d : Dev) (id : U64) (f : Launch → Launch) : Dev :=
  { d with mgr := { d.mgr with launches := updFirst (fun l => l.id == id) f d.mgr.launches } }

/-- A member learns which spares have taken ranks of a job (R476, R481). -/
def adopt (d : Dev) (id : U64) (subst : List (Nat × DevId)) : Dev :=
  match launchById d id with
  | none => d
  | some l =>
    if subst.length ≤ l.subst.length ∨ !l.created then d
    else
      let changed := ((launchMembers l).zip (membersOf l.spec subst)).filter fun x => x.1 != x.2
      changed.foldl (fun d x => replaceIn d l x.1 x.2) (modLaunch d id fun l => { l with subst := subst })

end Sys2Proof.Machine
end

