-- ==== Sys2Proof/Machine/Launch.lean ====
section
/-! DEFINITION. Job launch: what a receiver of a launch cell does, and the manager's rounds (R473 to R477); the job
pause and resume (R480). -/

namespace Sys2Proof.Machine

/-! ### GRD_SNAP (R427) -/

def snapMask : BitVec 128 := ones 128 16 0 ||| ones 128 59 32 ||| ones 128 111 64

/-- A write of GRD_SNAP; ignored and logged when BUDDY lies outside the pod or the table outside the quota. -/
def snapWrite (d : Dev) (p : Nat) (v : BitVec 128) : Dev :=
  let v := v &&& snapMask
  let buddy : DevId := BitVec.ofNat 16 (fld v 47 32)
  if devPod buddy ≠ devPod (myId d) ∨ fld buddy 15 14 ≠ 0 ∨ !okNew d p false (fld v 111 64) (32 * fld v 59 48) ∨
      fld v 68 64 ≠ 0 then logIgnored d srcRecovery (.grdSnap p false) v.toNat
  else d.modPart p fun x => { x with snap := v }

/-! ### A receiver's set-up and its undoing (R475, R477) -/

/-- Sets the step counter and the four seeds. -/
def setStepSeeds (d : Dev) (p : Nat) (step : U64) (seeds : List U64) : Dev :=
  d.modPart p fun x => { x with step := step, seeds := seeds.mapIdx fun i v => (i, v) }

/-- Steps 2 to 5 of R475 at a member: the failing status, or the device set up. -/
def launchSetup (d : Dev) (id : U64) (man dep : DevId) (spec : List Byte) (ms : List DevId) : Nat ⊕ Dev :=
  let p := spPart spec
  let made : Nat ⊕ Dev :=
    if spCreate spec then
      match partCreate d p (spBody spec) with
      | .inl (st, _) => .inl st
      | .inr (_, d) => .inr d
    else if (d.part p).valid then .inr d
    else .inl sBadField
  match made with
  | .inl st => .inl st
  | .inr d =>
    if !quiet d p then .inl sBusy
    else
      let me := myId d
      let rank := (ms.findIdx? (· == me)).getD 0
      let d := setStepSeeds d p (spStep spec) ((List.range 4).map (spSeed spec))
      let d := if spSnap spec then
          snapWrite d p (pack 128 [(0, 1), (1, spEvery spec), (32, (buddyOf ms me).toNat), (48, spNreg spec), (64, spTable spec)])
        else d
      .inr (d.modPart p fun x => { x with job := partJob rank ms.length man dep id })

/-- The set-up, with the record that the receiver keeps of the launch. -/
def launchJoin (d : Dev) (id : U64) (man dep : DevId) (spec : List Byte) (subst : List (Nat × DevId)) : Dev × Launch :=
  let p := spPart spec
  let x := d.part p
  let ms := membersOf spec subst
  let l : Launch := { id := id, part := p, spec := spec, subst := subst, created := true, open_ := false, status := 0
                      manager := man, oldStep := x.step, oldSeeds := x.seeds, oldSnap := x.snap }
  let (d, l) := match launchSetup d id man dep spec ms with
    | .inl st => (d, { l with created := false, status := BitVec.ofNat 8 st })
    | .inr d => (d, l)
  ({ d with mgr := { d.mgr with launches := d.mgr.launches.filter (fun y => y.id != id) ++ [l] } }, l)

/-- A partition is taken out at once, whatever its cores do. -/
def dropPartition (d : Dev) (p : Nat) : Dev :=
  let mine (c : Core) : Bool := c.holder == some p || (c.task.map (·.part)) == some p ||
    (match c.handover with
     | some h => h.outPart == some p || h.inPart == some p
     | none => false)
  let d := beginDestroy d p
  let d := { d with cores := d.cores.map fun c => (c.1,
      if mine c.2 then { c.2 with task := none, holder := none, handover := none, sram := [], st := if c.2.st = .failed then .failed else .idle }
      else c.2) }
  finishDestroy d p

/-- The launch is undone at a receiver, and LAUNCHED tells its host. -/
def launchUndo (d : Dev) (l : Launch) : Dev :=
  let p := l.part
  let d := { d with mgr := { d.mgr with launches := d.mgr.launches.filter fun y => y.id != l.id } }
  if !l.created then d
  else (if spCreate l.spec then dropPartition d p else d).modPart p fun x => { x with
    step := l.oldStep, seeds := l.oldSeeds, snap := if spCreate l.spec then x.snap else l.oldSnap, job := 0 }

def launchedEvent (d : Dev) (p : Nat) (id : U64) (status : Nat) : Dev :=
  sendEvent d { code := 0x07, mailbox := p + 1, status := status, id := id.toNat, part := some p, source := srcManager
                sev := if status = sOk then sevInfo else sevError }

/-! ### The tree as a receiver sees it -/

def launchList (l : Launch) : List DevId := spawnList (launchMembers l) l.manager

/-- Passes a message of the manager to the receiver's children. -/
def passDown (d : Dev) (l : Launch) (m : Nat → DevId → Mgmt) : Dev :=
  let ls := launchList l
  match ls.findIdx? (· == myId d) with
  | some j => toChildren d l.manager ls j m
  | none => d

def rankIn (ms : List DevId) (x : DevId) : Nat := (ms.findIdx? (· == x)).getD 0

/-- The launch cell for position k. -/
def launchMsg (id : U64) (spec : List Byte) (subst : List (Nat × DevId)) (dep : DevId) (k : Nat) (x : DevId) : Mgmt :=
  .launch id k (rankIn (membersOf spec subst) x) spec subst dep

/-- A deputy's copy of a job (R477); a new substitute in a launched job says that a replay runs, and the same copy
again that none does. -/
def deputyCopy (d : Dev) (id : U64) (spec : List Byte) (subst : List (Nat × DevId)) : Dev :=
  let ms := membersOf spec subst
  let spares := (spSpares spec).filter fun s => !(subst.map (·.2)).contains s
  if d.mgr.jobs.any (·.id == id) then
    { d with mgr := { d.mgr with jobs := updFirst (·.id == id) (fun j => { j with
        subst := subst, members := ms, reports := reassign j.members ms j.reports, spares := spares, replaced := subst.length
        replaying := j.launched && spSnap spec && subst != j.subst }) d.mgr.jobs } }
  else
    let j : Job := { id := id, part := spPart spec, spec := spec, members := ms, spares := spares, subst := subst
                     replaced := subst.length, acked := [], rounds := 1, status := 0, badPos := none, launched := false
                     req := ⟨0, 0, 0⟩, noevt := true, pauseMark := false, pausing := false, paused := [], resumeAsked := false
                     replaying := false, past := [], arrivals := none, reports := [], fresh := [], deputy := 0 }
    { d with mgr := { d.mgr with jobs := d.mgr.jobs ++ [j] } }

/-- LAUNCH_CELL: forwarded, set up, acknowledged; at position 0 it is the deputy's copy. -/
def launchCell (c : Cell) (id : U64) (pos : Nat) (spec : List Byte) (subst : List (Nat × DevId)) (dep : DevId) (d : Dev) : Dev :=
  let man := c.src
  if pos = 0 then (if role d = 2 then deputyCopy d id spec subst else d)
  else
    let ls := spawnList (membersOf spec subst) man
    let d := toChildren d man ls pos (launchMsg id spec subst dep)
    match launchById d id with
    | some l => sendMgmt (modLaunch (adopt d id subst) id fun l => { l with manager := man }) man (.launchAck id pos l.status)
    | none =>
      let (d, l) := launchJoin d id man dep spec subst
      sendMgmt d man (.launchAck id pos l.status)

def execLaunchCell (port : Nat) (c : Cell) (s : State) :=
  onDev (fun d => onMgmt d port c true fun m => match m with
    | .launch id pos _ spec subst dep => some (launchCell c id pos spec subst dep)
    | _ => none) s

/-! ### The manager's rounds (R476, R477) -/

def findJobId (d : Dev) (id : U64) : Option Job := d.mgr.jobs.find? fun j => j.id == id

def modJobId (d : Dev) (id : U64) (f : Job → Job) : Dev :=
  { d with mgr := { d.mgr with jobs := updFirst (fun j => j.id == id) f d.mgr.jobs } }

/-- DATA of the manager's LAUNCHED event. -/
def launchedData (d : Dev) (j : Job) : List Byte :=
  let dev := match j.badPos with
    | some k => ((jobList d j).getD k 0).toNat
    | none => 0xFFFF
  toLe 20 (packNat [(0, j.id.toNat), (64, j.members.length % 65536), (80, j.replaced % 65536), (96, dev), (112, j.status.toNat),
    (128, j.rounds % 2 ^ 32)])

def managerEvent (d : Dev) (j : Job) (status : Nat) : Dev :=
  sendEvent d { code := 0x07, mailbox := 0, status := status, tag := j.req.tag.toNat, id := j.id.toNat, data := launchedData d j
                sev := if status = sOk then sevInfo else sevError, source := srcManager, dest := some (j.req.session, j.noevt) }

/-- Positions that have not acknowledged. -/
def unacked (d : Dev) (j : Job) : List Nat :=
  (List.range (jobList d j).length).filter fun k => k != 0 && !j.acked.contains k && (jobList d j).getD k 0 != noDev

/-- LAUNCH_ABORT: every member undoes the launch. -/
def launchFails (d : Dev) (id : U64) (status : Nat) : Dev :=
  match findJobId d id with
  | none => d
  | some j =>
    let d := toMembers d j (.launchAbort id (BitVec.ofNat 8 status) j.subst)
    let d := match launchById d id with
      | some l => launchedEvent (launchUndo d l) l.part id status
      | none => d
    let d := managerEvent d j status
    { d with mgr := { d.mgr with jobs := d.mgr.jobs.filter fun y => y.id != id } }

/-- A member's launch is open: it tells its host and takes work. -/
def launchOpen (d : Dev) (id : U64) : Dev :=
  match launchById d id with
  | none => d
  | some l =>
    if l.open_ ∨ !l.created then d
    else
      let d := { d with mgr := { d.mgr with launches := updFirst (fun y => y.id == id) (fun y => { y with open_ := true }) d.mgr.launches } }
      launchedEvent d l.part id sOk

/-- Every position has acknowledged: the launch is complete. -/
def launchSettle (d : Dev) (id : U64) : Dev :=
  match findJobId d id with
  | none => d
  | some j =>
    if j.launched ∨ !(unacked d j).isEmpty then d
    else
      let d := modJobId d id fun j => { j with launched := true }
      let d := toMembers d j (.launchDone id j.subst)
      managerEvent (launchOpen d id) j sOk

/-- The launch cell of every position still unacknowledged is sent again. -/
def resendLaunch (d : Dev) (id : U64) : Dev :=
  match findJobId d id with
  | none => d
  | some j =>
    let ls := jobList d j
    (unacked d j).foldl (fun d k => let x := ls.getD k 0; sendMgmt d x (launchMsg id j.spec j.subst j.deputy k x)) d

/-- The first round: the deputy's copy, the tree, and the manager's own set-up. -/
def launchStart (d : Dev) (id : U64) : Dev :=
  match findJobId d id with
  | none => d
  | some j =>
    let me := myId d
    let d := if j.deputy = me then d else sendMgmt d j.deputy (.launch id 0 0 j.spec j.subst j.deputy)
    let d := toChildren d me (jobList d j) 0 (launchMsg id j.spec j.subst j.deputy)
    if j.members.contains me ∧ (launchById d id).isNone then
      let (d, l) := launchJoin d id me j.deputy j.spec j.subst
      if l.created then launchSettle d id
      else launchFails (modJobId d id fun j => { j with badPos := some 0, status := l.status }) id l.status.toNat
    else launchSettle d id

/-! ### Spares (R476, R481) -/

/-- The spare with the lowest device ID in the lost member's pod. -/
def drawSpare (d : Dev) (j : Job) (lost : DevId) : Option DevId :=
  (j.spares.filter fun s => devPod s == devPod lost && !d.rec_.lost.contains s).foldl (fun (b : Option DevId) s => match b with
    | some y => if s.toNat < y.toNat then some s else some y
    | none => some s) none

/-- The spare takes the lost member's rank and has its set-up to acknowledge, and the deputy's copy follows. -/
def substitute (d : Dev) (j : Job) (lost spare : DevId) : Dev :=
  let rank := rankIn j.members lost
  let pos := ((jobList d j).findIdx? (· == lost)).getD 0
  let ms := j.members.set rank spare
  let d := modJobId d j.id fun j => { j with
    subst := j.subst ++ [(rank, spare)], members := ms, reports := reassign j.members ms j.reports
    spares := j.spares.filter (· != spare), replaced := if spare = noDev then j.replaced else j.replaced + 1
    acked := j.acked.filter (· != pos), fresh := j.fresh.filter (·.1 != lost)
    paused := if j.pausing then j.paused.filter (· != lost) ++ [spare] else j.paused }
  match findJobId d j.id with
  | some j => if j.deputy = myId d then d else sendMgmt d j.deputy (.launch j.id 0 0 j.spec j.subst j.deputy)
  | none => d

/-- The members learn of a change to their list over the tree. -/
def tellMembers (d : Dev) (id : U64) : Dev :=
  match findJobId d id with
  | some j => toMembers d j (.launchDone id j.subst)
  | none => d

/-- The device whose rank a drawn spare took. -/
def tookFrom (j : Job) (spare : DevId) : DevId :=
  match j.subst.findIdx? fun x => x.2 == spare with
  | some i => (membersOf j.spec (j.subst.take i)).getD (j.subst.getD i (0, 0)).1 0
  | none => spare

/-- A spare that a launched job drew has acknowledged its set-up: it takes work from then on, and its order in a replay
that runs. One that cannot be set up ends a job that replays, and leaves its rank empty in another (R409, R421, R481). -/
def spareReady (d : Dev) (j : Job) (spare : DevId) (pos : Nat) (status : Byte) : Dev :=
  if !(j.subst.map (·.2)).contains spare ∨ j.acked.contains pos then d
  else if status ≠ 0 then
    if spSnap j.spec then jobFails d j 0x08 spare d.time.now
    else tellMembers (substitute d j spare noDev) j.id
  else
    let d := sendMgmt (modJobId d j.id fun j => { j with acked := j.acked ++ [pos] }) spare (.launchDone j.id j.subst)
    match if j.replaying then replayPoint j else none with
    | some r => match restoreOrder j r.step (some (buddyOf j.members spare)) (tookFrom j spare) spare spare with
      | some m => sendMgmt d spare m
      | none => d
    | none => d

/-- LAUNCH_ACK: a failing status ends the launch. The launch that a deputy could not take over ends at its members with
INTERNAL (R477). -/
def launchAck (c : Cell) (id : U64) (pos : Nat) (status : Byte) (d : Dev) : Dev :=
  match findJobId d id with
  | none => sendMgmt d c.src (.launchAbort id (BitVec.ofNat 8 sInternal) [])
  | some j =>
    if role d ≠ 1 ∨ (jobList d j).getD pos 0 ≠ c.src ∨ pos = 0 then d
    else if j.launched then spareReady d j c.src pos status
    else if status ≠ 0 then launchFails (modJobId d id fun j => { j with badPos := some pos, status := status }) id status.toNat
    else launchSettle (modJobId d id fun j => { j with acked := if j.acked.contains pos then j.acked else j.acked ++ [pos] }) id

/-- A message that only a manager takes; elsewhere it is discarded and counted (R472). -/
def atManager (g : Dev → Dev) (d : Dev) : Dev := if role d = 1 then g d else fabErr d 3

def execLaunchAck (port : Nat) (c : Cell) (s : State) :=
  onDev (fun d => onMgmt d port c false fun m => match m with
    | .launchAck id pos st => some (atManager (launchAck c id pos st))
    | _ => none) s

/-- LAUNCH_TIMEOUT: the silent members are probed (R412), in a new round; and a drawn spare that has not acknowledged. -/
def launchTimeout (id : U64) (d : Dev) : Dev :=
  match findJobId d id with
  | none => d
  | some j =>
    if role d ≠ 1 then d
    else
      let ls := jobList d j
      let d := if j.launched then d else modJobId d id fun j => { j with rounds := j.rounds + 1 }
      (unacked d j).foldl (fun d k => escalate d (ls.getD k 0) true) d

def execLaunchTimeout (id : U64) (s : State) := onDev (launchTimeout id) s

/-- LAUNCH_DONE at a receiver, or at the deputy. It names the members as they now are. -/
def launchDone (id : U64) (subst : List (Nat × DevId)) (d : Dev) : Dev :=
  let d := if role d = 2 then modJobId d id fun j => { j with launched := true, acked := List.range (j.members.length + 1) } else d
  let d := adopt d id subst
  match launchById d id with
  | none => d
  | some l => launchOpen (passDown d l fun _ _ => .launchDone id subst) id

def execLaunchDone (port : Nat) (c : Cell) (s : State) :=
  onDev (fun d => onMgmt d port c true fun m => match m with
    | .launchDone id subst => some (launchDone id subst)
    | _ => none) s

/-- LAUNCH_ABORT at a receiver, or at the deputy. -/
def launchAbort (id : U64) (status : Byte) (subst : List (Nat × DevId)) (d : Dev) : Dev :=
  let d := if role d = 2 then { d with mgr := { d.mgr with jobs := d.mgr.jobs.filter fun j => j.id != id } } else d
  let d := adopt d id subst
  match launchById d id with
  | none => d
  | some l =>
    if l.open_ then d
    else
      let d := passDown d l fun _ _ => .launchAbort id status subst
      launchedEvent (launchUndo d l) l.part id status.toNat

/-- A launched job has ended with INTERNAL: at a member, or at the deputy (R409). -/
def jobFailed (id : U64) (d : Dev) : Dev :=
  let d := if role d = 2 then { d with mgr := { d.mgr with jobs := d.mgr.jobs.filter fun j => j.id != id } } else d
  match launchById d id with
  | none => d
  | some l => jobEnds (passDown d l fun _ _ => .jobFailed id) l.part

def execLaunchAbort (port : Nat) (c : Cell) (s : State) :=
  onDev (fun d => onMgmt d port c true fun m => match m with
    | .launchAbort id st subst => some (launchAbort id st subst)
    | .jobFailed id => some (jobFailed id)
    | _ => none) s

/-! ### Pause and resume of a job (R374, R375, R480) -/

/-- A PAUSED partition returns to ACTIVE; RESUMED tells those who asked (R375). -/
def resumePart (d : Dev) (p : Nat) : Dev :=
  let x := d.part p
  if x.st ≠ .paused then d
  else
    let asked := x.resumeReq
    let ctxs := x.ctxs.map fun c => (c.1, { c.2 with paused := false })
    let d := d.modPart p fun x => { x with st := .active, resumeReq := [], pauseAtRelease := false, ctxs := ctxs }
    let d := modChansOf d p fun c => if c.state = .paused then { c with state := .running } else c
    asked.foldl (fun d r => sendEvent d
      { code := 0x05, mailbox := p + 1, status := sOk, tag := r.1.tag.toNat, data := toLe 8 x.step.toNat
        part := some p, source := srcSched, dest := some (r.1.session, r.2) }) d

/-- Once every member has reported PAUSED, a RESUME that was asked for goes out. -/
def jobResumeSettle (d : Dev) (p : Nat) : Dev :=
  match findJob d p with
  | none => d
  | some j =>
    if !j.resumeAsked ∨ !((liveMembers j).all j.paused.contains) then d
    else
      let d := modJob d p fun j => { j with resumeAsked := false, pausing := false, paused := [] }
      let d := toMembers d j (.resume p j.subst)
      if j.members.contains (myId d) then resumePart d p else d

def execJobPauseRequest (port : Nat) (c : Cell) (s : State) :=
  onDev (fun d => onMgmt d port c false fun m => match m with
    | .pauseRequest p => some (atManager fun d => modJob d p fun j =>
        if j.members.contains c.src && !j.pausing then { j with pauseMark := true } else j)
    | _ => none) s

def execJobResumeRequest (port : Nat) (c : Cell) (s : State) :=
  onDev (fun d => onMgmt d port c false fun m => match m with
    | .resumeRequest p => some (atManager fun d =>
        jobResumeSettle (modJob d p fun j => if j.members.contains c.src then { j with resumeAsked := true } else j) p)
    | _ => none) s

/-- A member has paused. To a new root it also says that the release under way, or the last one, was a pausing one. -/
def pausedBy (src : DevId) (j : Job) : Job :=
  if !j.members.contains src ∨ j.paused.contains src then j
  else { j with
    paused := j.paused ++ [src], pausing := j.pausing || !j.past.isEmpty, pauseMark := j.pauseMark || (!j.pausing && j.past.isEmpty) }

def execPausedReport (port : Nat) (c : Cell) (s : State) :=
  onDev (fun d => onMgmt d port c false fun m => match m with
    | .pausedReport p => some (atManager fun d => jobResumeSettle (modJob d p (pausedBy c.src)) p)
    | _ => none) s

/-- JOB_RESUME at a member. It names the members as they now are. -/
def jobResume (p : Nat) (subst : List (Nat × DevId)) (d : Dev) : Dev :=
  let d := match launchOf d p with
    | some l => adopt d l.id subst
    | none => d
  match launchOf d p with
  | none => d
  | some l => sendMgmt (resumePart (passDown d l fun _ _ => .resume p subst) p) l.manager (.resumeAck p)

def execJobResume (port : Nat) (c : Cell) (s : State) :=
  onDev (fun d => onMgmt d port c true fun m => match m with
    | .resume p subst => some (jobResume p subst)
    | _ => none) s

end Sys2Proof.Machine
end

