-- ==== Sys2Proof/Machine/Recovery.lean ====
section
/-! DEFINITION. Fault recovery: a failed core and the replay of its task, probing and link faults, lost devices,
fencing, the manager and its deputy, and the orders a member gets in a replay (R408 to R424, R471, R482). -/

namespace Sys2Proof.Machine

/-! ### Cores (R413 to R416) -/

/-- What a failed core leaves of a task: bytes of control-space MOVs that were accepted are kept (R415). -/
def strand (t : Task) : Task :=
  let cut := (t.mover0 ++ t.mover1).filter fun x => movOut x.w && decide (x.accepted > 0)
  { t with partials := cut.foldl (fun m x => tput m x.idx x.accepted) t.partials }

/-- A GATE_PUSH that the Gate Unit has not accepted goes with its core. -/
def withdrawPushes (d : Dev) (t : Task) (lcore : Nat) : Dev :=
  let mine (u : Push) : Bool := u.part == t.part && u.sub == t.sub && u.lcore == lcore
  { d with gate := { d.gate with queue := d.gate.queue.filter fun u => !mine u } }

/-- The task ends with INTERNAL, and an INTERNAL event says so, of the core on which the recovery began (R409). -/
def coreLost (d : Dev) (origin : Nat) (t : Option Task) : Dev :=
  let me := myId d
  let mine (r : Recovery) : Bool := r.cls == 1 && r.unit == origin
  let us := ((d.rec_.running.find? mine).map fun r => usSince d r.since).getD 0
  let d := { d with rec_ := { d.rec_ with running := d.rec_.running.filter fun r => !mine r } }
  let d := match t with
    | some t =>
      let d := grdNoTasks (recoveryEvent d sInternal 0x01 (some t.part) 1 origin us 0) t.part
      taskRetired d t.part t.sub t.entry sInternal
    | none => recoveryEvent d sInternal 0x01 none 1 origin us 0
  (jobManagers d).foldl (fun d m => sendMgmt d m (.faultReport (.selfFault me))) d

/-- CORE_FAIL of a physical core. -/
def coreFail (pc : Nat) (d : Dev) : Dev :=
  let c := d.core pc
  if c.st = .fused ∨ c.st = .failed ∨ (tget d.cores pc).isNone then d
  else
    let t := c.task.map strand
    let d := d.modCore pc fun c => { c with
      st := .failed, lcore := none, holder := none, sram := [], plane0 := {}, plane1 := {}, acc0 := {}, acc1 := {}, task := none
      handover := none, recovering := none }
    match c.lcore with
    | none => d
    | some n =>
      let d := match t with
        | some t => withdrawPushes d t n
        | none => d
      match d.cores.find? fun x => x.2.st == .spare with
      | none => coreLost d (c.recovering.getD pc) t
      | some (sp, _) =>
        let origin := c.recovering.getD pc
        let known := d.rec_.running.any fun r => r.cls == 1 && r.unit == origin
        let r : Recovery := ⟨1, match t with | some t => some t.part | none => c.holder, origin, d.time.now⟩
        let d := if known then d else { d with rec_ := { d.rec_ with running := d.rec_.running ++ [r] } }
        let d := { d with sched := { d.sched with
          preempting := d.sched.preempting.map fun (x : Nat × U32 × Nat × Nat) => if x.2.2.2 = pc then (x.1, x.2.1, x.2.2.1, sp) else x } }
        d.modCore sp fun s => { s with
          st := .waking, lcore := some n, part := c.part, holder := c.holder, sram := c.sram, task := t, recovering := some origin }

def execCoreFail (pc : Nat) (s : State) := onLive (coreFail pc) s

/-- CORE_HANG: a unit that holds a handshake open fails its core (R413). -/
def coreHang (pc : Nat) (u : CoreUnit) (d : Dev) : Dev :=
  match (d.core pc).task with
  | some t => if (t.unit u).isEmpty then d else coreFail pc d
  | none => d

def execCoreHang (pc : Nat) (u : CoreUnit) (s : State) := onDev (coreHang pc u) s

/-- The task as a replay starts it (R416). -/
def replayTask (t : Task) : Task :=
  { t with
    ip := t.start, cnt := t.args.mapIdx fun i a => (8 + i, a), dig := {}, loader := [], array := [], drain := [], vector := []
    mover0 := [], mover1 := [], port := [], holding := none, atStep := false
    replay := if t.effects.isEmpty then none else some (t.effects.foldl max 0), replayStep := t.stepAtStart }

/-- The effect log holds the task (R415). -/
def logHolds (t : Task) : Bool := decide (t.count ≤ 4194304)

/-- The view is lost: it reads as zero, and R418 reports it. -/
def viewGone (d : Dev) (pc p n : Nat) : Dev :=
  dataLoss ((d.modCore pc fun c => { c with sram := [] }).modPart p fun x => { x with viewBad := tdel x.viewBad n }) (some p) pc
    (winBase + 0x1000000 * n) (d.part p).viewSize

/-- A recovering core's task that cannot be replayed ends with INTERNAL. -/
def replayNot (d : Dev) (pc n : Nat) (t : Task) : Dev :=
  let d := viewGone d pc t.part n
  retireTask (d.modCore pc fun c => { c with st := .running, recovering := none }) pc sInternal

/-- REPLAY_START: the spare is awake and holds the view; a task that was running is replayed. The copy of a view
with an uncorrectable word loses the view (R414). -/
def replayStart (pc : Nat) (copyFailed : Bool) (d : Dev) : Dev :=
  let c := d.core pc
  let viewLost := copyFailed || (match c.holder, c.lcore with
    | some p, some n => !(tgetD (d.part p).viewBad n []).isEmpty
    | _, _ => false)
  match c.recovering, c.lcore with
  | some origin, some n =>
    if c.st ≠ .waking then d
    else match c.task with
      | none =>
        let d := match c.holder with
          | some p => if viewLost then viewGone d pc p n else d
          | none => d
        settleCore (recoveryDone (d.modCore pc fun c => { c with st := .idle }) pc) pc
      | some t =>
        let lose (d : Dev) : Dev := match c.holder with
          | some p => if viewLost then viewGone d pc p n else d
          | none => d
        let mine (r : Recovery) : Bool := r.cls == 1 && r.unit == origin
        let drop (d : Dev) : Dev :=
          let us := match d.rec_.running.find? mine with
            | some r => usSince d r.since
            | none => 0
          recoveryEvent { d with rec_ := { d.rec_ with running := dropFirst mine d.rec_.running } } sInternal 0x01 (some t.part) 1 origin us 0
        if c.holder ≠ some t.part then
          beginTask (abortWaiting (recoveryDone ((lose d).modCore pc fun c => { c with st := .idle }) pc) pc) pc
        else if t.stopped.isSome then
          retireTask ((lose d).modCore pc fun c => { c with st := .running }) pc ((t.stopped.map (·.toNat)).getD sInternal)
        else if viewLost then drop (replayNot d pc n t)
        else if !logHolds t then
          drop (replayNot { d with sched := { d.sched with noReplay := satAdd d.sched.noReplay 1 } } pc n t)
        else if !bit d.sched.recovCfg 16 then drop (replayNot d pc n t)
        else
          let d := { d with sched := { d.sched with replays := satAdd d.sched.replays 1 } }
          replayEnded (d.modCore pc fun c => { c with
            st := .running, task := some (replayTask t), plane0 := {}, plane1 := {}, acc0 := {}, acc1 := {} }) pc
  | _, _ => d

def execReplayStart (pc : Nat) (viewLost : Bool) (s : State) := onDev (replayStart pc viewLost) s

/-! ### Fencing (R226, R482) -/

/-- The rack's epoch as this manager knows it. -/
def rackEpoch (d : Dev) (rack : Nat) : BitVec 4 :=
  tgetD d.mgr.epochs rack (if rack = rackNum d then BitVec.ofNat 4 (fld d.fab.epoch 3 0) else 0)

/-- Whom a fence tells: the rack's other devices, the block's outside it, and F itself. -/
def fenceTargets (d : Dev) (f : DevId) (rejoin : Bool) : List DevId :=
  let rack := (List.range 64).map fun q => BitVec.ofNat 16 (64 * devRack f + q)
  let rest := if rejoin then [] else (podDevices (blockFirst d) (blockPods d)).filter fun x => devRack x != devRack f
  (rack ++ rest).filter fun x => !d.rec_.lost.contains x

/-- The oldest waiting fence of a rack that is not cooling goes out; a rejoin advances no epoch. -/
def fenceNext (d : Dev) (rack : Nat) : Dev :=
  let k (f : Fencing) : Bool := devRack f.dev == rack && !f.started
  match d.mgr.fences.find? k with
  | none => d
  | some f =>
    if !f.rejoin ∧ d.mgr.cooling.contains rack then d
    else
      let e := if f.rejoin then rackEpoch d rack else rackEpoch d rack + 1
      let dests := fenceTargets d f.dev f.rejoin
      let g := { f with started := true, epoch := e, waiting := dests }
      let d := { d with mgr := { d.mgr with
        fences := updFirst k (fun _ => g) d.mgr.fences, epochs := tput d.mgr.epochs rack e
        cooling := if f.rejoin then d.mgr.cooling else d.mgr.cooling ++ [rack] } }
      dests.foldl (fun d x => sendMgmt d x (.fence f.dev e f.rejoin)) d

/-- A fence is asked for, by a command or by a device's loss. -/
def fenceAsk (d : Dev) (f : DevId) (rejoin : Bool) (req : Option ReqId) : Dev :=
  let x : Fencing := ⟨f, rejoin, 0, [], req, false⟩
  fenceNext { d with mgr := { d.mgr with fences := d.mgr.fences ++ [x] } } (devRack f)

/-- A fence that every reachable device has acknowledged is done, and its command answered. -/
def fenceSettle (d : Dev) : Dev :=
  let fin := d.mgr.fences.filter fun f => f.started && f.waiting.isEmpty
  let d := { d with mgr := { d.mgr with fences := d.mgr.fences.filter fun f => !(f.started && f.waiting.isEmpty) } }
  fin.foldl (fun d f => match f.req.bind fun r => d.host.reqs.find? fun q => q.id == r with
    | some r => respondOk d r []
    | none => d) d

/-- FAB_EPOCH.CUR, or CUR and FLOOR. -/
def setCur (d : Dev) (e : BitVec 4) : Dev :=
  { d with fab := { d.fab with epoch := merge (ones 32 3 0) d.fab.epoch (BitVec.ofNat 32 e.toNat) } }

def setFloor (d : Dev) (e : BitVec 4) : Dev :=
  { d with fab := { d.fab with epoch := merge (ones 32 7 4) d.fab.epoch (BitVec.ofNat 32 (16 * e.toNat)) } }

def setFenced (d : Dev) (f : DevId) (on : Bool) : Dev :=
  let m : BitVec 64 := BitVec.ofNat 64 (2 ^ devPos f)
  { d with rm := { d.rm with fenced := if on then d.rm.fenced ||| m else d.rm.fenced &&& ~~~m } }

/-- Every operation with a lost or fenced device ends (R164, R224, R258). -/
def endWith (d : Dev) (f : DevId) : Dev := seqPumpAll (rillFenceDevice (slcFenceDevice (rmFenceDevice d f) f) f)

/-- A deputy keeps the rack's epoch, and that it has just advanced, as the manager does (R482). -/
def deputySees (d : Dev) (rack : Nat) (e : BitVec 4) : Dev :=
  let cooling := if d.mgr.cooling.contains rack then d.mgr.cooling else d.mgr.cooling ++ [rack]
  { d with mgr := { d.mgr with epochs := tput d.mgr.epochs rack e, cooling := cooling } }

/-- FENCE at a device. -/
def fenceCell (c : Cell) (f : DevId) (e : BitVec 4) (rejoin : Bool) (d : Dev) : Dev :=
  let d := { d with rec_ := { d.rec_ with reported := d.rec_.reported.filter (· != f) } }
  let d := if role d = 2 ∧ !rejoin then deputySees d (devRack f) e else d
  let d :=
    if f = myId d then
      if rejoin then
        let d := setFloor (setCur d e) e
        ((List.range 16).filter fun p => jobValid (d.part p)).foldl dropPartition d
      else setFloor d e
    else if devRack f = rackNum d then
      if rejoin then setFenced d f false else unlive (endWith (setFenced (setCur d e) f true) f) f
    else if rejoin then d
    else unlive (endWith d f) f
  sendMgmt d c.src (.fenceAck f)

def execFence (port : Nat) (c : Cell) (s : State) :=
  onDev (fun d => onMgmt d port c true fun m => match m with
    | .fence f e rejoin => some (fenceCell c f e rejoin)
    | _ => none) s

/-- FENCE_ACK at the manager. -/
def fenceAck (src f : DevId) (d : Dev) : Dev :=
  fenceSettle { d with mgr := { d.mgr with
    fences := updFirst (fun x => x.dev == f && x.started) (fun x => { x with waiting := x.waiting.filter (· != src) }) d.mgr.fences } }

def execFenceAck (port : Nat) (c : Cell) (s : State) :=
  onDev (fun d => onMgmt d port c false fun m => match m with
    | .fenceAck f => some (atManager (fenceAck c.src f))
    | _ => none) s

/-- FENCE_EPOCH_WAIT: 10 ms after the rack's epoch advanced. Devices that have not acknowledged a fence are probed, since
only reachable ones are waited for. -/
def fenceEpochWait (rack : Nat) (d : Dev) : Dev :=
  if !d.mgr.cooling.contains rack then d
  else
    let d := fenceNext { d with mgr := { d.mgr with cooling := dropFirst (· == rack) d.mgr.cooling } } rack
    if role d ≠ 1 then d
    else (d.mgr.fences.flatMap (·.waiting)).eraseDups.foldl (fun d x => escalate d x true) d

def execFenceEpochWait (rack : Nat) (s : State) := onDev (fenceEpochWait rack) s

/-! ### Lost devices (R412, R419, R421, R476, R481) -/

/-- The launch cells of a job go over the tree to every member, with the members as they now are. -/
def relaunchAll (d : Dev) (id : U64) : Dev :=
  match findJobId d id with
  | none => d
  | some j => (treeRoots d j).foldl (fun d k =>
      toChildren d (myId d) (jobList d j) k (launchMsg j.id j.spec j.subst j.deputy)) d

/-- A snapshot later than the step is valid at this member. -/
def reportedAfter (j : Job) (x : DevId) (step : U64) : Bool := j.reports.any fun r => r.dev == x && decide (step.toNat < r.step.toNat)

/-- No good copy of the lost member's snapshot is left, or of its buddy member's: the buddy is lost, or one of the two is
a spare whose first snapshot is not yet valid at its buddy (R421, R423). -/
def copyGone (d : Dev) (j : Job) (lost : DevId) : Bool :=
  let buddy := buddyOf j.members lost
  buddy == lost || d.rec_.lost.contains buddy ||
  (j.fresh.any fun f => (f.1 == buddy && !reportedAfter j lost f.2) || (buddyOf j.members f.1 == lost && !reportedAfter j f.1 f.2))

/-- A launched job loses a member. One that keeps snapshots replays with a spare; in a serving job the others' replicas
take over, and a spare, where the pod has one, is set up at the lost rank (R419, R421, R481). -/
def jobLoses (d : Dev) (j : Job) (lost : DevId) (since : Nat) : Dev :=
  if !spSnap j.spec then
    let d := recoveryEvent d sRecovered 0x07 (some j.part) 4 lost.toNat (usSince d since) (jobStep d j)
    match drawSpare d j lost with
    | some s => relaunchAll (substitute d j lost s) j.id
    | none => tellMembers (substitute d j lost noDev) j.id
  else if copyGone d j lost then jobFails d j 0x08 lost since
  else match drawSpare d j lost, replayPoint j with
    | some s, some r =>
      let d := modJobId (substitute d j lost s) j.id fun j => { j with fresh := j.fresh ++ [(s, r.step)] }
      match findJobId d j.id with
      | none => d
      | some j =>
        let k := ((jobList d j).findIdx? (· == s)).getD 0
        orderReplay (sendMgmt d s (launchMsg j.id j.spec j.subst j.deputy k s)) j 0x08 lost s since
    | _, _ => jobFails d j 0x08 lost since

/-- A launch loses a member: its spare, which has not acknowledged, or NO_RESOURCE (R476, R477). -/
def launchLoses (d : Dev) (j : Job) (lost : DevId) : Dev :=
  match drawSpare d j lost with
  | none => launchFails d j.id sNoResource
  | some s => resendLaunch (substitute d j lost s) j.id

/-- The jobs handle a device as lost; `since` is when its loss was first suspected. -/
def jobsLose (d : Dev) (lost : DevId) (since : Nat) : Dev :=
  (d.mgr.jobs.filter fun j => j.members.contains lost && lost != myId d).foldl (fun d j =>
    if j.launched then jobLoses d j lost since else launchLoses d j lost) d

/-- The manager itself is to be lost: its deputy takes over, and with no deputy its jobs and launches end with INTERNAL
(R409, R422, R477). -/
def selfLost (d : Dev) (since : Nat) : Dev :=
  let me := myId d
  if peerDev d ≠ me then sendMgmt d (peerDev d) (.faultReport (.selfFault me))
  else d.mgr.jobs.foldl (fun d j => if j.launched then jobFails d j 0x08 me since else launchFails d j.id sInternal) d

/-- The manager declares a device lost, with a CRITICAL entry, and fences it unless a fence of it waits already (R412,
R524). -/
def deviceLost (d : Dev) (lost : DevId) (since : Nat) : Dev :=
  if lost = myId d then selfLost d since
  else if d.rec_.lost.contains lost then jobsLose d lost since
  else
    let d := logOp d sevCritical none srcRecovery sInternal 0 lost.toNat 0 0
    let d := { d with rec_ := { d.rec_ with lost := d.rec_.lost ++ [lost], probes := d.rec_.probes.filter fun x => x.peer != lost } }
    let d := { d with mgr := { d.mgr with fences := d.mgr.fences.map fun f => { f with waiting := f.waiting.filter (· != lost) } } }
    let d := if d.mgr.fences.any fun f => f.dev == lost && !f.rejoin then d else fenceAsk d lost false none
    fenceSettle (jobsLose d lost since)

/-! ### Probes (R412) -/

/-- MGMT_PROBE is answered, whoever asks. -/
def execMgmtProbe (port : Nat) (c : Cell) (s : State) :=
  onDev (fun d => onMgmt d port c false fun m => match m with
    | .probe _ => some fun d => sendMgmt d c.src (.probeAnswer (myId d))
    | _ => none) s

/-- The paths inside the rack to a peer. -/
def rackPaths (d : Dev) (peer : DevId) : List (List Nat) :=
  let me := myPos d
  let dst := devPos peer
  let dimX := posX me != posX dst
  (match stepTo me dst dimX with
   | some n => [[me, n, dst]]
   | none => []) ++ detours me dst dimX

/-- A lane retrain that does not end in service has failed: its record says INTERNAL (R411, R424). -/
def laneFailed (d : Dev) (n : Nat) : Dev :=
  let mine (r : Recovery) : Bool := r.cls == 4 && r.unit == n
  match d.rec_.running.find? mine with
  | some r =>
    recoveryEvent { d with rec_ := { d.rec_ with running := d.rec_.running.filter fun r => !mine r } }
      sInternal 4 none 0 n (usSince d r.since) 0
  | none => d

/-- A link between two positions goes out of service where the table still shows it in service. -/
def pairOut (d : Dev) (a b : Nat) : Dev :=
  if a = b then d
  else
    let p := pairPort a b
    [p, p + 1].foldl (fun d q =>
      if linkState d a q ≥ 2 then d
      else if a = myPos d then laneFailed (setPort d (portFor d q) fun x => portReset x .errors) (portFor d q)
      else { d with fab := { d.fab with links := tput d.fab.links (28 * a + q) 2 } }) d

def pathOut (d : Dev) : List Nat → Dev
  | a :: b :: t => pathOut (pairOut d a b) (b :: t)
  | _ => d

/-- The exclusion cache of 256 entries, oldest replaced first (R189). -/
def enterZexcl (d : Dev) (dest : DevId) (plane : Nat) : Dev :=
  let rest := d.fab.zexcl.filter fun z => !(z.dest == dest && z.plane == plane)
  { d with fab := { d.fab with zexcl := lastN 256 (rest ++ [⟨dest, plane, d.time.now⟩]) } }

/-- A route of the probe that failed is taken out of service. -/
def routeOut (d : Dev) (peer : DevId) (r : Nat) : Dev :=
  if r ≥ 28 then enterZexcl d peer (r - 28)
  else ((rackPaths d peer).filter fun p => match p with
    | a :: b :: _ => pairPort a b == r
    | _ => false).foldl pathOut d

/-- The peer answered: a LINK fault. The operations go again, and the recovery is reported. -/
def linkFault (d : Dev) (x : Probe) (failed : List Nat) : Dev :=
  let bad := failed.filter x.routes.contains
  let d := bad.foldl (fun d r => routeOut d x.peer r) d
  let crc := ((List.range 48).map fun n => (d.port n).crc.toNat).foldl (· + ·) 0
  let d := logOp d sevWarning none srcRecovery sRecovered 0 (bad.headD 0xFFFF) x.peer.toNat crc
  let d := seqPumpAll (rillResendTo (slcResendTo (rmResendTo d x.peer) x.peer) x.peer)
  recoveryEvent d sRecovered 0x05 none 0 (bad.headD 0xFFFF) (usSince d x.since) 0

/-- No probe of the peer runs any more. -/
def probesClosed (d : Dev) (peer : DevId) : Dev :=
  { d with rec_ := { d.rec_ with probes := d.rec_.probes.filter fun x => x.peer != peer } }

/-- A member that answers its manager's probe gets the launch cell of a job that is still being launched again
(R476). -/
def relaunchAt (d : Dev) (peer : DevId) (j : Job) : Dev :=
  match (jobList d j).findIdx? (· == peer) with
  | some k =>
    if role d = 1 ∧ !j.launched ∧ k ≠ 0 ∧ !j.acked.contains k then sendMgmt d peer (launchMsg j.id j.spec j.subst j.deputy k peer)
    else d
  | none => d

/-- The operations with the silent peer end with INTERNAL (R409). -/
def peerGivenUp (d : Dev) (peer : DevId) (since : Nat) : Dev :=
  recoveryEvent (endWith d peer) sInternal 0x05 none 0 peer.toNat (usSince d since) 0

/-- The managers to whom a silent peer is reported: not the peer itself. -/
def reportTo (d : Dev) (peer : DevId) : List DevId :=
  (jobManagers d ++ (if role d = 2 then [peerDev d] else []) ++ (if role d = 1 then [myId d] else [])).eraseDups.filter (· != peer)

/-- A manager knows that the peer lives: launches go on, and the devices that reported it hear so. -/
def peerLives (d : Dev) (x : Probe) : Dev :=
  let d := d.mgr.jobs.foldl (fun d j => relaunchAt d x.peer j) d
  x.askers.foldl (fun d y => sendMgmt d y (.probeAnswer x.peer)) d

/-- What the peer's own answer does for one probe: it is passed on to the manager that asked, serves the manager, or shows
a LINK fault. -/
def probeAnswered (d : Dev) (failed : List Nat) (x : Probe) : Dev :=
  match x.behalf with
  | some m => sendMgmt d m (.probeAnswer x.peer)
  | none => if x.asManager then peerLives d x else linkFault d x failed

/-- Another device's word that the peer has answered it: a neighbour's ends the manager's probe, and a manager's tells the
device that reported the peer that the others reach it, so that no wider mechanism applies (R409, R412). -/
def heardOf (d : Dev) (src peer : DevId) : Dev :=
  let mine (x : Probe) : Bool := x.peer == peer && x.asManager
  let asked := d.rec_.probes.filter mine
  if !asked.isEmpty then
    asked.foldl peerLives { d with rec_ := { d.rec_ with probes := d.rec_.probes.filter fun x => !mine x } }
  else if d.rec_.reported.contains peer ∧ (reportTo d peer).contains src then
    peerGivenUp { d with rec_ := { d.rec_ with reported := d.rec_.reported.filter (· != peer) } } peer d.time.now
  else d

/-- PROBE_ANSWER: of the peer itself, or another device's word that it has answered. -/
def probeAnswer (src peer : DevId) (failed : List Nat) (d : Dev) : Dev :=
  if src ≠ peer then heardOf d src peer
  else (d.rec_.probes.filter fun x => x.peer == peer).foldl (fun d x => probeAnswered d failed x) (probesClosed d peer)

def execProbeAnswer (port : Nat) (c : Cell) (failed : List Nat) (s : State) :=
  onDev (fun d => onMgmt d port c false fun m => match m with
    | .probeAnswer peer => some (probeAnswer c.src peer failed)
    | _ => none) s

/-- The partitions whose job the peer manages. -/
def jobsUnder (d : Dev) (peer : DevId) : List Nat :=
  (List.range 16).filter fun p => jobValid (d.part p) && jobMan (d.part p) == peer

/-- A new manager restarts the replay with a spare that the old one had begun (R423). -/
def replayAgain (d : Dev) (j : Job) (since : Nat) : Dev :=
  match j.subst.getLast? with
  | none => d
  | some (_, spare) =>
    let k := ((jobList d j).findIdx? (· == spare)).getD 0
    let d := modJobId d j.id fun j => { j with acked := j.acked.filter (· != k) }
    orderReplay (sendMgmt d spare (launchMsg j.id j.spec j.subst j.deputy k spare)) j 0x08 (tookFrom j spare) spare since

/-- The deputy that a new manager names: the first device of its block in another rack that is not lost (R422, R471, log
71). -/
def nextDeputy (d : Dev) (old : DevId) : DevId :=
  ((podDevices (blockFirst d) (blockPods d)).find? fun x =>
    devRack x != rackNum d && x != old && !d.rec_.lost.contains x).getD (myId d)

/-- A job as its new manager goes on with it: it does not know which steps have been released. -/
def takenOver (dep : DevId) (j : Job) : Job :=
  { j with deputy := dep, past := [], arrivals := none, acked := if j.launched then List.range (j.members.length + 1) else [] }

/-- What the new manager does for one job: the new deputy gets its copy, and a launch or a replay begins again. -/
def resumeJob (since : Nat) (d : Dev) (j : Job) : Dev :=
  if !j.launched then launchStart d j.id
  else
    let d := if j.deputy = myId d then d else
      sendMgmt (sendMgmt d j.deputy (.launch j.id 0 0 j.spec j.subst j.deputy)) j.deputy (.launchDone j.id j.subst)
    if j.replaying then replayAgain d j since else d

/-- The deputy finds its manager silent: it takes the role over, and names a new deputy (R422, R477, R479). -/
def takeover (d : Dev) (old : DevId) (since : Nat) : Dev :=
  let me := myId d
  let dep := nextDeputy d old
  let scm := (d.mgr.scm &&& ~~~(ones 64 1 0) &&& ~~~(ones 64 31 16)) ||| pack 64 [(0, 1), (16, dep.toNat)]
  let d := { d with mgr := { d.mgr with
    scm := scm, active := true, heard := false, sent := false, jobs := d.mgr.jobs.map (takenOver dep) } }
  let told := (d.mgr.jobs.flatMap liveMembers ++ (if dep = me then [] else [dep])).eraseDups
  let d := told.foldl (fun d x => sendMgmt d x (.newRoot me dep (blockFirst d) (blockPods d))) d
  let d := d.mgr.jobs.foldl (resumeJob since) d
  let d := deviceLost d old since
  recoveryEvent d sRecovered 0x09 none 5 old.toNat (usSince d since) 0

/-- A job whose manager and deputy are lost ends with INTERNAL on this member, and a launch under way is undone (R422,
R477). -/
def orphaned (d : Dev) (p : Nat) (peer : DevId) (since : Nat) : Dev :=
  let d := recoveryEvent d sInternal 0x09 (some p) 5 peer.toNat (usSince d since) (d.part p).step.toNat
  match launchOf d p with
  | some l => if l.open_ then jobEnds d p else launchedEvent (launchUndo d l) p l.id sInternal
  | none => jobEnds d p

/-- An engine's peer is silent: its managers are told. A job that the peer manages waits for its deputy, and ends
with INTERNAL where no other deputy has been named (R422); with nobody to tell and nobody to wait for, the operations
with the peer end. -/
def peerSilent (d : Dev) (peer : DevId) (since : Nat) : Dev :=
  let under := jobsUnder d peer
  let orphans := under.filter fun p => jobDep (d.part p) == peer
  let d := orphans.foldl (fun d p => orphaned d p peer since) d
  if !(reportTo d peer).isEmpty then
    let d := { d with rec_ := { d.rec_ with reported := d.rec_.reported.filter (· != peer) ++ [peer] } }
    (reportTo d peer).foldl (fun d m => sendMgmt d m (.faultReport (.silent peer))) d
  else if orphans.length < under.length then d
  else peerGivenUp d peer since

/-- What 2 ms without an answer do for one probe. -/
def probeSilent (d : Dev) (x : Probe) : Dev :=
  match x.behalf with
  | some m => sendMgmt d m (.faultReport (.unanswered x.peer))
  | none =>
    if !x.asManager then peerSilent d x.peer x.since
    else if role d = 1 then deviceLost d x.peer x.since
    else if role d = 2 ∧ x.peer = peerDev d then takeover d x.peer x.since
    else d

/-- PEER_PROBE_TIMEOUT: no answer in 2 ms. -/
def peerProbeTimeout (peer : DevId) (d : Dev) : Dev :=
  (d.rec_.probes.filter fun x => x.peer == peer).foldl probeSilent (probesClosed d peer)

def execPeerProbeTimeout (peer : DevId) (s : State) := onDev (peerProbeTimeout peer) s

/-- PROBE_REQUEST: this neighbour probes the peer for the manager. -/
def execProbeRequest (port : Nat) (c : Cell) (s : State) :=
  onDev (fun d => onMgmt d port c true fun m => match m with
    | .probeRequest peer => some fun d => escalateFor d peer false (some c.src)
    | _ => none) s

/-- The X and Y neighbours of a device. -/
def neighbours (x : DevId) : List DevId :=
  let p := devPos x
  ((List.range 64).filter fun q => q != p && (posX q == posX p || posY q == posY p)).map fun q =>
    BitVec.ofNat 16 (64 * devRack x + q)

/-- The manager probes a reported peer, and has its neighbours probe it; the device that reported it is to hear if it
lives. -/
def managerProbe (d : Dev) (src peer : DevId) : Dev :=
  if d.rec_.lost.contains peer ∨ peer = myId d then d
  else
    let asked := d.rec_.probes.any fun x => x.peer == peer && x.asManager
    let d := escalateFor d peer true none [src]
    if asked then d
    else ((neighbours peer).filter fun x => x != myId d && !d.rec_.lost.contains x).foldl (fun d x => sendMgmt d x (.probeRequest peer)) d

/-- FAULT_REPORT at the manager (R412, R539, R267, R285). That a neighbour got no answer changes nothing: the manager
waits out its own 2 ms. -/
def faultReport (src : DevId) (t : Trouble) (d : Dev) : Dev :=
  match t with
  | .silent peer => managerProbe d src peer
  | .dark peer => managerProbe d src peer
  | .selfFault peer => deviceLost d peer d.time.now
  | .unanswered _ => d
  | .sequencer p => (match findJob d p with
    | some j => if j.launched && !j.replaying then replayJob d p else d
    | none => d)

/-- A report at a device with a role: the manager takes it, and the deputy only its manager's own fault (R409). -/
def takeReport (src : DevId) (t : Trouble) (d : Dev) : Dev :=
  if role d = 2 ∧ t = .selfFault (peerDev d) then takeover d (peerDev d) d.time.now else atManager (faultReport src t) d

/-- A member's valid snapshot, at the job's manager or deputy (R421, log 22). -/
def snapshotKnown (p : Nat) (r : SnapReport) (d : Dev) : Dev :=
  if role d = 0 then fabErr d 3 else modJob d p fun j => addReport j r

def execFaultReport (port : Nat) (c : Cell) (s : State) :=
  onDev (fun d => onMgmt d port c false fun m => match m with
    | .faultReport t => some (takeReport c.src t)
    | .snapshotReport dev p gen step seeds => some (snapshotKnown p ⟨dev, gen, step, seeds⟩)
    | _ => none) s

/-! ### Manager and deputy (R422, R471) -/

/-- A heartbeat from the peer of this device's role. -/
def heartbeat (src : DevId) (d : Dev) : Dev :=
  if role d ≠ 0 ∧ src = peerDev d then { d with mgr := { d.mgr with heard := true, active := d.mgr.active || d.mgr.sent } } else d

def execManagerHeartbeat (port : Nat) (c : Cell) (s : State) :=
  onDev (fun d => onMgmt d port c true fun m => match m with
    | .heartbeat => some (heartbeat c.src)
    | _ => none) s

/-- HEARTBEAT_PERIOD. -/
def heartbeatPeriod (d : Dev) : Dev :=
  if role d = 0 ∨ peerDev d = myId d then d
  else sendMgmt { d with mgr := { d.mgr with sent := true, active := d.mgr.active || d.mgr.heard } } (peerDev d) .heartbeat

def execHeartbeatPeriod (s : State) := onDev heartbeatPeriod s

/-- HEARTBEAT_TIMEOUT at the deputy: it probes the manager. -/
def execHeartbeatTimeout (s : State) :=
  onDev (fun d => if role d = 2 ∧ d.mgr.active then escalate d (peerDev d) true else d) s

/-- The latest arrivals that the device sent for p's job, as member, collector and relay, go out again (R479). -/
def arriveAgain (d : Dev) (p : Nat) : Dev :=
  let me := myId d
  let ms := jobMembers d p
  let x := d.part p
  let d := match x.lastArrive with
    | some (step, v) => if collectorOf ms me = me then d else sendArrive d (collectorOf ms me) p step 1 v
    | none => d
  let d := match x.lastCol with
    | some (step, n, a) => if relayOf ms me = me then d else sendArrive d (relayOf ms me) p step n a
    | none => d
  match x.lastRack with
  | some (step, n, a) => if jobMan x = me then rootArrive d p me step n a else sendArrive d (jobMan x) p step n a
  | none => d

/-- What a new manager has to know of p's job at this member: its valid snapshots, an unfinished launch, that it has
paused, and what its host has asked for (R421, R477, R480). -/
def tellRoot (d : Dev) (p : Nat) : Dev :=
  let x := d.part p
  let man := jobMan x
  let d := reportSnapshots d p x.heads
  let d := match launchOf d p with
    | some l => if l.open_ then d else sendMgmt d man (.launchAck l.id (((launchList l).findIdx? (· == myId d)).getD 0) l.status)
    | none => d
  let d := if x.st = .paused then sendMgmt d man (.pausedReport p) else d
  let d := if x.pauseReq.isEmpty then d else sendMgmt d man (.pauseRequest p)
  if x.resumeReq.isEmpty then d else sendMgmt d man (.resumeRequest p)

/-- A device that a new manager names its deputy takes the role (R422, R471). -/
def namedDeputy (d : Dev) (man : DevId) (first n : Nat) : Dev :=
  let v : U64 := pack 64 [(0, 2), (4, first), (8, n), (16, man.toNat)]
  let keep : U64 := ones 64 47 32
  { d with mgr := { d.mgr with scm := (d.mgr.scm &&& keep) ||| v, active := false, heard := false, sent := false } }

/-- NEW_ROOT: PART_JOB names the new manager and its deputy, and the latest arrivals go to it (R422, R479). -/
def newRoot (man dep : DevId) (first n : Nat) (d : Dev) : Dev :=
  let mine := (List.range 16).filter fun p => jobValid (d.part p) && jobDep (d.part p) == man
  let d := if dep = myId d ∧ role d = 0 then namedDeputy d man first n else d
  mine.foldl (fun d p =>
    let d := d.modPart p fun x => { x with
      job := (x.job &&& ~~~(ones 128 95 64)) ||| pack 128 [(64, man.toNat), (80, dep.toNat)] }
    let d := { d with mgr := { d.mgr with launches := d.mgr.launches.map fun l => if l.part = p then { l with manager := man } else l } }
    arriveAgain (tellRoot d p) p) d

def execNewRoot (port : Nat) (c : Cell) (s : State) :=
  onDev (fun d => onMgmt d port c true fun m => match m with
    | .newRoot man dep first n => some (newRoot man dep first n)
    | _ => none) s

/-! ### SNAPSHOT_RESTORE (R418, R421) -/

/-- Nothing of the broken step stays in the sequencer and the barrier, nor in the firmware channel. -/
def dropStep (d : Dev) (p : Nat) : Dev :=
  let d := leaveEngines [snapChan p] (releaseRetention d p none)
  grdBoundary (d.modPart p fun x => { x with
    buckets := [], vote := none, committed := false, grdFailed := false, notReleased := false, barrier := none, gather := none
    lastArrive := none, lastCol := none, lastRack := none, snapHeld := none, promoting := none, copying := none }) p

/-- A region whose local copy is not as the header of the generation says comes from the buddy's copy, and so does every
region where the device holds no header of it (R418, R421). -/
def restoreRegions (d : Dev) (p : Nat) (head : Option SnapHead) (gen : Nat) (buddy : DevId) : Dev :=
  let regs := (snapRegs d p).mapIdx fun i r => (i, r)
  let loc (r : SnapReg) : Nat := r.loc + gen * r.len
  let d := regs.foldl (fun d r => touched d p (loc r.2) r.2.len) d
  let good (x : Nat × SnapReg) : Bool := match head with
    | some h =>
      let r := x.2
      okNew d p false (loc r) r.len && okNew d p false r.src r.len && (poisonAt d p false (loc r) r.len).isNone &&
      h.crcs[x.1]? == some (BitVec.ofNat 64 (crc64 (readRange d p false (loc r) r.len)))
    | none => false
  let near := regs.filter good
  let far := regs.filter fun x => !good x
  let d := near.foldl (fun d x => writeRange d p false x.2.src (readRange d p false (loc x.2) x.2.len)) d
  if far.isEmpty then d
  else
    let base := buddy.toNat * 2 ^ 48
    firmwareTransfer d p gen (BitVec.ofNat 512 5) (far.flatMap fun x =>
      let r := x.2
      fabricParts 1 (r.len / 256 + 2) (base + r.rem + gen * r.len) r.src r.len)

/-- The member learns that the spare has the lost member's rank: its launch record, and its tables (R421). -/
def spareFor (d : Dev) (p : Nat) (lost spare : DevId) : Dev :=
  if lost = spare then d
  else
    let known (l : Launch) : Launch :=
      if l.part ≠ p then l
      else match (launchMembers l).findIdx? (· == lost) with
        | some i => { l with subst := l.subst ++ [(i, spare)] }
        | none => l
    let d := { d with mgr := { d.mgr with launches := d.mgr.launches.map known } }
    restartPeer (rebuddy (retable d p lost spare) p lost spare) p spare

/-- The order of a replay. What the partition was doing ends; the regions, the step counter and the seeds go back to the
snapshot. A spare, which holds no copy, asks its buddy for the header and the table by which the regions are found
(R421, log 82). -/
def snapshotRestore (p g : Nat) (step : U64) (seeds : List U64) (buddy : Option DevId) (lost spare : DevId) (d : Dev) : Dev :=
  if !(d.part p).valid then d
  else
    let d := dropStep (abortAll (rillRestart d p) p none) p
    let head := (d.part p).heads.find? fun h => h.gen == g && h.step == step
    let d := setStepSeeds (d.modPart p fun x => { x with heads := head.toList, refill := none }) p step seeds
    match buddy with
    | some b => sendMgmt (d.modPart p fun x => { x with refill := some step }) b (.snapAsk p step lost)
    | none => spareFor (restoreRegions d p head g (snBuddy (d.part p))) p lost spare

/-- The header of a generation, as its member's buddy keeps it (R420). -/
def mirrorHead (p : Nat) (m : Mirror) (d : Dev) : Dev :=
  d.modPart p fun x => { x with mirrors := x.mirrors.filter (fun y => !(y.dev == m.dev && y.head.gen == m.head.gen)) ++ [m] }

/-- A spare's question at its buddy. -/
def mirrorAsked (src : DevId) (p : Nat) (step : U64) (lost : DevId) (d : Dev) : Dev :=
  match (d.part p).mirrors.find? fun m => (m.dev == lost || m.dev == src) && m.head.step == step with
  | some m => sendMgmt d src (.snapCopy p m.head.gen m.head.step m.head.seeds m.head.crcs m.table)
  | none => d

/-- The buddy's answer at the spare: the table stands where GRD_SNAP says, and every region comes from the buddy. -/
def mirrorCopy (p : Nat) (h : SnapHead) (table : List Byte) (d : Dev) : Dev :=
  if (d.part p).refill ≠ some h.step then d
  else
    let d := d.modPart p fun x => { x with refill := none, heads := [h] }
    restoreRegions (writeRange d p false (snTable (d.part p)) table) p none h.gen (snBuddy (d.part p))

/-- The cell comes from a member of p's job. -/
def ofMember (d : Dev) (p : Nat) (src : DevId) (g : Dev → Dev) : Dev :=
  if (jobMembers d p).contains src then g d else fabErr d 3

/-- SNAPSHOT_RESTORE carries a manager's order, or what a member and its buddy tell one another of a snapshot. -/
def execSnapshotRestore (port : Nat) (c : Cell) (s : State) :=
  onDev (fun d => onMgmt d port c false fun m => match m with
    | .snapshotRestore p g step seeds buddy lost spare => some fun d =>
        if trusted d c.src then snapshotRestore p g step seeds buddy lost spare d else fabErr d 3
    | .snapHeader dev p g step seeds crcs table => some fun d =>
        ofMember d p c.src (mirrorHead p ⟨dev, ⟨g, step, seeds, crcs⟩, table⟩)
    | .snapAsk p step lost => some fun d => ofMember d p c.src (mirrorAsked c.src p step lost)
    | .snapCopy p g step seeds crcs table => some fun d => ofMember d p c.src (mirrorCopy p ⟨g, step, seeds, crcs⟩ table)
    | _ => none) s

end Sys2Proof.Machine
end

