-- ==== Sys2Proof/Machine/Links.lean ====
section
/-! DEFINITION. Bringing links up, degrading and counting them out, forwarding cells, link states and the
exclusion cache (R174 to R196, R205). -/

namespace Sys2Proof.Machine

/-! ### Bring-up (R179 to R181) -/

/-- The input class 5 log entry of a failed bring-up step (R179, R531). -/
def logBringup (d : Dev) (n : Nat) : Dev :=
  logIt d sevWarning none srcFabric 0x0007 (packNat [(0, 5), (16, n), (64, (d.port n).attempts)])

/-- BRINGUP_STEP_TIMEOUT: step 1 again, or after three failures the 1 s wait. -/
def bringupStepTimeout (n : Nat) (d : Dev) : Dev :=
  let x := d.port n
  if !(x.state == .training || x.state == .hello) then d
  else
    let d := laneFailed (logBringup (d.modPort n fun x => { x with attempts := x.attempts + 1 }) n) n
    if x.attempts + 1 < 3 then startPort d n else setPort d n fun x => portReset x .dark

def execBringupStepTimeout (port : Nat) (s : State) := onDev (bringupStepTimeout port) s

/-- BRINGUP_RETRY_WAIT: a further attempt. -/
def execBringupRetryWait (port : Nat) (s : State) :=
  onDev (fun d => if (d.port port).state == .dark && decide ((d.port port).attempts ≥ 3) then startPort d port else d) s

/-- A recovery of class LANE is over (R178, R411, R424). -/
def laneRecovered (d : Dev) (n : Nat) : Dev :=
  let mine (r : Recovery) : Bool := r.cls == 4 && r.unit == n
  match d.rec_.running.find? mine with
  | some r =>
    recoveryEvent { d with rec_ := { d.rec_ with running := d.rec_.running.filter fun r => !mine r } }
      sRecovered 4 none 0 n (usSince d r.since) 0
  | none => d

/-- FEC_ALIGNMENT_LOCK: the first LINK_HELLO is sent; after a lane retrain the port is in service on its pair. -/
def fecAlignmentLock (n : Nat) (d : Dev) : Dev :=
  let x := d.port n
  if x.state ≠ .training then d
  else if x.lanes ≠ 0 then pumpPort (laneRecovered (setPort d n fun x => { x with state := .degraded }) n) n
  else sendHello (setPort d n fun x => { x with state := .hello, hellosSeen := 0, pending := none }) n

def execFecAlignmentLock (port : Nat) (s : State) := onDev (fecAlignmentLock port) s

/-- The credit classes of a port (R192): a Z port has no VC7. -/
def classesOf (d : Dev) (n : Nat) : List Nat := List.range (if portRole d n < 28 then 10 else 7)

/-- A spine port may not report another rack than the Z ports in service (R181). -/
def rackAgrees (d : Dev) (rack : Option Byte) : Bool :=
  !((List.range 16).any fun q => namedUp d (28 + q)) || d.fab.rack == rack

/-- Steps 5 and 6 of R179: the partner is refused, or the buffer is advertised per VC. -/
def checkPartner (d : Dev) (n : Nat) (h : LinkHello) : Dev :=
  match linkVersion d n h with
  | none => setPort (logPartner d n h) n fun x => portReset x .miswired
  | some v =>
    if !wiringOk d n h then setPort (logPartner d n h) n fun x => portReset x .miswired
    else
      let d := d.modPort n fun x => { x with
        version := BitVec.ofNat 8 v, creditsKnown := true
        peerPort := match h.spine with | some (p, _) => BitVec.ofNat 6 p.toNat | none => h.port
        peerId := if h.spine.isSome then 0xFFFF else h.dev
        spineRack := h.spine.map (·.2) }
      { d with out := { d.out with credits := d.out.credits ++ (classesOf d n).map fun c => (n, c, reservedMin (d.port n) c) } }

/-- LINK_HELLO: checked when it has come twice. -/
def linkHello (n : Nat) (h : LinkHello) (d : Dev) : Dev :=
  let x := d.port n
  if x.state ≠ .hello ∨ x.creditsKnown then d
  else
    let d := d.modPort n fun x => { x with hellosSeen := x.hellosSeen + 1, pending := some h }
    if x.hellosSeen + 1 < 2 then d else checkPartner d n h

def execLinkHello (port : Nat) (h : LinkHello) (s : State) := onDev (linkHello port h) s

/-- Step 7: the port is in service; a Z port gives the rack number (R181). -/
def inService (d : Dev) (n : Nat) : Dev :=
  let x := d.port n
  if x.spineRack.isSome && !rackAgrees d x.spineRack then
    setPort (logPartner d n (x.pending.getD default)) n fun x => portReset x .miswired
  else
    let d := if x.spineRack.isSome then { d with fab := { d.fab with rack := x.spineRack } } else d
    setPort d n fun x => { x with state := .up, lanes := 0xF, attempts := 0, discards := 0 }

/-- CREDIT_RETURN: the partner's advertisement, or credit for waiting cells (R194). -/
def creditReturn (n cls count : Nat) (d : Dev) : Dev :=
  let x := d.port n
  if !(classesOf d n).contains cls then d
  else
    let give (d : Dev) : Dev := d.modPort n fun x => { x with credits := tmod x.credits cls 0 (· + count) }
    if x.up then pumpPort (give d) n
    else if x.state == .hello && x.creditsKnown then
      let d := give d
      if (classesOf d n).all fun c => (tget (d.port n).credits c).isSome then inService d n else d
    else d

def execCreditReturn (port cls count : Nat) (s : State) := onDev (creditReturn port cls count) s

/-! ### Ports that fail (R178, R196, R412) -/

/-- The healthy lane pair a port degrades to. -/
def lanePair (healthy : BitVec 4) : Option (BitVec 4) :=
  if healthy &&& 3 = 3 then some 3 else if healthy &&& 12 = 12 then some 12 else none

/-- A neighbour whose whole pair has lost its signal is reported to the manager at once. -/
def reportDark (d : Dev) (n : Nat) : Dev :=
  let role := portRole d n
  if role ≥ 28 ∨ ownLink d (2 * (role / 2)) < 2 ∨ ownLink d (2 * (role / 2) + 1) < 2 then d
  else
    let peer : DevId := BitVec.ofNat 16 (64 * rackNum d + (farEnd (myPos d) role).1)
    (reportTo d peer).foldl (fun d m => sendMgmt d m (.faultReport (.dark peer))) d

/-- LANE_DEGRADE: a retrain on the healthy pair, or the port goes down and comes up anew. -/
def laneDegrade (n : Nat) (healthy : BitVec 4) (d : Dev) : Dev :=
  let x := d.port n
  if !x.up ∨ healthy &&& x.lanes = x.lanes then d
  else match if x.version.toNat ≥ 0x11 then lanePair healthy else none with
    | some p =>
      let d := setPort d n fun x => { x with state := .training, lanes := p }
      { d with rec_ := { d.rec_ with running := d.rec_.running ++ [⟨4, none, n, d.time.now⟩] } }
    | none =>
      let d := setPort d n fun x => portReset x .dark
      startPort (if healthy = 0 then reportDark d n else d) n

def execLaneDegrade (port : Nat) (healthy : BitVec 4) (s : State) := onDev (laneDegrade port healthy) s

/-- PORT_ERR_LIMIT: a retrain, or ERRORS after three of them within ten minutes. -/
def portErrLimit (n : Nat) (d : Dev) : Dev :=
  let x := d.port n
  if !x.up ∨ x.discards ≤ fld x.cfg 15 8 then d
  else
    let past := x.retrains.filter fun t => decide (d.time.now < t + 600000000000)
    if past.length ≥ 3 then setPort d n fun x => { portReset x .errors with discards := 0, retrains := past }
    else startPort (d.modPort n fun x => { x with discards := 0, retrains := past ++ [d.time.now] }) n

def execPortErrLimit (port : Nat) (s : State) := onDev (portErrLimit port) s

/-! ### Cells of the fabric's own (R187 to R189) -/

/-- CELL_FORWARD: a cell not addressed here goes on. -/
def execCellForward (port : Nat) (c : Cell) (s : State) := onDev (fun d => onCell d port c [] id) s

/-- LINK_STATE of a device of the rack. -/
def linkStateCell (c : Cell) (d : Dev) : Dev :=
  if devRack c.src ≠ rackNum d ∨ c.src = myId d then d
  else
    { d with fab := { d.fab with
        links := (List.range 28).foldl (fun t i => tput t (28 * devPos c.src + i) (fld (payBits c) (2 * i + 1) (2 * i))) d.fab.links } }

def execLinkState (port : Nat) (c : Cell) (s : State) :=
  onDev (fun d => onCell d port c [tyLinkState] (linkStateCell c)) s

/-- LINK_STATE_PERIOD. -/
def execLinkStatePeriod (s : State) := onDev (fun d => if opticsOn d then announce d else d) s

/-- UNREACH: counted, and entered in the exclusion cache. -/
def unreach (c : Cell) (d : Dev) : Dev :=
  match c.pay with
  | .unreach dest plane => enterZexcl (fabErr d 0) dest plane.toNat
  | _ => d

def execUnreach (port : Nat) (c : Cell) (s : State) := onDev (fun d => onCell d port c [tyUnreach] (unreach c)) s

/-- ZEXCL_EXPIRE. -/
def execZexclExpire (dest : DevId) (plane : Nat) (s : State) :=
  onDev (fun d => { d with fab := { d.fab with zexcl := d.fab.zexcl.filter fun z => !(z.dest == dest && z.plane == plane) } }) s

/-! ### FAB_PORT_CFG (R176, R205) -/

/-- The connector of a named port or spare position (R514). -/
def connectorOf (n : Nat) : Nat :=
  if n < 14 then n % 2 else if n < 28 then 2 + n % 2 else if n < 44 then (n - 28) / 4 else n - 44

/-- A spare position may take this MAP. -/
def mapOk (d : Dev) (n m : Nat) : Bool :=
  !bit (d.port n).cfg 0 && (m == 0x3F || (decide (m < 44) && connectorOf m == connectorOf n && !bit (d.port m).cfg 0))

/-- FAB_PORT_CFG_WRITE: the fields that may be written; ENABLE brings the port up or takes it down. -/
def fabPortCfgWrite (n : Nat) (v : U32) (d : Dev) : Dev :=
  if n ≥ 48 then d
  else
    let old := (d.port n).cfg
    let m := fld v 7 2
    let newMap := decide (n ≥ 44) && m != fld old 7 2
    let ok := newMap && mapOk d n m
    let new := merge (ones 32 0 0 ||| ones 32 15 8 ||| (if ok then ones 32 7 2 else 0)) old v
    let d := if newMap && !ok then logIgnored d srcFabric (.fabPortCfg n) v.toNat else d
    let e := d.modPort n fun x => { x with cfg := new }
    if bit old 0 == bit new 0 then linksNoted d e
    else linksNoted d (laneFailed (e.modPort n fun x => startState e n { x with attempts := 0, retrains := [] }) n)

def execFabPortCfgWrite (n : Nat) (v : U32) (s : State) := onLive (fabPortCfgWrite n v) s

end Sys2Proof.Machine
end

