-- ==== Sys2Proof/Machine/Uhp.lean ====
section
/-! DEFINITION. The Ethernet port and UHP transport: frames, addresses, PTP, sessions, acknowledgement, windows'
messages (R431 to R447, R455 to R458). -/

namespace Sys2Proof.Machine

def hostErr (d : Dev) (i n : Nat) : Dev := { d with host := { d.host with err := bump d.host.err i n } }

def modHost (d : Dev) (f : HostLink → HostLink) : Dev := { d with host := f d.host }

def sendFrame (d : Dev) (f : OutFrame) : Dev := { d with out := { d.out with frames := d.out.frames ++ [⟨f, framing d⟩] } }

/-! ### Frames (R432) -/

/-- The interface identifier by modified EUI-64 (R433). -/
def eui64 (mac : BitVec 48) : Nat :=
  let b := toBe 6 mac.toNat
  beNat ([b.headD 0 ^^^ 2] ++ (b.drop 1).take 2 ++ [0xFF, 0xFE] ++ b.drop 3)

def linkLocal (mac : BitVec 48) : BitVec 128 := BitVec.ofNat 128 (0xFE80 * 2 ^ 112 + eui64 mac)

/-- The part's own, broadcast, LLDP, all-nodes, PTP and solicited-node addresses. -/
def forUs (mac dst : BitVec 48) : Bool :=
  [mac, BitVec.ofNat 48 (2 ^ 48 - 1), 0x0180C200000E, 0x333300000001, 0x333300000181].contains dst ||
  dst.toNat == 0x3333FF000000 + mac.toNat % 2 ^ 24

def tagsOk (d : Dev) (tags : List (BitVec 12)) : Bool :=
  let vid : BitVec 12 := BitVec.ofNat 12 (fld d.host.netCfg 11 0)
  if vid = 0 then tags.isEmpty else tags == [vid]

/-- The port answers: the mailbox is ready, or the recovery boot runs (R464, R493). -/
def uhpUp (d : Dev) : Bool := d.host.link && (d.boot.stage == .ready || d.boot.stage == .recovery)

/-! ### Addresses (R433, R466) -/

/-- How long an address is tentative: one probe, unanswered for 1 s (log 79). -/
def dadNs : Nat := 1000000000

/-- Duplicate address detection of the link-local address, of the global one, is under way. -/
def llTentative (d : Dev) : Bool := d.host.llSince.any fun t => decide (d.time.now < t + dadNs)
def ip6Tentative (d : Dev) : Bool := d.host.ip6.isSome && decide (d.time.now < d.host.ip6Since + dadNs)

/-- Addresses in use: the link-local one and the global one, when no duplicate was found. -/
def ownAddrs (fu : Fuses) (d : Dev) : List (BitVec 128) :=
  (if d.host.llDup || llTentative d then [] else [linkLocal fu.mac]) ++ (if ip6Tentative d then [] else d.host.ip6.toList)

/-- Another node has the address: it is not used. -/
def addrDuplicate (target : BitVec 128) (fu : Fuses) (d : Dev) : Dev :=
  let d := if llTentative d && target == linkLocal fu.mac then modHost d fun h => { h with llDup := true } else d
  if ip6Tentative d && d.host.ip6 == some target then modHost d fun h => { h with ip6 := none, ip6Dup := true } else d

/-- A global address is formed, and its duplicate address detection begins. -/
def formGlobal (d : Dev) (a : BitVec 128) : Dev :=
  sendFrame (modHost d fun h => { h with ip6 := some a, ip6Since := d.time.now }) (.neighborSolicitation a)

/-- The IPv4 address is in use (R466). -/
def ip4Used (d : Dev) : Bool := fld d.host.ip4 31 0 != 0 && fld d.host.ip4 37 32 != 0

/-- A datagram to this address is for the part. -/
def forPart (fu : Fuses) (d : Dev) : IpAddr → Bool
  | .v6 a => (ownAddrs fu d).contains a
  | .v4 a => ip4Used d && a.toNat == fld d.host.ip4 31 0

/-- The DHCPv6 exchange of the recovery boot (R493, log 79). -/
def dhcpv6 (f : FramePayload) (d : Dev) : Dev :=
  if d.boot.stage ≠ .recovery ∨ d.host.ip6.isSome ∨ d.host.ip6Dup then d
  else match f with
    | .dhcpv6Advertise server a => sendFrame d (.dhcpv6Request server a)
    | .dhcpv6Reply a => formGlobal d a
    | _ => d

/-- A frame that is accepted and holds nothing with a command of its own. -/
def frameTaken (f : Frame) (fu : Fuses) (d : Dev) : Dev :=
  let d := if f.ce then hostErr d 5 1 else d
  match f.payload with
  | .uhp ty rsvd len => if ty = 0 ∨ ty.toNat > 9 ∨ rsvd ∨ len.toNat > 8224 then hostErr d 2 1 else d
  | .neighborAdvertisement a => addrDuplicate a fu d
  | .dhcpv6Advertise _ _ | .dhcpv6Reply _ => dhcpv6 f.payload d
  | .lldp | .other => d

/-- ETH_FRAME: discarded and counted, or accepted (R432, R434, R438, R470). Before the port answers, only duplicate
address detection sees a frame (R464). -/
def ethFrame (f : Frame) (fu : Fuses) (d : Dev) : Dev :=
  let bad := !f.fcsOk || !forUs fu.mac f.dst || !tagsOk d f.tags || decide (f.length > fld d.host.netCfg 37 24) || f.pauseOrPfc
  if !d.host.link then d
  else if !uhpUp d then
    match f.payload with
    | .neighborAdvertisement a => if bad then d else addrDuplicate a fu d
    | _ => d
  else if bad then hostErr (if f.fcsOk then d else hostErr d 0 1) 1 1
  else frameTaken f fu d

def execEthFrame (f : Frame) (s : State) := onDevF (ethFrame f) s

/-! ### IPv6, IPv4, LLDP (R433, R434) -/

/-- ROUTER_ADVERTISEMENT: the first /64 prefix with the A flag. The recovery boot takes none (R493). -/
def routerAdvertisement (pfx : U64) (len : Nat) (aFlag : Bool) (fu : Fuses) (d : Dev) : Dev :=
  if !d.host.link ∨ d.host.ip6.isSome ∨ d.host.ip6Dup ∨ len ≠ 64 ∨ !aFlag ∨ !(d.boot.stage == .network || d.boot.stage == .ready) then d
  else formGlobal d (BitVec.ofNat 128 (pfx.toNat * 2 ^ 64 + eui64 fu.mac))

def execRouterAdvertisement (pfx : U64) (len : Nat) (aFlag : Bool) (s : State) := onDevF (routerAdvertisement pfx len aFlag) s

/-- NEIGHBOR_SOLICITATION: answered for one of the part's addresses; from the unspecified address, for an address that
the part is probing itself, it shows a duplicate (R433). -/
def neighborSolicitation (src target : BitVec 128) (fu : Fuses) (d : Dev) : Dev :=
  if !d.host.link then d
  else if uhpUp d && (ownAddrs fu d).contains target then sendFrame d (.neighborAdvertisement src target)
  else if src = 0 then addrDuplicate target fu d
  else d

def execNeighborSolicitation (src target : BitVec 128) (s : State) := onDevF (neighborSolicitation src target) s

/-- ECHO_REQUEST: at most 100 replies in one second of the time base. -/
def echoRequest (src : BitVec 128) (data : List Byte) (d : Dev) : Dev :=
  if !uhpUp d then d
  else
    let sec := d.time.now / 1000000000
    let n := if d.host.echoSecond = sec then d.host.echoCount else 0
    if n ≥ 100 then d
    else sendFrame (modHost d fun h => { h with echoSecond := sec, echoCount := n + 1 }) (.echoReply src data)

def execEchoRequest (src : BitVec 128) (data : List Byte) (s : State) := onDev (echoRequest src data) s

/-- ARP_REQUEST for HOST_IP4 (R433, R466). -/
def arpRequest (sender target : U32) (d : Dev) : Dev :=
  if uhpUp d && ip4Used d && target.toNat == fld d.host.ip4 31 0 then sendFrame d (.arpReply sender target) else d

def execArpRequest (sender target : U32) (s : State) := onDev (arpRequest sender target) s

/-- LLDP_TIMER. -/
def execLldpTimer (s : State) :=
  onDevF (fun fu d => if d.host.link then sendFrame d (.lldp fu.mac (myId d) 120 fu.serial) else d) s

/-! ### PTP (R435) -/

def modPtp (d : Dev) (f : Ptp → Ptp) : Dev := modHost d fun h => { h with ptp := f h.ptp }

/-- Masters are compared by these numbers, the lower first (log 79). -/
def ptpOrder (x : PtpData) : List Nat :=
  [x.priority1.toNat, x.clockClass.toNat, x.accuracy.toNat, x.variance.toNat, x.priority2.toNat, x.grandmaster.toNat, x.steps.toNat]

/-- The first list is lower than the second. -/
def lexLt : List Nat → List Nat → Bool
  | x :: xs, y :: ys => decide (x < y) || (x == y && lexLt xs ys)
  | _, _ => false

/-- The master: the best of those that have announced themselves. -/
def ptpMaster (d : Dev) : Option PtpPort :=
  let key (m : PtpPort × PtpData) : List Nat := ptpOrder m.2 ++ [m.1.clock.toNat, m.1.port.toNat]
  (d.host.ptp.masters.foldl (fun (b : Option (PtpPort × PtpData)) m => match b with
    | some y => if lexLt (key m) (key y) then some m else some y
    | none => some m) none).map (·.1)

/-- An offset has been measured: the time base steps to the master's time at the first lock, logged (R523); after it
the offset is removed by slewing. -/
def ptpOffset (off : Int) (d : Dev) : Dev :=
  if d.time.locked then { d with time := { d.time with offset := off, slew := off } }
  else
    let t := (d.time.now - off).toNat
    logIt { d with time := { d.time with now := t, locked := true, offset := off, slew := 0 } }
      sevInfo none srcLog 0x0005 (packNat [(0, d.time.now % 2 ^ 64), (64, t % 2 ^ 64)])

/-- A Sync is complete with the master's stamp: where the delay is known the offset is measured, and a Delay_Req
measures the delay anew. -/
def ptpSynced (t1 t2 : Nat) (d : Dev) : Dev :=
  let n := d.host.ptp.nextSeq
  let d := modPtp d fun x => { x with sync := none, last := some (t1, t2) }
  let d := match d.host.ptp.delay with
    | some w => ptpOffset ((t2 : Int) - t1 - w) d
    | none => d
  sendFrame (modPtp d fun x => { x with req := some (n, d.time.now), nextSeq := n + 1 })
    (.ptpDelayReq (BitVec.ofNat 8 (fld d.host.ptpCfg 7 0)) n)

/-- Delay_Resp to the Delay_Req under way: the delay of the path, and the first offset. -/
def ptpDelay (t4 : Nat) (d : Dev) : Dev :=
  match d.host.ptp.last, d.host.ptp.req with
  | some (t1, t2), some (_, t3) =>
    let w : Int := (((t2 : Int) - t1) + ((t4 : Int) - t3)) / 2
    let d := modPtp d fun x => { x with req := none, delay := some w }
    if d.time.locked then d else ptpOffset ((t2 : Int) - t1 - w) d
  | _, _ => d

def ptpDomain : PtpMsg → Byte
  | .announce n _ _ | .sync n _ _ _ _ | .followUp n _ _ _ | .delayResp n _ _ _ => n

/-- PTP_SYNC: a message of the domain; but for Announce, one of the master alone. -/
def ptpSync (m : PtpMsg) (d : Dev) : Dev :=
  let c := d.host.ptpCfg
  if !d.host.link ∨ d.boot.stage ≠ .ready ∨ !bit c 8 ∨ fld c 7 0 ≠ (ptpDomain m).toNat then d
  else match m with
    | .announce _ src x => modPtp d fun y => { y with masters := (y.masters.filter fun z => z.1 != src) ++ [(src, x)] }
    | .sync _ src seq two t1 =>
      if ptpMaster d ≠ some src then d
      else
        let d := { d with time := { d.time with holdover := false } }
        if two then modPtp d fun x => { x with sync := some (seq, d.time.now) } else ptpSynced t1 d.time.now d
    | .followUp _ src seq t1 =>
      (match d.host.ptp.sync with
       | some (n, t2) => if ptpMaster d = some src ∧ n = seq then ptpSynced t1 t2 d else d
       | none => d)
    | .delayResp _ src seq t4 =>
      if ptpMaster d = some src ∧ d.host.ptp.req.map (·.1) = some seq then ptpDelay t4 d else d

def execPtpSync (m : PtpMsg) (s : State) := onDev (ptpSync m) s

/-- PTP_HOLDOVER: the silent master is forgotten, and the resonator runs free. -/
def ptpHoldover (d : Dev) : Dev :=
  if d.boot.stage == .ready && bit d.host.ptpCfg 8 then
    { modPtp d fun x => { x with masters := x.masters.filter fun z => some z.1 != ptpMaster d, sync := none, last := none, req := none } with
      time := { d.time with holdover := true, slew := 0 } }
  else d

def execPtpHoldover (s : State) := onDev ptpHoldover s

/-! ### Sessions: opening and closing (R439, R447) -/

def helloBody (d : Dev) (s : Session) : List Byte :=
  toLe 48 (packNat [(0, s.uhp.toNat), (16, s.mbox.toNat), (32, (myId d).toNat), (64, s.isnPart.toNat), (128, s.challenge.toNat)])

def nakBody (seq reason : Nat) : List Byte := toLe 8 seq ++ toLe 1 reason

def lowestSession (d : Dev) : Option Nat := (List.range 64).find? fun n => !(d.host.sessions.any fun s => s.num == n)

/-- The highest version that both ranges hold. -/
def agree (own : List Nat) (lo hi : Nat) : Option Nat := own.find? fun v => decide (lo ≤ v ∧ v ≤ hi)

/-- A NAK for a sender that no session serves; no version is agreed with it. -/
def nakFor (m : UhpMsg) (num reason : Nat) : OutMsg :=
  rawMsg (Config.nakVersion m.version) num 9 0 false (nakBody m.seq.toNat reason)

def nakTo (d : Dev) (m : UhpMsg) (num reason : Nat) : Dev := onLine d m.hostAddr m.hostPort false [nakFor m num reason]

/-- The answer to a new HELLO, with the session that it opens (R439). -/
def helloAnswer (m : UhpMsg) (d : Dev) : OutMsg × Bool × Dev :=
  let b := m.body
  let rec_ := d.boot.stage == .recovery
  match agree (if rec_ then [0x10] else [0x12, 0x11, 0x10]) (le b 0 1) (le b 1 1), agree (if rec_ then [0x10] else [0x11, 0x10]) (le b 2 1) (le b 3 1) with
  | some u, some x =>
    match if rec_ && !d.host.sessions.isEmpty then none else lowestSession d with
    | none => (nakFor m 0xFFFF sNoResource, false, d)
    | some n =>
      let isn : U64 := BitVec.ofNat 64 (le b 8 8)
      let (k, d) := drawFree d
      let (j, d) := drawFree d
      let s : Session :=
        { id := d.host.nextSession, num := n, cfg := d.host.uhpCfg, hostAddr := m.hostAddr, hostPort := m.hostPort
          uhp := BitVec.ofNat 8 u, mbox := BitVec.ofNat 8 x, isnHost := isn, isnPart := Config.isn j
          challenge := Config.challenge k, rcvNext := isn, rcvHeld := [], sndNext := Config.isn j, unacked := [], waiting := []
          window := 64, ackedInWindow := 0, lastHalved := 0, sinceAck := 0, ackDue := false, ceSeen := m.ce, key := none
          macFails := 0, stalled := false }
      (rawMsg s.uhp n 1 0 false (helloBody d s), decide (u ≥ 0x12), modHost d fun h => { h with
        sessions := h.sessions ++ [s], nextSession := h.nextSession + 1 })
  | _, _ => (nakFor m 0xFFFF sBadVersion, false, d)

/-- The HELLO is the repetition of one answered less than 1 s ago. -/
def sameHello (d : Dev) (m : UhpMsg) (x : HelloMemo) : Bool :=
  x.addr == m.hostAddr && x.port == m.hostPort && x.isn.toNat == le m.body 8 8 && decide (d.time.now < x.at_ + 1000000000)

/-- HELLO: a session is opened, or refused by NAK; a repeated one gets the same answer. -/
def helloMsg (m : UhpMsg) (fu : Fuses) (d : Dev) : Dev :=
  let b := m.body
  if !uhpUp d ∨ !forPart fu d m.dst then d
  else
    let d := if m.ce then hostErr d 5 1 else d
    if m.rsvd ∨ m.ece ∨ m.session ≠ 0xFFFF ∨ m.seq ≠ 0 ∨ m.ackno ≠ 0 ∨ b.length ≠ 16 ∨ m.len.toNat ≠ 16 ∨ le b 4 4 ≠ 0 then hostErr d 2 1
    else match d.host.hellos.find? (sameHello d m) with
      | some x => onLine d m.hostAddr m.hostPort x.ect [x.answer]
      | none =>
        let (msg, ect, d) := helloAnswer m d
        let d := modHost d fun h => { h with hellos := (h.hellos.filter fun x => decide (d.time.now < x.at_ + 1000000000)) ++
          [⟨m.hostAddr, m.hostPort, BitVec.ofNat 64 (le b 8 8), d.time.now, msg, ect⟩] }
        onLine d m.hostAddr m.hostPort ect [msg]

def execHello (m : UhpMsg) (s : State) := onDevF (helloMsg m) s

/-- A session ends; its outstanding requests run on, and responses not yet sent are discarded (R447). -/
def closeSession (d : Dev) (sid : Nat) : Dev := modHost d fun h => { h with
  sessions := h.sessions.filter fun s => s.id != sid, reqs := h.reqs.filter fun r => !(r.answered && r.id.session == sid) }

/-- ETH_LINK_DOWN: the link, and after 1 s every session (R447). -/
def ethLinkDown (forOneSecond : Bool) (d : Dev) : Dev :=
  if forOneSecond then (if d.host.link then d else d.host.sessions.foldl (fun d s => closeSession d s.id) d)
  else if d.host.link then modHost d fun h => { h with link := false, downSince := some d.time.now } else d

def execEthLinkDown (forOneSecond : Bool) (s : State) := onDev (ethLinkDown forOneSecond) s

/-! ### Acknowledgement (R440 to R443) -/

/-- Runs of consecutive sequence numbers of an ascending list. -/
def runs : List Nat → List (Nat × Nat)
  | [] => []
  | x :: xs =>
    match runs xs with
    | (a, b) :: t => if a = x + 1 then (x, b) :: t else (x, x) :: (a, b) :: t
    | [] => [(x, x)]

/-- ACK with the blocks held above ACKNO. -/
def sendAck (d : Dev) (sid : Nat) : Dev :=
  match findSession d sid with
  | none => d
  | some s =>
    let blocks := if s.uhp.toNat ≥ 0x11 then ((runs (sortBy id (s.rcvHeld.map fun x => x.2.seq.toNat))).filter fun r => r.1 != s.rcvNext.toNat).take 16 else []
    let body := toLe 8 blocks.length ++ blocks.flatMap fun r => toLe 8 r.1 ++ toLe 8 r.2
    let d := modSession d sid fun s => { s with sinceAck := 0, ackDue := false, ceSeen := false }
    sendRaw d s 8 s.rcvNext (s.ceSeen && decide (s.uhp.toNat ≥ 0x12)) body

/-- A sequenced message has come: ACK after 32 of them, or when the delay ends. -/
def noteAck (d : Dev) (sid : Nat) : Dev :=
  let d := modSession d sid fun s => { s with sinceAck := s.sinceAck + 1, ackDue := true }
  if ((findSession d sid).map (·.sinceAck)).getD 0 ≥ 32 then sendAck d sid else d

/-- ACK_DELAY_TIMER. -/
def execAckDelayTimer (session : Nat) (s : State) :=
  onDev (fun d => if ((findSession d session).map (·.ackDue)).getD false then sendAck d session else d) s

/-- The acknowledgement shows the message received. -/
def ackCovers (ackno : Nat) (blocks : List (Nat × Nat)) (seq : Nat) : Bool :=
  seq < ackno || blocks.any fun r => decide (r.1 ≤ seq ∧ seq ≤ r.2)

/-- The window after `n` messages were acknowledged and, under `ece`, a congestion mark (R442). -/
def windowAfter (now n : Nat) (ece : Bool) (s : Session) : Session :=
  let got := s.ackedInWindow + n
  let s := if got ≥ s.window then { s with window := s.window + 1, ackedInWindow := got - s.window } else { s with ackedInWindow := got }
  let s := if ece && decide (now ≥ s.lastHalved + 1000 * fld s.cfg 15 0) then { s with window := max 1 (s.window / 2), lastHalved := now } else s
  { s with window := min s.window (fld s.cfg 47 32) }

/-- The session a message belongs to (R436). -/
def sessionOf (d : Dev) (m : UhpMsg) : Option Session :=
  d.host.sessions.find? fun s => s.num == m.session.toNat && s.hostAddr == m.hostAddr && s.hostPort == m.hostPort

/-- The header of any message is as R437 and R438 have it. -/
def uhpHeaderOk (m : UhpMsg) : Bool := !m.rsvd && m.len.toNat == m.body.length && decide (m.len.toNat ≤ 8224)

/-- ACK. -/
def ackMsg (m : UhpMsg) (fu : Fuses) (d : Dev) : Dev :=
  let n := le m.body 0 1
  if !uhpUp d ∨ !forPart fu d m.dst then d
  else
  let d := if m.ce then hostErr d 5 1 else d
  if !uhpHeaderOk m ∨ m.seq ≠ 0 ∨ n > 16 ∨ m.body.length ≠ 8 + 16 * n ∨ le m.body 1 7 ≠ 0 then hostErr d 2 1
  else match sessionOf d m with
    | none => d
    | some s =>
      let blocks := if s.uhp.toNat ≥ 0x11 then (List.range n).map fun i => (le m.body (8 + 16 * i) 8, le m.body (16 + 16 * i) 8) else []
      let gone := s.unacked.filter fun u => ackCovers m.ackno.toNat blocks u.msg.seq.toNat
      let ece := m.ece && decide (s.uhp.toNat ≥ 0x12)
      let d := modSession d s.id fun s => { windowAfter d.time.now gone.length ece s with
        unacked := (s.unacked.filter fun u => !ackCovers m.ackno.toNat blocks u.msg.seq.toNat).map fun u => { u with
          tries := if s.stalled then 0 else u.tries }
        stalled := false, ceSeen := s.ceSeen || m.ce }
      pumpSession d s.id

def execAck (m : UhpMsg) (s : State) := onDevF (ackMsg m) s

/-- A status that comes from outside; a reserved value is INTERNAL (R532). -/
def statusIn (v : Nat) : Byte :=
  BitVec.ofNat 8 (if [0x00, 0x01, 0x02, 0x03, 0x04, 0x05, 0x06, 0x10, 0x11, 0x12, 0x13, 0x14, 0x15, 0x20, 0x21, 0x22, 0x30, 0x31, 0x32, 0x40, 0x41, 0x50,
    0x7F].contains v then v else sInternal)

/-- What a refused message meant: a read of a host window ends, a save has failed (R441, R456). -/
def refused (d : Dev) (sid : Nat) (o : OutMsg) (reason : Nat) : Dev :=
  if o.ty = 6 then
    let id := le o.body 20 4
    modHost d fun h => { h with reads := h.reads.map fun r =>
      if r.session == sid && r.reqId.toNat == id then { r with status := statusIn reason } else r }
  else if o.ty = 5 then
    { d with parts := d.parts.map fun x => (x.1, match x.2.saving with
      | some v => if v.toHost && v.req.session == sid then { x.2 with saving := some { v with failed := true } } else x.2
      | none => x.2) }
  else d

/-- NAK: the refused message counts as acknowledged. -/
def nakMsg (m : UhpMsg) (fu : Fuses) (d : Dev) : Dev :=
  let seq := le m.body 0 8
  if !uhpUp d ∨ !forPart fu d m.dst then d
  else
  let d := if m.ce then hostErr d 5 1 else d
  if !uhpHeaderOk m ∨ m.seq ≠ 0 ∨ m.ackno ≠ 0 ∨ m.ece ∨ m.body.length ≠ 9 then hostErr d 2 1
  else match sessionOf d m with
    | none => d
    | some s =>
      let d := modSession d s.id fun s => { s with ceSeen := s.ceSeen || m.ce }
      match s.unacked.find? fun u => u.msg.seq.toNat == seq with
      | none => d
      | some u =>
        let d := modSession d s.id fun s => { s with unacked := s.unacked.filter fun u => u.msg.seq.toNat != seq }
        pumpSession (refused d s.id u.msg (le m.body 8 1)) s.id

def execNak (m : UhpMsg) (s : State) := onDevF (nakMsg m) s

/-- UHP_RETRANSMIT_TIMEOUT: what is missing goes again with identical bytes, or the session is STALLED. -/
def retransmit (sid : Nat) (d : Dev) : Dev :=
  match findSession d sid with
  | none => d
  | some s =>
    if s.unacked.isEmpty ∨ s.stalled then d
    else if s.unacked.any fun u => u.tries ≥ fld s.cfg 19 16 then
      logOp (modSession d sid fun s => { s with stalled := true }) sevWarning none srcHost sNotReady 0 0xFFFF s.num 0
    else
      let d := modSession d sid fun s => { s with
        unacked := s.unacked.map fun u => { u with tries := u.tries + 1 }
        window := if s.uhp.toNat ≥ 0x12 then min 16 (fld s.cfg 47 32) else s.window, ackedInWindow := 0 }
      hostErr (onSession d s (s.unacked.map (·.msg))) 3 s.unacked.length

def execUhpRetransmitTimeout (session : Nat) (s : State) := onDev (retransmit session) s

/-- STALL_PROBE_TIMER: a HELLO probe to the host of a STALLED session. -/
def execStallProbeTimer (session : Nat) (s : State) :=
  onDev (fun d => match findSession d session with
    | some x => if x.stalled then sendRaw d x 1 0 false (helloBody d x) else d
    | none => d) s

/-- UHP_IDLE_TIMEOUT: a STALLED session closes. -/
def execUhpIdleTimeout (session : Nat) (s : State) :=
  onDev (fun d => if ((findSession d session).map (·.stalled)).getD false then closeSession d session else d) s

/-- SESSION_EXPIRY: the key's EXPIRY has come. -/
def execSessionExpiry (session : Nat) (s : State) :=
  onDev (fun d => match (findSession d session).bind (·.key) with
    | some k => if k.expiry ≠ 0 ∧ d.time.now ≥ k.expiry.toNat then closeSession d session else d
    | none => d) s

/-! ### Authentication (R444) -/

/-- The MAC a message should carry; its MAC field lies at `macAt` of the body. -/
def macFor (s : Session) (ty : Nat) (m : UhpMsg) (macAt : Nat) : List Byte := uhpMac s ty m.seq.toNat (putMac m.body (List.replicate 16 0) macAt)

def macOk (s : Session) (ty : Nat) (m : UhpMsg) (macAt : Nat) : Bool :=
  s.key.isNone || (m.body.drop macAt).take 16 == macFor s ty m macAt

/-- A failure is counted; the sixteenth in a row closes the session. -/
def macFailed (d : Dev) (sid : Nat) : Dev :=
  let d := modSession (hostErr d 4 1) sid fun s => { s with macFails := s.macFails + 1 }
  if ((findSession d sid).map (·.macFails)).getD 0 ≥ 16 then closeSession d sid else d

def macPassed (d : Dev) (sid : Nat) : Dev := modSession d sid fun s => { s with macFails := 0 }

def sendNak (d : Dev) (sid seq reason : Nat) : Dev :=
  match findSession d sid with
  | some s => sendRaw d s 9 0 false (nakBody seq reason)
  | none => d

/-! ### Window messages (R455 to R458, R461) -/

def keyMask (s : Session) : U32 := (s.key.map (·.mask)).getD 0

/-- The window that a message of the session names: that number on the lowest mailbox of its mask that holds it. -/
def windowOf? (d : Dev) (s : Session) (win : Nat) : Option (Nat × Window) :=
  ((List.range 17).filter fun m => bit (keyMask s) m).findSome? fun m => (tget d.host.windows (winIdx m win)).map fun w => (winIdx m win, w)

/-- The partition of a window's mailbox. -/
def winPart (k : Nat) : Option Nat := if k / 64 = 0 then none else some (k / 64 - 1)

/-- A WRITE: the failing reason, or the device with the data applied. -/
def applyWrite (d : Dev) (s : Session) (win off : Nat) (data : List Byte) : Nat ⊕ Dev :=
  match windowOf? d s win with
  | none => .inl sBadField
  | some (k, w) =>
    if !w.canWrite ∨ !(w.kind = .data ∨ w.kind = .firmware) then .inl sDenied
    else if off + data.length > w.len ∨ data.isEmpty then .inl sBadField
    else match winPart k with
      | none => .inr { d with host := { d.host with staging := tmod d.host.staging k [] fun m => mwrite m off data } }
      | some p =>
        if !okNew d p false (w.addr + off) data.length then .inl sBadField
        else .inr (writeRange (chargeRange d p (w.addr + off) data.length) p false (w.addr + off) data)

/-- The status of a read of a result generation (R461). -/
def genStatus (d : Dev) (w : Window) (g : Nat) : Nat :=
  match tget w.gens g with
  | some (.published lease) => if d.time.now < lease then sOk else sExpired
  | some .void => sExpired
  | some .gone => sExpired
  | some _ => sNotReady
  | none => sExpired

def winBuf (w : Window) (g : Nat) : Memory := if g % 2 = 0 then w.buf0 else w.buf1

/-- What a READ_REQ gives: a status, and the bytes. -/
def readWindow (d : Dev) (k : Nat) (w : Window) (gen off len : Nat) : Nat × List Byte × Dev :=
  if off + len > w.len ∨ len = 0 ∨ len > 16777216 then (sBadField, [], d)
  else match w.kind with
    | .data =>
      (match winPart k with
       | none => (sBadField, [], d)
       | some p =>
         if gen ≠ 0 ∨ !okNew d p false (w.addr + off) len then (sBadField, [], d)
         else match poisonAt d p false (w.addr + off) len with
           | some i => (sInternal, [], lossHere d p 0 (w.addr + off + i))
           | none => (sOk, readRange d p false (w.addr + off) len, chargeRange d p (w.addr + off) len))
    | .result => (let st := genStatus d w gen; (st, if st = sOk then mread (winBuf w gen) off len else [], d))
    | _ => (sDenied, [], d)

/-- One READ_RESP of the window at key k. -/
def sendReadResp (d : Dev) (sid k status reqId off : Nat) (data : List Byte) : Dev :=
  let win := k % 64
  sendMail d sid 7 (k / 64) (toLe 16 (packNat [(0, win), (16, status), (32, reqId), (64, off)]) ++ data ++ List.replicate 16 0) (16 + data.length)

/-- A READ_REQ: the NAK reason, or the device after its answers. -/
def applyRead (d : Dev) (s : Session) (b : List Byte) : Nat ⊕ Dev :=
  let win := le b 0 2
  let off := le b 8 8
  let id := le b 20 4
  match windowOf? d s win with
  | none => .inl sBadField
  | some (k, w) =>
    if !w.canRead ∨ !(w.kind = .data ∨ w.kind = .result) then .inl sDenied
    else
      let (st, bs, d) := readWindow d k w (le b 4 4) off (le b 16 4)
      if st ≠ sOk then .inr (sendReadResp d s.id k st id off [])
      else
        .inr (((chunks 8192 bs).mapIdx fun i x => (i, x)).foldl (fun d x => sendReadResp d s.id k sOk id (off + 8192 * x.1) x.2) d)

/-- The host has opened a window under this ID for one of the session's mailboxes (R455). -/
def hostWinKnown (d : Dev) (s : Session) (win : Nat) : Bool :=
  d.host.windows.any fun w => w.2.kind == .host && w.2.addr == win && bit (keyMask s) (w.1 / 64)

/-- A READ_RESP: data of a host window that the part has asked for. -/
def applyReadResp (d : Dev) (sid : Nat) (b : List Byte) : Dev :=
  let id := le b 4 4
  let st := le b 2 1
  let off := le b 8 8
  let data := b.drop 16
  modHost d fun h => { h with reads := h.reads.map fun r =>
    if r.session == sid && r.reqId.toNat == id then
      if st ≠ 0 then { r with status := statusIn st }
      else if off < r.offset ∨ off + data.length > r.offset + r.len then r
      else { r with got := mwrite r.got off data, gotBytes := r.gotBytes + data.length }
    else r }

/-- The part asks for bytes of a host window (R456). -/
def sendReadReq (d : Dev) (sid k hostWin off len : Nat) : Dev :=
  let id := d.host.nextReadId
  let d := modHost d fun h => { h with nextReadId := h.nextReadId + 1, reads := h.reads ++ [⟨sid, k, id, off, len, [], 0, 0⟩] }
  sendMail d sid 6 (k / 64) (toLe 24 (packNat [(0, hostWin), (64, off), (128, len), (160, id.toNat)]) ++ List.replicate 16 0) 24

/-- The part writes bytes into the host window at key k. -/
def sendWrite (d : Dev) (sid k hostWin off : Nat) (data : List Byte) : Dev :=
  sendMail d sid 5 (k / 64) (toLe 16 (packNat [(0, hostWin), (64, off)]) ++ data ++ List.replicate 16 0) (16 + data.length)

end Sys2Proof.Machine
end

