-- ==== Sys2Proof/Machine/Mbox.lean ====
section
/-! DEFINITION. Sequenced messages from the host: their order, the checks of a mailbox request, and when an
outstanding request may run (R438, R440, R441, R444, R448 to R451, R456 to R458, R493). -/

namespace Sys2Proof.Machine

/-! ### The commands of R452 -/

def isPartCmd (cmd : Nat) : Bool := decide (0x10 ≤ cmd ∧ cmd ≤ 0x13)

/-- Where a command is served: on mailbox 0, on the partition mailboxes. -/
def servedOn (cmd : Nat) : Bool × Bool :=
  if (0x01 ≤ cmd ∧ cmd ≤ 0x03) ∨ isPartCmd cmd ∨ [0x60, 0x61, 0x70, 0x71, 0x72, 0x80, 0x81, 0x82, 0xF0, 0xF1].contains cmd then (true, false)
  else if cmd = 0x30 then (true, true)
  else if (0x20 ≤ cmd ∧ cmd ≤ 0x26) ∨ [0x31, 0x32, 0x40, 0x41, 0x42, 0x50, 0x51, 0x52].contains cmd then (false, true)
  else (false, false)

/-- Commands that need PRIV (R446). -/
def privCmd (cmd : Nat) : Bool := [0xF0, 0xF1, 0x70, 0x71, 0x80, 0x82].contains cmd

/-- The body's length is one that the command's fields give. -/
def bodySizeOk (cmd : Nat) (b : List Byte) : Bool :=
  let n := b.length
  let is (k : Nat) : Bool := n == k
  match cmd with
  | 0x01 => is 124
  | 0x10 => pcLenOk b
  | 0x12 => quotaLenOk b
  | 0x13 => is 17
  | 0x20 => is 20
  | 0x21 => decide (n ≥ 32) && (if le b 24 8 = 0 then is (32 + 64 * le b 4 2) else is 32)
  | 0x22 => is 4
  | 0x25 => is 8
  | 0x26 => is 8
  | 0x30 => is 32
  | 0x31 => is 16
  | 0x32 => is 8
  | 0x40 => is 264
  | 0x41 => decide (n ≥ 24) && (if le b 16 8 = 0 then is (32 + 16 * le b 10 2) else is 24)
  | 0x42 => is 24
  | 0x50 => is 8
  | 0x51 => is 40
  | 0x52 => is 24
  | 0x60 => is 12
  | 0x61 => is 4
  | 0x70 => is 8
  | 0x71 => is 5
  | 0x72 => is 34
  | 0x80 => is 6
  | 0x81 => decide (n ≥ 16) && is (16 + le b 8 4)
  | 0x82 => is 3
  | 0xF0 => is 10
  | 0xF1 => decide (n ≥ 16) && is (16 + 8 * le b 8 2)
  | _ => is 0

/-- What network recovery accepts (R493). -/
def recoveryCmd (cmd : Nat) (b : List Byte) : Bool :=
  [0x01, 0x02, 0x03, 0x70, 0x71, 0xF0].contains cmd || (cmd == 0x30 && le b 0 1 == 3)

def inRecovery (d : Dev) : Bool := d.boot.stage == .recovery

/-! ### The checks of a request (R448, R449) -/

def mhMbox (h : List Byte) : Nat := le h 1 1
def mhCmd (h : List Byte) : Nat := le h 2 2
def mhTag (h : List Byte) : U32 := BitVec.ofNat 32 (le h 4 4)
def mhLen (h : List Byte) : Nat := le h 8 4
def mhPart (h : List Byte) : Nat := le h 12 1 % 16
def mhNoevt (h : List Byte) : Bool := (le h 13 1).testBit 0

/-- Step 3: the session may not use this mailbox or command. -/
def mboxDenied (d : Dev) (s : Session) (mb cmd : Nat) : Bool :=
  match s.key with
  | none => !(mb == 0 && (cmd == 0x01 || cmd == 0x03))
  | some k => decide (mb ≥ 32) || !bit k.mask mb || (mb != 0 && (decide (mb > 16) || !(d.part (mb - 1)).valid)) || (privCmd cmd && !k.priv)

/-- Step 6: reserved bits, PARTITION, and the tag. -/
def mboxFieldsOk (d : Dev) (s : Session) (h : List Byte) : Bool :=
  let mb := mhMbox h
  le h 12 1 / 16 == 0 && le h 13 1 / 2 == 0 && le h 14 2 == 0 &&
  (if mb = 0 then isPartCmd (mhCmd h) || mhPart h == 0 else mhPart h == mb - 1) &&
  !(d.host.reqs.any fun r => r.id == (⟨s.id, mb, mhTag h⟩ : ReqId))

/-- The first status of R449 that applies; OK when the request is accepted. -/
def mboxStatus (d : Dev) (s : Session) (m : UhpMsg) : Nat :=
  let h := m.body
  let b := h.drop 32
  let mb := mhMbox h
  let cmd := mhCmd h
  let on := servedOn cmd
  if le h 0 1 ≠ s.mbox.toNat then sBadVersion
  else if !macOk s 2 m 16 then sAuth
  else if mboxDenied d s mb cmd then sDenied
  else if !(if mb = 0 then on.1 else on.2) ∨ (inRecovery d ∧ !recoveryCmd cmd b) then sBadCommand
  else if mhLen h ≠ b.length ∨ b.length > 8192 ∨ !bodySizeOk cmd b then sBadLength
  else if !mboxFieldsOk d s h then sBadField
  else if (d.host.reqs.filter fun r => r.id.mailbox == mb).length ≥ 32 then sBusy
  else sOk

def reqOf (s : Session) (m : UhpMsg) : Req :=
  ⟨⟨s.id, mhMbox m.body, mhTag m.body⟩, m.seq, mhCmd m.body, mhPart m.body, mhNoevt m.body, m.body.drop 32, false, false⟩

/-- A request in its turn: accepted, or answered with its failing status. -/
def takeRequest (d : Dev) (s : Session) (m : UhpMsg) : Dev :=
  if m.body.length < 32 then sendNak d s.id m.seq.toNat sBadLength
  else
    let st := mboxStatus d s m
    let r := reqOf s m
    let d := if st = sBadVersion ∨ st = sAuth then d else macPassed d s.id
    if st = sOk then modHost d fun h => { h with reqs := h.reqs ++ [r] }
    else
      let d := sendResp (if st = sBusy then hostErr d 6 1 else d) r st 0xFFFF []
      if st = sAuth then macFailed d s.id else d

/-! ### Window messages in their turn (R444, R456, R457) -/

def msgSizeOk (ty n : Nat) : Bool :=
  if ty = 5 then decide (33 ≤ n ∧ n ≤ 8224) else if ty = 6 then n == 40 else decide (32 ≤ n ∧ n ≤ 8224)

def takeWindowMsg (d : Dev) (s : Session) (ty : Nat) (m : UhpMsg) : Dev :=
  let n := m.body.length
  let b := m.body.take (n - 16)
  let refuse (d : Dev) (reason : Nat) : Dev := sendNak d s.id m.seq.toNat reason
  if !msgSizeOk ty n then refuse d sBadLength
  else if s.key.isNone then refuse d sDenied
  else if !macOk s ty m (n - 16) then macFailed (refuse d sAuth) s.id
  else
    let d := macPassed d s.id
    if ty = 5 then
      match applyWrite d s (le b 0 2) (le b 8 8) (b.drop 16) with
      | .inl r => refuse d r
      | .inr d => d
    else if ty = 6 then
      match applyRead d s b with
      | .inl r => refuse d r
      | .inr d => d
    else if hostWinKnown d s (le b 0 2) then applyReadResp d s.id b
    else refuse d sBadField

/-! ### Delivery in SEQ order (R366, R440) -/

/-- The partition that a message's traffic is charged to, and whether it reaches into DRAM. -/
def msgPart (d : Dev) (s : Session) (ty : Nat) (m : UhpMsg) : Option (Nat × Bool) :=
  if ty = 2 then (if 1 ≤ mhMbox m.body ∧ mhMbox m.body ≤ 16 then some (mhMbox m.body - 1, false) else none)
  else if ty = 7 then
    (d.host.reads.find? fun r => r.session == s.id && r.reqId.toNat == le m.body 4 4).bind fun r => (winPart r.window).map fun p => (p, false)
  else (windowOf? d s (le m.body 0 2)).bind fun w => (winPart w.1).map fun p => (p, w.2.kind == .data)

/-- The message waits: a Weir it needs is empty. -/
def msgWaits (d : Dev) (s : Session) (ty : Nat) (m : UhpMsg) : Bool :=
  match msgPart d s ty m with
  | some (p, mem) => !weirOk d p 3 || (mem && !weirOk d p 0)
  | none => false

/-- One message is handed to its consumer. -/
def deliver (d : Dev) (s : Session) (ty : Nat) (m : UhpMsg) : Dev :=
  let d := match msgPart d s ty m with
    | some (p, _) => weirCharge d p 3 m.body.length
    | none => d
  if m.version ≠ s.uhp then sendNak d s.id m.seq.toNat sBadVersion
  else if ty = 2 then takeRequest d s m
  else takeWindowMsg d s ty m

def pumpRxFuel : Nat → Nat → Dev → Dev
  | 0, _, d => d
  | n + 1, sid, d =>
    match findSession d sid with
    | none => d
    | some s =>
      match s.rcvHeld.find? fun x => x.2.seq == s.rcvNext with
      | none => d
      | some (ty, m) =>
        if msgWaits d s ty m then d
        else
          let d := modSession d sid fun s => { s with
            rcvHeld := dropFirst (fun x => x.2.seq == m.seq) s.rcvHeld, rcvNext := s.rcvNext + 1, ackDue := true }
          pumpRxFuel n sid (deliver d { s with rcvNext := s.rcvNext + 1 } ty m)

/-- Delivers what a session has received in order. -/
def pumpRx (d : Dev) (sid : Nat) : Dev := pumpRxFuel (((findSession d sid).map (·.rcvHeld.length)).getD 0) sid d

def pumpRxAll (d : Dev) : Dev := (d.host.sessions.map (·.id)).foldl pumpRx d

/-- A sequenced message arrives: MBOX_REQ 2, WRITE 5, READ_REQ 6, READ_RESP 7. -/
def sequenced (ty : Nat) (m : UhpMsg) (fu : Fuses) (d : Dev) : Dev :=
  if !uhpUp d ∨ !forPart fu d m.dst then d
  else
  let d := if m.ce then hostErr d 5 1 else d
  if !uhpHeaderOk m ∨ m.ackno ≠ 0 ∨ m.ece then hostErr d 2 1
  else match sessionOf d m with
    | none => nakTo d m m.session.toNat sBadField
    | some s =>
      let ahead := (m.seq - s.rcvNext).toNat
      let d := modSession d s.id fun s => { s with ceSeen := s.ceSeen || m.ce }
      if ahead ≥ 2 ^ 63 ∨ s.rcvHeld.any (fun x => x.2.seq == m.seq) then sendAck d s.id
      else if ahead ≥ fld s.cfg 47 32 then d
      else noteAck (pumpRx (modSession d s.id fun s => { s with rcvHeld := s.rcvHeld ++ [(ty, m)] }) s.id) s.id

def execMboxReq (m : UhpMsg) (s : State) := onDevF (sequenced 2 m) s
def execWrite (m : UhpMsg) (s : State) := onDevF (sequenced 5 m) s
def execReadReq (m : UhpMsg) (s : State) := onDevF (sequenced 6 m) s
def execReadResp (m : UhpMsg) (s : State) := onDevF (sequenced 7 m) s

/-! ### Execution of an outstanding request (R451) -/

/-- Configuration commands: one acts at a time, in acceptance order across all sessions (R451). -/
def isConfig (cmd : Nat) : Bool := isPartCmd cmd || [0x20, 0x25, 0x26, 0x30, 0x40, 0x41, 0x42, 0x50, 0x51].contains cmd

/-- The request may start: it is first of its session among those not started, and no earlier configuration command
is under way or waiting where it is one itself. -/
def runnable (d : Dev) (r : Req) : Bool :=
  let before := (d.host.reqs.takeWhile fun q => q.id != r.id).filter fun q => !q.answered
  !r.answered && !(before.any fun q => q.id.session == r.id.session && !q.started) && !(isConfig r.cmd && before.any fun q => isConfig q.cmd)

/-- The command of an outstanding request, once the request may run. `k` says which requests of the code it is. -/
def onReq (r : ReqId) (cmd : Nat) (k : List Byte → Bool) (f : Req → Dev → Dev) (d : Dev) : Dev :=
  match d.host.reqs.find? fun q => q.id == r with
  | some q => if q.cmd == cmd && k q.body && !q.answered && (q.started || runnable d q) then f q d else d
  | none => d

/-- Every request of the code. -/
def always : List Byte → Bool := fun _ => true

/-- The request's effect has begun and ends later. -/
def markStarted (d : Dev) (r : Req) : Dev :=
  modHost d fun h => { h with reqs := updFirst (fun q => q.id == r.id) (fun q => { q with started := true }) h.reqs }

/-- A response whose effect gave a status or the device after it. -/
def reply (d : Dev) (r : Req) : Nat ⊕ Dev → Dev
  | .inl st => if st = sBusy then respondBusy d r else respondErr d r st
  | .inr d => respondOk d r []

/-- A failing response; BUSY is counted. -/
def refuse (d : Dev) (r : Req) (st : Nat) : Dev := if st = sBusy then respondBusy d r else respondErr d r st

/-! ### WEIR_FILL (R366) -/

/-- What waited on a Weir goes on: collectives, landed rows, bulk descriptors, and messages of the host. -/
def weirFreed (d : Dev) (p : Nat) : Dev :=
  let comms := ((d.rill.colls.filter fun x => x.part == p && !x.ended).map (·.comm)).eraseDups
  pumpRxAll (loadEngines (placeWaiting (comms.foldl (fun d c => settleColl d p c) d) p))

def weirFill (p : Nat) (r : Resource) (bytes : Nat) (d : Dev) : Dev :=
  let x := d.part p
  let i := resIdx r
  if !x.valid ∨ weirRateOf x i = 0 then d
  else weirFreed (d.modPart p fun x => { x with weirLevel := tput x.weirLevel i (min (weirDepth x i : Int) (weirLevelOf x i + bytes)) }) p

def execWeirFill (p : Nat) (r : Resource) (bytes : Nat) (s : State) := onDev (weirFill p r bytes) s

end Sys2Proof.Machine
end

