-- ==== Sys2Proof/Machine/Boot.lean ====
section
/-! DEFINITION. Resets, the boot sequence, the firmware image, the identity key and attestation (R485 to R501,
R503, R504, R512, R513, R454). -/

namespace Sys2Proof.Machine

/-! ### Resets (R485, R504) -/

/-- A reset: LAST_RESET is kept by the power-stage controller (R517), and so are its inputs and the reason the rails
are off. -/
def restart (s : State) (cause : Nat) (g : Dev → Dev) : State :=
  let t := afterReset { s.fuses with lastReset := cause } s.dev.ftl s.pending
  let b := s.dev.boot
  let x := s.dev.pwr
  { t with dev := g { t.dev with
      boot := { t.dev.boot with held := b.held }
      pwr := { t.dev.pwr with off := x.off, rails := x.off.isNone && !b.held, epoLow := x.epoLow } } }

/-- The rails go down for a cause. -/
def powerOff (s : State) (cause : Nat) (off : OffCause) : State :=
  restart s cause fun d => { d with pwr := { d.pwr with rails := false, off := some off } }

/-- The rails come up: the boot ROM starts. -/
def powerOn (d : Dev) : Dev := { d with pwr := { d.pwr with off := none, rails := !d.boot.held } }

/-- An input that is found at a proper level is faulty no longer; SB_FAULT is a level (R512, R517). -/
def inputSeen (i : Sideband → Bool) (d : Dev) : Dev :=
  let left := d.pwr.faulty.filter fun x => !i x
  { d with pwr := { d.pwr with faulty := left, sbFault := !left.isEmpty } }

/-- RESET_IN_ASSERT: low for long enough (R512). -/
def execResetInAssert (s : State) : Host.Outcome State Fault Refusal :=
  let s := { s with dev := inputSeen (· == .resetIn) s.dev }
  if s.dev.boot.held then .next s
  else
    let hold (d : Dev) : Dev := { d with boot := { d.boot with held := true }, pwr := { d.pwr with rails := false } }
    .next (if s.dev.pwr.off.isSome then { s with dev := hold s.dev } else restart s 1 hold)

/-- RESET_IN_N reads high. -/
def resetHigh (d : Dev) : Dev :=
  if !d.boot.held then d
  else { d with boot := { d.boot with held := false }, pwr := { d.pwr with rails := d.pwr.off.isNone } }

def resetInRelease (d : Dev) : Dev := resetHigh (inputSeen (· == .resetIn) d)

def execResetInRelease (s : State) := onDev resetInRelease s

/-- INPUT_STABLE: the wait of R503 is over. -/
def execInputStable (s : State) :=
  onDev (fun d => match d.pwr.off with
    | some .brownOut => powerOn d
    | some .overVoltage => powerOn d
    | some .stable => powerOn d
    | _ => d) s

/-- BROWN_OUT: the input is lost, and with it what turned the rails off before. -/
def execBrownOut (s : State) : Host.Outcome State Fault Refusal :=
  .next (powerOff s 0 (if s.dev.pwr.epoLow then .epo else .brownOut))

def execOverVoltage (s : State) : Host.Outcome State Fault Refusal :=
  match s.dev.pwr.off with
  | none => .next (powerOff s 5 .overVoltage)
  | some .thermalTrip => .next s
  | some .epo => .next s
  | some _ => .next (powerOff s s.fuses.lastReset .overVoltage)

/-- EPO_N is low. -/
def epoLow (s : State) : State :=
  let s := { s with dev := { s.dev with pwr := { s.dev.pwr with epoLow := true } } }
  match s.dev.pwr.off with
  | none => powerOff s 4 .epo
  | some .thermalTrip => s
  | some _ => powerOff s s.fuses.lastReset .epo

def execEpoAssert (s : State) : Host.Outcome State Fault Refusal :=
  .next (epoLow { s with dev := inputSeen (· == .epo) s.dev })

def execEpoDeassert (s : State) :=
  onDev (fun d =>
    let d := inputSeen (· == .epo) d
    let off := if d.pwr.off = some .epo then some .stable else d.pwr.off
    if d.pwr.epoLow then { d with pwr := { d.pwr with epoLow := false, off := off } } else d) s

/-- TRIP_COOLED: every sensor is below 60 °C. -/
def execTripCooled (s : State) :=
  onDev (fun d => if d.pwr.off = some .thermalTrip then
      { d with pwr := { d.pwr with off := some (if d.pwr.epoLow then .epo else .stable) } }
    else d) s

/-! ### Sideband inputs (R511 to R513) -/

def logInput (d : Dev) (sev source cls inst v : Nat) : Dev :=
  logIt d sev none source 0x0007 (packNat [(0, cls), (16, inst), (64, v)])

/-- The contact of an input (R511). -/
def contactOf : Sideband → Nat
  | .resetIn => 2
  | .epo => 3
  | .slotId b => 7 + b

def pwrErr (d : Dev) (i : Nat) : Dev := { d with pwr := { d.pwr with err := bump d.pwr.err i 1 } }

/-- SIDEBAND_FAULT: the input takes its safe value: RESET_IN_N high, EPO_N low. -/
def execSidebandFault (i : Sideband) (s : State) : Host.Outcome State Fault Refusal :=
  if s.dev.pwr.faulty.contains i then .next s
  else
    let d := pwrErr s.dev 3
    let d := logInput { d with pwr := { d.pwr with faulty := d.pwr.faulty ++ [i], sbFault := true } } sevWarning srcPwr 1 (contactOf i) 0
    match i with
    | .resetIn => .next { s with dev := resetHigh d }
    | .epo => .next (epoLow { s with dev := d })
    | .slotId _ => .next { s with dev := d }

def slotFaulty (x : Power) : Bool := x.faulty.any fun i => match i with
  | .slotId _ => true
  | _ => false

/-- SLOT_ID_SAMPLE: fixed when the last three samples agree and no bit is faulty. -/
def slotIdSample (v : BitVec 6) (d : Dev) : Dev :=
  if !d.pwr.rails ∨ d.boot.stage ≠ .rom ∨ d.boot.slotFixed then d
  else
    let xs := lastN 3 (d.boot.slotSamples ++ [v])
    let d := { d with boot := { d.boot with slotSamples := xs } }
    if xs.length < 3 then d
    else if xs.all (· == v) && !slotFaulty d.pwr then
      { d with boot := { d.boot with slotFixed := true }, pwr := { d.pwr with slot := v } }
    else if d.boot.slotLogged then d
    else logInput { d with boot := { d.boot with slotLogged := true } } sevWarning srcPwr 2 0 v.toNat

def execSlotIdSample (v : BitVec 6) (s : State) := onDev (slotIdSample v) s

def isSlotId : Sideband → Bool
  | .slotId _ => true
  | _ => false

/-- SLOT_ID_CHANGE: the contacts are at proper levels again; once the slot is fixed, ignored and logged. -/
def slotIdChange (v : BitVec 6) (d : Dev) : Dev :=
  let d := inputSeen isSlotId d
  if d.boot.slotFixed then logInput d sevNotice srcPwr 2 0 v.toNat else d

def execSlotIdChange (v : BitVec 6) (s : State) := onDev (slotIdChange v) s

/-! ### The firmware image (R488 to R490) -/

def fwMax : Nat := 2 ^ 28

/-- An image of these bytes: the REASON of R487 that refuses it, or what it is. -/
def fwCheck (f : Fuses) (b : List Byte) : Nat ⊕ FwImage :=
  let body := le b 16 4
  let svn := le b 12 1
  if le b 0 4 ≠ 0x46575244 ∨ le b 4 1 ≠ 1 then .inl 6
  else if svn > 64 ∨ body % 4096 ≠ 0 ∨ le b 20 4 ≠ 5236 ∨ b.length ≠ 64 + body + 5236 ∨ b.length > fwMax ∨
      !hssVerify f.hssKey (b.drop (64 + body)) (b.take 64) ∨ sha256 ((b.drop 64).take body) ≠ (b.drop 24).take 32 then .inl 2
  else if svn < f.svnFloor then .inl 3
  else .inr ⟨BitVec.ofNat 32 (le b 8 4), svn, b⟩

/-! ### The measurement log (R498) -/

/-- A log entry's 48 bytes. -/
def mentry (i : Nat) (e : MEntry) : List Byte :=
  toLe 16 (packNat [(0, i), (32, e.kind), (64, e.time % 2 ^ 64)]) ++ toLe 32 e.digest.toNat

def measure (d : Dev) (kind : Nat) (digest : List Byte) : Dev :=
  let e : MEntry := ⟨kind, d.time.now, BitVec.ofNat 256 (leNat digest)⟩
  let b := d.boot
  let run := sha256 (toLe 32 b.running.toNat ++ mentry b.mlog.length e)
  { d with boot := { b with mlog := b.mlog ++ [e], running := BitVec.ofNat 256 (leNat run) } }

/-- KIND 1 and 2: the boot ROM and the fuse settings. -/
def measureRom (f : Fuses) (d : Dev) : Dev :=
  let settings := toLe 1 (match f.grade with | .a => 0 | .b => 1) ++ toLe 1 f.svnFloor ++ toLe 56 f.idPublic.toNat
  measure (measure d 1 (toLe 32 Config.romDigest.toNat)) 2 (sha256 settings)

/-! ### The boot sequence (R486, R487) -/

def stageNum : Stage → Nat
  | .rom => 0
  | .flashMount => 1
  | .verify => 2
  | .dramTest => 3
  | .optics => 4
  | .network => 5
  | .ready => 6
  | .recovery => 7
  | .halted => 0

/-- The BOOT entry of the log (R526). -/
def logBoot (f : Fuses) (sev : Nat) (d : Dev) : Dev :=
  logIt d sev none srcBoot 0x0001
    (packNat [(0, f.lastReset), (8, stageNum d.boot.stage), (16, d.boot.reason), (64, d.boot.fwVersion.toNat)])

def enterStage (f : Fuses) (st : Stage) (d : Dev) : Dev := logBoot f sevInfo { d with boot := { d.boot with stage := st } }

/-- Network recovery with a REASON (R487, R493). -/
def enterRecovery (f : Fuses) (reason : Nat) (d : Dev) : Dev :=
  let d := if d.boot.mlog.isEmpty then measureRom f d else d
  let d := measure d 5 (pad 32 [BitVec.ofNat 8 reason])
  logBoot f sevWarning { d with boot := { d.boot with stage := .recovery, reason := reason, fwVersion := 0 } }

/-- The identity certificate: FORMAT 1, the serial number, the identity key and Tirsil's signature (R495). -/
def certBytes (f : Fuses) : List Byte :=
  toLe 8 1 ++ toLe 8 f.serial.toNat ++ toLe 56 f.idPublic.toNat ++ toLe 5236 f.certSign.toNat

/-- VERIFY: the image is checked, the fuse floor raised, the log begun, the firmware started. -/
def verifyStage (s : State) : State :=
  let f := s.fuses
  match if f.image.isEmpty then .inl 1 else fwCheck f f.image with
  | .inl r => { s with dev := enterRecovery f r s.dev }
  | .inr x =>
    let f := { f with svnFloor := max f.svnFloor x.svn }
    let d := measure (measure (measureRom f s.dev) 3 (sha256 (x.bytes.take 64))) 4 (sha256 (certBytes f))
    { s with fuses := f, dev := enterStage f .dramTest { d with boot := { d.boot with fwVersion := x.version } } }

/-- The optics are locked: every port starts its bring-up (R179). -/
def lightPorts (d : Dev) : Dev := (List.range 48).foldl startPort d

/-- The mailboxes are ready: duplicate address detection ends, LLDP is sent, and the measurement log is fixed. -/
def mailboxReady (f : Fuses) (d : Dev) : Dev :=
  let d := { d with boot := { d.boot with mlogFixed := true }, host := { d.host with llSince := none } }
  enterStage f .ready (sendFrame d (.lldp f.mac (myId d) 120 f.serial))

/-- The DRAM self-test has found defects and spared them, with the count and record of each (R304, R486). -/
def selfTestSpared (rows banks : List (Nat × Nat)) (d : Dev) : Dev :=
  let d := rows.foldl (fun d x =>
    let key := 64 * Config.dramBank x.2 + x.1
    let d := { d with mem := { d.mem with bankRows := tput d.mem.bankRows key (tgetD d.mem.bankRows key 0 + 1), err := bump d.mem.err 1 1 } }
    recoveryEvent d sRecovered 0x02 none 2 x.1 0 0) d
  banks.foldl (fun d x =>
    let d := { d with mem := { d.mem with sparedChans := d.mem.sparedChans ++ [x.1], err := bump d.mem.err 2 1 } }
    recoveryEvent d sRecovered 0x03 none 2 x.1 0 0) d

/-- BOOT_STAGE_DONE: the stage under way ends with this outcome. -/
def bootStageDone (o : StageOutcome) (s : State) : State :=
  let f := s.fuses
  let d := s.dev
  let b := d.boot
  let goTo (g : Dev → Dev) : State := { s with dev := g d }
  if !d.pwr.rails then s
  else match b.stage, o with
    | .rom, .romFail => goTo fun d => logBoot f sevWarning { d with boot := { b with stage := .halted } }
    | .rom, .ok => if b.slotFixed then goTo fun d => enterStage f .flashMount { d with boot := { b with fwRegionOk := true } } else s
    | .flashMount, .ok => goTo (enterStage f .verify)
    | .flashMount, .flashFail => goTo (enterRecovery f 4)
    | .verify, .ok => verifyStage s
    | .dramTest, .ok => goTo (enterStage f .optics)
    | .dramTest, .dramSpared rows banks => goTo fun d => enterStage f .optics (selfTestSpared rows banks d)
    | .dramTest, .dramDefect => goTo fun d => enterRecovery f 5 { d with boot := { b with dramDefect := true } }
    | .optics, .ok => goTo fun d => lightPorts (enterStage f .network d)
    | .network, .ok => if d.host.link then goTo (mailboxReady f) else s
    | _, _ => s

def execBootStageDone (o : StageOutcome) (s : State) : Host.Outcome State Fault Refusal := .next (bootStageDone o s)

/-- ETH_LINK_UP: duplicate address detection of the link-local address starts; in recovery a global address is
solicited (R433, R486, R493). -/
def ethLinkUp (f : Fuses) (d : Dev) : Dev :=
  let st := d.boot.stage
  if d.host.link ∨ !(st == .network || st == .ready || st == .recovery) then d
  else
    let d := modHost d fun h => { h with link := true, downSince := none, llSince := some d.time.now, llDup := false }
    let d := sendFrame d (.neighborSolicitation (linkLocal f.mac))
    if st = .recovery ∧ d.host.ip6.isNone then sendFrame d .dhcpv6Solicit else d

def execEthLinkUp (s : State) := onDevF ethLinkUp s

/-- ETH_TRAIN_RETRY: training goes on; the link stays down until ETH_LINK_UP. -/
def execEthTrainRetry (s : State) := onDev id s

/-- DHCPV6_RESOLICIT, in recovery while no server has given an address (R493). -/
def execDhcpv6Resolicit (s : State) :=
  onDev (fun d => if inRecovery d && d.host.link && d.host.ip6.isNone then sendFrame d .dhcpv6Solicit else d) s

/-! ### Staged update (R491, R492, R454) -/

/-- A mailbox command that acts on the fuses or the reserved flash area as well. -/
def onReqS (r : ReqId) (cmd : Nat) (f : Req → State → State) (s : State) : Host.Outcome State Fault Refusal :=
  match s.dev.host.reqs.find? fun q => q.id == r with
  | some q => .next (if q.cmd == cmd && !q.answered && (q.started || runnable s.dev q) then f q s else s)
  | none => .next s

/-- The status that a refused image gives FW_STAGE. -/
def stageStatus (reason : Nat) : Nat := if reason = 2 then sAuth else sBadVersion

/-- FW_STAGE. -/
def fwStage (r : Req) (f : Fuses) (d : Dev) : Dev :=
  let k := winIdx 0 (le r.body 0 2)
  let len := le r.body 4 4
  if d.boot.commit.isSome then respondBusy d r
  else match tget d.host.windows k with
    | none => respondErr d r sBadField
    | some w =>
      if w.kind ≠ .firmware ∨ le r.body 0 2 ≥ 64 ∨ len > w.len ∨ le r.body 2 2 ≠ 0 then respondErr d r sBadField
      else match fwCheck f (mread (tgetD d.host.staging k []) 0 len) with
        | .inl reason => respondErr d r (stageStatus reason)
        | .inr x => respondOk { d with boot := { d.boot with staged := some x } } r (toLe 4 x.version.toNat)

def execFwStage (r : ReqId) (s : State) := onDevF (fun f d => onReq r 0x70 always (fun q d => fwStage q f d) d) s

def fwDone (d : Dev) (r : Req) (version : Nat) : Dev :=
  sendEvent d { code := 0x0C, mailbox := 0, status := sOk, tag := r.id.tag.toNat, id := version, data := [0]
                source := srcBoot, dest := some (r.id.session, r.noevt) }

/-- The commit resets the part: it asks for it, or the recovery boot runs (R454, R493). -/
def commitResets (d : Dev) (r : Req) : Bool := (le r.body 4 1).testBit 0 || inRecovery d

/-- FW_COMMIT begins to write: until the header is programmed, last of all, the flash holds no image. With a reset it is
answered ACCEPTED at once (R454, R492). -/
def commitBegin (r : Req) (x : FwImage) (s : State) : State :=
  let d := s.dev
  let v := le r.body 0 4
  let d1 := { d with boot := { d.boot with commit := some (r, x) } }
  if d.boot.dramDefect ∨ x.version.toNat ≠ v ∨ le r.body 4 1 > 1 then { s with dev := respondErr d r sBadField }
  else if commitResets d r then
    if d.parts.any fun p => p.2.valid then { s with dev := respondBusy d r }
    else
      let seq := ((findSession d r.id.session).map (·.sndNext)).getD 0
      { s with fuses := { s.fuses with image := [] }
               dev := respond { d1 with boot := { d1.boot with resetAfter := some (r.id.session, seq) } } r sAccepted 0xFFFF [] }
  else { s with fuses := { s.fuses with image := [] }, dev := markStarted d1 r }

/-- The write is done: the answer where none was given, and FW_DONE. -/
def commitEnd (r : Req) (x : FwImage) (s : State) : State :=
  let d := { s.dev with boot := { s.dev.boot with commit := none } }
  let d := if commitResets d r then d else respondOk d r []
  { s with fuses := { s.fuses with image := x.bytes }, dev := fwDone d r (le r.body 0 4) }

/-- FW_COMMIT: the write begins, and ends on the command's next execution. -/
def fwCommit (r : ReqId) (s : State) : State :=
  match s.dev.boot.commit, s.dev.host.reqs.find? fun q => q.id == r with
  | some (c, x), q =>
    if c.id = r then commitEnd c x s
    else match q with
      | some q => if q.cmd == 0x71 && runnable s.dev q then { s with dev := respondBusy s.dev q } else s
      | none => s
  | none, some q =>
    if q.cmd == 0x71 && runnable s.dev q then
      match s.dev.boot.staged with
      | some x => commitBegin q x s
      | none => { s with dev := respondErr s.dev q sBadField }
    else s
  | none, none => s

def execFwCommit (r : ReqId) (s : State) : Host.Outcome State Fault Refusal := .next (fwCommit r s)

/-- The response that a reset waits for has been acknowledged; with its session closed nothing is waited for (R454). -/
def commitAcked (d : Dev) : Bool :=
  match d.boot.resetAfter with
  | none => false
  | some (sid, seq) => match findSession d sid with
    | some s => !(s.waiting.any fun m => m.seq == seq) && !(s.unacked.any fun u => u.msg.seq == seq)
    | none => true

/-- FW_COMMIT_RESET: the write is done, and 10 ms have passed since the response was acknowledged. -/
def execFwCommitReset (s : State) : Host.Outcome State Fault Refusal :=
  .next (if s.dev.boot.commit.isNone && commitAcked s.dev then restart s 2 id else s)

/-! ### The identity key and attestation (R495 to R499) -/

/-- The valid reservation record of the higher COUNTER, and whether it is copy A. -/
def bestRec (f : Fuses) : Option (LeafRec × Bool) :=
  match f.recA, f.recB with
  | some a, some b => some (if a.counter ≥ b.counter then (a, true) else (b, false))
  | some a, none => some (a, true)
  | none, some b => some (b, false)
  | none, none => none

/-- The next leaf, after a reservation of 1,024 where none is held. -/
def takeLeaf (s : State) : Option (Nat × State) :=
  let b := s.dev.boot
  let used (b : Boot) (s : State) : Nat × State := (b.leafNext, { s with dev := { s.dev with boot := { b with leafNext := b.leafNext + 1 } } })
  match bestRec s.fuses with
  | none => none
  | some (x, isA) =>
    if b.leafNext < b.leafEnd then some (used b s)
    else if x.next + 1024 > 2 ^ 20 then none
    else
      let n : LeafRec := ⟨x.counter + 1, x.next + 1024⟩
      let f := if isA then { s.fuses with recB := some n } else { s.fuses with recA := some n }
      some (used { b with leafNext := x.next, leafEnd := x.next + 1024 } { s with fuses := f })

/-- Gecko has read the reservation records: the flash is mounted (R486, R496). -/
def keysKnown (d : Dev) : Bool :=
  !([.rom, .flashMount, .halted].contains d.boot.stage) && !(inRecovery d && d.boot.reason == 4)

/-- An identity signature by RFC 8554: the leaf, LMOTS_SHA256_N32_W4 (type 3), C and the chain values,
LMS_SHA256_M32_H20 (type 8) and the path; numbers are big-endian (R495). -/
def identitySignature (f : Fuses) (leaf : Nat) (msg : List Byte) : List Byte :=
  toBe 4 leaf ++ toBe 4 3 ++ toLe 2176 (Config.identityOts f.idSeed f.idIdent leaf msg).toNat ++ toBe 4 8 ++
    toLe 640 (Config.identityPath f.idSeed f.idIdent leaf).toNat

/-- The log blob of R499. -/
def logBlob (f : Fuses) (b : Boot) : List Byte :=
  toLe 8 (packNat [(0, 1), (32, b.mlog.length)]) ++ toLe 8 f.serial.toNat ++ certBytes f ++ (b.mlog.mapIdx mentry).flatten

/-- What a signature attests: the nonce, the device ID and the digest of the log blob (R499). -/
def attestMsg (r : Req) (d : Dev) (blob : List Byte) : List Byte := r.body.take 32 ++ toLe 8 (myId d).toNat ++ sha256 blob

/-- Log and signature go into the HOST window of the request, in WRITE messages of 8 KiB. -/
def attestWrites (d : Dev) (r : Req) (addr : Nat) (bs : List Byte) : Dev :=
  ((chunks 8192 bs).mapIdx fun i x => (i, x)).foldl (fun d x => sendWrite d r.id.session (winIdx 0 (le r.body 32 2)) addr (8192 * x.1) x.2) d

/-- ATTEST. -/
def attest (r : Req) (s : State) : State :=
  let d := s.dev
  let k := winIdx 0 (le r.body 32 2)
  let fail (st : Nat) : State := { s with dev := respondErr d r st }
  match tget d.host.windows k with
  | none => fail sBadField
  | some w =>
    let blob := logBlob s.fuses d.boot
    if w.kind ≠ .host ∨ le r.body 32 2 ≥ 64 then fail sBadField
    else if w.len < blob.length + 2828 then fail sQuota
    else match takeLeaf s with
      | none => fail sInternal
      | some (leaf, s) =>
        let out := blob ++ identitySignature s.fuses leaf (attestMsg r d blob)
        { s with dev := respondOk (attestWrites s.dev r w.addr out) r (toLe 8 (packNat [(0, blob.length), (32, 2828)])) }

def execAttest (r : ReqId) (s : State) := onReqS r 0x72 attest s

end Sys2Proof.Machine
end

