-- ==== Sys2Proof/Machine/Grants.lean ====
section
/-! DEFINITION. What passes between Cistern, the retry holds and the engines: waiting buffer requests
granted (R327), and the end of a hold (R159, R224, R254). -/

namespace Sys2Proof.Machine

/-- The engine that asked takes its buffers; a request whose asker has gone gives them back. -/
def handOver (d : Dev) (g p : Nat) (who : WaitFor) (is : List Nat) : Dev :=
  match who with
  | .alloc exch l =>
    match openX d p exch with
    | some x => giveRegion d x.uid l is
    | none => freeBufs d g is
  | .returns exch src =>
    match openX d p exch with
    | some x => giveReturns d x.uid src is
    | none => freeBufs d g is
  | .slots uid =>
    match findC d uid with
    | some x => if x.openStatus.isSome then freeBufs d g is else settleColl (openColl d uid is) p x.comm
    | none => freeBufs d g is
  | .retain comm chunk =>
    match curC d p comm with
    | some x => settleColl (giveRetain d x.uid chunk g is) p comm
    | none => freeBufs d g is

/-- WAITING_REQUEST_GRANT: the oldest waiting request of (pool, partition), when the rule now admits
it. -/
def waitingGrant (g p : Nat) (d : Dev) : Dev :=
  match grantWaiting d g p with
  | (some (who, is), d) => seqPumpAll (handOver d g p who is)
  | (none, d) => d

def execWaitingRequestGrant (g p : Nat) (s : State) := onDev (waitingGrant g p) s

/-- RETRY_HOLD_EXPIRY: of a Sluice tag (engine 0), a rack-memory tag (1), or of Rill's hold towards rank
`peer` of communicator `id` = 256 × partition + number (2). -/
def holdExpiry (engine id peer : Nat) (d : Dev) : Dev :=
  let k (h : TagHold) : Bool := h.tag == id && h.peer.toNat == peer
  if engine = 0 then { d with slc := { d.slc with holds := dropFirst k d.slc.holds } }
  else if engine = 1 then { d with rm := { d.rm with holds := dropFirst k d.rm.holds } }
  else if engine = 2 then seqPumpAll (rillHoldExpiry (id / 256) (id % 256) peer d)
  else d

def execRetryHoldExpiry (engine id peer : Nat) (s : State) := onDev (holdExpiry engine id peer) s

end Sys2Proof.Machine
end

