-- ==== Sys2Proof/Machine/Mparts.lean ====
section
/-! DEFINITION. Mailbox commands on sessions, partitions, programs and submissions (R62 to R65, R300, R353, R354,
R357 to R360, R373 to R379, R445 to R447, R452 to R454). -/

namespace Sys2Proof.Machine

/-! ### Sessions -/

/-- The key record that a blob holds, if it opens under the provisioning key (R445). -/
def openBlob (fu : Fuses) (d : Dev) (b : List Byte) : Option (List Byte) :=
  gcmOpen (toLe 32 fu.provKey.toNat) (b.take 12) (toLe 2 (myId d).toNat) ((b.drop 12).take 64) ((b.drop 76).take 16)

/-- The record is for this device, unexpired, and the session proves that it knows the key. -/
def recordOk (d : Dev) (s : Session) (rec_ proof : List Byte) : Bool :=
  let expiry := le rec_ 48 8
  le rec_ 32 2 == (myId d).toNat && (expiry == 0 || (d.time.locked && decide (d.time.now < expiry))) &&
  proof == hmac256 (rec_.take 32) (toLe 32 s.challenge.toNat ++ toLe 2 s.num) &&
  (!inRecovery d || (le rec_ 44 1).testBit 0)

def keyRec (rec_ : List Byte) : KeyRec :=
  { key := BitVec.ofNat 256 (leNat (rec_.take 32)), keyId := BitVec.ofNat 32 (le rec_ 36 4), mask := BitVec.ofNat 32 (le rec_ 40 4)
    priv := (le rec_ 44 1).testBit 0, events := (le rec_ 44 1).testBit 1, expiry := BitVec.ofNat 64 (le rec_ 48 8) }

/-- OPEN_SESSION. -/
def openSession (fu : Fuses) (r : Req) (d : Dev) : Dev :=
  match findSession d r.id.session with
  | none => respondErr d r sAuth
  | some s =>
    let bad := respondErr (modSession (hostErr d 4 1) s.id fun s => { s with key := none }) r sAuth
    match openBlob fu d r.body with
    | none => bad
    | some rec_ =>
      if !recordOk d s rec_ (r.body.drop 92) then bad
      else
        let k := keyRec rec_
        let d := modSession d s.id fun s => { s with key := some k }
        respondOk d r (toLe 24 (packNat [(0, k.keyId.toNat), (32, k.mask.toNat), (64, b2n k.priv + 2 * b2n k.events), (128, k.expiry.toNat)]))

def execOpenSession (r : ReqId) (s : State) := onDevF (fun fu => onReq r 0x01 always (openSession fu)) s

def execCloseSession (r : ReqId) (s : State) :=
  onDev (onReq r 0x02 always fun q d => closeSession (respondOk d q []) q.id.session) s

/-- FREE_SRAM_UNITS (R299, R452). -/
def freeSram (d : Dev) : Nat := 256 - d.parts.foldl (fun a x => if x.2.valid then max a x.2.sramUnits else a) 0

/-- The QUERY_CAPS body (R452). The six octets of the MAC stand in the order of the wire, the first octet first, which R452
does not give (DESIGN CHOICE, log 80). -/
def capsBody (fu : Fuses) (d : Dev) : List Byte :=
  let r := inRecovery d
  toLe 4 (packNat [(0, (myId d).toNat), (16, match d.grade with
    | .a => 0
    | .b => 1), (24, d.grade.lcores)]) ++ toBe 6 fu.mac.toNat ++ [0, 0] ++ toLe 4 d.boot.fwVersion.toNat ++
  [0x10, if r then 0x10 else 0x12, 0x10, if r then 0x10 else 0x11] ++ [1, 1, 0x10, 0x20] ++ toLe 8 fu.serial.toNat ++
  toLe 4 (freePages d) ++ toLe 4 (freeExtents d) ++ toLe 2 (freeSram d) ++
  toLe 2 (packNat (((List.range 16).filter fun p => (d.part p).valid).map fun p => (p, 1))) ++
  toLe 1 (d.cores.filter fun c => c.2.st == .spare).length

def execQueryCaps (r : ReqId) (s : State) :=
  onDevF (fun fu => onReq r 0x03 always fun q d => respondOk d q (capsBody fu d)) s

/-! ### PART_ commands -/

def createCmd (r : Req) (d : Dev) : Dev :=
  match partCreate d r.part r.body with
  | .inl (st, detail) => respond d r st detail []
  | .inr (b, d) => respondOk d r b

def execPartCreate (r : ReqId) (s : State) := onDev (onReq r 0x10 always createCmd) s

/-- PART_DESTROY: begun once, answered when the cores have let go (R354). -/
def destroyCmd (r : Req) (d : Dev) : Dev :=
  let x := d.part r.part
  if !r.started ∧ !x.valid then respondErr d r sBadField
  else if !r.started ∧ x.saving.isSome then respondBusy d r
  else
    let d := if r.started then abortsDue d r.part else beginDestroy (markStarted d r) r.part
    if destroyReady d r.part then respondOk (finishDestroy (endSubs d r.part) r.part) r [] else d

def execPartDestroy (r : ReqId) (s : State) := onDev (onReq r 0x11 always destroyCmd) s

/-- PART_SET_QUOTA: a lowering waits for what was accepted before (R300), and a further one for the first. -/
def setQuotaCmd (r : Req) (d : Dev) : Dev :=
  let x := d.part r.part
  if !r.started ∧ (x.leaving ≠ 0 ∨ x.lowering.isSome) then d
  else match setQuota d r.part r.body r.started with
    | .fails st detail =>
      let d := if st = sBusy then hostErr d 6 1 else d
      respond (d.modPart r.part fun x => { x with leaving := 0, lowering := none }) r st detail []
    | .waits d => markStarted d r
    | .done d => respondOk d r []

def execPartSetQuota (r : ReqId) (s : State) := onDev (onReq r 0x12 always setQuotaCmd) s

/-- PART_SET_WEIR: the buckets are full (R366, R367). -/
def setWeirCmd (r : Req) (d : Dev) : Dev :=
  if !(d.part r.part).valid then respondErr d r sBadField
  else
    let w := le r.body 16 1
    let d := setWeir d r.part (le r.body 0 8) (le r.body 8 8)
    let d := if w = 0 then d else d.modPart r.part fun x => { x with weight := w }
    weirFreed (respondOk d r []) r.part

def execPartSetWeir (r : ReqId) (s : State) := onDev (onReq r 0x13 always setWeirCmd) s

/-! ### LOAD_PROGRAM (R62 to R65) -/

def phNcmd (h : List Byte) : Nat := le h 8 4
def phNtask (h : List Byte) : Nat := le h 12 2
def phTaskOff (h : List Byte) : Nat := le h 16 4
def phCmdOff (h : List Byte) : Nat := le h 20 4
def phUnits (h : List Byte) : Nat := le h 24 2

/-- Offsets and counts agree with each other and with the image's length. -/
def phOk (h : List Byte) : Bool :=
  let t := (phTaskOff h, 16 * phNtask h)
  let c := (phCmdOff h, 16 * phNcmd h)
  decide (1 ≤ phNcmd h ∧ phNcmd h ≤ 2 ^ 24 ∧ 1 ≤ phNtask h ∧ phNtask h ≤ 4096) && t.1 % 16 == 0 && c.1 % 16 == 0 &&
  decide (64 ≤ t.1 ∧ t.1 + t.2 ≤ h.length ∧ 64 ≤ c.1 ∧ c.1 + c.2 ≤ h.length) && !overlap t c

def taskOf (e : List Byte) : TaskDef := ⟨le e 0 4, le e 4 4, le e 8 1 == 1, le e 9 1⟩

/-- A task table entry's refusal: `some` of the command named, or of no command (R63). A PLACEMENT above 1, of which
R63 says nothing, is refused with no command named (DESIGN CHOICE, log 59). -/
def taskFails (cmds : List (BitVec 128)) (e : List Byte) : Option (Option Nat) :=
  let t := taskOf e
  if t.count = 0 ∨ t.start + t.count > cmds.length ∨ le e 8 1 > 1 then some none
  else
    let last := t.start + t.count - 1
    if cOp (cmds.getD last 0) = 0x3F then none else some (some last)

def noCmd : Nat := 0xFFFFFFFF

/-- A program image's status, the command it names, and the program (R62 to R65). The task table is checked before the
commands, an order the manual leaves open (DESIGN CHOICE, log 80). -/
def parseProgram (img : List Byte) : Nat × Nat × Program :=
  let n : Program := ⟨[], [], 0, 0⟩
  if img.length < 64 then (sBadField, noCmd, n)
  else if le img 0 4 ≠ 0x454C4954 ∨ le img 4 1 ≠ 1 then (sBadVersion, noCmd, n)
  else if !phOk img then (sBadField, noCmd, n)
  else
    let tb := (img.drop (phTaskOff img)).take (16 * phNtask img)
    let cb := (img.drop (phCmdOff img)).take (16 * phNcmd img)
    if crc64 (tb ++ cb) ≠ le img 32 8 then (sBadField, noCmd, n)
    else
      let cmds := (chunks 16 cb).map fun b => BitVec.ofNat 128 (leNat b)
      let ts := chunks 16 tb
      match ts.findSome? (taskFails cmds) with
      | some k => (sBadField, k.getD noCmd, n)
      | none =>
        match cmds.findIdx? fun w => !cmdOk w with
        | some i => (sBadField, i, n)
        | none => (sOk, noCmd, ⟨cmds, ts.map taskOf, phUnits img, divUp img.length pageSize⟩)

def loadBody (handle index : Nat) : List Byte := toLe 8 (packNat [(0, handle), (32, index)])

/-- LOAD_PROGRAM: read from DRAM, checked, and kept on side pages. -/
def loadProgram (r : Req) (d : Dev) : Dev :=
  let p := r.part
  let x := (lowered d p).part p
  let a := le r.body 8 8
  let n := le r.body 16 4
  let bad (d : Dev) (st i : Nat) : Dev := respond d r st 0xFFFF (loadBody 0 i)
  if le r.body 0 1 ≠ 0 ∨ le r.body 1 7 ≠ 0 ∨ a + n > dramTop ∨ !okNew d p false a n then bad d sBadField noCmd
  else if (poisonAt d p false a n).isSome then bad (lossAt d p a n) sInternal noCmd
  else
    let (st, i, g) := parseProgram (readRange d p false a n)
    let d := touched d p a n
    if st ≠ sOk then bad d st i
    else if g.sramUnits > x.sramUnits then bad d sQuota noCmd
    else match (List.range 64).find? fun h => (tget x.progs h).isNone with
      | none => bad d sNoResource noCmd
      | some h =>
        if x.sideUsed + g.pages > x.sideQuota then bad d sQuota noCmd
        else respondOk (d.modPart p fun x => { x with progs := tput x.progs h g, sideUsed := x.sideUsed + g.pages }) r (loadBody h noCmd)

def isUnload (b : List Byte) : Bool := (le b 0 1).testBit 0

def execLoadProgram (r : ReqId) (s : State) := onDev (onReq r 0x20 (fun b => !isUnload b) loadProgram) s

/-- A task of the program is queued, running or held. -/
def progInUse (d : Dev) (p h : Nat) : Bool :=
  let x := d.part p
  x.queue.any (·.prog == h) || x.heldSubs.any (fun s => s.2.any (·.prog == h)) || x.ctxs.any (fun c => c.2.task.prog == h) ||
  d.cores.any fun c => match c.2.task with
    | some t => t.part == p && t.prog == h
    | none => false

def unloadProgram (r : Req) (d : Dev) : Dev :=
  let p := r.part
  let h := le r.body 1 1
  let body := loadBody h noCmd
  match tget (d.part p).progs h with
  | none => respond d r sBadField 0xFFFF body
  | some g =>
    if le r.body 0 1 ≠ 1 ∨ le r.body 2 6 ≠ 0 then respond d r sBadField 0xFFFF body
    else if progInUse d p h then respond (hostErr d 6 1) r sBusy 0xFFFF body
    else respondOk (d.modPart p fun x => { x with progs := tdel x.progs h, sideUsed := x.sideUsed - g.pages }) r body

def execUnloadProgram (r : ReqId) (s : State) := onDev (onReq r 0x20 isUnload unloadProgram) s

/-! ### SUBMIT (R358, R459) -/

def entryOf (i : Nat) (e : BitVec 512) : QEntry :=
  { sub := BitVec.ofNat 32 (fld e 63 32), index := i, prog := fld e 5 0, task := fld e 19 8, startEn := bit e 20, startSem := fld e 30 21
    startVal := BitVec.ofNat 32 (fld e 95 64), args := (List.range 8).map fun k => BitVec.ofNat 32 (fld e (159 + 32 * k) (128 + 32 * k)) }

def entryFieldsOk (d : Dev) (p sub : Nat) (e : BitVec 512) : Bool :=
  let x := d.part p
  fld e 7 6 == 0 && !bit e 31 && fld e 127 96 == 0 && fld e 511 384 == 0 && fld e 63 32 == sub &&
  (match (tget x.progs (fld e 5 0)).bind fun g => g.tasks[fld e 19 8]? with
   | some t => !t.pinned || (decide (t.lcore < 32) && bit x.coreset t.lcore && !bit x.leaving t.lcore)
   | none => false)

/-- The submission's entries, from the body or from the partition's DRAM. -/
def submitEntries (d : Dev) (p : Nat) (b : List Byte) : Nat ⊕ List (BitVec 512) :=
  let n := le b 4 2
  let a := le b 24 8
  let words (bs : List Byte) : List (BitVec 512) := (chunks 64 bs).map fun e => BitVec.ofNat 512 (leNat e)
  if n = 0 ∨ n > 256 then .inl sBadField
  else if a = 0 then .inr (words (b.drop 32))
  else if a + 64 * n > dramTop ∨ !okNew d p false a (64 * n) then .inl sBadField
  else if (poisonAt d p false a (64 * n)).isSome then .inl sInternal
  else .inr (words (readRange d p false a (64 * n)))

/-- The result window of a submission: none named, a failure, or its window and generation (R459). -/
def submitWindow (d : Dev) (p mb : Nat) (b : List Byte) : Option (Option (Nat × Nat)) :=
  let k := le b 6 2
  if k = 0xFFFF then some none
  else match tget d.host.windows (winIdx mb k) with
    | none => none
    | some w =>
      let src := le b 8 8
      let len := le b 16 4
      if k < 64 ∧ w.kind = .result ∧ len ≤ w.len ∧ src + len ≤ dramTop ∧ okNew d p false src len then some (some (k, w.assigned + 1)) else none

def launchShut (d : Dev) (p : Nat) : Bool := d.mgr.launches.any fun l => l.part == p && l.created && !l.open_

/-- The submission enters the queue, or is held until its entries fit. -/
def enterSub (r : Req) (d : Dev) (s : Sub) (es : List QEntry) : Dev :=
  let p := r.part
  let d := d.modPart p fun x => { x with remembered := x.remembered.filter (· != s.id) }
  let x := d.part p
  if x.heldSubs.isEmpty ∧ x.queue.length + es.length ≤ 256 then
    respond (d.modPart p fun x => { x with queue := x.queue ++ es, subs := x.subs ++ [s] }) r sAccepted 0xFFFF (toLe 4 s.gen)
  else markStarted (d.modPart p fun x => { x with heldSubs := x.heldSubs ++ [(s, es)] }) r

def submit (r : Req) (d : Dev) : Dev :=
  let p := r.part
  let mb := r.id.mailbox
  let x := d.part p
  let b := r.body
  let id : U32 := BitVec.ofNat 32 (le b 0 4)
  let bad (d : Dev) (st detail : Nat) : Dev := respond d r st detail (toLe 4 0)
  if r.started then d
  else if x.st = .destroying ∨ launchShut d p then bad (hostErr d 6 1) sBusy 0xFFFF
  else if le b 20 4 ≠ 0 ∨ x.subs.any (·.id == id) ∨ x.heldSubs.any (·.1.id == id) then bad d sBadField 0xFFFF
  else match submitEntries d p b, submitWindow d p mb b with
    | .inl st, _ => bad (if st = sInternal then lossAt d p (le b 24 8) (64 * le b 4 2) else d) st 0xFFFF
    | .inr _, none => bad d sBadField 0xFFFF
    | .inr ws, some win =>
      let d := if le b 24 8 = 0 then d else touched d p (le b 24 8) (64 * le b 4 2)
      match ws.findIdx? fun e => !entryFieldsOk d p id.toNat e with
      | some i => bad d sBadField i
      | none =>
        let gen := (win.map (·.2)).getD 0
        let s : Sub := ⟨id, ws.length, [], false, win.map (·.1), gen, r.id, r.noevt, [], none⟩
        let d := match win with
          | some (k, g) => modWindow d (winIdx mb k) fun w => { w with
              assigned := g, gens := tput w.gens g (.assigned id), src := tput w.src g (le b 8 8, le b 16 4)
              who := tput w.who g (r.id.session, r.id.tag, r.noevt) }
          | none => d
        enterSub r d s (ws.mapIdx entryOf)

def execSubmit (r : ReqId) (s : State) := onDev (onReq r 0x21 always submit) s

/-! ### ABORT (R378, R379) -/

/-- A held submission is taken in with no entries queued, to be aborted. -/
def takeHeld (d : Dev) (p : Nat) (id : U32) : Dev :=
  match (d.part p).heldSubs.find? fun h => h.1.id == id with
  | none => d
  | some h =>
    let d := d.modPart p fun x => { x with heldSubs := dropFirst (fun y => y.1.id == id) x.heldSubs, subs := x.subs ++ [h.1] }
    match d.host.reqs.find? fun q => q.id == h.1.req with
    | some q => respond d q sAccepted 0xFFFF (toLe 4 h.1.gen)
    | none => d

def abortCmd (r : Req) (d : Dev) : Dev :=
  let p := r.part
  let id : U32 := BitVec.ofNat 32 (le r.body 0 4)
  if r.started then abortsDue d p
  else
    let d1 := takeHeld d p id
    match findSub d1 p id with
    | some s =>
      let d2 := markStarted d1 r
      if s.aborting then d2 else abortSubmission d2 p id
    | none =>
      if (d.part p).remembered.contains id then respondErr (schErr d 4) r sComplete
      else respondErr d r sBadField

def execAbort (r : ReqId) (s : State) := onDev (onReq r 0x22 always abortCmd) s

/-! ### PAUSE and RESUME (R373 to R375) -/

def accept (d : Dev) (r : Req) : Dev := respond d r sAccepted 0xFFFF []

def pauseCmd (r : Req) (d : Dev) : Dev :=
  let p := r.part
  if (d.part p).st ≠ .active then respondBusy d r
  else
    let d := (accept d r).modPart p fun x => { x with pauseReq := x.pauseReq ++ [(r.id, r.noevt)] }
    match jobManager d p with
    | some m => sendMgmt d m (.pauseRequest p)
    | none => d.modPart p fun x => { x with st := .pausing }

def execPause (r : ReqId) (s : State) := onDev (onReq r 0x23 always pauseCmd) s

def resumeCmd (r : Req) (d : Dev) : Dev :=
  let p := r.part
  if (d.part p).st ≠ .paused ∨ (d.part p).saving.isSome then respondBusy d r
  else
    let d := (accept d r).modPart p fun x => { x with resumeReq := x.resumeReq ++ [(r.id, r.noevt)] }
    match jobManager d p with
    | some m => sendMgmt d m (.resumeRequest p)
    | none => resumePart d p

def execResume (r : ReqId) (s : State) := onDev (onReq r 0x24 always resumeCmd) s

end Sys2Proof.Machine
end

