-- ==== Sys2Proof/Machine/Mdata.lean ====
section
/-! DEFINITION. Mailbox commands on windows, results, Gate descriptors, placement tables, communicators, the step
counter, the seeds and the digest log (R95 to R97, R128, R129, R223, R234, R235, R395, R400, R452, R455, R461). -/

namespace Sys2Proof.Machine

/-! ### MAP_WINDOW (R455) -/

def mapBody (win gen : Nat) : List Byte := toLe 8 (packNat [(0, win), (32, gen)])

/-- A DATA range in the partition's DRAM range or core SRAM windows, inside the quota. -/
def dataRangeOk (d : Dev) (p a n : Nat) : Bool :=
  decide (a + n ≤ dramTop ∨ (winBase ≤ a ∧ a + n ≤ winTop)) && okNew d p false a n

/-- The window a request asks for, or its failing status. -/
def newWindow (d : Dev) (mbver mb : Nat) (b : List Byte) : Nat ⊕ Window :=
  let kind := le b 0 1
  let flags := le b 1 1
  let len := le b 24 8
  let lease := if mbver < 0x11 ∨ le b 16 4 = 0 then 1000 else le b 16 4
  let w (k : WinKind) (addr pages : Nat) : Window :=
    { kind := k, canWrite := flags.testBit 1, canRead := flags.testBit 2, addr := addr, len := len, leaseMs := lease, pages := pages
      assigned := 0, published := 0, gens := [], buf0 := [], buf1 := [], src := [], who := [] }
  match kind with
  | 0 => if mb = 0 ∨ len < 64 ∨ len > 2 ^ 36 ∨ len % 64 ≠ 0 ∨ !dataRangeOk d (mb - 1) (le b 8 8) len then .inl sBadField else .inr (w .data (le b 8 8) 0)
  | 1 =>
    if mb = 0 ∨ len < 64 ∨ len > 2 ^ 26 ∨ len % 64 ≠ 0 ∨ lease > 60000 then .inl sBadField
    else
      let pages := 2 * divUp len pageSize
      let x := d.part (mb - 1)
      if x.sideUsed + pages > x.sideQuota then .inl sQuota else .inr (w .result 0 pages)
  | 2 => if len < 4096 ∨ len > 2 ^ 40 then .inl sBadField else .inr (w .host (le b 2 2) 0)
  | 3 => if mb ≠ 0 ∨ len = 0 ∨ len > 2 ^ 28 then .inl sBadField else .inr (w .firmware 0 0)
  | _ => .inl sBadField

def mapWindow (r : Req) (d : Dev) : Dev :=
  let mb := r.id.mailbox
  let ver := ((findSession d r.id.session).map (·.mbox.toNat)).getD 0x10
  let bad (st : Nat) : Dev := respond d r st 0xFFFF (mapBody 0 0)
  if le r.body 1 1 > 7 ∨ le r.body 4 4 ≠ 0 ∨ le r.body 20 4 ≠ 0 then bad sBadField
  else match newWindow d ver mb r.body with
    | .inl st => bad st
    | .inr w =>
      match (List.range 64).find? fun n => (tget d.host.windows (winIdx mb n)).isNone with
      | none => bad sNoResource
      | some n =>
        let k := winIdx mb n
        let d := modHost d fun h => { h with windows := tput h.windows k w, staging := if w.kind = .firmware then tput h.staging k [] else h.staging }
        let d := if w.pages = 0 then d else d.modPart (mb - 1) fun x => { x with sideUsed := x.sideUsed + w.pages }
        respondOk d r (mapBody n 0)

def isUnmap (b : List Byte) : Bool := (le b 1 1).testBit 0

def execMapWindow (r : ReqId) (s : State) := onDev (onReq r 0x30 (fun b => !isUnmap b) mapWindow) s

/-- A read or a submission of the window is outstanding. -/
def winBusy (d : Dev) (k : Nat) (w : Window) : Bool :=
  d.host.reads.any (·.window == k) ||
  d.host.sessions.any (fun s => s.waiting.any (fun o => o.ty == 7 && le o.body 0 2 == k % 64) && (windowOf? d s (k % 64)).any (·.1 == k)) ||
  w.gens.any fun g => match g.2 with
    | .assigned _ => true
    | .ended _ => true
    | _ => false

def unmapWindow (r : Req) (d : Dev) : Dev :=
  let mb := r.id.mailbox
  let n := le r.body 2 2
  let k := winIdx mb n
  match if n < 64 then tget d.host.windows k else none with
  | none => respond d r sBadField 0xFFFF (mapBody n 0)
  | some w =>
    if le r.body 1 1 > 7 ∨ le r.body 4 4 ≠ 0 ∨ le r.body 20 4 ≠ 0 then respond d r sBadField 0xFFFF (mapBody n 0)
    else if winBusy d k w then respond (hostErr d 6 1) r sBusy 0xFFFF (mapBody n 0)
    else
      let d := modHost d fun h => { h with windows := tdel h.windows k, staging := tdel h.staging k }
      let d := if w.pages = 0 then d else d.modPart (mb - 1) fun x => { x with sideUsed := x.sideUsed - w.pages }
      respondOk d r (mapBody n 0)

def execUnmapWindow (r : ReqId) (s : State) := onDev (onReq r 0x30 isUnmap unmapWindow) s

/-! ### Results (R461) -/

/-- The RESULT window that a body names. -/
def resultWin (d : Dev) (r : Req) : Option (Nat × Window) :=
  let n := le r.body 0 2
  if n ≥ 64 then none
  else (tget d.host.windows (winIdx r.id.mailbox n)).bind fun w => if w.kind = .result then some (winIdx r.id.mailbox n, w) else none

def readResult (r : Req) (d : Dev) : Dev :=
  let g := le r.body 4 4
  let off := le r.body 8 4
  let len := le r.body 12 4
  let body (gen left n : Nat) (bs : List Byte) : List Byte := toLe 16 (packNat [(0, gen), (32, left), (64, n)]) ++ bs
  match resultWin d r with
  | none => respond d r sBadField 0xFFFF (body 0 0 0 [])
  | some (_, w) =>
    if le r.body 2 2 ≠ 0 ∨ len > 8176 ∨ off + len > w.len then respond d r sBadField 0xFFFF (body 0 0 0 [])
    else
      let st := genStatus d w g
      if st = sOk then
        let left := match tget w.gens g with
          | some (.published e) => (e - d.time.now) / 1000000
          | _ => 0
        respondOk d r (body g left len (mread (winBuf w g) off len))
      else respond d r st 0xFFFF (body (if st = sNotReady then w.published else g) 0 0 [])

def execReadResult (r : ReqId) (s : State) := onDev (onReq r 0x31 always readResult) s

def releaseResult (r : Req) (d : Dev) : Dev :=
  let g := le r.body 4 4
  match resultWin d r with
  | none => respondErr d r sBadField
  | some (k, w) =>
    if le r.body 2 2 ≠ 0 then respondErr d r sBadField
    else if genStatus d w g ≠ sOk then respondErr d r sExpired
    else respondOk (endGen d k g) r []

def execReleaseResult (r : ReqId) (s : State) := onDev (onReq r 0x32 always releaseResult) s

/-! ### GATE_LOAD (R95 to R97) -/

/-- Every field is in its range, every reserved bit zero. -/
def gdFieldsOk (x : BitVec 2048) : Bool :=
  let e := gdE x
  let within (lo v hi : Nat) : Bool := decide (lo ≤ v ∧ v ≤ hi)
  let zero (hi lo : Nat) : Bool := fld x hi lo == 0
  let scale := gdScale x
  within 1 e 16384 && within 1 (gdK x) 16 && gdScore x != 3 && within 1 (gdG x) 64 && e % gdG x == 0 && within 1 (gdTopG x) (gdG x) &&
  within 0 (gdNcDepth x) 16 && decide (gdNull x < e) && within 1 (gdCap x) 4096 && within 1 (gdEpSize x) 1024 && decide (gdEpRank x < gdEpSize x) &&
  within 1 (gdMaxTokens x) 16384 && within 1 (gdPushers x) 32 && decide (gdK x ≤ gdTopG x * e / gdG x) && (!gdRenorm x || gdNorm x) &&
  decide (0 < scale ∧ scale < 0x7F800000) &&
  [(15, 9), (39, 37), (55, 55), (63, 63), (71, 69), (95, 86), (111, 109), (127, 123), (143, 138), (159, 154), (175, 175), (191, 182), (223, 202),
    (319, 304), (383, 368), (447, 432), (2047, 496)].all fun r => zero r.1 r.2

/-- The regions that the descriptor names. -/
def gdRegions (x : BitVec 2048) : List (Nat × Nat) :=
  (if gdBiasEn x then [(gdBias x, 4 * gdE x)] else []) ++
    [(gdEpt x, 16 * gdE x), (gdRec x, 16 * gdMaxTokens x * gdK x), (gdCnt x, 64 + 4 * gdE x)]

/-- The failing status of R96. -/
def gdFails (d : Dev) (p : Nat) (x : BitVec 2048) : Option Nat :=
  if fld x 7 0 ≠ 1 then some sBadVersion
  else if !gdFieldsOk x ∨ !((gdRegions x).all fun g => g.1 % 64 == 0 && okNew d p false g.1 g.2) then some sBadField
  else if gdWsKib x > wsTotalKib then some sNoResource
  else none

/-- GATE_LOAD. A request that fails a check of R96 and names a slot with a step open gets the status of the check, an order
that R97 leaves open (DESIGN CHOICE, log 80). A step whose opening push waits is open (R98, R99). -/
def gateLoad (r : Req) (d : Dev) : Dev :=
  let p := r.part
  let slot := le r.body 0 1
  let x : BitVec 2048 := BitVec.ofNat 2048 (leNat (r.body.drop 8))
  if le r.body 1 7 ≠ 0 then respondErr d r sBadField
  else match gdFails d p x with
    | some st => respondErr d r st
    | none =>
      if d.gate.steps.any fun g => g.part == p && g.slot == slot && (!g.closed || !g.granted) then respondBusy d r
      else respondOk { d with gate := { d.gate with descs := tput d.gate.descs (256 * p + slot) x } } r []

def execGateLoad (r : ReqId) (s : State) := onDev (onReq r 0x40 always gateLoad) s

/-! ### EPT_UPDATE (R128, R129) -/

def eptEntryOk (e : BitVec 128) : Bool :=
  let live := ((List.range 4).filter fun k => bit e (64 + k)).map fun k => fld e (16 * k + 15) (16 * k)
  fld e 79 68 == 0 && fld e 127 92 == 0 && live.all (fun v => v / 16384 == 0) && live.eraseDups.length == live.length

/-- The entry at an address is that of a null expert, whose contents are not checked: of every loaded Gate Descriptor whose
table holds it, one of the top NULL_COUNT (R108, R128). -/
def nullEntry (d : Dev) (p a : Nat) : Bool :=
  let gs := (d.gate.descs.filter fun g =>
    g.1 / 256 == p && decide (gdEpt g.2 ≤ a ∧ a < gdEpt g.2 + 16 * gdE g.2) && (a - gdEpt g.2) % 16 == 0).map (·.2)
  !gs.isEmpty && gs.all fun g => decide (gdE g - gdNull g ≤ (a - gdEpt g) / 16)

def eptUpdate (r : Req) (d : Dev) : Dev :=
  let p := r.part
  let b := r.body
  let n := le b 10 2
  let at_ := le b 0 8 + 16 * le b 8 2
  let src := le b 16 8
  let bad (d : Dev) (st i : Nat) : Dev := respond d r st i []
  if n = 0 ∨ n > 16384 ∨ le b 12 4 ≠ 0 ∨ (src = 0 ∧ le b 24 8 ≠ 0) ∨ !okNew d p false at_ (16 * n) then bad d sBadField 0xFFFF
  else if src ≠ 0 ∧ (src + 16 * n > dramTop ∨ !okNew d p false src (16 * n)) then bad d sBadField 0xFFFF
  else if src ≠ 0 ∧ (poisonAt d p false src (16 * n)).isSome then bad (lossAt d p src (16 * n)) sInternal 0xFFFF
  else
    let d := if src = 0 then d else touched d p src (16 * n)
    let bs := if src = 0 then b.drop 32 else readRange d p false src (16 * n)
    let entries := (chunks 16 bs).mapIdx fun i e => (at_ + 16 * i, e)
    match entries.findIdx? fun e => !nullEntry d p e.1 && !eptEntryOk (BitVec.ofNat 128 (leNat e.2)) with
    | some i => bad d sBadField i
    | none => respondOk (writeRange d p false at_ bs) r []

def execEptUpdate (r : ReqId) (s : State) := onDev (onReq r 0x41 always eptUpdate) s

/-! ### COMM_CREATE (R223, R234, R235) -/

/-- The record that a request describes. -/
def commRecord (b : List Byte) : BitVec 192 :=
  pack 192 [(0, le b 8 4), (32, le b 2 1), (36, le b 3 1), (40, le b 4 2), (64, le b 6 2), (80, le b 12 1), (86, 1), (96, le b 16 8)]

def commSizesOk (b : List Byte) : Bool :=
  decide (1 ≤ le b 2 1 ∧ le b 2 1 ≤ 8 ∧ 1 ≤ le b 3 1 ∧ le b 3 1 ≤ 8 ∧ 1 ≤ le b 4 2 ∧ le b 4 2 ≤ 256) &&
  decide (le b 6 2 < le b 2 1 * le b 3 1 * le b 4 2) && decide (le b 12 1 < 64) && decide (le b 16 8 < 2 ^ 48)

/-- Level peers differ in X, in Y, or in the rack, and in nothing else. -/
def levelPeersOk (l : Nat) (a b : DevId) : Bool :=
  let x := devX a == devX b
  let y := devY a == devY b
  let r := devRack a == devRack b
  match l with
  | 0 => r && y && !x
  | 1 => r && x && !y
  | _ => x && y && !r

/-- The member table is one that R235 allows. -/
def commTableOk (d : Dev) (cm : BitVec 192) (ms : List DevId) : Bool :=
  ms.eraseDups.length == ms.length && ms.all (fun m => fld m 15 14 == 0) && ms.getD (cmRank cm) 0 == myId d && decide (cmRank cm < ms.length) &&
  (List.range ms.length).all fun r => [0, 1, 2].all fun l =>
    (levelMembers cm r l).all fun q => q == r || levelPeersOk l (ms.getD r 0) (ms.getD q 0)

/-- RMEM_MCAST[GROUP] from the members in this rack. -/
def setGroup (d : Dev) (p g : Nat) (ms : List DevId) : Dev :=
  let mask := (ms.filter fun m => devRack m == rackNum d).foldl (fun (a : BitVec 128) m => a ||| (1#128 <<< devPos m)) 0
  { d with rm := { d.rm with mcast := tput d.rm.mcast g (mask ||| pack 128 [(64, p), (68, 1)]) } }

def commCreate (r : Req) (d : Dev) : Dev :=
  let p := r.part
  let b := r.body
  let comm := le b 0 1
  let cm := commRecord b
  if le b 1 1 / 4 ≠ 0 ∨ le b 14 2 ≠ 0 ∨ !commSizesOk b ∨ !okNew d p false (cmMembers cm) (2 * cmN cm) then respondErr d r sBadField
  else if (poisonAt d p false (cmMembers cm) (2 * cmN cm)).isSome then respondErr (lossAt d p (cmMembers cm) (2 * cmN cm)) r sInternal
  else
    let d := touched d p (cmMembers cm) (2 * cmN cm)
    let ms := memberTable d p cm
    if !commTableOk d cm ms then respondErr d r sBadField
    else if commBusy d p comm then respondBusy d r
    else
      let d := dropComm d p comm
      let d := d.modPart p fun x => { x with comms := tput x.comms comm cm }
      respondOk (if (le b 1 1).testBit 1 then setGroup d p (le b 13 1) ms else d) r []

def isDelete (b : List Byte) : Bool := (le b 1 1).testBit 0

def execCommCreate (r : ReqId) (s : State) := onDev (onReq r 0x42 (fun b => !isDelete b) commCreate) s

def commDelete (r : Req) (d : Dev) : Dev :=
  let p := r.part
  let comm := le r.body 0 1
  if le r.body 1 1 / 4 ≠ 0 ∨ le r.body 14 2 ≠ 0 then respondErr d r sBadField
  else if commBusy d p comm then respondBusy d r
  else respondOk ((dropComm d p comm).modPart p fun x => { x with comms := tdel x.comms comm }) r []

def execCommDelete (r : ReqId) (s : State) := onDev (onReq r 0x42 isDelete commDelete) s

/-! ### STEP_SET, SEED_SET, DIGEST_READ (R395, R398 to R400) -/

def stepSet (r : Req) (d : Dev) : Dev :=
  if !quiet d r.part then respondBusy d r
  else respondOk (d.modPart r.part fun x => { x with step := BitVec.ofNat 64 (le r.body 0 8) }) r []

def execStepSet (r : ReqId) (s : State) := onDev (onReq r 0x50 always stepSet) s

def seedSet (r : Req) (d : Dev) : Dev :=
  let m := le r.body 0 1
  if m / 16 ≠ 0 ∨ le r.body 1 7 ≠ 0 then respondErr d r sBadField
  else if !quiet d r.part then respondBusy d r
  else
    let put (t : Tbl U64) (i : Nat) : Tbl U64 := if m.testBit i then tput t i (BitVec.ofNat 64 (le r.body (8 + 8 * i) 8)) else t
    respondOk (d.modPart r.part fun x => { x with seeds := (List.range 4).foldl put x.seeds }) r []

def execSeedSet (r : ReqId) (s : State) := onDev (onReq r 0x51 always seedSet) s

/-- A digest log entry as DIGEST_READ returns it (R399). -/
def digestBytes (e : DigestEntry) : List Byte :=
  toLe 32 (packNat [(0, e.step.toNat), (64, e.layer), (80, e.tensor), (96, e.accum), (104, e.lcore), (128, e.value.toNat), (192, e.time % 2 ^ 64)])

/-- DIGEST_READ: entries are numbered from PART_CREATE, the ring holding the newest. -/
def digestRead (r : Req) (d : Dev) : Dev :=
  let x := d.part r.part
  let b := r.body
  let lo := le b 0 8
  let hi := le b 8 8
  let start := le b 16 4
  let max_ := le b 20 4
  if max_ > 254 then respondErr d r sBadField
  else
    let total := x.dlogWritten.toNat
    let n := x.dlog.length
    let wrapped := 2 ^ 32 + total - start
    let age := if start ≤ total then total - start else if wrapped ≤ n then wrapped else 0
    let kept := min age n
    let number (i : Nat) : Nat := (2 ^ 32 + total - kept + i) % 2 ^ 32
    let all := (x.dlog.drop (n - kept)).mapIdx fun i e => (i, e)
    let hits := (all.filter fun e => decide (lo ≤ e.2.step.toNat ∧ e.2.step.toNat ≤ hi)).take max_
    let next := if hits.length < max_ then total else match hits.getLast? with
      | some e => number (e.1 + 1)
      | none => number 0
    let lost := age - kept
    respondOk d r (toLe 16 (packNat [(0, hits.length), (32, lost), (64, next)]) ++ hits.flatMap fun e => digestBytes e.2)

def execDigestRead (r : ReqId) (s : State) := onDev (onReq r 0x52 always digestRead) s

end Sys2Proof.Machine
end

