-- ==== Sys2Proof/Machine/Image.lean ====
section
/-! DEFINITION. Partition images: their layout, SAVE_IMAGE and RESTORE_IMAGE (R401 to R404). Sections that the
manual does not lay out in bits (Scheduler, Contexts) are lists of numbers, 16 bytes each. -/

namespace Sys2Proof.Machine

/-! ### Lists of numbers -/

def takeN : List Nat → Nat × List Nat
  | [] => (0, [])
  | x :: xs => (x, xs)

def putList {α : Type} (f : α → List Nat) (xs : List α) : List Nat := xs.length :: xs.flatMap f

def getItems {α : Type} (f : List Nat → α × List Nat) : Nat → List Nat → List α × List Nat
  | 0, ns => ([], ns)
  | k + 1, ns =>
    let (x, ns) := f ns
    let (xs, ns) := getItems f k ns
    (x :: xs, ns)

def getList {α : Type} (f : List Nat → α × List Nat) (ns : List Nat) : List α × List Nat :=
  let (k, ns) := takeN ns
  getItems f (min k ns.length) ns

def putNums (xs : List Nat) : List Nat := putList (fun x => [x]) xs
def getNums (ns : List Nat) : List Nat × List Nat := getList takeN ns

def putPairs (t : List (Nat × Nat)) : List Nat := putList (fun x => [x.1, x.2]) t

def getPairs (ns : List Nat) : List (Nat × Nat) × List Nat :=
  getList (fun ns => let (a, ns) := takeN ns; let (b, ns) := takeN ns; ((a, b), ns)) ns

/-- A fixed number of numbers. -/
def getFixed (k : Nat) (ns : List Nat) : List Nat × List Nat := (ns.take k, ns.drop k)

def numsBytes (ns : List Nat) : List Byte := toLe 8 ns.length ++ ns.flatMap (toLe 16)

def bytesNums (bs : List Byte) : List Nat := (chunks 16 bs).map leNat

/-! ### Scheduler and contexts -/

/-- The table of the listed keys and values, in order of the keys. -/
def tblOf {α : Type} (xs : List (Nat × α)) : Tbl α := xs.foldl (fun t x => tput t x.1 x.2) []

def u32s (t : List (Nat × Nat)) : Tbl U32 := tblOf (t.map fun x => (x.1, BitVec.ofNat 32 x.2))

def putProgram (h : Nat) (g : Program) : List Nat :=
  [h, g.sramUnits, g.pages] ++ putNums (g.cmds.map (·.toNat)) ++ putList (fun t => [t.start, t.count, b2n t.pinned, t.lcore]) g.tasks

def getProgram (ns : List Nat) : (Nat × Program) × List Nat :=
  let (a, ns) := getFixed 3 ns
  let (cs, ns) := getNums ns
  let (ts, ns) := getList (fun ns => let (t, ns) := getFixed 4 ns; ((⟨t.getD 0 0, t.getD 1 0, t.getD 2 0 == 1, t.getD 3 0⟩ : TaskDef), ns)) ns
  ((a.getD 0 0, ⟨cs.map (BitVec.ofNat 128), ts, a.getD 1 0, a.getD 2 0⟩), ns)

def putEntry (q : QEntry) : List Nat :=
  [q.sub.toNat, q.index, q.prog, q.task, b2n q.startEn, q.startSem, q.startVal.toNat] ++ putNums (q.args.map (·.toNat))

def getEntry (ns : List Nat) : QEntry × List Nat :=
  let (a, ns) := getFixed 7 ns
  let (args, ns) := getNums ns
  ({ sub := BitVec.ofNat 32 (a.getD 0 0), index := a.getD 1 0, prog := a.getD 2 0, task := a.getD 3 0, startEn := a.getD 4 0 == 1
     startSem := a.getD 5 0, startVal := BitVec.ofNat 32 (a.getD 6 0), args := args.map (BitVec.ofNat 32) }, ns)

def putSub (s : Sub) : List Nat := [s.id.toNat, s.total, b2n s.aborting, (s.failed.getD 0).toNat] ++ putPairs (s.retired.map fun x => (x.1, x.2.toNat))

/-- A session ID that no session has: who sent the SUBMIT is not part of an image. -/
def noSession : Nat := 2 ^ 64

def getSub (ns : List Nat) : Sub × List Nat :=
  let (a, ns) := getFixed 4 ns
  let (rs, ns) := getPairs ns
  let failed : Option Byte := if a.getD 3 0 = 0 then none else some (BitVec.ofNat 8 (a.getD 3 0))
  ({ id := BitVec.ofNat 32 (a.getD 0 0), total := a.getD 1 0, aborting := a.getD 2 0 == 1
     retired := tblOf (rs.map fun x => (x.1, BitVec.ofNat 8 x.2)), window := none, gen := 0, req := ⟨noSession, 0, 0⟩, noevt := true, rest := [], failed := failed }, ns)

def putPlane (x : Plane) : List Nat :=
  [match x.fmt with
   | some f => f + 1
   | none => 0] ++ putNums (x.elems.map (·.toNat)) ++ putNums (x.scales.map (·.toNat))

def getPlane (ns : List Nat) : Plane × List Nat :=
  let (f, ns) := takeN ns
  let (e, ns) := getNums ns
  let (s, ns) := getNums ns
  (⟨if f = 0 then none else some (f - 1), e.map (BitVec.ofNat 8), s.map (BitVec.ofNat 8)⟩, ns)

def putBank (x : Bank) : List Nat := [b2n x.int] ++ putPairs (x.cells.map fun c => (c.1, c.2.toNat))

def getBank (ns : List Nat) : Bank × List Nat :=
  let (i, ns) := takeN ns
  let (cs, ns) := getPairs ns
  (⟨i == 1, u32s cs⟩, ns)

/-- A command that an engine has yet to accept, with its footprint. -/
def putFlight (x : InFlight) : List Nat :=
  [x.idx, x.w.toNat, b2n x.half, x.accepted, b2n x.nullTile, b2n x.quiet, x.ctx.accum, x.ctx.layer, x.ctx.tensor, x.ctx.row.toNat, x.ctx.col.toNat] ++
  putPairs x.reads ++ putPairs x.writes

def getFlight (ns : List Nat) : InFlight × List Nat :=
  let (a, ns) := getFixed 11 ns
  let (rs, ns) := getPairs ns
  let (ws, ns) := getPairs ns
  let n (i : Nat) : Nat := a.getD i 0
  ({ idx := n 0, w := BitVec.ofNat 128 (n 1), reads := rs, writes := ws, half := n 2 == 1, accepted := n 3, nullTile := n 4 == 1
     quiet := n 5 == 1, moved := [], digest := none, ctx := ⟨n 6, n 7, n 8, BitVec.ofNat 32 (n 9), BitVec.ofNat 32 (n 10)⟩ }, ns)

def putTask (t : Task) : List Nat :=
  [t.sub.toNat, t.entry, t.prog, t.task, t.start, t.count, t.ip, t.dig.accum, t.dig.layer, t.dig.tensor, t.dig.row.toNat, t.dig.col.toNat,
    (match t.holding with
     | some w => w.toNat
     | none => 0), b2n t.holding.isSome, b2n t.atStep, t.stepAtStart.toNat] ++
  putNums (t.args.map (·.toNat)) ++ putPairs (t.sb.map fun x => (x.1, x.2.toNat)) ++ putPairs (t.cnt.map fun x => (x.1, x.2.toNat)) ++
  putNums t.effects ++ putPairs t.reads ++ [b2n t.broken] ++ putPairs t.partials ++ putList putFlight t.port

def getTask (p : Nat) (ns : List Nat) : Task × List Nat :=
  let (a, ns) := getFixed 16 ns
  let (args, ns) := getNums ns
  let (sb, ns) := getPairs ns
  let (cnt, ns) := getPairs ns
  let (eff, ns) := getNums ns
  let (rd, ns) := getPairs ns
  let (br, ns) := takeN ns
  let (ps, ns) := getPairs ns
  let (port, ns) := getList getFlight ns
  let n (i : Nat) : Nat := a.getD i 0
  ({ part := p, sub := BitVec.ofNat 32 (n 0), entry := n 1, prog := n 2, task := n 3, args := args.map (BitVec.ofNat 32), start := n 4, count := n 5
     ip := n 6, sb := u32s sb, cnt := u32s cnt, dig := ⟨n 7, n 8, n 9, BitVec.ofNat 32 (n 10), BitVec.ofNat 32 (n 11)⟩, loader := [], array := []
     drain := [], vector := [], mover0 := [], mover1 := [], port := port, holding := if n 13 = 1 then some (BitVec.ofNat 128 (n 12)) else none
     atStep := n 14 == 1, stopped := none, effects := eff, reads := rd, broken := br == 1, stepAtStart := BitVec.ofNat 64 (n 15), replay := none
     replayStep := BitVec.ofNat 64 (n 15), partials := tblOf ps }, ns)

def putCtx (c : Nat × Ctx) : List Nat :=
  [c.1] ++ putTask c.2.task ++ putPlane c.2.plane0 ++ putPlane c.2.plane1 ++ putBank c.2.acc0 ++ putBank c.2.acc1

def getCtx (p : Nat) (ns : List Nat) : (Nat × Ctx) × List Nat :=
  let (n, ns) := takeN ns
  let (t, ns) := getTask p ns
  let (p0, ns) := getPlane ns
  let (p1, ns) := getPlane ns
  let (a0, ns) := getBank ns
  let (a1, ns) := getBank ns
  ((n, ⟨t, p0, p1, a0, a1, true⟩), ns)

/-- A write that waits for the next step boundary. -/
def putNext (v : Option U64) : List Nat := [b2n v.isSome, (v.getD 0).toNat]

def getNext (ns : List Nat) : Option U64 × List Nat :=
  let (a, ns) := getFixed 2 ns
  (if a.getD 0 0 = 1 then some (BitVec.ofNat 64 (a.getD 1 0)) else none, ns)

/-- The Scheduler section: programs, queue, open submissions; the pushes that the Gate Unit has not taken; the KV
manager's free pages, flash slots, copies and due boundaries; the sequencer's pending writes. -/
def putSched (x : Part) (pushes : List Push) : List Nat :=
  putList (fun g => putProgram g.1 g.2) x.progs ++ putList putEntry x.queue ++ putList putSub x.subs ++
  putList (fun (u : Push) => [u.lcore, u.sub.toNat, u.cmd, u.w.toNat]) pushes ++ putNums x.kvFree ++
  putList (fun s => s.1 :: putNums s.2) x.kvSlots ++
  putList (fun (k : KvCopy) => [k.seq, b2n k.suspend, b2n k.done] ++ putNums k.pages) x.kvCopies ++ [x.kvDue] ++
  putNext x.grdCfgNext ++ putNext x.grdBtabNext

structure SchedImg where
  progs : List (Nat × Program)
  queue : List QEntry
  subs : List Sub
  /-- logical core, submission, command index and command of each push -/
  pushes : List (List Nat)
  kvFree : List Nat
  kvSlots : List (Nat × List Nat)
  kvCopies : List KvCopy
  kvDue : Nat
  grdCfgNext : Option U64
  grdBtabNext : Option U64

def getCopy (ns : List Nat) : KvCopy × List Nat :=
  let (a, ns) := getFixed 3 ns
  let (pages, ns) := getNums ns
  (⟨a.getD 0 0, a.getD 1 0 == 1, a.getD 2 0 == 1, pages⟩, ns)

def getSched (ns : List Nat) : SchedImg :=
  let (gs, ns) := getList getProgram ns
  let (qs, ns) := getList getEntry ns
  let (ss, ns) := getList getSub ns
  let (us, ns) := getList (getFixed 4) ns
  let (fr, ns) := getNums ns
  let (sl, ns) := getList (fun ns => let (k, ns) := takeN ns; let (v, ns) := getNums ns; ((k, v), ns)) ns
  let (cs, ns) := getList getCopy ns
  let (due, ns) := takeN ns
  let (cfg, ns) := getNext ns
  let (tab, _) := getNext ns
  ⟨gs, qs, ss, us, fr, sl, cs, due, cfg, tab⟩

/-! ### The image (R402) -/

def imMagic : Nat := 0x474D4950

/-- Every buffer the partition holds: pool, index and ENGINE. -/
def heldBuffers (d : Dev) (p : Nat) : List (Nat × Nat × Bool) :=
  d.cst.pools.flatMap fun g => (g.2.held.filter fun h => h.2.part == p).map fun h => (g.1, h.1, h.2.engine)

def imHeader (d : Dev) (p : Nat) : List Byte :=
  let x := d.part p
  let seed (i : Nat) : Nat × Nat := (256 + 64 * i, (tgetD x.seeds i 0).toNat)
  toLe 64 (packNat ([(0, imMagic), (32, 1), (40, x.cls), (42, b2n x.det), (64, x.step.toNat), (128, x.coreset.toNat), (160, x.sramUnits),
    (176, x.pages.length), (200, (heldBuffers d p).length)] ++ (List.range 4).map seed))

def imRegisters (x : Part) : List Byte :=
  (List.range 1024).flatMap (fun i => toLe 4 (tgetD x.sems i 0).toNat) ++ (List.range 16).flatMap (fun i => toLe 8 (tgetD x.accum i 0).toNat) ++
  toLe 4 x.arith.toNat ++ toLe 4 x.gateFlags.toNat ++ toLe 4 x.slcFlags.toNat ++ toLe 4 x.rillFlags.toNat ++
  toLe 8 x.grdCfg.toNat ++ toLe 8 x.grdBtab.toNat ++ toLe 40 x.kvCfg.toNat ++ toLe 4 x.rmExport.toNat

def regsSize : Nat := 4300

def imGate (d : Dev) (p : Nat) : List Byte := (List.range 256).flatMap fun s => toLe 256 (tgetD d.gate.descs (256 * p + s) 0).toNat

def imComms (x : Part) : List Byte := (List.range 256).flatMap fun c => toLe 24 (tgetD x.comms c 0).toNat

def partChans (d : Dev) (p : Nat) : List (Nat × Chan) := d.dma.chans.filter fun c => c.2.en && c.2.part == p

/-- DMA: the number of channels, then 16 bytes for each. -/
def imChans (d : Dev) (p : Nat) : List Byte :=
  let cs := partChans d p
  toLe 8 cs.length ++ cs.flatMap fun c =>
    toLe 16 (packNat [(0, c.1), (8, fld c.2.cfg 20 16), (16, c.2.kickSem), (32, c.2.head), (64, c.2.ring.toNat)])

/-- Cistern: for each buffer 16 bytes, then its contents. -/
def imBuffers (d : Dev) (p : Nat) : List Byte :=
  (heldBuffers d p).flatMap fun h =>
    let x := poolOf d h.1
    toLe 16 (packNat [(0, h.1), (8, fld x.cfg 5 2), (16, b2n h.2.2), (32, h.2.1)]) ++ readRange d p true (x.bufAddr h.2.1) x.bsize

/-- The first byte that the image of p would hold and that can no longer be read, as a device address: of its views,
buffers and pages (R60, R302, R418). -/
def imageLoss (d : Dev) (p : Nat) : Option Nat :=
  let x := d.part p
  let at_ (engine : Bool) (a n : Nat) : Option Nat := (poisonAt d p engine a n).map (a + ·)
  ((coreSet x).findSome? fun n => (viewLoss d p n [(0, x.viewSize)]).map fun o => winBase + 0x1000000 * n + o) <|>
  ((heldBuffers d p).findSome? fun h => at_ true ((poolOf d h.1).bufAddr h.2.1) (poolOf d h.1).bsize) <|>
  at_ false 0 (x.pages.length * pageSize)

def imViews (d : Dev) (p : Nat) : List Byte := (coreSet (d.part p)).flatMap fun n => mread (viewMem d p n) 0 (d.part p).viewSize

/-- The whole image of a partition. -/
def imageOf (d : Dev) (p : Nat) : List Byte :=
  let x := d.part p
  let pushes := d.gate.queue.filter fun u => u.part == p
  let body := imHeader d p ++ imRegisters x ++ imGate d p ++ imComms x ++ numsBytes (putSched x pushes) ++ numsBytes (putList putCtx x.ctxs) ++
    imViews d p ++ imChans d p ++ imBuffers d p ++ readRange d p false 0 (x.pages.length * pageSize)
  body ++ toLe 8 (crc64 body)

/-! ### Where the parts of an image lie -/

def ihClass (h : List Byte) : Nat := le h 5 1 % 4
def ihDet (h : List Byte) : Bool := (le h 5 1).testBit 2
def ihStep (h : List Byte) : Nat := le h 8 8
def ihCores (h : List Byte) : U32 := BitVec.ofNat 32 (le h 16 4)
def ihUnits (h : List Byte) : Nat := le h 20 2 % 512
def ihPages (h : List Byte) : Nat := le h 22 3 % 2 ^ 18
def ihBufs (h : List Byte) : Nat := le h 25 4 % 2 ^ 31
def ihMagicOk (h : List Byte) : Bool := le h 0 4 == imMagic && le h 4 1 == 1

/-- Offsets of the sections after the header. -/
structure ImageMap where
  gate : Nat
  comms : Nat
  sched : Nat
  ctxs : Nat
  views : Nat
  chans : Nat
  bufs : Nat
  dram : Nat
  /-- the CRC, and the end -/
  crc : Nat

/-- The end of `n` buffers from `o`, or how far the bytes must reach to know it. -/
def bufsEnd (b : List Byte) : Nat → Nat → Nat ⊕ Nat
  | 0, o => .inr o
  | n + 1, o => if b.length < o + 16 then .inl (o + 16) else bufsEnd b n (o + 16 + 256 * 2 ^ min 13 (le b (o + 1) 1))

/-- The sections of the image that these bytes begin, or the length needed to say. -/
def imageMap (b : List Byte) : Nat ⊕ ImageMap :=
  let sched := 64 + regsSize + 65536 + 6144
  if b.length < sched + 8 then .inl (sched + 8)
  else
    let ctxs := sched + 8 + 16 * le b sched 8
    if b.length < ctxs + 8 then .inl (ctxs + 8)
    else
      let views := ctxs + 8 + 16 * le b ctxs 8
      let chans := views + (bitsSet 32 (ihCores b).toNat).length * ihUnits b * viewUnit
      if b.length < chans + 8 then .inl (chans + 8)
      else
        let bufs := chans + 8 + 16 * le b chans 8
        match bufsEnd b (ihBufs b) bufs with
        | .inl n => .inl n
        | .inr dram =>
          let crc := dram + ihPages b * pageSize
          if b.length < crc + 8 then .inl (crc + 8)
          else .inr ⟨64 + regsSize, 64 + regsSize + 65536, sched, ctxs, views, chans, bufs, dram, crc⟩

def slice (b : List Byte) (o n : Nat) : List Byte := (b.drop o).take n

/-! ### SAVE_IMAGE (R401) -/

/-- Nothing stands in the way of a save: PAUSED with no open Gate step (R401), the sequencer's PHASE IDLE (R286),
and no save under way. -/
def mayHold (d : Dev) (p : Nat) : Bool :=
  let x := d.part p
  x.st == .paused && x.saving.isNone && !(d.gate.steps.any fun g => g.part == p) && grdPhase x == 0

/-- The HOST window that an image request names. -/
def hostWindow (d : Dev) (r : Req) : Option (Nat × Window) :=
  let n := le r.body 2 2
  if n ≥ 64 then none
  else (tget d.host.windows (winIdx r.id.mailbox n)).bind fun w => if w.kind = .host then some (winIdx r.id.mailbox n, w) else none

/-- Blocks from an LBA to the end of the partition's extents. -/
def blocksFrom (x : Part) (lba : Nat) : Nat := 4096 * x.flash.length - lba

def saveImage (r : Req) (d : Dev) : Dev :=
  let p := r.part
  let target := le r.body 0 1
  let body (n : Nat) : List Byte := toLe 8 n
  let bad (d : Dev) (st : Nat) : Dev := respond d r st 0xFFFF (body 0)
  if target > 1 ∨ le r.body 1 1 ≠ 0 then bad d sBadField
  else if !mayHold d p then bad (hostErr d 6 1) sBusy
  else match imageLoss d p with
  | some a => bad (lossHere d p 0 a) sInternal
  | none =>
    let im := imageOf d p
    let d := touched d p 0 ((d.part p).pages.length * pageSize)
    let v : Saving := ⟨r.id, r.noevt, target == 1, le r.body 4 4, im, false⟩
    let take (d : Dev) : Dev := (respond d r sAccepted 0xFFFF (body im.length)).modPart p fun x => { x with saving := some v }
    if target = 0 then
      if im.length > blockSize * blocksFrom ((lowered d p).part p) (le r.body 4 4) then bad d sQuota else take d
    else match hostWindow d r with
      | none => bad d sBadField
      | some (k, w) =>
        if im.length > w.len then bad d sQuota
        else ((chunks 8192 im).mapIdx fun i x => (i, x)).foldl (fun d x => sendWrite d r.id.session k w.addr (8192 * x.1) x.2) (take d)

def execSaveImage (r : ReqId) (s : State) := onDev (onReq r 0x25 always saveImage) s

/-- The blocks of an image are programmed from its first LBA. -/
def burn (d : Dev) (p lba : Nat) (im : List Byte) : Dev :=
  ((chunks blockSize im).mapIdx fun i x => (i, x)).foldl (fun d x => match lbaKey d p (lba + x.1) with
    | some k => writeBlock d k (pad blockSize x.2)
    | none => d) d

/-- WRITEs of the session are still on their way. -/
def writesOut (s : Session) : Bool := s.waiting.any (·.ty == 5) || s.unacked.any (·.msg.ty == 5)

/-- IMAGE_DONE: the image is written, or the host has not taken it. -/
def imageDone (p : Nat) (d : Dev) : Dev :=
  match (d.part p).saving with
  | none => d
  | some v =>
    let fin (d : Dev) (st : Nat) : Dev := sendEvent (d.modPart p fun x => { x with saving := none })
      { code := 0x06, mailbox := p + 1, status := st, tag := v.req.tag.toNat, data := toLe 8 v.image.length
        sev := statusSev st, part := some p, source := srcDet, dest := some (v.req.session, v.noevt) }
    if !v.toHost then
      if weirOk d p 1 then fin (burn (weirCharge d p 1 v.image.length) p v.lba v.image) sOk else d
    else match findSession d v.req.session with
      | none => fin d sInternal
      | some s => if v.failed then fin d sInternal else if writesOut s then d else fin d sOk

def execImageDone (p : Nat) (s : State) := onDev (imageDone p) s

/-! ### RESTORE_IMAGE (R403) -/

/-- The partition can take an image. -/
def mayRestore (d : Dev) (p : Nat) : Bool :=
  let x := d.part p
  (x.st == .active || x.st == .paused) && x.saving.isNone && x.progs.isEmpty && taskless d p && x.ctxs.isEmpty && !enginesOpen d p && x.kvCopies.all (·.done)

/-- The buffers of an image: pool, size code, ENGINE, index and contents. -/
def getBufs (b : List Byte) : Nat → Nat → List (Nat × Nat × Bool × Nat × List Byte)
  | 0, _ => []
  | n + 1, o =>
    let size := 256 * 2 ^ min 13 (le b (o + 1) 1)
    (le b o 1, le b (o + 1) 1, le b (o + 2) 1 == 1, le b (o + 4) 4, slice b (o + 16) size) :: getBufs b n (o + 16 + size)

def bufFits (d : Dev) (x : Nat × Nat × Bool × Nat × List Byte) : Bool :=
  let g := poolOf d x.1
  decide (x.1 < 64) && g.en && fld g.cfg 5 2 == x.2.1 && decide (x.2.2.2.1 < g.nbuf) && (tget g.held x.2.2.2.1).isNone

/-- The checks of R403, in order. -/
def restoreFails (d : Dev) (p : Nat) (b : List Byte) (m : ImageMap) (s : SchedImg) : Option Nat :=
  let x := d.part p
  if crc64 (b.take m.crc) ≠ le b m.crc 8 ∨ ihClass b ≠ x.cls ∨ ihDet b ≠ x.det ∨ ihCores b ≠ x.coreset ∨ !coresetOk d (ihCores b) then some sBadField
  else if x.sramUnits < ihUnits b ∨ x.pages.length < ihPages b ∨ x.sideQuota < x.sideUsed + (s.progs.map (·.2.pages)).foldl (· + ·) 0 then some sQuota
  else if !((getBufs b (ihBufs b) m.bufs).all (bufFits d)) then some sNoResource
  else none

/-- The partition's registers from the Registers section at `o`; their reserved bits read as zero (R12). -/
def restoreRegs (x : Part) (b : List Byte) : Part :=
  let o := 64
  let reg {w : Nat} (k n mask : Nat) : BitVec w := BitVec.ofNat w (le b (o + k) n) &&& BitVec.ofNat w mask
  { x with
    sems := ((List.range 1024).map fun i => (i, BitVec.ofNat 32 (le b (o + 4 * i) 4))).filter fun e => e.2 != 0
    accum := ((List.range 16).map fun i => (i, BitVec.ofNat 64 (le b (o + 4096 + 8 * i) 8))).filter fun e => e.2 != 0
    arith := reg 4224 4 0x3F, gateFlags := reg 4228 4 0x709
    slcFlags := reg 4232 4 0x1F, rillFlags := reg 4236 4 0x11B
    grdCfg := reg 4240 8 grdCfgMask.toNat, grdCfgNext := none, grdBtab := reg 4248 8 grdBtabMask.toNat, grdBtabNext := none
    kvCfg := reg 4256 40 kvMask.toNat, rmExport := reg 4296 4 0x3FFFF01
    step := BitVec.ofNat 64 (ihStep b), seeds := (List.range 4).map fun i => (i, BitVec.ofNat 64 (le b (32 + 8 * i) 8)) }

/-- Gate descriptors and communicators. -/
def restoreTables (d : Dev) (p : Nat) (b : List Byte) (m : ImageMap) : Dev :=
  let slots := (List.range 256).map fun i => (256 * p + i, BitVec.ofNat 2048 (le b (m.gate + 256 * i) 256))
  let descs := slots.foldl (fun t e => if e.2 = 0 then tdel t e.1 else tput t e.1 e.2) d.gate.descs
  let comms := ((List.range 256).map fun i => (i, BitVec.ofNat 192 (le b (m.comms + 24 * i) 24))).filter fun e => e.2 != 0
  let d := (tkeys (d.part p).comms).foldl (fun d c => dropComm d p c) d
  { d with gate := { d.gate with descs := descs } }.modPart p fun x => { x with comms := comms }

/-- The views, as images: the partition holds no core afterwards. -/
def restoreViews (d : Dev) (p : Nat) (b : List Byte) (m : ImageMap) : Dev :=
  let d := { d with cores := d.cores.map fun (c : Nat × Core) => (c.1, if c.2.holder = some p then { c.2 with holder := none, sram := [] } else c.2) }
  let size := ihUnits b * viewUnit
  let imgs := ((bitsSet 32 (ihCores b).toNat).mapIdx fun i n => (n, mwrite [] 0 (slice b (m.views + size * i) size)))
  d.modPart p fun x => { x with images := imgs, viewBad := [] }

/-- Ring positions, for the channels that the partition holds. -/
def restoreChans (d : Dev) (p : Nat) (b : List Byte) (m : ImageMap) : Dev :=
  (List.range (le b m.chans 8)).foldl (fun d i =>
    let o := m.chans + 8 + 16 * i
    let ch := le b o 1
    let c := chanOf d ch
    if !c.en ∨ c.part ≠ p then d
    else modChan d ch fun c => { c with
      cfg := merge (ones 64 15 6 ||| ones 64 20 16) c.cfg (pack 64 [(6, le b (o + 2) 2 % 1024), (16, le b (o + 1) 1 % 32)])
      head := le b (o + 4) 4, ring := BitVec.ofNat 64 (le b (o + 8) 8)
      state := if c.state = .fault then .fault else .paused }) d

def restoreBufs (d : Dev) (p : Nat) (b : List Byte) (m : ImageMap) : Dev :=
  (getBufs b (ihBufs b) m.bufs).foldl (fun d x =>
    let d := takeBuf d x.1 p x.2.2.1 x.2.2.2.1
    notePool (writeRange d p true ((poolOf d x.1).bufAddr x.2.2.2.1) x.2.2.2.2) x.1) d

/-- Every section is restored, and the partition is PAUSED. -/
def applyImage (d : Dev) (p : Nat) (b : List Byte) (m : ImageMap) (s : SchedImg) : Dev :=
  let (cs, _) := getList (getCtx p) (bytesNums (slice b (m.ctxs + 8) (m.views - m.ctxs - 8)))
  let d := d.modPart p fun x => { restoreRegs x b with
    progs := tblOf s.progs, queue := s.queue, subs := s.subs, ctxs := tblOf cs, kvFree := s.kvFree, kvSlots := tblOf s.kvSlots, kvCopies := s.kvCopies, kvDue := s.kvDue
    grdCfgNext := s.grdCfgNext, grdBtabNext := s.grdBtabNext, st := .paused
    sideUsed := x.sideUsed + (s.progs.map (·.2.pages)).foldl (· + ·) 0 }
  let d := restoreChans (restoreViews (restoreTables d p b m) p b m) p b m
  let d := writeRange (restoreBufs d p b m) p false 0 (slice b m.dram (m.crc - m.dram))
  let push (a : List Nat) : Push := ⟨p, a.getD 0 0, BitVec.ofNat 32 (a.getD 1 0), a.getD 2 0, BitVec.ofNat 128 (a.getD 3 0)⟩
  restartSeqs { d with gate := { d.gate with queue := d.gate.queue ++ s.pushes.map push } } p

/-- The image's bytes are at hand, or `n` of them are needed, or the source has failed. -/
inductive ImageSrc where
  | bytes (b : List Byte) (m : ImageMap)
  | need (have_ n : Nat)
  | fails (status : Nat)

/-- The first n blocks from an LBA on. -/
def imageKeys (d : Dev) (p lba n : Nat) : List Nat := (List.range (min n (blocksFrom (d.part p) lba))).filterMap fun i => lbaKey d p (lba + i)

/-- From flash: the blocks from the first LBA on. -/
def flashImage (d : Dev) (p lba : Nat) : ImageSrc :=
  let keys := imageKeys d p lba (blocksFrom (d.part p) lba)
  let b := keys.flatMap (readBlock d.ftl)
  if !ihMagicOk (b.take 64) then .fails sBadVersion
  else match imageMap b with
    | .inl _ => .fails sBadField
    | .inr m => if (keys.take (divUp (m.crc + 8) blockSize)).any fun k => d.ftl.lost.contains k || d.ftl.weak.contains k then .fails sInternal
      else .bytes b m

/-- From a host window: what has been read so far. -/
def hostImage (d : Dev) (sid k : Nat) (w : Window) : ImageSrc :=
  let rs := d.host.reads.filter fun r => r.session == sid && r.window == k
  match rs.find? fun r => r.status != 0 with
  | some r => .fails r.status.toNat
  | none =>
    if (findSession d sid).isNone then .fails sInternal
    else if rs.any fun r => r.gotBytes < r.len then .need 0 0
    else
      let b := rs.flatMap fun r => mread r.got r.offset r.len
      if b.length ≥ 64 ∧ !ihMagicOk b then .fails sBadVersion
      else if b.length < 64 then .need b.length 64
      else match imageMap b with
        | .inl n => if n > w.len then .fails sBadField else .need b.length n
        | .inr m => .bytes b m

/-- The reads of an image are forgotten. -/
def dropReads (d : Dev) (sid k : Nat) : Dev := modHost d fun h => { h with reads := h.reads.filter fun r => !(r.session == sid && r.window == k) }

def finishRestore (r : Req) (d : Dev) (b : List Byte) (m : ImageMap) : Dev :=
  let p := r.part
  let s := getSched (bytesNums (slice b (m.sched + 8) (m.ctxs - m.sched - 8)))
  match restoreFails d p b m s with
  | some st => respondErr d r st
  | none => respondOk (applyImage d p b m s) r []

/-- RESTORE_IMAGE; from a host window it goes on with each answer of the host. -/
def restoreImage (r : Req) (d : Dev) : Dev :=
  let p := r.part
  let target := le r.body 0 1
  if target > 1 ∨ le r.body 1 1 ≠ 0 then respondErr d r sBadField
  else if !mayRestore d p then
    respondBusy (match hostWindow d r with
      | some (k, _) => dropReads d r.id.session k
      | none => d) r
  else if target = 0 then
    match flashImage d p (le r.body 4 4) with
    | .bytes b m =>
      if weirOk d p 1 then
        finishRestore r (flashRead (weirCharge d p 1 (m.crc + 8)) (imageKeys d p (le r.body 4 4) (divUp (m.crc + 8) blockSize))) b m
      else d
    | .fails st => respondErr (if st = sInternal then flashRead d (imageKeys d p (le r.body 4 4) (blocksFrom (d.part p) (le r.body 4 4))) else d) r st
    | .need .. => d
  else match hostWindow d r with
    | none => respondErr d r sBadField
    | some (k, w) =>
      let d := markStarted d r
      match hostImage d r.id.session k w with
      | .need h n => if n ≤ h then d else sendReadReq d r.id.session k w.addr h (min (n - h) 16777216)
      | .fails st => respondErr (dropReads d r.id.session k) r st
      | .bytes b m => finishRestore r (dropReads d r.id.session k) b m

def execRestoreImage (r : ReqId) (s : State) := onDev (onReq r 0x26 always restoreImage) s

end Sys2Proof.Machine
end

