-- ==== Sys2Proof/Machine/Power.lean ====
section
/-! DEFINITION. The input, the sensors, the governor and thermal hold (R305, R502, R505 to R507, R511, R516,
R518, R519, R530). -/

namespace Sys2Proof.Machine

def hottest (ts : List Int) : Int :=
  match ts with
  | [] => 0
  | t :: ts => ts.foldl max t

def Power.tjMax (x : Power) : Int := hottest x.tj
def Power.tdMax (x : Power) : Int := hottest x.td

def modPwr (d : Dev) (f : Power → Power) : Dev := { d with pwr := f d.pwr }

/-! ### The input (R502) -/

/-- The input voltage, in 0.1 V: entries into 40 V to 44 V are counted and logged. -/
def setVin (vin : Nat) (d : Dev) : Dev :=
  let low := decide (400 ≤ vin ∧ vin < 440)
  let d1 := modPwr d fun x => { x with vin := vin, lowInput := low }
  if low && !d.pwr.lowInput then logInput (pwrErr d1 0) sevWarning srcPwr 3 0 vin else d1

/-- LOW_INPUT. -/
def execLowInput (vin : Nat) (s : State) :=
  onDev (fun d => if d.pwr.rails && decide (400 ≤ vin ∧ vin < 440) then setVin vin d else d) s

/-! ### Sensors (R305, R506, R507, R511) -/

/-- The refresh rate follows the hottest stack (R305). -/
def setRefresh (d : Dev) : Dev :=
  let t := d.pwr.tdMax
  let on := if t > 85 then true else if t ≤ 82 then false else d.mem.refresh2x
  { d with mem := { d.mem with refresh2x := on } }

def alertJ (d : Dev) : Int := fld d.pwr.cfg 31 24
def alertD (d : Dev) : Int := fld d.pwr.cfg 39 32

/-- THERM_ALERT_N (R511). -/
def setAlert (d : Dev) : Dev :=
  let j := d.pwr.tjMax
  let t := d.pwr.tdMax
  if j ≥ alertJ d ∨ t ≥ alertD d then
    if d.pwr.alert then d else pwrErr (modPwr d fun x => { x with alert := true }) 2
  else if j ≤ alertJ d - 3 ∧ t ≤ alertD d - 3 then modPwr d fun x => { x with alert := false }
  else d

/-- Thermal hold begins: counted and logged (R506). -/
def enterHold (d : Dev) : Dev :=
  if d.pwr.hold then d
  else
    let d := pwrErr (modPwr d fun x => { x with hold := true, limit := 6 }) 1
    logCounted d sevWarning srcPwr (.pwrErr 1) 0 (tgetD d.pwr.err 1 0).toNat

/-- Thermal hold ends: the supply is lowered to 0.60 V (R506). -/
def leaveHold (d : Dev) : Dev := modPwr d fun x => { x with hold := false, vcore := 120 }

def setHold (d : Dev) : Dev :=
  let j := d.pwr.tjMax
  let t := d.pwr.tdMax
  if j ≥ 100 ∨ t ≥ 95 then enterHold d
  else if d.pwr.hold ∧ j ≤ 95 ∧ t ≤ 90 then leaveHold d
  else d

/-- A sensor at 110 °C (R507). -/
def trips (x : Sensors) : Bool := (x.tj ++ x.td).any fun t => decide (t ≥ 110)

def sample (x : Sensors) (d : Dev) : Dev :=
  let d := modPwr (setVin x.vin d) fun y => { y with tj := x.tj, td := x.td, tIn := x.tIn, tOut := x.tOut, pin := x.pin, amps := x.amps }
  setHold (setAlert (setRefresh d))

/-- SENSOR_SAMPLE: the sensors' last values, and what follows from them. -/
def execSensorSample (x : Sensors) (s : State) : Host.Outcome State Fault Refusal :=
  if !s.dev.pwr.rails then .next s
  else if trips x then .next (powerOff s 3 .thermalTrip)
  else .next { s with dev := sample x s.dev }

/-! ### The governor (R505) -/

/-- The limit that is exceeded, in the order of R517's codes. -/
def exceeded (x : Power) : Option Nat :=
  if x.pin > fld x.cfg 10 0 then some 1
  else if x.tjMax > 99 then some 2
  else if x.tdMax > 94 then some 3
  else if x.amps > 1300 then some 4
  else if x.lowInput ∧ 10 * x.pin > 30 * x.vin then some 5
  else none

/-- GOVERNOR_TICK: one step of 5 mV down while a limit is exceeded, up while none is, never above the target. -/
def governorTick (d : Dev) : Dev :=
  let x := d.pwr
  let target := fld x.cfg 19 12
  if !x.rails ∨ x.hold then d
  else if x.vcore < 120 then modPwr d fun x => { x with vcore := 120 }
  else match exceeded x with
    | some l => if x.vcore = 120 then enterHold d else modPwr d fun x => { x with vcore := min target (x.vcore - 1), limit := l }
    | none =>
      if x.vcore + 1 < target then modPwr d fun x => { x with vcore := x.vcore + 1 }
      else modPwr d fun x => { x with vcore := target, limit := 0 }

def execGovernorTick (s : State) := onDev governorTick s

/-! ### PWR_CFG (R516) -/

def pwrCfgOk (v : U64) : Bool :=
  decide (700 ≤ fld v 10 0 ∧ fld v 10 0 ≤ 1400) && decide (120 ≤ fld v 19 12 ∧ fld v 19 12 ≤ 170) &&
  decide (60 ≤ fld v 31 24 ∧ fld v 31 24 ≤ 100) && decide (60 ≤ fld v 39 32 ∧ fld v 39 32 ≤ 95)

/-- PWR_CFG_WRITE: a field outside its range makes the write ignored and logged. -/
def pwrCfgWrite (v : U64) (d : Dev) : Dev :=
  if pwrCfgOk v then
    modPwr d fun x => { x with cfg := v &&& (ones 64 10 0 ||| ones 64 19 12 ||| ones 64 39 24) }
  else logIgnored d srcPwr .pwrCfg v.toNat

def execPwrCfgWrite (v : U64) (s : State) := onLive (pwrCfgWrite v) s

end Sys2Proof.Machine
end

