-- ==== Sys2Proof/Machine/Regs.lean ====
section
/-! DEFINITION. The device registers: their values, what a read clears, and their writes (R9 to R12 and the
register rules of every chapter). -/

namespace Sys2Proof.Machine

/-! ### Instances (R9) -/

/-- The instances that exist of a register. -/
def regOk : Reg → Bool
  | .partArith p | .gateFlags p | .gateFault p | .slcLand p | .slcFlags p | .rmExport p | .rillFlags p => decide (p < 16)
  | .grdCfg p | .grdBtab p | .grdStatus p | .grdFlags p | .grdSnap p _ | .grdSnapStatus p _ => decide (p < 16)
  | .memQuota p | .memKvStatus p | .partCfg p | .schWeight p | .schWatchdog p | .schQstatus p => decide (p < 16)
  | .weirRate p | .weirBurst p | .weirWait p | .detStep p | .detDlog p | .detReject p | .partJob p _ => decide (p < 16)
  | .grdErr p i => decide (p < 16 ∧ i < 4)
  | .memKvCfg p w => decide (p < 16 ∧ w < 5)
  | .coreStatus n | .coreEcc n | .movStatus n => decide (n < 36)
  | .slcErr i => decide (i < 6)
  | .fabPortCfg n | .fabPortStatus n | .fabPortCrc n => decide (n < 48)
  | .fabErr i => decide (i < 8)
  | .rmMcast g _ => decide (g < 256)
  | .rmErr i | .rillErr i | .hostErr i => decide (i < 7)
  | .rillLvl l | .rillLvlWait l => decide (l < 4)
  | .memErr i | .dmaErr i => decide (i < 3)
  | .ftlErr i | .pwrErr i => decide (i < 4)
  | .poolCfg g | .poolBase g | .poolThr g | .poolStatus g => decide (g < 64)
  | .cstShare n => decide (n < 1024)
  | .cstHeld n => decide (n < 1024)
  | .cstErr i | .schErr i => decide (i < 5)
  | .chanCfg n | .chanRing n | .chanStatus n => decide (n < 128)
  | .engStatus e => decide (e < 16)
  | .detSeed n => decide (n < 64)
  | .detAccum n => decide (n < 256)
  | .logErr i => decide (i < 2)
  | .baskCfg | .gateWs | .slcCfg | .slcTagres | .slcStatus | .fabCfg | .fabDwrrA | .fabDwrrB | .fabCredit | .fabEpoch => true
  | .rmCfg | .rmFenced | .rmStatus | .rillCfg | .rillStatus | .memCfg | .memStatus | .ftlCfg | .ftlStatus => true
  | .schCfg | .schRes | .recovCfg | .recovStatus | .hostNetCfg | .hostIp4 | .hostUhpCfg | .hostPtpCfg | .hostStatus => true
  | .schMgr | .bootStatus | .bootKeys | .pwrCfg | .pwrStatus | .pwrTherm | .logCfg | .logStatus => true

/-! ### Values of the reporting registers -/

def u8 (x : Int) : Nat := (BitVec.ofInt 8 x).toNat

def coreStNum : CoreState → Nat
  | .fused => 0
  | .spare => 1
  | .basking => 2
  | .waking => 3
  | .idle => 4
  | .running => 5
  | .saving => 6
  | .failed => 7

/-- SCH_CORE_STATUS[n] (R89). -/
def coreStatusVal (c : Core) : Nat :=
  let part := if c.st = .running then (c.task.map (·.part)).getD c.part
    else if c.st = .saving then (c.handover.bind (·.outPart)).getD c.part else 0
  packNat [(0, coreStNum c.st), (8, c.lcore.getD 0x3F), (16, part % 16)]

/-- MOV_STATUS[n] (R345): of each mover's queue the first two stand in its active and shadow sets. -/
def movStatusVal (c : Core) : Nat :=
  let st (q : List InFlight) : Nat := min 2 q.length
  let rem (q : List InFlight) : Nat := match q with
    | [] => 0
    | x :: _ => movLen x.w - max x.moved.length x.accepted
  match c.task with
  | none => 0
  | some t => packNat [(0, st t.mover0), (2, st t.mover1), (8, rem t.mover0), (32, rem t.mover1)]

/-- GATE_WS (R122). A token is worked on within one command, so no lane is ever seen busy. -/
def gateWsVal (d : Dev) : Nat :=
  packNat [(0, wsTotalKib - wsHeld d true - wsHeld d false), (16, placesHeld d true + placesHeld d false)]

def slcStatusVal (d : Dev) : Nat :=
  packNat [(0, (tagsInUse d).length), (13, (d.slc.exch.filter fun x => !x.wrote).length % 512)]

def portStNum : PortState → Nat
  | .dark => 0
  | .training => 1
  | .hello => 2
  | .up => 3
  | .degraded => 4
  | .miswired => 5
  | .errors => 6
  | .disabled => 7

/-- FAB_PORT_STATUS[n] (R206). -/
def portStatusVal (x : Port) : Nat :=
  packNat [(0, portStNum x.state), (4, if x.up then x.lanes.toNat else 0), (8, x.version.toNat), (16, x.peerPort.toNat), (32, x.peerId.toNat)]

/-- RMEM_STATUS (R232). -/
def rmStatusVal (d : Dev) : Nat :=
  packNat [(0, ((List.range 4096).filter fun t => tagUsed d (4096 + t)).length), (13, d.rm.wins.length % 2048), (24, d.rm.comb.length % 64)]

def rillStatusVal (d : Dev) : Nat :=
  packNat [(0, chunksInFlight d % 2048), (11, (d.rill.colls.filter fun x => !x.ended).length % 4096)]

/-- RILL_LVL[l] (R261). -/
def rillLvlVal (d : Dev) (l : Nat) : Nat :=
  let live := d.rill.colls.filter fun x => !x.ended
  let at_ (x : Coll) : List Slot := x.slots.filter fun s => stageLevel s.stage == l
  let slots := ((live.filter fun x => x.op != opBarrier).map fun x => (at_ x).length).foldl (· + ·) 0
  let chunks := (live.map fun x => ((at_ x).map (·.chunk)).eraseDups.length).foldl (· + ·) 0
  packNat [(0, slots % 65536), (16, chunks % 2048)]

/-- Microseconds of a nanosecond count, saturating. -/
def usSat (w ns : Nat) : Nat := min (2 ^ w - 1) (ns / 1000)

def rillWaitVal (d : Dev) (l : Nat) : Nat :=
  let x := tgetD d.rill.lvlWait l (0, 0)
  packNat [(0, usSat 32 x.1), (32, usSat 32 x.2)]

def snapStatusVal (x : Part) (hi : Bool) : Nat :=
  let writing := b2n (x.snapHeld.isSome || x.copying.isSome)
  match x.heads.getLast? with
  | some h => if hi then h.step.toNat else packNat [(0, 1), (1, h.gen % 2), (2, writing)]
  | none => if hi then 0 else packNat [(2, writing)]

/-- MEM_STATUS (R317). -/
def memStatusVal (d : Dev) : Nat :=
  packNat [(0, u8 d.pwr.tdMax), (8, b2n d.mem.refresh2x), (16, 64 - d.mem.sparedChans.length)]

def ftlStatusVal (d : Dev) : Nat :=
  packNat [(0, wearOf d.ftl), (16, min 65535 d.ftl.retired.length), (32, min 65535 d.ftl.relocQ.length)]

/-- CST_POOL_STATUS[g] (R343). -/
def poolStatusVal (x : Pool) : Nat := packNat [(0, x.held.length), (24, x.level), (32, x.peak)]

def chanStNum : ChanState → Nat
  | .disabled => 0
  | .running => 1
  | .paused => 2
  | .fault => 3

def fetchedOpen (c : Chan) : Nat := c.fetched.length

def chanStatusVal (c : Chan) : Nat :=
  packNat [(0, c.head % 65536), (16, fetchedOpen c), (21, chanStNum c.state), (32, c.completed.toNat)]

def engStatusVal (d : Dev) (e : Nat) : Nat :=
  let g := engOf d e
  let queued := ((List.range 8).map fun i => fetchedOpen (chanOf d (8 * e + i))).foldl (· + ·) 0
  packNat [(0, queued % 256), (8, g.active.getD 0 % 8), (11, b2n g.active.isSome), (12, b2n g.shadow.isSome)]

def pstNum : PState → Nat
  | .none => 0
  | .active => 1
  | .pausing => 2
  | .paused => 3
  | .destroying => 4

/-- PART_CFG[p] (R354). -/
def partCfgVal (x : Part) : Nat :=
  packNat [(0, b2n x.valid), (1, x.cls), (3, b2n x.det), (4, pstNum x.st), (8, x.progs.length), (32, x.coreset.toNat)]

/-- SCH_QSTATUS[p] (R384). -/
def qstatusVal (d : Dev) (p : Nat) : Nat :=
  let x := d.part p
  let running := (d.cores.filter fun c => (c.2.task.map (·.part)) == some p).length
  packNat [(0, x.queue.length % 512), (9, running % 64), (15, x.ctxs.length % 64)]

def weirWaitVal (x : Part) : Nat := packNat ((List.range 4).map fun r => (16 * r, usSat 16 (tgetD x.weirWait r 0)))

def recovStatusVal (d : Dev) : Nat :=
  packNat [(0, (d.cores.filter fun c => c.2.st == .spare).length % 4), (16, d.sched.replays.toNat), (32, d.sched.noReplay.toNat)]

def hostStatusVal (d : Dev) : Nat :=
  packNat [(0, b2n d.host.link), (1, b2n (d.host.ip6.isSome && !ip6Tentative d)), (2, b2n d.time.locked), (3, b2n d.time.holdover),
    (8, d.host.sessions.length % 128), (32, (BitVec.ofInt 32 d.time.offset).toNat)]

def bootStatusVal (f : Fuses) (d : Dev) : Nat :=
  packNat [(0, stageNum d.boot.stage), (4, d.boot.reason), (8, f.svnFloor % 256), (32, d.boot.fwVersion.toNat)]

/-- BOOT_KEYS (R501): leaves held count as not yet used; zero until the records have been read. -/
def bootKeysVal (f : Fuses) (d : Dev) : Nat :=
  if !keysKnown d then 0
  else match bestRec f with
  | none => packNat [(21, 1)]
  | some (r, _) => packNat [(0, 2 ^ 20 - r.next + (d.boot.leafEnd - d.boot.leafNext)), (32, r.counter % 2 ^ 32)]

/-- PWR_STATUS (R517). -/
def pwrStatusVal (f : Fuses) (x : Power) : Nat :=
  packNat [(0, x.vin % 1024), (10, x.pin % 2048), (21, x.vcore % 256), (29, x.limit), (32, b2n x.lowInput), (33, b2n x.hold),
    (34, b2n x.sbFault), (35, b2n x.alert), (36, f.lastReset), (40, x.slot.toNat)]

/-- PWR_THERM (R518). -/
def pwrThermVal (x : Power) : Nat :=
  packNat [(0, u8 x.tjMax), (8, u8 x.tdMax), (16, u8 x.tIn), (24, u8 x.tOut), (32, (x.tj.findIdx? (· == x.tjMax)).getD 0 % 64)]

def logStatusVal (l : EventLog) : Nat := packNat [(0, l.nextSeq.toNat), (32, (l.dram.head?.map (·.seq.toNat)).getD 0)]

/-! ### Reading (R11) -/

def word128 (x : BitVec 128) (hi : Bool) : Nat := if hi then fld x 127 64 else fld x 63 0

def cntVal (t : Tbl U32) (i : Nat) : Nat := (tgetD t i 0).toNat

/-- A register's 64-bit image. -/
def regVal (f : Fuses) (d : Dev) : Reg → Nat
  | .partArith p => (d.part p).arith.toNat
  | .coreStatus n => coreStatusVal (d.core n)
  | .coreEcc n => packNat [(0, (d.core n).ce.toNat), (16, (d.core n).ue.toNat)]
  | .baskCfg => d.sched.bask.toNat
  | .gateWs => gateWsVal d
  | .gateFlags p => (d.part p).gateFlags.toNat
  | .gateFault p => (d.part p).gateFault.toNat
  | .slcCfg => d.slc.cfg.toNat
  | .slcTagres => d.slc.tagres.toNat
  | .slcLand p => (d.part p).slcLand.toNat
  | .slcFlags p => (d.part p).slcFlags.toNat
  | .slcStatus => slcStatusVal d
  | .slcErr i => cntVal d.slc.err i
  | .fabCfg => d.fab.cfg.toNat
  | .fabPortCfg n => (d.port n).cfg.toNat
  | .fabPortStatus n => portStatusVal (d.port n)
  | .fabPortCrc n => (d.port n).crc.toNat
  | .fabDwrrA => d.fab.dwrrA.toNat
  | .fabDwrrB => d.fab.dwrrB.toNat
  | .fabCredit => d.fab.credit.toNat
  | .fabEpoch => d.fab.epoch.toNat
  | .fabErr i => cntVal d.fab.err i
  | .rmCfg => d.rm.cfg.toNat
  | .rmExport p => (d.part p).rmExport.toNat
  | .rmMcast g hi => word128 (tgetD d.rm.mcast g 0) hi
  | .rmFenced => d.rm.fenced.toNat
  | .rmStatus => rmStatusVal d
  | .rmErr i => cntVal d.rm.err i
  | .rillCfg => d.rill.cfg.toNat
  | .rillStatus => rillStatusVal d
  | .rillLvl l => rillLvlVal d l
  | .rillLvlWait l => rillWaitVal d l
  | .rillFlags p => (d.part p).rillFlags.toNat
  | .rillErr i => cntVal d.rill.err i
  | .grdCfg p => ((d.part p).grdCfgNext.getD (d.part p).grdCfg).toNat
  | .grdBtab p => ((d.part p).grdBtabNext.getD (d.part p).grdBtab).toNat
  | .grdStatus p => grdStatus (d.part p)
  | .grdFlags p => (d.part p).grdFlags.toNat
  | .grdErr p i => cntVal (d.part p).grdErr i
  | .grdSnap p hi => word128 (d.part p).snap hi
  | .grdSnapStatus p hi => snapStatusVal (d.part p) hi
  | .memQuota p => memQuota (d.part p)
  | .memKvCfg p w => fld (d.part p).kvCfg (64 * w + 63) (64 * w)
  | .memKvStatus p => kvStatus (d.part p)
  | .memCfg => d.mem.cfg.toNat
  | .memStatus => memStatusVal d
  | .memErr i => cntVal d.mem.err i
  | .ftlCfg => d.ftl.cfg.toNat
  | .ftlStatus => ftlStatusVal d
  | .ftlErr i => cntVal d.ftl.err i
  | .poolCfg g => (poolOf d g).cfg.toNat
  | .poolBase g => (poolOf d g).base.toNat
  | .poolThr g => (poolOf d g).thr.toNat
  | .poolStatus g => poolStatusVal (poolOf d g)
  | .cstShare n => (tgetD d.cst.shares n 0).toNat
  | .cstHeld n => (poolOf d (n / 16)).heldBy (n % 16)
  | .cstErr i => cntVal d.cst.err i
  | .movStatus n => movStatusVal (d.core n)
  | .chanCfg n => (chanOf d n).cfg.toNat
  | .chanRing n => (chanOf d n).ring.toNat
  | .chanStatus n => chanStatusVal (chanOf d n)
  | .engStatus e => engStatusVal d e
  | .dmaErr i => cntVal d.dma.err i
  | .partCfg p => partCfgVal (d.part p)
  | .schCfg => d.sched.cfg.toNat
  | .schWeight p => (d.part p).weight
  | .schWatchdog p => (d.part p).watchdog
  | .schRes => d.sched.res.toNat
  | .schQstatus p => qstatusVal d p
  | .schErr i => cntVal d.sched.err i
  | .weirRate p => (d.part p).weirRate.toNat
  | .weirBurst p => (d.part p).weirBurst.toNat
  | .weirWait p => weirWaitVal (d.part p)
  | .recovCfg => d.sched.recovCfg.toNat
  | .recovStatus => recovStatusVal d
  | .detStep p => (d.part p).step.toNat
  | .detSeed n => (tgetD (d.part (n / 4)).seeds (n % 4) 0).toNat
  | .detAccum n => (tgetD (d.part (n / 16)).accum (n % 16) 0).toNat
  | .detDlog p => packNat [(0, (d.part p).dlogLog2), (32, (d.part p).dlogWritten.toNat)]
  | .detReject p => (d.part p).detReject.toNat
  | .hostNetCfg => d.host.netCfg.toNat
  | .hostIp4 => d.host.ip4.toNat
  | .hostUhpCfg => d.host.uhpCfg.toNat
  | .hostPtpCfg => d.host.ptpCfg.toNat
  | .hostStatus => hostStatusVal d
  | .hostErr i => cntVal d.host.err i
  | .schMgr => d.mgr.scm.toNat
  | .partJob p hi => word128 (d.part p).job hi
  | .bootStatus => bootStatusVal f d
  | .bootKeys => bootKeysVal f d
  | .pwrCfg => d.pwr.cfg.toNat
  | .pwrStatus => pwrStatusVal f d.pwr
  | .pwrTherm => pwrThermVal d.pwr
  | .pwrErr i => cntVal d.pwr.err i
  | .logCfg => d.log.cfg.toNat
  | .logStatus => logStatusVal d.log
  | .logErr i => cntVal d.log.err i

/-- What a read clears: the RC fields (R11). -/
def regClear (d : Dev) : Reg → Dev
  | .coreEcc n => d.modCore n fun c => { c with ce := 0, ue := 0 }
  | .gateFault p => d.modPart p fun x => { x with gateFault := 0 }
  | .slcErr i => { d with slc := { d.slc with err := tdel d.slc.err i } }
  | .fabPortCrc n => d.modPort n fun x => { x with crc := 0 }
  | .fabErr i => { d with fab := { d.fab with err := tdel d.fab.err i } }
  | .rmErr i => { d with rm := { d.rm with err := tdel d.rm.err i } }
  | .rillLvlWait l => { d with rill := { d.rill with lvlWait := tdel d.rill.lvlWait l } }
  | .rillErr i => { d with rill := { d.rill with err := tdel d.rill.err i } }
  | .grdErr p i => d.modPart p fun x => { x with grdErr := tdel x.grdErr i }
  | .memErr i => { d with mem := { d.mem with err := tdel d.mem.err i } }
  | .ftlErr i => { d with ftl := { d.ftl with err := tdel d.ftl.err i } }
  | .poolStatus g => setPool d g fun x => { x with peak := 0 }
  | .cstErr i => { d with cst := { d.cst with err := tdel d.cst.err i } }
  | .dmaErr i => { d with dma := { d.dma with err := tdel d.dma.err i } }
  | .schErr i => { d with sched := { d.sched with err := tdel d.sched.err i } }
  | .weirWait p => d.modPart p fun x => { x with weirWait := [] }
  | .recovStatus => { d with sched := { d.sched with replays := 0, noReplay := 0 } }
  | .detReject p => d.modPart p fun x => { x with detReject := 0 }
  | .hostErr i => { d with host := { d.host with err := tdel d.host.err i } }
  | .pwrErr i => modPwr d fun x => { x with err := tdel x.err i }
  | .logErr i => { d with log := { d.log with err := tdel d.log.err i } }
  | _ => d

/-! ### Writing (R11, R12) -/

/-- The block that logs an ignored write (R526). -/
def regSource : Reg → Nat
  | .partArith _ | .coreStatus _ | .coreEcc _ | .baskCfg => srcCore
  | .gateWs | .gateFlags _ | .gateFault _ => srcGate
  | .slcCfg | .slcTagres | .slcLand _ | .slcFlags _ | .slcStatus | .slcErr _ => srcSluice
  | .fabCfg | .fabPortCfg _ | .fabPortStatus _ | .fabPortCrc _ | .fabDwrrA | .fabDwrrB | .fabCredit | .fabEpoch | .fabErr _ => srcFabric
  | .rmCfg | .rmExport _ | .rmMcast _ _ | .rmFenced | .rmStatus | .rmErr _ => srcRmem
  | .rillCfg | .rillStatus | .rillLvl _ | .rillLvlWait _ | .rillFlags _ | .rillErr _ => srcRill
  | .grdCfg _ | .grdBtab _ | .grdStatus _ | .grdFlags _ | .grdErr _ _ => srcGrd
  | .memQuota _ | .memKvCfg _ _ | .memKvStatus _ | .memCfg | .memStatus | .memErr _ => srcMem
  | .ftlCfg | .ftlStatus | .ftlErr _ => srcFtl
  | .poolCfg _ | .poolBase _ | .poolThr _ | .poolStatus _ | .cstShare _ | .cstHeld _ | .cstErr _ => srcCistern
  | .movStatus _ | .chanCfg _ | .chanRing _ | .chanStatus _ | .engStatus _ | .dmaErr _ => srcDma
  | .partCfg _ | .schCfg | .schWeight _ | .schWatchdog _ | .schRes | .schQstatus _ | .schErr _ | .weirRate _ | .weirBurst _ | .weirWait _ => srcSched
  | .recovCfg | .recovStatus | .grdSnap _ _ | .grdSnapStatus _ _ => srcRecovery
  | .detStep _ | .detSeed _ | .detAccum _ | .detDlog _ | .detReject _ => srcDet
  | .hostNetCfg | .hostIp4 | .hostUhpCfg | .hostPtpCfg | .hostStatus | .hostErr _ => srcHost
  | .schMgr | .partJob _ _ => srcManager
  | .bootStatus | .bootKeys => srcBoot
  | .pwrCfg | .pwrStatus | .pwrTherm | .pwrErr _ => srcPwr
  | .logCfg | .logStatus | .logErr _ => srcLog

/-- Weights of zero are stored as 1 (R207). -/
def dwrrFix (n v : Nat) : U32 := pack 32 ((List.range n).map fun i => (8 * i, max 1 (nfld v (8 * i + 7) (8 * i))))

def fabCfgOk (v : U64) : Bool :=
  decide (0x10 ≤ fld v 15 8 ∧ fld v 15 8 ≤ fld v 7 0 ∧ fld v 7 0 ≤ 0x20)

def fabCreditOk (v : U64) : Bool := decide (8 * (fld v 7 0 + 6 * fld v 15 8 + 3 * fld v 23 16) ≤ 8192)

def ftlCfgOk (v : U64) : Bool :=
  decide (5 ≤ fld v 7 0 ∧ fld v 7 0 ≤ 50) && decide (50 ≤ fld v 15 8 ∧ fld v 15 8 ≤ 255) &&
  decide (10000 ≤ fld v 35 16 ∧ fld v 35 16 ≤ 100000) && decide (1 ≤ fld v 39 36)

/-- GRD_SNAP (R427): the buddy lies in the pod, the table inside the quota. -/
def snapOk (d : Dev) (p : Nat) (x : BitVec 128) (hi : Bool) : Bool :=
  let buddy : DevId := BitVec.ofNat 16 (fld x 47 32)
  (hi || (fld buddy 15 14 == 0 && devPod buddy == devPod (myId d))) && fld x 111 64 % 32 == 0 && okNew d p false (fld x 111 64) (32 * fld x 59 48)

/-- CST_POOL_CFG[g] (R321, R322). A register write that sets EN bypasses firmware's checks (R453); the pool then
stands at its level at once (R325). -/
def poolCfgWrite (d : Dev) (g : Nat) (v : U64) : Option Dev :=
  let x := poolOf d g
  let new := v &&& (ones 64 8 0 ||| ones 64 39 16)
  if x.en then
    if bit new 0 then (if new = x.cfg then some d else none)
    else if new ||| 1 ≠ x.cfg ∨ !x.held.isEmpty then none
    else some (notePool (setPool d g fun x => { x with cfg := new, pages := [] }) g)
  else if !bit new 0 then some (setPool d g fun x => { x with cfg := new })
  else some (notePool (createPool d g new x.base) g)

/-- DMA_CHAN_CFG[n] (R346): enabling a channel starts it at descriptor 0. -/
def chanCfgWrite (d : Dev) (n : Nat) (v : U64) : Option Dev :=
  let c := chanOf d n
  let new := v &&& (ones 64 4 0 ||| ones 64 20 6)
  if fetchedOpen c > 0 ∨ (bit new 0 ∧ n % 8 = 7) then none
  else some (modChan d n fun c =>
    if !bit new 0 then { c with cfg := new, state := .disabled }
    else if c.en then { c with cfg := new }
    else { c with cfg := new, state := .running, head := 0 })

/-- The write of a register's fields; none where the write is ignored and logged. Writes of RO and RC fields have no
effect. -/
def regWrite (d : Dev) (r : Reg) (v : U64) : Option Dev :=
  let w : U32 := BitVec.ofNat 32 v.toNat
  if !regOk r then some d
  else match r with
  | .partArith p => some (d.modPart p fun x => { x with arith := x.arith &&& ~~~w })
  | .gateFlags p => some (d.modPart p fun x => { x with gateFlags := x.gateFlags &&& ~~~w })
  | .slcFlags p => some (d.modPart p fun x => { x with slcFlags := x.slcFlags &&& ~~~w })
  | .rillFlags p => some (d.modPart p fun x => { x with rillFlags := x.rillFlags &&& ~~~w })
  | .grdFlags p => some (d.modPart p fun x => { x with grdFlags := x.grdFlags &&& ~~~w })
  | .baskCfg => some { d with sched := { d.sched with bask := w &&& ones 32 16 0 } }
  | .slcCfg => some { d with slc := { d.slc with cfg := w } }
  | .slcTagres => if fld w 12 0 + fld w 25 13 > 4096 then none else some { d with slc := { d.slc with tagres := w &&& ones 32 25 0 } }
  | .slcLand p => some (d.modPart p fun x => { x with slcLand := w &&& ones 32 6 0 })
  | .fabCfg => if fabCfgOk v then some { d with fab := { d.fab with cfg := v &&& ones 64 39 0 } } else none
  | .fabPortCfg n => some (fabPortCfgWrite n w d)
  | .fabDwrrA =>
    let x := dwrrFix 4 w.toNat
    let d := if x = w then d else logIgnored d srcFabric r v.toNat
    some { d with fab := { d.fab with dwrrA := x } }
  | .fabDwrrB =>
    let x := dwrrFix 2 w.toNat
    let d := if x = w &&& ones 32 15 0 then d else logIgnored d srcFabric r v.toNat
    some { d with fab := { d.fab with dwrrB := x } }
  | .fabCredit => if fabCreditOk v then some { d with fab := { d.fab with credit := w &&& ones 32 29 0 } } else none
  | .fabEpoch => some { d with fab := { d.fab with epoch := w &&& ones 32 7 0 } }
  | .rmCfg => some { d with rm := { d.rm with cfg := w &&& ones 32 27 0 } }
  | .rmExport p =>
    if fld w 25 8 > fld (BitVec.ofNat 64 (memQuota (d.part p))) 33 16 then none
    else some (d.modPart p fun x => { x with rmExport := w &&& (1 ||| ones 32 25 8) })
  | .rillCfg => if fld w 22 20 = 7 then none else some { d with rill := { d.rill with cfg := w &&& ones 32 22 0 } }
  | .grdCfg p => some (grdCfgWrite p v d)
  | .grdBtab p => some (grdBtabWrite p v d)
  | .grdSnap p hi =>
    let new := merge (snapMask &&& (if hi then ones 128 127 64 else ones 128 63 0)) (d.part p).snap (BitVec.ofNat 128 (v.toNat * if hi then 2 ^ 64 else 1))
    if snapOk d p new hi then some (d.modPart p fun x => { x with snap := new }) else none
  | .memKvCfg p i =>
    some (kvCfgWrite p (merge (ones 320 (64 * i + 63) (64 * i)) (d.part p).kvCfg (BitVec.ofNat 320 (v.toNat * 2 ^ (64 * i)))) d)
  | .memCfg => some { d with mem := { d.mem with cfg := w &&& ones 32 15 0 } }
  | .ftlCfg => if ftlCfgOk v then some { d with ftl := { d.ftl with cfg := v &&& ones 64 47 0 } } else none
  | .poolCfg g => poolCfgWrite d g v
  | .poolBase g => 
    let new := v &&& ones 64 47 0
    if (poolOf d g).en then (if new = (poolOf d g).base then some d else none) else some (setPool d g fun x => { x with base := new })
  | .poolThr g =>
    if fld v 7 0 ≤ fld v 15 8 ∧ fld v 15 8 ≤ fld v 23 16 then some (notePool (setPool d g fun x => { x with thr := v &&& ones 64 23 0 }) g) else none
  | .cstShare n => if shareOk d (n / 16) (n % 16) (v &&& ones 64 47 0) then some (setShare d (n / 16) (n % 16) (v &&& ones 64 47 0)) else none
  | .chanCfg n => chanCfgWrite d n v
  | .chanRing n => if fetchedOpen (chanOf d n) > 0 then none else some (modChan d n fun c => { c with ring := v &&& ones 64 47 0 })
  | .schCfg => some { d with sched := { d.sched with cfg := w &&& ones 32 1 0 } }
  | .schWeight p => if fld w 7 0 = 0 then none else some (d.modPart p fun x => { x with weight := fld w 7 0 })
  | .schWatchdog p => if fld w 15 0 = 0 then none else some (d.modPart p fun x => { x with watchdog := fld w 15 0 })
  | .schRes =>
    if fld w 8 0 > 256 ∨ fld w 14 9 > 32 ∨ fld w 22 16 > 104 then none
    else some { d with sched := { d.sched with res := w &&& (ones 32 14 0 ||| ones 32 22 16) } }
  | .weirRate p => some (d.modPart p fun x => { x with weirRate := v })
  | .weirBurst p =>
    let d := if burstOf v.toNat = v then d else logIgnored d srcSched r v.toNat
    some (d.modPart p fun x => { x with weirBurst := burstOf v.toNat })
  | .recovCfg => some { d with sched := { d.sched with recovCfg := w &&& ones 32 16 0 } }
  | .hostNetCfg =>
    if fld v 37 24 < 1518 ∨ fld v 37 24 > 9216 then none
    else some (modHost d fun h => { h with netCfg := v &&& (ones 64 14 0 ||| ones 64 21 16 ||| ones 64 37 24) })
  | .hostIp4 => some (modHost d fun h => { h with ip4 := v &&& ones 64 37 0 })
  | .hostUhpCfg => some (modHost d fun h => { h with uhpCfg := v &&& (ones 64 19 0 ||| ones 64 63 32) })
  | .hostPtpCfg => some (modHost d fun h => { h with ptpCfg := w &&& ones 32 8 0 })
  | .schMgr =>
    if fld v 47 32 = 0 then none else some { d with mgr := { d.mgr with scm := merge (ones 64 47 32) d.mgr.scm v } }
  | .pwrCfg => some (pwrCfgWrite v d)
  | .logCfg =>
    if fld v 18 16 > 4 ∨ fld v 21 19 > 4 ∨ fld v 15 0 = 0 then none
    else some { d with log := { d.log with cfg := v &&& ones 64 21 0 } }
  | _ => some d

/-- A write that is ignored is logged (R526). -/
def regWriteLog (d : Dev) (r : Reg) (v : U64) : Dev :=
  (regWrite d r v).getD (logIgnored d (regSource r) r v.toNat)

/-- REGISTER_WRITE. -/
def execRegisterWrite (r : Reg) (v : U64) (s : State) := onLive (fun d => regWriteLog d r v) s

/-! ### REG_READ and REG_WRITE (R452, R453) -/

/-- Every register instance. -/
def allRegs : List Reg :=
  let ps := List.range 16
  let inst (n : Nat) (f : Nat → Reg) : List Reg := (List.range n).map f
  inst 64 .poolCfg ++ inst 64 .poolBase ++
  ([.partArith, .gateFlags, .gateFault, .slcLand, .slcFlags, .rmExport, .rillFlags, .grdCfg, .grdBtab, .grdStatus, .grdFlags,
    .memQuota, .memKvStatus, .partCfg, .schWeight, .schWatchdog, .schQstatus, .weirRate, .weirBurst, .weirWait, .detStep, .detDlog,
    .detReject] : List (Nat → Reg)).flatMap ps.map ++
  ps.flatMap (fun p => inst 4 (.grdErr p) ++ inst 5 (.memKvCfg p) ++
    [.grdSnap p false, .grdSnap p true, .grdSnapStatus p false, .grdSnapStatus p true, .partJob p false, .partJob p true]) ++
  inst 36 .coreStatus ++ inst 36 .coreEcc ++ inst 36 .movStatus ++ inst 6 .slcErr ++ inst 48 .fabPortCfg ++ inst 48 .fabPortStatus ++
  inst 48 .fabPortCrc ++ inst 8 .fabErr ++ inst 256 (.rmMcast · false) ++ inst 256 (.rmMcast · true) ++ inst 7 .rmErr ++ inst 7 .rillErr ++
  inst 7 .hostErr ++ inst 4 .rillLvl ++ inst 4 .rillLvlWait ++ inst 3 .memErr ++ inst 3 .dmaErr ++ inst 4 .ftlErr ++ inst 4 .pwrErr ++
  inst 64 .poolThr ++ inst 64 .poolStatus ++ inst 1024 .cstShare ++ inst 1024 .cstHeld ++
  inst 5 .cstErr ++ inst 5 .schErr ++ inst 128 .chanCfg ++ inst 128 .chanRing ++ inst 128 .chanStatus ++ inst 16 .engStatus ++
  inst 64 .detSeed ++ inst 256 .detAccum ++ inst 2 .logErr ++
  [.baskCfg, .gateWs, .slcCfg, .slcTagres, .slcStatus, .fabCfg, .fabDwrrA, .fabDwrrB, .fabCredit, .fabEpoch, .rmCfg, .rmFenced,
    .rmStatus, .rillCfg, .rillStatus, .memCfg, .memStatus, .ftlCfg, .ftlStatus, .schCfg, .schRes, .recovCfg, .recovStatus, .hostNetCfg,
    .hostIp4, .hostUhpCfg, .hostPtpCfg, .hostStatus, .schMgr, .bootStatus, .bootKeys, .pwrCfg, .pwrStatus, .pwrTherm, .logCfg,
    .logStatus]

def regAt (a : Nat) : Option Reg := allRegs.find? fun r => (Config.regAddr r).toNat == a

def regsLo : Nat := 0xC00000000000
def regsHi : Nat := 0xC10000000000

/-- The addresses of a REG_READ or REG_WRITE body are in range and aligned. -/
def regRangeOk (b : List Byte) : Bool :=
  let a := le b 0 8
  let n := le b 8 2
  decide (1 ≤ n ∧ n ≤ 1000) && a % 8 == 0 && decide (regsLo ≤ a ∧ a + 8 * n ≤ regsHi) && le b 10 6 == 0

/-- Reads one register after another; an address of no register reads zero (log 6). -/
def readRegs (f : Fuses) : Nat → Nat → Dev → List Byte × Dev
  | 0, _, d => ([], d)
  | n + 1, a, d =>
    match regAt a with
    | none =>
      let (bs, d) := readRegs f n (a + 8) d
      (List.replicate 8 0 ++ bs, d)
    | some r =>
      let (bs, e) := readRegs f n (a + 8) (regClear d r)
      (toLe 8 (regVal f d r) ++ bs, e)

/-- REG_READ. -/
def regRead (f : Fuses) (r : Req) (d : Dev) : Dev :=
  if !regRangeOk r.body then respondErr d r sBadField
  else
    let (bs, d) := readRegs f (le r.body 8 2) (le r.body 0 8) d
    respondOk d r bs

def execRegRead (r : ReqId) (s : State) := onDevF (fun f d => onReq r 0xF0 always (regRead f) d) s

/-- Writes one register after another, managed or not: the part does not detect a write that R453 forbids (log 56). -/
def writeRegs : List (List Byte) → Nat → Dev → Dev
  | [], _, d => d
  | b :: bs, a, d =>
    match regAt a with
    | none => writeRegs bs (a + 8) d
    | some r => writeRegs bs (a + 8) (regWriteLog d r (BitVec.ofNat 64 (leNat b)))

/-- REG_WRITE. -/
def regWriteCmd (r : Req) (d : Dev) : Dev :=
  if !regRangeOk r.body then respondErr d r sBadField
  else respondOk (writeRegs (chunks 8 (r.body.drop 16)) (le r.body 0 8) d) r []

def execRegWrite (r : ReqId) (s : State) := onDev (onReq r 0xF1 always regWriteCmd) s

end Sys2Proof.Machine
end

