-- ==== Sys2Proof/Machine/Log.lean ====
section
/-! DEFINITION. Reading the event log, the health sections, and the end of a second (R196, R522, R527 to R530). -/

namespace Sys2Proof.Machine

/-! ### LOG_RATE_SECOND (R527) -/

/-- The SUPPRESSED entry of a pair with entries left out. -/
def logSuppressed (d : Dev) (r : LogRate) : Dev :=
  if r.left = 0 then d
  else logIt d sevNotice none srcLog 0x0006 (packNat [(0, r.source), (16, r.code), (32, r.left % 2 ^ 32)])

/-- A second ends: entries left out are reported, and every count per second starts again. -/
def logRateSecond (d : Dev) : Dev :=
  let rates := d.log.rates
  let d := { d with log := { d.log with rates := [] }, fab := { d.fab with ports := d.fab.ports.map fun x => (x.1, { x.2 with discards := 0 }) } }
  rates.foldl logSuppressed d

def execLogRateSecond (s : State) := onDev logRateSecond s

/-! ### LOG_READ (R528) -/

/-- An entry's 32 bytes (R522). -/
def entryBytes (e : LogEntry) : List Byte :=
  toLe 32 (packNat [(0, e.time % 2 ^ 64), (64, e.sev), (67, b2n e.part.isSome), (68, e.part.getD 0 % 16), (72, e.source), (80, e.code),
    (96, e.seq.toNat), (128, e.data.toNat)])

/-- Both rings merged: the DRAM ring holds the newest entries, the SRAM ring some that are older. -/
def retained (l : EventLog) : List LogEntry :=
  match l.dram with
  | [] => l.sram
  | e :: _ => (l.sram.filter fun x => decide (x.time < e.time)) ++ l.dram

/-- The entries that a read from `start` returns. -/
def readLog (l : EventLog) (start max : Nat) : List LogEntry := ((retained l).filter fun e => decide (e.time ≥ start)).take max

/-- Sequence numbers between the first and the last entry that neither ring holds. -/
def lostOf (es : List LogEntry) : Nat :=
  match es.head?, es.getLast? with
  | some a, some b => (b.seq - a.seq).toNat + 1 - es.length
  | _, _ => 0

def logNext (es : List LogEntry) (start : Nat) : Nat :=
  match es.getLast? with
  | some e => e.time + 1
  | none => start

/-- LOG_READ. -/
def logRead (r : Req) (d : Dev) : Dev :=
  let start := le r.body 0 8
  let max := le r.body 8 4
  if max > 254 then respondErr d r sBadField
  else
    let es := readLog d.log start max
    respondOk d r (toLe 16 (packNat [(0, es.length), (32, lostOf es), (64, logNext es start % 2 ^ 64)]) ++ es.flatMap entryBytes)

def execLogRead (r : ReqId) (s : State) := onDev (onReq r 0x60 always logRead) s

/-! ### HEALTH_QUERY (R530) -/

/-- The registers of a section, in order. -/
def sectionRegs : Nat → List Reg
  | 0 => [.pwrStatus, .pwrTherm] ++ (List.range 4).map .pwrErr
  | 1 => (List.range 36).map .coreStatus ++ (List.range 36).map .coreEcc ++ [.recovStatus] ++ (List.range 5).map .schErr
  | 2 => [.memStatus] ++ (List.range 3).map .memErr ++ [.ftlStatus] ++ (List.range 4).map .ftlErr
  | 3 => (List.range 48).map .fabPortStatus ++ (List.range 48).map .fabPortCrc ++ (List.range 8).map .fabErr
  | 4 => [.slcStatus] ++ (List.range 6).map .slcErr ++ [.rmStatus] ++ (List.range 7).map .rmErr ++ [.rillStatus] ++
    (List.range 7).map .rillErr ++ (List.range 5).map .cstErr ++ (List.range 3).map .dmaErr ++ [.gateWs]
  | 5 => [.hostStatus] ++ (List.range 7).map .hostErr
  | 6 => [.bootStatus, .bootKeys]
  | 7 => (List.range 16).map .partCfg ++ (List.range 16).map .schQstatus
  | 8 => [.logStatus, .logErr 0, .logErr 1]
  | _ => []

/-- One section: its header, and a register image each. -/
def sectionBytes (f : Fuses) (d : Dev) (n : Nat) : List Byte :=
  let rs := sectionRegs n
  toLe 8 (packNat [(0, n), (16, rs.length)]) ++ rs.flatMap fun r => toLe 8 (regVal f d r)

/-- HEALTH_QUERY: no counter is cleared. -/
def healthQuery (f : Fuses) (r : Req) (d : Dev) : Dev :=
  let x := le r.body 0 4
  if x ≥ 512 then respondErr d r sBadField else respondOk d r ((bitsSet 9 x).flatMap (sectionBytes f d))

def execHealthQuery (r : ReqId) (s : State) := onDevF (fun f d => onReq r 0x61 always (healthQuery f) d) s

end Sys2Proof.Machine
end

