-- ==== Sys2Proof/Machine/Mmgr.lean ====
section
/-! DEFINITION. Mailbox commands of the manager role: MANAGER_ASSIGN, JOB_LAUNCH, FENCE_DEVICE (R471, R473, R476,
R481, R482). -/

namespace Sys2Proof.Machine

/-- The role, block and peer are ones that R471 allows. -/
def roleOk (d : Dev) (rl first n : Nat) (peer : DevId) : Bool :=
  let me := myId d
  decide (rl ≤ 2) && decide (1 ≤ n ∧ n ≤ 16 ∧ first + n ≤ 16) && inPods first n me && inPods first n peer && peer != me &&
  devRack peer != devRack me && (role d == 0 || (blockFirst d == first && blockPods d == n))

def scmMask : U64 := ones 64 1 0 ||| ones 64 7 4 ||| ones 64 12 8 ||| ones 64 31 16

def managerAssign (r : Req) (d : Dev) : Dev :=
  let b := r.body
  let rl := le b 0 1
  let first := le b 1 1
  let n := le b 2 1
  let peer : DevId := BitVec.ofNat 16 (le b 4 2)
  let set (v : U64) : Dev :=
    { d with mgr := { d.mgr with scm := merge scmMask d.mgr.scm v, active := false, heard := false, sent := false } }
  if le b 3 1 ≠ 0 then respondErr d r sBadField
  else if !roleOk d rl first n peer then respondErr d r sBadField
  else if rl = 0 then respondOk (set 0) r []
  else respondOk (set (pack 64 [(0, rl), (4, first), (8, n), (16, peer.toNat)])) r []

def execManagerAssign (r : ReqId) (s : State) := onDev (onReq r 0x80 always managerAssign) s

/-- The specification is one that R473 allows, for this manager. -/
def specOk (d : Dev) (id : U64) (sp : List Byte) : Bool :=
  decide (64 ≤ sp.length ∧ sp.length ≤ 8176) && sp.length == spLen sp && spVer sp == 1 && decide (spPart sp < 16) &&
  decide (1 ≤ spPods sp ∧ blockFirst d ≤ spFirst sp ∧ spFirst sp + spPods sp ≤ blockFirst d + blockPods d) &&
  le sp 6 1 / 4 == 0 && le sp 7 1 == 0 &&
  (!spSnap sp || (decide (1 ≤ spEvery sp ∧ spNreg sp ≤ 4095) && decide (spTable sp < 2 ^ 48) && spTable sp % 32 == 0)) &&
  le sp 62 2 == 0 && (if spCreate sp then decide (64 ≤ spPcLen sp) else spPcLen sp == 0) &&
  (spExcl sp).all (fun e => inBlock d e.1 && decide (e.2.1 ≤ 1) && e.2.2 == 0) && !(spMembers sp).isEmpty &&
  !(d.mgr.jobs.any fun j => j.id == id || j.part == spPart sp)

/-- A job as it is launched (R473). -/
def newJob (r : Req) (d : Dev) : Job :=
  let sp := r.body.drop 16
  { id := BitVec.ofNat 64 (le r.body 0 8), part := spPart sp, spec := sp, members := spMembers sp, spares := spSpares sp, subst := []
    replaced := 0, acked := [], rounds := 1, status := 0, badPos := none, launched := false, req := r.id, noevt := r.noevt
    pauseMark := false, pausing := false, paused := [], resumeAsked := false, replaying := false
    past := [], arrivals := none, reports := [], fresh := [], deputy := peerDev d }

def jobLaunch (r : Req) (d : Dev) : Dev :=
  let id : U64 := BitVec.ofNat 64 (le r.body 0 8)
  let sp := r.body.drop 16
  if !isManager d then respondErr d r sDenied
  else if le r.body 12 4 ≠ 0 ∨ !specOk d id sp then respondErr d r sBadField
  else
    let j := newJob r d
    let d := accept d r
    launchStart { d with mgr := { d.mgr with jobs := d.mgr.jobs ++ [j] } } id

def execJobLaunch (r : ReqId) (s : State) := onDev (onReq r 0x81 always jobLaunch) s

/-! ### FENCE_DEVICE -/

def fdDev (b : List Byte) : DevId := BitVec.ofNat 16 (le b 0 2)
def isRejoin (b : List Byte) : Bool := (le b 2 1).testBit 0

/-- A fenced device is no spare until it rejoins (R481, R482). -/
def dropSpare (d : Dev) (f : DevId) : Dev :=
  { d with mgr := { d.mgr with jobs := d.mgr.jobs.map fun j => { j with spares := j.spares.filter (· != f) } } }

/-- A fence: a live member of a job is handled by that job as lost. The device is probed, since only a reachable one has
to acknowledge. -/
def fenceDevice (r : Req) (d : Dev) : Dev :=
  let f := fdDev r.body
  if r.started then d
  else if !isManager d then respondErr d r sDenied
  else if le r.body 2 1 > 1 ∨ !inBlock d f then respondErr d r sBadField
  else jobsLose (escalate (fenceAsk (dropSpare (markStarted d r) f) f false (some r.id)) f true) f d.time.now

def execFenceDevice (r : ReqId) (s : State) := onDev (onReq r 0x82 (fun b => !isRejoin b) fenceDevice) s

/-- The device is a spare of every job whose pods hold it (R481). -/
def addSpare (d : Dev) (f : DevId) : Dev :=
  let add (j : Job) : Job :=
    if inPods (spFirst j.spec) (spPods j.spec) f && !j.members.contains f && !j.spares.contains f then { j with spares := j.spares ++ [f] } else j
  { d with mgr := { d.mgr with jobs := d.mgr.jobs.map add } }

def fenceRejoin (r : Req) (d : Dev) : Dev :=
  let f := fdDev r.body
  if r.started then d
  else if !isManager d then respondErr d r sDenied
  else if le r.body 2 1 > 1 ∨ !inBlock d f then respondErr d r sBadField
  else
    let d := addSpare (markStarted d r) f
    fenceAsk { d with rec_ := { d.rec_ with lost := d.rec_.lost.filter (· != f) } } f true (some r.id)

def execFenceDeviceRejoin (r : ReqId) (s : State) := onDev (onReq r 0x82 isRejoin fenceRejoin) s

end Sys2Proof.Machine
end

