-- ==== Sys2Proof/Machine/Dispatch.lean ====
section
/-! DEFINITION. The effect of every command on everything but the queue: one arm per command, each
one call of the command's meaning. -/

namespace Sys2Proof.Machine

/-- The command's effect on the state. -/
def exec (i : Instr) (s : State) : Host.Outcome State Fault Refusal :=
  match i with
  | .ldw n w => Sys2Proof.Machine.execLdw n w s
  | .mm n w => Sys2Proof.Machine.execMm n w s
  | .accOut n w => Sys2Proof.Machine.execAccOut n w s
  | .vop n w => Sys2Proof.Machine.execVop n w s
  | .cvt n w => Sys2Proof.Machine.execCvt n w s
  | .mov n w => Sys2Proof.Machine.execMov n w s
  | .wait n w => Sys2Proof.Machine.execWait n w s
  | .waitSatisfied n => Sys2Proof.Machine.execWaitSatisfied n s
  | .sig n w => Sys2Proof.Machine.execSig n w s
  | .gatePush n w => Sys2Proof.Machine.execGatePush n w s
  | .dispatch n w => Sys2Proof.Machine.execDispatch n w s
  | .combine n w => Sys2Proof.Machine.execCombine n w s
  | .allReduce n w => Sys2Proof.Machine.execAllReduce n w s
  | .reduceScatter n w => Sys2Proof.Machine.execReduceScatter n w s
  | .allGather n w => Sys2Proof.Machine.execAllGather n w s
  | .broadcast n w => Sys2Proof.Machine.execBroadcast n w s
  | .allToAll n w => Sys2Proof.Machine.execAllToAll n w s
  | .barrier n w => Sys2Proof.Machine.execBarrier n w s
  | .digestSet n w => Sys2Proof.Machine.execDigestSet n w s
  | .digestFlush n w => Sys2Proof.Machine.execDigestFlush n w s
  | .step n w => Sys2Proof.Machine.execStep n w s
  | .endTask n w => Sys2Proof.Machine.execEndTask n w s
  | .stepBarrierRelease p => Sys2Proof.Machine.execStepBarrierRelease p s
  | .gatePushAccept => Sys2Proof.Machine.execGatePushAccept s
  | .gateStepOpen serve => Sys2Proof.Machine.execGateStepOpen serve s
  | .gateStepDone p slot => Sys2Proof.Machine.execGateStepDone p slot s
  | .exchangeTagsTaken p exch => Sys2Proof.Machine.execExchangeTagsTaken p exch s
  | .slcCount port c => Sys2Proof.Machine.execSlcCount port c s
  | .slcDir port c => Sys2Proof.Machine.execSlcDir port c s
  | .slcGrant port c => Sys2Proof.Machine.execSlcGrant port c s
  | .slcReady port c => Sys2Proof.Machine.execSlcReady port c s
  | .slcCountAck port c => Sys2Proof.Machine.execSlcCountAck port c s
  | .slcData port c => Sys2Proof.Machine.execSlcData port c s
  | .slcAck port c => Sys2Proof.Machine.execSlcAck port c s
  | .slcAbort port c => Sys2Proof.Machine.execSlcAbort port c s
  | .rowsFixed p exch => Sys2Proof.Machine.execRowsFixed p exch s
  | .rxBufAlloc p exch lslot => Sys2Proof.Machine.execRxBufAlloc p exch lslot s
  | .transferComplete p exch src => Sys2Proof.Machine.execTransferComplete p exch src s
  | .exchangeComplete p exch => Sys2Proof.Machine.execExchangeComplete p exch s
  | .returnBuffersHeld p exch src => Sys2Proof.Machine.execReturnBuffersHeld p exch src s
  | .homeSum p exch token => Sys2Proof.Machine.execHomeSum p exch token s
  | .slcTransferTimeout p exch dst => Sys2Proof.Machine.execSlcTransferTimeout p exch dst s
  | .slcDeferResend p exch dst => Sys2Proof.Machine.execSlcDeferResend p exch dst s
  | .earlyCreditLapse dev p source => Sys2Proof.Machine.execEarlyCreditLapse dev p source s
  | .slcAbortResend p exch dev => Sys2Proof.Machine.execSlcAbortResend p exch dev s
  | .peerQueryTimer rill p id dev => Sys2Proof.Machine.execPeerQueryTimer rill p id dev s
  | .peerQuery port c => Sys2Proof.Machine.execPeerQuery port c s
  | .peerState port c => Sys2Proof.Machine.execPeerState port c s
  | .peerQueryUnanswered rill p id dev => Sys2Proof.Machine.execPeerQueryUnanswered rill p id dev s
  | .bringupStepTimeout port => Sys2Proof.Machine.execBringupStepTimeout port s
  | .bringupRetryWait port => Sys2Proof.Machine.execBringupRetryWait port s
  | .linkHello port h => Sys2Proof.Machine.execLinkHello port h s
  | .laneDegrade port healthy => Sys2Proof.Machine.execLaneDegrade port healthy s
  | .portErrLimit port => Sys2Proof.Machine.execPortErrLimit port s
  | .cellForward port c => Sys2Proof.Machine.execCellForward port c s
  | .linkState port c => Sys2Proof.Machine.execLinkState port c s
  | .linkStatePeriod => Sys2Proof.Machine.execLinkStatePeriod s
  | .unreach port c => Sys2Proof.Machine.execUnreach port c s
  | .zexclExpire dest plane => Sys2Proof.Machine.execZexclExpire dest plane s
  | .rmReduceM port c => Sys2Proof.Machine.execRmReduceM port c s
  | .rmMerge port c => Sys2Proof.Machine.execRmMerge port c s
  | .mergePairTimeout src tag p => Sys2Proof.Machine.execMergePairTimeout src tag p s
  | .load p st => Sys2Proof.Machine.execLoad p st s
  | .store p st => Sys2Proof.Machine.execStore p st s
  | .flaggedStore p st => Sys2Proof.Machine.execFlaggedStore p st s
  | .atomic p st => Sys2Proof.Machine.execAtomic p st s
  | .reduceInto p st => Sys2Proof.Machine.execReduceInto p st s
  | .multicastStore p st => Sys2Proof.Machine.execMulticastStore p st s
  | .streamFence p st => Sys2Proof.Machine.execStreamFence p st s
  | .targetFence p st => Sys2Proof.Machine.execTargetFence p st s
  | .rmLoad port c => Sys2Proof.Machine.execRmLoad port c s
  | .rmStore port c => Sys2Proof.Machine.execRmStore port c s
  | .rmAtomic port c => Sys2Proof.Machine.execRmAtomic port c s
  | .rmReduce port c => Sys2Proof.Machine.execRmReduce port c s
  | .rmMcast port c => Sys2Proof.Machine.execRmMcast port c s
  | .rmFence port c => Sys2Proof.Machine.execRmFence port c s
  | .rmResp port c => Sys2Proof.Machine.execRmResp port c s
  | .heldFlagWrite src tag p => Sys2Proof.Machine.execHeldFlagWrite src tag p s
  | .flagGlobalSend p st => Sys2Proof.Machine.execFlagGlobalSend p st s
  | .rmRequestTimeout tag => Sys2Proof.Machine.execRmRequestTimeout tag s
  | .gwWrite port c => Sys2Proof.Machine.execGwWrite port c s
  | .gwRead port c => Sys2Proof.Machine.execGwRead port c s
  | .gwData port c => Sys2Proof.Machine.execGwData port c s
  | .gwIdleFlush p st base => Sys2Proof.Machine.execGwIdleFlush p st base s
  | .collSlotsReserved p comm => Sys2Proof.Machine.execCollSlotsReserved p comm s
  | .chunkStart p comm chunk => Sys2Proof.Machine.execChunkStart p comm chunk s
  | .collData port c => Sys2Proof.Machine.execCollData port c s
  | .collOpen port c => Sys2Proof.Machine.execCollOpen port c s
  | .collOpenAck port c => Sys2Proof.Machine.execCollOpenAck port c s
  | .collAck port c => Sys2Proof.Machine.execCollAck port c s
  | .collFree port c => Sys2Proof.Machine.execCollFree port c s
  | .collProbe port c => Sys2Proof.Machine.execCollProbe port c s
  | .collEmpty port c => Sys2Proof.Machine.execCollEmpty port c s
  | .collNak port c => Sys2Proof.Machine.execCollNak port c s
  | .collAbort port c => Sys2Proof.Machine.execCollAbort port c s
  | .collMismatch port c => Sys2Proof.Machine.execCollMismatch port c s
  | .stageSum p comm stage chunk => Sys2Proof.Machine.execStageSum p comm stage chunk s
  | .collTransferTimeout p comm stage chunk peer => Sys2Proof.Machine.execCollTransferTimeout p comm stage chunk peer s
  | .collWindowProbe p comm stage peer => Sys2Proof.Machine.execCollWindowProbe p comm stage peer s
  | .collControlResend p comm kind peer => Sys2Proof.Machine.execCollControlResend p comm kind peer s
  | .bucketFilled p ix => Sys2Proof.Machine.execBucketFilled p ix s
  | .bucketConverted p ix => Sys2Proof.Machine.execBucketConverted p ix s
  | .shardVerify p ix => Sys2Proof.Machine.execShardVerify p ix s
  | .summaryDone p ix => Sys2Proof.Machine.execSummaryDone p ix s
  | .sequencerVote p => Sys2Proof.Machine.execSequencerVote p s
  | .commit p => Sys2Proof.Machine.execCommit p s
  | .dramPatrolScrub line r => Sys2Proof.Machine.execDramPatrolScrub line r s
  | .bankSpareDone chan => Sys2Proof.Machine.execBankSpareDone chan s
  | .flashPatrolScrub eb r => Sys2Proof.Machine.execFlashPatrolScrub eb r s
  | .kvBoundary p => Sys2Proof.Machine.execKvBoundary p s
  | .memKvCfgWrite p v => Sys2Proof.Machine.execMemKvCfgWrite p v s
  | .waitingRequestGrant g p => Sys2Proof.Machine.execWaitingRequestGrant g p s
  | .dmaFetch ch => Sys2Proof.Machine.execDmaFetch ch s
  | .copy ch => Sys2Proof.Machine.execCopy ch s
  | .flashRead ch => Sys2Proof.Machine.execFlashRead ch s
  | .flashWrite ch => Sys2Proof.Machine.execFlashWrite ch s
  | .flashTrim ch => Sys2Proof.Machine.execFlashTrim ch s
  | .fabricRead ch => Sys2Proof.Machine.execFabricRead ch s
  | .fabricWrite ch => Sys2Proof.Machine.execFabricWrite ch s
  | .alloc ch => Sys2Proof.Machine.execAlloc ch s
  | .free ch => Sys2Proof.Machine.execFree ch s
  | .descriptorComplete ch => Sys2Proof.Machine.execDescriptorComplete ch s
  | .moverHalfEvent n m => Sys2Proof.Machine.execMoverHalfEvent n m s
  | .moverFullEvent n m => Sys2Proof.Machine.execMoverFullEvent n m s
  | .taskPlace n => Sys2Proof.Machine.execTaskPlace n s
  | .preempt p ix => Sys2Proof.Machine.execPreempt p ix s
  | .baskingEntry n => Sys2Proof.Machine.execBaskingEntry n s
  | .coreWakeDone n => Sys2Proof.Machine.execCoreWakeDone n s
  | .watchdogExpiry n => Sys2Proof.Machine.execWatchdogExpiry n s
  | .pauseBoundary p => Sys2Proof.Machine.execPauseBoundary p s
  | .partitionPaused p => Sys2Proof.Machine.execPartitionPaused p s
  | .resultPublish mb win => Sys2Proof.Machine.execResultPublish mb win s
  | .resultLeaseExpiry mb win gen => Sys2Proof.Machine.execResultLeaseExpiry mb win gen s
  | .coreFail pc => Sys2Proof.Machine.execCoreFail pc s
  | .coreHang pc u => Sys2Proof.Machine.execCoreHang pc u s
  | .replayStart pc viewLost => Sys2Proof.Machine.execReplayStart pc viewLost s
  | .mgmtProbe port c => Sys2Proof.Machine.execMgmtProbe port c s
  | .peerProbeTimeout peer => Sys2Proof.Machine.execPeerProbeTimeout peer s
  | .snapshotValid p => Sys2Proof.Machine.execSnapshotValid p s
  | .managerHeartbeat port c => Sys2Proof.Machine.execManagerHeartbeat port c s
  | .heartbeatTimeout => Sys2Proof.Machine.execHeartbeatTimeout s
  | .ethFrame f => Sys2Proof.Machine.execEthFrame f s
  | .ethLinkDown forOneSecond => Sys2Proof.Machine.execEthLinkDown forOneSecond s
  | .routerAdvertisement pfx len aFlag => Sys2Proof.Machine.execRouterAdvertisement pfx len aFlag s
  | .neighborSolicitation src target => Sys2Proof.Machine.execNeighborSolicitation src target s
  | .echoRequest src data => Sys2Proof.Machine.execEchoRequest src data s
  | .arpRequest sender target => Sys2Proof.Machine.execArpRequest sender target s
  | .lldpTimer => Sys2Proof.Machine.execLldpTimer s
  | .ptpSync m => Sys2Proof.Machine.execPtpSync m s
  | .ptpHoldover => Sys2Proof.Machine.execPtpHoldover s
  | .hello m => Sys2Proof.Machine.execHello m s
  | .mboxReq m => Sys2Proof.Machine.execMboxReq m s
  | .write m => Sys2Proof.Machine.execWrite m s
  | .readReq m => Sys2Proof.Machine.execReadReq m s
  | .readResp m => Sys2Proof.Machine.execReadResp m s
  | .ack m => Sys2Proof.Machine.execAck m s
  | .nak m => Sys2Proof.Machine.execNak m s
  | .uhpRetransmitTimeout session => Sys2Proof.Machine.execUhpRetransmitTimeout session s
  | .ackDelayTimer session => Sys2Proof.Machine.execAckDelayTimer session s
  | .stallProbeTimer session => Sys2Proof.Machine.execStallProbeTimer session s
  | .uhpIdleTimeout session => Sys2Proof.Machine.execUhpIdleTimeout session s
  | .sessionExpiry session => Sys2Proof.Machine.execSessionExpiry session s
  | .openSession r => Sys2Proof.Machine.execOpenSession r s
  | .closeSession r => Sys2Proof.Machine.execCloseSession r s
  | .queryCaps r => Sys2Proof.Machine.execQueryCaps r s
  | .partCreate r => Sys2Proof.Machine.execPartCreate r s
  | .partDestroy r => Sys2Proof.Machine.execPartDestroy r s
  | .partSetQuota r => Sys2Proof.Machine.execPartSetQuota r s
  | .partSetWeir r => Sys2Proof.Machine.execPartSetWeir r s
  | .loadProgram r => Sys2Proof.Machine.execLoadProgram r s
  | .unloadProgram r => Sys2Proof.Machine.execUnloadProgram r s
  | .submit r => Sys2Proof.Machine.execSubmit r s
  | .abort r => Sys2Proof.Machine.execAbort r s
  | .pause r => Sys2Proof.Machine.execPause r s
  | .resume r => Sys2Proof.Machine.execResume r s
  | .saveImage r => Sys2Proof.Machine.execSaveImage r s
  | .imageDone p => Sys2Proof.Machine.execImageDone p s
  | .restoreImage r => Sys2Proof.Machine.execRestoreImage r s
  | .mapWindow r => Sys2Proof.Machine.execMapWindow r s
  | .unmapWindow r => Sys2Proof.Machine.execUnmapWindow r s
  | .readResult r => Sys2Proof.Machine.execReadResult r s
  | .releaseResult r => Sys2Proof.Machine.execReleaseResult r s
  | .gateLoad r => Sys2Proof.Machine.execGateLoad r s
  | .eptUpdate r => Sys2Proof.Machine.execEptUpdate r s
  | .commCreate r => Sys2Proof.Machine.execCommCreate r s
  | .commDelete r => Sys2Proof.Machine.execCommDelete r s
  | .stepSet r => Sys2Proof.Machine.execStepSet r s
  | .seedSet r => Sys2Proof.Machine.execSeedSet r s
  | .digestRead r => Sys2Proof.Machine.execDigestRead r s
  | .logRead r => Sys2Proof.Machine.execLogRead r s
  | .healthQuery r => Sys2Proof.Machine.execHealthQuery r s
  | .fwStage r => Sys2Proof.Machine.execFwStage r s
  | .fwCommit r => Sys2Proof.Machine.execFwCommit r s
  | .fwCommitReset => Sys2Proof.Machine.execFwCommitReset s
  | .attest r => Sys2Proof.Machine.execAttest r s
  | .managerAssign r => Sys2Proof.Machine.execManagerAssign r s
  | .jobLaunch r => Sys2Proof.Machine.execJobLaunch r s
  | .fenceDevice r => Sys2Proof.Machine.execFenceDevice r s
  | .fenceDeviceRejoin r => Sys2Proof.Machine.execFenceDeviceRejoin r s
  | .regRead r => Sys2Proof.Machine.execRegRead r s
  | .regWrite r => Sys2Proof.Machine.execRegWrite r s
  | .launchCell port c => Sys2Proof.Machine.execLaunchCell port c s
  | .launchAck port c => Sys2Proof.Machine.execLaunchAck port c s
  | .launchTimeout id => Sys2Proof.Machine.execLaunchTimeout id s
  | .launchDone port c => Sys2Proof.Machine.execLaunchDone port c s
  | .launchAbort port c => Sys2Proof.Machine.execLaunchAbort port c s
  | .barrierArrive port c => Sys2Proof.Machine.execBarrierArrive port c s
  | .barrierRelease port c => Sys2Proof.Machine.execBarrierRelease port c s
  | .releaseDelay p => Sys2Proof.Machine.execReleaseDelay p s
  | .fence port c => Sys2Proof.Machine.execFence port c s
  | .jobResume port c => Sys2Proof.Machine.execJobResume port c s
  | .resetInAssert => Sys2Proof.Machine.execResetInAssert s
  | .resetInRelease => Sys2Proof.Machine.execResetInRelease s
  | .bootStageDone o => Sys2Proof.Machine.execBootStageDone o s
  | .dhcpv6Resolicit => Sys2Proof.Machine.execDhcpv6Resolicit s
  | .inputStable => Sys2Proof.Machine.execInputStable s
  | .brownOut => Sys2Proof.Machine.execBrownOut s
  | .overVoltage => Sys2Proof.Machine.execOverVoltage s
  | .lowInput vin => Sys2Proof.Machine.execLowInput vin s
  | .epoAssert => Sys2Proof.Machine.execEpoAssert s
  | .epoDeassert => Sys2Proof.Machine.execEpoDeassert s
  | .sidebandFault ix => Sys2Proof.Machine.execSidebandFault ix s
  | .slotIdSample v => Sys2Proof.Machine.execSlotIdSample v s
  | .slotIdChange v => Sys2Proof.Machine.execSlotIdChange v s
  | .sensorSample x => Sys2Proof.Machine.execSensorSample x s
  | .governorTick => Sys2Proof.Machine.execGovernorTick s
  | .logRateSecond => Sys2Proof.Machine.execLogRateSecond s
  | .grdCfgWrite p v => Sys2Proof.Machine.execGrdCfgWrite p v s
  | .fabPortCfgWrite n v => Sys2Proof.Machine.execFabPortCfgWrite n v s
  | .pwrCfgWrite v => Sys2Proof.Machine.execPwrCfgWrite v s
  | .registerWrite r v => Sys2Proof.Machine.execRegisterWrite r v s
  | .commandComplete n u => Sys2Proof.Machine.execCommandComplete n u s
  | .handoverDone n => Sys2Proof.Machine.execHandoverDone n s
  | .weirFill p r bytes => Sys2Proof.Machine.execWeirFill p r bytes s
  | .creditReturn port cls count => Sys2Proof.Machine.execCreditReturn port cls count s
  | .fecAlignmentLock port => Sys2Proof.Machine.execFecAlignmentLock port s
  | .ethLinkUp => Sys2Proof.Machine.execEthLinkUp s
  | .ethTrainRetry => Sys2Proof.Machine.execEthTrainRetry s
  | .heartbeatPeriod => Sys2Proof.Machine.execHeartbeatPeriod s
  | .probeAnswer port c failed => Sys2Proof.Machine.execProbeAnswer port c failed s
  | .faultReport port c => Sys2Proof.Machine.execFaultReport port c s
  | .probeRequest port c => Sys2Proof.Machine.execProbeRequest port c s
  | .fenceAck port c => Sys2Proof.Machine.execFenceAck port c s
  | .fenceEpochWait rack => Sys2Proof.Machine.execFenceEpochWait rack s
  | .newRoot port c => Sys2Proof.Machine.execNewRoot port c s
  | .jobPauseRequest port c => Sys2Proof.Machine.execJobPauseRequest port c s
  | .jobResumeRequest port c => Sys2Proof.Machine.execJobResumeRequest port c s
  | .pausedReport port c => Sys2Proof.Machine.execPausedReport port c s
  | .snapshotRestore port c => Sys2Proof.Machine.execSnapshotRestore port c s
  | .retryHoldExpiry engine id peer => Sys2Proof.Machine.execRetryHoldExpiry engine id peer s
  | .kvCopyDone p seq => Sys2Proof.Machine.execKvCopyDone p seq s
  | .flashRelocation eb => Sys2Proof.Machine.execFlashRelocation eb s
  | .rowSpareDone row => Sys2Proof.Machine.execRowSpareDone row s
  | .tripCooled => Sys2Proof.Machine.execTripCooled s

end Sys2Proof.Machine
end

