-- ==== Sys2Proof/Machine/Tick.lean ====
section
/-! DEFINITION. One tick of the 1 ns time base, with the waiting times it accumulates (R6, R262, R368, R435;
log 1). -/

namespace Sys2Proof.Machine

/-- Oscillator ticks between corrections of 1 ns: 100 ppm (R435). -/
def slewEvery : Nat := 10000

/-- The time base counts 1 ns; while an offset is slewed out, 0 or 2 ns on every 10,000th tick. -/
def countTick (t : TimeBase) : TimeBase :=
  let k := t.ticks + 1
  if k % slewEvery ≠ 0 ∨ t.slew = 0 then { t with now := t.now + 1, ticks := k }
  else if t.slew > 0 then { t with slew := t.slew - 1, ticks := k }
  else { t with now := t.now + 2, slew := t.slew + 1, ticks := k }

/-- A host message of p at the front of its session waits for tokens; one that reaches DRAM, where `mem`. -/
def hostWaits (d : Dev) (p : Nat) (mem : Bool) : Bool :=
  d.host.sessions.any fun s => match s.rcvHeld.find? fun x => x.2.seq == s.rcvNext with
    | some (ty, m) => (match msgPart d s ty m with
      | some (q, m) => q == p && (!mem || m)
      | none => false)
    | none => false

/-- A result of p is to be published from DRAM (R460). -/
def resultWaits (d : Dev) (p : Nat) : Bool :=
  d.host.windows.any fun w => winPart w.1 == some p && (match nextGen w.2 with
    | some (g, _) => let r := tgetD w.2.src g (0, 0); decide (0 < dramBytes d p r.1 r.2)
    | none => false)

/-- A chunk of p's collectives could start, or a stage be summed, but for the tokens of its slot. -/
def slotWaits (d : Dev) (p : Nat) : Bool :=
  d.rill.colls.any fun x => x.part == p && curC d p x.comm == some x && !slotTokens d x &&
    (chunkReady d x x.started || x.slots.any (sumReady x))

/-- Cells of p wait in their input buffers, or on the loopback path, for their engines to move their bytes (R366), and
held flags that nothing else holds back. -/
def cellWaits (d : Dev) (p : Nat) : Bool :=
  (d.fab.waiting.any fun x => x.2.part.toNat == p && (d.port x.1).up && mayWait d x.2) ||
  (d.fab.loop.any fun c => c.part.toNat == p && mayWait d c && dramTypes.contains c.ty.toNat) ||
  d.rm.heldFlags.any fun h => h.part == p && lowerDone d h.src p h.seq.toNat

/-- A RESTORE_IMAGE of p from flash is to read its image (R403). -/
def restoreWaits (d : Dev) (p : Nat) : Bool :=
  d.host.reqs.any fun r => r.cmd == 0x26 && r.part == p && !r.answered && le r.body 0 1 == 0 && mayRestore d p

/-- Core movers of p that are to move DRAM bytes. -/
def moverWaits (d : Dev) (p : Nat) : Bool :=
  d.cores.any fun c => match c.2.task with
    | some t => t.part == p && c.2.st == .running && (t.mover0.head?.toList ++ t.mover1.head?.toList).any fun x => moverDram d p x.w
    | none => false

/-- Commands of p for Sluice or Rill at issue that the engine itself would take. -/
def portWaits (d : Dev) (p : Nat) : Bool :=
  (List.range d.grade.lcores).any fun n =>
    offered d 0xD (fun _ q _ => slcFits d q) n == some p ||
    offered d 0xE (fun m q w => collRoom d q (collComm w) && collOp d m q w != opBarrier) n == some p

/-- Descriptors of p at the head of their channel that have not started and need the bucket (R342). -/
def bulkWaits (d : Dev) (p : Nat) (needs : Nat → Bool) : Bool :=
  d.dma.chans.any fun c => match (standing c.2).head? with
    | some x => x.part == p && !x.started && needs (bdOp x.w)
    | none => false

/-- Fetches of p's channels that are due, and status words that are to be written. -/
def ringWaits (d : Dev) (p : Nat) : Bool :=
  d.dma.chans.any fun c => c.1 % 8 != 7 && c.2.en && c.2.part == p &&
    ((c.2.state == .running && decide (c.2.fetched.length < 16) && decide (semOf d p c.2.kickSem ≠ 0)) || c.2.fetched.head?.any (·.done))

/-- Requests of p that are next in their streams. -/
def rackWaits (d : Dev) (p : Nat) (f : RmReq → Bool) : Bool :=
  d.rm.reqs.any fun r => r.part == p && r.phase == .queued && nextOf d p r.stream == some r && f r

/-- Transfers of p's collectives that could go out but for a bucket. -/
def collWaits (d : Dev) (p : Nat) (f : Coll → Bool) : Bool :=
  d.rill.colls.any fun x => x.part == p && !x.ended && f x && x.slots.any fun s => s.own.isSome && s.unsent.any (sendOpen d x s.stage s.chunk)

/-- An operation of p waits on a bucket: the bucket is empty, and p has an operation that only its bytes hold back
(R366, R368). -/
def waitsOn (d : Dev) (p r : Nat) : Bool :=
  !weirOk d p r && (match r with
    | 0 => moverWaits d p || portWaits d p || (d.gate.queue.any fun u => u.part == p) || bulkWaits d p (· != 4) || ringWaits d p ||
      rackWaits d p (fun x => !rmWeirOk d p x.stream x.desc) || collWaits d p (fun x => !slotTokens d x) ||
      (d.slc.exch.any fun x => x.part == p && !x.wrote && x.ins.any fun i => !i.landed.isEmpty) || ((d.part p).kvCopies.any fun k => !k.done) ||
      hostWaits d p true || resultWaits d p || slotWaits d p || cellWaits d p
    | 1 => bulkWaits d p (fun o => o == 2 || o == 3 || o == 4) || ((d.part p).kvCopies.any fun k => !k.done) ||
      ((d.part p).saving.any fun v => !v.toHost) || restoreWaits d p
    | 2 => portWaits d p || bulkWaits d p (fun o => o == 5 || o == 6) || rackWaits d p (fun _ => true) || collWaits d p (fun _ => true)
    | _ => hostWaits d p false)

/-- WEIR_WAIT of every partition (R368). -/
def weirTick (d : Dev) : Dev :=
  { d with parts := d.parts.map fun x =>
      (x.1, { x.2 with weirWait := ([0, 1, 2, 3].filter (waitsOn d x.1)).foldl (fun t r => tmod t r 0 (· + 1)) x.2.weirWait }) }

/-- The tick of a powered device. -/
def tick (d : Dev) : Dev :=
  if !d.pwr.rails then d
  else
    let d := helloTick (rillTick (weirTick d))
    { d with time := countTick d.time }

end Sys2Proof.Machine
end

