-- ==== Sys2Proof/Safety.lean ====
section
/-! DEFINITION. What counts as a safe run, the invariant that every step keeps, and the terms in which the
statements speak of fuses, leaves and frames. -/

namespace Sys2Proof.Machine

/-- The step goes on. -/
def Safe (s : State) : Prop := ∃ t, step s = .next t

/-- The state with another device: queue and fuses as before. -/
def State.putDev (s : State) (d : Dev) : State := { s with dev := d }

/-- A cell that arrives on a port passes the checks of R184 and R199 for this device, has one of the
types, and leaves the device d1 once its buffer's credit is given back. -/
def Delivered (d : Dev) (port : Nat) (c : Cell) (types : List Nat) (d1 : Dev) : Prop :=
  screen d port c = .here d1 ∧ c.ty.toNat ∈ types

/-- A cell that waits for no tokens of its partition (log 81) is delivered once it has left its input buffer. -/
def Served (waits : Dev → Cell → Bool) (d : Dev) (port : Nat) (c : Cell) (types : List Nat) (d1 : Dev) : Prop :=
  waits d c = false ∧ Delivered (leaveBuffer d port c) port c types d1

/-- A MGMT cell is delivered, from a manager where its message is a manager's to send, and leaves the device d1
with its EPOCH learned (log 63). -/
def Told (boss : Bool) (d : Dev) (port : Nat) (c : Cell) (d1 : Dev) : Prop :=
  ∃ d0, Delivered d port c [tyMgmt] d0 ∧ (boss = true → trusted d0 c.src = true) ∧ d1 = learnEpoch d0 c

/-- The outstanding request r is q, of this command code, not answered yet, and it may run (R450, R451). -/
def Asked (d : Dev) (r : ReqId) (cmd : Nat) (q : Req) : Prop :=
  (d.host.reqs.find? fun y => y.id == r) = some q ∧ q.cmd = cmd ∧ q.answered = false ∧ (q.started || runnable d q) = true

/-- The first leaf that no reservation record covers (R496); 0 when no record can be read. -/
def reservedTop (f : Fuses) : Nat := ((bestRec f).map fun r => r.1.next).getD 0

/-- The next leaf that a signature would take (R496). -/
def nextLeaf (s : State) : Nat :=
  if s.dev.boot.leafNext < s.dev.boot.leafEnd then s.dev.boot.leafNext else reservedTop s.fuses

/-- What the fuses and the leaf records say of each other: the SVN floor is at most 64 (R490), no record
reserves a leaf beyond the 2^20 there are (R495), and held leaves are reserved (R496). -/
def LeafInv (s : State) : Prop :=
  s.fuses.svnFloor ≤ 64 ∧ reservedTop s.fuses ≤ 2 ^ 20 ∧ s.dev.boot.leafNext ≤ s.dev.boot.leafEnd ∧
  s.dev.boot.leafEnd ≤ reservedTop s.fuses

/-- The commands that act on the fuses or on what keeps its state through a reset. -/
def touchesFuses : Instr → Bool
  | .resetInAssert | .brownOut | .overVoltage | .epoAssert | .sidebandFault _ | .sensorSample _ => true
  | .bootStageDone _ | .fwCommit _ | .fwCommitReset | .attest _ => true
  | _ => false

/-- The commands that act on boot, power and sideband state (R485 to R519), REG_WRITE among them. -/
def touchesBoot : Instr → Bool
  | .resetInAssert | .resetInRelease | .inputStable | .brownOut | .overVoltage | .lowInput _ => true
  | .epoAssert | .epoDeassert | .tripCooled | .sidebandFault _ | .slotIdSample _ | .slotIdChange _ => true
  | .bootStageDone _ | .fwStage _ | .fwCommit _ | .fwCommitReset | .attest _ => true
  | .sensorSample _ | .governorTick | .pwrCfgWrite _ | .registerWrite _ _ | .regWrite _ | .regRead _ => true
  | _ => false

end Sys2Proof.Machine
end

