-- ==== Sys2Proof/Certificates/Slice0/Obligations.lean ====
section
/-! DEFINITION. The statements for the provers. A completion statement says, for each command it names, under
hypotheses on the state and the operands alone, that exec answers a next state, and which one. -/

open Sys2Proof Sys2Proof.Machine

/-- A step takes the front command. For every command c, state s and queue cs, step of s with queue c :: cs is exec of
c on s with queue cs. Rests on spec/95_what_each_step_holds.md. -/
def Obligations.StepRunsFrontCommand : Prop :=
  ∀ (c : Instr) (cs : List Instr) (s : State), step { s with pending := c :: cs } = exec c { s with pending := cs }

/-- An empty queue lets one tick of the time base pass. The model's choice, log 1: with no command waiting, step
answers a next state whose queue is empty and whose fuses are unchanged. With the rails off the device is unchanged.
With the rails on and no offset left to slew, the time base counts 1 ns; where moreover no port in HELLO is due to
send LINK_HELLO again (10 us after its last, R179), boot state, power state, cores, fabric ports, memory, host
sessions and everything else but the partitions' and collectives' waiting times are unchanged. Rests on
spec/00_scope.md; spec/07_igquel_links_and_routing.md; spec/16_host_link_mailbox.md. -/
def Obligations.EmptyQueueCountsOneNanosecond : Prop :=
  ∀ s : State, s.pending = [] →
    (s.dev.pwr.rails = false → step s = .next s) ∧
    (s.dev.pwr.rails = true → s.dev.time.slew = 0 → ∃ t, step s = .next t ∧ t.pending = [] ∧ t.fuses = s.fuses ∧
      t.dev.time = { s.dev.time with now := s.dev.time.now + 1, ticks := s.dev.time.ticks + 1 } ∧
      ((∀ x ∈ s.dev.fab.ports, x.2.state = .hello → x.2.creditsKnown = false → s.dev.time.now < x.2.helloAt + 10000) →
        t.dev = { s.dev with time := t.dev.time, parts := t.dev.parts, rill := t.dev.rill }))

/-- Every command completes. For every command and state, exec answers a next state: no command faults and none is
refused. The model's choices: an event whose condition does not hold leaves the device as it is (log 2), and REG_WRITE
writes a managed register directly, the rules that such a write voids being left to the sender (log 56). Rests on
spec/95_what_each_step_holds.md; spec/16_host_link_mailbox.md. -/
def Obligations.EveryCommandCompletes : Prop :=
  ∀ (c : Instr) (s : State), ∃ t, exec c s = .next t

/-- No command changes the queue. For every command c and states s and t, if exec c s answers next t then the queue of
t is the queue of s. Rests on spec/95_what_each_step_holds.md. -/
def Obligations.NoCommandChangesTheQueue : Prop :=
  ∀ (c : Instr) (s t : State), exec c s = .next t → t.pending = s.pending

/-- Only resets, boot stages, FW_COMMIT and ATTEST change fuses, firmware image and leaf records. For every command c
outside the ten named by touchesFuses (RESET_IN_ASSERT, BROWN_OUT, OVER_VOLTAGE, EPO_ASSERT, SIDEBAND_FAULT,
SENSOR_SAMPLE, BOOT_STAGE_DONE, FW_COMMIT, FW_COMMIT_RESET, ATTEST), if exec c s answers next t then the fuses, the
firmware image, the leaf records and LAST_RESET of t are those of s. Rests on spec/18_boot_and_trust.md. -/
def Obligations.FusesChangedOnlyByNamedCommands : Prop :=
  ∀ (c : Instr) (s t : State), touchesFuses c = false → exec c s = .next t → t.fuses = s.fuses

/-- The SVN floor is one-way, and no image below it is staged or run. (1) For every state s and next state t of step
s: the SVN floor of t is at least that of s, and at most 64 if that of s was. (2) An image staged in t and not in s
has an SVN that is at least the floor of s. (3) BOOT_STAGE_DONE with outcome ok in stage VERIFY goes on to the DRAM
test, and so starts the firmware, exactly when the stored image is verified with an SVN at or above the floor, and
then the floor of t is that SVN; otherwise the part enters network recovery and the floor is unchanged. Rule R490. -/
def Obligations.SvnFloorIsOneWay : Prop :=
  (∀ s t : State, step s = .next t → s.fuses.svnFloor ≤ t.fuses.svnFloor ∧ (s.fuses.svnFloor ≤ 64 → t.fuses.svnFloor ≤ 64) ∧
    ∀ x, t.dev.boot.staged = some x → s.dev.boot.staged = some x ∨ s.fuses.svnFloor ≤ x.svn) ∧
  (∀ s : State, s.dev.pwr.rails = true → s.dev.boot.stage = .verify → ∃ t, exec (.bootStageDone .ok) s = .next t ∧
    ((∃ x, s.fuses.image ≠ [] ∧ fwCheck s.fuses s.fuses.image = .inr x ∧ s.fuses.svnFloor ≤ x.svn ∧ t.dev.boot.stage = .dramTest ∧
        t.fuses = { s.fuses with svnFloor := x.svn }) ∨
      ((s.fuses.image = [] ∨ ∃ r, fwCheck s.fuses s.fuses.image = .inl r) ∧ t.dev.boot.stage = .recovery ∧ t.fuses = s.fuses)))

/-- No leaf of the identity key is handed out twice. LeafInv (SVN floor at most 64, no record reserves a leaf beyond
2^20, held leaves are reserved) is kept by every step, and under it nextLeaf, the least leaf that a signature could
still take, never falls over any step, resets and power loss included. Whenever takeLeaf hands out a leaf from such a
state, that leaf is nextLeaf, is below 2^20, and is below nextLeaf of the state it leaves. Rests on
spec/18_boot_and_trust.md. -/
def Obligations.NoLeafIsUsedTwice : Prop :=
  (∀ s t : State, LeafInv s → step s = .next t → LeafInv t ∧ nextLeaf s ≤ nextLeaf t) ∧
  (∀ (s t : State) (leaf : Nat), LeafInv s → takeLeaf s = some (leaf, t) →
    leaf = nextLeaf s ∧ leaf < 2 ^ 20 ∧ leaf < nextLeaf t ∧ LeafInv t)

/-- The state right after reset meets the invariant and its memories are canonical. LeafInv holds of State.reset, and
DRAM, Cistern SRAM and every core's SRAM hold no listed byte there (log 8). Rests on spec/18_boot_and_trust.md. -/
def Obligations.ResetMeetsTheInvariant : Prop :=
  LeafInv State.reset ∧ State.reset.pending = [] ∧ Memory.wf State.reset.dev.mem.dram = true ∧ State.reset.dev.mem.dram = [] ∧
  Memory.wf State.reset.dev.cst.sram = true ∧ ∀ n, (State.reset.dev.core n).sram = []

/-- Boot, power and sideband state changes only by the named commands. For every command c outside those named by
touchesBoot and states s and t, if exec c s answers next t then the grade, the whole boot state (stage, REASON, held
leaves, measurement log) and the whole power state (rails, sensors, governor, SLOT) of t are those of s. Rests on
spec/18_boot_and_trust.md; spec/19_power_thermal_mechanical.md. -/
def Obligations.BootAndPowerChangedOnlyByNamedCommands : Prop :=
  ∀ (c : Instr) (s t : State), touchesBoot c = false → exec c s = .next t →
    t.dev.grade = s.dev.grade ∧ t.dev.boot = s.dev.boot ∧ t.dev.pwr = s.dev.pwr

/-- Register values right after reset. Right after reset the registers hold the values their reset columns give:
PART_CFG none, PWR_CFG, PWR_STATUS LIMIT and LAST_RESET zero, LOG_CFG, HOST_NET_CFG, HOST_UHP_CFG, HOST_PTP_CFG,
FAB_CFG, FAB_DWRR, FAB_CREDIT, RM_CFG, SLC_CFG, SLC_TAGRES, RILL_CFG, MEM_CFG, FTL_CFG, SCH_CFG, SCH_RES, RECOV_CFG,
SCH_MGR and a port's FAB_PORT_CFG. The model's choices: core 0 is idle, core 32 a spare and core 34 fused, by the map
of logical cores of log 5 under the grade of log 4. Rests on spec/03_expert_core.md; spec/05_sluice_exchange.md;
spec/07_igquel_links_and_routing.md; spec/08_rack_memory.md; spec/09_rill_collectives.md; spec/11_memory_tiers.md;
spec/13_partitions_scheduling.md; spec/15_fault_recovery.md; spec/16_host_link_mailbox.md; spec/17_manager_launch.md;
spec/19_power_thermal_mechanical.md; spec/20_health_log_codes.md. -/
def Obligations.ResetRegisterValues : Prop :=
  let d := State.reset.dev
  d.pwr.cfg = 0x0000005A5F0964E2 ∧ d.log.cfg = 0x1803E8 ∧ d.host.netCfg = 0x2400000000 ∧ d.host.ip4 = 0 ∧
  d.host.uhpCfg = 0x03E8040000040064 ∧ d.host.ptpCfg = 0x100 ∧ d.fab.cfg = 0x6401001020 ∧ d.fab.dwrrA = 0x0A140F28 ∧
  d.fab.dwrrB = 0x50A ∧ d.fab.credit = 0x20082008 ∧ d.fab.epoch = 0 ∧ d.rm.cfg = 0x06440028 ∧ d.rm.fenced = 0 ∧
  d.slc.cfg = 0x400400C8 ∧ d.slc.tagres = 0x00800800 ∧ d.rill.cfg = 0x00240190 ∧ d.mem.cfg = 0x818 ∧
  d.ftl.cfg = 0x4070C350C814 ∧ d.sched.cfg = 3 ∧ d.sched.res = 0x341040 ∧ d.sched.recovCfg = 0x103E8 ∧
  d.mgr.scm = 0x1400000000 ∧ (d.port 0).cfg = 0x10FD ∧ (d.port 44).cfg = 0x10FC ∧ (d.core 0).st = .idle ∧
  (d.core 32).st = .spare ∧ (d.core 34).st = .fused ∧ d.host.sessions = [] ∧ d.parts = [] ∧ d.time.now = 0

/-- LDW, MM and ACC_OUT at issue. When issueTo lets logical core n issue the command at its pointer (core running,
nothing held, the words those of the loaded program, room in the unit's queue, no interlock) and sramCheck finds no
fault (every range in the partition's view, no word read lost), exec answers a next state. LDW that is no null tile:
plane PLANE holds WFMT, the tile's elements and scales. MM that is no null tile, its plane loaded with WFMT and, when
ZERO is clear, the bank of the right type: bank ACC holds the rows mmRows computes and the flags join
PART_ARITH_FLAGS. ACC_OUT that is no null tile, the bank of the type OFMT needs: its M rows are stored STRIDE apart at
DST. A null tile of each changes no bank and no memory, and a null LDW leaves its plane EMPTY (R69). The model's
choice, log 9: the whole effect happens at issue. A replay that breaks the second condition of R415 yields free values
in place of the elements, rows or bytes (stored); any other yields them as computed. In each case the command joins
its unit's queue, the pointer moves on, and nothing else changes but what queueCmd and replayCheck change. Rests on
spec/03_expert_core.md; spec/02_number_formats.md; spec/15_fault_recovery.md. -/
def Obligations.ArrayCommandsComplete : Prop :=
  (∀ (n : Nat) (w : BitVec 128) (s : State) (pc : Nat) (t : Task),
    (issueTo s.dev n 1 w .loader = some (pc, t) → sramCheck s.dev pc n t w = none →
      exec (.ldw n w) s = .next (s.putDev (let r := stored s.dev t (viewRead s.dev t.part n (ldwSrc w) (tileElems (ldwFmt w)))
        replayCheck n (queueCmd (r.2.modCore pc fun c => setPlane c (cPlane w)
          (if nullTile t.cnt w then {} else ⟨some (ldwFmt w), r.1, viewRead r.2 t.part n (ldwScale w) (tileScales (ldwFmt w))⟩))
          pc .loader (flight r.2 t w none))))) ∧
    (issueTo s.dev n 2 w .array = some (pc, t) → nullTile t.cnt w = true →
      exec (.mm n w) s = .next (s.putDev (replayCheck n (queueCmd s.dev pc .array (flight s.dev t w none))))) ∧
    (issueTo s.dev n 2 w .array = some (pc, t) → nullTile t.cnt w = false → sramCheck s.dev pc n t w = none →
      (planeOf (s.dev.core pc) (cPlane w)).fmt = some (mmWfmt w) →
      (mmZero w = false → (bankOf (s.dev.core pc) (mmAcc w)).int = intPair (mmWfmt w)) →
      exec (.mm n w) s = .next (s.putDev (let b := bankOf (s.dev.core pc) (mmAcc w)
        let b : Bank := if b.int = intPair (mmWfmt w) then b else ⟨intPair (mmWfmt w), []⟩
        let m := effRows t.cnt w (cM w) (cRowBase w)
        let r := runFlags s.dev t.part (mmRows s.dev t.part n (planeOf (s.dev.core pc) (cPlane w)) w m b)
        let r := storedRows r.2 t r.1 (mmRow0 w) m
        replayCheck n (queueCmd (r.2.modCore pc fun c => setBank c (mmAcc w) r.1) pc .array (flight r.2 t w none))))) ∧
    (issueTo s.dev n 3 w .drain = some (pc, t) → nullTile t.cnt w = true →
      exec (.accOut n w) s = .next (s.putDev (replayCheck n (queueCmd s.dev pc .drain (flight s.dev t w none))))) ∧
    (issueTo s.dev n 3 w .drain = some (pc, t) → nullTile t.cnt w = false → rangesOk s.dev t w = true →
      (bankOf (s.dev.core pc) (cPlane w)).int = (aoFmt w == 0xB) →
      exec (.accOut n w) s = .next (s.putDev (let r := runFlags s.dev t.part ((List.range (effRows t.cnt w (cM w) (cRowBase w))).mapM fun i =>
          outRow (bankOf (s.dev.core pc) (cPlane w)) (aoFmt w) (aoRow0 w + i) (aoCols w))
        let y := stored r.2 t r.1.flatten
        let rows := chunks ((r.1.headD []).length) y.1
        let d := (rows.mapIdx fun i x => (i, x)).foldl (fun d x => viewWrite d t.part n (cAddr w + x.1 * cStride w) x.2) y.2
        replayCheck n (queueCmd d pc .drain (flight d t w (digestOf t w (cRowBase w) rows.flatten))))))) ∧
  (∀ (d : Dev) (t : Task) (b : Bank) (r0 m : Nat) (bs : List Byte), t.broken = false →
    stored d t bs = (bs, d) ∧ storedRows d t b r0 m = (b, d))

/-- VOP and CVT at issue. When issueTo lets logical core n issue the command and sramCheck finds no fault (every range
in the partition's view, no word read lost), exec answers a next state. VOP: the words vopResult computes from
operands A, B and (for the three-operand function) DST are stored at DST. CVT: the elements and scales cvtOut
computes, rounded by SEED, the step key and STREAM, are stored at DST and SCALE. A replay that breaks the second
condition of R415 stores free values in place of them (stored). The model's choice, log 9: the results are stored at
issue. The flags join PART_ARITH_FLAGS, the command joins the vector unit's queue with its digest, and nothing else
changes but what queueCmd and replayCheck change. Rests on spec/03_expert_core.md; spec/02_number_formats.md;
spec/14_determinism_replay.md; spec/15_fault_recovery.md. -/
def Obligations.VectorCommandsComplete : Prop :=
  ∀ (n : Nat) (w : BitVec 128) (s : State) (pc : Nat) (t : Task),
    (issueTo s.dev n 4 w .vector = some (pc, t) → sramCheck s.dev pc n t w = none →
      exec (.vop n w) s = .next (s.putDev (let rd (a k : Nat) : List Nat := fpWords (viewRead s.dev t.part n a k)
        let r := runFlags s.dev t.part (vopResult w (rd (vopA w) (4 * vopLen w)) (rd (vopB w) (vopBBytes w))
          (if vopFunc w = 4 then rd (vopDst w) (4 * vopLen w) else []))
        let y := stored r.2 t (r.1.flatMap (toLe 4))
        replayCheck n (queueCmd (viewWrite y.2 t.part n (vopDst w) y.1) pc .vector (flight y.2 t w (digestOf t w 0 y.1)))))) ∧
    (issueTo s.dev n 5 w .vector = some (pc, t) → sramCheck s.dev pc n t w = none →
      exec (.cvt n w) s = .next (s.putDev (let p := t.part
        let rnd := rndOf (cvtRnd w == 1) (tgetD (s.dev.part p).seeds (cvtSeed w) 0).toNat (stepKey s.dev t).toNat (cvtStream w)
        let sc := if isMx (cvtS w) then viewRead s.dev p n (cvtScale w) (cvtLen w) else []
        let r := runFlags s.dev p (cvtOut w rnd (cvtVals w (viewRead s.dev p n (cvtSrc w) (cvtSide w (cvtS w))) sc))
        let y := stored r.2 t r.1.1
        let d := viewWrite (viewWrite y.2 p n (cvtDst w) y.1) p n (cvtScale w) r.1.2
        replayCheck n (queueCmd d pc .vector (flight d t w (digestOf t w 0 (y.1 ++ r.1.2)))))))

/-- MOV, its half and full events, and the completion of a unit's command. MOV issued with its SRAM range inside the
view and, towards control space, words or requests of its own block in a task that is not replaying, joins its mover's
queue, moving nothing yet. MOVER_HALF_EVENT on the head of a mover that asks for a half event and has not had it, when
the first half of the bytes can be moved, leaves those bytes moved, the command marked, and its half signal raised.
MOVER_FULL_EVENT, when the remaining bytes can be moved between memory and SRAM and the place of a check value can be
reached, leaves them moved, the check value written behind them, and the command popped from the mover with its
digest. COMMAND_COMPLETE of the loader, array, drain or vector unit pops the head of that unit. That a mover's bytes
are read and written at its two events, and what the bytes of an overlap are, is the model's choice (logs 9, 37).
Rests on spec/03_expert_core.md; spec/12_cistern_and_dma.md. -/
def Obligations.MoverCommandsComplete : Prop :=
  (∀ (n : Nat) (w : BitVec 128) (s : State) (pc : Nat) (t : Task), issueTo s.dev n 6 w (.mover (movMover w)) = some (pc, t) →
    nullTile t.cnt w = false → rangesOk s.dev t w = true → (toCtl w = true → ctlMovOk t.part w = true) →
    (movOut w = true → toCtl w = true → t.suppressed = false) →
    exec (.mov n w) s = .next (s.putDev (replayCheck n (queueCmd s.dev pc (.mover (movMover w)) (flight s.dev t w none))))) ∧
  (∀ (n m : Nat) (s : State) (pc : Nat) (t : Task) (x : InFlight) (bs : List Byte) (d : Dev),
    moverHead s.dev n m = some (pc, t, x) → movHalf x.w = true → x.half = false →
    moveBytes s.dev pc t.part n m x 0 (halfPoint x.w) = (some bs, d) →
    exec (.moverHalfEvent n m) s = .next (s.putDev (halfSignal (modCoreTask d pc fun t => t.setUnit (.mover m) ((t.unit (.mover m)).map fun y =>
        if y.idx = x.idx then { y with half := true, moved := bs } else y)) pc x))) ∧
  (∀ (n m : Nat) (s : State) (pc : Nat) (t : Task) (x : InFlight) (bs : List Byte) (d : Dev),
    moverHead s.dev n m = some (pc, t, x) → (movHalf x.w = true → x.half = true) → toCtl x.w = false →
    moveBytes s.dev pc t.part n m x (if x.half then halfPoint x.w else 0) (movLen x.w) = (some bs, d) →
    (movOut x.w = true → okFor d t.part (cmdOp d pc x.idx) false (movD x.w + movLen x.w) (crcLen (movCrc x.w)) = true) →
    exec (.moverFullEvent n m) s = .next (s.putDev (popUnit (movCheck d t.part n x.w (x.moved ++ bs)) pc (.mover m)
        { x with digest := if cDigEn x.w && !x.quiet then some (tileDigest x.ctx 0 (x.moved ++ bs)) else none }))) ∧
  (∀ (n : Nat) (u : CoreUnit) (s : State) (pc : Nat) (t : Task) (x : InFlight), coreOf s.dev n = some pc →
    (s.dev.core pc).task = some t → u ∈ [.loader, .array, .drain, .vector] → (t.unit u).head? = some x →
    exec (.commandComplete n u) s = .next (s.putDev (popUnit s.dev pc u x)))

/-- WAIT, its wake, SIG and the digest commands. For a task that is not replaying. WAIT on a counter at or above
THRESHOLD, no interlock, neither DEC nor LDCNT: the pointer moves on, and its SIG_EN signal is raised. On a counter
below, the task holds the command. WAIT_SATISFIED with the held counter now at or above THRESHOLD passes the wait. SIG
with every earlier command complete sets the named counter to VALUE, or adds VALUE modulo 2^32, and moves on. DIGEST
SET loads the core's digest context. DIGEST FLUSH appends the entry of the accumulator's value to the digest log,
counts it and clears the accumulator. Rests on spec/03_expert_core.md; spec/14_determinism_replay.md. -/
def Obligations.ControlCommandsComplete : Prop :=
  ∀ (n : Nat) (w : BitVec 128) (s : State) (pc : Nat) (t : Task), t.suppressed = false →
    (issueNext s.dev n 8 w = some (pc, t) → interlocked s.dev t w = false → waitThr w ≤ counterOf s.dev t w →
      waitDec w = false → waitLdcnt w = false →
      exec (.wait n w) s = .next (s.putDev (replayCheck n (modCoreTask (modCoreTask s.dev pc fun t =>
        { t with effects := logBit t.effects t.ip }) pc fun u =>
          if cSigEn w then { u with sb := sigOf w u.sb }.advance else u.advance)))) ∧
    (issueNext s.dev n 8 w = some (pc, t) → interlocked s.dev t w = false → counterOf s.dev t w < waitThr w →
      exec (.wait n w) s = .next (s.putDev (replayCheck n (modCoreTask s.dev pc fun t => { t with holding := some w })))) ∧
    (issuer s.dev n = some (pc, t) → t.holding = some w → waitThr w ≤ counterOf s.dev t w →
      exec (.waitSatisfied n) s = .next (s.putDev (replayCheck n (passWait s.dev pc n t w)))) ∧
    (issueNext s.dev n 9 w = some (pc, t) → t.idle = true →
      exec (.sig n w) s = .next (s.putDev (replayCheck n (modCoreTask
        (modCounter s.dev pc t.part w fun v => if sigSet w then sigVal w else v + sigVal w) pc fun t =>
          { t with sb := sigOf w t.sb, effects := logBit t.effects t.ip }.advance)))) ∧
    (issueNext s.dev n 0x10 w = some (pc, t) → digFlush w = false →
      exec (.digestSet n w) s = .next (s.putDev (replayCheck n (controlDone (modCoreTask s.dev pc fun t =>
        { t with dig := ⟨digAccum w, digLayer w, digTensor w, digRow w, digCol w⟩ }) pc w)))) ∧
    (issueNext s.dev n 0x10 w = some (pc, t) → digFlush w = true →
      exec (.digestFlush n w) s = .next (s.putDev (replayCheck n (modCoreTask (s.dev.modPart t.part fun x => { x with
        dlog := lastN (2 ^ x.dlogLog2) (x.dlog ++ [⟨stepKey s.dev t, digLayer w, digTensor w, digAccum w, n,
          tgetD (s.dev.part t.part).accum (digAccum w) 0, s.dev.time.now⟩])
        dlogWritten := x.dlogWritten + 1, accum := tput x.accum (digAccum w) 0 }) pc fun t =>
          { t with sb := sigOf w t.sb, effects := logBit t.effects t.ip }.advance))))

/-- GATE_PUSH, the exchange commands and the six collective commands. For a task that is not replaying. GATE_PUSH on a
loaded slot with fewer than 64 pushes waiting joins the Gate Unit's queue and the port's. DISPATCH and COMBINE with
the descriptor inside the view and its second word (EXCH_ID and DONE_SEM) not lost, a place in Sluice, tokens in the
DRAM and fabric Weirs, the turn of their partition in the round of R365, and no core of the partition held before
them: the turn is recorded, the exchange of that kind is posted and the command accepted. ALL_REDUCE, REDUCE_SCATTER,
ALL_GATHER, BROADCAST, ALL_TO_ALL and BARRIER with a descriptor in the view, not lost, whose OP is their own, room on
the communicator, tokens in those Weirs (a BARRIER, which moves no bytes, needs none), the turn, and no core of the
partition held before them: the turn is recorded, the collective is posted and the command accepted. END with every
earlier command complete and no engine operation left to signal it, in a partition that is not pausing at its
boundary, retires the task with OK. That the rounds run over the commands at issue which an engine could take, and
that an exchange waits for its Weirs, is the model's reading (logs 60, 67). Rests on spec/03_expert_core.md;
spec/04_gate_unit.md; spec/05_sluice_exchange.md; spec/09_rill_collectives.md. -/
def Obligations.EngineCommandsComplete : Prop :=
  ∀ (n : Nat) (w : BitVec 128) (s : State) (pc : Nat) (t : Task), t.suppressed = false →
    (issueTo s.dev n 0xC w .port = some (pc, t) → (tget s.dev.gate.descs (256 * t.part + gpSlot w)).isSome →
      s.dev.gate.queue.length < 64 →
      exec (.gatePush n w) s = .next (s.putDev (replayCheck n (modCoreTask
        { s.dev with gate := { s.dev.gate with queue := s.dev.gate.queue ++ [⟨t.part, n, t.sub, t.ip, w⟩] } } pc fun u =>
          { u with port := u.port ++ [flight s.dev t w none] }.advance)))) ∧
    (issueTo s.dev n 0xD w .port = some (pc, t) → engCheck s.dev pc n t w 8 8 = none → xchgAdmits s.dev n t.part w = true →
      portTurn s.dev 0xD (xchgAdmits s.dev) s.dev.slc.lastPart s.dev.slc.used = some t.part →
      firstCome s.dev 0xD (xchgAdmits s.dev) s.dev.slc.held n t.part = true →
      let post (kind : Nat) := replayCheck n (portAccepted (xchgPost { s.dev with slc := { s.dev.slc with
        lastPart := t.part, used := usedNow s.dev s.dev.slc.lastPart s.dev.slc.used t.part
        held := s.dev.slc.held.filter (· != n) } } t.part n t.sub (engDesc w) kind) pc
          (flight s.dev t w none))
      (xchgKind w = 0 → exec (.dispatch n w) s = .next (s.putDev (post 0))) ∧
      (xchgKind w = 1 → exec (.combine n w) s = .next (s.putDev (post 1)))) ∧
    (issueTo s.dev n 0xE w .port = some (pc, t) → engCheck s.dev pc n t w 0 56 = none →
      collAdmits s.dev n t.part w = true → firstCome s.dev 0xE (collAdmits s.dev) s.dev.rill.held n t.part = true → portTurn s.dev 0xE (collAdmits s.dev) s.dev.rill.lastPart s.dev.rill.used = some t.part →
      let op := collOp s.dev n t.part w
      let d := replayCheck n (portAccepted (collPost { s.dev with rill := { s.dev.rill with
        lastPart := t.part, used := usedNow s.dev s.dev.rill.lastPart s.dev.rill.used t.part
        held := s.dev.rill.held.filter (· != n) } } t.part n t.sub (engDesc w) (collComm w)) pc
          (flight s.dev t w none))
      (op = 0 → exec (.allReduce n w) s = .next (s.putDev (d))) ∧
      (op = 1 → exec (.reduceScatter n w) s = .next (s.putDev (d))) ∧
      (op = 2 → exec (.allGather n w) s = .next (s.putDev (d))) ∧
      (op = 3 → exec (.broadcast n w) s = .next (s.putDev (d))) ∧
      (op = 4 → exec (.allToAll n w) s = .next (s.putDev (d))) ∧
      (op = 5 → exec (.barrier n w) s = .next (s.putDev (d)))) ∧
    (issueNext s.dev n 0x3F w = some (pc, t) → t.idle = true → willSignal s.dev t.part n = false →
      ((retireTask s.dev pc sOk).part t.part).holding = false →
      exec (.endTask n w) s = .next (s.putDev (replayCheck n (retireTask s.dev pc sOk))))

/-- STEP and the release of a partition's own step barrier. STEP of a task with no command in flight, no barrier open
yet and more than one participant: the task waits at the step and the barrier is open with this core arrived. STEP on
a barrier that is open with the same PARTICIPANTS and JOB: this core joins the arrivals, and barrierUp acts on a full
barrier. STEP_BARRIER_RELEASE of a barrier that may be released, with no snapshot ordered: every arrived task goes
past its STEP, the step counter rises by 1, barrier, buckets, vote and commit mark are cleared, a partition that
pauses, or that the release tells to, is at its boundary, and the written GRD and KV settings take effect. With a
snapshot ordered and its partition's snapshots enabled (the model's reading, log 82): the first occurrence begins the
local copies, and once they have ended the next one releases the step with what was copied. Rests on
spec/03_expert_core.md; spec/10_gradient_reduction.md; spec/13_partitions_scheduling.md; spec/15_fault_recovery.md;
spec/17_manager_launch.md. -/
def Obligations.StepBarrierCompletes : Prop :=
  (∀ (n : Nat) (w : BitVec 128) (s : State) (pc : Nat) (t : Task), issueNext s.dev n 0x11 w = some (pc, t) → t.idle = true →
    t.suppressed = false → (s.dev.part t.part).barrier = none → 1 < stepParts w →
    exec (.step n w) s = .next (s.putDev (replayCheck n ((modCoreTask s.dev pc fun t =>
      { t with atStep := true, effects := logBit t.effects t.ip }).modPart t.part fun x =>
        { x with barrier := some ⟨stepParts w, stepJob w, [n], false, none, false⟩ })))) ∧
  (∀ (n : Nat) (w : BitVec 128) (s : State) (pc : Nat) (t : Task) (b : Barrier), issueNext s.dev n 0x11 w = some (pc, t) →
    t.idle = true → t.suppressed = false → (s.dev.part t.part).barrier = some b → b.participants = stepParts w →
    b.job = stepJob w →
    exec (.step n w) s = .next (s.putDev (replayCheck n (barrierUp ((modCoreTask s.dev pc fun t =>
      { t with atStep := true, effects := logBit t.effects t.ip }).modPart t.part fun x =>
        { x with barrier := some { b with arrived := b.arrived ++ [n] } }) t.part)))) ∧
  (∀ (p : Nat) (s : State) (b : Barrier), (s.dev.part p).barrier = some b → mayRelease (s.dev.part p) = true →
    let pause := releaseSays (s.dev.part p) b (·.2.1)
    let snap := releaseSays (s.dev.part p) b (·.2.2) && snEn (s.dev.part p)
    (snap = false → exec (.stepBarrierRelease p) s = .next (s.putDev (let word (t : Task) : BitVec 128 := (((programOf s.dev t.part t.prog).bind fun g => g.cmds[t.ip]?).getD 0)
      let d := b.arrived.foldl (fun d n => passStep d p n word) s.dev
      let pausing := (s.dev.part p).st == .pausing || (pause && (s.dev.part p).st == .active)
      let d := d.modPart p fun x => { x with
        step := x.step + 1, barrier := none, buckets := [], vote := none, committed := false, notReleased := false
        st := if pausing then .pausing else x.st, atBoundary := x.atBoundary || pausing }
      let d := grdBoundary (kvStep d p) p
      pauseBoundary p (d.cores.foldl (fun d c => replayEnded d c.1) d)))) ∧
    (snap = true → (s.dev.part p).snapHeld = none → (s.dev.part p).copying = none →
      copiesOut (beginSnapshot s.dev p) p [0, 1] = true →
      exec (.stepBarrierRelease p) s = .next (s.putDev (beginSnapshot s.dev p))) ∧
    (∀ good, snap = true → (s.dev.part p).snapHeld = none → (s.dev.part p).copying = some good → copiesOut s.dev p [0, 1] = false →
      exec (.stepBarrierRelease p) s = .next (s.putDev (releaseStep s.dev p b pause (some good)))))

/-- The job barrier's cells and the delay of a release. A delivered BARRIER_ARRIVE of kind 0 from a member of the
partition's job below this device, for the step that is expected, joins the arrivals gathered. A delivered
BARRIER_RELEASE of kind 1 for the present step of an open barrier not yet released is passed on to the collectors and
columns below this device and kept as the barrier's release. RELEASE_DELAY applies the kept release once. The model's
choice, log 75: one with AND 0 makes the sequencer's PHASE FAILED and counts error 3, unless this device's own vote of
0 has done so in this step. Rests on spec/17_manager_launch.md; spec/10_gradient_reduction.md. -/
def Obligations.JobBarrierCompletes : Prop :=
  (∀ (port : Nat) (c : Cell) (s : State) (d : Dev) (g : Gather), Delivered s.dev port c [tyBarrier] d → fld (payBits c) 1 0 = 0 →
    (jobMembers d c.part.toNat).contains c.src = true → forRoot d c.part.toNat c.src = false → (d.part c.part.toNat).gather = some g →
    g.step = BitVec.ofNat 64 (fld (payBits c) 127 64) →
    exec (.barrierArrive port c) s = .next (s.putDev (gatherAdd d c.part.toNat c.src g.step (fld (payBits c) 47 32) (bit (payBits c) 2)))) ∧
  (∀ (port : Nat) (c : Cell) (s : State) (d : Dev) (b : Barrier), Delivered s.dev port c [tyBarrier] d → fld (payBits c) 1 0 = 1 →
    (d.part c.part.toNat).barrier = some b → b.release = none →
    (d.part c.part.toNat).step = BitVec.ofNat 64 (fld (payBits c) 127 64) →
    exec (.barrierRelease port c) s = .next (s.putDev (let p := c.part.toNat
      let w := payBits c
      takeRelease (passRelease (d.modPart p fun x => { x with gather := none }) p (jobMembers d p) (bit w 2) (bit w 3) (bit w 4) (d.part p).step)
        p (bit w 2) (bit w 3) (bit w 4) (d.part p).step))) ∧
  (∀ (p : Nat) (s : State) (b : Barrier) (r : Bool × Bool × Bool), (s.dev.part p).barrier = some b → b.release = some r →
    b.released = false →
    exec (.releaseDelay p) s = .next (s.putDev (let d := s.dev.modPart p fun x => { x with barrier := x.barrier.map fun b => { b with released := true } }
      if r.1 || (s.dev.part p).notReleased then d
      else (grdErr d p 3).modPart p fun x => { x with grdFailed := true, notReleased := true })))

/-- The sequencer's vote and commit, and the end of a snapshot. SEQUENCER_VOTE of a valid partition with its sequencer
enabled, no vote yet and every ACTIVE bucket final: the vote and LAST_VOTE are voteOf, flag 12 of GRD_FLAGS is set
when it is 0, and the barrier is told. COMMIT of an enabled sequencer whose barrier lets it commit: in a step that
reduced nothing it ends the commit; in a step that reduced buckets it puts the promotion copy of every ACTIVE entry
that promotes on the firmware channel, in ascending index, and the commit ends once the copies have (log 77). Ending a
commit releases the retained contributions, raises the commit semaphore by 1 and counts the commit with the step;
after a failed copy it leaves PHASE FAILED and signals nothing. SNAPSHOT_VALID after the buddy's copy has ended with
status 0: the transfer leaves the firmware channel counted, the generation held for it becomes the newest valid one,
with its step, seeds and region checksums, its header goes to the buddy (log 82), and where a job runs in the
partition its manager and its deputy, two devices, are told (the model's message, log 22). Rests on
spec/10_gradient_reduction.md; spec/15_fault_recovery.md. -/
def Obligations.SequencerVoteCommitSnapshotComplete : Prop :=
  (∀ (p : Nat) (s : State), (s.dev.part p).valid = true → grdEn (s.dev.part p) = true → (s.dev.part p).vote = none →
    allFinal s.dev p = true →
    exec (.sequencerVote p) s = .next (s.putDev (let v := voteOf (s.dev.part p)
      let d := s.dev.modPart p fun x => { x with vote := some v, lastVote := v }
      barrierUp (if v then d else grdFlag d p 4096) p))) ∧
  (∀ (p : Nat) (s : State), grdEn (s.dev.part p) = true → (s.dev.part p).committed = false → (s.dev.part p).grdFailed = false →
    mayCommit (s.dev.part p) = true →
    let ended (d : Dev) : Dev :=
      let d := (releaseRetention d p none).modPart p fun x => { x with promoting := none }
      (addSem d p (grdCommitSem (d.part p)) 1).modPart p fun x => { x with
        committed := true, commitStep := BitVec.ofNat 32 x.step.toNat }
    ((s.dev.part p).promoting = none → (reductionStep (s.dev.part p) && (s.dev.part p).buckets.any (·.launched)) = false →
      copiesOut s.dev p [2] = false →
      exec (.commit p) s = .next (s.putDev (ended s.dev))) ∧
    ((s.dev.part p).promoting = none → (reductionStep (s.dev.part p) && (s.dev.part p).buckets.any (·.launched)) = true →
      let r := (List.range (grdCount (s.dev.part p))).foldl (promoteEntry p) (true, s.dev)
      (copiesOut r.2 p [2] = true →
        exec (.commit p) s = .next (s.putDev (r.2.modPart p fun x => { x with promoting := some r.1 }))) ∧
      (copiesOut r.2 p [2] = false → r.1 = true → exec (.commit p) s = .next (s.putDev (ended r.2)))) ∧
    (∀ good, (s.dev.part p).promoting = some good → copiesOut s.dev p [2] = false →
      (good = true → exec (.commit p) s = .next (s.putDev (ended s.dev))) ∧
      (good = false → exec (.commit p) s = .next (s.putDev (promoteFailed ((releaseRetention s.dev p none).modPart p fun x => { x with promoting := none }) p))))) ∧
  (∀ (p : Nat) (s : State) (t : Desc) (rest : List Desc) (h : SnapHead), (chanOf s.dev (snapChan p)).fetched = t :: rest →
    bdOp t.w = 6 → t.done = true → t.status = 0 → (s.dev.part p).snapHeld = some h →
    exec (.snapshotValid p) s = .next (s.putDev (let d := endActive (countEnd (modChan s.dev (snapChan p) fun c => { c with fetched := rest }) (snapChan p) t) (snapChan p)
      let d := (d.modPart p fun x => { x with snapHeld := none }).modPart p fun x => { x with
        heads := x.heads.filter (·.gen != h.gen) ++ [h] }
      let table := readRange d p false (snTable (s.dev.part p)) (32 * snNreg (s.dev.part p))
      reportSnapshots (sendMgmt d (snBuddy (s.dev.part p)) (.snapHeader (myId d) p h.gen h.step h.seeds h.crcs table)) p [h]))) ∧
  (∀ (p : Nat) (d : Dev) (h : SnapHead), jobValid (d.part p) = true → jobMan (d.part p) ≠ jobDep (d.part p) →
    let m := Mgmt.snapshotReport (myId d) p h.gen h.step h.seeds
    reportSnapshots d p [h] = sendMgmt (sendMgmt d (jobMan (d.part p)) m) (jobDep (d.part p)) m) ∧
  (∀ (p : Nat) (d : Dev) (hs : List SnapHead), jobValid (d.part p) = false → reportSnapshots d p hs = d)

/-- A bucket through the gradient sequencer. BUCKET_FILLED of a readable ACTIVE entry whose FILL_SEM has reached
FILL_TARGET: the semaphore falls by the target and, in a step that reduces, the bucket launches. BUCKET_CONVERTED of a
converting bucket whose accumulators meet no poisoned line: WIRE holds the blocks, conversion flags are recorded, and
the reduce-scatter is due. SHARD_VERIFY of a verifying bucket that was not predicted, every block of its shard
verified or re-summed: the flags of the blocks are recorded and the bucket is finished. SUMMARY_DONE of the pre-pass
that ended OK fixes the maximum and the scale and conversion begins. Rests on spec/10_gradient_reduction.md. -/
def Obligations.BucketCommandsComplete : Prop :=
  (∀ (p i : Nat) (s : State), (s.dev.part p).valid = true → grdEn (s.dev.part p) = true → i < grdCount (s.dev.part p) →
    bucketOf s.dev p i = none → entryReadable s.dev p i = true → reductionStep (s.dev.part p) = true →
    let d := touched s.dev p (entryAddr s.dev p i) 128
    let e := readEntry d p i
    beActive e = true → beTarget e ≤ (semOf d p (beFillSem e)).toNat →
    exec (.bucketFilled p i) s = .next (s.putDev (launchBucket (setSem d p (beFillSem e) (semOf d p (beFillSem e) - BitVec.ofNat 32 (beTarget e))) p i e))) ∧
  (∀ (p i : Nat) (s : State) (b : Bucket), bucketOf s.dev p i = some b → b.phase = .converting →
    accPoison s.dev p b.entry (bucketMembers s.dev p b.entry) = none →
    exec (.bucketConverted p i) s = .next (s.putDev (let d := touched s.dev p (beAcc b.entry) (4 * bucketElems (bucketMembers s.dev p b.entry) (beLen b.entry))
      let vs := accVals d p b.entry (bucketMembers s.dev p b.entry)
      let blocks := (chunks 40 vs).mapIdx fun g v => wireBlock d p b g v
      let fl := blocks.foldl (fun a t => a ||| t.flags) 0
      let d := storeRange d p (beWire b.entry) (blocks.flatMap Bsi.bytes)
      let d := if (convFlags vs fl).1 = 0 then d else grdFlag d p (convFlags vs fl).1
      seqPump (modBucket d p i fun b => { b with
        phase := .rsPost, satd := b.satd || fl / 4 % 2 == 1, flags := b.flags ||| (convFlags vs fl).2, eloc := localMax vs }) p))) ∧
  (∀ (p i : Nat) (s : State) (b : Bucket) (d : Dev), bucketOf s.dev p i = some b → b.phase = .verifying → b.predicted = false →
    (poisonAt s.dev p false (beShard b.entry) (beLen b.entry)) = none →
    (List.range (beLen b.entry / 256)).foldl (verifyBlock p i b) (true,
      touched (noteDenied s.dev p (beShard b.entry) (beLen b.entry)) p (beShard b.entry) (beLen b.entry)) = (true, d) →
    exec (.shardVerify p i) s = .next (s.putDev (let fl := (List.range (beLen b.entry / 256)).foldl (fun a g => a ||| (readNat d p (beShard b.entry + 256 * g + 1) 1)) 0
      let ef := (if fl.testBit 0 then flOvf else 0) ||| (if fl.testBit 1 then flNf else 0) ||| (if fl.testBit 2 then flSat else 0)
      let d := if fl.testBit 0 then grdFlag d p 256 else d
      seqPump (bucketFinish (modBucket d p i fun b => { b with flags := b.flags ||| ef }) p i) p))) ∧
  (∀ (p i : Nat) (s : State) (b : Bucket), bucketOf s.dev p i = some b → b.sumEnd = some 0 → b.phase = .prepass →
    poisonAt (modBucket s.dev p i fun y => { y with sumEnd := none }) p false (beSum b.entry) 8 = none →
    exec (.summaryDone p i) s = .next (s.putDev (let d := modBucket s.dev p i fun y => { y with sumEnd := none }
      let d := touched (noteDenied d p (beSum b.entry) 8) p (beSum b.entry) 8
      let r := readSummary d p b.entry
      modBucket d p i fun y => { y with phase := .converting, emax := r.2, exp := agreedExp r.2 (bucketMembers d p b.entry) })))

/-- The Gate Unit takes a push, grants a step and finishes it. GATE_PUSH_ACCEPT: the push that stands first in the
queue for the partition whose turn it is (R365) leaves the queue and is counted towards its step. GATE_STEP_OPEN: the
first waiting step of the queue, its workspace and place free, is granted. GATE_STEP_DONE: a closed step whose outputs
are written leaves the Gate Unit and its DONE_SEM rises by 1; nothing else changes. Rests on spec/04_gate_unit.md. -/
def Obligations.GateCommandsComplete : Prop :=
  (∀ (s : State) (p : Nat) (u : Push),
    nextPart s.dev (fun p => (s.dev.gate.queue.any fun u => u.part == p) && weirOk s.dev p 0) s.dev.gate.lastPart s.dev.gate.used = some p →
    (s.dev.gate.queue.find? fun u => u.part == p) = some u →
    exec .gatePushAccept s = .next (s.putDev (receivePush { s.dev with gate := { s.dev.gate with
      queue := dropFirst (· == u) s.dev.gate.queue, lastPart := p
      used := usedNow s.dev s.dev.gate.lastPart s.dev.gate.used p } } u))) ∧
  (∀ (s : State) (serve : Bool) (g : GStep), (s.dev.gate.steps.find? fun g => !g.granted && g.serve == serve) = some g →
    stepFits s.dev g = true → exec (.gateStepOpen serve) s = .next (s.putDev (grantStep s.dev g.id))) ∧
  (∀ (s : State) (p slot : Nat) (g : GStep),
    (s.dev.gate.steps.find? fun g => g.part == p && g.slot == slot && g.written && g.closed) = some g →
    exec (.gateStepDone p slot) s = .next (s.putDev (addSem { s.dev with gate := { s.dev.gate with
      steps := dropFirst (fun g => g.part == p && g.slot == slot && g.written && g.closed) s.dev.gate.steps } } p (gdDoneSem g.desc) 1)))

/-- Cells of an exchange at its receiver. A delivered SLC_COUNT of an open exchange, from a source whose count has not
come, with room in the count store for its bitmap, is acknowledged and joins the exchange. A delivered SLC_DIR or
SLC_DATA of a known transfer is taken into that transfer, SLC_DATA where its partition's DRAM Weir has tokens; without
them the cell stays in its input buffer (log 81). A delivered SLC_ABORT with STATUS ABORTED from a peer of an open
exchange of its kind ends the exchange with ABORTED, cause 13, and is acknowledged. The size of the bitmap is the
model's choice (log 78). Rests on spec/05_sluice_exchange.md. -/
def Obligations.ReceivedExchangeCellsComplete : Prop :=
  ∀ (port : Nat) (c : Cell) (s : State) (d : Dev) (x : Exch),
    (Delivered s.dev port c [tyCount] d → slcDupOf d c = none → findIn d c = none →
      openX d c.part.toNat (BitVec.ofNat 32 (fld (payBits c) 31 0)) = some x → x.combine = c.combine → x.status = 0 →
      ∀ r, x.peers.findIdx? (fun q => q.1 == c.src) = some r →
      ∀ i, (x.ins.find? fun i => i.src == r && !i.own) = some i → i.count = none → bitmapRoom d c = true →
      exec (.slcCount port c) s = .next (s.putDev (joinCount (sendCountAck d c (fld (payBits c) 31 0 % 2 ^ 32) false) x i c none d.slc.cfg))) ∧
    (Delivered s.dev port c [tyDir] d → ∀ i, findIn d c = some (x, i) →
      exec (.slcDir port c) s = .next (s.putDev (takeCell x.uid i.src d c))) ∧
    (Served awaitsTokens s.dev port c [tyData] d → ∀ i, findIn d c = some (x, i) →
      exec (.slcData port c) s = .next (s.putDev (takeCell x.uid i.src d c))) ∧
    (c.ty.toNat = tyData → awaitsTokens s.dev c = true →
      exec (.slcData port c) s = .next (s.putDev (holdCell s.dev port c))) ∧
    (Delivered s.dev port c [tyAbort] d → fld (payBits c) 39 32 = sAborted →
      openX d c.part.toNat (BitVec.ofNat 32 (fld (payBits c) 31 0)) = some x → x.combine = c.combine →
      ∀ r, x.peers.findIdx? (fun q => q.1 == c.src) = some r →
      exec (.slcAbort port c) s = .next (s.putDev (answerSlc (slcFail d x.uid sAborted 13 r [r]) c tySlcAck 0 (pack 512 [(0, fld (payBits c) 31 0 % 2 ^ 32), (32, 1)]))))

/-- Cells of an exchange at its sender. For a transfer that is open at this source. SLC_COUNT_ACK without DEFER: the
count is acknowledged and the timer runs on if every cell is sent. SLC_READY of an exchange that is not GLOBAL: the
rest of the cells are sent. SLC_GRANT that completes the grants of a GLOBAL exchange whose ACK has not come: the
granted rows alone are sent and the refused records rewritten. SLC_ACK of a transfer that awaits no grants: it ends,
and its tag is held; the model's choice, log 30: a non-zero OFFSET is an early credit, left with the partition that
sent the transfer. Rests on spec/05_sluice_exchange.md. -/
def Obligations.AnsweredExchangeCellsComplete : Prop :=
  ∀ (port : Nat) (c : Cell) (s : State) (d : Dev) (x : Exch) (o : OutXfer), findOut d c = some (x, o) → x.status = 0 →
    (Delivered s.dev port c [tyCountAck] d → bit (payBits c) 0 = false →
      exec (.slcCountAck port c) s = .next (s.putDev (modOut d x.uid o.dst fun o => { o with counted := true, timing := o.sent == o.cells.length }))) ∧
    (Delivered s.dev port c [tyReady] d → o.ready = false → (x.combine = true ∨ xdGlobal x.desc = false) →
      exec (.slcReady port c) s = .next (s.putDev (sendTo (modOut d x.uid o.dst fun o => { o with ready := true }) x.uid o.dst o.cells.length))) ∧
    (Delivered s.dev port c [tyGrant] d → o.ready = false → o.early = false → x.combine = false → xdGlobal x.desc = true →
      ((List.range (divUp o.runs.length 32)).all fun k => (tget (tput o.grants c.off.toNat (payBits c)) k).isSome) = true →
      exec (.slcGrant port c) s = .next (s.putDev (let gs := tput o.grants c.off.toNat (payBits c)
        let granted := (List.range o.runs.length).map fun k => fld (tgetD gs (k / 32) 0) (16 * (k % 32) + 15) (16 * (k % 32))
        let sizes := (o.runs.map fun r => r.2.2.length).zip granted
        let cells := o.cells.take o.nctl ++ grantedCells (rowCells x.desc) o.nctl sizes (o.cells.drop o.nctl)
        let d := (refusedRecs o.runs granted).foldl (refuseRecord x.uid) (modOut d x.uid o.dst fun o => { o with grants := gs })
        sendTo (modOut d x.uid o.dst fun o => { o with ready := true, cells := cells }) x.uid o.dst cells.length))) ∧
    (Delivered s.dev port c [tySlcAck] d → bit (payBits c) 32 = false → awaitsGrants x o = false →
      exec (.slcAck port c) s = .next (s.putDev (let d := endOut d x.uid o.dst
        if c.off = 0 then d
        else { d with slc := { d.slc with credits := d.slc.credits ++ [⟨x.part, c.src, o.part, true, c.off.toNat, 0, []⟩] } })))

/-- The stages of an exchange at its receiver. EXCHANGE_TAGS_TAKEN of a waiting exchange takes its tags. ROWS_FIXED
with every count cell and directory held fixes the rows. RX_BUF_ALLOC of a region with rows and no buffer, when the
pool grants one, gives the region that buffer. TRANSFER_COMPLETE of a transfer with all its cells, not the last of a
DISPATCH while headers are open, marks it complete, counts the source, and for a DISPATCH signals the arrival targets.
EXCHANGE_COMPLETE with every condition of R133 met, of an exchange that no end of its submission cut short: the
exchange leaves the open ones, its areas kept where R172 asks for them, STATUS_WORD is written and DONE_SEM rises by
1. RETURN_BUFFERS_HELD of a COMBINE source, when the pool grants, gives it the return buffers. How many rows a buffer
takes, and that a region without rows needs none, is the model's reading (logs 31, 33). Rests on
spec/05_sluice_exchange.md. -/
def Obligations.ExchangeStagesComplete : Prop :=
  ∀ (p : Nat) (exch : U32) (s : State) (x : Exch),
    ((s.dev.slc.exch.find? fun x => x.part == p && x.id == exch && x.phase == .waitTags) = some x →
      exec (.exchangeTagsTaken p exch) s = .next (s.putDev (takeTags s.dev x))) ∧
    (openX s.dev p exch = some x → canFix x = true → exec (.rowsFixed p exch) s = .next (s.putDev (rowsFix x s.dev))) ∧
    (openX s.dev p exch = some x → x.rowsFixed = true → x.status = 0 → ∀ l is d, l < xdNl x.desc →
      rxAlloc (x.rxt.getD l 0) = true → tgetD x.expected l 0 ≠ 0 → tget x.rxBuf l = none →
      request s.dev (xdPool x.desc) p 1 (.alloc exch l) = (some is, d) →
      exec (.rxBufAlloc p exch l) s = .next (s.putDev (giveRegion d x.uid l is))) ∧
    (openX s.dev p exch = some x → x.status = 0 → ∀ i, (x.ins.find? fun y => y.src == i.src) = some i → i.complete = false →
      xferDone x i = true → (x.combine = false → (x.ins.all fun y => y.src == i.src || y.complete) = true →
        xdNl x.desc ≤ x.finals.length) →
      exec (.transferComplete p exch i.src) s = .next (s.putDev (let d := modIn s.dev x.uid i.src fun i => { i with complete := true }
        let d := modX d x.uid fun x => { x with srcDone := x.srcDone + 1 }
        if x.combine then d else (arrTargets x).foldl (fun d t => sluiceRaise d p t) d))) ∧
    ((s.dev.slc.exch.find? fun x => x.part == p && x.id == exch && exchDone x) = some x → x.wrote = false → x.signal = true →
      exec (.exchangeComplete p exch) s = .next (s.putDev (addSem (writeStatus (keepAreas (closeX s.dev x) x) x) p (xdDone x.desc) 1))) ∧
    (openX s.dev p exch = some x → x.combine = true → x.status = 0 → ∀ i is d,
      (x.ins.find? fun y => y.src == i.src) = some i → i.retsHeld = false →
      request s.dev (xdPool x.desc) p (divUp (tgetD x.homeRecs i.src []).length (retPer s.dev x.desc)) (.returns exch i.src) = (some is, d) →
      exec (.returnBuffersHeld p exch i.src) s = .next (s.putDev (giveReturns d x.uid i.src is)))

/-- The home sum of a token. HOME_SUM of a token of an open COMBINE that is not summed yet, its records readable,
every row its records send back come and held, its output writable, with SHARED_EN and no SKIP the shared output
readable, and the DRAM Weir not empty: the token's output row holds the sum in ascending rank, the shared output last
where it counts, +0 for a skipped token, encoded in OFMT. The DRAM Weir is charged for the output row, and for the
shared output where it was read; the flags are recorded, the token is marked summed, and return buffers whose rows are
all summed go back. Rests on spec/05_sluice_exchange.md. -/
def Obligations.HomeSumCompletes : Prop :=
  ∀ (p : Nat) (exch : U32) (t : Nat) (s : State) (x : Exch), openX s.dev p exch = some x → x.combine = true → x.status = 0 →
    t < x.tokens → x.summed.contains t = false → weirOk s.dev p 0 = true →
    regionFault (opQuota s.dev p (.exch x.uid)) p (xdRec x.desc + 16 * t * xdK x.desc) (16 * xdK x.desc) = none →
    ∀ recs skip used out n wantShared, recs = (List.range (xdK x.desc)).map (fun r =>
        (t * xdK x.desc + r, readWord s.dev p false 128 (xdRec x.desc + 16 * t * xdK x.desc + 16 * r))) →
      skip = rcSkip ((recs.head?.map (·.2)).getD 0) → used = (if skip then [] else recs.filter fun r => rcSends r.2) →
      (used.any fun r => (returnRow x r.1).isNone) = false → wantShared = (xdShared x.desc && !skip) →
      out = xdData x.desc + t * xdStride x.desc → n = rowElems (xdOfmt x.desc) (xdWidth x.desc) →
      (wantShared = true → regionFault (opQuota s.dev p (.exch x.uid)) p out n = none) → okFor s.dev p (.exch x.uid) false out n = true →
    exec (.homeSum p exch t) s = .next (s.putDev (let shared := if wantShared then some (readRange s.dev p false out n) else none
      let sum := sumToken x.desc (used.map fun r => (rcWeight r.2, (returnRow x r.1).getD [])) shared 0
      let enc := encodeVals (xdOfmt x.desc) (fun _ => .rne) (sum.1.map f32) 0
      let d := chargeRange (slcWrite s.dev x false out enc.1.1) p out n
      let d := if wantShared then chargeRange d p out n else d
      freeReturns x.uid (modX (slcFlag d p (sum.2 ||| enc.2)) x.uid fun x => { x with summed := t :: x.summed })))

/-- The timers of Sluice. SLC_TRANSFER_TIMEOUT of a timed transfer with retries left by the SLC_CFG it started under:
the retry is counted, error 1 too, and the cells sent so far are sent again with RETRY. SLC_DEFER_RESEND of a deferred
transfer: its count, directory and record index cells are sent again without RETRY. EARLY_CREDIT_LAPSE removes a
source's credit, or one of this device's own while no cell kept of that source needs it, and frees its buffers.
SLC_ABORT_RESEND with resends left sends the SLC_ABORT again with RETRY under the present epoch; after the last one it
escalates once. The model's choice, log 80: the resends of SLC_ABORT follow the present SLC_CFG. Rests on
spec/05_sluice_exchange.md. -/
def Obligations.SluiceTimersComplete : Prop :=
  (∀ (p : Nat) (exch : U32) (dst : Nat) (s : State) (x : Exch) (o : OutXfer),
    (s.dev.slc.exch.findSome? fun x => if x.part = p ∧ x.id = exch then
      (x.outs.find? fun o => o.dst == dst && o.timing && !o.ended).map fun o => (x, o) else none) = some (x, o) →
    o.retries < slcRetries o.cfg →
    exec (.slcTransferTimeout p exch dst) s = .next (s.putDev (resendOut (slcErr (modOut s.dev x.uid dst fun o => { o with retries := o.retries + 1 }) 1) x o true o.sent))) ∧
  (∀ (p : Nat) (exch : U32) (dst : Nat) (s : State) (x : Exch) (o : OutXfer),
    (s.dev.slc.exch.findSome? fun x => if x.part = p ∧ x.id = exch then
      (x.outs.find? fun o => o.dst == dst && o.deferred && !o.ended).map fun o => (x, o) else none) = some (x, o) →
    exec (.slcDeferResend p exch dst) s = .next (s.putDev (resendOut (modOut s.dev x.uid dst fun o => { o with deferred := false, timing := true }) x o false o.nctl))) ∧
  (∀ (dev : DevId) (p : Nat) (source : Bool) (s : State) (k : EarlyCredit),
    (s.dev.slc.credits.find? fun k => k.source == source && k.dev == dev && k.part == p) = some k →
    (source = false → (s.dev.slc.store.any fun y => y.cell.src == dev && y.cell.part.toNat == p) = false) →
    exec (.earlyCreditLapse dev p source) s = .next (s.putDev (freeAll { s.dev with slc := { s.dev.slc with
      credits := dropFirst (fun k => k.source == source && k.dev == dev && k.part == p) s.dev.slc.credits } } (k.bufs.map fun b => (k.pool, b))))) ∧
  (∀ (p : Nat) (exch : U32) (dev : DevId) (s : State) (a : PendingAbort),
    (s.dev.slc.aborts.find? fun a => a.part == p && a.id == exch && a.cell.dest == dev) = some a →
    let set (f : PendingAbort → PendingAbort) : Dev := { s.dev with slc := { s.dev.slc with
      aborts := updFirst (fun a => a.part == p && a.id == exch && a.cell.dest == dev) f s.dev.slc.aborts } }
    (a.resends < slcRetries s.dev.slc.cfg →
      exec (.slcAbortResend p exch dev) s = .next (s.putDev (sendFor (set fun a => { a with resends := a.resends + 1 }) a.part { a.cell with retry := true }))) ∧
    (slcRetries s.dev.slc.cfg ≤ a.resends → a.escalated = false →
      exec (.slcAbortResend p exch dev) s = .next (s.putDev (escalate (slcErr (set fun a => { a with escalated := true }) 2) dev false))))

/-- Bringing a link up. BRINGUP_STEP_TIMEOUT of a port in training or hello counts the attempt, logs it, reports a
lane recovery that was under way as failed, and starts step 1 again, or after the third leaves the port dark.
BRINGUP_RETRY_WAIT of a dark port after three attempts starts it. FEC_ALIGNMENT_LOCK of a port in training with no
lanes kept: the port waits for hellos and its own LINK_HELLO is sent. LINK_HELLO the first time is remembered; the
second time the partner is checked. CREDIT_RETURN on a port in service adds the credits and sends what waits. How
often a LINK_HELLO comes before the partner is checked is the model's reading (log 48). Rests on
spec/07_igquel_links_and_routing.md. -/
def Obligations.LinkBringUpCompletes : Prop :=
  ∀ (n : Nat) (s : State),
    ((s.dev.port n).state = .training ∨ (s.dev.port n).state = .hello →
      exec (.bringupStepTimeout n) s = .next (s.putDev (let d := laneFailed (logBringup (s.dev.modPort n fun x => { x with attempts := x.attempts + 1 }) n) n
        if (s.dev.port n).attempts + 1 < 3 then startPort d n else setPort d n fun x => portReset x .dark))) ∧
    ((s.dev.port n).state = .dark → 3 ≤ (s.dev.port n).attempts →
      exec (.bringupRetryWait n) s = .next (s.putDev (startPort s.dev n))) ∧
    ((s.dev.port n).state = .training → (s.dev.port n).lanes = 0 →
      exec (.fecAlignmentLock n) s = .next (s.putDev (sendHello (setPort s.dev n fun x => { x with state := .hello, hellosSeen := 0, pending := none }) n))) ∧
    (∀ h : LinkHello, (s.dev.port n).state = .hello → (s.dev.port n).creditsKnown = false → (s.dev.port n).hellosSeen = 0 →
      exec (.linkHello n h) s = .next (s.putDev (s.dev.modPort n fun x => { x with hellosSeen := x.hellosSeen + 1, pending := some h }))) ∧
    (∀ h : LinkHello, (s.dev.port n).state = .hello → (s.dev.port n).creditsKnown = false → 1 ≤ (s.dev.port n).hellosSeen →
      exec (.linkHello n h) s = .next (s.putDev (checkPartner (s.dev.modPort n fun x => { x with hellosSeen := x.hellosSeen + 1, pending := some h }) n h))) ∧
    (∀ cls count : Nat, (s.dev.port n).up = true → cls ∈ classesOf s.dev n →
      exec (.creditReturn n cls count) s = .next (s.putDev (pumpPort (s.dev.modPort n fun x => { x with credits := tmod x.credits cls 0 (· + count) }) n)))

/-- A port in service that loses a lane, exceeds its error limit, or is switched. PORT_ERR_LIMIT of a port in service
whose discards in the second pass FAB_PORT_CFG.ERR_LIMIT retrains, up to three times within ten minutes; at the fourth
the port goes to ERRORS (the model's reading, log 49). LANE_DEGRADE of a port in service that loses a lane while a
healthy pair is left, the partner being of version 1.1 or later: the port trains on that pair, keeping its credits and
queue (the model's reading, log 49), and a recovery of class LANE begins. FAB_PORT_CFG_WRITE with the rails on that
changes ENABLE and, of a spare, not MAP stores ENABLE and ERR_LIMIT alone, forgets attempts and retrains, brings the
port up or takes it down, ends a lane recovery under way as failed, and announces what it changed. Rests on
spec/07_igquel_links_and_routing.md. -/
def Obligations.LinkTroubleCompletes : Prop :=
  ∀ (n : Nat) (s : State),
    ((s.dev.port n).up = true → fld (s.dev.port n).cfg 15 8 < (s.dev.port n).discards →
      exec (.portErrLimit n) s = .next (s.putDev (let past := (s.dev.port n).retrains.filter fun t => decide (s.dev.time.now < t + 600000000000)
        if past.length ≥ 3 then setPort s.dev n fun x => { portReset x .errors with discards := 0, retrains := past }
        else startPort (s.dev.modPort n fun x => { x with discards := 0, retrains := past ++ [s.dev.time.now] }) n))) ∧
    (∀ healthy pair : BitVec 4, (s.dev.port n).up = true → healthy &&& (s.dev.port n).lanes ≠ (s.dev.port n).lanes →
      0x11 ≤ (s.dev.port n).version.toNat → lanePair healthy = some pair →
      exec (.laneDegrade n healthy) s = .next (s.putDev (let d := setPort s.dev n fun x => { x with state := .training, lanes := pair }
        { d with rec_ := { d.rec_ with running := d.rec_.running ++ [⟨4, none, n, d.time.now⟩] } }))) ∧
    (∀ v : U32, s.dev.pwr.rails = true → n < 48 → (44 ≤ n → fld v 7 2 = fld (s.dev.port n).cfg 7 2) →
      bit (s.dev.port n).cfg 0 ≠ bit v 0 →
      exec (.fabPortCfgWrite n v) s = .next (s.putDev (let e := s.dev.modPort n fun x => { x with cfg := merge (ones 32 0 0 ||| ones 32 15 8) (s.dev.port n).cfg v }
        linksNoted s.dev (laneFailed (e.modPort n fun x => startState e n { x with attempts := 0, retrains := [] }) n))))

/-- Cells of the fabric: their 80 bytes, forwarding, link states, the exclusion cache. A sound cell with a 64-byte
payload is spelt back by its image of 80 bytes, every field at every value. A cell that the checks pass and that is
addressed elsewhere is routed on. A delivered LINK_STATE of another device of the rack sets that device's 28 entries
of the link table and nothing else. LINK_STATE_PERIOD with the optics lit announces this device's links. A delivered
UNREACH counts error 0 and enters the destination and plane in the exclusion cache. ZEXCL_EXPIRE removes the entry of
its destination and plane and nothing else. Rests on spec/07_igquel_links_and_routing.md. -/
def Obligations.FabricCellsComplete : Prop :=
  (∀ (c : Cell) (x : BitVec 512), c.pay = .bits x → c.crcOk = true → (cellImage c).length = 80 ∧ imageCell (cellImage c) = c) ∧
  (∀ (port : Nat) (c : Cell) (s : State) (d : Dev), screen s.dev port c = .onward d →
    exec (.cellForward port c) s = .next (s.putDev (route d c))) ∧
  (∀ (port : Nat) (c : Cell) (s : State) (d : Dev), Delivered s.dev port c [tyLinkState] d → devRack c.src = rackNum d → c.src ≠ myId d →
    exec (.linkState port c) s = .next (s.putDev ({ d with fab := { d.fab with
      links := (List.range 28).foldl (fun t i => tput t (28 * devPos c.src + i) (fld (payBits c) (2 * i + 1) (2 * i))) d.fab.links } }))) ∧
  (∀ s : State, opticsOn s.dev = true → exec .linkStatePeriod s = .next (s.putDev (announce s.dev))) ∧
  (∀ (port : Nat) (c : Cell) (s : State) (d : Dev) (dest : DevId) (plane : BitVec 4), Delivered s.dev port c [tyUnreach] d →
    c.pay = .unreach dest plane →
    exec (.unreach port c) s = .next (s.putDev (enterZexcl (fabErr d 0) dest plane.toNat))) ∧
  (∀ (dest : DevId) (plane : Nat) (s : State),
    exec (.zexclExpire dest plane) s = .next (s.putDev ({ s.dev with fab := { s.dev.fab with
      zexcl := s.dev.fab.zexcl.filter fun z => !(z.dest == dest && z.plane == plane) } })))

/-- Rack-memory requests at their source. For the next request of a stream, queued, in a valid partition, passing the
checks of R217, with tokens in the fabric Weir and, where it uses DRAM for the partition, in the DRAM Weir, and no
poisoned source line. LOAD and STORE to this rack, FLAGGED_STORE without GLOBAL, ATOMIC, REDUCE_INTO and TARGET_FENCE,
a tag being free: the request is sent under that tag, or served here when it names this device. MULTICAST_STORE: its
copies are sent under the tag. STREAM_FENCE: the request waits as a fence, the stream's write windows are flushed, and
what the fence can complete completes. Which source reads are charged is the model's reading (log 65). Rests on
spec/08_rack_memory.md. -/
def Obligations.RackRequestsAtSourceComplete : Prop :=
  ∀ (p st t : Nat) (s : State) (r : RmReq), nextOf s.dev p st = some r → r.phase = .queued → (s.dev.part p).valid = true →
    rqCheck (rqQuota s.dev p st r.order) p st r.desc = none → weirOk s.dev p 2 = true → rmWeirOk s.dev p st r.desc = true →
    rmPoisoned s.dev p st r = none →
    (rqOp r.desc = opFence → rqTgt r.desc = false →
      exec (.streamFence p st) s = .next (s.putDev (settle (flushStream (modReq s.dev (fun y => y.order == r.order) fun y => { y with phase := .waitFence }) p st) p st))) ∧
    (freeTag s.dev = some t →
      (rqOp r.desc = opLoad → otherRack s.dev r.desc = false → exec (.load p st) s = .next (s.putDev (rmSend s.dev r t))) ∧
      (rqOp r.desc = opStore → otherRack s.dev r.desc = false → exec (.store p st) s = .next (s.putDev (rmSend s.dev r t))) ∧
      (rqOp r.desc = opFlagged → rqGlobal r.desc = false → exec (.flaggedStore p st) s = .next (s.putDev (rmSend s.dev r t))) ∧
      (rqOp r.desc = opAtomic → exec (.atomic p st) s = .next (s.putDev (rmSend s.dev r t))) ∧
      (rqOp r.desc = opReduce → exec (.reduceInto p st) s = .next (s.putDev (rmSend s.dev r t))) ∧
      (rqOp r.desc = opMcast → exec (.multicastStore p st) s = .next (s.putDev (mcastSend s.dev r t))) ∧
      (rqOp r.desc = opFence → rqTgt r.desc = true → exec (.targetFence p st) s = .next (s.putDev (rmSend s.dev r t))))

/-- Rack-memory requests at their target. A delivered cell of RM_LOAD, RM_STORE, RM_ATOMIC, RM_REDUCE or RM_FENCE,
whose partition's DRAM Weir has tokens, which belongs to no request served before and completes its request: the
request is served, once, and answered. RM_MCAST that completes its request at a member that is no relay for it: the
same. A request cell of a partition whose DRAM Weir is empty stays in its input buffer (log 81). HELD_FLAG_WRITE of a
held flag or fence whose earlier writes are all done, under that Weir too: it leaves the store, is served and
answered. What tells a request served before is the model's reading (log 65). Rests on spec/08_rack_memory.md. -/
def Obligations.RackRequestsAtTargetComplete : Prop :=
  (∀ (port : Nat) (c : Cell) (s : State) (d d1 : Dev) (cmd : BitVec 512) (data : List Byte), rmLate d c = none →
    rmGather d c = (d1, some (cmd, data)) →
    let t := serveAndAnswer d1 c.src c.part.toNat c.tag.toNat cmd data c.retry
    (Served awaitsTokens s.dev port c [tyRmLoad] d → exec (.rmLoad port c) s = .next (s.putDev (t))) ∧
    (Served awaitsTokens s.dev port c [tyRmStore] d → exec (.rmStore port c) s = .next (s.putDev (t))) ∧
    (Served awaitsTokens s.dev port c [tyRmAtomic] d → exec (.rmAtomic port c) s = .next (s.putDev (t))) ∧
    (Served awaitsTokens s.dev port c [tyRmReduce] d → exec (.rmReduce port c) s = .next (s.putDev (t))) ∧
    (Served awaitsTokens s.dev port c [tyRmFence] d → exec (.rmFence port c) s = .next (s.putDev (t))) ∧
    (Served awaitsTokens s.dev port c [tyRmMcast] d → posY (myPos d) ≠ posY (devPos c.src) →
      bit (tgetD d.rm.mcast (ccGroup cmd) 0) (myPos d) = true → exec (.rmMcast port c) s = .next (s.putDev (t)))) ∧
  (∀ (port : Nat) (c : Cell) (s : State), awaitsTokens s.dev c = true →
    let t := holdCell s.dev port c
    (c.ty.toNat = tyRmLoad → exec (.rmLoad port c) s = .next (s.putDev (t))) ∧
    (c.ty.toNat = tyRmStore → exec (.rmStore port c) s = .next (s.putDev (t))) ∧
    (c.ty.toNat = tyRmAtomic → exec (.rmAtomic port c) s = .next (s.putDev (t))) ∧
    (c.ty.toNat = tyRmReduce → exec (.rmReduce port c) s = .next (s.putDev (t))) ∧
    (c.ty.toNat = tyRmFence → exec (.rmFence port c) s = .next (s.putDev (t))) ∧
    (c.ty.toNat = tyRmMcast → exec (.rmMcast port c) s = .next (s.putDev (t)))) ∧
  (∀ (src : DevId) (tag : BitVec 13) (p : Nat) (s : State) (h : HeldFlag),
    (s.dev.rm.heldFlags.find? fun h => h.src == src && h.part == p && h.tag == tag.toNat) = some h →
    lowerDone s.dev src p h.seq.toNat = true → weirOk s.dev p 0 = true →
    exec (.heldFlagWrite src tag p) s = .next (s.putDev (serveAndAnswer { s.dev with rm := { s.dev.rm with
      heldFlags := dropFirst (fun h => h.src == src && h.part == p && h.tag == tag.toNat) s.dev.rm.heldFlags } } src p tag.toNat h.cmd
        (h.data.flatMap fun b => toLe 64 b.toNat) false)))

/-- Merged reductions, held global flags, answers and timeouts of rack memory. A delivered RM_REDUCE_M or RM_MERGE,
its partition's DRAM Weir with tokens, joins its pair, which is applied once both are there; the model's choice, log
16: RM_MERGE lists the contributors with their tags. MERGE_PAIR_TIMEOUT discards the incomplete pair and the command
cell that came with it (log 16), and nothing else. FLAG_GLOBAL_SEND, every earlier request of the stream complete, no
write window left, the source data in the view and not poisoned, sends the flag under a free tag. A delivered RM_RESP
of a sent request that is no multicast is taken by it. RM_REQUEST_TIMEOUT of a sent request that is no multicast,
retries left: the retry and error 0 are counted and the whole request is sent again with RETRY. Rests on
spec/08_rack_memory.md; spec/07_igquel_links_and_routing.md. -/
def Obligations.RackAnswersAndTimeoutsComplete : Prop :=
  (∀ (port : Nat) (c : Cell) (s : State) (d : Dev), Served awaitsTokens s.dev port c [tyReduceM] d →
    exec (.rmReduceM port c) s = .next (s.putDev (settleMerges (modMerge d c fun m => { m with data := tput m.data c.off.toNat (payBits c) })))) ∧
  (∀ (port : Nat) (c : Cell) (s : State) (d : Dev), Served awaitsTokens s.dev port c [tyMerge] d →
    exec (.rmMerge port c) s = .next (s.putDev (settleMerges (modMerge d c fun m => { m with
      contributors := some ((mergeEntries c).map fun e => (BitVec.ofNat 16 (e % 65536), nfld e 28 16)) })))) ∧
  (∀ (src : DevId) (tag : BitVec 13) (p : Nat) (s : State),
    exec (.mergePairTimeout src tag p) s = .next (s.putDev ({ s.dev with rm := { s.dev.rm with
      merges := s.dev.rm.merges.filter fun m => !(m.src == src && m.part == p && m.tag == tag.toNat)
      rx := s.dev.rm.rx.filter fun m => !(m.src == src && m.part == p && m.tag == tag.toNat && m.ty == tyRmReduce && m.data.isEmpty) } }))) ∧
  (∀ (p st t : Nat) (s : State) (r : RmReq), nextOf s.dev p st = some r → r.phase = .heldFlag →
    (earlier s.dev r).all (fun y => y.phase == .merged && y.respStatus.isSome) = true → writeWins s.dev p st = [] →
    rqOutside (rqQuota s.dev p st r.order) p st r.desc = none → rmPoisoned s.dev p st r = none → freeTag s.dev = some t → exec (.flagGlobalSend p st) s = .next (s.putDev (rmSend s.dev r t))) ∧
  (∀ (port : Nat) (c : Cell) (s : State) (d : Dev) (r : RmReq), Delivered s.dev port c [tyRmResp] d →
    (d.rm.reqs.find? fun r => r.tag == some c.tag.toNat && r.part == c.part.toNat && r.phase == .sent) = some r →
    rqOp r.desc ≠ opMcast → exec (.rmResp port c) s = .next (s.putDev (respCell d r c))) ∧
  (∀ (tag : BitVec 13) (s : State) (r : RmReq),
    (s.dev.rm.reqs.find? fun r => r.tag == some tag.toNat && r.phase == .sent) = some r → r.retries < retryLimit r.cfg →
    rqOp r.desc ≠ opMcast →
    exec (.rmRequestTimeout tag) s = .next (s.putDev (resend (rmErr (modReq s.dev (fun y => y.order == r.order) fun y => { y with retries := y.retries + 1 }) 0) r.part r.cells)))

/-- The gateway to another rack. A delivered GW_WRITE cell that completes its transfer, every written byte in the
window that the partition exports, the transfer no duplicate and, in deterministic mode, its page free for this writer
in this step (log 26): the page is taken for the writer, the bytes of the mask are written, the DRAM Weir is charged
for them, and the write is answered OK. A delivered GW_READ of a window inside the export with no poisoned line is
answered with STATUS OK and the 4,096 bytes, the status in the cell of OFFSET 0 (the model's choice, log 28). A
delivered GW_DATA cell that does not complete its read window joins it. GW_IDLE_FLUSH flushes the write window of that
stream and base that is not being flushed. Rests on spec/08_rack_memory.md. -/
def Obligations.GatewayCommandsComplete : Prop :=
  (∀ (port : Nat) (c : Cell) (s : State) (d : Dev) (x : GwRx) (cmd : BitVec 512), Served awaitsTokens s.dev port c [tyGwWrite] d →
    c.off ≠ 0 →
    (d.rm.gwRx.find? fun y => y.src == c.src && y.part == c.part.toNat && y.tag == c.tag.toNat) = some x → x.cmd = some cmd →
    ((List.range 72).all fun i => (tget (tput x.cells c.off.toNat (payBits c)) (i + 1)).isSome) = true →
    findDup d c.src x.part x.tag opStore 0 c.retry = none → exported d x.part = true →
    ∀ cells set, cells = tput x.cells c.off.toNat (payBits c) →
      set = bitsSet 4096 (packNat ((List.range 8).map fun i => (512 * i, (tgetD cells (i + 1) 0).toNat))) →
      (set.all fun i => Machine.windowOk d x.part (ccOff cmd + i) 1) = true →
      ((d.part x.part).det = true → set ≠ [] → pageTaken d x.part (ccOff cmd) 1 c.src none = false) →
    exec (.gwWrite port c) s = .next (s.putDev (let data := (List.range 64).flatMap fun i => toLe 64 (tgetD cells (i + 9) 0).toNat
      let d := { d with rm := { d.rm with gwRx := d.rm.gwRx.filter fun y => !(y.src == c.src && y.part == c.part.toNat && y.tag == c.tag.toNat) } }
      let d := if (d.part x.part).det && !set.isEmpty then takePages d x.part (ccOff cmd) 1 c.src none else d
      let d := weirCharge d x.part 0 set.length
      let d := set.foldl (fun d i => writeRange d x.part false (ccOff cmd + i) [data.getD i 0]) d
      answer (enterDup d c.src x.part x.tag 0 opStore ⟨sOk, 0, []⟩) c.src x.part x.tag ⟨sOk, 0, []⟩))) ∧
  (∀ (port : Nat) (c : Cell) (s : State) (d : Dev), Served awaitsTokens s.dev port c [tyGwRead] d →
    Machine.windowOk d c.part.toNat (ccOff (payBits c)) 4096 = true → poisonAt d c.part.toNat false (ccOff (payBits c)) 4096 = none →
    exec (.gwRead port c) s = .next (s.putDev (let p := c.part.toNat
      let d1 := touchLines (weirCharge d p 0 4096) (locs d p false (ccOff (payBits c)) 4096)
      sendAll d1 p (mkCell d1 c.src 5 tyGwData p c.tag.toNat 0 (.bits (pack 512 [(0, sOk)])) ::
        (chunks 64 (readRange d p false (ccOff (payBits c)) 4096)).mapIdx fun i b => mkCell d1 c.src 5 tyGwData p c.tag.toNat (i + 1) (bytesPay b))))) ∧
  (∀ (port : Nat) (c : Cell) (s : State) (d : Dev) (w : GwWin), Delivered s.dev port c [tyGwData] d → c.off ≠ 0 →
    (d.rm.wins.find? fun w => w.tag == some c.tag.toNat && w.part == c.part.toNat && w.filling) = some w → 0 ∉ w.gotCells →
    exec (.gwData port c) s = .next (s.putDev (modWin d (fun w => w.tag == some c.tag.toNat && w.part == c.part.toNat && w.filling) fun _ =>
        { w with gotCells := c.off.toNat :: w.gotCells, filling := true
                 bytes := ((payBytes c).mapIdx fun i b => (64 * (c.off.toNat - 1) + i, b)).foldl (fun t y => tput t y.1 y.2) w.bytes }))) ∧
  (∀ (p st : Nat) (base : U64) (s : State) (w : GwWin), (s.dev.rm.wins.find? fun w => winKey p st base true w && !w.flushing) = some w →
    exec (.gwIdleFlush p st base) s = .next (s.putDev (flushWin s.dev w)))

/-- Collective chunks: slots reserved, chunk started, stage added. COLL_SLOTS_RESERVED, the request of the
communicator's first collective without slots at the head of the waiting ones of its pool and partition, and admitted:
the request is granted, the slots are held and the OPEN cells are due. CHUNK_START of the next chunk, its slot free,
fewer than 1,024 chunks in flight, tokens for the slots and a readable source: its slices become the own contribution
of the chunk's slot in the first stage, and the chunk counts as started. STAGE_SUM of a stage that gathers, every
contribution there and room in the next stage: the slices are written onward and charged. STAGE_SUM of a reducing
stage: the same with the added slices, flags reported. Rests on spec/09_rill_collectives.md. -/
def Obligations.CollectiveChunksComplete : Prop :=
  (∀ (p comm : Nat) (s : State) (x : Coll) (w : WaitReq) (is : List Nat) (d1 : Dev), slotless s.dev p comm = some x →
    (s.dev.cst.waits.find? fun w => w.pool == cmPool x.cm && w.part == p) = some w → w.who = .slots x.uid →
    grantWaiting s.dev (cmPool x.cm) p = (some (.slots x.uid, is), d1) →
    exec (.collSlotsReserved p comm) s = .next (s.putDev (seqPumpAll (settleColl (openColl d1 x.uid is) p comm)))) ∧
  (∀ (p comm : Nat) (s : State) (x : Coll) (st : Nat) (sts : List Nat) (own : Tbl (List Byte)), curC s.dev p comm = some x →
    x.stages = st :: sts → chunkReady s.dev x x.started = true → slotTokens s.dev x = true →
    let d0 := (List.range x.size).foldl (fun d j =>
      touched d p (ldSrc x.desc + j * ldLen x.desc + x.started * x.base) (sliceLen x x.started)) s.dev
    inputSlices d0 x x.started = .inr own →
    exec (.chunkStart p comm x.started) s = .next (s.putDev (let d := modC d0 x.uid fun x => { x with started := x.started + 1 }
      let d := modSlot (needSlot d x.uid st x.started) x.uid st x.started fun s => { s with own := some own }
      seqPumpAll (settleColl (chargeSlots d x (bytesIn own)) p comm)))) ∧
  (∀ (p comm st k : Nat) (s : State) (x : Coll) (sl : Slot) (own : Tbl (List Byte)), curC s.dev p comm = some x →
    getSlot x st k = some sl → sl.own = some own → sumReady x sl = true → slotTokens s.dev x = true →
    let d := chargeSlots s.dev x (bytesIn own + bytesIn sl.rx)
    (isReducing x st = false → exec (.stageSum p comm st k) s = .next (s.putDev (seqPumpAll (settleColl (writeOnward d x st k (gatherSlices x sl own)) p comm)))) ∧
    (∀ res fl, isReducing x st = true → reduceSlices d x sl own = .inr (res, fl) →
      exec (.stageSum p comm st k) s = .next (s.putDev (seqPumpAll (settleColl (writeOnward (if fl = 0 then d else rillFlag d p fl) x st k res) p comm)))))

/-- Collective transfers: data and EMPTY, acknowledgement, FREE, PROBE, NAK. For a posted collective and a sender that
is another member. A delivered first COLL_DATA cell of an awaited transfer of more than one cell joins it and charges
the slots. COLL_EMPTY of an awaited empty transfer completes it. COLL_ACK of a transfer marks it acknowledged and
takes the peer's FREED. COLL_FREE takes FREED alone. COLL_PROBE is answered FREE with this member's FREED. COLL_NAK of
a transfer not acknowledged retries it as a timeout does. Where communicators of the partition have buckets, the
sequencers may post after each. What a member awaits, and that a repeated NAK is retried up to RETRIES, is the model's
reading (logs 66, 74). Rests on spec/09_rill_collectives.md. -/
def Obligations.CollectiveTransfersComplete : Prop :=
  ∀ (port : Nat) (c : Cell) (s : State) (d : Dev) (x : Coll) (r : Nat), rankOfDev x c.src = some r →
    (∀ k, Served slotAwaits s.dev port c [tyCollData] d → curC d c.part.toNat (tagComm c) = some x →
      matched x r = true → x.opened = true → tagStage c ∈ x.stages → r ∈ stagePeers x (tagStage c) →
      chunkNamed x (tagStage c) (fld c.tag 1 0) (fld c.off 22 17) = some k → 64 < needBytes x (tagStage c) k r →
      isReleased x (tagStage c) k = false →
      (∀ sl, getSlot x (tagStage c) k = some sl → tget sl.rx r = none ∧ tget sl.cells r = none) →
      fld c.off 16 0 < divUp (needBytes x (tagStage c) k r) 64 →
      (∃ sl, (findC (needSlot d x.uid (tagStage c) k) x.uid).bind (fun x => getSlot x (tagStage c) k) = some sl ∧ tget sl.cells r = none) →
      exec (.collData port c) s = .next (s.putDev (seqPumpAll
        (modSlot (chargeSlots (needSlot d x.uid (tagStage c) k) x 64) x.uid (tagStage c) k fun s =>
          { s with cells := tput s.cells r (tput [] (fld c.off 16 0) (payBits c)) })))) ∧
    (Delivered s.dev port c [tyCollAck] d → seqC d c.part.toNat (tagComm c) (ctlSeq c) = some x → x.ended = false →
      (ctlKind c = kEmpty → matched x r = true → x.opened = true → ctlChunk c < x.nchunk → tagStage c ∈ x.stages →
        r ∈ stagePeers x (tagStage c) → needBytes x (tagStage c) (ctlChunk c) r = 0 → isReleased x (tagStage c) (ctlChunk c) = false →
        (∀ sl, getSlot x (tagStage c) (ctlChunk c) = some sl → tget sl.rx r = none) → ctlChunk c < freedOf x (tagStage c) + 4 →
        exec (.collEmpty port c) s = .next (s.putDev (seqPumpAll (takeTransfer (needSlot d x.uid (tagStage c) (ctlChunk c)) x (tagStage c) (ctlChunk c) r [])))) ∧
      (ctlKind c = kAck → tagStage c ≠ 7 → exec (.collAck port c) s = .next (s.putDev (let d := modOutC d x.uid (tagStage c) (ctlChunk c) r fun o => { o with acked := true, timing := false }
        seqPumpAll (settleColl (noteFreed d x (tagStage c) r (fld (payBits c) 159 128)) x.part x.comm)))) ∧
      (ctlKind c = kFree → exec (.collFree port c) s = .next (s.putDev (seqPumpAll (settleColl (noteFreed d x (tagStage c) r (fld (payBits c) 159 128)) x.part x.comm)))) ∧
      (ctlKind c = kProbe → exec (.collProbe port c) s = .next (s.putDev (seqPumpAll (sendCtl d x r (tagStage c) 0 kFree [(128, freedOf x (tagStage c))])))) ∧
      (∀ o, ctlKind c = kNak → outOf x (tagStage c) (ctlChunk c) r = some o → o.acked = false → o.isEmpty = false →
        exec (.collNak port c) s = .next (s.putDev (seqPumpAll (collRetry d x o)))))

/-- Collective control cells: OPEN, OPEN_ACK, ABORT, MISMATCH. A delivered OPEN, ABORT or MISMATCH of a valid
partition is acknowledged (OPEN_ACK; ACK with CHUNK FFFFFFFFH; ACK with CHUNK FFFFFFF0H + LEVEL). For a posted
collective the cell is then taken by it. For a collective that this communicator has already gone past, the answer is
all. For one not yet posted, a cell not kept before is kept and answered while the 262,144-byte store has room for it;
an OPEN beyond that is counted (error 3) and not answered. That ABORT and MISMATCH are kept beside the OPENs in that
store is the model's reading (log 66). OPEN_ACK from a member drops the kept OPEN and records the acknowledgement,
once. Rests on spec/09_rill_collectives.md. -/
def Obligations.CollectiveControlComplete : Prop :=
  ∀ (port : Nat) (c : Cell) (s : State) (d : Dev), Delivered s.dev port c [tyCollAck] d → (d.part c.part.toNat).valid = true →
    let p := c.part.toNat
    let m := tagComm c
    let mm := 0xFFFFFFF0 + fld (payBits c) 39 38
    let keep := fun d : Dev => { d with rill := { d.rill with store := d.rill.store ++ [c] } }
    let kept := d.rill.store.any fun e => e.src == c.src && e.part == c.part && tagComm e == tagComm c && payBits e == payBits c
    (∀ x, seqC d p m (ctlSeq c) = some x →
      (ctlKind c = kOpen → exec (.collOpen port c) s = .next (s.putDev (seqPumpAll (settleColl (takeOpen (answerColl d c kOpenAck 0) x.uid c) p m)))) ∧
      (ctlKind c = kAbort → exec (.collAbort port c) s = .next (s.putDev (seqPumpAll (settleColl (takeAbort (answerColl d c kAck 0xFFFFFFFF) x.uid c) p m)))) ∧
      (ctlKind c = kMismatch → exec (.collMismatch port c) s = .next (s.putDev (seqPumpAll (settleColl (takeMismatch (answerColl d c kAck mm) x.uid c) p m))))) ∧
    (seqC d p m (ctlSeq c) = none → cmValid (commOf d p m) = true → ctlSeq c < cmNext (commOf d p m) →
      (ctlKind c = kOpen → exec (.collOpen port c) s = .next (s.putDev (seqPumpAll (answerColl d c kOpenAck 0)))) ∧
      (ctlKind c = kAbort → exec (.collAbort port c) s = .next (s.putDev (seqPumpAll (answerColl d c kAck 0xFFFFFFFF)))) ∧
      (ctlKind c = kMismatch → exec (.collMismatch port c) s = .next (s.putDev (seqPumpAll (answerColl d c kAck mm))))) ∧
    (seqC d p m (ctlSeq c) = none → cmNext (commOf d p m) ≤ ctlSeq c → kept = false → 64 * (d.rill.store.length + 1) ≤ 262144 →
      (ctlKind c = kOpen → exec (.collOpen port c) s = .next (s.putDev (seqPumpAll (answerColl (keep d) c kOpenAck 0)))) ∧
      (ctlKind c = kAbort → exec (.collAbort port c) s = .next (s.putDev (seqPumpAll (answerColl (keep d) c kAck 0xFFFFFFFF)))) ∧
      (ctlKind c = kMismatch → exec (.collMismatch port c) s = .next (s.putDev (seqPumpAll (answerColl (keep d) c kAck mm))))) ∧
    (seqC d p m (ctlSeq c) = none → cmNext (commOf d p m) ≤ ctlSeq c → kept = false → 262144 < 64 * (d.rill.store.length + 1) →
      (ctlKind c = kOpen → exec (.collOpen port c) s = .next (s.putDev (seqPumpAll (rillErr d 3)))) ∧
      (ctlKind c = kAbort → exec (.collAbort port c) s = .next (s.putDev (seqPumpAll d))) ∧
      (ctlKind c = kMismatch → exec (.collMismatch port c) s = .next (s.putDev (seqPumpAll d)))) ∧
    (∀ x r, ctlKind c = kOpenAck → seqC (dropKept d c kOpen 0) c.part.toNat (tagComm c) (ctlSeq c) = some x → rankOfDev x c.src = some r →
      exec (.collOpenAck port c) s = .next (s.putDev (seqPumpAll (settleColl (modC (dropKept d c kOpen 0) x.uid fun x =>
        if x.openAcked.contains r then x else { x with openAcked := x.openAcked ++ [r] }) x.part x.comm))))

/-- Timers and queries of collectives and barriers. COLL_TRANSFER_TIMEOUT of a transfer whose timer runs retries it.
COLL_WINDOW_PROBE, a transfer of the stage ready and its window closed: PROBE is sent to the peer. COLL_CONTROL_RESEND
resends with RETRY every kept cell of that KIND to that peer. PEER_QUERY_TIMER runs the asking engine's query. A
delivered PEER_QUERY is answered with the PEER_STATE of the engine it names. A delivered PEER_STATE goes to the engine
it names. PEER_QUERY_UNANSWERED of a query still open escalates the peer. Rests on spec/09_rill_collectives.md;
spec/05_sluice_exchange.md. -/
def Obligations.CollectiveTimersAndQueriesComplete : Prop :=
  (∀ (p comm st k peer : Nat) (s : State) (x : Coll) (o : CollXfer), curC s.dev p comm = some x → outOf x st k peer = some o →
    o.acked = false → o.timing = true → exec (.collTransferTimeout p comm st k peer) s = .next (s.putDev (seqPumpAll (collRetry s.dev x o)))) ∧
  (∀ (p comm st peer : Nat) (s : State) (x : Coll) (sl : Slot), curC s.dev p comm = some x → sl ∈ x.slots → sl.stage = st →
    sl.own.isSome = true → peer ∈ sl.unsent → windowOpen x st sl.chunk peer = false →
    exec (.collWindowProbe p comm st peer) s = .next (s.putDev (seqPumpAll (sendCtl s.dev x peer st 0 kProbe [])))) ∧
  (∀ (p comm kind peer : Nat) (s : State), kind ≠ kEmpty → exec (.collControlResend p comm kind peer) s = .next (s.putDev (seqPumpAll (sendAll s.dev p ((s.dev.rill.ctl.filter fun k => k.part == p && k.comm == comm && k.kind == kind && k.peer == peer).map
      fun k => { k.cell with retry := true }))))) ∧
  (∀ (p : Nat) (id : U32) (dev : DevId) (s : State),
    exec (.peerQueryTimer true p id dev) s = .next (s.putDev (rillQueryTimer p id dev s.dev)) ∧
    exec (.peerQueryTimer false p id dev) s = .next (s.putDev (slcQueryTimer p id dev s.dev))) ∧
  (∀ (port : Nat) (c : Cell) (s : State) (d : Dev), Delivered s.dev port c [tyPeerQuery] d →
    exec (.peerQuery port c) s = .next (s.putDev (let p := c.part.toNat
      let id := fld (payBits c) 63 32
      let seq := fld (payBits c) 95 64
      let a := if bit (payBits c) 0 then rillState d p id seq else slcState d p (BitVec.ofNat 32 id)
      route d (mkCell d c.src 0 tyPeerState p 0 0 (.bits (queryPay (bit (payBits c) 0) a.1 a.2 id seq)))))) ∧
  (∀ (port : Nat) (c : Cell) (s : State) (d : Dev), Delivered s.dev port c [tyPeerState] d →
    (bit (payBits c) 0 = true → exec (.peerState port c) s = .next (s.putDev (seqPumpAll (rillPeerState c d)))) ∧
    (bit (payBits c) 0 = false → exec (.peerState port c) s = .next (s.putDev (slcPeerState c d)))) ∧
  (∀ (rill : Bool) (p : Nat) (id : U32) (dev : DevId) (s : State), (∃ q ∈ s.dev.slc.queries, q.rill = rill ∧ q.part = p ∧ q.id = id ∧ q.dev = dev) →
    exec (.peerQueryUnanswered rill p id dev) s = .next (s.putDev (escalate s.dev dev false)))

/-- Memory and flash maintenance. With the rails on. DRAM_PATROL_SCRUB of a DRAM address: a new scrub period begins
when it is due; a corrected error is counted against its row (a free map, log 36), an uncorrectable one poisons the
line. Of an address in the SRAM of a physical core or in Cistern SRAM (the model's choice, log 71): coreSramError or
cisternError is applied, and CE of a core is up by one, saturating, after a corrected error. ROW_SPARE_DONE and
BANK_SPARE_DONE of a sparing in progress: it ends, its counter rises and RECOVERED is reported. FLASH_PATROL_SCRUB of
an erase block in use: its reads are counted, and what they find is found; then a corrected result is logged and,
beyond the limit with no relocation waiting, queues one, and an uncorrectable result loses the erase block's first
live block (the model's choice, log 38). FLASH_RELOCATION of a block queued for read disturb: its live blocks move, it
is erased and the relocation is counted. Rests on spec/11_memory_tiers.md. -/
def Obligations.MaintenanceCommandsComplete : Prop :=
  (∀ (a n : Nat) (s : State), s.dev.pwr.rails = true → a < winBase →
    exec (.dramPatrolScrub a .clean) s = .next (s.putDev (scrubPeriod s.dev)) ∧
    exec (.dramPatrolScrub a (.corrected n)) s = .next (s.putDev (correctedLine (scrubPeriod s.dev) a)) ∧
    exec (.dramPatrolScrub a .uncorrectable) s = .next (s.putDev (poisonLine (scrubPeriod s.dev) a))) ∧
  (∀ (pc o n : Nat) (s : State), s.dev.pwr.rails = true → pc < 36 → o < 0x1000000 →
    (∀ r, exec (.dramPatrolScrub (winBase + 0x1000000 * pc + o) r) s = .next (s.putDev (coreSramError s.dev pc o r))) ∧
    ((coreSramError s.dev pc o (.corrected n)).core pc).ce = satAdd (s.dev.core pc).ce 1) ∧
  (∀ (o : Nat) (r : MediaResult) (s : State), s.dev.pwr.rails = true → cstBase + o < cstTop →
    exec (.dramPatrolScrub (cstBase + o) r) s = .next (s.putDev (cisternError s.dev o r))) ∧
  (∀ (row chan t : Nat) (s : State), (s.dev.mem.rowSparing.find? fun x => x.1 == row) = some (row, chan, t) →
    exec (.rowSpareDone row) s = .next (s.putDev (recoveryEvent (memErr { s.dev with mem := { s.dev.mem with
      rowSparing := dropFirst (fun x => x.1 == row) s.dev.mem.rowSparing } } 1) sRecovered 0x02 none 2 chan (usSince s.dev t) 0))) ∧
  (∀ (chan bank t : Nat) (s : State), (s.dev.mem.bankSparing.find? fun x => x.1 == chan) = some (chan, bank, t) →
    exec (.bankSpareDone chan) s = .next (s.putDev (recoveryEvent (memErr { s.dev with mem := { s.dev.mem with
      bankSparing := dropFirst (fun x => x.1 == chan) s.dev.mem.bankSparing
      bankRows := tdel s.dev.mem.bankRows (64 * bank + chan), badRows := tdel s.dev.mem.badRows (64 * bank + chan) } } 2)
      sRecovered 0x03 none 2 chan (usSince s.dev t) 0))) ∧
  (∀ (eb bits : Nat) (s : State) (d : Dev), s.dev.pwr.rails = true → eb < ebTotal → eb ∈ s.dev.ftl.used →
    d = flashRead s.dev (liveIn s.dev.ftl eb) → eb ∉ d.ftl.retired →
    (let e := logOp d sevWarning none srcFtl sOk 0 0xFFFF eb bits
     exec (.flashPatrolScrub eb (.corrected bits)) s = .next (s.putDev (if bits > fld e.ftl.cfg 47 40 ∧ !(e.ftl.relocQ.any fun x => x.1 == eb) then
          { e with ftl := { e.ftl with relocQ := e.ftl.relocQ ++ [(eb, 1)] } }
        else e))) ∧
    (∀ (key : Nat) (rest : List Nat), liveIn d.ftl eb = key :: rest →
      exec (.flashPatrolScrub eb .uncorrectable) s = .next (s.putDev (loseKey d key)))) ∧
  (∀ (eb : Nat) (s : State), (s.dev.ftl.relocQ.find? fun x => x.1 == eb) = some (eb, 0) →
    exec (.flashRelocation eb) s = .next (s.putDev (ftlErr { moveLive s.dev eb with ftl := checkSpread (eraseEb (moveLive s.dev eb).ftl eb) } 0)))

/-- The KV page manager and waiting buffer requests. MEM_KV_CFG written with the rails on, all its words in one write
(log 10), and EN clear: its fields are taken, CFG_ERR is cleared and the manager holds nothing. With EN set and a
configuration that may take effect: every pool page is free and every sequence entry is zeroed. With EN set otherwise:
CFG_ERR alone changes, and the write is logged as ignored. KV_BOUNDARY, one or more being due, the manager enabled and
no copy unfinished, with a change list inside the quota and no loss in what the manager reads: one boundary fewer is
due, the last one's copies are finished, the list is processed and the manager's semaphore rises by one; with a loss
there it is reported and the semaphore rises (the model's reading, log 68). KV_COPY_DONE with tokens in both Weirs:
the blocks are copied, the Weirs charged and the copy is done. WAITING_REQUEST_GRANT that the rule admits: the asker
gets its buffers. RETRY_HOLD_EXPIRY: the first such hold of the named engine ends; that its operands name the engine
by 0 to 2 and a hold of Rill by its partition, communicator and peer is the model's choice (log 80). Rests on
spec/11_memory_tiers.md; spec/12_cistern_and_dma.md. -/
def Obligations.KvAndGrantCommandsComplete : Prop :=
  (∀ (p : Nat) (v : BitVec 320) (s : State), s.dev.pwr.rails = true → p < 16 →
    (bit (v &&& kvMask) 0 = false → exec (.memKvCfgWrite p v) s = .next (s.putDev (s.dev.modPart p fun x => { x with
      kvCfg := v &&& kvMask, kvCfgErr := false, kvSlots := [], kvCopies := [], kvDue := 0, kvFree := [] }))) ∧
    (bit (v &&& kvMask) 0 = true → kvCfgOk s.dev p (v &&& kvMask) = true → exec (.memKvCfgWrite p v) s = .next (s.putDev (writeRange (s.dev.modPart p fun x => { x with
        kvCfg := v &&& kvMask, kvCfgErr := false, kvSlots := [], kvCopies := [], kvDue := 0
        kvFree := List.range (kvNpage (v &&& kvMask)) }) p false (kvTab (v &&& kvMask))
        (List.replicate (16 * kvMaxSeq (v &&& kvMask)) 0)))) ∧
    (bit (v &&& kvMask) 0 = true → kvCfgOk s.dev p (v &&& kvMask) = false → exec (.memKvCfgWrite p v) s = .next (s.putDev (logIgnored (s.dev.modPart p fun x => { x with kvCfgErr := true }) srcMem (.memKvCfg p 0) (fld v 63 0))))) ∧
  (∀ (p : Nat) (s : State) (cs : List KvChange), (s.dev.part p).kvDue ≠ 0 → kvEn (s.dev.part p) = true →
    ((s.dev.part p).kvCopies.all fun k => k.done) = true →
    let d := kvTouched (kvFinish (s.dev.modPart p fun x => { x with kvDue := x.kvDue - 1 }) p) p
    (kvLoss d p = none → kvChanges d p = some cs →
      exec (.kvBoundary p) s = .next (s.putDev (addSem (kvProcess d p cs) p (kvSem (s.dev.part p)) 1))) ∧
    (∀ a, kvLoss d p = some a →
      exec (.kvBoundary p) s = .next (s.putDev (addSem (lossHere d p 0 a) p (kvSem (s.dev.part p)) 1)))) ∧
  (∀ (p q : Nat) (s : State) (k : KvCopy), ((s.dev.part p).kvCopies.find? fun k => k.seq == q && !k.done) = some k →
    weirOk s.dev p 0 = true → weirOk s.dev p 1 = true → exec (.kvCopyDone p q) s = .next (s.putDev (let x := s.dev.part p
      let n := k.pages.length * kvPsize x.kvCfg
      let blocks := ((tgetD x.kvSlots q []).zip k.pages).flatMap fun y =>
        (slotKeys s.dev p y.1).mapIdx fun i key => (key, kvPool x.kvCfg + y.2 * kvPsize x.kvCfg + i * blockSize)
      (weirCharge (weirCharge (blocks.foldl (if k.suspend then kvOut p else kvIn p) s.dev) p 0 n) p 1 n).modPart p fun z => { z with
        kvCopies := updFirst (fun y => y.seq == q && !y.done) (fun y => { y with done := true }) z.kvCopies }))) ∧
  (∀ (g p : Nat) (s : State) (who : WaitFor) (is : List Nat) (d : Dev), grantWaiting s.dev g p = (some (who, is), d) →
    exec (.waitingRequestGrant g p) s = .next (s.putDev (seqPumpAll (handOver d g p who is)))) ∧
  (∀ (id peer : Nat) (s : State),
    exec (.retryHoldExpiry 0 id peer) s = .next (s.putDev ({ s.dev with slc := { s.dev.slc with
      holds := dropFirst (fun h => h.tag == id && h.peer.toNat == peer) s.dev.slc.holds } })) ∧
    exec (.retryHoldExpiry 1 id peer) s = .next (s.putDev ({ s.dev with rm := { s.dev.rm with
      holds := dropFirst (fun h => h.tag == id && h.peer.toNat == peer) s.dev.rm.holds } })) ∧
    exec (.retryHoldExpiry 2 id peer) s = .next (s.putDev (seqPumpAll (rillHoldExpiry (id / 256) (id % 256) peer s.dev))))

/-- Fetching and completing bulk descriptors. DMA_FETCH of an enabled running channel with fewer than 16 descriptors
held, its semaphore above zero, a readable ring entry without loss, and tokens in the DRAM Weir: KICK_SEM falls by
one, the fetch is charged and HEAD advances round the ring. With OWN clear the entry is skipped, counted and logged;
with OWN set and an OP of 1 to 8 it is held unstarted, and the engine loads its sets. DESCRIPTOR_COMPLETE of a ring
channel's oldest descriptor, done with status 0 and started, with tokens in the DRAM Weir: the status word is written,
then OWN is cleared, then DONE_SEM rises where SIG_EN asks, the channel counts it, and the engine goes on. Rests on
spec/12_cistern_and_dma.md. -/
def Obligations.DmaFetchAndCompletionComplete : Prop :=
  (∀ (ch : Nat) (s : State), fetchReady s.dev ch = true →
    ∀ p a w d, p = (chanOf s.dev ch).part → a = (chanOf s.dev ch).ring.toNat + 64 * (chanOf s.dev ch).head →
    okNew s.dev p false a 64 = true → poisonAt s.dev p false a 64 = none → w = readWord s.dev p false 512 a →
    d = modChan (chargeRange (setSem s.dev p (chanOf s.dev ch).kickSem (semOf s.dev p (chanOf s.dev ch).kickSem - 1)) p a 64) ch
      (fun c => { c with head := (c.head + 1) % c.ringLen }) →
    (bdOwn w = false → exec (.dmaFetch ch) s = .next (s.putDev (logCounted (dmaErr d 0) sevNotice srcDma (.dmaErr 0) ch (tgetD (dmaErr d 0).dma.err 0 0).toNat))) ∧
    (bdOwn w = true → 1 ≤ bdOp w → bdOp w ≤ 8 → exec (.dmaFetch ch) s = .next (s.putDev (let x : Desc :=
        { part := p, addr := a, w := w, step := (d.part p).step, started := false, done := false, halfDone := false
          status := 0, cause := 0, flags := 0, moved := 0, parts := [], outstanding := 0, acked := [], out := [] }
      loadEngine (modChan d ch fun c => { c with fetched := c.fetched ++ [x] }) (ch / 8))))) ∧
  (∀ (ch : Nat) (s : State) (x : Desc) (rest : List Desc), (chanOf s.dev ch).fetched = x :: rest → x.done = true → ch % 8 ≠ 7 →
    x.status = 0 → x.started = true → weirOk s.dev x.part 0 = true → exec (.descriptorComplete ch) s = .next (s.putDev (let p := x.part
      let d := chargeRange (writeRange s.dev p false (x.addr + 56) (statusWord x)) p (x.addr + 56) 8
      let d := chargeRange (writeRange d p false x.addr (toLe 1 (fld x.w 7 0 % 16 + fld x.w 7 5 * 32))) p x.addr 1
      let d := if bdSigEn x.w then addSem d p (bdSem x.w) 1 else d
      let d := countEnd (modChan d ch fun c => { c with fetched := rest }) ch x
      loadEngine (modEng d (ch / 8) fun g => if g.active = some ch then { g with active := none } else g) (ch / 8))))

/-- The bulk operations. For a channel of a partition whose descriptor is its engine's active one, not started, of the
command's OP, with tokens in the Weirs that OP needs. A descriptor that fails its checks for a field or for a disabled
pool ends BAD_FIELD with that cause, and nothing else changes, but that a fabric channel goes on to the requests it
still has. One that passes, against the quotas in full where a lowering waits for it: COPY, FLASH_READ and FLASH_WRITE
move their data and end as copyDesc, flashReadDesc and flashWriteDesc say; FLASH_TRIM trims every block and ends OK;
FABRIC_READ and FABRIC_WRITE hand their requests, cut at 256 bytes, and a stream fence to the channel's stream; ALLOC
that the pool grants writes the buffer addresses and ends OK; FREE of a readable list that passes returns the buffers
and ends OK. What a copy leaves in an overlap or before a loss is the model's choice (logs 37, 39). Rests on
spec/12_cistern_and_dma.md; spec/11_memory_tiers.md. -/
def Obligations.BulkOperationsComplete : Prop :=
  ∀ (ch : Nat) (s : State) (x : Desc), (engOf s.dev (ch / 8)).active = some ch →
    (standing (chanOf s.dev ch)).head? = some x → x.started = false → ch % 8 ≠ 7 →
    bdWeirOk s.dev x.part (bdOp x.w) = true →
    let p := x.part
    let y := { x with started := true }
    let put := fun (r : Dev × Desc) => modChan r.1 ch fun c => { c with fetched := updFirst (fun y => !y.done) (fun _ => r.2) c.fetched }
    (∀ cause, cause ≠ 2 → bdCheck (opQuota s.dev p (frontOp s.dev ch)) p x.w = some cause →
      let t := { s with dev := put (s.dev, y.finish sBadField cause) }
      (bdOp x.w = 1 → exec (.copy ch) s = .next t) ∧ (bdOp x.w = 2 → exec (.flashRead ch) s = .next t) ∧
      (bdOp x.w = 3 → exec (.flashWrite ch) s = .next t) ∧ (bdOp x.w = 4 → exec (.flashTrim ch) s = .next t) ∧
      (bdOp x.w = 5 → exec (.fabricRead ch) s = .next (s.putDev (dmaPump (put (s.dev, y.finish sBadField cause)) ch))) ∧
      (bdOp x.w = 6 → exec (.fabricWrite ch) s = .next (s.putDev (dmaPump (put (s.dev, y.finish sBadField cause)) ch))) ∧
      (bdOp x.w = 7 → exec (.alloc ch) s = .next t) ∧ (bdOp x.w = 8 → exec (.free ch) s = .next t)) ∧
    (bdCheck (opQuota s.dev p (frontOp s.dev ch)) p x.w = none →
      (bdOp x.w = 1 → exec (.copy ch) s = .next (s.putDev (put (copyDesc s.dev p ch y)))) ∧
      (bdOp x.w = 2 → exec (.flashRead ch) s = .next (s.putDev (put (flashReadDesc s.dev p ch y)))) ∧
      (bdOp x.w = 3 → exec (.flashWrite ch) s = .next (s.putDev (put (flashWriteDesc s.dev p ch y)))) ∧
      (bdOp x.w = 4 → exec (.flashTrim ch) s = .next (s.putDev (put (weirCharge ((flashKeys s.dev p (bdDst x.w) (bdLen x.w)).foldl trimBlock s.dev) p 1 (bdLen x.w),
          { y.finish sOk 0 with moved := bdLen x.w })))) ∧
      (bdOp x.w = 5 → exec (.fabricRead ch) s = .next (s.putDev (dmaPump (put (s.dev, { y with parts := descParts x.w })) ch))) ∧
      (bdOp x.w = 6 → exec (.fabricWrite ch) s = .next (s.putDev (dmaPump (put (s.dev, { y with parts := descParts x.w })) ch))) ∧
      (∀ is d, bdOp x.w = 7 → allocTest s.dev (bdPool x.w) p (bdLen x.w) = none →
        takeBufs s.dev (bdPool x.w) p (bdLen x.w) false = (is, d) → exec (.alloc ch) s = .next (s.putDev (let d1 := chargeRange d p (bdDst x.w) (8 * bdLen x.w)
          put (writeRange d1 p false (bdDst x.w) (is.flatMap fun i => toLe 8 ((poolOf d1 (bdPool x.w)).bufAddr i)),
            { y.finish sOk 0 with moved := bdLen x.w })))) ∧
      (∀ is, bdOp x.w = 8 → poisonAt s.dev p false (bdSrc x.w) (8 * bdLen x.w) = none →
        freeTests (chargeRange s.dev p (bdSrc x.w) (8 * bdLen x.w)) (bdPool x.w) p []
          ((chunks 8 (readRange s.dev p false (bdSrc x.w) (8 * bdLen x.w))).map leNat) = .inl is →
        exec (.free ch) s = .next (s.putDev (put (freeBufs (chargeRange s.dev p (bdSrc x.w) (8 * bdLen x.w)) (bdPool x.w) is, { y.finish sOk 0 with moved := bdLen x.w })))))

/-- Placing tasks, hand-overs and pre-emption. TASK_PLACE on a free core: the partition chosen is noted as placed last
in its class; its queued task is loaded, or its saved context of this core comes back with its planes and banks; a
basking core wakes, another begins the task. PREEMPT for a waiting task of an active partition that may pre-empt, not
pre-empting yet, with no core free for it (the pinned one, or any) and a victim on a core it may use: the victim is
noted, counted, and stops issuing. HANDOVER_DONE: the outgoing view is saved, the incoming one restored where its
partition still holds the core; the core that a pre-emption holds takes the waiting task, another begins its task.
BASKING_ENTRY of an idle core, Basking on: it basks. CORE_WAKE_DONE of a waking core that no recovery uses: it is
idle, and its task begins. WEIR_FILL of a valid partition with a rate: the bucket rises, at most to its depth. When a
core is free and which task waits is the model's reading (logs 61, 67). Rests on spec/13_partitions_scheduling.md;
spec/03_expert_core.md. -/
def Obligations.SchedulerPlacementComplete : Prop :=
  (∀ (n pc p : Nat) (s : State) (o : Option QEntry) (d : Dev), coreOf s.dev n = some pc → coreFree (s.dev.core pc) = true →
    (placeOrder s.dev).findSome? (fun p => (taskFor s.dev p n).map fun q => (p, q)) = some (p, o) →
    ((∃ q, o = some q ∧ d = loadFresh (placed s.dev p) pc p q) ∨
     (∃ x, o = none ∧ tget ((placed s.dev p).part p).ctxs n = some x ∧
       d = ((placed s.dev p).modPart p fun y => { y with ctxs := tdel y.ctxs n }).modCore pc fun c => { c with
         task := some x.task, part := p, plane0 := x.plane0, plane1 := x.plane1, acc0 := x.acc0, acc1 := x.acc1 })) →
    ((s.dev.core pc).st = .basking → exec (.taskPlace n) s = .next (s.putDev (d.modCore pc fun c => { c with st := .waking }))) ∧
    ((s.dev.core pc).st ≠ .basking → exec (.taskPlace n) s = .next (s.putDev (beginTask d pc)))) ∧
  (∀ (p i pc : Nat) (s : State) (q : QEntry) (cands : List Nat), (s.dev.part p).queue[i]? = some q → (s.dev.part p).st = .active →
    mayPreempt s.dev (s.dev.part p).cls = true → eligible s.dev p q = true →
    (∀ y ∈ s.dev.sched.preempting, ¬ (y.1 = p ∧ y.2.1 = q.sub ∧ y.2.2.1 = q.index)) →
    (pinnedTo s.dev p q = none ∧ firstFree s.dev p = none ∧ cands = (coreSet (s.dev.part p)).filter (takesQueued (s.dev.part p)) ∨
     ∃ n, pinnedTo s.dev p q = some n ∧ coreFree (lcoreCore s.dev n) = false ∧ cands = [n].filter (takesQueued (s.dev.part p))) →
    victimFor s.dev p cands = some pc →
    exec (.preempt p i) s = .next (s.putDev (settleCore (schErr { s.dev with sched := { s.dev.sched with
      preempting := s.dev.sched.preempting ++ [(p, q.sub, q.index, pc)] } } 0) pc))) ∧
  (∀ (n pc : Nat) (s : State) (h : Handover), coreOf s.dev n = some pc → (s.dev.core pc).handover = some h →
    ∀ victim d d1, victim = (match (s.dev.core pc).task with
      | some t => h.outPart == some t.part && h.inPart != some t.part
      | none => false) →
    d = (match h.outPart with
      | some z => if (s.dev.part z).valid then saveOut s.dev pc n z victim else s.dev
      | none => s.dev) →
    d1 = restoreIn d pc n (h.inPart.filter fun p => bit (d.part p).coreset n) →
    ((d1.sched.preempting.find? fun x => x.2.2.2 == pc) = none →
      exec (.handoverDone n) s = .next (s.putDev (settleCore (beginTask d1 pc) pc))) ∧
    (∀ x q d2, (d1.sched.preempting.find? fun x => x.2.2.2 == pc) = some x →
      d2 = { d1 with sched := { d1.sched with preempting := dropFirst (fun y => y.2.2.2 == pc) d1.sched.preempting } } →
      (d2.part x.1).st = .active → takesQueued (d2.part x.1) n = true →
      ((d2.part x.1).queue.find? fun q => q.sub == x.2.1 && q.index == x.2.2.1) = some q →
      exec (.handoverDone n) s = .next (s.putDev (beginTask (loadFresh (placed d2 x.1) pc x.1 q) pc)))) ∧
  (∀ (n pc : Nat) (s : State), coreOf s.dev n = some pc → bit s.dev.sched.bask 16 = true → (s.dev.core pc).st = .idle →
    (s.dev.core pc).handover = none →
    exec (.baskingEntry n) s = .next (s.putDev (s.dev.modCore pc fun c => { c with st := .basking }))) ∧
  (∀ (n pc : Nat) (s : State), coreOf s.dev n = some pc → (s.dev.core pc).st = .waking → (s.dev.core pc).recovering = none →
    exec (.coreWakeDone n) s = .next (s.putDev (settleCore (beginTask (s.dev.modCore pc fun c => { c with st := .idle }) pc) pc))) ∧
  (∀ (p n : Nat) (r : Resource) (s : State), (s.dev.part p).valid = true → weirRateOf (s.dev.part p) (resIdx r) ≠ 0 →
    exec (.weirFill p r n) s = .next (s.putDev (let up := fun (x : Part) => min (weirDepth x (resIdx r) : Int) (weirLevelOf x (resIdx r) + n)
      weirFreed (s.dev.modPart p fun x => { x with weirLevel := tput x.weirLevel (resIdx r) (up x) }) p)))

/-- Watchdog, pausing and results. WATCHDOG_EXPIRY of a running task that holds a WAIT still unsatisfied, not stopped,
no engine operation open, its partition not pausing, no thermal hold: the expiry is counted and the task stops with
PROG_FAULT. PAUSE_BOUNDARY of a pausing partition at its boundary with no core being brought in: it holds, its running
channels pause, and its cores are settled. PARTITION_PAUSED once its cores and engine operations are done: it is
PAUSED, those who asked get the event with its step, and the job's manager is told. RESULT_PUBLISH of the generation
whose turn it is, its source readable and no line of it poisoned, and the DRAM Weir not empty where any of its bytes
lie in DRAM: the bytes are copied, charged, published with the lease, and SUBMISSION_DONE says so (a lease of 0 is log
45). RESULT_LEASE_EXPIRY of a published generation: it is gone. Rests on spec/13_partitions_scheduling.md;
spec/03_expert_core.md; spec/16_host_link_mailbox.md. -/
def Obligations.PauseAndResultsComplete : Prop :=
  (∀ (n pc : Nat) (s : State) (t : Task), coreOf s.dev n = some pc → (s.dev.core pc).task = some t → waitOpen s.dev t = true →
    t.stopped = none → (s.dev.core pc).st = .running → enginesOpen s.dev t.part = false → (s.dev.part t.part).st ≠ .pausing →
    s.dev.pwr.hold = false → exec (.watchdogExpiry n) s = .next (s.putDev (stopTask (schErr s.dev 2) pc sProgFault))) ∧
  (∀ (p : Nat) (s : State), (s.dev.part p).st = .pausing → (s.dev.part p).holding = false →
    ((s.dev.part p).atBoundary || noTasks s.dev p) = true → s.dev.cores.any (recoveringFor p) = false →
    exec (.pauseBoundary p) s = .next (s.putDev (let d := modChansOf (s.dev.modPart p fun x => { x with holding := true, atBoundary := false }) p fun c =>
        if c.state = .running then { c with state := .paused } else c
      (coresOf d p).foldl settleCore d))) ∧
  (∀ (p : Nat) (s : State), (s.dev.part p).st = .pausing → (s.dev.part p).holding = true → coresOf s.dev p = [] →
    transfersOpen s.dev p = false →
    ∀ d, d = (s.dev.part p).pauseReq.foldl (fun d r => sendEvent d
        { code := 0x04, mailbox := p + 1, status := sOk, tag := r.1.tag.toNat, data := toLe 8 (s.dev.part p).step.toNat, part := some p
          source := srcSched, dest := some (r.1.session, r.2) })
        (s.dev.modPart p fun x => { x with st := .paused, holding := false, pauseReq := [] }) →
    (∀ m, jobManager d p = some m → exec (.partitionPaused p) s = .next (s.putDev (sendMgmt d m (.pausedReport p)))) ∧
    (jobManager d p = none → exec (.partitionPaused p) s = .next (s.putDev (d)))) ∧
  (∀ (mb win g src len : Nat) (s : State) (w : Window) (sub : U32) (sid : Nat) (tag : U32) (noevt : Bool),
    tget s.dev.host.windows (winIdx mb win) = some w → nextGen w = some (g, sub) → tgetD w.src g (0, 0) = (src, len) →
    tgetD w.who g (0, 0, true) = (sid, tag, noevt) → (weirOk s.dev (mb - 1) 0 = true ∨ dramBytes s.dev (mb - 1) src len = 0) → okNew s.dev (mb - 1) false src len = true →
    poisonAt s.dev (mb - 1) false src len = none → exec (.resultPublish mb win) s = .next (s.putDev (let d := chargeRange s.dev (mb - 1) src len
      let d := modWindow d (winIdx mb win) fun w => { setBuf w g (readRange s.dev (mb - 1) false src len) with
        published := g, gens := tput w.gens g (.published (d.time.now + 1000000 * w.leaseMs)) }
      subDone d (mb - 1) ⟨sid, mb, tag⟩ noevt sub sOk g))) ∧
  (∀ (mb win g : Nat) (s : State), exec (.resultLeaseExpiry mb win g) s = .next (s.putDev (modWindow s.dev (winIdx mb win) fun w => match tget w.gens g with
      | some (.published _) => { w with gens := tput w.gens g .gone }
      | _ => w)))

/-- Failed cores and replays. With the rails on, CORE_FAIL of a core that is neither fused nor failed: it is FAILED
and empty, and that is all where it carried no logical core; where it did, the pushes of its task are withdrawn, and:
the first spare wakes in its logical place with its partition, view and task, the recovery noted unless it was; no
spare left, the core is lost. CORE_HANG of a task's unit that is not empty does as CORE_FAIL. REPLAY_START on a waking
spare whose view was kept: without a task the core is IDLE, the recovery is reported, and the core is settled; a task
of the view's own partition whose log holds (at most 4,194,304 commands), REPLAY_EN set, is counted and runs from its
start with empty planes and banks. Rests on spec/15_fault_recovery.md; spec/03_expert_core.md. -/
def Obligations.CoreRecoveryCompletes : Prop :=
  (∀ (pc : Nat) (s : State), s.dev.pwr.rails = true → (tget s.dev.cores pc).isSome = true → (s.dev.core pc).st ≠ .fused →
    (s.dev.core pc).st ≠ .failed → ∀ d, d = (s.dev.modCore pc fun c => { c with
      st := .failed, lcore := none, holder := none, sram := [], plane0 := {}, plane1 := {}, acc0 := {}, acc1 := {}, task := none
      handover := none, recovering := none }) →
    ((s.dev.core pc).lcore = none → exec (.coreFail pc) s = .next (s.putDev (d))) ∧
    (∀ n t e o, (s.dev.core pc).lcore = some n → t = (s.dev.core pc).task.map strand → o = (s.dev.core pc).recovering.getD pc →
      e = (match t with
        | some t => withdrawPushes d t n
        | none => d) →
      ((e.cores.find? fun x => x.2.st == .spare) = none → exec (.coreFail pc) s = .next (s.putDev (coreLost e o t))) ∧
      (∀ sp x, (e.cores.find? fun x => x.2.st == .spare) = some (sp, x) → ∀ known part,
        known = (e.rec_.running.any fun r => r.cls == 1 && r.unit == o) →
        part = (match t with
          | some t => some t.part
          | none => (s.dev.core pc).holder) →
        exec (.coreFail pc) s = .next (s.putDev (let d := if known then e else { e with rec_ := { e.rec_ with running := e.rec_.running ++ [(⟨1, part, o, e.time.now⟩ : Recovery)] } }
          let d := { d with sched := { d.sched with
            preempting := d.sched.preempting.map fun (x : Nat × U32 × Nat × Nat) => if x.2.2.2 = pc then (x.1, x.2.1, x.2.2.1, sp) else x } }
          d.modCore sp fun z => { z with
            st := .waking, lcore := some n, part := (s.dev.core pc).part, holder := (s.dev.core pc).holder, sram := (s.dev.core pc).sram
            task := t, recovering := some o }))))) ∧
  (∀ (pc : Nat) (u : CoreUnit) (s : State) (t : Task), (s.dev.core pc).task = some t → (t.unit u).isEmpty = false →
    s.dev.pwr.rails = true → exec (.coreHang pc u) s = exec (.coreFail pc) s ∧ ∃ z, exec (.coreHang pc u) s = .next z) ∧
  (∀ (pc o n : Nat) (s : State), (s.dev.core pc).recovering = some o → (s.dev.core pc).lcore = some n → (s.dev.core pc).st = .waking →
    (∀ p, (s.dev.core pc).holder = some p → tgetD (s.dev.part p).viewBad n [] = []) →
    ((s.dev.core pc).task = none → exec (.replayStart pc false) s = .next (s.putDev (settleCore (recoveryDone (s.dev.modCore pc fun c => { c with st := .idle }) pc) pc))) ∧
    (∀ t, (s.dev.core pc).task = some t → (s.dev.core pc).holder = some t.part → t.stopped = none → logHolds t = true →
      bit s.dev.sched.recovCfg 16 = true → exec (.replayStart pc false) s = .next (s.putDev (replayEnded ({ s.dev with sched := { s.dev.sched with replays := satAdd s.dev.sched.replays 1 } }.modCore pc fun c => { c with
          st := .running, task := some (replayTask t), plane0 := {}, plane1 := {}, acc0 := {}, acc1 := {} }) pc))))

/-- Probes, heartbeats and fault reports. A MGMT_PROBE is answered. A PROBE_ANSWER of the peer itself closes its one
probe: made for a manager, that manager is told; an engine's, a LINK fault is handled; the manager's own, the peer has
its launch cell again where it is still owed, and all who asked are told; under no probe nothing happens. A word of
another device that the peer lives answers the manager's own probe so; where this device reported the peer to it and
makes no such probe, the operations with the peer end; else nothing happens. FAULT_REPORT at the manager: a silent or
dark peer is probed, a device reporting itself is lost, a launched job's sequencer replays it, an unanswered probe
says no more; at the deputy, its manager's own fault makes it take over; at neither, it is counted. A report of a
snapshot is noted at either. A manager's PROBE_REQUEST probes on its behalf. A heartbeat of this device's peer is
noted; HEARTBEAT_PERIOD sends one; HEARTBEAT_TIMEOUT at an active deputy probes the manager. PEER_PROBE_TIMEOUT of the
one probe of its peer: that manager is told; or the device is lost; or the deputy takes over; or, where no job here is
the peer's, the managers known are told and that is noted, or with none the operations end; under no probe nothing
happens. NEW_ROOT does newRoot. SNAPSHOT_RESTORE drops the step, takes the generation, step and seeds, and restores
the regions in the spare's tree, or asks the buddy; the messages of the copies are taken from members alone. Formats,
senders and the buddy's messages are logs 22, 63, 82. Rests on spec/15_fault_recovery.md; spec/17_manager_launch.md.
-/
def Obligations.ProbeAndHeartbeatCommandsComplete : Prop :=
  (∀ (port : Nat) (c : Cell) (s : State) (d : Dev), Told false s.dev port c d →
    (∀ x, c.pay = .mgmt (.probe x) → exec (.mgmtProbe port c) s = .next (s.putDev (sendMgmt d c.src (.probeAnswer (myId d))))) ∧
    (∀ failed, c.pay = .mgmt (.probeAnswer c.src) →
      ((∀ x ∈ d.rec_.probes, x.peer ≠ c.src) → exec (.probeAnswer port c failed) s = .next (s.putDev (d))) ∧
      (∀ x e, (d.rec_.probes.filter fun x => x.peer == c.src) = [x] → e = probesClosed d c.src →
        (∀ m, x.behalf = some m → exec (.probeAnswer port c failed) s = .next (s.putDev (sendMgmt e m (.probeAnswer c.src)))) ∧
        (x.behalf = none → x.asManager = false →
          exec (.probeAnswer port c failed) s = .next (s.putDev (linkFault e x failed))) ∧
        (∀ j k, x.behalf = none → x.asManager = true → role d = 1 → d.mgr.jobs = [j] → j.launched = false →
          (jobList d j).findIdx? (· == c.src) = some k → k ≠ 0 → k ∉ j.acked → exec (.probeAnswer port c failed) s = .next (s.putDev (x.askers.foldl (fun d y => sendMgmt d y (.probeAnswer c.src))
              (sendMgmt e c.src (launchMsg j.id j.spec j.subst j.deputy k c.src))))) ∧
        (x.behalf = none → x.asManager = true → (∀ j ∈ d.mgr.jobs, j.launched = true) →
          exec (.probeAnswer port c failed) s = .next (s.putDev (x.askers.foldl (fun d y => sendMgmt d y (.probeAnswer c.src)) e))))) ∧
    (∀ peer failed, c.pay = .mgmt (.probeAnswer peer) → c.src ≠ peer →
      (∀ x, (d.rec_.probes.filter fun x => x.peer == peer && x.asManager) = [x] →
        exec (.probeAnswer port c failed) s = .next (s.putDev (peerLives { d with rec_ := { d.rec_ with probes := d.rec_.probes.filter fun x => !(x.peer == peer && x.asManager) } } x))) ∧
      ((∀ x ∈ d.rec_.probes, x.peer = peer → x.asManager = false) →
        (peer ∈ d.rec_.reported → c.src ∈ reportTo d peer → exec (.probeAnswer port c failed) s = .next (s.putDev (peerGivenUp { d with rec_ := { d.rec_ with reported := d.rec_.reported.filter (· != peer) } } peer d.time.now))) ∧
        (peer ∉ d.rec_.reported ∨ c.src ∉ reportTo d peer → exec (.probeAnswer port c failed) s = .next (s.putDev (d))))) ∧
    (∀ t, c.pay = .mgmt (.faultReport t) →
      (role d = 1 →
        (∀ x, t = .silent x → exec (.faultReport port c) s = .next (s.putDev (managerProbe d c.src x))) ∧
        (∀ x, t = .dark x → exec (.faultReport port c) s = .next (s.putDev (managerProbe d c.src x))) ∧
        (∀ x, t = .selfFault x → exec (.faultReport port c) s = .next (s.putDev (deviceLost d x d.time.now))) ∧
        (∀ x, t = .unanswered x → exec (.faultReport port c) s = .next (s.putDev (d))) ∧
        (∀ p j, t = .sequencer p → findJob d p = some j → j.launched = true → j.replaying = false →
          exec (.faultReport port c) s = .next (s.putDev (replayJob d p)))) ∧
      (role d = 2 → t = .selfFault (peerDev d) →
        exec (.faultReport port c) s = .next (s.putDev (takeover d (peerDev d) d.time.now))) ∧
      (role d ≠ 1 → ¬ (role d = 2 ∧ t = .selfFault (peerDev d)) → exec (.faultReport port c) s = .next (s.putDev (fabErr d 3)))) ∧
    (∀ x p g step seeds, c.pay = .mgmt (.snapshotReport x p g step seeds) →
      (role d ≠ 0 → exec (.faultReport port c) s = .next (s.putDev (modJob d p fun j => addReport j ⟨x, g, step, seeds⟩))) ∧
      (role d = 0 → exec (.faultReport port c) s = .next (s.putDev (fabErr d 3)))) ∧
    (∀ p g step seeds buddy lost spare, c.pay = .mgmt (.snapshotRestore p g step seeds buddy lost spare) →
      (trusted d c.src = false → exec (.snapshotRestore port c) s = .next (s.putDev (fabErr d 3))) ∧
      (trusted d c.src = true → (d.part p).valid = true → ∀ e head e1, e = dropStep (abortAll (rillRestart d p) p none) p →
        head = ((e.part p).heads.find? fun h => h.gen == g && h.step == step) →
        e1 = setStepSeeds (e.modPart p fun x => { x with heads := head.toList, refill := none }) p step seeds →
        (∀ b, buddy = some b → exec (.snapshotRestore port c) s = .next (s.putDev (sendMgmt (e1.modPart p fun x => { x with refill := some step }) b (.snapAsk p step lost)))) ∧
        (buddy = none → exec (.snapshotRestore port c) s = .next (s.putDev (spareFor (restoreRegions e1 p head g (snBuddy (e1.part p))) p lost spare))))) ∧
    (∀ p, (jobMembers d p).contains c.src = true →
      (∀ x g step seeds crcs table, c.pay = .mgmt (.snapHeader x p g step seeds crcs table) →
        exec (.snapshotRestore port c) s = .next (s.putDev (d.modPart p fun z => { z with
          mirrors := z.mirrors.filter (fun y => !(y.dev == x && y.head.gen == g)) ++ [⟨x, ⟨g, step, seeds, crcs⟩, table⟩] }))) ∧
      (∀ step lost m, c.pay = .mgmt (.snapAsk p step lost) →
        ((d.part p).mirrors.find? fun m => (m.dev == lost || m.dev == c.src) && m.head.step == step) = some m →
        exec (.snapshotRestore port c) s = .next (s.putDev (sendMgmt d c.src (.snapCopy p m.head.gen m.head.step m.head.seeds m.head.crcs m.table)))) ∧
      (∀ g step seeds crcs table, c.pay = .mgmt (.snapCopy p g step seeds crcs table) → (d.part p).refill = some step →
        exec (.snapshotRestore port c) s = .next (s.putDev (let e := d.modPart p fun x => { x with refill := none, heads := [⟨g, step, seeds, crcs⟩] }
          restoreRegions (writeRange e p false (snTable (e.part p)) table) p none g (snBuddy (e.part p))))))) ∧
  (∀ (port : Nat) (c : Cell) (s : State) (d : Dev), Told true s.dev port c d →
    (∀ x, c.pay = .mgmt (.probeRequest x) →
      exec (.probeRequest port c) s = .next (s.putDev (escalateFor d x false (some c.src)))) ∧
    (c.pay = .mgmt .heartbeat → role d ≠ 0 → c.src = peerDev d → exec (.managerHeartbeat port c) s = .next (s.putDev ({ d with mgr := { d.mgr with heard := true, active := d.mgr.active || d.mgr.sent } }))) ∧
    (∀ man dep first n, c.pay = .mgmt (.newRoot man dep first n) →
      exec (.newRoot port c) s = .next (s.putDev (newRoot man dep first n d)))) ∧
  (∀ (s : State), role s.dev ≠ 0 → peerDev s.dev ≠ myId s.dev → exec .heartbeatPeriod s = .next (s.putDev (sendMgmt { s.dev with mgr := { s.dev.mgr with sent := true, active := s.dev.mgr.active || s.dev.mgr.heard } }
      (peerDev s.dev) .heartbeat))) ∧
  (∀ (s : State), role s.dev = 2 → s.dev.mgr.active = true →
    exec .heartbeatTimeout s = .next (s.putDev (escalate s.dev (peerDev s.dev) true))) ∧
  (∀ (peer : DevId) (s : State), (∀ x ∈ s.dev.rec_.probes, x.peer ≠ peer) → exec (.peerProbeTimeout peer) s = .next s) ∧
  (∀ (peer : DevId) (s : State) (x : Probe), (s.dev.rec_.probes.filter fun x => x.peer == peer) = [x] →
    ∀ d, d = probesClosed s.dev peer →
    (∀ m, x.behalf = some m → exec (.peerProbeTimeout peer) s = .next (s.putDev (sendMgmt d m (.faultReport (.unanswered peer))))) ∧
    (x.behalf = none → x.asManager = true → role d = 1 →
      exec (.peerProbeTimeout peer) s = .next (s.putDev (deviceLost d peer x.since))) ∧
    (x.behalf = none → x.asManager = true → role d = 2 → peer = peerDev d →
      exec (.peerProbeTimeout peer) s = .next (s.putDev (takeover d peer x.since))) ∧
    (x.behalf = none → x.asManager = false → jobsUnder d peer = [] →
      (reportTo d peer ≠ [] → exec (.peerProbeTimeout peer) s = .next (s.putDev (let d := { d with rec_ := { d.rec_ with reported := d.rec_.reported.filter (· != peer) ++ [peer] } }
        (reportTo d peer).foldl (fun d m => sendMgmt d m (.faultReport (.silent peer))) d))) ∧
      (reportTo d peer = [] → exec (.peerProbeTimeout peer) s = .next (s.putDev (peerGivenUp d peer x.since)))))

/-- Launching a job, fences, and pausing or resuming a job. LAUNCH_CELL of an unknown launch at a member: passed on in
the tree, set up, acknowledged with its status. At the manager: LAUNCH_ACK with status 0 of a launch under way notes
the position, with another status the launch fails, of a launched job's spare it is answered by LAUNCH_DONE, and of an
unknown launch by LAUNCH_ABORT; LAUNCH_TIMEOUT starts a round of a launch not finished and probes every silent
position; FENCE_ACK notes the sender; JOB_PAUSE_REQUEST, JOB_RESUME_REQUEST and PAUSED_REPORT mark the job for a
member. At a worker: LAUNCH_DONE, after the spares it names are known, is passed down and opens the launch;
LAUNCH_ABORT of a launch not open is passed down, undoes it and tells the host, and the word that a job failed ends
it; FENCE is applied and acknowledged; JOB_RESUME is passed on, resumes and is acknowledged. FENCE_EPOCH_WAIT of a
cooling rack lets the next fence go, and at the manager the devices it waits for are probed. Formats, senders and what
a member learns of spares are the model's (logs 22, 63). Rests on spec/17_manager_launch.md;
spec/15_fault_recovery.md. -/
def Obligations.ManagerCommandsComplete : Prop :=
  (∀ (port : Nat) (c : Cell) (s : State) (d : Dev), Told true s.dev port c d →
    (∀ id pos rank spec subst dep l d1 d2, c.pay = .mgmt (.launch id pos rank spec subst dep) → pos ≠ 0 →
      d1 = toChildren d c.src (spawnList (membersOf spec subst) c.src) pos (launchMsg id spec subst dep) → launchById d1 id = none →
      launchJoin d1 id c.src dep spec subst = (d2, l) →
      exec (.launchCell port c) s = .next (s.putDev (sendMgmt d2 c.src (.launchAck id pos l.status)))) ∧
    (∀ id subst l d1, role d ≠ 2 → d1 = adopt d id subst → launchById d1 id = some l →
      (c.pay = .mgmt (.launchDone id subst) → exec (.launchDone port c) s = .next (s.putDev (launchOpen (passDown d1 l fun _ _ => .launchDone id subst) id))) ∧
      (∀ st, c.pay = .mgmt (.launchAbort id st subst) → l.open_ = false → exec (.launchAbort port c) s = .next (s.putDev (launchedEvent (launchUndo (passDown d1 l fun _ _ => .launchAbort id st subst) l) l.part id st.toNat)))) ∧
    (∀ id l, c.pay = .mgmt (.jobFailed id) → role d ≠ 2 → launchById d id = some l →
      exec (.launchAbort port c) s = .next (s.putDev (jobEnds (passDown d l fun _ _ => .jobFailed id) l.part))) ∧
    (∀ f e rejoin d1, c.pay = .mgmt (.fence f e rejoin) →
      d1 = { d with rec_ := { d.rec_ with reported := d.rec_.reported.filter (· != f) } } →
      (role d ≠ 2 → f = myId d → rejoin = false → exec (.fence port c) s = .next (s.putDev (sendMgmt (setFloor d1 e) c.src (.fenceAck f)))) ∧
      (f ≠ myId d → devRack f = rackNum d → rejoin = true →
        exec (.fence port c) s = .next (s.putDev (sendMgmt (setFenced d1 f false) c.src (.fenceAck f)))) ∧
      (role d ≠ 2 → f ≠ myId d → devRack f = rackNum d → rejoin = false → exec (.fence port c) s = .next (s.putDev (sendMgmt (unlive (endWith (setFenced (setCur d1 e) f true) f) f) c.src (.fenceAck f)))) ∧
      (role d = 2 → f ≠ myId d → devRack f = rackNum d → rejoin = false → exec (.fence port c) s = .next (s.putDev (sendMgmt (unlive (endWith (setFenced (setCur (deputySees d1 (devRack f) e) e) f true) f) f) c.src (.fenceAck f)))) ∧
      (role d ≠ 2 → f ≠ myId d → devRack f ≠ rackNum d → rejoin = false → exec (.fence port c) s = .next (s.putDev (sendMgmt (unlive (endWith d1 f) f) c.src (.fenceAck f))))) ∧
    (∀ p subst l0 l d1, c.pay = .mgmt (.resume p subst) → launchOf d p = some l0 → d1 = adopt d l0.id subst → launchOf d1 p = some l →
      exec (.jobResume port c) s = .next (s.putDev (sendMgmt (resumePart (passDown d1 l fun _ _ => .resume p subst) p) l.manager (.resumeAck p))))) ∧
  (∀ (port : Nat) (c : Cell) (s : State) (d : Dev), Told false s.dev port c d → role d = 1 →
    (∀ id pos st, c.pay = .mgmt (.launchAck id pos st) →
      (findJobId d id = none → exec (.launchAck port c) s = .next (s.putDev (sendMgmt d c.src (.launchAbort id (BitVec.ofNat 8 sInternal) [])))) ∧
      (∀ j, findJobId d id = some j → (jobList d j).getD pos 0 = c.src → pos ≠ 0 →
        (j.launched = false → st = 0 → exec (.launchAck port c) s = .next (s.putDev (launchSettle (modJobId d id fun j =>
          { j with acked := if j.acked.contains pos then j.acked else j.acked ++ [pos] }) id))) ∧
        (j.launched = false → st ≠ 0 → exec (.launchAck port c) s = .next (s.putDev (launchFails (modJobId d id fun j => { j with badPos := some pos, status := st }) id st.toNat))) ∧
        (j.launched = true → st = 0 → (j.subst.map (·.2)).contains c.src = true → pos ∉ j.acked → j.replaying = false →
          exec (.launchAck port c) s = .next (s.putDev (sendMgmt (modJobId d j.id fun j => { j with acked := j.acked ++ [pos] }) c.src (.launchDone j.id j.subst)))))) ∧
    (∀ f, c.pay = .mgmt (.fenceAck f) → exec (.fenceAck port c) s = .next (s.putDev (fenceSettle { d with mgr := { d.mgr with
      fences := updFirst (fun x => x.dev == f && x.started) (fun x => { x with waiting := x.waiting.filter (· != c.src) })
        d.mgr.fences } }))) ∧
    (∀ p, c.pay = .mgmt (.pauseRequest p) → exec (.jobPauseRequest port c) s = .next (s.putDev (modJob d p fun j =>
      if j.members.contains c.src && !j.pausing then { j with pauseMark := true } else j))) ∧
    (∀ p, c.pay = .mgmt (.resumeRequest p) → exec (.jobResumeRequest port c) s = .next (s.putDev (jobResumeSettle (modJob d p fun j =>
      if j.members.contains c.src then { j with resumeAsked := true } else j) p))) ∧
    (∀ p, c.pay = .mgmt (.pausedReport p) → exec (.pausedReport port c) s = .next (s.putDev (jobResumeSettle (modJob d p fun j =>
      if j.members.contains c.src && !j.paused.contains c.src then { j with
        paused := j.paused ++ [c.src], pausing := j.pausing || !j.past.isEmpty, pauseMark := j.pauseMark || (!j.pausing && j.past.isEmpty) }
      else j) p)))) ∧
  (∀ (id : U64) (s : State) (j : Job), findJobId s.dev id = some j → role s.dev = 1 → j.launched = false →
    exec (.launchTimeout id) s = .next (s.putDev (let d := modJobId s.dev id fun j => { j with rounds := j.rounds + 1 }
      (unacked d j).foldl (fun d k => escalate d ((jobList s.dev j).getD k 0) true) d))) ∧
  (∀ (rack : Nat) (s : State), rack ∈ s.dev.mgr.cooling →
    ∀ d, d = fenceNext { s.dev with mgr := { s.dev.mgr with cooling := dropFirst (· == rack) s.dev.mgr.cooling } } rack →
    (role d ≠ 1 → exec (.fenceEpochWait rack) s = .next (s.putDev (d))) ∧
    (role d = 1 → exec (.fenceEpochWait rack) s = .next (s.putDev ((d.mgr.fences.flatMap (·.waiting)).eraseDups.foldl (fun d x => escalate d x true) d))))

/-- The Ethernet port. While the port answers, with the mailbox ready or in recovery: a frame with a bad FCS is
counted as such and as dropped, one not for this part, tagged otherwise, too long, or a pause frame is dropped; any
other frame with CE counts that, a UHP header outside the table is counted, LLDP and the rest change nothing more. A
solicitation for an own address, an echo request below the limit of the second and an ARP request for the own address
are answered. Before that, UHP, LLDP and other frames, echo and ARP requests change nothing. The first /64 prefix with
A, in the network stage or later, forms the global address, whose duplicate address detection begins; in recovery a
DHCPv6 reply forms it and an offer is requested. LLDP_TIMER sends LLDP. PTP_SYNC of the domain: Announce notes a
master; a Sync of the best master is complete or waits for its Follow_Up; the Follow_Up completes it; Delay_Resp gives
the delay. PTP_HOLDOVER of the enabled clock forgets the silent master and sets HOLDOVER. ETH_LINK_DOWN takes the link
down, and after one second closes every session; ETH_LINK_UP brings it up and starts the detection of the link-local
address, in recovery soliciting. ETH_TRAIN_RETRY changes nothing; DHCPV6_RESOLICIT without an address solicits.
Address detection, DHCPv6 and the clock's messages are the model's reading (logs 18, 53, 54, 79). Rests on
spec/16_host_link_mailbox.md; spec/18_boot_and_trust.md. -/
def Obligations.EthernetCommandsComplete : Prop :=
  (∀ (s : State), uhpUp s.dev = true →
    (∀ f : Frame, f.fcsOk = false → exec (.ethFrame f) s = .next (s.putDev (hostErr (hostErr s.dev 0 1) 1 1))) ∧
    (∀ f : Frame, f.fcsOk = true → (forUs s.fuses.mac f.dst = false ∨ tagsOk s.dev f.tags = false ∨
      fld s.dev.host.netCfg 37 24 < f.length ∨ f.pauseOrPfc = true) → exec (.ethFrame f) s = .next (s.putDev (hostErr s.dev 1 1))) ∧
    (∀ (f : Frame) (d : Dev), f.fcsOk = true → forUs s.fuses.mac f.dst = true → tagsOk s.dev f.tags = true →
      f.length ≤ fld s.dev.host.netCfg 37 24 → f.pauseOrPfc = false → d = (if f.ce then hostErr s.dev 5 1 else s.dev) →
      (f.payload = .lldp ∨ f.payload = .other → exec (.ethFrame f) s = .next (s.putDev (d))) ∧
      (∀ ty rsvd len, f.payload = .uhp ty rsvd len →
        ((ty = 0 ∨ 9 < ty.toNat ∨ rsvd = true ∨ 8224 < len.toNat) → exec (.ethFrame f) s = .next (s.putDev (hostErr d 2 1))) ∧
        (ty ≠ 0 → ty.toNat ≤ 9 → rsvd = false → len.toNat ≤ 8224 → exec (.ethFrame f) s = .next (s.putDev (d)))) ∧
      (s.dev.boot.stage = .recovery → s.dev.host.ip6 = none → s.dev.host.ip6Dup = false →
        (∀ n a, f.payload = .dhcpv6Advertise n a → exec (.ethFrame f) s = .next (s.putDev (sendFrame d (.dhcpv6Request n a)))) ∧
        (∀ a, f.payload = .dhcpv6Reply a → exec (.ethFrame f) s = .next (s.putDev (formGlobal d a))))) ∧
    (∀ src target, target ∈ ownAddrs s.fuses s.dev → exec (.neighborSolicitation src target) s = .next (s.putDev (sendFrame s.dev (.neighborAdvertisement src target)))) ∧
    (∀ src data, s.dev.host.echoSecond = s.dev.time.now / 1000000000 → s.dev.host.echoCount < 100 →
      exec (.echoRequest src data) s = .next (s.putDev (sendFrame (modHost s.dev fun h => { h with
        echoSecond := s.dev.time.now / 1000000000, echoCount := s.dev.host.echoCount + 1 }) (.echoReply src data)))) ∧
    (∀ sender target, ip4Used s.dev = true → target.toNat = fld s.dev.host.ip4 31 0 →
      exec (.arpRequest sender target) s = .next (s.putDev (sendFrame s.dev (.arpReply sender target))))) ∧
  (∀ (s : State), uhpUp s.dev = false →
    (∀ f : Frame, (∀ a, f.payload ≠ .neighborAdvertisement a) → exec (.ethFrame f) s = .next s) ∧
    (∀ src data, exec (.echoRequest src data) s = .next s) ∧ (∀ a b, exec (.arpRequest a b) s = .next s)) ∧
  (∀ (s : State), s.dev.host.link = true →
    (∀ pfx : U64, s.dev.host.ip6 = none → s.dev.host.ip6Dup = false → (s.dev.boot.stage = .network ∨ s.dev.boot.stage = .ready) →
      exec (.routerAdvertisement pfx 64 true) s = .next (s.putDev (formGlobal s.dev (BitVec.ofNat 128 (pfx.toNat * 2 ^ 64 + eui64 s.fuses.mac))))) ∧
    exec .lldpTimer s = .next (s.putDev (sendFrame s.dev (.lldp s.fuses.mac (myId s.dev) 120 s.fuses.serial))) ∧
    (∀ m : PtpMsg, s.dev.boot.stage = .ready → bit s.dev.host.ptpCfg 8 = true → fld s.dev.host.ptpCfg 7 0 = (ptpDomain m).toNat →
      (∀ n src x, m = .announce n src x → exec (.ptpSync m) s = .next (s.putDev (modPtp s.dev fun y => { y with masters := (y.masters.filter fun z => z.1 != src) ++ [(src, x)] }))) ∧
      (∀ n src seq two t1 d, m = .sync n src seq two t1 → ptpMaster s.dev = some src →
        d = { s.dev with time := { s.dev.time with holdover := false } } → exec (.ptpSync m) s = .next (s.putDev (if two then modPtp d fun x => { x with sync := some (seq, d.time.now) } else ptpSynced t1 d.time.now d))) ∧
      (∀ n src seq t1 t2, m = .followUp n src seq t1 → ptpMaster s.dev = some src → s.dev.host.ptp.sync = some (seq, t2) →
        exec (.ptpSync m) s = .next (s.putDev (ptpSynced t1 t2 s.dev))) ∧
      (∀ n src seq t3 t4, m = .delayResp n src seq t4 → ptpMaster s.dev = some src → s.dev.host.ptp.req = some (seq, t3) →
        exec (.ptpSync m) s = .next (s.putDev (ptpDelay t4 s.dev)))) ∧
    exec (.ethLinkDown false) s = .next (s.putDev (modHost s.dev fun h => { h with link := false, downSince := some s.dev.time.now })) ∧
    (s.dev.boot.stage = .recovery → s.dev.host.ip6 = none →
      exec .dhcpv6Resolicit s = .next (s.putDev (sendFrame s.dev .dhcpv6Solicit)))) ∧
  (∀ (s : State), s.dev.host.link = false →
    exec (.ethLinkDown true) s = .next (s.putDev (s.dev.host.sessions.foldl (fun d x => closeSession d x.id) s.dev)) ∧
    (∀ d, d = sendFrame (modHost s.dev fun h => { h with link := true, downSince := none, llSince := some s.dev.time.now, llDup := false })
        (.neighborSolicitation (linkLocal s.fuses.mac)) →
      (s.dev.boot.stage = .network ∨ s.dev.boot.stage = .ready ∨ s.dev.boot.stage = .recovery ∧ s.dev.host.ip6.isSome = true →
        exec .ethLinkUp s = .next (s.putDev (d))) ∧
      (s.dev.boot.stage = .recovery → s.dev.host.ip6 = none → exec .ethLinkUp s = .next (s.putDev (sendFrame d .dhcpv6Solicit))))) ∧
  (∀ s : State, exec .ethTrainRetry s = .next s) ∧
  (∀ s : State, s.dev.boot.stage = .ready → bit s.dev.host.ptpCfg 8 = true →
    exec .ptpHoldover s = .next (s.putDev ({ modPtp s.dev fun x => { x with
      masters := x.masters.filter fun z => some z.1 != ptpMaster s.dev, sync := none, last := none, req := none } with
      time := { s.dev.time with holdover := true, slew := 0 } })))

/-- UHP sessions: HELLO, sequenced messages, timers. While the port answers and the message is for an address of the
part (CE counted, and noted for a session's next ACK): a well-formed HELLO, no repeat of one answered within 1 s,
whose version ranges meet ours in the ready stage, a session number free: a session is added, last, with the lowest
free number, the sender's address and port, the highest common versions, its ISN expected next, and no key; with no
common version it is refused by NAK; either answer is remembered, and a repeat gets it again. MBOX_REQ, WRITE,
READ_REQ and READ_RESP, well formed, of a known session, in its receive window and not held: it is held, what is in
order is delivered, and the acknowledgement is noted. A repeat is acknowledged again. An ACK, blocks or none: what it
covers is no longer unacknowledged, the window changes as windowAfter says, the session is not STALLED, one that was
starts its tries again, what waited is sent. A NAK of an unacknowledged message: it counts as acknowledged and its
refusal is noted. Timers: the retransmission of unacknowledged messages with tries left; the delayed ACK that is due;
the HELLO probe and the closing of a STALLED session; the expiry of a session key. The free values, the order of the
checks and deliveries, and the VERSION of a NAK are logs 12, 40, 41. Rests on spec/16_host_link_mailbox.md. -/
def Obligations.SessionCommandsComplete : Prop :=
  (∀ (m : UhpMsg) (s : State) (c : Dev), uhpUp s.dev = true → forPart s.fuses s.dev m.dst = true →
    m.rsvd = false → m.ece = false → m.session = 0xFFFF → m.seq = 0 → m.ackno = 0 → m.body.length = 16 → m.len = 16 → le m.body 4 4 = 0 →
    c = (if m.ce then hostErr s.dev 5 1 else s.dev) →
    (∀ x, (s.dev.host.hellos.find? (sameHello s.dev m)) = some x →
      exec (.hello m) s = .next (s.putDev (onLine c m.hostAddr m.hostPort x.ect [x.answer]))) ∧
    ((s.dev.host.hellos.find? (sameHello s.dev m)) = none →
      (∀ u x n, s.dev.boot.stage = .ready →
        agree [0x12, 0x11, 0x10] (le m.body 0 1) (le m.body 1 1) = some u → agree [0x11, 0x10] (le m.body 2 1) (le m.body 3 1) = some x →
        lowestSession s.dev = some n →
        ∃ t y z, exec (.hello m) s = .next t ∧ t.dev.host.sessions = s.dev.host.sessions ++ [y] ∧ y.num = n ∧ y.hostAddr = m.hostAddr ∧
          y.hostPort = m.hostPort ∧ y.uhp.toNat = u ∧ y.mbox.toNat = x ∧ y.rcvNext = BitVec.ofNat 64 (le m.body 8 8) ∧ y.key = none ∧
          z ∈ t.dev.host.hellos ∧ z.answer = rawMsg y.uhp n 1 0 false (helloBody t.dev y) ∧ sameHello t.dev m z = true) ∧
      (s.dev.boot.stage = .ready → (agree [0x12, 0x11, 0x10] (le m.body 0 1) (le m.body 1 1) = none ∨
          agree [0x11, 0x10] (le m.body 2 1) (le m.body 3 1) = none) →
        ∃ t, exec (.hello m) s = .next t ∧ t.dev.host.sessions = s.dev.host.sessions ∧
          t.dev.out = (onLine s.dev m.hostAddr m.hostPort false [nakFor m 0xFFFF sBadVersion]).out))) ∧
  (∀ (m : UhpMsg) (s : State) (x : Session) (c : Dev), uhpUp s.dev = true → forPart s.fuses s.dev m.dst = true →
    uhpHeaderOk m = true → m.ackno = 0 → m.ece = false → sessionOf s.dev m = some x →
    c = modSession (if m.ce then hostErr s.dev 5 1 else s.dev) x.id (fun y => { y with ceSeen := y.ceSeen || m.ce }) →
    ((m.seq - x.rcvNext).toNat < fld x.cfg 47 32 → (∀ y ∈ x.rcvHeld, y.2.seq ≠ m.seq) →
      ∀ put : Nat → Dev, put = (fun ty => noteAck (pumpRx (modSession c x.id fun y => { y with rcvHeld := y.rcvHeld ++ [(ty, m)] }) x.id) x.id) →
      exec (.mboxReq m) s = .next (s.putDev (put 2)) ∧ exec (.write m) s = .next (s.putDev (put 5)) ∧
      exec (.readReq m) s = .next (s.putDev (put 6)) ∧ exec (.readResp m) s = .next (s.putDev (put 7))) ∧
    ((2 ^ 63 ≤ (m.seq - x.rcvNext).toNat ∨ ∃ y ∈ x.rcvHeld, y.2.seq = m.seq) →
      exec (.mboxReq m) s = .next (s.putDev (sendAck c x.id)) ∧ exec (.write m) s = .next (s.putDev (sendAck c x.id)) ∧
      exec (.readReq m) s = .next (s.putDev (sendAck c x.id)) ∧ exec (.readResp m) s = .next (s.putDev (sendAck c x.id)))) ∧
  (∀ (n : Nat) (s : State) (x : Session), findSession s.dev n = some x →
    (x.unacked ≠ [] → x.stalled = false → (∀ y ∈ x.unacked, y.tries < fld x.cfg 19 16) →
      exec (.uhpRetransmitTimeout n) s = .next (s.putDev (let d := modSession s.dev n fun y => { y with
          unacked := y.unacked.map fun z => { z with tries := z.tries + 1 }
          window := if y.uhp.toNat ≥ 0x12 then min 16 (fld y.cfg 47 32) else y.window, ackedInWindow := 0 }
        hostErr (onSession d x (x.unacked.map (·.msg))) 3 x.unacked.length))) ∧
    (x.ackDue = true → exec (.ackDelayTimer n) s = .next (s.putDev (sendAck s.dev n))) ∧
    (x.stalled = true → exec (.stallProbeTimer n) s = .next (s.putDev (sendRaw s.dev x 1 0 false (helloBody s.dev x)))) ∧
    (x.stalled = true → exec (.uhpIdleTimeout n) s = .next (s.putDev (closeSession s.dev n))) ∧
    (∀ k, x.key = some k → k.expiry ≠ 0 → k.expiry.toNat ≤ s.dev.time.now →
      exec (.sessionExpiry n) s = .next (s.putDev (closeSession s.dev n)))) ∧
  (∀ (m : UhpMsg) (s : State) (x : Session) (c : Dev), uhpUp s.dev = true → forPart s.fuses s.dev m.dst = true →
    uhpHeaderOk m = true → m.seq = 0 → sessionOf s.dev m = some x → c = (if m.ce then hostErr s.dev 5 1 else s.dev) →
    (∀ n bs, n = le m.body 0 1 → n ≤ 16 → m.body.length = 8 + 16 * n → le m.body 1 7 = 0 →
      bs = (if x.uhp.toNat ≥ 0x11 then (List.range n).map fun i => (le m.body (8 + 16 * i) 8, le m.body (16 + 16 * i) 8) else []) →
      exec (.ack m) s = .next (s.putDev (let n := (x.unacked.filter fun u => ackCovers m.ackno.toNat bs u.msg.seq.toNat).length
        pumpSession (modSession c x.id fun y =>
          { windowAfter c.time.now n (m.ece && decide (x.uhp.toNat ≥ 0x12)) y with
            unacked := (y.unacked.filter fun u => !ackCovers m.ackno.toNat bs u.msg.seq.toNat).map fun u => { u with
              tries := if y.stalled then 0 else u.tries }
            stalled := false, ceSeen := y.ceSeen || m.ce }) x.id))) ∧
    (∀ u, m.ackno = 0 → m.ece = false → m.body.length = 9 → (x.unacked.find? fun u => u.msg.seq.toNat == le m.body 0 8) = some u →
      exec (.nak m) s = .next (s.putDev (pumpSession (refused (modSession
        (modSession c x.id fun y => { y with ceSeen := y.ceSeen || m.ce }) x.id fun y =>
          { y with unacked := y.unacked.filter fun u => u.msg.seq.toNat != le m.body 0 8 }) x.id u.msg (le m.body 8 1)) x.id))))

/-- HOST_IP4 and HOST_PTP_CFG: fields and use. With the rails on, a write of HOST_IP4: ADDR and PREFIX read back as
written, the reserved bits read zero; after reset all are zero. With either of ADDR and PREFIX zero no datagram over
IPv4 is for the part, and ARP requests, HELLO, MBOX_REQ, WRITE, READ_REQ, READ_RESP, ACK and NAK over IPv4 change
nothing; with both non-zero, while the port answers, an ARP request for ADDR is answered and a datagram to ADDR is for
the part. A write of HOST_PTP_CFG: DOMAIN and EN read back as written, the reserved bits read zero; after reset DOMAIN
is 0 and EN is 1. With the link up in the ready stage, a PTP message of another domain, or with EN 0, changes nothing;
with EN 1, a one-step Sync of the selected master in the domain DOMAIN, the delay known and the time base in lock,
sets the offset that slewing removes. Rule R466; R468. -/
def Obligations.HostAddressAndPtpRegisters : Prop :=
  (∀ (v : U64) (s : State), s.dev.pwr.rails = true →
    (∃ t, exec (.registerWrite .hostIp4 v) s = .next t ∧ ∀ x, x = regVal t.fuses t.dev .hostIp4 →
      nfld x 31 0 = fld v 31 0 ∧ nfld x 37 32 = fld v 37 32 ∧ nfld x 63 38 = 0) ∧
    (∃ t, exec (.registerWrite .hostPtpCfg v) s = .next t ∧ ∀ x, x = regVal t.fuses t.dev .hostPtpCfg →
      nfld x 7 0 = fld v 7 0 ∧ nfld x 8 8 = fld v 8 8 ∧ nfld x 31 9 = 0)) ∧
  regVal State.reset.fuses State.reset.dev .hostIp4 = 0 ∧ regVal State.reset.fuses State.reset.dev .hostPtpCfg = 0x100 ∧
  (∀ (s : State) (sender target : U32),
    (fld s.dev.host.ip4 31 0 ≠ 0 → fld s.dev.host.ip4 37 32 ≠ 0 → target.toNat = fld s.dev.host.ip4 31 0 → uhpUp s.dev = true →
      exec (.arpRequest sender target) s = .next (s.putDev (sendFrame s.dev (.arpReply sender target))) ∧
      forPart s.fuses s.dev (.v4 target) = true) ∧
    (fld s.dev.host.ip4 31 0 = 0 ∨ fld s.dev.host.ip4 37 32 = 0 → exec (.arpRequest sender target) s = .next s ∧
      forPart s.fuses s.dev (.v4 target) = false ∧
      ∀ m : UhpMsg, m.dst = .v4 target → exec (.hello m) s = .next s ∧ exec (.mboxReq m) s = .next s ∧ exec (.write m) s = .next s ∧
        exec (.readReq m) s = .next s ∧ exec (.readResp m) s = .next s ∧ exec (.ack m) s = .next s ∧ exec (.nak m) s = .next s)) ∧
  (∀ (s : State) (m : PtpMsg), s.dev.host.link = true → s.dev.boot.stage = .ready →
    (¬ (bit s.dev.host.ptpCfg 8 = true ∧ fld s.dev.host.ptpCfg 7 0 = (ptpDomain m).toNat) → exec (.ptpSync m) s = .next s) ∧
    (∀ n src seq t1 w, bit s.dev.host.ptpCfg 8 = true → fld s.dev.host.ptpCfg 7 0 = n.toNat → m = .sync n src seq false t1 →
      ptpMaster s.dev = some src → s.dev.host.ptp.delay = some w → s.dev.time.locked = true →
      ∃ t, exec (.ptpSync m) s = .next t ∧ t.dev.time = { s.dev.time with
        holdover := false, offset := (s.dev.time.now : Int) - t1 - w, slew := (s.dev.time.now : Int) - t1 - w }))

/-- Mailbox commands: sessions, partitions, programs. For an outstanding request of the command's code that may run.
OPEN_SESSION of a blob that opens and a record that holds: the session takes the key and the answer says what it may
do. CLOSE_SESSION: answered, then the session ends. QUERY_CAPS: answered with what the part is. PART_CREATE that
succeeds; PART_DESTROY of a valid partition whose cores have let go; PART_SET_QUOTA, begun or with no other lowering
waiting, that can be done now; PART_SET_WEIR of a valid partition, the weight kept where 0 is given: answered OK.
LOAD_PROGRAM of a readable good image that fits: the program takes the lowest free handle and its pages.
UNLOAD_PROGRAM of one not in use: the reverse. When a request may run, what a lowering waits for, and what a program's
load checks are the model's reading (logs 11, 42, 59, 76). Rests on spec/16_host_link_mailbox.md;
spec/13_partitions_scheduling.md; spec/03_expert_core.md. -/
def Obligations.PartitionCommandsComplete : Prop :=
  ∀ (r : ReqId) (s : State) (q : Req) (p : Nat), q.part = p →
    (∀ x rec_, Asked s.dev r 0x01 q → findSession s.dev q.id.session = some x → openBlob s.fuses s.dev q.body = some rec_ →
      recordOk s.dev x rec_ (q.body.drop 92) = true → exec (.openSession r) s = .next (s.putDev (let k := keyRec rec_
        respondOk (modSession s.dev x.id fun y => { y with key := some k }) q (toLe 24 (packNat [(0, k.keyId.toNat), (32, k.mask.toNat),
          (64, b2n k.priv + 2 * b2n k.events), (128, k.expiry.toNat)]))))) ∧
    (Asked s.dev r 0x02 q → exec (.closeSession r) s = .next (s.putDev (closeSession (respondOk s.dev q []) q.id.session))) ∧
    (Asked s.dev r 0x03 q → exec (.queryCaps r) s = .next (s.putDev (respondOk s.dev q (capsBody s.fuses s.dev)))) ∧
    (∀ b d, Asked s.dev r 0x10 q → partCreate s.dev p q.body = .inr (b, d) → exec (.partCreate r) s = .next (s.putDev (respondOk d q b))) ∧
    (Asked s.dev r 0x11 q → q.started = false → (s.dev.part p).valid = true → (s.dev.part p).saving = none →
      destroyReady (beginDestroy (markStarted s.dev q) p) p = true → exec (.partDestroy r) s = .next (s.putDev (respondOk (finishDestroy (endSubs (beginDestroy (markStarted s.dev q) p) p) p) q []))) ∧
    (∀ d, Asked s.dev r 0x12 q → (q.started = true ∨ ((s.dev.part p).leaving = 0 ∧ (s.dev.part p).lowering = none)) →
      setQuota s.dev p q.body q.started = .done d → exec (.partSetQuota r) s = .next (s.putDev (respondOk d q []))) ∧
    (∀ d, Asked s.dev r 0x13 q → (s.dev.part p).valid = true → d = setWeir s.dev p (le q.body 0 8) (le q.body 8 8) →
      exec (.partSetWeir r) s = .next (s.putDev (weirFreed (respondOk
        (if le q.body 16 1 = 0 then d else d.modPart p fun x => { x with weight := le q.body 16 1 }) q []) p))) ∧
    (∀ a n g h, Asked s.dev r 0x20 q → isUnload q.body = false → a = le q.body 8 8 → n = le q.body 16 4 → le q.body 0 1 = 0 → le q.body 1 7 = 0 →
      a + n ≤ dramTop → okNew s.dev p false a n = true → poisonAt s.dev p false a n = none →
      parseProgram (readRange s.dev p false a n) = (sOk, noCmd, g) → g.sramUnits ≤ ((lowered s.dev p).part p).sramUnits →
      ((List.range 64).find? fun h => (tget ((lowered s.dev p).part p).progs h).isNone) = some h →
      ((lowered s.dev p).part p).sideUsed + g.pages ≤ ((lowered s.dev p).part p).sideQuota → exec (.loadProgram r) s = .next (s.putDev (respondOk ((touched s.dev p a n).modPart p fun x => { x with progs := tput x.progs h g, sideUsed := x.sideUsed + g.pages }) q
          (loadBody h noCmd)))) ∧
    (∀ g, Asked s.dev r 0x20 q → isUnload q.body = true → tget (s.dev.part p).progs (le q.body 1 1) = some g → le q.body 0 1 = 1 →
      le q.body 2 6 = 0 → progInUse s.dev p (le q.body 1 1) = false → exec (.unloadProgram r) s = .next (s.putDev (respondOk (s.dev.modPart p fun x => { x with progs := tdel x.progs (le q.body 1 1), sideUsed := x.sideUsed - g.pages }) q
          (loadBody (le q.body 1 1) noCmd))))

/-- Mailbox commands: submissions, pausing, images. For an outstanding request of the command's code that may run.
SUBMIT, not held, of good entries and no result window, a queue with room: ACCEPTED, the entries are queued and the
submission noted. ABORT of a submission that is not being aborted: the abort begins. PAUSE of an ACTIVE and RESUME of
a PAUSED partition of no job: ACCEPTED, and it pauses or resumes. SAVE_IMAGE to flash that may hold, whose memory is
whole, and that fits: ACCEPTED, and the image is kept for writing; IMAGE_DONE of a save to flash, flash tokens there:
it is programmed, charged and IMAGE_DONE is reported. RESTORE_IMAGE from flash where it may restore, flash tokens
there: an image read in full is charged, and applied if it passes the checks, else answered with the status of the
check that failed; an image that cannot be read is answered with its status, its blocks having been read where one is
lost; one still being read in changes nothing. The image's layout, the statuses, and when a request may run are the
model's reading (logs 11, 43, 44, 67). Rests on spec/16_host_link_mailbox.md; spec/13_partitions_scheduling.md;
spec/14_determinism_replay.md. -/
def Obligations.SubmissionCommandsComplete : Prop :=
  (∀ (r : ReqId) (s : State) (q : Req) (p : Nat), q.part = p →
    (∀ ws id, Asked s.dev r 0x21 q → q.started = false → id = BitVec.ofNat 32 (le q.body 0 4) → (s.dev.part p).st ≠ .destroying →
      launchShut s.dev p = false → le q.body 20 4 = 0 → (∀ y ∈ (s.dev.part p).subs, y.id ≠ id) → (s.dev.part p).heldSubs = [] →
      submitEntries s.dev p q.body = .inr ws → submitWindow s.dev p q.id.mailbox q.body = some none →
      ∀ e d, e = (if le q.body 24 8 = 0 then s.dev else touched s.dev p (le q.body 24 8) (64 * le q.body 4 2)) →
      (ws.findIdx? fun w => !entryFieldsOk e p id.toNat w) = none →
      d = (e.modPart p fun x => { x with remembered := x.remembered.filter (· != id) }) → (d.part p).heldSubs = [] →
      (d.part p).queue.length + ws.length ≤ 256 → exec (.submit r) s = .next (s.putDev (let x : Sub := ⟨id, ws.length, [], false, none, 0, q.id, q.noevt, [], none⟩
        respond (d.modPart p fun y => { y with queue := y.queue ++ ws.mapIdx entryOf, subs := y.subs ++ [x] }) q sAccepted 0xFFFF (toLe 4 0)))) ∧
    (∀ x id, Asked s.dev r 0x22 q → q.started = false → id = BitVec.ofNat 32 (le q.body 0 4) →
      findSub (takeHeld s.dev p id) p id = some x → x.aborting = false → exec (.abort r) s = .next (s.putDev (abortSubmission (markStarted (takeHeld s.dev p id) q) p id))) ∧
    (Asked s.dev r 0x23 q → (s.dev.part p).st = .active →
      ∀ d, d = ((accept s.dev q).modPart p fun x => { x with pauseReq := x.pauseReq ++ [(q.id, q.noevt)] }) → jobManager d p = none →
      exec (.pause r) s = .next (s.putDev (d.modPart p fun x => { x with st := .pausing }))) ∧
    (Asked s.dev r 0x24 q → (s.dev.part p).st = .paused → (s.dev.part p).saving = none →
      ∀ d, d = ((accept s.dev q).modPart p fun x => { x with resumeReq := x.resumeReq ++ [(q.id, q.noevt)] }) → jobManager d p = none →
      exec (.resume r) s = .next (s.putDev (resumePart d p))) ∧
    (Asked s.dev r 0x25 q → le q.body 0 1 = 0 → le q.body 1 1 = 0 → mayHold s.dev p = true → imageLoss s.dev p = none →
      ∀ d, d = touched s.dev p 0 ((s.dev.part p).pages.length * pageSize) →
      (imageOf s.dev p).length ≤ blockSize * blocksFrom ((lowered d p).part p) (le q.body 4 4) → exec (.saveImage r) s = .next (s.putDev ((respond d q sAccepted 0xFFFF (toLe 8 (imageOf s.dev p).length)).modPart p fun x => { x with
          saving := some ⟨q.id, q.noevt, false, le q.body 4 4, imageOf s.dev p, false⟩ }))) ∧
    (Asked s.dev r 0x26 q → le q.body 0 1 = 0 → le q.body 1 1 = 0 → mayRestore s.dev p = true → weirOk s.dev p 1 = true →
      exec (.restoreImage r) s = .next (s.putDev (match flashImage s.dev p (le q.body 4 4) with
        | .fails st => respondErr
          (if st = sInternal then flashRead s.dev (imageKeys s.dev p (le q.body 4 4) (blocksFrom (s.dev.part p) (le q.body 4 4))) else s.dev) q st
        | .need .. => s.dev
        | .bytes b m =>
          let d := flashRead (weirCharge s.dev p 1 (m.crc + 8)) (imageKeys s.dev p (le q.body 4 4) (divUp (m.crc + 8) blockSize))
          let x := getSched (bytesNums (slice b (m.sched + 8) (m.ctxs - m.sched - 8)))
          match restoreFails d p b m x with
          | some st => respondErr d q st
          | none => respondOk (applyImage d p b m x) q [])))) ∧
  (∀ (p : Nat) (s : State) (v : Saving), (s.dev.part p).saving = some v → v.toHost = false → weirOk s.dev p 1 = true →
    exec (.imageDone p) s = .next (s.putDev (let d := burn (weirCharge s.dev p 1 v.image.length) p v.lba v.image
      sendEvent (d.modPart p fun x => { x with saving := none })
        { code := 0x06, mailbox := p + 1, status := sOk, tag := v.req.tag.toNat, data := toLe 8 v.image.length
          sev := sevInfo, part := some p, source := srcDet, dest := some (v.req.session, v.noevt) })))

/-- Mailbox commands: windows, results, tables, step and seeds. For an outstanding request of the command's code that
may run. MAP_WINDOW of a good window of any kind: the lowest free number is answered and holds it, a FIRMWARE window
with empty staging, a RESULT window with its side pages; UNMAP_WINDOW of one not busy: it is gone, and its pages are
given back. READ_RESULT of a published generation within its lease: its number, the lease left and the bytes;
RELEASE_RESULT: it is gone. GATE_LOAD of a good descriptor whose slot no step uses: it is loaded. EPT_UPDATE of good
entries (a null expert's is not checked), in the body or in memory: they are written. COMM_CREATE of a good record,
setting the group where it has GROUP; COMM_DELETE; both of a communicator that is not busy. STEP_SET and SEED_SET, by
its MASK, of a quiet partition. DIGEST_READ from a START that the log's counter has passed: the entries kept of the
steps asked for, at most MAX, how many are lost, and where to go on. Window pages, leases and statuses are the model's
reading (logs 11, 43, 45). Rests on spec/16_host_link_mailbox.md; spec/04_gate_unit.md; spec/09_rill_collectives.md;
spec/14_determinism_replay.md. -/
def Obligations.TableCommandsComplete : Prop :=
  ∀ (r : ReqId) (s : State) (q : Req) (p : Nat), q.part = p →
    (∀ ver w n, Asked s.dev r 0x30 q → isUnmap q.body = false → ver = ((findSession s.dev q.id.session).map (·.mbox.toNat)).getD 0x10 →
      le q.body 1 1 ≤ 7 → le q.body 4 4 = 0 → le q.body 20 4 = 0 → newWindow s.dev ver q.id.mailbox q.body = .inr w →
      ((List.range 64).find? fun n => (tget s.dev.host.windows (winIdx q.id.mailbox n)).isNone) = some n →
      exec (.mapWindow r) s = .next (s.putDev (let k := winIdx q.id.mailbox n
        let d := modHost s.dev fun h => { h with
          windows := tput h.windows k w, staging := if w.kind = .firmware then tput h.staging k [] else h.staging }
        respondOk (if w.pages = 0 then d else d.modPart (q.id.mailbox - 1) fun x => { x with sideUsed := x.sideUsed + w.pages }) q (mapBody n 0)))) ∧
    (∀ w k, Asked s.dev r 0x30 q → isUnmap q.body = true → k = winIdx q.id.mailbox (le q.body 2 2) → le q.body 2 2 < 64 →
      tget s.dev.host.windows k = some w → le q.body 1 1 ≤ 7 → le q.body 4 4 = 0 → le q.body 20 4 = 0 → winBusy s.dev k w = false →
      exec (.unmapWindow r) s = .next (s.putDev (let d := modHost s.dev fun h => { h with windows := tdel h.windows k, staging := tdel h.staging k }
        respondOk (if w.pages = 0 then d else d.modPart (q.id.mailbox - 1) fun x => { x with sideUsed := x.sideUsed - w.pages }) q
          (mapBody (le q.body 2 2) 0)))) ∧
    (∀ k w g e, resultWin s.dev q = some (k, w) → le q.body 2 2 = 0 → g = le q.body 4 4 → tget w.gens g = some (.published e) →
      s.dev.time.now < e →
      (Asked s.dev r 0x31 q → le q.body 12 4 ≤ 8176 → le q.body 8 4 + le q.body 12 4 ≤ w.len → exec (.readResult r) s = .next (s.putDev (respondOk s.dev q (toLe 16 (packNat [(0, g), (32, (e - s.dev.time.now) / 1000000), (64, le q.body 12 4)]) ++
          mread (winBuf w g) (le q.body 8 4) (le q.body 12 4))))) ∧
      (Asked s.dev r 0x32 q → exec (.releaseResult r) s = .next (s.putDev (respondOk (endGen s.dev k g) q [])))) ∧
    (∀ x : BitVec 2048, Asked s.dev r 0x40 q → x = BitVec.ofNat 2048 (leNat (q.body.drop 8)) → le q.body 1 7 = 0 → gdFails s.dev p x = none →
      (∀ g ∈ s.dev.gate.steps, g.part = p → g.slot = le q.body 0 1 → g.closed = true ∧ g.granted = true) → exec (.gateLoad r) s = .next (s.putDev (respondOk { s.dev with gate := { s.dev.gate with descs := tput s.dev.gate.descs (256 * p + le q.body 0 1) x } } q []))) ∧
    (∀ n a src d bs, Asked s.dev r 0x41 q → n = le q.body 10 2 → a = le q.body 0 8 + 16 * le q.body 8 2 → src = le q.body 16 8 →
      n ≠ 0 → n ≤ 16384 → le q.body 12 4 = 0 → okNew s.dev p false a (16 * n) = true →
      (src = 0 ∧ le q.body 24 8 = 0 ∧ d = s.dev ∧ bs = q.body.drop 32 ∨
       src ≠ 0 ∧ src + 16 * n ≤ dramTop ∧ okNew s.dev p false src (16 * n) = true ∧ poisonAt s.dev p false src (16 * n) = none ∧
         d = touched s.dev p src (16 * n) ∧ bs = readRange d p false src (16 * n)) →
      (∀ e ∈ (chunks 16 bs).mapIdx fun i e => (a + 16 * i, e), nullEntry d p e.1 = true ∨ eptEntryOk (BitVec.ofNat 128 (leNat e.2)) = true) →
      exec (.eptUpdate r) s = .next (s.putDev (respondOk (writeRange d p false a bs) q []))) ∧
    (∀ cm d ms, Asked s.dev r 0x42 q → isDelete q.body = false → cm = commRecord q.body → le q.body 1 1 < 4 → le q.body 14 2 = 0 →
      commSizesOk q.body = true → okNew s.dev p false (cmMembers cm) (2 * cmN cm) = true → poisonAt s.dev p false (cmMembers cm) (2 * cmN cm) = none →
      d = touched s.dev p (cmMembers cm) (2 * cmN cm) → ms = memberTable d p cm → commTableOk d cm ms = true →
      commBusy d p (le q.body 0 1) = false → exec (.commCreate r) s = .next (s.putDev (let e := (dropComm d p (le q.body 0 1)).modPart p fun x => { x with comms := tput x.comms (le q.body 0 1) cm }
        respondOk (if (le q.body 1 1).testBit 1 then setGroup e p (le q.body 13 1) ms else e) q []))) ∧
    (Asked s.dev r 0x42 q → isDelete q.body = true → le q.body 1 1 < 4 → le q.body 14 2 = 0 → commBusy s.dev p (le q.body 0 1) = false →
      exec (.commDelete r) s = .next (s.putDev (respondOk ((dropComm s.dev p (le q.body 0 1)).modPart p fun x => { x with
        comms := tdel x.comms (le q.body 0 1) }) q []))) ∧
    (Asked s.dev r 0x50 q → quiet s.dev p = true → exec (.stepSet r) s = .next (s.putDev (respondOk (s.dev.modPart p fun x => { x with step := BitVec.ofNat 64 (le q.body 0 8) }) q []))) ∧
    (∀ put : Tbl U64 → Nat → Tbl U64, Asked s.dev r 0x51 q → quiet s.dev p = true → le q.body 0 1 < 16 → le q.body 1 7 = 0 →
      put = (fun t i => if (le q.body 0 1).testBit i then tput t i (BitVec.ofNat 64 (le q.body (8 + 8 * i) 8)) else t) →
      exec (.seedSet r) s = .next (s.putDev (respondOk (s.dev.modPart p fun x => { x with seeds := (List.range 4).foldl put x.seeds }) q []))) ∧
    (∀ log total kept all, Asked s.dev r 0x52 q → le q.body 20 4 ≤ 254 → log = (s.dev.part p).dlog → total = (s.dev.part p).dlogWritten.toNat →
      le q.body 16 4 ≤ total → kept = min (total - le q.body 16 4) log.length →
      all = (log.drop (log.length - kept)).mapIdx (fun i e => (i, e)) → exec (.digestRead r) s = .next (s.putDev (let hits := (all.filter fun e => decide (le q.body 0 8 ≤ e.2.step.toNat ∧ e.2.step.toNat ≤ le q.body 8 8)).take (le q.body 20 4)
        let next := if hits.length < le q.body 20 4 then total else match hits.getLast? with
          | some e => (2 ^ 32 + total - kept + (e.1 + 1)) % 2 ^ 32
          | none => (2 ^ 32 + total - kept) % 2 ^ 32
        respondOk s.dev q (toLe 16 (packNat [(0, hits.length), (32, total - le q.body 16 4 - kept), (64, next)]) ++ hits.flatMap fun e => digestBytes e.2))))

/-- Mailbox commands: log, health, firmware, attestation, manager, registers. For an outstanding request of the
command's code that may run. LOG_READ of at most 254 entries: answered with their number, the number lost, the next
index and the entries, nothing cleared. HEALTH_QUERY of section bits 0 to 8: answered with the sections asked for, in
order, nothing cleared. FW_STAGE, no commit under way, of a FIRMWARE window no shorter than LEN: an image whose bytes
pass the checks is staged and its version answered, another is answered with the status of the check that failed.
FW_COMMIT of the staged version begins, the image in flash gone: without RESET and outside network recovery
unanswered; with RESET or in recovery, and no partition there, answered ACCEPTED, the reset waiting for that answer;
on its next execution the image is stored, answered OK where it was not yet, and FW_DONE reported. ATTEST with a HOST
window that holds log and signature, and a leaf to use: the leaf is used, the log blob and the signature, by that leaf
over the nonce, the device ID and the blob's digest, are written there, and their lengths answered. MANAGER_ASSIGN
that R471 allows, of role 0: the role is gone; of role 1 or 2: the role, block and peer stand in SCH_MGR; both times
not yet in effect. JOB_LAUNCH at a manager of a good specification: ACCEPTED, and the launch of the job as specified
starts. FENCE_DEVICE at a manager, not begun, of a device of the block: without REJOIN the fence is asked for, the
device is probed, and every job handles it as lost; with REJOIN it is a spare again, no longer counted lost, and the
fence is asked for. REG_READ of a good range: every register's value is answered, reads that clear having cleared.
REG_WRITE of a good range: each register is written in order, and it is answered OK. Checks, statuses and what is open
are logs 6, 13, 42, 43, 52, 56. Rests on spec/16_host_link_mailbox.md; spec/17_manager_launch.md;
spec/18_boot_and_trust.md; spec/20_health_log_codes.md. -/
def Obligations.ServiceCommandsComplete : Prop :=
  ∀ (r : ReqId) (s : State) (q : Req),
    (Asked s.dev r 0x60 q → le q.body 8 4 ≤ 254 → exec (.logRead r) s = .next (s.putDev (let es := readLog s.dev.log (le q.body 0 8) (le q.body 8 4)
      respondOk s.dev q (toLe 16 (packNat [(0, es.length), (32, lostOf es), (64, logNext es (le q.body 0 8) % 2 ^ 64)]) ++ es.flatMap entryBytes)))) ∧
    (Asked s.dev r 0x61 q → le q.body 0 4 < 512 → exec (.healthQuery r) s = .next (s.putDev (respondOk s.dev q ((bitsSet 9 (le q.body 0 4)).flatMap (sectionBytes s.fuses s.dev))))) ∧
    (∀ w img, Asked s.dev r 0x70 q → s.dev.boot.commit = none → tget s.dev.host.windows (winIdx 0 (le q.body 0 2)) = some w →
      w.kind = .firmware → le q.body 0 2 < 64 → le q.body 4 4 ≤ w.len → le q.body 2 2 = 0 →
      img = mread (tgetD s.dev.host.staging (winIdx 0 (le q.body 0 2)) []) 0 (le q.body 4 4) →
      exec (.fwStage r) s = .next (s.putDev (match fwCheck s.fuses img with
        | .inl why => respondErr s.dev q (stageStatus why)
        | .inr x => respondOk { s.dev with boot := { s.dev.boot with staged := some x } } q (toLe 4 x.version.toNat)))) ∧
    (∀ x d, Asked s.dev r 0x71 q → q.started = false → s.dev.boot.commit = none → s.dev.boot.staged = some x → s.dev.boot.dramDefect = false →
      x.version.toNat = le q.body 0 4 → le q.body 4 1 ≤ 1 → d = { s.dev with boot := { s.dev.boot with commit := some (q, x) } } →
      (commitResets s.dev q = false → exec (.fwCommit r) s = .next { s with
        fuses := { s.fuses with image := [] }
        dev := markStarted d q }) ∧
      (commitResets s.dev q = true → s.dev.parts.any (fun p => p.2.valid) = false → exec (.fwCommit r) s = .next { s with
        fuses := { s.fuses with image := [] }
        dev := respond { d with boot := { d.boot with
          resetAfter := some (q.id.session, ((findSession s.dev q.id.session).map (·.sndNext)).getD 0) } } q sAccepted 0xFFFF [] })) ∧
    (∀ x d, s.dev.boot.commit = some (q, x) → q.id = r → d = { s.dev with boot := { s.dev.boot with commit := none } } →
      (commitResets d q = false → exec (.fwCommit r) s = .next { s with
        fuses := { s.fuses with image := x.bytes }
        dev := fwDone (respondOk d q []) q (le q.body 0 4) }) ∧
      (commitResets d q = true → exec (.fwCommit r) s = .next { s with
        fuses := { s.fuses with image := x.bytes }
        dev := fwDone d q (le q.body 0 4) })) ∧
    (∀ w leaf t blob, Asked s.dev r 0x72 q → tget s.dev.host.windows (winIdx 0 (le q.body 32 2)) = some w → w.kind = .host → le q.body 32 2 < 64 →
      blob = logBlob s.fuses s.dev.boot → blob.length + 2828 ≤ w.len → takeLeaf s = some (leaf, t) → exec (.attest r) s = .next (t.putDev (
        let sign := identitySignature t.fuses leaf (attestMsg q s.dev blob)
        respondOk (attestWrites t.dev q w.addr (blob ++ sign)) q (toLe 8 (packNat [(0, blob.length), (32, 2828)]))))) ∧
    (∀ role first n : Nat, ∀ peer : DevId, Asked s.dev r 0x80 q → role = le q.body 0 1 → first = le q.body 1 1 → n = le q.body 2 1 → le q.body 3 1 = 0 →
      peer = BitVec.ofNat 16 (le q.body 4 2) → roleOk s.dev role first n peer = true →
      exec (.managerAssign r) s = .next (s.putDev (let v : U64 := if role = 0 then 0 else pack 64 [(0, role), (4, first), (8, n), (16, peer.toNat)]
        respondOk { s.dev with mgr := { s.dev.mgr with scm := merge scmMask s.dev.mgr.scm v, active := false, heard := false, sent := false } } q []))) ∧
    (Asked s.dev r 0x81 q → isManager s.dev = true → le q.body 12 4 = 0 → specOk s.dev (BitVec.ofNat 64 (le q.body 0 8)) (q.body.drop 16) = true →
      exec (.jobLaunch r) s = .next (s.putDev (let d := accept s.dev q
        launchStart { d with mgr := { d.mgr with jobs := d.mgr.jobs ++ [newJob q s.dev] } } (BitVec.ofNat 64 (le q.body 0 8))))) ∧
    (Asked s.dev r 0x82 q → q.started = false → isManager s.dev = true → inBlock s.dev (fdDev q.body) = true →
      (le q.body 2 1 = 0 → exec (.fenceDevice r) s = .next (s.putDev (jobsLose (escalate (fenceAsk (dropSpare (markStarted s.dev q) (fdDev q.body)) (fdDev q.body) false (some q.id)) (fdDev q.body) true)
          (fdDev q.body) s.dev.time.now))) ∧
      (le q.body 2 1 = 1 → exec (.fenceDeviceRejoin r) s = .next (s.putDev (let d := addSpare (markStarted s.dev q) (fdDev q.body)
        fenceAsk { d with rec_ := { d.rec_ with lost := d.rec_.lost.filter (· != fdDev q.body) } } (fdDev q.body) true (some q.id))))) ∧
    (Asked s.dev r 0xF0 q → regRangeOk q.body = true → exec (.regRead r) s = .next (s.putDev (let y := readRegs s.fuses (le q.body 8 2) (le q.body 0 8) s.dev
      respondOk y.2 q y.1))) ∧
    (Asked s.dev r 0xF1 q → regRangeOk q.body = true → q.body.length = 16 + 8 * le q.body 8 2 → exec (.regWrite r) s = .next (s.putDev (let write := fun (d : Dev) (k : Nat) => match regAt (le q.body 0 8 + 8 * k) with
        | some x => regWriteLog d x (BitVec.ofNat 64 (le q.body (16 + 8 * k) 8))
        | none => d
      respondOk ((List.range (le q.body 8 2)).foldl write s.dev) q [])))

/-- REG_WRITE bypasses the mailbox commands' checks. REG_WRITE, outstanding and free to run, of one register, while
any partition exists, writes that register as REGISTER_WRITE does and is answered OK, a register that a mailbox
command manages not excepted. So a REG_WRITE of SCH_WEIGHT of a partition that exists, not of 0, changes its WEIGHT,
and one of its SCH_WEIR_RATE its rates. That the write simply takes place where R453 says that the rules hold no
longer is the model's reading (log 56), and where a register lies is a free map (log 6). Rests on
spec/16_host_link_mailbox.md; spec/13_partitions_scheduling.md. -/
def Obligations.RegWriteBypassesCommandChecks : Prop :=
  ∀ (r : ReqId) (s : State) (q : Req) (x : Reg) (v : U64), Asked s.dev r 0xF1 q → q.body.length = 24 → le q.body 8 2 = 1 →
    regRangeOk q.body = true → regAt (le q.body 0 8) = some x → v = BitVec.ofNat 64 (le q.body 16 8) → s.dev.parts.any (fun y => y.2.valid) = true →
    exec (.regWrite r) s = .next (s.putDev (respondOk (regWriteLog s.dev x v) q [])) ∧
    (∀ p, p < 16 → (s.dev.part p).valid = true → ∃ t, exec (.regWrite r) s = .next t ∧
      (x = .schWeight p → fld v 7 0 ≠ 0 → (t.dev.part p).weight = fld v 7 0) ∧
      (x = .weirRate p → (t.dev.part p).weirRate = v))

/-- Every reset loses what R485 says and keeps the fuses and the flash. RESET_IN_ASSERT (not held, rails not off for a
cause), BROWN_OUT, OVER_VOLTAGE and EPO_ASSERT (rails not off for a cause) and FW_COMMIT_RESET, the write done and the
response it waits for acknowledged, each answer a next state t. LAST_RESET of t is 1, 0, 5, 4 and 2. In t there is no
partition, session, window, outstanding request, log entry, DRAM or SRAM byte, the time base is 0, the boot stage is
the ROM; the other fuses, the firmware image and the leaf records are kept, and every flash block reads as before. The
rails are down but for FW_COMMIT_RESET. What of the power controller stays is log 50, what memory reads log 8. Rests
on spec/18_boot_and_trust.md; spec/19_power_thermal_mechanical.md. -/
def Obligations.EveryResetIsFull : Prop :=
  ∀ (s : State),
    let lost := fun (k : Nat) (t : State) =>
      t.fuses = { s.fuses with lastReset := k } ∧ t.dev.parts = [] ∧ t.dev.host.sessions = [] ∧ t.dev.host.windows = [] ∧
      t.dev.host.reqs = [] ∧ t.dev.log.dram = [] ∧ t.dev.log.sram = [] ∧ t.dev.mem.dram = [] ∧ t.dev.cst.sram = [] ∧
      (∀ n, (t.dev.core n).sram = []) ∧ t.dev.time.now = 0 ∧ t.dev.boot.stage = .rom ∧
      ∀ k, readBlock t.dev.ftl k = readBlock s.dev.ftl k
    (s.dev.boot.held = false → s.dev.pwr.off = none →
      ∃ t, exec .resetInAssert s = .next t ∧ lost 1 t ∧ t.dev.boot.held = true ∧ t.dev.pwr.rails = false) ∧
    (∃ t, exec .brownOut s = .next t ∧ lost 0 t ∧ t.dev.pwr.rails = false) ∧
    (s.dev.pwr.off = none →
      (∃ t, exec .overVoltage s = .next t ∧ lost 5 t ∧ t.dev.pwr.off = some .overVoltage ∧ t.dev.pwr.rails = false) ∧
      (∃ t, exec .epoAssert s = .next t ∧ lost 4 t ∧ t.dev.pwr.off = some .epo ∧ t.dev.pwr.rails = false)) ∧
    (s.dev.boot.commit = none → commitAcked s.dev = true → ∃ t, exec .fwCommitReset s = .next t ∧ lost 2 t)

/-- Power events and the sideband. An input found at a proper level is faulty no longer (inputSeen). RESET_IN_RELEASE
of a held part raises the rails unless they are off for a cause. INPUT_STABLE after a brown-out, an over-voltage or a
cleared cause: the rails come up unless the part is held. EPO_DEASSERT ends the EPO cause, TRIP_COOLED that of a
thermal trip; both leave the wait for a stable input. LOW_INPUT between 40 V and 44 V with rails up, not low before:
noted, counted, logged. SIDEBAND_FAULT of an input not yet faulty: SB_FAULT, counted, logged; RESET_IN_N then counts
as high, EPO_N as low. SLOT_ID_SAMPLE in the ROM stage whose last three agree, no bit faulty: SLOT is fixed.
SLOT_ID_CHANGE after that: logged alone. What a reset keeps of the inputs is log 50. Rests on
spec/19_power_thermal_mechanical.md; spec/18_boot_and_trust.md. -/
def Obligations.PowerAndSidebandComplete : Prop :=
  ∀ (s : State),
    (∀ d, d = inputSeen (· == .resetIn) s.dev → s.dev.boot.held = true → exec .resetInRelease s = .next (s.putDev ({ d with
      boot := { d.boot with held := false }, pwr := { d.pwr with rails := d.pwr.off.isNone } }))) ∧
    (∀ o, s.dev.pwr.off = some o → o ≠ .epo → o ≠ .thermalTrip → exec .inputStable s = .next (s.putDev ({ s.dev with pwr := { s.dev.pwr with off := none, rails := !s.dev.boot.held } }))) ∧
    (∀ d, d = inputSeen (· == .epo) s.dev → s.dev.pwr.epoLow = true → s.dev.pwr.off = some .epo → exec .epoDeassert s = .next (s.putDev ({ d with pwr := { d.pwr with epoLow := false, off := some .stable } }))) ∧
    (s.dev.pwr.epoLow = false → s.dev.pwr.off = some .thermalTrip → exec .tripCooled s = .next (s.putDev ({ s.dev with pwr := { s.dev.pwr with off := some .stable } }))) ∧
    (∀ vin, 400 ≤ vin → vin < 440 → s.dev.pwr.rails = true → s.dev.pwr.lowInput = false →
      exec (.lowInput vin) s = .next (s.putDev (logInput (pwrErr { s.dev with pwr := { s.dev.pwr with vin := vin, lowInput := true } } 0) sevWarning srcPwr 3 0 vin))) ∧
    (∀ i d, i ∉ s.dev.pwr.faulty → d = logInput { pwrErr s.dev 3 with pwr := { (pwrErr s.dev 3).pwr with
        faulty := s.dev.pwr.faulty ++ [i], sbFault := true } } sevWarning srcPwr 1 (contactOf i) 0 →
      (∀ b, i = .slotId b → exec (.sidebandFault i) s = .next (s.putDev (d))) ∧
      (i = .resetIn → s.dev.boot.held = true → exec (.sidebandFault i) s = .next (s.putDev ({ d with boot := { d.boot with held := false }, pwr := { d.pwr with rails := d.pwr.off.isNone } }))) ∧
      (i = .resetIn → s.dev.boot.held = false → exec (.sidebandFault i) s = .next (s.putDev (d))) ∧
      (i = .epo → s.dev.pwr.off = none → ∃ t, exec (.sidebandFault i) s = .next t ∧ t.dev.pwr.off = some .epo ∧ t.fuses.lastReset = 4)) ∧
    (∀ v a, s.dev.pwr.rails = true → s.dev.boot.stage = .rom → s.dev.boot.slotFixed = false → slotFaulty s.dev.pwr = false →
      lastN 3 (s.dev.boot.slotSamples ++ [v]) = a → a = [v, v, v] → exec (.slotIdSample v) s = .next (s.putDev ({ s.dev with boot := { s.dev.boot with slotSamples := a, slotFixed := true }, pwr := { s.dev.pwr with slot := v } }))) ∧
    (∀ v d, d = inputSeen isSlotId s.dev →
      (s.dev.boot.slotFixed = true → exec (.slotIdChange v) s = .next (s.putDev (logInput d sevNotice srcPwr 2 0 v.toNat))) ∧
      (s.dev.boot.slotFixed = false → exec (.slotIdChange v) s = .next (s.putDev (d))))

/-- Boot stages, sensors, governor, and the end of a second. BOOT_STAGE_DONE with outcome ok and rails up: from the
ROM with SLOT fixed to FLASH_MOUNT, from FLASH_MOUNT to VERIFY, from the DRAM test to OPTICS, defects spared
beforehand being counted as R304 has it, from OPTICS to NETWORK with every port starting, and from NETWORK with the
Ethernet link up to READY; a defect in the DRAM test enters recovery with REASON 5. SENSOR_SAMPLE with rails up: a
sensor at 110 degrees turns the rails off with LAST_RESET 3; otherwise the sample is noted with refresh, alert and
hold. GOVERNOR_TICK out of hold at or above 0.60 V: no limit exceeded and below target, up one step; a limit exceeded
above 0.60 V, down one step, LIMIT names it. LOG_RATE_SECOND: the counts of the second restart, and each source with
suppressed entries has its SUPPRESSED entry. The governor's step is log 51, the SUPPRESSED entry's form log 55. Rests
on spec/18_boot_and_trust.md; spec/19_power_thermal_mechanical.md; spec/20_health_log_codes.md. -/
def Obligations.BootAndGovernorComplete : Prop :=
  ∀ (s : State), (s.dev.pwr.rails = true →
      (s.dev.boot.stage = .rom → s.dev.boot.slotFixed = true → exec (.bootStageDone .ok) s = .next (s.putDev (enterStage s.fuses .flashMount { s.dev with boot := { s.dev.boot with fwRegionOk := true } }))) ∧
      (s.dev.boot.stage = .flashMount → exec (.bootStageDone .ok) s = .next (s.putDev (enterStage s.fuses .verify s.dev))) ∧
      (s.dev.boot.stage = .dramTest → exec (.bootStageDone .ok) s = .next (s.putDev (enterStage s.fuses .optics s.dev)) ∧
        (∀ rows banks, exec (.bootStageDone (.dramSpared rows banks)) s = .next (s.putDev (enterStage s.fuses .optics (selfTestSpared rows banks s.dev)))) ∧
        exec (.bootStageDone .dramDefect) s = .next (s.putDev (enterRecovery s.fuses 5 { s.dev with boot := { s.dev.boot with dramDefect := true } }))) ∧
      (s.dev.boot.stage = .optics → exec (.bootStageDone .ok) s = .next (s.putDev (lightPorts (enterStage s.fuses .network s.dev)))) ∧
      (s.dev.boot.stage = .network → s.dev.host.link = true →
        exec (.bootStageDone .ok) s = .next (s.putDev (mailboxReady s.fuses s.dev))) ∧
      (∀ x, trips x = true → ∃ t, exec (.sensorSample x) s = .next t ∧ t.fuses.lastReset = 3 ∧ t.dev.pwr.rails = false ∧
        t.dev.pwr.off = some .thermalTrip) ∧
      (∀ x, trips x = false → exec (.sensorSample x) s = .next (s.putDev (sample x s.dev))) ∧
      (s.dev.pwr.hold = false → 120 ≤ s.dev.pwr.vcore →
        (exceeded s.dev.pwr = none → s.dev.pwr.vcore + 1 < fld s.dev.pwr.cfg 19 12 → exec .governorTick s = .next (s.putDev ({ s.dev with pwr := { s.dev.pwr with vcore := s.dev.pwr.vcore + 1 } }))) ∧
        (∀ l, exceeded s.dev.pwr = some l → 120 < s.dev.pwr.vcore → exec .governorTick s = .next (s.putDev ({ s.dev with pwr := { s.dev.pwr with
            vcore := min (fld s.dev.pwr.cfg 19 12) (s.dev.pwr.vcore - 1), limit := l } }))))) ∧
    (∀ d, d = { s.dev with
        log := { s.dev.log with rates := [] }
        fab := { s.dev.fab with ports := s.dev.fab.ports.map fun (x : Nat × Port) => (x.1, { x.2 with discards := 0 }) } } →
      exec .logRateSecond s = .next (s.putDev (s.dev.log.rates.foldl logSuppressed d)) ∧
      ((∀ r ∈ s.dev.log.rates, r.left = 0) → exec .logRateSecond s = .next (s.putDev (d))))

/-- The rails follow their causes and come back only as the spec lets them. The rails are up exactly when no cause
holds them off and RESET_IN_N is not asserted: every step keeps this, and reset meets it. Under it, for every command
and next state: a held-off part loses its cause only by INPUT_STABLE, and then the cause was neither EPO nor a thermal
trip; an EPO cause changes only by EPO_DEASSERT or BROWN_OUT, a thermal trip only by TRIP_COOLED or BROWN_OUT. Rests
on spec/19_power_thermal_mechanical.md; spec/18_boot_and_trust.md. -/
def Obligations.RailsFollowTheirCauses : Prop :=
  let inv := fun (s : State) => s.dev.pwr.rails = (s.dev.pwr.off.isNone && !s.dev.boot.held)
  inv State.reset ∧ (∀ s t : State, inv s → step s = .next t → inv t) ∧
  ∀ (c : Instr) (s t : State), inv s → exec c s = .next t →
    (s.dev.pwr.off ≠ none → t.dev.pwr.off = none →
      c = .inputStable ∧ s.dev.pwr.off ≠ some .epo ∧ s.dev.pwr.off ≠ some .thermalTrip) ∧
    (s.dev.pwr.off = some .epo → t.dev.pwr.off ≠ some .epo → c = .epoDeassert ∨ c = .brownOut) ∧
    (s.dev.pwr.off = some .thermalTrip → t.dev.pwr.off ≠ some .thermalTrip → c = .tripCooled ∨ c = .brownOut)

/-- PWR_CFG: fields, ranges and reset values. With the rails on, a PWR_CFG_WRITE with every field in its range (CAP_W
700 to 1400, VTARGET 120 to 170, ALERT_J 60 to 100, ALERT_D 60 to 95) takes effect: the four fields read as written,
the reserved fields (11, 23:20, 63:40) read zero, and the governor and the alert use them from then on. A write with a
field out of range is ignored and logged: PWR_CFG is unchanged. After reset the fields are 1,250, 0x96, 95 and 90, the
reserved ones zero. The same holds of REGISTER_WRITE to PWR_CFG. Rule R516. -/
def Obligations.PwrCfgFields : Prop :=
  (∀ (v : U64) (s : State), s.dev.pwr.rails = true →
    let ok := 700 ≤ fld v 10 0 ∧ fld v 10 0 ≤ 1400 ∧ 120 ≤ fld v 19 12 ∧ fld v 19 12 ≤ 170 ∧ 60 ≤ fld v 31 24 ∧ fld v 31 24 ≤ 100 ∧
      60 ≤ fld v 39 32 ∧ fld v 39 32 ≤ 95
    (ok → ∃ w : U64, exec (.pwrCfgWrite v) s = .next (s.putDev ({ s.dev with pwr := { s.dev.pwr with cfg := w } })) ∧
      exec (.registerWrite .pwrCfg v) s = exec (.pwrCfgWrite v) s ∧
      fld w 10 0 = fld v 10 0 ∧ fld w 19 12 = fld v 19 12 ∧ fld w 31 24 = fld v 31 24 ∧ fld w 39 32 = fld v 39 32 ∧
      fld w 11 11 = 0 ∧ fld w 23 20 = 0 ∧ fld w 63 40 = 0) ∧
    (¬ ok → exec (.pwrCfgWrite v) s = .next (s.putDev (logIgnored s.dev srcPwr .pwrCfg v.toNat)) ∧
      exec (.registerWrite .pwrCfg v) s = exec (.pwrCfgWrite v) s ∧
      (logIgnored s.dev srcPwr .pwrCfg v.toNat).pwr = s.dev.pwr)) ∧
  fld State.reset.dev.pwr.cfg 10 0 = 1250 ∧ fld State.reset.dev.pwr.cfg 19 12 = 0x96 ∧ fld State.reset.dev.pwr.cfg 31 24 = 95 ∧
  fld State.reset.dev.pwr.cfg 39 32 = 90 ∧ fld State.reset.dev.pwr.cfg 11 11 = 0 ∧ fld State.reset.dev.pwr.cfg 23 20 = 0 ∧
  fld State.reset.dev.pwr.cfg 63 40 = 0

/-- Register writes: one-to-clear flags, ignored writes, read-only registers. With the rails on, REGISTER_WRITE of a
sticky flag register (PART_ARITH_FLAGS, GATE_FLAGS, SLC_FLAGS, RILL_FLAGS, GRD_FLAGS of a partition below 16): a
written 1 clears its bit, a written 0 leaves it, and nothing else of the partition changes. Of a status register or
any error counter: the device is unchanged. Of a register whose value the spec does not allow there (SLC_TAGRES beyond
4,096, RILL_CFG with chunk 7, SCH_WEIGHT or SCH_WATCHDOG zero, LOG_CFG with a zero rate): ignored and logged.
GRD_CFG_WRITE with a queue of 1 to 64, a task present: it waits for the boundary; with 0 or more than 64: ignored and
logged. Rests on spec/00_scope.md; spec/03_expert_core.md; spec/04_gate_unit.md; spec/05_sluice_exchange.md;
spec/09_rill_collectives.md; spec/10_gradient_reduction.md; spec/11_memory_tiers.md; spec/13_partitions_scheduling.md;
spec/15_fault_recovery.md; spec/16_host_link_mailbox.md; spec/19_power_thermal_mechanical.md;
spec/20_health_log_codes.md. -/
def Obligations.RegisterWritesComplete : Prop :=
  (∀ (p : Nat) (v : U64) (s : State), s.dev.pwr.rails = true → p < 16 →
    let w : U32 := BitVec.ofNat 32 v.toNat
    exec (.registerWrite (.partArith p) v) s = .next (s.putDev (s.dev.modPart p fun x => { x with arith := x.arith &&& ~~~w })) ∧
    exec (.registerWrite (.gateFlags p) v) s = .next (s.putDev (s.dev.modPart p fun x => { x with gateFlags := x.gateFlags &&& ~~~w })) ∧
    exec (.registerWrite (.slcFlags p) v) s = .next (s.putDev (s.dev.modPart p fun x => { x with slcFlags := x.slcFlags &&& ~~~w })) ∧
    exec (.registerWrite (.rillFlags p) v) s = .next (s.putDev (s.dev.modPart p fun x => { x with rillFlags := x.rillFlags &&& ~~~w })) ∧
    exec (.registerWrite (.grdFlags p) v) s = .next (s.putDev (s.dev.modPart p fun x => { x with grdFlags := x.grdFlags &&& ~~~w })) ∧
    (fld w 7 0 = 0 → exec (.registerWrite (.schWeight p) v) s = .next (s.putDev (logIgnored s.dev (regSource (.schWeight p)) (.schWeight p) v.toNat))) ∧
    (fld w 15 0 = 0 → exec (.registerWrite (.schWatchdog p) v) s = .next (s.putDev (logIgnored s.dev (regSource (.schWatchdog p)) (.schWatchdog p) v.toNat))) ∧
    (fld v 14 8 = 0 ∨ 64 < fld v 14 8 → exec (.grdCfgWrite p v) s = .next (s.putDev (logIgnored s.dev srcGrd (.grdCfg p) v.toNat))) ∧
    (1 ≤ fld v 14 8 → fld v 14 8 ≤ 64 → noTasks (s.dev.modPart p fun x => { x with grdCfgNext := some (merge grdCfgMask 0 v) }) p = false →
      exec (.grdCfgWrite p v) s = .next (s.putDev (s.dev.modPart p fun x => { x with grdCfgNext := some (merge grdCfgMask 0 v) })))) ∧
  (∀ (v : U64) (s : State), s.dev.pwr.rails = true →
    (∀ i, ∀ r ∈ [Reg.slcStatus, .rmStatus, .rmFenced, .rillStatus, .memStatus, .ftlStatus, .recovStatus, .hostStatus, .bootStatus, .bootKeys,
        .pwrStatus, .pwrTherm, .logStatus, .slcErr i, .fabErr i, .rmErr i, .rillErr i, .memErr i, .ftlErr i, .cstErr i, .dmaErr i,
        .schErr i, .hostErr i, .pwrErr i, .logErr i, .grdErr (i / 4) (i % 4)],
      exec (.registerWrite r v) s = .next s) ∧
    (4096 < fld (BitVec.ofNat 32 v.toNat) 12 0 + fld (BitVec.ofNat 32 v.toNat) 25 13 → exec (.registerWrite .slcTagres v) s =
      .next (s.putDev (logIgnored s.dev (regSource .slcTagres) .slcTagres v.toNat))) ∧
    (fld (BitVec.ofNat 32 v.toNat) 22 20 = 7 → exec (.registerWrite .rillCfg v) s =
      .next (s.putDev (logIgnored s.dev (regSource .rillCfg) .rillCfg v.toNat))) ∧
    (fld v 15 0 = 0 → exec (.registerWrite .logCfg v) s = .next (s.putDev (logIgnored s.dev (regSource .logCfg) .logCfg v.toNat))))

/-- Device DRAM reads back what was written, and no other byte changes. For a partition whose page list repeats no
page, a DRAM memory in canonical form and a range below the top of the DRAM range that lies inside the quota: after
writeRange of a list of bytes, readRange of the range gives those bytes, every other DRAM address of the partition
reads as before, the page list is unchanged, and the memory is again in canonical form. A poisoned line that the write
covers in part stays poisoned. Rests on spec/11_memory_tiers.md. -/
def Obligations.DramReadsBack : Prop :=
  ∀ (d : Dev) (p a : Nat) (bs : List Byte), (d.part p).pages.Nodup → Memory.wf d.mem.dram = true → a + bs.length ≤ dramTop →
    okRange d p false a bs.length = true →
    let e := writeRange d p false a bs
    readRange e p false a bs.length = bs ∧
    (∀ b, b < dramTop → (b < a ∨ a + bs.length ≤ b) → readRange e p false b 1 = readRange d p false b 1) ∧
    (e.part p).pages = (d.part p).pages ∧ Memory.wf e.mem.dram = true ∧
    ∀ l ∈ d.mem.poison, (∃ i, i < 64 ∧ Loc.dram (64 * l + i) ∉ locs d p false a bs.length) → l ∈ e.mem.poison
end

