-- ==== Sys2Proof/Laws/Bytes.lean ====
section
/-! SUPPORT. Little-endian bytes and the CRC-32C: what the provers cite instead of unfolding them. -/

namespace Sys2Proof.Machine

@[simp] theorem toLe_length (n v : Nat) : (toLe n v).length = n := by
  induction n generalizing v with
  | zero => rfl
  | succ n ih => simp [toLe, ih]

/-- Reading back `n` little-endian bytes gives the number modulo 256^n. -/
theorem leNat_toLe (n v : Nat) : leNat (toLe n v) = v % 256 ^ n := by
  induction n generalizing v with
  | zero => simp only [toLe, leNat]; omega
  | succ n ih =>
    simp only [toLe, leNat, ih]
    rw [Nat.pow_succ', Nat.mod_mul]
    simp

theorem crc32Bits_lt (n c : Nat) (h : c < 2 ^ 32) : crc32Bits n c < 2 ^ 32 := by
  induction n generalizing c with
  | zero => exact h
  | succ n ih =>
    apply ih
    have : c >>> 1 < 2 ^ 32 := by rw [Nat.shiftRight_eq_div_pow]; omega
    split
    · exact Nat.xor_lt_two_pow this (by decide)
    · exact this

theorem crc32Fold_lt (bs : List Byte) (c : Nat) (h : c < 2 ^ 32) :
    bs.foldl (fun c b => crc32Bits 8 (c ^^^ b.toNat)) c < 2 ^ 32 := by
  induction bs generalizing c with
  | nil => exact h
  | cons b bs ih => exact ih _ (crc32Bits_lt _ _ (Nat.xor_lt_two_pow h (by have := b.isLt; omega)))

/-- A CRC-32C fits its four bytes (R182). -/
theorem crc32c_lt (bs : List Byte) : crc32c bs < 2 ^ 32 := Nat.xor_lt_two_pow (crc32Fold_lt bs _ (by decide)) (by decide)

end Sys2Proof.Machine
end

