-- ==== Sys2Proof/Laws/Tables.lean ====
section
/-! SUPPORT. What a table and a byte memory give back after a write, and that every memory operation
keeps the canonical form of a memory. -/

namespace Sys2Proof.Machine

variable {α : Type}

/-! ### Reads after writes of a table -/

@[simp] theorem tget_nil (a : Nat) : tget ([] : Tbl α) a = none := rfl

@[simp] theorem tget_tput_same (t : Tbl α) (a : Nat) (v : α) : tget (tput t a v) a = some v := by
  induction t with
  | nil => simp [tput, tget]
  | cons c t ih =>
    obtain ⟨k, w⟩ := c
    unfold tput
    split
    · simp [tget]
    · split
      · simp [tget]
      · rename_i h; simp [tget, h, ih]

theorem tget_tput_ne (t : Tbl α) {a b : Nat} (v : α) (h : b ≠ a) : tget (tput t a v) b = tget t b := by
  induction t with
  | nil => simp [tput, tget, h]
  | cons c t ih =>
    obtain ⟨k, w⟩ := c
    unfold tput
    split
    · simp [tget, h]
    · split
      · rename_i e; subst e; simp [tget, h]
      · simp [tget, ih]

theorem tget_tput (t : Tbl α) (a b : Nat) (v : α) : tget (tput t a v) b = if b = a then some v else tget t b := by
  split
  · rename_i h; subst h; simp
  · rename_i h; exact tget_tput_ne t v h

@[simp] theorem tgetD_nil (a : Nat) (x : α) : tgetD ([] : Tbl α) a x = x := rfl

@[simp] theorem tgetD_tput_same (t : Tbl α) (a : Nat) (v x : α) : tgetD (tput t a v) a x = v := by
  simp [tgetD]

theorem tgetD_tput_ne (t : Tbl α) {a b : Nat} (v x : α) (h : b ≠ a) : tgetD (tput t a v) b x = tgetD t b x := by
  simp [tgetD, tget_tput_ne t v h]

theorem tgetD_tput (t : Tbl α) (a b : Nat) (v x : α) :
    tgetD (tput t a v) b x = if b = a then v else tgetD t b x := by
  unfold tgetD; rw [tget_tput]; split <;> rfl

theorem tget_tdel_ne (t : Tbl α) {a b : Nat} (h : b ≠ a) : tget (tdel t a) b = tget t b := by
  induction t with
  | nil => rfl
  | cons c t ih =>
    obtain ⟨k, w⟩ := c
    unfold tdel
    split
    · rename_i e; subst e; simp [tget, h]
    · simp [tget, ih]

/-- A key below every key of a sorted table is absent. -/
theorem tget_sortedFrom_lt (t : Tbl α) {lo a : Nat} (h : Tbl.sortedFrom lo t = true) (ha : a < lo) : tget t a = none := by
  induction t generalizing lo with
  | nil => rfl
  | cons c t ih =>
    obtain ⟨k, w⟩ := c
    simp [Tbl.sortedFrom] at h
    have : a ≠ k := by omega
    simp [tget, this]
    exact ih h.2 (by omega)

theorem sortedFrom_mono (t : Tbl α) {lo lo' : Nat} (h : Tbl.sortedFrom lo t = true) (hl : lo' ≤ lo) :
    Tbl.sortedFrom lo' t = true := by
  cases t with
  | nil => rfl
  | cons c t =>
    obtain ⟨k, w⟩ := c
    simp [Tbl.sortedFrom] at h ⊢
    exact ⟨by omega, h.2⟩

theorem tget_tdel_same (t : Tbl α) {lo : Nat} (a : Nat) (h : Tbl.sortedFrom lo t = true) : tget (tdel t a) a = none := by
  induction t generalizing lo with
  | nil => rfl
  | cons c t ih =>
    obtain ⟨k, w⟩ := c
    simp [Tbl.sortedFrom] at h
    unfold tdel
    split
    · rename_i e; subst e; exact tget_sortedFrom_lt t h.2 (by omega)
    · rename_i e; simp [tget, e]; exact ih h.2

/-! ### Sortedness is kept -/

theorem sortedFrom_tput (t : Tbl α) {lo a : Nat} (v : α) (h : Tbl.sortedFrom lo t = true) (ha : lo ≤ a) :
    Tbl.sortedFrom lo (tput t a v) = true := by
  induction t generalizing lo with
  | nil => simp [tput, Tbl.sortedFrom, ha]
  | cons c t ih =>
    obtain ⟨k, w⟩ := c
    simp [Tbl.sortedFrom] at h
    unfold tput
    split
    · simp [Tbl.sortedFrom, ha, h.2]; omega
    · split
      · rename_i e; subst e; simp [Tbl.sortedFrom, ha, h.2]
      · simp [Tbl.sortedFrom, h.1]; exact ih h.2 (by omega)

theorem sortedFrom_tdel (t : Tbl α) {lo : Nat} (a : Nat) (h : Tbl.sortedFrom lo t = true) :
    Tbl.sortedFrom lo (tdel t a) = true := by
  induction t generalizing lo with
  | nil => rfl
  | cons c t ih =>
    obtain ⟨k, w⟩ := c
    simp [Tbl.sortedFrom] at h
    unfold tdel
    split
    · exact sortedFrom_mono t h.2 (by omega)
    · simp [Tbl.sortedFrom, h.1]; exact ih h.2

theorem sortedFrom_filter (t : Tbl α) {lo : Nat} (p : Nat × α → Bool) (h : Tbl.sortedFrom lo t = true) :
    Tbl.sortedFrom lo (List.filter p t) = true := by
  induction t generalizing lo with
  | nil => rfl
  | cons c t ih =>
    obtain ⟨k, w⟩ := c
    simp [Tbl.sortedFrom] at h
    have := ih h.2
    by_cases hp : p (k, w) = true
    · rw [List.filter_cons_of_pos hp]; simp [Tbl.sortedFrom, h.1, this]
    · rw [List.filter_cons_of_neg hp]; exact sortedFrom_mono _ this (by omega)

theorem tput_wf (t : Tbl α) (a : Nat) (v : α) (h : Tbl.wf t = true) : Tbl.wf (tput t a v) = true :=
  sortedFrom_tput t v h (Nat.zero_le a)

theorem tdel_wf (t : Tbl α) (a : Nat) (h : Tbl.wf t = true) : Tbl.wf (tdel t a) = true := sortedFrom_tdel t a h

/-! ### Byte memories (log 8) -/

theorem mem_tput {t : Tbl α} {a : Nat} {v : α} {c : Nat × α} (h : c ∈ tput t a v) : c = (a, v) ∨ c ∈ t := by
  induction t with
  | nil => simpa [tput] using h
  | cons e t ih =>
    obtain ⟨k, w⟩ := e
    unfold tput at h
    split at h
    · simpa using h
    · split at h
      · rcases List.mem_cons.1 h with h | h
        · exact .inl h
        · exact .inr (List.mem_cons_of_mem _ h)
      · rcases List.mem_cons.1 h with h | h
        · exact .inr (by rw [h]; exact List.mem_cons_self)
        · rcases ih h with h | h
          · exact .inl h
          · exact .inr (List.mem_cons_of_mem _ h)

theorem mem_tdel {t : Tbl α} {a : Nat} {c : Nat × α} (h : c ∈ tdel t a) : c ∈ t := by
  induction t with
  | nil => exact h
  | cons e t ih =>
    obtain ⟨k, w⟩ := e
    unfold tdel at h
    split at h
    · exact List.mem_cons_of_mem _ h
    · rcases List.mem_cons.1 h with h | h
      · rw [h]; exact List.mem_cons_self
      · exact List.mem_cons_of_mem _ (ih h)

theorem Memory.wf_iff (m : Memory) : Memory.wf m = true ↔ Tbl.wf m = true ∧ ∀ c ∈ m, c.2 ≠ 0 := by
  simp [Memory.wf]

/-- A byte write keeps the canonical form. -/
theorem mput_wf (m : Memory) (a : Nat) (b : Byte) (h : Memory.wf m = true) : Memory.wf (mput m a b) = true := by
  rw [Memory.wf_iff] at *
  unfold mput
  split
  · exact ⟨tdel_wf m a h.1, fun c hc => h.2 c (mem_tdel hc)⟩
  · rename_i hb
    refine ⟨tput_wf m a b h.1, fun c hc => ?_⟩
    rcases mem_tput hc with hc | hc
    · rw [hc]; exact hb
    · exact h.2 c hc

/-- A write of many bytes keeps the canonical form. -/
theorem mwrite_wf (m : Memory) (a : Nat) (bs : List Byte) (h : Memory.wf m = true) : Memory.wf (mwrite m a bs) = true := by
  induction bs generalizing m a with
  | nil => exact h
  | cons b bs ih => exact ih _ _ (mput_wf m a b h)

/-- Clearing a range keeps the canonical form. -/
theorem mclear_wf (m : Memory) (lo hi : Nat) (h : Memory.wf m = true) : Memory.wf (mclear m lo hi) = true := by
  rw [Memory.wf_iff] at *
  exact ⟨sortedFrom_filter m _ h.1, fun c hc => h.2 c (List.mem_filter.1 hc).1⟩

theorem nil_wf : Memory.wf [] = true := rfl

/-- A byte that is written reads back. -/
theorem mget_mput_same (m : Memory) (a : Nat) (b : Byte) (h : Memory.wf m = true) : mget (mput m a b) a = b := by
  rw [Memory.wf_iff] at h
  unfold mget mput
  split
  · rename_i hb; simp [tgetD, tget_tdel_same m a h.1, hb]
  · simp

/-- A byte write leaves every other address. -/
theorem mget_mput_ne (m : Memory) {a x : Nat} (b : Byte) (h : x ≠ a) : mget (mput m a b) x = mget m x := by
  unfold mget mput tgetD
  split
  · rw [tget_tdel_ne m h]
  · rw [tget_tput_ne m b h]

/-- A write leaves every address outside its bytes. -/
theorem mget_mwrite_out (m : Memory) (a x : Nat) (bs : List Byte) (h : x < a ∨ a + bs.length ≤ x) :
    mget (mwrite m a bs) x = mget m x := by
  induction bs generalizing m a with
  | nil => rfl
  | cons b bs ih =>
    simp only [List.length_cons] at h
    unfold mwrite
    rw [ih _ _ (by omega), mget_mput_ne _ _ (by omega)]

/-- A write's bytes read back. -/
theorem mget_mwrite_in (m : Memory) (a i : Nat) (bs : List Byte) (hw : Memory.wf m = true) (h : i < bs.length) :
    mget (mwrite m a bs) (a + i) = bs.getD i 0 := by
  induction bs generalizing m a i with
  | nil => simp at h
  | cons b bs ih =>
    unfold mwrite
    cases i with
    | zero =>
      rw [mget_mwrite_out _ _ _ _ (by omega)]
      simpa using mget_mput_same m a b hw
    | succ i =>
      have e : a + (i + 1) = a + 1 + i := by omega
      simp only [List.length_cons] at h
      rw [e, ih _ _ _ (mput_wf m a b hw) (by omega)]
      simp

/-- A read gives as many bytes as it asks for. -/
theorem length_mread (m : Memory) (a n : Nat) : (mread m a n).length = n := by simp [mread]

/-! ### Lists -/

/-- What a function leaves is what a fold of it leaves. -/
theorem foldl_keeps {β γ δ : Type} (g : β → δ) (f : β → γ → β) (h : ∀ b x, g (f b x) = g b) (b : β) (xs : List γ) :
    g (xs.foldl f b) = g b := by
  induction xs generalizing b with
  | nil => rfl
  | cons x xs ih => rw [List.foldl_cons, ih, h]

/-- A property that a function keeps is kept by a fold of it. -/
theorem foldl_inv {β γ : Type} (P : β → Prop) (f : β → γ → β) (h : ∀ b x, P b → P (f b x)) (b : β) (xs : List γ)
    (hb : P b) : P (xs.foldl f b) := by
  induction xs generalizing b with
  | nil => exact hb
  | cons x xs ih => exact ih _ (h _ _ hb)

end Sys2Proof.Machine
end

