-- ==== Sys2Proof/Laws/State.lean ====
section
/-! SUPPORT. What each update of the state leaves: one lemma per field and update, and what the accessors
give after it. -/

set_option Elab.async false

namespace Sys2Proof.Machine


/-! ### A partition's record -/

@[simp] theorem Dev.modPart_grade (d : Dev) (p : Nat) (f : Part → Part) : (d.modPart p f).grade = d.grade := rfl
@[simp] theorem Dev.modPart_fresh (d : Dev) (p : Nat) (f : Part → Part) : (d.modPart p f).fresh = d.fresh := rfl
@[simp] theorem Dev.modPart_time (d : Dev) (p : Nat) (f : Part → Part) : (d.modPart p f).time = d.time := rfl
@[simp] theorem Dev.modPart_boot (d : Dev) (p : Nat) (f : Part → Part) : (d.modPart p f).boot = d.boot := rfl
@[simp] theorem Dev.modPart_pwr (d : Dev) (p : Nat) (f : Part → Part) : (d.modPart p f).pwr = d.pwr := rfl
@[simp] theorem Dev.modPart_log (d : Dev) (p : Nat) (f : Part → Part) : (d.modPart p f).log = d.log := rfl
@[simp] theorem Dev.modPart_host (d : Dev) (p : Nat) (f : Part → Part) : (d.modPart p f).host = d.host := rfl
@[simp] theorem Dev.modPart_out (d : Dev) (p : Nat) (f : Part → Part) : (d.modPart p f).out = d.out := rfl
@[simp] theorem Dev.modPart_fab (d : Dev) (p : Nat) (f : Part → Part) : (d.modPart p f).fab = d.fab := rfl
@[simp] theorem Dev.modPart_rm (d : Dev) (p : Nat) (f : Part → Part) : (d.modPart p f).rm = d.rm := rfl
@[simp] theorem Dev.modPart_slc (d : Dev) (p : Nat) (f : Part → Part) : (d.modPart p f).slc = d.slc := rfl
@[simp] theorem Dev.modPart_rill (d : Dev) (p : Nat) (f : Part → Part) : (d.modPart p f).rill = d.rill := rfl
@[simp] theorem Dev.modPart_gate (d : Dev) (p : Nat) (f : Part → Part) : (d.modPart p f).gate = d.gate := rfl
@[simp] theorem Dev.modPart_cores (d : Dev) (p : Nat) (f : Part → Part) : (d.modPart p f).cores = d.cores := rfl
@[simp] theorem Dev.modPart_mem (d : Dev) (p : Nat) (f : Part → Part) : (d.modPart p f).mem = d.mem := rfl
@[simp] theorem Dev.modPart_ftl (d : Dev) (p : Nat) (f : Part → Part) : (d.modPart p f).ftl = d.ftl := rfl
@[simp] theorem Dev.modPart_cst (d : Dev) (p : Nat) (f : Part → Part) : (d.modPart p f).cst = d.cst := rfl
@[simp] theorem Dev.modPart_dma (d : Dev) (p : Nat) (f : Part → Part) : (d.modPart p f).dma = d.dma := rfl
@[simp] theorem Dev.modPart_sched (d : Dev) (p : Nat) (f : Part → Part) : (d.modPart p f).sched = d.sched := rfl
@[simp] theorem Dev.modPart_rec_ (d : Dev) (p : Nat) (f : Part → Part) : (d.modPart p f).rec_ = d.rec_ := rfl
@[simp] theorem Dev.modPart_mgr (d : Dev) (p : Nat) (f : Part → Part) : (d.modPart p f).mgr = d.mgr := rfl

@[simp] theorem Dev.part_modPart (d : Dev) (p : Nat) (f : Part → Part) : (d.modPart p f).part p = f (d.part p) := by
  simp [Dev.modPart, Dev.part]

theorem Dev.part_modPart_ne (d : Dev) {p q : Nat} (f : Part → Part) (h : q ≠ p) : (d.modPart p f).part q = d.part q := by
  simp [Dev.modPart, Dev.part, tgetD_tput_ne _ _ _ h]

theorem Dev.part_eq (d : Dev) (p : Nat) : d.part p = tgetD d.parts p {} := rfl
@[simp] theorem Dev.core_modPart (d : Dev) (p q : Nat) (f : Part → Part) : (d.modPart p f).core q = d.core q := rfl
@[simp] theorem Dev.port_modPart (d : Dev) (p q : Nat) (f : Part → Part) : (d.modPart p f).port q = d.port q := rfl
@[simp] theorem coreOf_modPart (d : Dev) (p n : Nat) (f : Part → Part) : coreOf (d.modPart p f) n = coreOf d n := rfl

/-! ### A core's record -/

@[simp] theorem Dev.modCore_grade (d : Dev) (n : Nat) (f : Core → Core) : (d.modCore n f).grade = d.grade := rfl
@[simp] theorem Dev.modCore_fresh (d : Dev) (n : Nat) (f : Core → Core) : (d.modCore n f).fresh = d.fresh := rfl
@[simp] theorem Dev.modCore_time (d : Dev) (n : Nat) (f : Core → Core) : (d.modCore n f).time = d.time := rfl
@[simp] theorem Dev.modCore_boot (d : Dev) (n : Nat) (f : Core → Core) : (d.modCore n f).boot = d.boot := rfl
@[simp] theorem Dev.modCore_pwr (d : Dev) (n : Nat) (f : Core → Core) : (d.modCore n f).pwr = d.pwr := rfl
@[simp] theorem Dev.modCore_log (d : Dev) (n : Nat) (f : Core → Core) : (d.modCore n f).log = d.log := rfl
@[simp] theorem Dev.modCore_host (d : Dev) (n : Nat) (f : Core → Core) : (d.modCore n f).host = d.host := rfl
@[simp] theorem Dev.modCore_out (d : Dev) (n : Nat) (f : Core → Core) : (d.modCore n f).out = d.out := rfl
@[simp] theorem Dev.modCore_fab (d : Dev) (n : Nat) (f : Core → Core) : (d.modCore n f).fab = d.fab := rfl
@[simp] theorem Dev.modCore_rm (d : Dev) (n : Nat) (f : Core → Core) : (d.modCore n f).rm = d.rm := rfl
@[simp] theorem Dev.modCore_slc (d : Dev) (n : Nat) (f : Core → Core) : (d.modCore n f).slc = d.slc := rfl
@[simp] theorem Dev.modCore_rill (d : Dev) (n : Nat) (f : Core → Core) : (d.modCore n f).rill = d.rill := rfl
@[simp] theorem Dev.modCore_gate (d : Dev) (n : Nat) (f : Core → Core) : (d.modCore n f).gate = d.gate := rfl
@[simp] theorem Dev.modCore_parts (d : Dev) (n : Nat) (f : Core → Core) : (d.modCore n f).parts = d.parts := rfl
@[simp] theorem Dev.modCore_mem (d : Dev) (n : Nat) (f : Core → Core) : (d.modCore n f).mem = d.mem := rfl
@[simp] theorem Dev.modCore_ftl (d : Dev) (n : Nat) (f : Core → Core) : (d.modCore n f).ftl = d.ftl := rfl
@[simp] theorem Dev.modCore_cst (d : Dev) (n : Nat) (f : Core → Core) : (d.modCore n f).cst = d.cst := rfl
@[simp] theorem Dev.modCore_dma (d : Dev) (n : Nat) (f : Core → Core) : (d.modCore n f).dma = d.dma := rfl
@[simp] theorem Dev.modCore_sched (d : Dev) (n : Nat) (f : Core → Core) : (d.modCore n f).sched = d.sched := rfl
@[simp] theorem Dev.modCore_rec_ (d : Dev) (n : Nat) (f : Core → Core) : (d.modCore n f).rec_ = d.rec_ := rfl
@[simp] theorem Dev.modCore_mgr (d : Dev) (n : Nat) (f : Core → Core) : (d.modCore n f).mgr = d.mgr := rfl

@[simp] theorem Dev.core_modCore (d : Dev) (n : Nat) (f : Core → Core) : (d.modCore n f).core n = f (d.core n) := by
  simp [Dev.modCore, Dev.core]

theorem Dev.core_modCore_ne (d : Dev) {n m : Nat} (f : Core → Core) (h : m ≠ n) : (d.modCore n f).core m = d.core m := by
  simp [Dev.modCore, Dev.core, tgetD_tput_ne _ _ _ h]

@[simp] theorem Dev.part_modCore (d : Dev) (p n : Nat) (f : Core → Core) : (d.modCore n f).part p = d.part p := rfl
@[simp] theorem Dev.port_modCore (d : Dev) (p n : Nat) (f : Core → Core) : (d.modCore n f).port p = d.port p := rfl

/-! ### A port's record -/

@[simp] theorem Dev.modPort_grade (d : Dev) (n : Nat) (f : Port → Port) : (d.modPort n f).grade = d.grade := rfl
@[simp] theorem Dev.modPort_fresh (d : Dev) (n : Nat) (f : Port → Port) : (d.modPort n f).fresh = d.fresh := rfl
@[simp] theorem Dev.modPort_time (d : Dev) (n : Nat) (f : Port → Port) : (d.modPort n f).time = d.time := rfl
@[simp] theorem Dev.modPort_boot (d : Dev) (n : Nat) (f : Port → Port) : (d.modPort n f).boot = d.boot := rfl
@[simp] theorem Dev.modPort_pwr (d : Dev) (n : Nat) (f : Port → Port) : (d.modPort n f).pwr = d.pwr := rfl
@[simp] theorem Dev.modPort_log (d : Dev) (n : Nat) (f : Port → Port) : (d.modPort n f).log = d.log := rfl
@[simp] theorem Dev.modPort_host (d : Dev) (n : Nat) (f : Port → Port) : (d.modPort n f).host = d.host := rfl
@[simp] theorem Dev.modPort_out (d : Dev) (n : Nat) (f : Port → Port) : (d.modPort n f).out = d.out := rfl
@[simp] theorem Dev.modPort_rm (d : Dev) (n : Nat) (f : Port → Port) : (d.modPort n f).rm = d.rm := rfl
@[simp] theorem Dev.modPort_slc (d : Dev) (n : Nat) (f : Port → Port) : (d.modPort n f).slc = d.slc := rfl
@[simp] theorem Dev.modPort_rill (d : Dev) (n : Nat) (f : Port → Port) : (d.modPort n f).rill = d.rill := rfl
@[simp] theorem Dev.modPort_gate (d : Dev) (n : Nat) (f : Port → Port) : (d.modPort n f).gate = d.gate := rfl
@[simp] theorem Dev.modPort_cores (d : Dev) (n : Nat) (f : Port → Port) : (d.modPort n f).cores = d.cores := rfl
@[simp] theorem Dev.modPort_parts (d : Dev) (n : Nat) (f : Port → Port) : (d.modPort n f).parts = d.parts := rfl
@[simp] theorem Dev.modPort_mem (d : Dev) (n : Nat) (f : Port → Port) : (d.modPort n f).mem = d.mem := rfl
@[simp] theorem Dev.modPort_ftl (d : Dev) (n : Nat) (f : Port → Port) : (d.modPort n f).ftl = d.ftl := rfl
@[simp] theorem Dev.modPort_cst (d : Dev) (n : Nat) (f : Port → Port) : (d.modPort n f).cst = d.cst := rfl
@[simp] theorem Dev.modPort_dma (d : Dev) (n : Nat) (f : Port → Port) : (d.modPort n f).dma = d.dma := rfl
@[simp] theorem Dev.modPort_sched (d : Dev) (n : Nat) (f : Port → Port) : (d.modPort n f).sched = d.sched := rfl
@[simp] theorem Dev.modPort_rec_ (d : Dev) (n : Nat) (f : Port → Port) : (d.modPort n f).rec_ = d.rec_ := rfl
@[simp] theorem Dev.modPort_mgr (d : Dev) (n : Nat) (f : Port → Port) : (d.modPort n f).mgr = d.mgr := rfl

@[simp] theorem Dev.port_modPort (d : Dev) (n : Nat) (f : Port → Port) : (d.modPort n f).port n = f (d.port n) := by
  simp [Dev.modPort, Dev.port]

theorem Dev.port_modPort_ne (d : Dev) {n m : Nat} (f : Port → Port) (h : m ≠ n) : (d.modPort n f).port m = d.port m := by
  simp [Dev.modPort, Dev.port, tgetD_tput_ne _ _ _ h]

@[simp] theorem Dev.part_modPort (d : Dev) (p n : Nat) (f : Port → Port) : (d.modPort n f).part p = d.part p := rfl
@[simp] theorem Dev.core_modPort (d : Dev) (p n : Nat) (f : Port → Port) : (d.modPort n f).core p = d.core p := rfl

/-! ### A session's record -/

@[simp] theorem modSession_grade (d : Dev) (sid : Nat) (f : Session → Session) : (modSession d sid f).grade = d.grade := rfl
@[simp] theorem modSession_fresh (d : Dev) (sid : Nat) (f : Session → Session) : (modSession d sid f).fresh = d.fresh := rfl
@[simp] theorem modSession_time (d : Dev) (sid : Nat) (f : Session → Session) : (modSession d sid f).time = d.time := rfl
@[simp] theorem modSession_boot (d : Dev) (sid : Nat) (f : Session → Session) : (modSession d sid f).boot = d.boot := rfl
@[simp] theorem modSession_pwr (d : Dev) (sid : Nat) (f : Session → Session) : (modSession d sid f).pwr = d.pwr := rfl
@[simp] theorem modSession_log (d : Dev) (sid : Nat) (f : Session → Session) : (modSession d sid f).log = d.log := rfl
@[simp] theorem modSession_out (d : Dev) (sid : Nat) (f : Session → Session) : (modSession d sid f).out = d.out := rfl
@[simp] theorem modSession_fab (d : Dev) (sid : Nat) (f : Session → Session) : (modSession d sid f).fab = d.fab := rfl
@[simp] theorem modSession_rm (d : Dev) (sid : Nat) (f : Session → Session) : (modSession d sid f).rm = d.rm := rfl
@[simp] theorem modSession_slc (d : Dev) (sid : Nat) (f : Session → Session) : (modSession d sid f).slc = d.slc := rfl
@[simp] theorem modSession_rill (d : Dev) (sid : Nat) (f : Session → Session) : (modSession d sid f).rill = d.rill := rfl
@[simp] theorem modSession_gate (d : Dev) (sid : Nat) (f : Session → Session) : (modSession d sid f).gate = d.gate := rfl
@[simp] theorem modSession_cores (d : Dev) (sid : Nat) (f : Session → Session) : (modSession d sid f).cores = d.cores := rfl
@[simp] theorem modSession_parts (d : Dev) (sid : Nat) (f : Session → Session) : (modSession d sid f).parts = d.parts := rfl
@[simp] theorem modSession_mem (d : Dev) (sid : Nat) (f : Session → Session) : (modSession d sid f).mem = d.mem := rfl
@[simp] theorem modSession_ftl (d : Dev) (sid : Nat) (f : Session → Session) : (modSession d sid f).ftl = d.ftl := rfl
@[simp] theorem modSession_cst (d : Dev) (sid : Nat) (f : Session → Session) : (modSession d sid f).cst = d.cst := rfl
@[simp] theorem modSession_dma (d : Dev) (sid : Nat) (f : Session → Session) : (modSession d sid f).dma = d.dma := rfl
@[simp] theorem modSession_sched (d : Dev) (sid : Nat) (f : Session → Session) : (modSession d sid f).sched = d.sched := rfl
@[simp] theorem modSession_rec_ (d : Dev) (sid : Nat) (f : Session → Session) : (modSession d sid f).rec_ = d.rec_ := rfl
@[simp] theorem modSession_mgr (d : Dev) (sid : Nat) (f : Session → Session) : (modSession d sid f).mgr = d.mgr := rfl

/-! ### Semaphores, Weirs and sticky flags -/

@[simp] theorem setSem_grade (d : Dev) (p i : Nat) (v : U32) : (setSem d p i v).grade = d.grade := rfl
@[simp] theorem setSem_fresh (d : Dev) (p i : Nat) (v : U32) : (setSem d p i v).fresh = d.fresh := rfl
@[simp] theorem setSem_time (d : Dev) (p i : Nat) (v : U32) : (setSem d p i v).time = d.time := rfl
@[simp] theorem setSem_boot (d : Dev) (p i : Nat) (v : U32) : (setSem d p i v).boot = d.boot := rfl
@[simp] theorem setSem_pwr (d : Dev) (p i : Nat) (v : U32) : (setSem d p i v).pwr = d.pwr := rfl
@[simp] theorem setSem_log (d : Dev) (p i : Nat) (v : U32) : (setSem d p i v).log = d.log := rfl
@[simp] theorem setSem_host (d : Dev) (p i : Nat) (v : U32) : (setSem d p i v).host = d.host := rfl
@[simp] theorem setSem_out (d : Dev) (p i : Nat) (v : U32) : (setSem d p i v).out = d.out := rfl
@[simp] theorem setSem_fab (d : Dev) (p i : Nat) (v : U32) : (setSem d p i v).fab = d.fab := rfl
@[simp] theorem setSem_rm (d : Dev) (p i : Nat) (v : U32) : (setSem d p i v).rm = d.rm := rfl
@[simp] theorem setSem_slc (d : Dev) (p i : Nat) (v : U32) : (setSem d p i v).slc = d.slc := rfl
@[simp] theorem setSem_rill (d : Dev) (p i : Nat) (v : U32) : (setSem d p i v).rill = d.rill := rfl
@[simp] theorem setSem_gate (d : Dev) (p i : Nat) (v : U32) : (setSem d p i v).gate = d.gate := rfl
@[simp] theorem setSem_cores (d : Dev) (p i : Nat) (v : U32) : (setSem d p i v).cores = d.cores := rfl
@[simp] theorem setSem_mem (d : Dev) (p i : Nat) (v : U32) : (setSem d p i v).mem = d.mem := rfl
@[simp] theorem setSem_ftl (d : Dev) (p i : Nat) (v : U32) : (setSem d p i v).ftl = d.ftl := rfl
@[simp] theorem setSem_cst (d : Dev) (p i : Nat) (v : U32) : (setSem d p i v).cst = d.cst := rfl
@[simp] theorem setSem_dma (d : Dev) (p i : Nat) (v : U32) : (setSem d p i v).dma = d.dma := rfl
@[simp] theorem setSem_sched (d : Dev) (p i : Nat) (v : U32) : (setSem d p i v).sched = d.sched := rfl
@[simp] theorem setSem_rec_ (d : Dev) (p i : Nat) (v : U32) : (setSem d p i v).rec_ = d.rec_ := rfl
@[simp] theorem setSem_mgr (d : Dev) (p i : Nat) (v : U32) : (setSem d p i v).mgr = d.mgr := rfl
@[simp] theorem addSem_grade (d : Dev) (p i : Nat) (v : U32) : (addSem d p i v).grade = d.grade := rfl
@[simp] theorem addSem_fresh (d : Dev) (p i : Nat) (v : U32) : (addSem d p i v).fresh = d.fresh := rfl
@[simp] theorem addSem_time (d : Dev) (p i : Nat) (v : U32) : (addSem d p i v).time = d.time := rfl
@[simp] theorem addSem_boot (d : Dev) (p i : Nat) (v : U32) : (addSem d p i v).boot = d.boot := rfl
@[simp] theorem addSem_pwr (d : Dev) (p i : Nat) (v : U32) : (addSem d p i v).pwr = d.pwr := rfl
@[simp] theorem addSem_log (d : Dev) (p i : Nat) (v : U32) : (addSem d p i v).log = d.log := rfl
@[simp] theorem addSem_host (d : Dev) (p i : Nat) (v : U32) : (addSem d p i v).host = d.host := rfl
@[simp] theorem addSem_out (d : Dev) (p i : Nat) (v : U32) : (addSem d p i v).out = d.out := rfl
@[simp] theorem addSem_fab (d : Dev) (p i : Nat) (v : U32) : (addSem d p i v).fab = d.fab := rfl
@[simp] theorem addSem_rm (d : Dev) (p i : Nat) (v : U32) : (addSem d p i v).rm = d.rm := rfl
@[simp] theorem addSem_slc (d : Dev) (p i : Nat) (v : U32) : (addSem d p i v).slc = d.slc := rfl
@[simp] theorem addSem_rill (d : Dev) (p i : Nat) (v : U32) : (addSem d p i v).rill = d.rill := rfl
@[simp] theorem addSem_gate (d : Dev) (p i : Nat) (v : U32) : (addSem d p i v).gate = d.gate := rfl
@[simp] theorem addSem_cores (d : Dev) (p i : Nat) (v : U32) : (addSem d p i v).cores = d.cores := rfl
@[simp] theorem addSem_mem (d : Dev) (p i : Nat) (v : U32) : (addSem d p i v).mem = d.mem := rfl
@[simp] theorem addSem_ftl (d : Dev) (p i : Nat) (v : U32) : (addSem d p i v).ftl = d.ftl := rfl
@[simp] theorem addSem_cst (d : Dev) (p i : Nat) (v : U32) : (addSem d p i v).cst = d.cst := rfl
@[simp] theorem addSem_dma (d : Dev) (p i : Nat) (v : U32) : (addSem d p i v).dma = d.dma := rfl
@[simp] theorem addSem_sched (d : Dev) (p i : Nat) (v : U32) : (addSem d p i v).sched = d.sched := rfl
@[simp] theorem addSem_rec_ (d : Dev) (p i : Nat) (v : U32) : (addSem d p i v).rec_ = d.rec_ := rfl
@[simp] theorem addSem_mgr (d : Dev) (p i : Nat) (v : U32) : (addSem d p i v).mgr = d.mgr := rfl
@[simp] theorem weirCharge_grade (d : Dev) (p r n : Nat) : (weirCharge d p r n).grade = d.grade := rfl
@[simp] theorem weirCharge_fresh (d : Dev) (p r n : Nat) : (weirCharge d p r n).fresh = d.fresh := rfl
@[simp] theorem weirCharge_time (d : Dev) (p r n : Nat) : (weirCharge d p r n).time = d.time := rfl
@[simp] theorem weirCharge_boot (d : Dev) (p r n : Nat) : (weirCharge d p r n).boot = d.boot := rfl
@[simp] theorem weirCharge_pwr (d : Dev) (p r n : Nat) : (weirCharge d p r n).pwr = d.pwr := rfl
@[simp] theorem weirCharge_log (d : Dev) (p r n : Nat) : (weirCharge d p r n).log = d.log := rfl
@[simp] theorem weirCharge_host (d : Dev) (p r n : Nat) : (weirCharge d p r n).host = d.host := rfl
@[simp] theorem weirCharge_out (d : Dev) (p r n : Nat) : (weirCharge d p r n).out = d.out := rfl
@[simp] theorem weirCharge_fab (d : Dev) (p r n : Nat) : (weirCharge d p r n).fab = d.fab := rfl
@[simp] theorem weirCharge_rm (d : Dev) (p r n : Nat) : (weirCharge d p r n).rm = d.rm := rfl
@[simp] theorem weirCharge_slc (d : Dev) (p r n : Nat) : (weirCharge d p r n).slc = d.slc := rfl
@[simp] theorem weirCharge_rill (d : Dev) (p r n : Nat) : (weirCharge d p r n).rill = d.rill := rfl
@[simp] theorem weirCharge_gate (d : Dev) (p r n : Nat) : (weirCharge d p r n).gate = d.gate := rfl
@[simp] theorem weirCharge_cores (d : Dev) (p r n : Nat) : (weirCharge d p r n).cores = d.cores := rfl
@[simp] theorem weirCharge_mem (d : Dev) (p r n : Nat) : (weirCharge d p r n).mem = d.mem := rfl
@[simp] theorem weirCharge_ftl (d : Dev) (p r n : Nat) : (weirCharge d p r n).ftl = d.ftl := rfl
@[simp] theorem weirCharge_cst (d : Dev) (p r n : Nat) : (weirCharge d p r n).cst = d.cst := rfl
@[simp] theorem weirCharge_dma (d : Dev) (p r n : Nat) : (weirCharge d p r n).dma = d.dma := rfl
@[simp] theorem weirCharge_sched (d : Dev) (p r n : Nat) : (weirCharge d p r n).sched = d.sched := rfl
@[simp] theorem weirCharge_rec_ (d : Dev) (p r n : Nat) : (weirCharge d p r n).rec_ = d.rec_ := rfl
@[simp] theorem weirCharge_mgr (d : Dev) (p r n : Nat) : (weirCharge d p r n).mgr = d.mgr := rfl
@[simp] theorem setArith_grade (d : Dev) (p fl : Nat) : (setArith d p fl).grade = d.grade := rfl
@[simp] theorem setArith_fresh (d : Dev) (p fl : Nat) : (setArith d p fl).fresh = d.fresh := rfl
@[simp] theorem setArith_time (d : Dev) (p fl : Nat) : (setArith d p fl).time = d.time := rfl
@[simp] theorem setArith_boot (d : Dev) (p fl : Nat) : (setArith d p fl).boot = d.boot := rfl
@[simp] theorem setArith_pwr (d : Dev) (p fl : Nat) : (setArith d p fl).pwr = d.pwr := rfl
@[simp] theorem setArith_log (d : Dev) (p fl : Nat) : (setArith d p fl).log = d.log := rfl
@[simp] theorem setArith_host (d : Dev) (p fl : Nat) : (setArith d p fl).host = d.host := rfl
@[simp] theorem setArith_out (d : Dev) (p fl : Nat) : (setArith d p fl).out = d.out := rfl
@[simp] theorem setArith_fab (d : Dev) (p fl : Nat) : (setArith d p fl).fab = d.fab := rfl
@[simp] theorem setArith_rm (d : Dev) (p fl : Nat) : (setArith d p fl).rm = d.rm := rfl
@[simp] theorem setArith_slc (d : Dev) (p fl : Nat) : (setArith d p fl).slc = d.slc := rfl
@[simp] theorem setArith_rill (d : Dev) (p fl : Nat) : (setArith d p fl).rill = d.rill := rfl
@[simp] theorem setArith_gate (d : Dev) (p fl : Nat) : (setArith d p fl).gate = d.gate := rfl
@[simp] theorem setArith_cores (d : Dev) (p fl : Nat) : (setArith d p fl).cores = d.cores := rfl
@[simp] theorem setArith_mem (d : Dev) (p fl : Nat) : (setArith d p fl).mem = d.mem := rfl
@[simp] theorem setArith_ftl (d : Dev) (p fl : Nat) : (setArith d p fl).ftl = d.ftl := rfl
@[simp] theorem setArith_cst (d : Dev) (p fl : Nat) : (setArith d p fl).cst = d.cst := rfl
@[simp] theorem setArith_dma (d : Dev) (p fl : Nat) : (setArith d p fl).dma = d.dma := rfl
@[simp] theorem setArith_sched (d : Dev) (p fl : Nat) : (setArith d p fl).sched = d.sched := rfl
@[simp] theorem setArith_rec_ (d : Dev) (p fl : Nat) : (setArith d p fl).rec_ = d.rec_ := rfl
@[simp] theorem setArith_mgr (d : Dev) (p fl : Nat) : (setArith d p fl).mgr = d.mgr := rfl
@[simp] theorem onLine_grade (d : Dev) (a : IpAddr) (q : U16) (e : Bool) (ms : List OutMsg) : (onLine d a q e ms).grade = d.grade := rfl
@[simp] theorem onLine_fresh (d : Dev) (a : IpAddr) (q : U16) (e : Bool) (ms : List OutMsg) : (onLine d a q e ms).fresh = d.fresh := rfl
@[simp] theorem onLine_time (d : Dev) (a : IpAddr) (q : U16) (e : Bool) (ms : List OutMsg) : (onLine d a q e ms).time = d.time := rfl
@[simp] theorem onLine_boot (d : Dev) (a : IpAddr) (q : U16) (e : Bool) (ms : List OutMsg) : (onLine d a q e ms).boot = d.boot := rfl
@[simp] theorem onLine_pwr (d : Dev) (a : IpAddr) (q : U16) (e : Bool) (ms : List OutMsg) : (onLine d a q e ms).pwr = d.pwr := rfl
@[simp] theorem onLine_log (d : Dev) (a : IpAddr) (q : U16) (e : Bool) (ms : List OutMsg) : (onLine d a q e ms).log = d.log := rfl
@[simp] theorem onLine_host (d : Dev) (a : IpAddr) (q : U16) (e : Bool) (ms : List OutMsg) : (onLine d a q e ms).host = d.host := rfl
@[simp] theorem onLine_fab (d : Dev) (a : IpAddr) (q : U16) (e : Bool) (ms : List OutMsg) : (onLine d a q e ms).fab = d.fab := rfl
@[simp] theorem onLine_rm (d : Dev) (a : IpAddr) (q : U16) (e : Bool) (ms : List OutMsg) : (onLine d a q e ms).rm = d.rm := rfl
@[simp] theorem onLine_slc (d : Dev) (a : IpAddr) (q : U16) (e : Bool) (ms : List OutMsg) : (onLine d a q e ms).slc = d.slc := rfl
@[simp] theorem onLine_rill (d : Dev) (a : IpAddr) (q : U16) (e : Bool) (ms : List OutMsg) : (onLine d a q e ms).rill = d.rill := rfl
@[simp] theorem onLine_gate (d : Dev) (a : IpAddr) (q : U16) (e : Bool) (ms : List OutMsg) : (onLine d a q e ms).gate = d.gate := rfl
@[simp] theorem onLine_cores (d : Dev) (a : IpAddr) (q : U16) (e : Bool) (ms : List OutMsg) : (onLine d a q e ms).cores = d.cores := rfl
@[simp] theorem onLine_parts (d : Dev) (a : IpAddr) (q : U16) (e : Bool) (ms : List OutMsg) : (onLine d a q e ms).parts = d.parts := rfl
@[simp] theorem onLine_mem (d : Dev) (a : IpAddr) (q : U16) (e : Bool) (ms : List OutMsg) : (onLine d a q e ms).mem = d.mem := rfl
@[simp] theorem onLine_ftl (d : Dev) (a : IpAddr) (q : U16) (e : Bool) (ms : List OutMsg) : (onLine d a q e ms).ftl = d.ftl := rfl
@[simp] theorem onLine_cst (d : Dev) (a : IpAddr) (q : U16) (e : Bool) (ms : List OutMsg) : (onLine d a q e ms).cst = d.cst := rfl
@[simp] theorem onLine_dma (d : Dev) (a : IpAddr) (q : U16) (e : Bool) (ms : List OutMsg) : (onLine d a q e ms).dma = d.dma := rfl
@[simp] theorem onLine_sched (d : Dev) (a : IpAddr) (q : U16) (e : Bool) (ms : List OutMsg) : (onLine d a q e ms).sched = d.sched := rfl
@[simp] theorem onLine_rec_ (d : Dev) (a : IpAddr) (q : U16) (e : Bool) (ms : List OutMsg) : (onLine d a q e ms).rec_ = d.rec_ := rfl
@[simp] theorem onLine_mgr (d : Dev) (a : IpAddr) (q : U16) (e : Bool) (ms : List OutMsg) : (onLine d a q e ms).mgr = d.mgr := rfl
@[simp] theorem onSession_grade (d : Dev) (s : Session) (ms : List OutMsg) : (onSession d s ms).grade = d.grade := rfl
@[simp] theorem onSession_fresh (d : Dev) (s : Session) (ms : List OutMsg) : (onSession d s ms).fresh = d.fresh := rfl
@[simp] theorem onSession_time (d : Dev) (s : Session) (ms : List OutMsg) : (onSession d s ms).time = d.time := rfl
@[simp] theorem onSession_boot (d : Dev) (s : Session) (ms : List OutMsg) : (onSession d s ms).boot = d.boot := rfl
@[simp] theorem onSession_pwr (d : Dev) (s : Session) (ms : List OutMsg) : (onSession d s ms).pwr = d.pwr := rfl
@[simp] theorem onSession_log (d : Dev) (s : Session) (ms : List OutMsg) : (onSession d s ms).log = d.log := rfl
@[simp] theorem onSession_host (d : Dev) (s : Session) (ms : List OutMsg) : (onSession d s ms).host = d.host := rfl
@[simp] theorem onSession_fab (d : Dev) (s : Session) (ms : List OutMsg) : (onSession d s ms).fab = d.fab := rfl
@[simp] theorem onSession_rm (d : Dev) (s : Session) (ms : List OutMsg) : (onSession d s ms).rm = d.rm := rfl
@[simp] theorem onSession_slc (d : Dev) (s : Session) (ms : List OutMsg) : (onSession d s ms).slc = d.slc := rfl
@[simp] theorem onSession_rill (d : Dev) (s : Session) (ms : List OutMsg) : (onSession d s ms).rill = d.rill := rfl
@[simp] theorem onSession_gate (d : Dev) (s : Session) (ms : List OutMsg) : (onSession d s ms).gate = d.gate := rfl
@[simp] theorem onSession_cores (d : Dev) (s : Session) (ms : List OutMsg) : (onSession d s ms).cores = d.cores := rfl
@[simp] theorem onSession_parts (d : Dev) (s : Session) (ms : List OutMsg) : (onSession d s ms).parts = d.parts := rfl
@[simp] theorem onSession_mem (d : Dev) (s : Session) (ms : List OutMsg) : (onSession d s ms).mem = d.mem := rfl
@[simp] theorem onSession_ftl (d : Dev) (s : Session) (ms : List OutMsg) : (onSession d s ms).ftl = d.ftl := rfl
@[simp] theorem onSession_cst (d : Dev) (s : Session) (ms : List OutMsg) : (onSession d s ms).cst = d.cst := rfl
@[simp] theorem onSession_dma (d : Dev) (s : Session) (ms : List OutMsg) : (onSession d s ms).dma = d.dma := rfl
@[simp] theorem onSession_sched (d : Dev) (s : Session) (ms : List OutMsg) : (onSession d s ms).sched = d.sched := rfl
@[simp] theorem onSession_rec_ (d : Dev) (s : Session) (ms : List OutMsg) : (onSession d s ms).rec_ = d.rec_ := rfl
@[simp] theorem onSession_mgr (d : Dev) (s : Session) (ms : List OutMsg) : (onSession d s ms).mgr = d.mgr := rfl
@[simp] theorem sendRaw_grade (d : Dev) (s : Session) (ty : Nat) (a : U64) (e : Bool) (b : List Byte) : (sendRaw d s ty a e b).grade = d.grade := rfl
@[simp] theorem sendRaw_fresh (d : Dev) (s : Session) (ty : Nat) (a : U64) (e : Bool) (b : List Byte) : (sendRaw d s ty a e b).fresh = d.fresh := rfl
@[simp] theorem sendRaw_time (d : Dev) (s : Session) (ty : Nat) (a : U64) (e : Bool) (b : List Byte) : (sendRaw d s ty a e b).time = d.time := rfl
@[simp] theorem sendRaw_boot (d : Dev) (s : Session) (ty : Nat) (a : U64) (e : Bool) (b : List Byte) : (sendRaw d s ty a e b).boot = d.boot := rfl
@[simp] theorem sendRaw_pwr (d : Dev) (s : Session) (ty : Nat) (a : U64) (e : Bool) (b : List Byte) : (sendRaw d s ty a e b).pwr = d.pwr := rfl
@[simp] theorem sendRaw_log (d : Dev) (s : Session) (ty : Nat) (a : U64) (e : Bool) (b : List Byte) : (sendRaw d s ty a e b).log = d.log := rfl
@[simp] theorem sendRaw_host (d : Dev) (s : Session) (ty : Nat) (a : U64) (e : Bool) (b : List Byte) : (sendRaw d s ty a e b).host = d.host := rfl
@[simp] theorem sendRaw_fab (d : Dev) (s : Session) (ty : Nat) (a : U64) (e : Bool) (b : List Byte) : (sendRaw d s ty a e b).fab = d.fab := rfl
@[simp] theorem sendRaw_rm (d : Dev) (s : Session) (ty : Nat) (a : U64) (e : Bool) (b : List Byte) : (sendRaw d s ty a e b).rm = d.rm := rfl
@[simp] theorem sendRaw_slc (d : Dev) (s : Session) (ty : Nat) (a : U64) (e : Bool) (b : List Byte) : (sendRaw d s ty a e b).slc = d.slc := rfl
@[simp] theorem sendRaw_rill (d : Dev) (s : Session) (ty : Nat) (a : U64) (e : Bool) (b : List Byte) : (sendRaw d s ty a e b).rill = d.rill := rfl
@[simp] theorem sendRaw_gate (d : Dev) (s : Session) (ty : Nat) (a : U64) (e : Bool) (b : List Byte) : (sendRaw d s ty a e b).gate = d.gate := rfl
@[simp] theorem sendRaw_cores (d : Dev) (s : Session) (ty : Nat) (a : U64) (e : Bool) (b : List Byte) : (sendRaw d s ty a e b).cores = d.cores := rfl
@[simp] theorem sendRaw_parts (d : Dev) (s : Session) (ty : Nat) (a : U64) (e : Bool) (b : List Byte) : (sendRaw d s ty a e b).parts = d.parts := rfl
@[simp] theorem sendRaw_mem (d : Dev) (s : Session) (ty : Nat) (a : U64) (e : Bool) (b : List Byte) : (sendRaw d s ty a e b).mem = d.mem := rfl
@[simp] theorem sendRaw_ftl (d : Dev) (s : Session) (ty : Nat) (a : U64) (e : Bool) (b : List Byte) : (sendRaw d s ty a e b).ftl = d.ftl := rfl
@[simp] theorem sendRaw_cst (d : Dev) (s : Session) (ty : Nat) (a : U64) (e : Bool) (b : List Byte) : (sendRaw d s ty a e b).cst = d.cst := rfl
@[simp] theorem sendRaw_dma (d : Dev) (s : Session) (ty : Nat) (a : U64) (e : Bool) (b : List Byte) : (sendRaw d s ty a e b).dma = d.dma := rfl
@[simp] theorem sendRaw_sched (d : Dev) (s : Session) (ty : Nat) (a : U64) (e : Bool) (b : List Byte) : (sendRaw d s ty a e b).sched = d.sched := rfl
@[simp] theorem sendRaw_rec_ (d : Dev) (s : Session) (ty : Nat) (a : U64) (e : Bool) (b : List Byte) : (sendRaw d s ty a e b).rec_ = d.rec_ := rfl
@[simp] theorem sendRaw_mgr (d : Dev) (s : Session) (ty : Nat) (a : U64) (e : Bool) (b : List Byte) : (sendRaw d s ty a e b).mgr = d.mgr := rfl

@[simp] theorem semOf_setSem (d : Dev) (p i : Nat) (v : U32) : semOf (setSem d p i v) p i = v := by
  simp [semOf, setSem]

@[simp] theorem semOf_addSem (d : Dev) (p i : Nat) (v : U32) : semOf (addSem d p i v) p i = semOf d p i + v := by
  simp [addSem]

/-! ### The event log -/

@[simp] theorem writeEntry_grade (d : Dev) (sev : Nat) (p : Option Nat) (a b c : Nat) :
    (writeEntry d sev p a b c).grade = d.grade := rfl
@[simp] theorem writeEntry_fresh (d : Dev) (sev : Nat) (p : Option Nat) (a b c : Nat) :
    (writeEntry d sev p a b c).fresh = d.fresh := rfl
@[simp] theorem writeEntry_time (d : Dev) (sev : Nat) (p : Option Nat) (a b c : Nat) :
    (writeEntry d sev p a b c).time = d.time := rfl
@[simp] theorem writeEntry_boot (d : Dev) (sev : Nat) (p : Option Nat) (a b c : Nat) :
    (writeEntry d sev p a b c).boot = d.boot := rfl
@[simp] theorem writeEntry_pwr (d : Dev) (sev : Nat) (p : Option Nat) (a b c : Nat) :
    (writeEntry d sev p a b c).pwr = d.pwr := rfl
@[simp] theorem writeEntry_host (d : Dev) (sev : Nat) (p : Option Nat) (a b c : Nat) :
    (writeEntry d sev p a b c).host = d.host := rfl
@[simp] theorem writeEntry_out (d : Dev) (sev : Nat) (p : Option Nat) (a b c : Nat) :
    (writeEntry d sev p a b c).out = d.out := rfl
@[simp] theorem writeEntry_fab (d : Dev) (sev : Nat) (p : Option Nat) (a b c : Nat) :
    (writeEntry d sev p a b c).fab = d.fab := rfl
@[simp] theorem writeEntry_rm (d : Dev) (sev : Nat) (p : Option Nat) (a b c : Nat) :
    (writeEntry d sev p a b c).rm = d.rm := rfl
@[simp] theorem writeEntry_slc (d : Dev) (sev : Nat) (p : Option Nat) (a b c : Nat) :
    (writeEntry d sev p a b c).slc = d.slc := rfl
@[simp] theorem writeEntry_rill (d : Dev) (sev : Nat) (p : Option Nat) (a b c : Nat) :
    (writeEntry d sev p a b c).rill = d.rill := rfl
@[simp] theorem writeEntry_gate (d : Dev) (sev : Nat) (p : Option Nat) (a b c : Nat) :
    (writeEntry d sev p a b c).gate = d.gate := rfl
@[simp] theorem writeEntry_cores (d : Dev) (sev : Nat) (p : Option Nat) (a b c : Nat) :
    (writeEntry d sev p a b c).cores = d.cores := rfl
@[simp] theorem writeEntry_parts (d : Dev) (sev : Nat) (p : Option Nat) (a b c : Nat) :
    (writeEntry d sev p a b c).parts = d.parts := rfl
@[simp] theorem writeEntry_mem (d : Dev) (sev : Nat) (p : Option Nat) (a b c : Nat) :
    (writeEntry d sev p a b c).mem = d.mem := rfl
@[simp] theorem writeEntry_ftl (d : Dev) (sev : Nat) (p : Option Nat) (a b c : Nat) :
    (writeEntry d sev p a b c).ftl = d.ftl := rfl
@[simp] theorem writeEntry_cst (d : Dev) (sev : Nat) (p : Option Nat) (a b c : Nat) :
    (writeEntry d sev p a b c).cst = d.cst := rfl
@[simp] theorem writeEntry_dma (d : Dev) (sev : Nat) (p : Option Nat) (a b c : Nat) :
    (writeEntry d sev p a b c).dma = d.dma := rfl
@[simp] theorem writeEntry_sched (d : Dev) (sev : Nat) (p : Option Nat) (a b c : Nat) :
    (writeEntry d sev p a b c).sched = d.sched := rfl
@[simp] theorem writeEntry_rec_ (d : Dev) (sev : Nat) (p : Option Nat) (a b c : Nat) :
    (writeEntry d sev p a b c).rec_ = d.rec_ := rfl
@[simp] theorem writeEntry_mgr (d : Dev) (sev : Nat) (p : Option Nat) (a b c : Nat) :
    (writeEntry d sev p a b c).mgr = d.mgr := rfl
@[simp] theorem logIt_grade (d : Dev) (sev : Nat) (p : Option Nat) (a b c : Nat) :
    (logIt d sev p a b c).grade = d.grade := by
  unfold logIt; dsimp only; split
  · rfl
  · split <;> rfl
@[simp] theorem logIt_fresh (d : Dev) (sev : Nat) (p : Option Nat) (a b c : Nat) :
    (logIt d sev p a b c).fresh = d.fresh := by
  unfold logIt; dsimp only; split
  · rfl
  · split <;> rfl
@[simp] theorem logIt_time (d : Dev) (sev : Nat) (p : Option Nat) (a b c : Nat) :
    (logIt d sev p a b c).time = d.time := by
  unfold logIt; dsimp only; split
  · rfl
  · split <;> rfl
@[simp] theorem logIt_boot (d : Dev) (sev : Nat) (p : Option Nat) (a b c : Nat) :
    (logIt d sev p a b c).boot = d.boot := by
  unfold logIt; dsimp only; split
  · rfl
  · split <;> rfl
@[simp] theorem logIt_pwr (d : Dev) (sev : Nat) (p : Option Nat) (a b c : Nat) :
    (logIt d sev p a b c).pwr = d.pwr := by
  unfold logIt; dsimp only; split
  · rfl
  · split <;> rfl
@[simp] theorem logIt_host (d : Dev) (sev : Nat) (p : Option Nat) (a b c : Nat) :
    (logIt d sev p a b c).host = d.host := by
  unfold logIt; dsimp only; split
  · rfl
  · split <;> rfl
@[simp] theorem logIt_out (d : Dev) (sev : Nat) (p : Option Nat) (a b c : Nat) :
    (logIt d sev p a b c).out = d.out := by
  unfold logIt; dsimp only; split
  · rfl
  · split <;> rfl
@[simp] theorem logIt_fab (d : Dev) (sev : Nat) (p : Option Nat) (a b c : Nat) :
    (logIt d sev p a b c).fab = d.fab := by
  unfold logIt; dsimp only; split
  · rfl
  · split <;> rfl
@[simp] theorem logIt_rm (d : Dev) (sev : Nat) (p : Option Nat) (a b c : Nat) :
    (logIt d sev p a b c).rm = d.rm := by
  unfold logIt; dsimp only; split
  · rfl
  · split <;> rfl
@[simp] theorem logIt_slc (d : Dev) (sev : Nat) (p : Option Nat) (a b c : Nat) :
    (logIt d sev p a b c).slc = d.slc := by
  unfold logIt; dsimp only; split
  · rfl
  · split <;> rfl
@[simp] theorem logIt_rill (d : Dev) (sev : Nat) (p : Option Nat) (a b c : Nat) :
    (logIt d sev p a b c).rill = d.rill := by
  unfold logIt; dsimp only; split
  · rfl
  · split <;> rfl
@[simp] theorem logIt_gate (d : Dev) (sev : Nat) (p : Option Nat) (a b c : Nat) :
    (logIt d sev p a b c).gate = d.gate := by
  unfold logIt; dsimp only; split
  · rfl
  · split <;> rfl
@[simp] theorem logIt_cores (d : Dev) (sev : Nat) (p : Option Nat) (a b c : Nat) :
    (logIt d sev p a b c).cores = d.cores := by
  unfold logIt; dsimp only; split
  · rfl
  · split <;> rfl
@[simp] theorem logIt_parts (d : Dev) (sev : Nat) (p : Option Nat) (a b c : Nat) :
    (logIt d sev p a b c).parts = d.parts := by
  unfold logIt; dsimp only; split
  · rfl
  · split <;> rfl
@[simp] theorem logIt_mem (d : Dev) (sev : Nat) (p : Option Nat) (a b c : Nat) :
    (logIt d sev p a b c).mem = d.mem := by
  unfold logIt; dsimp only; split
  · rfl
  · split <;> rfl
@[simp] theorem logIt_ftl (d : Dev) (sev : Nat) (p : Option Nat) (a b c : Nat) :
    (logIt d sev p a b c).ftl = d.ftl := by
  unfold logIt; dsimp only; split
  · rfl
  · split <;> rfl
@[simp] theorem logIt_cst (d : Dev) (sev : Nat) (p : Option Nat) (a b c : Nat) :
    (logIt d sev p a b c).cst = d.cst := by
  unfold logIt; dsimp only; split
  · rfl
  · split <;> rfl
@[simp] theorem logIt_dma (d : Dev) (sev : Nat) (p : Option Nat) (a b c : Nat) :
    (logIt d sev p a b c).dma = d.dma := by
  unfold logIt; dsimp only; split
  · rfl
  · split <;> rfl
@[simp] theorem logIt_sched (d : Dev) (sev : Nat) (p : Option Nat) (a b c : Nat) :
    (logIt d sev p a b c).sched = d.sched := by
  unfold logIt; dsimp only; split
  · rfl
  · split <;> rfl
@[simp] theorem logIt_rec_ (d : Dev) (sev : Nat) (p : Option Nat) (a b c : Nat) :
    (logIt d sev p a b c).rec_ = d.rec_ := by
  unfold logIt; dsimp only; split
  · rfl
  · split <;> rfl
@[simp] theorem logIt_mgr (d : Dev) (sev : Nat) (p : Option Nat) (a b c : Nat) :
    (logIt d sev p a b c).mgr = d.mgr := by
  unfold logIt; dsimp only; split
  · rfl
  · split <;> rfl
@[simp] theorem logIgnored_grade (d : Dev) (a : Nat) (r : Reg) (v : Nat) : (logIgnored d a r v).grade = d.grade := by simp [logIgnored]
@[simp] theorem logIgnored_fresh (d : Dev) (a : Nat) (r : Reg) (v : Nat) : (logIgnored d a r v).fresh = d.fresh := by simp [logIgnored]
@[simp] theorem logIgnored_time (d : Dev) (a : Nat) (r : Reg) (v : Nat) : (logIgnored d a r v).time = d.time := by simp [logIgnored]
@[simp] theorem logIgnored_boot (d : Dev) (a : Nat) (r : Reg) (v : Nat) : (logIgnored d a r v).boot = d.boot := by simp [logIgnored]
@[simp] theorem logIgnored_pwr (d : Dev) (a : Nat) (r : Reg) (v : Nat) : (logIgnored d a r v).pwr = d.pwr := by simp [logIgnored]
@[simp] theorem logIgnored_host (d : Dev) (a : Nat) (r : Reg) (v : Nat) : (logIgnored d a r v).host = d.host := by simp [logIgnored]
@[simp] theorem logIgnored_out (d : Dev) (a : Nat) (r : Reg) (v : Nat) : (logIgnored d a r v).out = d.out := by simp [logIgnored]
@[simp] theorem logIgnored_fab (d : Dev) (a : Nat) (r : Reg) (v : Nat) : (logIgnored d a r v).fab = d.fab := by simp [logIgnored]
@[simp] theorem logIgnored_rm (d : Dev) (a : Nat) (r : Reg) (v : Nat) : (logIgnored d a r v).rm = d.rm := by simp [logIgnored]
@[simp] theorem logIgnored_slc (d : Dev) (a : Nat) (r : Reg) (v : Nat) : (logIgnored d a r v).slc = d.slc := by simp [logIgnored]
@[simp] theorem logIgnored_rill (d : Dev) (a : Nat) (r : Reg) (v : Nat) : (logIgnored d a r v).rill = d.rill := by simp [logIgnored]
@[simp] theorem logIgnored_gate (d : Dev) (a : Nat) (r : Reg) (v : Nat) : (logIgnored d a r v).gate = d.gate := by simp [logIgnored]
@[simp] theorem logIgnored_cores (d : Dev) (a : Nat) (r : Reg) (v : Nat) : (logIgnored d a r v).cores = d.cores := by simp [logIgnored]
@[simp] theorem logIgnored_parts (d : Dev) (a : Nat) (r : Reg) (v : Nat) : (logIgnored d a r v).parts = d.parts := by simp [logIgnored]
@[simp] theorem logIgnored_mem (d : Dev) (a : Nat) (r : Reg) (v : Nat) : (logIgnored d a r v).mem = d.mem := by simp [logIgnored]
@[simp] theorem logIgnored_ftl (d : Dev) (a : Nat) (r : Reg) (v : Nat) : (logIgnored d a r v).ftl = d.ftl := by simp [logIgnored]
@[simp] theorem logIgnored_cst (d : Dev) (a : Nat) (r : Reg) (v : Nat) : (logIgnored d a r v).cst = d.cst := by simp [logIgnored]
@[simp] theorem logIgnored_dma (d : Dev) (a : Nat) (r : Reg) (v : Nat) : (logIgnored d a r v).dma = d.dma := by simp [logIgnored]
@[simp] theorem logIgnored_sched (d : Dev) (a : Nat) (r : Reg) (v : Nat) : (logIgnored d a r v).sched = d.sched := by simp [logIgnored]
@[simp] theorem logIgnored_rec_ (d : Dev) (a : Nat) (r : Reg) (v : Nat) : (logIgnored d a r v).rec_ = d.rec_ := by simp [logIgnored]
@[simp] theorem logIgnored_mgr (d : Dev) (a : Nat) (r : Reg) (v : Nat) : (logIgnored d a r v).mgr = d.mgr := by simp [logIgnored]
@[simp] theorem logCounted_grade (d : Dev) (a b : Nat) (r : Reg) (v c : Nat) : (logCounted d a b r v c).grade = d.grade := by simp [logCounted]
@[simp] theorem logCounted_fresh (d : Dev) (a b : Nat) (r : Reg) (v c : Nat) : (logCounted d a b r v c).fresh = d.fresh := by simp [logCounted]
@[simp] theorem logCounted_time (d : Dev) (a b : Nat) (r : Reg) (v c : Nat) : (logCounted d a b r v c).time = d.time := by simp [logCounted]
@[simp] theorem logCounted_boot (d : Dev) (a b : Nat) (r : Reg) (v c : Nat) : (logCounted d a b r v c).boot = d.boot := by simp [logCounted]
@[simp] theorem logCounted_pwr (d : Dev) (a b : Nat) (r : Reg) (v c : Nat) : (logCounted d a b r v c).pwr = d.pwr := by simp [logCounted]
@[simp] theorem logCounted_host (d : Dev) (a b : Nat) (r : Reg) (v c : Nat) : (logCounted d a b r v c).host = d.host := by simp [logCounted]
@[simp] theorem logCounted_out (d : Dev) (a b : Nat) (r : Reg) (v c : Nat) : (logCounted d a b r v c).out = d.out := by simp [logCounted]
@[simp] theorem logCounted_fab (d : Dev) (a b : Nat) (r : Reg) (v c : Nat) : (logCounted d a b r v c).fab = d.fab := by simp [logCounted]
@[simp] theorem logCounted_rm (d : Dev) (a b : Nat) (r : Reg) (v c : Nat) : (logCounted d a b r v c).rm = d.rm := by simp [logCounted]
@[simp] theorem logCounted_slc (d : Dev) (a b : Nat) (r : Reg) (v c : Nat) : (logCounted d a b r v c).slc = d.slc := by simp [logCounted]
@[simp] theorem logCounted_rill (d : Dev) (a b : Nat) (r : Reg) (v c : Nat) : (logCounted d a b r v c).rill = d.rill := by simp [logCounted]
@[simp] theorem logCounted_gate (d : Dev) (a b : Nat) (r : Reg) (v c : Nat) : (logCounted d a b r v c).gate = d.gate := by simp [logCounted]
@[simp] theorem logCounted_cores (d : Dev) (a b : Nat) (r : Reg) (v c : Nat) : (logCounted d a b r v c).cores = d.cores := by simp [logCounted]
@[simp] theorem logCounted_parts (d : Dev) (a b : Nat) (r : Reg) (v c : Nat) : (logCounted d a b r v c).parts = d.parts := by simp [logCounted]
@[simp] theorem logCounted_mem (d : Dev) (a b : Nat) (r : Reg) (v c : Nat) : (logCounted d a b r v c).mem = d.mem := by simp [logCounted]
@[simp] theorem logCounted_ftl (d : Dev) (a b : Nat) (r : Reg) (v c : Nat) : (logCounted d a b r v c).ftl = d.ftl := by simp [logCounted]
@[simp] theorem logCounted_cst (d : Dev) (a b : Nat) (r : Reg) (v c : Nat) : (logCounted d a b r v c).cst = d.cst := by simp [logCounted]
@[simp] theorem logCounted_dma (d : Dev) (a b : Nat) (r : Reg) (v c : Nat) : (logCounted d a b r v c).dma = d.dma := by simp [logCounted]
@[simp] theorem logCounted_sched (d : Dev) (a b : Nat) (r : Reg) (v c : Nat) : (logCounted d a b r v c).sched = d.sched := by simp [logCounted]
@[simp] theorem logCounted_rec_ (d : Dev) (a b : Nat) (r : Reg) (v c : Nat) : (logCounted d a b r v c).rec_ = d.rec_ := by simp [logCounted]
@[simp] theorem logCounted_mgr (d : Dev) (a b : Nat) (r : Reg) (v c : Nat) : (logCounted d a b r v c).mgr = d.mgr := by simp [logCounted]
@[simp] theorem logOp_grade (d : Dev) (a : Nat) (p : Option Nat) (b c e g h i : Nat) : (logOp d a p b c e g h i).grade = d.grade := by simp [logOp]
@[simp] theorem logOp_fresh (d : Dev) (a : Nat) (p : Option Nat) (b c e g h i : Nat) : (logOp d a p b c e g h i).fresh = d.fresh := by simp [logOp]
@[simp] theorem logOp_time (d : Dev) (a : Nat) (p : Option Nat) (b c e g h i : Nat) : (logOp d a p b c e g h i).time = d.time := by simp [logOp]
@[simp] theorem logOp_boot (d : Dev) (a : Nat) (p : Option Nat) (b c e g h i : Nat) : (logOp d a p b c e g h i).boot = d.boot := by simp [logOp]
@[simp] theorem logOp_pwr (d : Dev) (a : Nat) (p : Option Nat) (b c e g h i : Nat) : (logOp d a p b c e g h i).pwr = d.pwr := by simp [logOp]
@[simp] theorem logOp_host (d : Dev) (a : Nat) (p : Option Nat) (b c e g h i : Nat) : (logOp d a p b c e g h i).host = d.host := by simp [logOp]
@[simp] theorem logOp_out (d : Dev) (a : Nat) (p : Option Nat) (b c e g h i : Nat) : (logOp d a p b c e g h i).out = d.out := by simp [logOp]
@[simp] theorem logOp_fab (d : Dev) (a : Nat) (p : Option Nat) (b c e g h i : Nat) : (logOp d a p b c e g h i).fab = d.fab := by simp [logOp]
@[simp] theorem logOp_rm (d : Dev) (a : Nat) (p : Option Nat) (b c e g h i : Nat) : (logOp d a p b c e g h i).rm = d.rm := by simp [logOp]
@[simp] theorem logOp_slc (d : Dev) (a : Nat) (p : Option Nat) (b c e g h i : Nat) : (logOp d a p b c e g h i).slc = d.slc := by simp [logOp]
@[simp] theorem logOp_rill (d : Dev) (a : Nat) (p : Option Nat) (b c e g h i : Nat) : (logOp d a p b c e g h i).rill = d.rill := by simp [logOp]
@[simp] theorem logOp_gate (d : Dev) (a : Nat) (p : Option Nat) (b c e g h i : Nat) : (logOp d a p b c e g h i).gate = d.gate := by simp [logOp]
@[simp] theorem logOp_cores (d : Dev) (a : Nat) (p : Option Nat) (b c e g h i : Nat) : (logOp d a p b c e g h i).cores = d.cores := by simp [logOp]
@[simp] theorem logOp_parts (d : Dev) (a : Nat) (p : Option Nat) (b c e g h i : Nat) : (logOp d a p b c e g h i).parts = d.parts := by simp [logOp]
@[simp] theorem logOp_mem (d : Dev) (a : Nat) (p : Option Nat) (b c e g h i : Nat) : (logOp d a p b c e g h i).mem = d.mem := by simp [logOp]
@[simp] theorem logOp_ftl (d : Dev) (a : Nat) (p : Option Nat) (b c e g h i : Nat) : (logOp d a p b c e g h i).ftl = d.ftl := by simp [logOp]
@[simp] theorem logOp_cst (d : Dev) (a : Nat) (p : Option Nat) (b c e g h i : Nat) : (logOp d a p b c e g h i).cst = d.cst := by simp [logOp]
@[simp] theorem logOp_dma (d : Dev) (a : Nat) (p : Option Nat) (b c e g h i : Nat) : (logOp d a p b c e g h i).dma = d.dma := by simp [logOp]
@[simp] theorem logOp_sched (d : Dev) (a : Nat) (p : Option Nat) (b c e g h i : Nat) : (logOp d a p b c e g h i).sched = d.sched := by simp [logOp]
@[simp] theorem logOp_rec_ (d : Dev) (a : Nat) (p : Option Nat) (b c e g h i : Nat) : (logOp d a p b c e g h i).rec_ = d.rec_ := by simp [logOp]
@[simp] theorem logOp_mgr (d : Dev) (a : Nat) (p : Option Nat) (b c e g h i : Nat) : (logOp d a p b c e g h i).mgr = d.mgr := by simp [logOp]

/-! ### Host messages -/

@[simp] theorem respSent_grade (d : Dev) (sid : Nat) (m : OutMsg) : (respSent d sid m).grade = d.grade := by
  unfold respSent; dsimp only; split <;> rfl
@[simp] theorem pumpFuel_grade (n sid : Nat) (d : Dev) : (pumpFuel n sid d).grade = d.grade := by
  induction n generalizing d with
  | zero => rfl
  | succ n ih =>
    unfold pumpFuel
    split
    · rfl
    · split
      · rfl
      · split
        · rw [ih, respSent_grade]; rfl
        · rfl
@[simp] theorem pumpSession_grade (d : Dev) (sid : Nat) : (pumpSession d sid).grade = d.grade := by simp [pumpSession]
@[simp] theorem sendSeq_grade (d : Dev) (sid ty : Nat) (b : List Byte) (m : Nat) : (sendSeq d sid ty b m).grade = d.grade := by
  unfold sendSeq; split <;> simp
@[simp] theorem respSent_fresh (d : Dev) (sid : Nat) (m : OutMsg) : (respSent d sid m).fresh = d.fresh := by
  unfold respSent; dsimp only; split <;> rfl
@[simp] theorem pumpFuel_fresh (n sid : Nat) (d : Dev) : (pumpFuel n sid d).fresh = d.fresh := by
  induction n generalizing d with
  | zero => rfl
  | succ n ih =>
    unfold pumpFuel
    split
    · rfl
    · split
      · rfl
      · split
        · rw [ih, respSent_fresh]; rfl
        · rfl
@[simp] theorem pumpSession_fresh (d : Dev) (sid : Nat) : (pumpSession d sid).fresh = d.fresh := by simp [pumpSession]
@[simp] theorem sendSeq_fresh (d : Dev) (sid ty : Nat) (b : List Byte) (m : Nat) : (sendSeq d sid ty b m).fresh = d.fresh := by
  unfold sendSeq; split <;> simp
@[simp] theorem respSent_time (d : Dev) (sid : Nat) (m : OutMsg) : (respSent d sid m).time = d.time := by
  unfold respSent; dsimp only; split <;> rfl
@[simp] theorem pumpFuel_time (n sid : Nat) (d : Dev) : (pumpFuel n sid d).time = d.time := by
  induction n generalizing d with
  | zero => rfl
  | succ n ih =>
    unfold pumpFuel
    split
    · rfl
    · split
      · rfl
      · split
        · rw [ih, respSent_time]; rfl
        · rfl
@[simp] theorem pumpSession_time (d : Dev) (sid : Nat) : (pumpSession d sid).time = d.time := by simp [pumpSession]
@[simp] theorem sendSeq_time (d : Dev) (sid ty : Nat) (b : List Byte) (m : Nat) : (sendSeq d sid ty b m).time = d.time := by
  unfold sendSeq; split <;> simp
@[simp] theorem respSent_boot (d : Dev) (sid : Nat) (m : OutMsg) : (respSent d sid m).boot = d.boot := by
  unfold respSent; dsimp only; split <;> rfl
@[simp] theorem pumpFuel_boot (n sid : Nat) (d : Dev) : (pumpFuel n sid d).boot = d.boot := by
  induction n generalizing d with
  | zero => rfl
  | succ n ih =>
    unfold pumpFuel
    split
    · rfl
    · split
      · rfl
      · split
        · rw [ih, respSent_boot]; rfl
        · rfl
@[simp] theorem pumpSession_boot (d : Dev) (sid : Nat) : (pumpSession d sid).boot = d.boot := by simp [pumpSession]
@[simp] theorem sendSeq_boot (d : Dev) (sid ty : Nat) (b : List Byte) (m : Nat) : (sendSeq d sid ty b m).boot = d.boot := by
  unfold sendSeq; split <;> simp
@[simp] theorem respSent_pwr (d : Dev) (sid : Nat) (m : OutMsg) : (respSent d sid m).pwr = d.pwr := by
  unfold respSent; dsimp only; split <;> rfl
@[simp] theorem pumpFuel_pwr (n sid : Nat) (d : Dev) : (pumpFuel n sid d).pwr = d.pwr := by
  induction n generalizing d with
  | zero => rfl
  | succ n ih =>
    unfold pumpFuel
    split
    · rfl
    · split
      · rfl
      · split
        · rw [ih, respSent_pwr]; rfl
        · rfl
@[simp] theorem pumpSession_pwr (d : Dev) (sid : Nat) : (pumpSession d sid).pwr = d.pwr := by simp [pumpSession]
@[simp] theorem sendSeq_pwr (d : Dev) (sid ty : Nat) (b : List Byte) (m : Nat) : (sendSeq d sid ty b m).pwr = d.pwr := by
  unfold sendSeq; split <;> simp
@[simp] theorem respSent_log (d : Dev) (sid : Nat) (m : OutMsg) : (respSent d sid m).log = d.log := by
  unfold respSent; dsimp only; split <;> rfl
@[simp] theorem pumpFuel_log (n sid : Nat) (d : Dev) : (pumpFuel n sid d).log = d.log := by
  induction n generalizing d with
  | zero => rfl
  | succ n ih =>
    unfold pumpFuel
    split
    · rfl
    · split
      · rfl
      · split
        · rw [ih, respSent_log]; rfl
        · rfl
@[simp] theorem pumpSession_log (d : Dev) (sid : Nat) : (pumpSession d sid).log = d.log := by simp [pumpSession]
@[simp] theorem sendSeq_log (d : Dev) (sid ty : Nat) (b : List Byte) (m : Nat) : (sendSeq d sid ty b m).log = d.log := by
  unfold sendSeq; split <;> simp
@[simp] theorem respSent_fab (d : Dev) (sid : Nat) (m : OutMsg) : (respSent d sid m).fab = d.fab := by
  unfold respSent; dsimp only; split <;> rfl
@[simp] theorem pumpFuel_fab (n sid : Nat) (d : Dev) : (pumpFuel n sid d).fab = d.fab := by
  induction n generalizing d with
  | zero => rfl
  | succ n ih =>
    unfold pumpFuel
    split
    · rfl
    · split
      · rfl
      · split
        · rw [ih, respSent_fab]; rfl
        · rfl
@[simp] theorem pumpSession_fab (d : Dev) (sid : Nat) : (pumpSession d sid).fab = d.fab := by simp [pumpSession]
@[simp] theorem sendSeq_fab (d : Dev) (sid ty : Nat) (b : List Byte) (m : Nat) : (sendSeq d sid ty b m).fab = d.fab := by
  unfold sendSeq; split <;> simp
@[simp] theorem respSent_rm (d : Dev) (sid : Nat) (m : OutMsg) : (respSent d sid m).rm = d.rm := by
  unfold respSent; dsimp only; split <;> rfl
@[simp] theorem pumpFuel_rm (n sid : Nat) (d : Dev) : (pumpFuel n sid d).rm = d.rm := by
  induction n generalizing d with
  | zero => rfl
  | succ n ih =>
    unfold pumpFuel
    split
    · rfl
    · split
      · rfl
      · split
        · rw [ih, respSent_rm]; rfl
        · rfl
@[simp] theorem pumpSession_rm (d : Dev) (sid : Nat) : (pumpSession d sid).rm = d.rm := by simp [pumpSession]
@[simp] theorem sendSeq_rm (d : Dev) (sid ty : Nat) (b : List Byte) (m : Nat) : (sendSeq d sid ty b m).rm = d.rm := by
  unfold sendSeq; split <;> simp
@[simp] theorem respSent_slc (d : Dev) (sid : Nat) (m : OutMsg) : (respSent d sid m).slc = d.slc := by
  unfold respSent; dsimp only; split <;> rfl
@[simp] theorem pumpFuel_slc (n sid : Nat) (d : Dev) : (pumpFuel n sid d).slc = d.slc := by
  induction n generalizing d with
  | zero => rfl
  | succ n ih =>
    unfold pumpFuel
    split
    · rfl
    · split
      · rfl
      · split
        · rw [ih, respSent_slc]; rfl
        · rfl
@[simp] theorem pumpSession_slc (d : Dev) (sid : Nat) : (pumpSession d sid).slc = d.slc := by simp [pumpSession]
@[simp] theorem sendSeq_slc (d : Dev) (sid ty : Nat) (b : List Byte) (m : Nat) : (sendSeq d sid ty b m).slc = d.slc := by
  unfold sendSeq; split <;> simp
@[simp] theorem respSent_rill (d : Dev) (sid : Nat) (m : OutMsg) : (respSent d sid m).rill = d.rill := by
  unfold respSent; dsimp only; split <;> rfl
@[simp] theorem pumpFuel_rill (n sid : Nat) (d : Dev) : (pumpFuel n sid d).rill = d.rill := by
  induction n generalizing d with
  | zero => rfl
  | succ n ih =>
    unfold pumpFuel
    split
    · rfl
    · split
      · rfl
      · split
        · rw [ih, respSent_rill]; rfl
        · rfl
@[simp] theorem pumpSession_rill (d : Dev) (sid : Nat) : (pumpSession d sid).rill = d.rill := by simp [pumpSession]
@[simp] theorem sendSeq_rill (d : Dev) (sid ty : Nat) (b : List Byte) (m : Nat) : (sendSeq d sid ty b m).rill = d.rill := by
  unfold sendSeq; split <;> simp
@[simp] theorem respSent_gate (d : Dev) (sid : Nat) (m : OutMsg) : (respSent d sid m).gate = d.gate := by
  unfold respSent; dsimp only; split <;> rfl
@[simp] theorem pumpFuel_gate (n sid : Nat) (d : Dev) : (pumpFuel n sid d).gate = d.gate := by
  induction n generalizing d with
  | zero => rfl
  | succ n ih =>
    unfold pumpFuel
    split
    · rfl
    · split
      · rfl
      · split
        · rw [ih, respSent_gate]; rfl
        · rfl
@[simp] theorem pumpSession_gate (d : Dev) (sid : Nat) : (pumpSession d sid).gate = d.gate := by simp [pumpSession]
@[simp] theorem sendSeq_gate (d : Dev) (sid ty : Nat) (b : List Byte) (m : Nat) : (sendSeq d sid ty b m).gate = d.gate := by
  unfold sendSeq; split <;> simp
@[simp] theorem respSent_cores (d : Dev) (sid : Nat) (m : OutMsg) : (respSent d sid m).cores = d.cores := by
  unfold respSent; dsimp only; split <;> rfl
@[simp] theorem pumpFuel_cores (n sid : Nat) (d : Dev) : (pumpFuel n sid d).cores = d.cores := by
  induction n generalizing d with
  | zero => rfl
  | succ n ih =>
    unfold pumpFuel
    split
    · rfl
    · split
      · rfl
      · split
        · rw [ih, respSent_cores]; rfl
        · rfl
@[simp] theorem pumpSession_cores (d : Dev) (sid : Nat) : (pumpSession d sid).cores = d.cores := by simp [pumpSession]
@[simp] theorem sendSeq_cores (d : Dev) (sid ty : Nat) (b : List Byte) (m : Nat) : (sendSeq d sid ty b m).cores = d.cores := by
  unfold sendSeq; split <;> simp
@[simp] theorem respSent_parts (d : Dev) (sid : Nat) (m : OutMsg) : (respSent d sid m).parts = d.parts := by
  unfold respSent; dsimp only; split <;> rfl
@[simp] theorem pumpFuel_parts (n sid : Nat) (d : Dev) : (pumpFuel n sid d).parts = d.parts := by
  induction n generalizing d with
  | zero => rfl
  | succ n ih =>
    unfold pumpFuel
    split
    · rfl
    · split
      · rfl
      · split
        · rw [ih, respSent_parts]; rfl
        · rfl
@[simp] theorem pumpSession_parts (d : Dev) (sid : Nat) : (pumpSession d sid).parts = d.parts := by simp [pumpSession]
@[simp] theorem sendSeq_parts (d : Dev) (sid ty : Nat) (b : List Byte) (m : Nat) : (sendSeq d sid ty b m).parts = d.parts := by
  unfold sendSeq; split <;> simp
@[simp] theorem respSent_mem (d : Dev) (sid : Nat) (m : OutMsg) : (respSent d sid m).mem = d.mem := by
  unfold respSent; dsimp only; split <;> rfl
@[simp] theorem pumpFuel_mem (n sid : Nat) (d : Dev) : (pumpFuel n sid d).mem = d.mem := by
  induction n generalizing d with
  | zero => rfl
  | succ n ih =>
    unfold pumpFuel
    split
    · rfl
    · split
      · rfl
      · split
        · rw [ih, respSent_mem]; rfl
        · rfl
@[simp] theorem pumpSession_mem (d : Dev) (sid : Nat) : (pumpSession d sid).mem = d.mem := by simp [pumpSession]
@[simp] theorem sendSeq_mem (d : Dev) (sid ty : Nat) (b : List Byte) (m : Nat) : (sendSeq d sid ty b m).mem = d.mem := by
  unfold sendSeq; split <;> simp
@[simp] theorem respSent_ftl (d : Dev) (sid : Nat) (m : OutMsg) : (respSent d sid m).ftl = d.ftl := by
  unfold respSent; dsimp only; split <;> rfl
@[simp] theorem pumpFuel_ftl (n sid : Nat) (d : Dev) : (pumpFuel n sid d).ftl = d.ftl := by
  induction n generalizing d with
  | zero => rfl
  | succ n ih =>
    unfold pumpFuel
    split
    · rfl
    · split
      · rfl
      · split
        · rw [ih, respSent_ftl]; rfl
        · rfl
@[simp] theorem pumpSession_ftl (d : Dev) (sid : Nat) : (pumpSession d sid).ftl = d.ftl := by simp [pumpSession]
@[simp] theorem sendSeq_ftl (d : Dev) (sid ty : Nat) (b : List Byte) (m : Nat) : (sendSeq d sid ty b m).ftl = d.ftl := by
  unfold sendSeq; split <;> simp
@[simp] theorem respSent_cst (d : Dev) (sid : Nat) (m : OutMsg) : (respSent d sid m).cst = d.cst := by
  unfold respSent; dsimp only; split <;> rfl
@[simp] theorem pumpFuel_cst (n sid : Nat) (d : Dev) : (pumpFuel n sid d).cst = d.cst := by
  induction n generalizing d with
  | zero => rfl
  | succ n ih =>
    unfold pumpFuel
    split
    · rfl
    · split
      · rfl
      · split
        · rw [ih, respSent_cst]; rfl
        · rfl
@[simp] theorem pumpSession_cst (d : Dev) (sid : Nat) : (pumpSession d sid).cst = d.cst := by simp [pumpSession]
@[simp] theorem sendSeq_cst (d : Dev) (sid ty : Nat) (b : List Byte) (m : Nat) : (sendSeq d sid ty b m).cst = d.cst := by
  unfold sendSeq; split <;> simp
@[simp] theorem respSent_dma (d : Dev) (sid : Nat) (m : OutMsg) : (respSent d sid m).dma = d.dma := by
  unfold respSent; dsimp only; split <;> rfl
@[simp] theorem pumpFuel_dma (n sid : Nat) (d : Dev) : (pumpFuel n sid d).dma = d.dma := by
  induction n generalizing d with
  | zero => rfl
  | succ n ih =>
    unfold pumpFuel
    split
    · rfl
    · split
      · rfl
      · split
        · rw [ih, respSent_dma]; rfl
        · rfl
@[simp] theorem pumpSession_dma (d : Dev) (sid : Nat) : (pumpSession d sid).dma = d.dma := by simp [pumpSession]
@[simp] theorem sendSeq_dma (d : Dev) (sid ty : Nat) (b : List Byte) (m : Nat) : (sendSeq d sid ty b m).dma = d.dma := by
  unfold sendSeq; split <;> simp
@[simp] theorem respSent_sched (d : Dev) (sid : Nat) (m : OutMsg) : (respSent d sid m).sched = d.sched := by
  unfold respSent; dsimp only; split <;> rfl
@[simp] theorem pumpFuel_sched (n sid : Nat) (d : Dev) : (pumpFuel n sid d).sched = d.sched := by
  induction n generalizing d with
  | zero => rfl
  | succ n ih =>
    unfold pumpFuel
    split
    · rfl
    · split
      · rfl
      · split
        · rw [ih, respSent_sched]; rfl
        · rfl
@[simp] theorem pumpSession_sched (d : Dev) (sid : Nat) : (pumpSession d sid).sched = d.sched := by simp [pumpSession]
@[simp] theorem sendSeq_sched (d : Dev) (sid ty : Nat) (b : List Byte) (m : Nat) : (sendSeq d sid ty b m).sched = d.sched := by
  unfold sendSeq; split <;> simp
@[simp] theorem respSent_rec_ (d : Dev) (sid : Nat) (m : OutMsg) : (respSent d sid m).rec_ = d.rec_ := by
  unfold respSent; dsimp only; split <;> rfl
@[simp] theorem pumpFuel_rec_ (n sid : Nat) (d : Dev) : (pumpFuel n sid d).rec_ = d.rec_ := by
  induction n generalizing d with
  | zero => rfl
  | succ n ih =>
    unfold pumpFuel
    split
    · rfl
    · split
      · rfl
      · split
        · rw [ih, respSent_rec_]; rfl
        · rfl
@[simp] theorem pumpSession_rec_ (d : Dev) (sid : Nat) : (pumpSession d sid).rec_ = d.rec_ := by simp [pumpSession]
@[simp] theorem sendSeq_rec_ (d : Dev) (sid ty : Nat) (b : List Byte) (m : Nat) : (sendSeq d sid ty b m).rec_ = d.rec_ := by
  unfold sendSeq; split <;> simp
@[simp] theorem respSent_mgr (d : Dev) (sid : Nat) (m : OutMsg) : (respSent d sid m).mgr = d.mgr := by
  unfold respSent; dsimp only; split <;> rfl
@[simp] theorem pumpFuel_mgr (n sid : Nat) (d : Dev) : (pumpFuel n sid d).mgr = d.mgr := by
  induction n generalizing d with
  | zero => rfl
  | succ n ih =>
    unfold pumpFuel
    split
    · rfl
    · split
      · rfl
      · split
        · rw [ih, respSent_mgr]; rfl
        · rfl
@[simp] theorem pumpSession_mgr (d : Dev) (sid : Nat) : (pumpSession d sid).mgr = d.mgr := by simp [pumpSession]
@[simp] theorem sendSeq_mgr (d : Dev) (sid ty : Nat) (b : List Byte) (m : Nat) : (sendSeq d sid ty b m).mgr = d.mgr := by
  unfold sendSeq; split <;> simp
@[simp] theorem sendMail_grade (d : Dev) (sid ty mb : Nat) (b : List Byte) (m : Nat) :
    (sendMail d sid ty mb b m).grade = d.grade := by
  unfold sendMail; split <;> simp
@[simp] theorem sendResp_grade (d : Dev) (r : Req) (a b : Nat) (c : List Byte) : (sendResp d r a b c).grade = d.grade := by
  simp [sendResp]
@[simp] theorem respond_grade (d : Dev) (r : Req) (a b : Nat) (c : List Byte) : (respond d r a b c).grade = d.grade := by
  unfold respond; split <;> simp
@[simp] theorem respondOk_grade (d : Dev) (r : Req) (c : List Byte) : (respondOk d r c).grade = d.grade := by
  simp [respondOk]
@[simp] theorem respondErr_grade (d : Dev) (r : Req) (a : Nat) : (respondErr d r a).grade = d.grade := by
  simp [respondErr]
@[simp] theorem respondBusy_grade (d : Dev) (r : Req) : (respondBusy d r).grade = d.grade := by
  simp [respondBusy]
@[simp] theorem sendMail_fresh (d : Dev) (sid ty mb : Nat) (b : List Byte) (m : Nat) :
    (sendMail d sid ty mb b m).fresh = d.fresh := by
  unfold sendMail; split <;> simp
@[simp] theorem sendResp_fresh (d : Dev) (r : Req) (a b : Nat) (c : List Byte) : (sendResp d r a b c).fresh = d.fresh := by
  simp [sendResp]
@[simp] theorem respond_fresh (d : Dev) (r : Req) (a b : Nat) (c : List Byte) : (respond d r a b c).fresh = d.fresh := by
  unfold respond; split <;> simp
@[simp] theorem respondOk_fresh (d : Dev) (r : Req) (c : List Byte) : (respondOk d r c).fresh = d.fresh := by
  simp [respondOk]
@[simp] theorem respondErr_fresh (d : Dev) (r : Req) (a : Nat) : (respondErr d r a).fresh = d.fresh := by
  simp [respondErr]
@[simp] theorem respondBusy_fresh (d : Dev) (r : Req) : (respondBusy d r).fresh = d.fresh := by
  simp [respondBusy]
@[simp] theorem sendMail_time (d : Dev) (sid ty mb : Nat) (b : List Byte) (m : Nat) :
    (sendMail d sid ty mb b m).time = d.time := by
  unfold sendMail; split <;> simp
@[simp] theorem sendResp_time (d : Dev) (r : Req) (a b : Nat) (c : List Byte) : (sendResp d r a b c).time = d.time := by
  simp [sendResp]
@[simp] theorem respond_time (d : Dev) (r : Req) (a b : Nat) (c : List Byte) : (respond d r a b c).time = d.time := by
  unfold respond; split <;> simp
@[simp] theorem respondOk_time (d : Dev) (r : Req) (c : List Byte) : (respondOk d r c).time = d.time := by
  simp [respondOk]
@[simp] theorem respondErr_time (d : Dev) (r : Req) (a : Nat) : (respondErr d r a).time = d.time := by
  simp [respondErr]
@[simp] theorem respondBusy_time (d : Dev) (r : Req) : (respondBusy d r).time = d.time := by
  simp [respondBusy]
@[simp] theorem sendMail_boot (d : Dev) (sid ty mb : Nat) (b : List Byte) (m : Nat) :
    (sendMail d sid ty mb b m).boot = d.boot := by
  unfold sendMail; split <;> simp
@[simp] theorem sendResp_boot (d : Dev) (r : Req) (a b : Nat) (c : List Byte) : (sendResp d r a b c).boot = d.boot := by
  simp [sendResp]
@[simp] theorem respond_boot (d : Dev) (r : Req) (a b : Nat) (c : List Byte) : (respond d r a b c).boot = d.boot := by
  unfold respond; split <;> simp
@[simp] theorem respondOk_boot (d : Dev) (r : Req) (c : List Byte) : (respondOk d r c).boot = d.boot := by
  simp [respondOk]
@[simp] theorem respondErr_boot (d : Dev) (r : Req) (a : Nat) : (respondErr d r a).boot = d.boot := by
  simp [respondErr]
@[simp] theorem respondBusy_boot (d : Dev) (r : Req) : (respondBusy d r).boot = d.boot := by
  simp [respondBusy]
@[simp] theorem sendMail_pwr (d : Dev) (sid ty mb : Nat) (b : List Byte) (m : Nat) :
    (sendMail d sid ty mb b m).pwr = d.pwr := by
  unfold sendMail; split <;> simp
@[simp] theorem sendResp_pwr (d : Dev) (r : Req) (a b : Nat) (c : List Byte) : (sendResp d r a b c).pwr = d.pwr := by
  simp [sendResp]
@[simp] theorem respond_pwr (d : Dev) (r : Req) (a b : Nat) (c : List Byte) : (respond d r a b c).pwr = d.pwr := by
  unfold respond; split <;> simp
@[simp] theorem respondOk_pwr (d : Dev) (r : Req) (c : List Byte) : (respondOk d r c).pwr = d.pwr := by
  simp [respondOk]
@[simp] theorem respondErr_pwr (d : Dev) (r : Req) (a : Nat) : (respondErr d r a).pwr = d.pwr := by
  simp [respondErr]
@[simp] theorem respondBusy_pwr (d : Dev) (r : Req) : (respondBusy d r).pwr = d.pwr := by
  simp [respondBusy]
@[simp] theorem sendMail_log (d : Dev) (sid ty mb : Nat) (b : List Byte) (m : Nat) :
    (sendMail d sid ty mb b m).log = d.log := by
  unfold sendMail; split <;> simp
@[simp] theorem sendResp_log (d : Dev) (r : Req) (a b : Nat) (c : List Byte) : (sendResp d r a b c).log = d.log := by
  simp [sendResp]
@[simp] theorem respond_log (d : Dev) (r : Req) (a b : Nat) (c : List Byte) : (respond d r a b c).log = d.log := by
  unfold respond; split <;> simp
@[simp] theorem respondOk_log (d : Dev) (r : Req) (c : List Byte) : (respondOk d r c).log = d.log := by
  simp [respondOk]
@[simp] theorem respondErr_log (d : Dev) (r : Req) (a : Nat) : (respondErr d r a).log = d.log := by
  simp [respondErr]
@[simp] theorem respondBusy_log (d : Dev) (r : Req) : (respondBusy d r).log = d.log := by
  simp [respondBusy]
@[simp] theorem sendMail_fab (d : Dev) (sid ty mb : Nat) (b : List Byte) (m : Nat) :
    (sendMail d sid ty mb b m).fab = d.fab := by
  unfold sendMail; split <;> simp
@[simp] theorem sendResp_fab (d : Dev) (r : Req) (a b : Nat) (c : List Byte) : (sendResp d r a b c).fab = d.fab := by
  simp [sendResp]
@[simp] theorem respond_fab (d : Dev) (r : Req) (a b : Nat) (c : List Byte) : (respond d r a b c).fab = d.fab := by
  unfold respond; split <;> simp
@[simp] theorem respondOk_fab (d : Dev) (r : Req) (c : List Byte) : (respondOk d r c).fab = d.fab := by
  simp [respondOk]
@[simp] theorem respondErr_fab (d : Dev) (r : Req) (a : Nat) : (respondErr d r a).fab = d.fab := by
  simp [respondErr]
@[simp] theorem respondBusy_fab (d : Dev) (r : Req) : (respondBusy d r).fab = d.fab := by
  simp [respondBusy]
@[simp] theorem sendMail_rm (d : Dev) (sid ty mb : Nat) (b : List Byte) (m : Nat) :
    (sendMail d sid ty mb b m).rm = d.rm := by
  unfold sendMail; split <;> simp
@[simp] theorem sendResp_rm (d : Dev) (r : Req) (a b : Nat) (c : List Byte) : (sendResp d r a b c).rm = d.rm := by
  simp [sendResp]
@[simp] theorem respond_rm (d : Dev) (r : Req) (a b : Nat) (c : List Byte) : (respond d r a b c).rm = d.rm := by
  unfold respond; split <;> simp
@[simp] theorem respondOk_rm (d : Dev) (r : Req) (c : List Byte) : (respondOk d r c).rm = d.rm := by
  simp [respondOk]
@[simp] theorem respondErr_rm (d : Dev) (r : Req) (a : Nat) : (respondErr d r a).rm = d.rm := by
  simp [respondErr]
@[simp] theorem respondBusy_rm (d : Dev) (r : Req) : (respondBusy d r).rm = d.rm := by
  simp [respondBusy]
@[simp] theorem sendMail_slc (d : Dev) (sid ty mb : Nat) (b : List Byte) (m : Nat) :
    (sendMail d sid ty mb b m).slc = d.slc := by
  unfold sendMail; split <;> simp
@[simp] theorem sendResp_slc (d : Dev) (r : Req) (a b : Nat) (c : List Byte) : (sendResp d r a b c).slc = d.slc := by
  simp [sendResp]
@[simp] theorem respond_slc (d : Dev) (r : Req) (a b : Nat) (c : List Byte) : (respond d r a b c).slc = d.slc := by
  unfold respond; split <;> simp
@[simp] theorem respondOk_slc (d : Dev) (r : Req) (c : List Byte) : (respondOk d r c).slc = d.slc := by
  simp [respondOk]
@[simp] theorem respondErr_slc (d : Dev) (r : Req) (a : Nat) : (respondErr d r a).slc = d.slc := by
  simp [respondErr]
@[simp] theorem respondBusy_slc (d : Dev) (r : Req) : (respondBusy d r).slc = d.slc := by
  simp [respondBusy]
@[simp] theorem sendMail_rill (d : Dev) (sid ty mb : Nat) (b : List Byte) (m : Nat) :
    (sendMail d sid ty mb b m).rill = d.rill := by
  unfold sendMail; split <;> simp
@[simp] theorem sendResp_rill (d : Dev) (r : Req) (a b : Nat) (c : List Byte) : (sendResp d r a b c).rill = d.rill := by
  simp [sendResp]
@[simp] theorem respond_rill (d : Dev) (r : Req) (a b : Nat) (c : List Byte) : (respond d r a b c).rill = d.rill := by
  unfold respond; split <;> simp
@[simp] theorem respondOk_rill (d : Dev) (r : Req) (c : List Byte) : (respondOk d r c).rill = d.rill := by
  simp [respondOk]
@[simp] theorem respondErr_rill (d : Dev) (r : Req) (a : Nat) : (respondErr d r a).rill = d.rill := by
  simp [respondErr]
@[simp] theorem respondBusy_rill (d : Dev) (r : Req) : (respondBusy d r).rill = d.rill := by
  simp [respondBusy]
@[simp] theorem sendMail_gate (d : Dev) (sid ty mb : Nat) (b : List Byte) (m : Nat) :
    (sendMail d sid ty mb b m).gate = d.gate := by
  unfold sendMail; split <;> simp
@[simp] theorem sendResp_gate (d : Dev) (r : Req) (a b : Nat) (c : List Byte) : (sendResp d r a b c).gate = d.gate := by
  simp [sendResp]
@[simp] theorem respond_gate (d : Dev) (r : Req) (a b : Nat) (c : List Byte) : (respond d r a b c).gate = d.gate := by
  unfold respond; split <;> simp
@[simp] theorem respondOk_gate (d : Dev) (r : Req) (c : List Byte) : (respondOk d r c).gate = d.gate := by
  simp [respondOk]
@[simp] theorem respondErr_gate (d : Dev) (r : Req) (a : Nat) : (respondErr d r a).gate = d.gate := by
  simp [respondErr]
@[simp] theorem respondBusy_gate (d : Dev) (r : Req) : (respondBusy d r).gate = d.gate := by
  simp [respondBusy]
@[simp] theorem sendMail_cores (d : Dev) (sid ty mb : Nat) (b : List Byte) (m : Nat) :
    (sendMail d sid ty mb b m).cores = d.cores := by
  unfold sendMail; split <;> simp
@[simp] theorem sendResp_cores (d : Dev) (r : Req) (a b : Nat) (c : List Byte) : (sendResp d r a b c).cores = d.cores := by
  simp [sendResp]
@[simp] theorem respond_cores (d : Dev) (r : Req) (a b : Nat) (c : List Byte) : (respond d r a b c).cores = d.cores := by
  unfold respond; split <;> simp
@[simp] theorem respondOk_cores (d : Dev) (r : Req) (c : List Byte) : (respondOk d r c).cores = d.cores := by
  simp [respondOk]
@[simp] theorem respondErr_cores (d : Dev) (r : Req) (a : Nat) : (respondErr d r a).cores = d.cores := by
  simp [respondErr]
@[simp] theorem respondBusy_cores (d : Dev) (r : Req) : (respondBusy d r).cores = d.cores := by
  simp [respondBusy]
@[simp] theorem sendMail_mem (d : Dev) (sid ty mb : Nat) (b : List Byte) (m : Nat) :
    (sendMail d sid ty mb b m).mem = d.mem := by
  unfold sendMail; split <;> simp
@[simp] theorem sendResp_mem (d : Dev) (r : Req) (a b : Nat) (c : List Byte) : (sendResp d r a b c).mem = d.mem := by
  simp [sendResp]
@[simp] theorem respond_mem (d : Dev) (r : Req) (a b : Nat) (c : List Byte) : (respond d r a b c).mem = d.mem := by
  unfold respond; split <;> simp
@[simp] theorem respondOk_mem (d : Dev) (r : Req) (c : List Byte) : (respondOk d r c).mem = d.mem := by
  simp [respondOk]
@[simp] theorem respondErr_mem (d : Dev) (r : Req) (a : Nat) : (respondErr d r a).mem = d.mem := by
  simp [respondErr]
@[simp] theorem respondBusy_mem (d : Dev) (r : Req) : (respondBusy d r).mem = d.mem := by
  simp [respondBusy]
@[simp] theorem sendMail_ftl (d : Dev) (sid ty mb : Nat) (b : List Byte) (m : Nat) :
    (sendMail d sid ty mb b m).ftl = d.ftl := by
  unfold sendMail; split <;> simp
@[simp] theorem sendResp_ftl (d : Dev) (r : Req) (a b : Nat) (c : List Byte) : (sendResp d r a b c).ftl = d.ftl := by
  simp [sendResp]
@[simp] theorem respond_ftl (d : Dev) (r : Req) (a b : Nat) (c : List Byte) : (respond d r a b c).ftl = d.ftl := by
  unfold respond; split <;> simp
@[simp] theorem respondOk_ftl (d : Dev) (r : Req) (c : List Byte) : (respondOk d r c).ftl = d.ftl := by
  simp [respondOk]
@[simp] theorem respondErr_ftl (d : Dev) (r : Req) (a : Nat) : (respondErr d r a).ftl = d.ftl := by
  simp [respondErr]
@[simp] theorem respondBusy_ftl (d : Dev) (r : Req) : (respondBusy d r).ftl = d.ftl := by
  simp [respondBusy]
@[simp] theorem sendMail_cst (d : Dev) (sid ty mb : Nat) (b : List Byte) (m : Nat) :
    (sendMail d sid ty mb b m).cst = d.cst := by
  unfold sendMail; split <;> simp
@[simp] theorem sendResp_cst (d : Dev) (r : Req) (a b : Nat) (c : List Byte) : (sendResp d r a b c).cst = d.cst := by
  simp [sendResp]
@[simp] theorem respond_cst (d : Dev) (r : Req) (a b : Nat) (c : List Byte) : (respond d r a b c).cst = d.cst := by
  unfold respond; split <;> simp
@[simp] theorem respondOk_cst (d : Dev) (r : Req) (c : List Byte) : (respondOk d r c).cst = d.cst := by
  simp [respondOk]
@[simp] theorem respondErr_cst (d : Dev) (r : Req) (a : Nat) : (respondErr d r a).cst = d.cst := by
  simp [respondErr]
@[simp] theorem respondBusy_cst (d : Dev) (r : Req) : (respondBusy d r).cst = d.cst := by
  simp [respondBusy]
@[simp] theorem sendMail_dma (d : Dev) (sid ty mb : Nat) (b : List Byte) (m : Nat) :
    (sendMail d sid ty mb b m).dma = d.dma := by
  unfold sendMail; split <;> simp
@[simp] theorem sendResp_dma (d : Dev) (r : Req) (a b : Nat) (c : List Byte) : (sendResp d r a b c).dma = d.dma := by
  simp [sendResp]
@[simp] theorem respond_dma (d : Dev) (r : Req) (a b : Nat) (c : List Byte) : (respond d r a b c).dma = d.dma := by
  unfold respond; split <;> simp
@[simp] theorem respondOk_dma (d : Dev) (r : Req) (c : List Byte) : (respondOk d r c).dma = d.dma := by
  simp [respondOk]
@[simp] theorem respondErr_dma (d : Dev) (r : Req) (a : Nat) : (respondErr d r a).dma = d.dma := by
  simp [respondErr]
@[simp] theorem respondBusy_dma (d : Dev) (r : Req) : (respondBusy d r).dma = d.dma := by
  simp [respondBusy]
@[simp] theorem sendMail_sched (d : Dev) (sid ty mb : Nat) (b : List Byte) (m : Nat) :
    (sendMail d sid ty mb b m).sched = d.sched := by
  unfold sendMail; split <;> simp
@[simp] theorem sendResp_sched (d : Dev) (r : Req) (a b : Nat) (c : List Byte) : (sendResp d r a b c).sched = d.sched := by
  simp [sendResp]
@[simp] theorem respond_sched (d : Dev) (r : Req) (a b : Nat) (c : List Byte) : (respond d r a b c).sched = d.sched := by
  unfold respond; split <;> simp
@[simp] theorem respondOk_sched (d : Dev) (r : Req) (c : List Byte) : (respondOk d r c).sched = d.sched := by
  simp [respondOk]
@[simp] theorem respondErr_sched (d : Dev) (r : Req) (a : Nat) : (respondErr d r a).sched = d.sched := by
  simp [respondErr]
@[simp] theorem respondBusy_sched (d : Dev) (r : Req) : (respondBusy d r).sched = d.sched := by
  simp [respondBusy]
@[simp] theorem sendMail_rec_ (d : Dev) (sid ty mb : Nat) (b : List Byte) (m : Nat) :
    (sendMail d sid ty mb b m).rec_ = d.rec_ := by
  unfold sendMail; split <;> simp
@[simp] theorem sendResp_rec_ (d : Dev) (r : Req) (a b : Nat) (c : List Byte) : (sendResp d r a b c).rec_ = d.rec_ := by
  simp [sendResp]
@[simp] theorem respond_rec_ (d : Dev) (r : Req) (a b : Nat) (c : List Byte) : (respond d r a b c).rec_ = d.rec_ := by
  unfold respond; split <;> simp
@[simp] theorem respondOk_rec_ (d : Dev) (r : Req) (c : List Byte) : (respondOk d r c).rec_ = d.rec_ := by
  simp [respondOk]
@[simp] theorem respondErr_rec_ (d : Dev) (r : Req) (a : Nat) : (respondErr d r a).rec_ = d.rec_ := by
  simp [respondErr]
@[simp] theorem respondBusy_rec_ (d : Dev) (r : Req) : (respondBusy d r).rec_ = d.rec_ := by
  simp [respondBusy]
@[simp] theorem sendMail_mgr (d : Dev) (sid ty mb : Nat) (b : List Byte) (m : Nat) :
    (sendMail d sid ty mb b m).mgr = d.mgr := by
  unfold sendMail; split <;> simp
@[simp] theorem sendResp_mgr (d : Dev) (r : Req) (a b : Nat) (c : List Byte) : (sendResp d r a b c).mgr = d.mgr := by
  simp [sendResp]
@[simp] theorem respond_mgr (d : Dev) (r : Req) (a b : Nat) (c : List Byte) : (respond d r a b c).mgr = d.mgr := by
  unfold respond; split <;> simp
@[simp] theorem respondOk_mgr (d : Dev) (r : Req) (c : List Byte) : (respondOk d r c).mgr = d.mgr := by
  simp [respondOk]
@[simp] theorem respondErr_mgr (d : Dev) (r : Req) (a : Nat) : (respondErr d r a).mgr = d.mgr := by
  simp [respondErr]
@[simp] theorem respondBusy_mgr (d : Dev) (r : Req) : (respondBusy d r).mgr = d.mgr := by
  simp [respondBusy]
@[simp] theorem sendEvent_grade (d : Dev) (e : Ev) : (sendEvent d e).grade = d.grade := by
  simp only [sendEvent, logIt_grade]
  exact foldl_keeps Dev.grade _ (fun _ _ => sendMail_grade _ _ _ _ _ _) _ _
@[simp] theorem recoveryEvent_grade (d : Dev) (a b : Nat) (p : Option Nat) (c e g h : Nat) :
    (recoveryEvent d a b p c e g h).grade = d.grade := by
  unfold recoveryEvent; dsimp only; split
  · rw [foldl_keeps Dev.grade _ (fun _ _ => sendMail_grade _ _ _ _ _ _)]; simp
  · simp
@[simp] theorem sendEvent_fresh (d : Dev) (e : Ev) : (sendEvent d e).fresh = d.fresh := by
  simp only [sendEvent, logIt_fresh]
  exact foldl_keeps Dev.fresh _ (fun _ _ => sendMail_fresh _ _ _ _ _ _) _ _
@[simp] theorem recoveryEvent_fresh (d : Dev) (a b : Nat) (p : Option Nat) (c e g h : Nat) :
    (recoveryEvent d a b p c e g h).fresh = d.fresh := by
  unfold recoveryEvent; dsimp only; split
  · rw [foldl_keeps Dev.fresh _ (fun _ _ => sendMail_fresh _ _ _ _ _ _)]; simp
  · simp
@[simp] theorem sendEvent_time (d : Dev) (e : Ev) : (sendEvent d e).time = d.time := by
  simp only [sendEvent, logIt_time]
  exact foldl_keeps Dev.time _ (fun _ _ => sendMail_time _ _ _ _ _ _) _ _
@[simp] theorem recoveryEvent_time (d : Dev) (a b : Nat) (p : Option Nat) (c e g h : Nat) :
    (recoveryEvent d a b p c e g h).time = d.time := by
  unfold recoveryEvent; dsimp only; split
  · rw [foldl_keeps Dev.time _ (fun _ _ => sendMail_time _ _ _ _ _ _)]; simp
  · simp
@[simp] theorem sendEvent_boot (d : Dev) (e : Ev) : (sendEvent d e).boot = d.boot := by
  simp only [sendEvent, logIt_boot]
  exact foldl_keeps Dev.boot _ (fun _ _ => sendMail_boot _ _ _ _ _ _) _ _
@[simp] theorem recoveryEvent_boot (d : Dev) (a b : Nat) (p : Option Nat) (c e g h : Nat) :
    (recoveryEvent d a b p c e g h).boot = d.boot := by
  unfold recoveryEvent; dsimp only; split
  · rw [foldl_keeps Dev.boot _ (fun _ _ => sendMail_boot _ _ _ _ _ _)]; simp
  · simp
@[simp] theorem sendEvent_pwr (d : Dev) (e : Ev) : (sendEvent d e).pwr = d.pwr := by
  simp only [sendEvent, logIt_pwr]
  exact foldl_keeps Dev.pwr _ (fun _ _ => sendMail_pwr _ _ _ _ _ _) _ _
@[simp] theorem recoveryEvent_pwr (d : Dev) (a b : Nat) (p : Option Nat) (c e g h : Nat) :
    (recoveryEvent d a b p c e g h).pwr = d.pwr := by
  unfold recoveryEvent; dsimp only; split
  · rw [foldl_keeps Dev.pwr _ (fun _ _ => sendMail_pwr _ _ _ _ _ _)]; simp
  · simp
@[simp] theorem sendEvent_fab (d : Dev) (e : Ev) : (sendEvent d e).fab = d.fab := by
  simp only [sendEvent, logIt_fab]
  exact foldl_keeps Dev.fab _ (fun _ _ => sendMail_fab _ _ _ _ _ _) _ _
@[simp] theorem recoveryEvent_fab (d : Dev) (a b : Nat) (p : Option Nat) (c e g h : Nat) :
    (recoveryEvent d a b p c e g h).fab = d.fab := by
  unfold recoveryEvent; dsimp only; split
  · rw [foldl_keeps Dev.fab _ (fun _ _ => sendMail_fab _ _ _ _ _ _)]; simp
  · simp
@[simp] theorem sendEvent_rm (d : Dev) (e : Ev) : (sendEvent d e).rm = d.rm := by
  simp only [sendEvent, logIt_rm]
  exact foldl_keeps Dev.rm _ (fun _ _ => sendMail_rm _ _ _ _ _ _) _ _
@[simp] theorem recoveryEvent_rm (d : Dev) (a b : Nat) (p : Option Nat) (c e g h : Nat) :
    (recoveryEvent d a b p c e g h).rm = d.rm := by
  unfold recoveryEvent; dsimp only; split
  · rw [foldl_keeps Dev.rm _ (fun _ _ => sendMail_rm _ _ _ _ _ _)]; simp
  · simp
@[simp] theorem sendEvent_slc (d : Dev) (e : Ev) : (sendEvent d e).slc = d.slc := by
  simp only [sendEvent, logIt_slc]
  exact foldl_keeps Dev.slc _ (fun _ _ => sendMail_slc _ _ _ _ _ _) _ _
@[simp] theorem recoveryEvent_slc (d : Dev) (a b : Nat) (p : Option Nat) (c e g h : Nat) :
    (recoveryEvent d a b p c e g h).slc = d.slc := by
  unfold recoveryEvent; dsimp only; split
  · rw [foldl_keeps Dev.slc _ (fun _ _ => sendMail_slc _ _ _ _ _ _)]; simp
  · simp
@[simp] theorem sendEvent_rill (d : Dev) (e : Ev) : (sendEvent d e).rill = d.rill := by
  simp only [sendEvent, logIt_rill]
  exact foldl_keeps Dev.rill _ (fun _ _ => sendMail_rill _ _ _ _ _ _) _ _
@[simp] theorem recoveryEvent_rill (d : Dev) (a b : Nat) (p : Option Nat) (c e g h : Nat) :
    (recoveryEvent d a b p c e g h).rill = d.rill := by
  unfold recoveryEvent; dsimp only; split
  · rw [foldl_keeps Dev.rill _ (fun _ _ => sendMail_rill _ _ _ _ _ _)]; simp
  · simp
@[simp] theorem sendEvent_gate (d : Dev) (e : Ev) : (sendEvent d e).gate = d.gate := by
  simp only [sendEvent, logIt_gate]
  exact foldl_keeps Dev.gate _ (fun _ _ => sendMail_gate _ _ _ _ _ _) _ _
@[simp] theorem recoveryEvent_gate (d : Dev) (a b : Nat) (p : Option Nat) (c e g h : Nat) :
    (recoveryEvent d a b p c e g h).gate = d.gate := by
  unfold recoveryEvent; dsimp only; split
  · rw [foldl_keeps Dev.gate _ (fun _ _ => sendMail_gate _ _ _ _ _ _)]; simp
  · simp
@[simp] theorem sendEvent_cores (d : Dev) (e : Ev) : (sendEvent d e).cores = d.cores := by
  simp only [sendEvent, logIt_cores]
  exact foldl_keeps Dev.cores _ (fun _ _ => sendMail_cores _ _ _ _ _ _) _ _
@[simp] theorem recoveryEvent_cores (d : Dev) (a b : Nat) (p : Option Nat) (c e g h : Nat) :
    (recoveryEvent d a b p c e g h).cores = d.cores := by
  unfold recoveryEvent; dsimp only; split
  · rw [foldl_keeps Dev.cores _ (fun _ _ => sendMail_cores _ _ _ _ _ _)]; simp
  · simp
@[simp] theorem sendEvent_mem (d : Dev) (e : Ev) : (sendEvent d e).mem = d.mem := by
  simp only [sendEvent, logIt_mem]
  exact foldl_keeps Dev.mem _ (fun _ _ => sendMail_mem _ _ _ _ _ _) _ _
@[simp] theorem recoveryEvent_mem (d : Dev) (a b : Nat) (p : Option Nat) (c e g h : Nat) :
    (recoveryEvent d a b p c e g h).mem = d.mem := by
  unfold recoveryEvent; dsimp only; split
  · rw [foldl_keeps Dev.mem _ (fun _ _ => sendMail_mem _ _ _ _ _ _)]; simp
  · simp
@[simp] theorem sendEvent_ftl (d : Dev) (e : Ev) : (sendEvent d e).ftl = d.ftl := by
  simp only [sendEvent, logIt_ftl]
  exact foldl_keeps Dev.ftl _ (fun _ _ => sendMail_ftl _ _ _ _ _ _) _ _
@[simp] theorem recoveryEvent_ftl (d : Dev) (a b : Nat) (p : Option Nat) (c e g h : Nat) :
    (recoveryEvent d a b p c e g h).ftl = d.ftl := by
  unfold recoveryEvent; dsimp only; split
  · rw [foldl_keeps Dev.ftl _ (fun _ _ => sendMail_ftl _ _ _ _ _ _)]; simp
  · simp
@[simp] theorem sendEvent_cst (d : Dev) (e : Ev) : (sendEvent d e).cst = d.cst := by
  simp only [sendEvent, logIt_cst]
  exact foldl_keeps Dev.cst _ (fun _ _ => sendMail_cst _ _ _ _ _ _) _ _
@[simp] theorem recoveryEvent_cst (d : Dev) (a b : Nat) (p : Option Nat) (c e g h : Nat) :
    (recoveryEvent d a b p c e g h).cst = d.cst := by
  unfold recoveryEvent; dsimp only; split
  · rw [foldl_keeps Dev.cst _ (fun _ _ => sendMail_cst _ _ _ _ _ _)]; simp
  · simp
@[simp] theorem sendEvent_dma (d : Dev) (e : Ev) : (sendEvent d e).dma = d.dma := by
  simp only [sendEvent, logIt_dma]
  exact foldl_keeps Dev.dma _ (fun _ _ => sendMail_dma _ _ _ _ _ _) _ _
@[simp] theorem recoveryEvent_dma (d : Dev) (a b : Nat) (p : Option Nat) (c e g h : Nat) :
    (recoveryEvent d a b p c e g h).dma = d.dma := by
  unfold recoveryEvent; dsimp only; split
  · rw [foldl_keeps Dev.dma _ (fun _ _ => sendMail_dma _ _ _ _ _ _)]; simp
  · simp
@[simp] theorem sendEvent_sched (d : Dev) (e : Ev) : (sendEvent d e).sched = d.sched := by
  simp only [sendEvent, logIt_sched]
  exact foldl_keeps Dev.sched _ (fun _ _ => sendMail_sched _ _ _ _ _ _) _ _
@[simp] theorem recoveryEvent_sched (d : Dev) (a b : Nat) (p : Option Nat) (c e g h : Nat) :
    (recoveryEvent d a b p c e g h).sched = d.sched := by
  unfold recoveryEvent; dsimp only; split
  · rw [foldl_keeps Dev.sched _ (fun _ _ => sendMail_sched _ _ _ _ _ _)]; simp
  · simp
@[simp] theorem sendEvent_rec_ (d : Dev) (e : Ev) : (sendEvent d e).rec_ = d.rec_ := by
  simp only [sendEvent, logIt_rec_]
  exact foldl_keeps Dev.rec_ _ (fun _ _ => sendMail_rec_ _ _ _ _ _ _) _ _
@[simp] theorem recoveryEvent_rec_ (d : Dev) (a b : Nat) (p : Option Nat) (c e g h : Nat) :
    (recoveryEvent d a b p c e g h).rec_ = d.rec_ := by
  unfold recoveryEvent; dsimp only; split
  · rw [foldl_keeps Dev.rec_ _ (fun _ _ => sendMail_rec_ _ _ _ _ _ _)]; simp
  · simp
@[simp] theorem sendEvent_mgr (d : Dev) (e : Ev) : (sendEvent d e).mgr = d.mgr := by
  simp only [sendEvent, logIt_mgr]
  exact foldl_keeps Dev.mgr _ (fun _ _ => sendMail_mgr _ _ _ _ _ _) _ _
@[simp] theorem recoveryEvent_mgr (d : Dev) (a b : Nat) (p : Option Nat) (c e g h : Nat) :
    (recoveryEvent d a b p c e g h).mgr = d.mgr := by
  unfold recoveryEvent; dsimp only; split
  · rw [foldl_keeps Dev.mgr _ (fun _ _ => sendMail_mgr _ _ _ _ _ _)]; simp
  · simp

end Sys2Proof.Machine
end

