-- ==== Sys2Proof/WellFormed.lean ====
section
/-! DEFINITION. When a command's operands name things the part has: one check per kind of operand. -/

namespace Sys2Proof

/-- Logical cores 0 to 31 (R16). -/
def lcoreOk (n : Nat) : Bool := decide (n < 32)

/-- Physical cores EC0 to EC35 (R10). -/
def physOk (n : Nat) : Bool := decide (n < 36)

/-- Partitions 0 to 15 (R10). -/
def partOk (p : Nat) : Bool := decide (p < 16)

/-- Port positions 0 to 47 (R174), and 48 for a cell that the device addressed to itself (log 24). -/
def portOk (n : Nat) : Bool := decide (n ≤ 48)

/-- A port position proper. -/
def lineOk (n : Nat) : Bool := decide (n < 48)

/-- Request streams: a logical core, or 64 + a bulk channel (R214). -/
def streamOk (st : Nat) : Bool := decide (st < 32) || decide (64 ≤ st ∧ st < 192)

/-- Bulk channels 0 to 127 (R337). -/
def chanOk (ch : Nat) : Bool := decide (ch < 128)

/-- Communicators 0 to 255 (R234). -/
def commOk (c : Nat) : Bool := decide (c < 256)

/-- Buckets 0 to 4,095 (R266). -/
def bucketOk (i : Nat) : Bool := decide (i < 4096)

/-- Gate Descriptor slots 0 to 255 (R95). -/
def slotOk (i : Nat) : Bool := decide (i < 256)

/-- Mailboxes 0 to 16 and windows 0 to 63 (R448, R455). -/
def windowOk (mb win : Nat) : Bool := decide (mb ≤ 16 ∧ win < 64)

/-- Pools 0 to 63 (R321). -/
def poolOk (g : Nat) : Bool := decide (g < 64)

/-- Stages 0 to 6 of a collective (R240). -/
def stageOk (st : Nat) : Bool := decide (st ≤ 6)

/-- Spine planes 0 to 15 (R189). -/
def planeOk (q : Nat) : Bool := decide (q < 16)

/-- Core movers 0 and 1 (R333). -/
def moverOk (m : Nat) : Bool := decide (m < 2)

/-- A unit of a core: a mover's number is 0 or 1. -/
def unitOk : CoreUnit → Bool
  | .mover m => moverOk m
  | _ => true

/-- Credit classes 0 to 9 (R192). -/
def classOk (c : Nat) : Bool := decide (c < 10)

/-- SLOT_ID has bits 0 to 5 (R511). -/
def sidebandOk : Sideband → Bool
  | .slotId b => decide (b < 6)
  | _ => true

/-- 36 junction and 4 DRAM sensors (R530). -/
def sensorsOk (x : Sensors) : Bool := x.tj.length == 36 && x.td.length == 4

/-- The command's operands are in range. -/
def Instr.wf : Instr → Bool
  | .ldw n _ | .mm n _ | .accOut n _ | .vop n _ | .cvt n _ | .mov n _ | .wait n _ | .sig n _ => lcoreOk n
  | .gatePush n _ | .dispatch n _ | .combine n _ | .allReduce n _ | .reduceScatter n _ | .allGather n _ => lcoreOk n
  | .broadcast n _ | .allToAll n _ | .barrier n _ | .digestSet n _ | .digestFlush n _ | .step n _ | .endTask n _ => lcoreOk n
  | .waitSatisfied n | .taskPlace n | .baskingEntry n | .coreWakeDone n | .watchdogExpiry n | .handoverDone n => lcoreOk n
  | .commandComplete n u => lcoreOk n && unitOk u
  | .moverHalfEvent n m | .moverFullEvent n m => lcoreOk n && moverOk m
  | .stepBarrierRelease p | .sequencerVote p | .commit p | .kvBoundary p | .memKvCfgWrite p _ | .pauseBoundary p => partOk p
  | .partitionPaused p | .snapshotValid p | .imageDone p | .releaseDelay p | .grdCfgWrite p _ | .preempt p _ => partOk p
  | .exchangeTagsTaken p _ | .rowsFixed p _ | .rxBufAlloc p _ _ | .transferComplete p _ _ | .exchangeComplete p _ => partOk p
  | .returnBuffersHeld p _ _ | .homeSum p _ _ | .slcTransferTimeout p _ _ | .slcDeferResend p _ _ | .earlyCreditLapse _ p _ => partOk p
  | .slcAbortResend p _ _ | .peerQueryTimer _ p _ _ | .peerQueryUnanswered _ p _ _ | .weirFill p _ _ | .kvCopyDone p _ => partOk p
  | .mergePairTimeout _ _ p | .heldFlagWrite _ _ p => partOk p
  | .gateStepDone p slot => partOk p && slotOk slot
  | .slcCount n _ | .slcDir n _ | .slcGrant n _ | .slcReady n _ | .slcCountAck n _ | .slcData n _ | .slcAck n _ => portOk n
  | .slcAbort n _ | .peerQuery n _ | .peerState n _ | .cellForward n _ | .linkState n _ | .unreach n _ => portOk n
  | .rmReduceM n _ | .rmMerge n _ | .rmLoad n _ | .rmStore n _ | .rmAtomic n _ | .rmReduce n _ | .rmMcast n _ => portOk n
  | .rmFence n _ | .rmResp n _ | .gwWrite n _ | .gwRead n _ | .gwData n _ | .collData n _ | .collOpen n _ => portOk n
  | .collOpenAck n _ | .collAck n _ | .collFree n _ | .collProbe n _ | .collEmpty n _ | .collNak n _ | .collAbort n _ => portOk n
  | .collMismatch n _ | .mgmtProbe n _ | .managerHeartbeat n _ | .launchCell n _ | .launchAck n _ | .launchDone n _ => portOk n
  | .launchAbort n _ | .barrierArrive n _ | .barrierRelease n _ | .fence n _ | .jobResume n _ | .probeAnswer n _ _ => portOk n
  | .faultReport n _ | .probeRequest n _ | .fenceAck n _ | .newRoot n _ | .jobPauseRequest n _ | .jobResumeRequest n _ => portOk n
  | .pausedReport n _ | .snapshotRestore n _ => portOk n
  | .bringupStepTimeout n | .bringupRetryWait n | .linkHello n _ | .laneDegrade n _ | .portErrLimit n | .fabPortCfgWrite n _ => lineOk n
  | .fecAlignmentLock n => lineOk n
  | .creditReturn n c _ => lineOk n && classOk c
  | .zexclExpire _ q => planeOk q
  | .load p st | .store p st | .flaggedStore p st | .atomic p st | .reduceInto p st | .multicastStore p st => partOk p && streamOk st
  | .streamFence p st | .targetFence p st | .flagGlobalSend p st | .gwIdleFlush p st _ => partOk p && streamOk st
  | .collSlotsReserved p c | .chunkStart p c _ | .collControlResend p c _ _ => partOk p && commOk c
  | .stageSum p c st _ | .collTransferTimeout p c st _ _ | .collWindowProbe p c st _ => partOk p && commOk c && stageOk st
  | .bucketFilled p i | .bucketConverted p i | .shardVerify p i | .summaryDone p i => partOk p && bucketOk i
  | .waitingRequestGrant g p => poolOk g && partOk p
  | .dmaFetch c | .copy c | .flashRead c | .flashWrite c | .flashTrim c | .fabricRead c | .fabricWrite c => chanOk c
  | .alloc c | .free c | .descriptorComplete c => chanOk c
  | .resultPublish mb w | .resultLeaseExpiry mb w _ => windowOk mb w
  | .coreFail pc | .coreHang pc _ | .replayStart pc _ => physOk pc
  | .sidebandFault i => sidebandOk i
  | .sensorSample x => sensorsOk x
  | .gatePushAccept | .gateStepOpen _ | .linkStatePeriod | .rmRequestTimeout _ | .dramPatrolScrub _ _ | .bankSpareDone _ => true
  | .flashPatrolScrub _ _ | .peerProbeTimeout _ | .heartbeatTimeout | .ethFrame _ | .ethLinkDown _ | .routerAdvertisement _ _ _ => true
  | .neighborSolicitation _ _ | .echoRequest _ _ | .arpRequest _ _ | .lldpTimer | .ptpSync _ | .ptpHoldover | .hello _ => true
  | .mboxReq _ | .write _ | .readReq _ | .readResp _ | .ack _ | .nak _ | .uhpRetransmitTimeout _ | .ackDelayTimer _ => true
  | .stallProbeTimer _ | .uhpIdleTimeout _ | .sessionExpiry _ | .openSession _ | .closeSession _ | .queryCaps _ => true
  | .partCreate _ | .partDestroy _ | .partSetQuota _ | .partSetWeir _ | .loadProgram _ | .unloadProgram _ | .submit _ => true
  | .abort _ | .pause _ | .resume _ | .saveImage _ | .restoreImage _ | .mapWindow _ | .unmapWindow _ | .readResult _ => true
  | .releaseResult _ | .gateLoad _ | .eptUpdate _ | .commCreate _ | .commDelete _ | .stepSet _ | .seedSet _ | .digestRead _ => true
  | .logRead _ | .healthQuery _ | .fwStage _ | .fwCommit _ | .fwCommitReset | .attest _ | .managerAssign _ | .jobLaunch _ => true
  | .fenceDevice _ | .fenceDeviceRejoin _ | .regRead _ | .regWrite _ | .launchTimeout _ | .resetInAssert | .resetInRelease => true
  | .bootStageDone _ | .dhcpv6Resolicit | .inputStable | .brownOut | .overVoltage | .lowInput _ | .epoAssert | .epoDeassert => true
  | .slotIdSample _ | .slotIdChange _ | .governorTick | .logRateSecond | .pwrCfgWrite _ | .registerWrite _ _ => true
  | .ethLinkUp | .ethTrainRetry | .heartbeatPeriod | .fenceEpochWait _ | .retryHoldExpiry _ _ _ | .flashRelocation _ => true
  | .rowSpareDone _ | .tripCooled => true

end Sys2Proof
end

