-- ==== Sys2Proof/Tests/Slice0.lean ====
section
/-! SUPPORT. Tests: an ill-formed term for each operand check, and for every statement with hypotheses small
concrete states and operands that meet them all, clause by clause. -/

set_option Elab.async false

namespace Sys2Proof.Tests
open Sys2Proof.Machine

/-! ### How a witness names what its hypotheses determine -/

theorem wSome {α : Type} {o : Option α} {P : α → Prop} (h : o.isSome = true) (hp : P (o.get h)) : ∃ x, o = some x ∧ P x :=
  ⟨o.get h, (Option.some_get h).symm, hp⟩

theorem wSome2 {α β : Type} {o : Option (α × β)} {P : α → β → Prop} (h : o.isSome = true) (hp : P (o.get h).1 (o.get h).2) :
    ∃ a b, o = some (a, b) ∧ P a b :=
  ⟨_, _, (Option.some_get h).symm, hp⟩

theorem wSome3 {α β γ : Type} {o : Option (α × β × γ)} {P : α → β → γ → Prop} (h : o.isSome = true)
    (hp : P (o.get h).1 (o.get h).2.1 (o.get h).2.2) : ∃ a b c, o = some (a, b, c) ∧ P a b c :=
  ⟨_, _, _, (Option.some_get h).symm, hp⟩

theorem wEq {α : Type} {a : α} {P : α → Prop} (hp : P a) : ∃ x, x = a ∧ P x := ⟨a, rfl, hp⟩

theorem wPair {α β : Type} {e : α × β} {P : α → β → Prop} (hp : P e.1 e.2) : ∃ a b, e = (a, b) ∧ P a b := ⟨_, _, rfl, hp⟩

theorem wTriple {α β γ : Type} {e : α × β × γ} {P : α → β → γ → Prop} (hp : P e.1 e.2.1 e.2.2) : ∃ a b c, e = (a, b, c) ∧ P a b c :=
  ⟨_, _, _, rfl, hp⟩

theorem wSomeL {α β : Type} {e : Option α × β} {P : α → β → Prop} (h : e.1.isSome = true) (hp : P (e.1.get h) e.2) :
    ∃ a b, e = (some a, b) ∧ P a b :=
  ⟨_, _, Prod.ext (Option.some_get h).symm rfl, hp⟩

theorem wSomeL2 {α γ β : Type} {e : Option (α × γ) × β} {P : α → γ → β → Prop} (h : e.1.isSome = true)
    (hp : P (e.1.get h).1 (e.1.get h).2 e.2) : ∃ a c b, e = (some (a, c), b) ∧ P a c b :=
  ⟨_, _, _, Prod.ext (Option.some_get h).symm rfl, hp⟩

theorem wSlots {α γ β : Type} {e : Option (α × γ) × β} {a : α} {P : γ → β → Prop} (h : e.1.isSome = true) (h2 : (e.1.get h).1 = a)
    (hp : P (e.1.get h).2 e.2) : ∃ c b, e = (some (a, c), b) ∧ P c b :=
  ⟨_, _, Prod.ext ((Option.some_get h).symm.trans (congrArg some (Prod.ext h2 rfl))) rfl, hp⟩

theorem wSomeR2 {α β γ : Type} {e : α × Option (β × γ)} {P : α → β → γ → Prop} (h : e.2.isSome = true)
    (hp : P e.1 (e.2.get h).1 (e.2.get h).2) : ∃ a b c, e = (a, some (b, c)) ∧ P a b c :=
  ⟨_, _, _, Prod.ext rfl (Option.some_get h).symm, hp⟩

theorem wTrueL {β : Type} {e : Bool × β} {P : β → Prop} (h : e.1 = true) (hp : P e.2) : ∃ b, e = (true, b) ∧ P b :=
  ⟨_, Prod.ext h rfl, hp⟩

theorem wOne {α : Type} {l : List α} {P : α → Prop} (h : l.length = 1) (hp : P (l[0]'(by omega))) : ∃ x, l = [x] ∧ P x := by
  match l, h with
  | [x], _ => exact ⟨x, rfl, hp⟩

theorem wCons {α : Type} {l : List α} {P : α → List α → Prop} (h : l ≠ []) (hp : P (l.head h) l.tail) :
    ∃ x r, l = x :: r ∧ P x r := by
  match l, h, hp with
  | x :: r, _, hp => exact ⟨x, r, rfl, hp⟩

theorem wNone {α : Type} {o : Option α} {P : α → Prop} (h : o = none) : ∀ x, o = some x → P x := by
  intro x hx
  rw [h] at hx
  cases hx

theorem wOpt {α : Type} {o : Option α} {p : α → Bool} (h : o.all p = true) : ∀ x, o = some x → p x = true := by
  intro x hx
  rw [hx] at h
  exact h

theorem wInr {α β : Type} {e : α ⊕ β} {P : β → Prop} (h : e.isRight = true) (hp : P (e.getRight h)) : ∃ b, e = .inr b ∧ P b :=
  ⟨e.getRight h, (Sum.inr_getRight e h).symm, hp⟩

theorem wInr2 {α β γ : Type} {e : α ⊕ (β × γ)} {P : β → γ → Prop} (h : e.isRight = true)
    (hp : P (e.getRight h).1 (e.getRight h).2) : ∃ b c, e = .inr (b, c) ∧ P b c :=
  ⟨_, _, (Sum.inr_getRight e h).symm, hp⟩

theorem wInl {α β : Type} {e : α ⊕ β} {P : α → Prop} (h : e.isLeft = true) (hp : P (e.getLeft h)) : ∃ b, e = .inl b ∧ P b :=
  ⟨e.getLeft h, (Sum.inl_getLeft e h).symm, hp⟩

/-- The state a command answers with, or the reset state where it stops. -/
def after (x : Host.Outcome State Fault Refusal) : State :=
  match x with
  | .next t => t
  | _ => State.reset

def goesOn (x : Host.Outcome State Fault Refusal) : Bool :=
  match x with
  | .next _ => true
  | _ => false

theorem wNext {x : Host.Outcome State Fault Refusal} {P : State → Prop} (h : goesOn x = true) (hp : P (after x)) :
    ∃ t, x = .next t ∧ P t := by
  cases x with
  | next t => exact ⟨t, rfl, hp⟩
  | fault _ => cases h
  | refused _ => cases h

/-- The device once an arrived cell has passed the checks. -/
def landed (d : Dev) (port : Nat) (c : Cell) : Dev :=
  match screen d port c with
  | .here d1 => d1
  | _ => d

def lands (d : Dev) (port : Nat) (c : Cell) (tys : List Nat) : Bool :=
  (match screen d port c with
    | .here _ => true
    | _ => false) && tys.contains c.ty.toNat

theorem wDelivered {d : Dev} {port : Nat} {c : Cell} {tys : List Nat} {P : Dev → Prop} (h : lands d port c tys = true)
    (hp : P (landed d port c)) : ∃ d1, Delivered d port c tys d1 ∧ P d1 := by
  unfold lands at h
  unfold landed at hp
  unfold Delivered
  cases hs : screen d port c <;> simp [hs] at h hp
  exact ⟨_, ⟨rfl, h⟩, hp⟩

theorem wServed {waits : Dev → Cell → Bool} {d : Dev} {port : Nat} {c : Cell} {tys : List Nat} {P : Dev → Prop}
    (hw : waits d c = false) (h : lands (leaveBuffer d port c) port c tys = true) (hp : P (landed (leaveBuffer d port c) port c)) :
    ∃ d1, Served waits d port c tys d1 ∧ P d1 :=
  have ⟨d1, h1, h2⟩ := wDelivered (P := fun x => P x) h hp
  ⟨d1, ⟨hw, h1⟩, h2⟩

theorem wTold {boss : Bool} {d : Dev} {port : Nat} {c : Cell} {P : Dev → Prop} (h : lands d port c [tyMgmt] = true)
    (hb : (!boss || trusted (landed d port c) c.src) = true) (hp : P (learnEpoch (landed d port c) c)) :
    ∃ d1, Told boss d port c d1 ∧ P d1 := by
  have ⟨d0, h0, e⟩ := wDelivered (P := fun x => x = landed d port c) h rfl
  refine ⟨_, ⟨d0, h0, ?_, rfl⟩, e ▸ hp⟩
  subst e
  intro h
  simpa [h] using hb

/-- The device that a cell passing through leaves. -/
def passed (d : Dev) (port : Nat) (c : Cell) : Dev :=
  match screen d port c with
  | .onward d1 => d1
  | _ => d

def passes (d : Dev) (port : Nat) (c : Cell) : Bool :=
  match screen d port c with
  | .onward _ => true
  | _ => false

theorem wOnward {d : Dev} {port : Nat} {c : Cell} {P : Dev → Prop} (h : passes d port c = true) (hp : P (passed d port c)) :
    ∃ d1, screen d port c = .onward d1 ∧ P d1 := by
  unfold passes at h
  unfold passed at hp
  cases hs : screen d port c <;> simp [hs] at h hp
  exact ⟨_, rfl, hp⟩

/-- An outstanding request, by its identity. -/
def theReq (d : Dev) (r : ReqId) : Option Req := d.host.reqs.find? fun y => y.id == r

theorem wAsked {d : Dev} {r : ReqId} {cmd : Nat} {P : Req → Prop} (h : (theReq d r).isSome = true)
    (h2 : ((theReq d r).get h).cmd = cmd ∧ ((theReq d r).get h).answered = false ∧
      (((theReq d r).get h).started || runnable d ((theReq d r).get h)) = true)
    (hp : P ((theReq d r).get h)) : ∃ q, Asked d r cmd q ∧ P q :=
  ⟨(theReq d r).get h, ⟨(Option.some_get h).symm, h2⟩, hp⟩

/-! ### Small states -/

/-- The reset state with a changed device. -/
def dv (f : Dev → Dev) : State := State.reset.putDev (f State.reset.dev)

/-- Partition 0, running on the logical cores of a mask: 16 SRAM units, 1,024 side pages, DRAM page 1 and a program. -/
def part0 (set : U32) (cmds : List (BitVec 128)) : Part :=
  { st := .active, coreset := set, sramUnits := 16, pages := [1], sideQuota := 64
    progs := [(0, { cmds := cmds, tasks := [{ start := 0, count := cmds.length, pinned := false, lcore := 0 }], sramUnits := 1, pages := 1 })] }

/-- A task of partition 0 at its first command. -/
def task0 : Task :=
  { part := 0, sub := 1, entry := 0, prog := 0, task := 0, args := [], start := 0, count := 1, ip := 0, sb := [], cnt := [], dig := {}
    loader := [], array := [], drain := [], vector := [], mover0 := [], mover1 := [], port := [], holding := none, atStep := false
    stopped := none, effects := [], reads := [], broken := false, stepAtStart := 0, replay := none, replayStep := 0, partials := [] }

/-- A command that entered its unit. -/
def flying (w : BitVec 128) : InFlight :=
  { idx := 0, w := w, reads := [], writes := [], half := false, accepted := 0, nullTile := false, quiet := false, moved := []
    digest := none, ctx := {} }

/-- Core 0 runs a task of partition 0 whose program is the one command w. -/
def tile (w : BitVec 128) (g : Task → Task) (h : Core → Core) (f : Dev → Dev) : State :=
  dv fun d => f ((d.modPart 0 fun _ => part0 1 [w]).modCore 0 fun c =>
    h { c with st := .running, holder := some 0, task := some (g task0) })

/-- Port 0 is up and partition 0 exists; cells of a type for this device come in from device 1. -/
def line (f : Dev → Dev) : State :=
  dv fun d => f ((d.modPort 0 fun x => { x with state := .up, creditsKnown := true }).modPart 0 fun _ => part0 1 [])

def arriving (ty off tag : Nat) (pay : Payload) : Cell :=
  { dest := 0, src := 1, vc := BitVec.ofNat 3 ((vcsOf ty).headD 0), ty := BitVec.ofNat 5 ty, part := 0, tag := BitVec.ofNat 13 tag
    off := BitVec.ofNat 23 off, epoch := 0, last := false, retry := false, combine := false, flagStore := false, hops := 0, rsvd := 0
    crcOk := true, pay := pay }

/-- A job of partition 0 at its manager, this device: members 0 and 1. -/
def job0 : Job :=
  { id := 7, part := 0, spec := [], members := [0, 1], spares := [], subst := [], replaced := 0, acked := [], rounds := 0, status := 0
    badPos := none, launched := true, req := ⟨1, 1, 1⟩, noevt := false, pauseMark := false, pausing := false, paused := []
    resumeAsked := false, replaying := false, past := [], arrivals := none, reports := [], fresh := [], deputy := 1 }

def managing (f : Dev → Dev) (g : Job → Job) : State :=
  line fun d => f { d with mgr := { d.mgr with scm := 0x00011001, active := true, jobs := [g job0] } }

/-- A bucket of the present step. -/
def bucket0 : Bucket :=
  { index := 0, entry := 0, phase := .prepass, launched := false, eloc := none, emax := none, exp := 0, predicted := false, redo := false
    satd := false, flags := 0, status := 0, fail := none, sumEnd := none }

def desc0 (w : BitVec 512) : Desc :=
  { part := 0, addr := 0, w := w, step := 0, started := false, done := false, halfDone := false, status := 0, cause := 0, flags := 0, moved := 0
    parts := [], outstanding := 0, acked := [], out := [] }

/-! ### Sluice -/

def exch0 : Exch :=
  { uid := 0, part := 0, id := 5, sub := 1, lcore := 0, descAddr := 0, desc := 0, combine := false, rank := 0, peers := [(1, 0)], rxt := []
    phase := .running, step := 0, tokens := 0, outs := [], ins := [], rowsFixed := false, expected := [], placed := [], refusedAt := []
    srcRows := [], rxBuf := [], finals := [], srcDone := 0, refused := 0, homeRecs := [], summed := [], status := 0, cause := 0, peer := 0
    signal := true, wrote := false }

/-- The transfer that device 1 sends, its tag 9. -/
def in0 : InXfer :=
  { src := 0, dev := 1, own := false, tag := some 9, count := some 0, dir := [], landed := [], seen := [], grants := [], placed := 0
    readySent := false, ackSent := false, complete := false, land := [], rets := [], retsHeld := false, cfg := 0x400400C8 }

/-- The transfer to device 1, its tag 9. -/
def out0 : OutXfer :=
  { dst := 0, dev := 1, part := 0, tag := some 9, cells := [], sent := 0, nctl := 0, runs := [], grants := [], counted := true
    ready := false, deferred := false, ended := false, retries := 0, timing := true, early := false, cfg := 0x400400C8 }

/-- A pool of eight 256-byte buffers in Cistern SRAM, mode SHARED. -/
def pooled (d : Dev) : Dev :=
  { d with cst := { d.cst with pools := [(0, { cfg := 0x0000000000080041, base := BitVec.ofNat 64 cstBase })] } }

def exchanging (f : Exch → Exch) : State := line fun d => { pooled d with slc := { d.slc with exch := [f exch0] } }

def gstep0 : GStep :=
  { id := 0, part := 0, slot := 0, sub := 1, desc := 0, granted := false, serve := false, step := 0, held := [], bias := [], table := []
    bad := [], lasts := 0, tokens := [], closed := true, written := true, failed := false, res := 0x341040 }

/-! ### Rack memory -/

def req0 (w : BitVec 512) : RmReq :=
  { part := 0, stream := 0, order := 0, desc := w, phase := .queued, tag := none, seq := 0, cells := [], retries := 0, unconfirmed := 0
    data := [], gotCells := [], respStatus := none, respOld := 0, cfg := 0x06440028 }

def requesting (w : BitVec 512) (f : RmReq → RmReq) (g : Dev → Dev) : State :=
  line fun d => g { d with rm := { d.rm with reqs := [f (req0 w)] } }

/-- Partition 0 exports its one page. -/
def exporting (f : Dev → Dev) : State := line fun d => f (d.modPart 0 fun x => { x with rmExport := 0x00000101 })

def win0 : GwWin :=
  { part := 0, stream := 0, base := 0, isWrite := false, filling := true, bytes := [], mask := [], tag := some 9, flushing := false
    cells := [], retries := 0, gotCells := [], status := 0, order := 0, cfg := 0x06440028 }

/-! ### Rill -/

/-- A collective of devices 0 and 1, this device at rank 0, its slots held; op and type are those of w. -/
def collBase (w : BitVec 512) : Coll :=
  { uid := 0, part := 0, comm := 0, seq := 0, sub := 1, at_ := some (0, 0), bucket := none, desc := w
    cm := pack 192 [(32, 2), (36, 1), (40, 1), (86, 1), (144, 1)], mem := [0, 1], chunkLog2 := 9, nchunk := 1, bufs := [], slotsHeld := true
    openStatus := some 0, openSent := [], openAcked := [], opens := [], started := 0, slots := [], outs := [], freedBy := [], freed := []
    above := [], doneAbove := [], signalled := 0, done := 0, verdict := none, got := [], expCand := none, abort := none, abortSent := []
    status := 0, cause := 0, rank := 0, ovf := false, nf := false, satd := false, csumFixed := false, ended := false, cfg := 0x00240190 }

/-- The peer's OPEN is held and agrees. -/
def coll0 (w : BitVec 512) : Coll := { collBase w with opens := [(1, (0, BitVec.ofNat 64 (collHash (collBase w))))] }

def collecting (w : BitVec 512) (f : Coll → Coll) : State := line fun d => { pooled d with rill := { d.rill with colls := [f (coll0 w)] } }

/-- A summand of chunk 0 in a stage, this member's own slices there. -/
def slot0 (st : Nat) (own : Tbl (List Byte)) (rx : Tbl (List Byte)) : Slot :=
  { stage := st, chunk := 0, own := some own, rx := rx, cells := [], unsent := [1], bad := [], summed := false, retained := false }

def sent0 : CollXfer :=
  { stage := 0, chunk := 0, peer := 1, cells := [], isEmpty := false, acked := false, retries := 0, timing := true }

/-! ### Bulk channels, scheduler, windows -/

/-- Channel 0 of partition 0, running, its one descriptor active in engine 0. -/
def bulk (x : Desc) : State :=
  line fun d =>
    let d := d.modPart 0 fun y => { y with flash := [3] }
    { pooled d with dma := { d.dma with chans := [(0, { cfg := 1, state := .running, fetched := [x] })], engs := [(0, { active := some 0 })] } }

/-- Channel 0, kicked, with a free place. -/
def kicked (f : Dev → Dev) : State :=
  line fun d =>
    let d := d.modPart 0 fun y => { y with sems := [(0, 1)] }
    f { d with dma := { d.dma with chans := [(0, { cfg := 1, state := .running })] } }

def qentry0 : QEntry := { sub := 1, index := 0, prog := 0, task := 0, startEn := false, startSem := 0, startVal := 0, args := [] }

def window0 : Window :=
  { kind := .result, canWrite := false, canRead := true, addr := 0, len := 64, leaseMs := 1000, pages := 0, assigned := 1, published := 0
    gens := [(1, .ended 1)], buf0 := [], buf1 := [], src := [(1, (0, 8))], who := [(1, (1, 2, false))] }

def quotaDone (e : QuotaResult) : Bool :=
  match e with
  | .done _ => true
  | _ => false

def quotaDev (e : QuotaResult) : Dev :=
  match e with
  | .done d => d
  | _ => State.reset.dev

theorem wDone {e : QuotaResult} {P : Dev → Prop} (h : quotaDone e = true) (hp : P (quotaDev e)) : ∃ d, e = .done d ∧ P d := by
  cases e with
  | done d => exact ⟨d, rfl, hp⟩
  | fails _ _ => cases h
  | waits _ => cases h

def isPub (g : Option GenState) : Bool :=
  match g with
  | some (.published _) => true
  | _ => false

def pubEnd (g : Option GenState) : Nat :=
  match g with
  | some (.published e) => e
  | _ => 0

theorem wPub {g : Option GenState} {P : Nat → Prop} (h : isPub g = true) (hp : P (pubEnd g)) : ∃ e, g = some (.published e) ∧ P e := by
  unfold isPub at h
  unfold pubEnd at hp
  match g, h, hp with
  | some (.published e), _, hp => exact ⟨e, rfl, hp⟩

theorem wOkProg {a b : Nat} {γ : Type} {e : Nat × Nat × γ} {P : γ → Prop} (h : (e.1, e.2.1) = (a, b)) (hp : P e.2.2) :
    ∃ g, e = (a, b, g) ∧ P g := by
  obtain ⟨x, y, z⟩ := e
  cases h
  exact ⟨z, rfl, hp⟩

theorem wIs {α : Type} {a : α} {P : α → Prop} (hp : P a) : ∃ x, a = x ∧ P x := ⟨a, rfl, hp⟩

/-! ### The host -/

/-- An open session of no key, its next message numbered 1. -/
def session0 : Session :=
  { id := 1, num := 0, cfg := 0x03E8040000040064, hostAddr := .v6 5, hostPort := 7, uhp := 0x12, mbox := 0x11, isnHost := 0, isnPart := 0
    challenge := 0, rcvNext := 1, rcvHeld := [], sndNext := 2, unacked := [], waiting := [], window := 16
    ackedInWindow := 0, lastHalved := 0, sinceAck := 0, ackDue := false, ceSeen := false, key := none, macFails := 0, stalled := false }

def hostUp (g : Session → Session) (f : Dev → Dev) : State :=
  line fun d => f { d with
    boot := { d.boot with stage := .ready }, time := { d.time with now := 2000000000 }
    host := { d.host with link := true, llSince := some 0, sessions := [g session0] } }

def hostMsg (session seq : Nat) (body : List Byte) : UhpMsg :=
  { hostAddr := .v6 5, dst := .v6 (linkLocal State.reset.fuses.mac), hostPort := 7, version := 0x12, ece := false, rsvd := false, session := BitVec.ofNat 16 session
    len := BitVec.ofNat 16 body.length, seq := BitVec.ofNat 64 seq, ackno := 0, body := body, ce := false }

def sent : OutMsg := { version := 0x12, session := 0, ty := 3, seq := 1, ackno := 0, ece := false, body := [] }

/-- A request of partition 0 is outstanding, its body the fields given. -/
def asked (mb cmd n : Nat) (fs : List (Nat × Nat)) (f : Dev → Dev) : State :=
  hostUp id fun d => f { d with host := { d.host with reqs := [⟨⟨1, mb, 1⟩, 0, cmd, 0, false, toLe n (packNat fs), false, false⟩] } }

def ask1 : ReqId := ⟨1, 1, 1⟩
def ask0 : ReqId := ⟨1, 0, 1⟩

/-- A program image of one task of one command, at address 0 of partition 0. -/
def image0 : List Byte :=
  let t := toLe 16 (packNat [(32, 1)]) ++ toLe 16 0x3F
  toLe 64 (packNat [(0, 0x454C4954), (32, 1), (64, 1), (96, 1), (128, 64), (160, 80), (192, 1), (256, crc64 t)]) ++ t

def imaged (d : Dev) : Dev := { d with mem := { d.mem with dram := image0.mapIdx fun i b => (0x200000 + i, b) } }

def sub0 : Sub := { id := 9, total := 1, retired := [], aborting := false, window := none, gen := 0, req := ⟨1, 1, 2⟩, noevt := false, rest := [], failed := none }

theorem imGate_length (d : Dev) (p : Nat) : (imGate d p).length = 65536 := by
  simp only [imGate, List.length_flatMap, toLe_length]
  decide +kernel

theorem imComms_length (x : Part) : (imComms x).length = 6144 := by
  simp only [imComms, List.length_flatMap, toLe_length]
  decide +kernel

/-- An image is short where its small sections are. -/
theorem image_fits {d : Dev} {p n : Nat} (h : (imHeader d p).length + (imRegisters (d.part p)).length + 65536 + 6144 +
    (numsBytes (putSched (d.part p) (d.gate.queue.filter fun u => u.part == p))).length + (numsBytes (putList putCtx (d.part p).ctxs)).length + (imViews d p).length +
    (imChans d p).length + (imBuffers d p).length + (readRange d p false 0 ((d.part p).pages.length * pageSize)).length + 8 ≤ n) :
    (imageOf d p).length ≤ n := by
  unfold imageOf
  simp only [List.length_append, imGate_length, imComms_length, toLe_length]
  omega
theorem witness_EmptyQueueCountsOneNanosecond :
    (∃ (s : State), s.pending = [] ∧ s.dev.pwr.rails = false) ∧
    (∃ (s : State), s.pending = [] ∧ s.dev.pwr.rails = true ∧ s.dev.time.slew = 0) ∧
    (∃ (s : State), s.pending = [] ∧ s.dev.pwr.rails = true ∧ s.dev.time.slew = 0 ∧ (∀ x ∈ s.dev.fab.ports, x.2.state = .hello →
    x.2.creditsKnown = false → s.dev.time.now < x.2.helloAt + 10000)) :=
  ⟨⟨dv fun d => { d with pwr := { d.pwr with rails := false } }, by decide +kernel⟩,
  ⟨State.reset, by decide +kernel⟩,
  ⟨State.reset, by decide +kernel⟩⟩

theorem witness_NoCommandChangesTheQueue :
    
    ∃ (c : Instr) (s : State), ∃ (t : State), exec c s = .next t ∧ True :=
  ⟨.lldpTimer, { State.reset with pending := [.governorTick] }, wNext (by decide +kernel) (trivial)⟩

theorem witness_FusesChangedOnlyByNamedCommands :
    
    ∃ (c : Instr) (s : State), touchesFuses c = false ∧ ∃ (t : State), exec c s = .next t ∧ True :=
  ⟨.lldpTimer, { State.reset with pending := [.governorTick] }, by decide +kernel, wNext (by decide +kernel) (trivial)⟩

theorem witness_SvnFloorIsOneWay :
    (∃ (s : State), s.dev.pwr.rails = true ∧ s.dev.boot.stage = .verify) ∧
    (∃ s t : State, step s = .next t) :=
  ⟨⟨dv fun d => { d with boot := { d.boot with stage := .verify } }, by decide +kernel⟩,
  ⟨State.reset, after (step State.reset), rfl⟩⟩

theorem witness_NoLeafIsUsedTwice :
    (∃ (s : State), LeafInv s ∧ ∃ (t : State), step s = .next t ∧ True) ∧
    (∃ (s : State), LeafInv s ∧ ∃ (leaf : Nat) (t : State), takeLeaf s = some (leaf, t) ∧ True) :=
  ⟨⟨State.reset, by unfold LeafInv; decide +kernel, wNext (by decide +kernel) (trivial)⟩,
  ⟨State.reset, by unfold LeafInv; decide +kernel, wSome2 (by decide +kernel) (trivial)⟩⟩

theorem witness_BootAndPowerChangedOnlyByNamedCommands :
    
    ∃ (c : Instr) (s : State), touchesBoot c = false ∧ ∃ (t : State), exec c s = .next t ∧ True :=
  ⟨.lldpTimer, State.reset, by decide +kernel, wNext (by decide +kernel) (trivial)⟩

theorem witness_ArrayCommandsComplete :
    (∃ (n : Nat) (w : BitVec 128) (s : State), ∃ (pc : Nat) (t : Task), issueTo s.dev n 1 w .loader = some (pc, t) ∧ sramCheck s.dev pc n t w =
    none) ∧
    (∃ (n : Nat) (w : BitVec 128) (s : State), ∃ (pc : Nat) (t : Task), issueTo s.dev n 2 w .array = some (pc, t) ∧ nullTile t.cnt w = true) ∧
    (∃ (n : Nat) (w : BitVec 128) (s : State), ∃ (pc : Nat) (t : Task), issueTo s.dev n 2 w .array = some (pc, t) ∧ nullTile t.cnt w = false ∧
    sramCheck s.dev pc n t w = none ∧ (planeOf (s.dev.core pc) (cPlane w)).fmt = some (mmWfmt w) ∧ (mmZero w = false → (bankOf (s.dev.core
    pc) (mmAcc w)).int = intPair (mmWfmt w))) ∧
    (∃ (n : Nat) (w : BitVec 128) (s : State), ∃ (pc : Nat) (t : Task), issueTo s.dev n 3 w .drain = some (pc, t) ∧ nullTile t.cnt w = true) ∧
    (∃ (n : Nat) (w : BitVec 128) (s : State), ∃ (pc : Nat) (t : Task), issueTo s.dev n 3 w .drain = some (pc, t) ∧ nullTile t.cnt w = false ∧
    rangesOk s.dev t w = true ∧ (bankOf (s.dev.core pc) (cPlane w)).int = (aoFmt w == 0xB)) ∧
    (∃ (t : Task), t.broken = false) :=
  ⟨⟨0, 0x2000001, tile 0x2000001 id id id, wSome2 (by decide +kernel) (by decide +kernel)⟩,
  ⟨0, 0x20002, tile 0x20002 id id id, wSome2 (by decide +kernel) (by decide +kernel)⟩,
  ⟨0, 0x100000000100000008000002, tile 0x100000000100000008000002 id (fun c =>
    { c with plane0 := { fmt := some 8 }, acc0 := { int := true } }) id, wSome2 (by decide +kernel) (by decide +kernel)⟩,
  ⟨0, 0x20003, tile 0x20003 id id id, wSome2 (by decide +kernel) (by decide +kernel)⟩,
  ⟨0, 0x800100000000000003, tile 0x800100000000000003 id id id, wSome2 (by decide +kernel) (by decide +kernel)⟩,
  ⟨task0, by decide +kernel⟩⟩

theorem witness_VectorCommandsComplete :
    (∃ (n : Nat) (w : BitVec 128) (s : State), ∃ (pc : Nat) (t : Task), issueTo s.dev n 4 w .vector = some (pc, t) ∧ sramCheck s.dev pc n t w =
    none) ∧
    (∃ (n : Nat) (w : BitVec 128) (s : State), ∃ (pc : Nat) (t : Task), issueTo s.dev n 5 w .vector = some (pc, t) ∧ sramCheck s.dev pc n t w =
    none) :=
  ⟨⟨0, 0x4, tile 0x4 id id id, wSome2 (by decide +kernel) (by decide +kernel)⟩,
  ⟨0, 0x5, tile 0x5 id id id, wSome2 (by decide +kernel) (by decide +kernel)⟩⟩

theorem witness_MoverCommandsComplete :
    (∃ (n : Nat) (w : BitVec 128) (s : State), ∃ (pc : Nat) (t : Task), issueTo s.dev n 6 w (.mover (movMover w)) = some (pc, t) ∧ nullTile
    t.cnt w = false ∧ rangesOk s.dev t w = true ∧ (toCtl w = true → ctlMovOk t.part w = true) ∧ (movOut w = true → toCtl w = true →
    t.suppressed = false)) ∧
    (∃ (n : Nat) (m : Nat) (s : State), ∃ (pc : Nat) (t : Task) (x : InFlight), moverHead s.dev n m = some (pc, t, x) ∧ (movHalf x.w = true ∧
    x.half = false) ∧ ∃ (bs : List Byte) (d : Dev), moveBytes s.dev pc t.part n m x 0 (halfPoint x.w) = (some bs, d) ∧ True) ∧
    (∃ (n : Nat) (m : Nat) (s : State), ∃ (pc : Nat) (t : Task) (x : InFlight), moverHead s.dev n m = some (pc, t, x) ∧ ((movHalf x.w = true →
    x.half = true) ∧ toCtl x.w = false) ∧ ∃ (bs : List Byte) (d : Dev), moveBytes s.dev pc t.part n m x (if x.half then halfPoint x.w else
    0) (movLen x.w) = (some bs, d) ∧ (movOut x.w = true → okFor d t.part (cmdOp d pc x.idx) false (movD x.w + movLen x.w) (crcLen (movCrc
    x.w)) = true)) ∧
    (∃ (n : Nat) (u : CoreUnit) (s : State), u ∈ [.loader, .array, .drain, .vector] ∧ ∃ (pc : Nat), coreOf s.dev n = some pc ∧ ∃ (t : Task),
    (s.dev.core pc).task = some t ∧ ∃ (x : InFlight), (t.unit u).head? = some x ∧ True) :=
  ⟨⟨0, 0x800000000000006, tile 0x800000000000006 id id id, wSome2 (by decide +kernel) (by decide +kernel)⟩,
  ⟨0, 0, tile 0x800000002000006 (fun t => { t with mover0 := [flying 0x800000002000006] }) id id, wSome3 (by decide +kernel)
    ⟨by decide +kernel, wSomeL (by decide +kernel) (trivial)⟩⟩,
  ⟨0, 0, tile 0x800000000000006 (fun t => { t with mover0 := [flying 0x800000000000006] }) id id, wSome3 (by decide +kernel)
    ⟨by decide +kernel, wSomeL (by decide +kernel) (by decide +kernel)⟩⟩,
  ⟨0, .loader, tile 1 (fun t => { t with loader := [flying 1] }) id id, by decide +kernel, wSome (by decide +kernel) (wSome
    (by decide +kernel) (wSome (by decide +kernel) (trivial)))⟩⟩

theorem witness_ControlCommandsComplete :
    (∃ (n : Nat) (w : BitVec 128) (s : State), (waitDec w = false ∧ waitLdcnt w = false) ∧ ∃ (pc : Nat) (t : Task), issueNext s.dev n 8 w = some
    (pc, t) ∧ t.suppressed = false ∧ interlocked s.dev t w = false ∧ waitThr w ≤ counterOf s.dev t w) ∧
    (∃ (n : Nat) (w : BitVec 128) (s : State), ∃ (pc : Nat) (t : Task), issueNext s.dev n 8 w = some (pc, t) ∧ t.suppressed = false ∧
    interlocked s.dev t w = false ∧ counterOf s.dev t w < waitThr w) ∧
    (∃ (n : Nat) (w : BitVec 128) (s : State), ∃ (pc : Nat) (t : Task), issuer s.dev n = some (pc, t) ∧ t.suppressed = false ∧ t.holding = some
    w ∧ waitThr w ≤ counterOf s.dev t w) ∧
    (∃ (n : Nat) (w : BitVec 128) (s : State), ∃ (pc : Nat) (t : Task), issueNext s.dev n 9 w = some (pc, t) ∧ t.suppressed = false ∧ t.idle =
    true) ∧
    (∃ (n : Nat) (w : BitVec 128) (s : State), digFlush w = false ∧ ∃ (pc : Nat) (t : Task), issueNext s.dev n 0x10 w = some (pc, t) ∧
    t.suppressed = false) ∧
    (∃ (n : Nat) (w : BitVec 128) (s : State), digFlush w = true ∧ ∃ (pc : Nat) (t : Task), issueNext s.dev n 0x10 w = some (pc, t) ∧
    t.suppressed = false) :=
  ⟨⟨0, 0x8, tile 0x8 id id id, by decide +kernel, wSome2 (by decide +kernel) (by decide +kernel)⟩,
  ⟨0, 0x100000008, tile 0x100000008 id id id, wSome2 (by decide +kernel) (by decide +kernel)⟩,
  ⟨0, 0x100000008, tile 0x100000008 (fun t => { t with holding := some 0x100000008, sb := [(0, 1)] }) id id, wSome2 (by decide +kernel)
    (by decide +kernel)⟩,
  ⟨0, 0x9, tile 0x9 id id id, wSome2 (by decide +kernel) (by decide +kernel)⟩,
  ⟨0, 0x10, tile 0x10 id id id, by decide +kernel, wSome2 (by decide +kernel) (by decide +kernel)⟩,
  ⟨0, 0x10010, tile 0x10010 id id id, by decide +kernel, wSome2 (by decide +kernel) (by decide +kernel)⟩⟩

theorem witness_EngineCommandsComplete :
    (∃ (n : Nat) (w : BitVec 128) (s : State), s.dev.gate.queue.length < 64 ∧ ∃ (pc : Nat) (t : Task), issueTo s.dev n 0xC w .port = some (pc,
    t) ∧ t.suppressed = false ∧ (tget s.dev.gate.descs (256 * t.part + gpSlot w)).isSome) ∧
    (∃ (n : Nat) (w : BitVec 128) (s : State), xchgKind w = 0 ∧ ∃ (pc : Nat) (t : Task), issueTo s.dev n 0xD w .port = some (pc, t) ∧
    t.suppressed = false ∧ engCheck s.dev pc n t w 8 8 = none ∧ xchgAdmits s.dev n t.part w = true ∧ portTurn s.dev 0xD (xchgAdmits s.dev)
    s.dev.slc.lastPart s.dev.slc.used = some t.part ∧ firstCome s.dev 0xD (xchgAdmits s.dev) s.dev.slc.held n t.part = true) ∧
    (∃ (n : Nat) (w : BitVec 128) (s : State), xchgKind w = 1 ∧ ∃ (pc : Nat) (t : Task), issueTo s.dev n 0xD w .port = some (pc, t) ∧
    t.suppressed = false ∧ engCheck s.dev pc n t w 8 8 = none ∧ xchgAdmits s.dev n t.part w = true ∧ portTurn s.dev 0xD (xchgAdmits s.dev)
    s.dev.slc.lastPart s.dev.slc.used = some t.part ∧ firstCome s.dev 0xD (xchgAdmits s.dev) s.dev.slc.held n t.part = true) ∧
    (∃ (n : Nat) (w : BitVec 128) (s : State), ∃ (pc : Nat) (t : Task), issueTo s.dev n 0xE w .port = some (pc, t) ∧ t.suppressed = false ∧
    engCheck s.dev pc n t w 0 56 = none ∧ collAdmits s.dev n t.part w = true ∧ firstCome s.dev 0xE (collAdmits s.dev) s.dev.rill.held n
    t.part = true ∧ portTurn s.dev 0xE (collAdmits s.dev) s.dev.rill.lastPart s.dev.rill.used = some t.part ∧ (collOp s.dev n t.part w) = 0) ∧
    (∃ (n : Nat) (w : BitVec 128) (s : State), ∃ (pc : Nat) (t : Task), issueTo s.dev n 0xE w .port = some (pc, t) ∧ t.suppressed = false ∧
    engCheck s.dev pc n t w 0 56 = none ∧ collAdmits s.dev n t.part w = true ∧ firstCome s.dev 0xE (collAdmits s.dev) s.dev.rill.held n
    t.part = true ∧ portTurn s.dev 0xE (collAdmits s.dev) s.dev.rill.lastPart s.dev.rill.used = some t.part ∧ (collOp s.dev n t.part w) = 1) ∧
    (∃ (n : Nat) (w : BitVec 128) (s : State), ∃ (pc : Nat) (t : Task), issueTo s.dev n 0xE w .port = some (pc, t) ∧ t.suppressed = false ∧
    engCheck s.dev pc n t w 0 56 = none ∧ collAdmits s.dev n t.part w = true ∧ firstCome s.dev 0xE (collAdmits s.dev) s.dev.rill.held n
    t.part = true ∧ portTurn s.dev 0xE (collAdmits s.dev) s.dev.rill.lastPart s.dev.rill.used = some t.part ∧ (collOp s.dev n t.part w) = 2) ∧
    (∃ (n : Nat) (w : BitVec 128) (s : State), ∃ (pc : Nat) (t : Task), issueTo s.dev n 0xE w .port = some (pc, t) ∧ t.suppressed = false ∧
    engCheck s.dev pc n t w 0 56 = none ∧ collAdmits s.dev n t.part w = true ∧ firstCome s.dev 0xE (collAdmits s.dev) s.dev.rill.held n
    t.part = true ∧ portTurn s.dev 0xE (collAdmits s.dev) s.dev.rill.lastPart s.dev.rill.used = some t.part ∧ (collOp s.dev n t.part w) = 3) ∧
    (∃ (n : Nat) (w : BitVec 128) (s : State), ∃ (pc : Nat) (t : Task), issueTo s.dev n 0xE w .port = some (pc, t) ∧ t.suppressed = false ∧
    engCheck s.dev pc n t w 0 56 = none ∧ collAdmits s.dev n t.part w = true ∧ firstCome s.dev 0xE (collAdmits s.dev) s.dev.rill.held n
    t.part = true ∧ portTurn s.dev 0xE (collAdmits s.dev) s.dev.rill.lastPart s.dev.rill.used = some t.part ∧ (collOp s.dev n t.part w) = 4) ∧
    (∃ (n : Nat) (w : BitVec 128) (s : State), ∃ (pc : Nat) (t : Task), issueTo s.dev n 0xE w .port = some (pc, t) ∧ t.suppressed = false ∧
    engCheck s.dev pc n t w 0 56 = none ∧ collAdmits s.dev n t.part w = true ∧ firstCome s.dev 0xE (collAdmits s.dev) s.dev.rill.held n
    t.part = true ∧ portTurn s.dev 0xE (collAdmits s.dev) s.dev.rill.lastPart s.dev.rill.used = some t.part ∧ (collOp s.dev n t.part w) = 5) ∧
    (∃ (n : Nat) (w : BitVec 128) (s : State), ∃ (pc : Nat) (t : Task), issueNext s.dev n 0x3F w = some (pc, t) ∧ t.suppressed = false ∧ t.idle
    = true ∧ willSignal s.dev t.part n = false ∧ ((retireTask s.dev pc sOk).part t.part).holding = false) :=
  ⟨⟨0, 0xc, tile 0xc id id (fun d => { d with gate := { d.gate with descs := [(0, 0)] } }), by decide +kernel, wSome2 (by decide +kernel)
    (by decide +kernel)⟩,
  ⟨0, 0xd, tile 0xd id id id, by decide +kernel, wSome2 (by decide +kernel) (by decide +kernel)⟩,
  ⟨0, 0x1000d, tile 0x1000d id id id, by decide +kernel, wSome2 (by decide +kernel) (by decide +kernel)⟩,
  ⟨0, 0xe, tile 0xe id (fun c => { c with sram := [] }) id, wSome2 (by decide +kernel) (by decide +kernel)⟩,
  ⟨0, 0xe, tile 0xe id (fun c => { c with sram := [(0, 1)] }) id, wSome2 (by decide +kernel) (by decide +kernel)⟩,
  ⟨0, 0xe, tile 0xe id (fun c => { c with sram := [(0, 2)] }) id, wSome2 (by decide +kernel) (by decide +kernel)⟩,
  ⟨0, 0xe, tile 0xe id (fun c => { c with sram := [(0, 3)] }) id, wSome2 (by decide +kernel) (by decide +kernel)⟩,
  ⟨0, 0xe, tile 0xe id (fun c => { c with sram := [(0, 4)] }) id, wSome2 (by decide +kernel) (by decide +kernel)⟩,
  ⟨0, 0xe, tile 0xe id (fun c => { c with sram := [(0, 5)] }) id, wSome2 (by decide +kernel) (by decide +kernel)⟩,
  ⟨0, 0x3f, tile 0x3f id id id, wSome2 (by decide +kernel) (by decide +kernel)⟩⟩

theorem witness_StepBarrierCompletes :
    (∃ (n : Nat) (w : BitVec 128) (s : State), 1 < stepParts w ∧ ∃ (pc : Nat) (t : Task), issueNext s.dev n 0x11 w = some (pc, t) ∧ t.idle =
    true ∧ t.suppressed = false ∧ (s.dev.part t.part).barrier = none) ∧
    (∃ (n : Nat) (w : BitVec 128) (s : State), ∃ (pc : Nat) (t : Task), issueNext s.dev n 0x11 w = some (pc, t) ∧ (t.idle = true ∧ t.suppressed
    = false) ∧ ∃ (b : Barrier), (s.dev.part t.part).barrier = some b ∧ b.participants = stepParts w ∧ b.job = stepJob w) ∧
    (∃ (p : Nat) (s : State), mayRelease (s.dev.part p) = true ∧ ∃ (b : Barrier), (s.dev.part p).barrier = some b ∧ (releaseSays (s.dev.part p)
    b (·.2.2) && snEn (s.dev.part p)) = false) ∧
    (∃ (p : Nat) (s : State), (mayRelease (s.dev.part p) = true ∧ (s.dev.part p).snapHeld = none ∧ (s.dev.part p).copying = none ∧ copiesOut
    (beginSnapshot s.dev p) p [0, 1] = true) ∧ ∃ (b : Barrier), (s.dev.part p).barrier = some b ∧ (releaseSays (s.dev.part p) b (·.2.2) &&
    snEn (s.dev.part p)) = true) ∧
    (∃ (p : Nat) (s : State) (good : _), (mayRelease (s.dev.part p) = true ∧ (s.dev.part p).snapHeld = none ∧ (s.dev.part p).copying = some good
    ∧ copiesOut s.dev p [0, 1] = false) ∧ ∃ (b : Barrier), (s.dev.part p).barrier = some b ∧ (releaseSays (s.dev.part p) b (·.2.2) && snEn
    (s.dev.part p)) = true) :=
  ⟨⟨0, 0x20011, tile 0x20011 id id id, by decide +kernel, wSome2 (by decide +kernel) (by decide +kernel)⟩,
  ⟨0, 0x20011, tile 0x20011 id id (fun d => d.modPart 0 fun x => { x with barrier := some ⟨2, false, [3], false, none, false⟩ }), wSome2
    (by decide +kernel) ⟨by decide +kernel, wSome (by decide +kernel) (by decide +kernel)⟩⟩,
  ⟨0, tile 0x20011 id id (fun d => d.modPart 0 fun x => { x with barrier := some ⟨1, false, [0], false, none, false⟩ }), by decide +kernel,
    wSome (by decide +kernel) (by decide +kernel)⟩,
  ⟨0, line fun d =>
    { (d.modPart 0 fun x => { x with snap := 0x1000000000001, job := 1, barrier := some ⟨1, true, [0], true, some (true, false, true), true⟩ }) with mem := { d.mem with dram := [(0x200001, 0x10), (0x200009, 1), (0x200011, 0x20), (0x200019, 0x30)] } },
    by decide +kernel, wSome (by decide +kernel) (by decide +kernel)⟩,
  ⟨0, line fun d => d.modPart 0 fun x =>
    { x with snap := 0x1000000000001, job := 1, barrier := some ⟨1, true, [0], true, some (true, false, true), true⟩, copying := some true },
    true, by decide +kernel, wSome (by decide +kernel) (by decide +kernel)⟩⟩

theorem witness_JobBarrierCompletes :
    (∃ (port : Nat) (c : Cell) (s : State), fld (payBits c) 1 0 = 0 ∧ ∃ (d : Dev), Delivered s.dev port c [tyBarrier] d ∧ ((jobMembers d
    c.part.toNat).contains c.src = true ∧ forRoot d c.part.toNat c.src = false) ∧ ∃ (g : Gather), (d.part c.part.toNat).gather = some g ∧
    g.step = BitVec.ofNat 64 (fld (payBits c) 127 64)) ∧
    (∃ (port : Nat) (c : Cell) (s : State), fld (payBits c) 1 0 = 1 ∧ ∃ (d : Dev), Delivered s.dev port c [tyBarrier] d ∧ (d.part
    c.part.toNat).step = BitVec.ofNat 64 (fld (payBits c) 127 64) ∧ ∃ (b : Barrier), (d.part c.part.toNat).barrier = some b ∧ b.release =
    none) ∧
    (∃ (p : Nat) (s : State), ∃ (b : Barrier), (s.dev.part p).barrier = some b ∧ b.released = false ∧ ∃ (r : Bool × Bool × Bool), b.release =
    some r ∧ True) :=
  ⟨⟨0, arriving tyBarrier 0 0 (.bits 0x0), managing (fun d => d.modPart 0 fun x => { x with gather := some ⟨0, [], false, false⟩ }) id,
    by decide +kernel, wDelivered (by decide +kernel) ⟨by decide +kernel, wSome (by decide +kernel) (by decide +kernel)⟩⟩,
  ⟨0, arriving tyBarrier 0 0 (.bits 0x1), line (fun d => d.modPart 0 fun x => { x with barrier := some ⟨1, true, [0], true, none, false⟩ }),
    by decide +kernel, wDelivered (by decide +kernel) ⟨by decide +kernel, wSome (by decide +kernel) (by decide +kernel)⟩⟩,
  ⟨0, line (fun d => d.modPart 0 fun x => { x with barrier := some ⟨1, true, [0], true, some (true, false, false), false⟩ }), wSome
    (by decide +kernel) ⟨by decide +kernel, wSome (by decide +kernel) (trivial)⟩⟩⟩

theorem witness_SequencerVoteCommitSnapshotComplete :
    (∃ (p : Nat) (s : State), (s.dev.part p).valid = true ∧ grdEn (s.dev.part p) = true ∧ (s.dev.part p).vote = none ∧ allFinal s.dev p = true) ∧
    (∃ (p : Nat) (s : State), grdEn (s.dev.part p) = true ∧ (s.dev.part p).committed = false ∧ (s.dev.part p).grdFailed = false ∧ mayCommit
    (s.dev.part p) = true ∧ (s.dev.part p).promoting = none ∧ (reductionStep (s.dev.part p) && (s.dev.part p).buckets.any (·.launched)) =
    false ∧ copiesOut s.dev p [2] = false) ∧
    (∃ (p : Nat) (s : State), grdEn (s.dev.part p) = true ∧ (s.dev.part p).committed = false ∧ (s.dev.part p).grdFailed = false ∧ mayCommit
    (s.dev.part p) = true ∧ (s.dev.part p).promoting = none ∧ (reductionStep (s.dev.part p) && (s.dev.part p).buckets.any (·.launched)) =
    true ∧ copiesOut ((List.range (grdCount (s.dev.part p))).foldl (promoteEntry p) (true, s.dev)).2 p [2] = true) ∧
    (∃ (p : Nat) (s : State), grdEn (s.dev.part p) = true ∧ (s.dev.part p).committed = false ∧ (s.dev.part p).grdFailed = false ∧ mayCommit
    (s.dev.part p) = true ∧ (s.dev.part p).promoting = none ∧ (reductionStep (s.dev.part p) && (s.dev.part p).buckets.any (·.launched)) =
    true ∧ copiesOut ((List.range (grdCount (s.dev.part p))).foldl (promoteEntry p) (true, s.dev)).2 p [2] = false ∧ ((List.range (grdCount
    (s.dev.part p))).foldl (promoteEntry p) (true, s.dev)).1 = true) ∧
    (∃ (p : Nat) (s : State) (good : _), grdEn (s.dev.part p) = true ∧ (s.dev.part p).committed = false ∧ (s.dev.part p).grdFailed = false ∧
    mayCommit (s.dev.part p) = true ∧ (s.dev.part p).promoting = some good ∧ copiesOut s.dev p [2] = false ∧ good = true) ∧
    (∃ (p : Nat) (s : State) (good : _), grdEn (s.dev.part p) = true ∧ (s.dev.part p).committed = false ∧ (s.dev.part p).grdFailed = false ∧
    mayCommit (s.dev.part p) = true ∧ (s.dev.part p).promoting = some good ∧ copiesOut s.dev p [2] = false ∧ good = false) ∧
    (∃ (p : Nat) (s : State), ∃ (t : Desc) (rest : List Desc), (chanOf s.dev (snapChan p)).fetched = t :: rest ∧ (bdOp t.w = 6 ∧ t.done = true ∧
    t.status = 0) ∧ ∃ (h : SnapHead), (s.dev.part p).snapHeld = some h ∧ True) ∧
    (∃ (p : Nat) (d : Dev), jobValid (d.part p) = true ∧ jobMan (d.part p) ≠ jobDep (d.part p)) ∧
    (∃ (p : Nat) (d : Dev), jobValid (d.part p) = false) :=
  ⟨⟨0, dv fun d => d.modPart 0 fun _ => { part0 1 [] with grdCfg := 1 }, by decide +kernel⟩,
  ⟨0, dv fun d => d.modPart 0 fun _ =>
    { part0 1 [] with grdCfg := 1, barrier := some ⟨1, false, [0], false, none, false⟩, vote := some true }, by decide +kernel⟩,
  ⟨0, dv fun d =>
    { (d.modPart 0 fun _ => { part0 1 [] with grdCfg := 0x101, grdBtab := 0x0001000000000000, buckets := [{ bucket0 with launched := true }], barrier := some ⟨1, false, [0], false, none, false⟩, vote := some true }) with mem := { d.mem with dram := [(0x200001, 2), (0x200015, 1), (0x200039, 0x10), (0x200041, 0x20)] } },
    by decide +kernel⟩,
  ⟨0, dv fun d =>
    { (d.modPart 0 fun _ => { part0 1 [] with grdCfg := 0x101, grdBtab := 0x0001000000000000, buckets := [{ bucket0 with launched := true }], barrier := some ⟨1, false, [0], false, none, false⟩, vote := some true }) with mem := { d.mem with dram := [(0x200001, 2)] } },
    by decide +kernel⟩,
  ⟨0, dv fun d => d.modPart 0 fun _ =>
    { part0 1 [] with grdCfg := 1, promoting := some true, barrier := some ⟨1, false, [0], false, none, false⟩, vote := some true }, true,
    by decide +kernel⟩,
  ⟨0, dv fun d => d.modPart 0 fun _ =>
    { part0 1 [] with grdCfg := 1, promoting := some false, barrier := some ⟨1, false, [0], false, none, false⟩, vote := some true }, false,
    by decide +kernel⟩,
  ⟨0, dv fun d =>
    { (d.modPart 0 fun _ => { part0 1 [] with snapHeld := some ⟨1, 0, [], []⟩ }) with dma := { d.dma with chans := [(7, { fetched := [{ desc0 6 with done := true }] })] } },
    wCons (by decide +kernel) ⟨by decide +kernel, wSome (by decide +kernel) (trivial)⟩⟩,
  ⟨0, (line fun d => d.modPart 0 fun x => { x with job := 0x300020000000000000001 }).dev, by decide +kernel⟩,
  ⟨0, (line id).dev, by decide +kernel⟩⟩

theorem witness_BucketCommandsComplete :
    (∃ (p : Nat) (i : Nat) (s : State), (s.dev.part p).valid = true ∧ grdEn (s.dev.part p) = true ∧ i < grdCount (s.dev.part p) ∧ bucketOf s.dev
    p i = none ∧ entryReadable s.dev p i = true ∧ reductionStep (s.dev.part p) = true ∧ beActive (readEntry (touched s.dev p (entryAddr
    s.dev p i) 128) p i) = true ∧ beTarget (readEntry (touched s.dev p (entryAddr s.dev p i) 128) p i) ≤ (semOf (touched s.dev p (entryAddr
    s.dev p i) 128) p (beFillSem (readEntry (touched s.dev p (entryAddr s.dev p i) 128) p i))).toNat) ∧
    (∃ (p : Nat) (i : Nat) (s : State), ∃ (b : Bucket), bucketOf s.dev p i = some b ∧ b.phase = .converting ∧ accPoison s.dev p b.entry
    (bucketMembers s.dev p b.entry) = none) ∧
    (∃ (p : Nat) (i : Nat) (s : State), ∃ (b : Bucket), bucketOf s.dev p i = some b ∧ (b.phase = .verifying ∧ b.predicted = false ∧ (poisonAt
    s.dev p false (beShard b.entry) (beLen b.entry)) = none) ∧ ∃ (d : Dev), (List.range (beLen b.entry / 256)).foldl (verifyBlock p i b)
    (true, touched (noteDenied s.dev p (beShard b.entry) (beLen b.entry)) p (beShard b.entry) (beLen b.entry)) = (true, d) ∧ True) ∧
    (∃ (p : Nat) (i : Nat) (s : State), ∃ (b : Bucket), bucketOf s.dev p i = some b ∧ b.sumEnd = some 0 ∧ b.phase = .prepass ∧ poisonAt
    (modBucket s.dev p i fun y => { y with sumEnd := none }) p false (beSum b.entry) 8 = none) :=
  ⟨⟨0, 0, dv fun d =>
    { (d.modPart 0 fun _ => { part0 1 [] with grdCfg := 0x101, grdBtab := 0x0001000000000000 }) with mem := { d.mem with dram := [(0x200001, 2)] } },
    by decide +kernel⟩,
  ⟨0, 0, dv fun d => d.modPart 0 fun _ => { part0 1 [] with buckets := [{ bucket0 with phase := .converting }] }, wSome (by decide +kernel)
    (by decide +kernel)⟩,
  ⟨0, 0, dv fun d => d.modPart 0 fun _ => { part0 1 [] with buckets := [{ bucket0 with phase := .verifying }] }, wSome (by decide +kernel)
    ⟨by decide +kernel, wTrueL (by decide +kernel) (trivial)⟩⟩,
  ⟨0, 0, dv fun d => d.modPart 0 fun _ => { part0 1 [] with buckets := [{ bucket0 with sumEnd := some 0 }] }, wSome (by decide +kernel)
    (by decide +kernel)⟩⟩

theorem witness_GateCommandsComplete :
    (∃ (s : State), ∃ (p : Nat), nextPart s.dev (fun p => (s.dev.gate.queue.any fun u => u.part == p) && weirOk s.dev p 0) s.dev.gate.lastPart
    s.dev.gate.used = some p ∧ ∃ (u : Push), (s.dev.gate.queue.find? fun u => u.part == p) = some u ∧ True) ∧
    (∃ (s : State) (serve : Bool), ∃ (g : GStep), (s.dev.gate.steps.find? fun g => !g.granted && g.serve == serve) = some g ∧ stepFits s.dev g =
    true) ∧
    (∃ (s : State) (p : Nat) (slot : Nat), ∃ (g : GStep), (s.dev.gate.steps.find? fun g => g.part == p && g.slot == slot && g.written &&
    g.closed) = some g ∧ True) :=
  ⟨⟨line fun d => { d with gate := { d.gate with queue := [⟨0, 0, 1, 0, 0⟩] } }, wSome (by decide +kernel) (wSome (by decide +kernel)
    (trivial))⟩,
  ⟨line fun d => { d with gate := { d.gate with steps := [gstep0] } }, false, wSome (by decide +kernel) (by decide +kernel)⟩,
  ⟨line fun d => { d with gate := { d.gate with steps := [gstep0] } }, 0, 0, wSome (by decide +kernel) (trivial)⟩⟩

theorem witness_ReceivedExchangeCellsComplete :
    (∃ (port : Nat) (c : Cell) (s : State) (r : _) (i : _), i.count = none ∧ ∃ (d : Dev), Delivered s.dev port c [tyCount] d ∧ (slcDupOf d c =
    none ∧ findIn d c = none ∧ bitmapRoom d c = true) ∧ ∃ (x : Exch), openX d c.part.toNat (BitVec.ofNat 32 (fld (payBits c) 31 0)) = some x
    ∧ x.combine = c.combine ∧ x.status = 0 ∧ x.peers.findIdx? (fun q => q.1 == c.src) = some r ∧ (x.ins.find? fun i => i.src == r && !i.own)
    = some i) ∧
    (∃ (port : Nat) (c : Cell) (s : State), ∃ (d : Dev), Delivered s.dev port c [tyDir] d ∧ ∃ (x : Exch) (i : _), findIn d c = some (x, i) ∧
    True) ∧
    (∃ (port : Nat) (c : Cell) (s : State), ∃ (d : Dev), Served awaitsTokens s.dev port c [tyData] d ∧ ∃ (x : Exch) (i : _), findIn d c = some
    (x, i) ∧ True) ∧
    (∃ (c : Cell) (s : State), c.ty.toNat = tyData ∧ awaitsTokens s.dev c = true) ∧
    (∃ (port : Nat) (c : Cell) (s : State), fld (payBits c) 39 32 = sAborted ∧ ∃ (d : Dev), Delivered s.dev port c [tyAbort] d ∧ ∃ (x : Exch),
    openX d c.part.toNat (BitVec.ofNat 32 (fld (payBits c) 31 0)) = some x ∧ x.combine = c.combine ∧ ∃ (r : _), x.peers.findIdx? (fun q =>
    q.1 == c.src) = some r ∧ True) :=
  ⟨⟨0, arriving tyCount 0 9 (.bits 5), exchanging fun x => { x with ins := [{ in0 with tag := none, count := none }] }, 0,
    { in0 with tag := none, count := none }, by decide +kernel, wDelivered (by decide +kernel) ⟨by decide +kernel, wSome (by decide +kernel)
    (by decide +kernel)⟩⟩,
  ⟨0, arriving tyDir 1 9 (.bits 0), exchanging fun x => { x with ins := [in0] }, wDelivered (by decide +kernel) (wSome2 (by decide +kernel)
    (trivial))⟩,
  ⟨0, arriving tyData 1 9 (.bits 0), exchanging fun x => { x with ins := [in0] }, wServed (by decide +kernel) (by decide +kernel) (wSome2
    (by decide +kernel) (trivial))⟩,
  ⟨arriving tyData 1 9 (.bits 0), (fun s : State => s.putDev (s.dev.modPart 0 fun x => { x with weirRate := 1, weirLevel := [(0, 0)] }))
    (exchanging fun x => { x with ins := [in0] }), by decide +kernel⟩,
  ⟨0, arriving tyAbort 0 9 (.bits 0x0600000005), exchanging fun x => { x with ins := [in0] }, by decide +kernel, wDelivered
    (by decide +kernel) (wSome (by decide +kernel) ⟨by decide +kernel, wSome (by decide +kernel) (trivial)⟩)⟩⟩

theorem witness_AnsweredExchangeCellsComplete :
    (∃ (port : Nat) (c : Cell) (s : State), bit (payBits c) 0 = false ∧ ∃ (d : Dev), Delivered s.dev port c [tyCountAck] d ∧ ∃ (x : Exch) (o :
    OutXfer), findOut d c = some (x, o) ∧ x.status = 0) ∧
    (∃ (port : Nat) (c : Cell) (s : State), ∃ (d : Dev), Delivered s.dev port c [tyReady] d ∧ ∃ (x : Exch) (o : OutXfer), findOut d c = some (x,
    o) ∧ x.status = 0 ∧ o.ready = false ∧ (x.combine = true ∨ xdGlobal x.desc = false)) ∧
    (∃ (port : Nat) (c : Cell) (s : State), ∃ (d : Dev), Delivered s.dev port c [tyGrant] d ∧ ∃ (x : Exch) (o : OutXfer), findOut d c = some (x,
    o) ∧ x.status = 0 ∧ o.ready = false ∧ o.early = false ∧ x.combine = false ∧ xdGlobal x.desc = true ∧ ((List.range (divUp o.runs.length
    32)).all fun k => (tget (tput o.grants c.off.toNat (payBits c)) k).isSome) = true) ∧
    (∃ (port : Nat) (c : Cell) (s : State), bit (payBits c) 32 = false ∧ ∃ (d : Dev), Delivered s.dev port c [tySlcAck] d ∧ ∃ (x : Exch) (o :
    OutXfer), findOut d c = some (x, o) ∧ x.status = 0 ∧ awaitsGrants x o = false) :=
  ⟨⟨0, arriving tyCountAck 0 9 (.bits 0), exchanging fun x => { x with outs := [out0] }, by decide +kernel, wDelivered (by decide +kernel)
    (wSome2 (by decide +kernel) (by decide +kernel))⟩,
  ⟨0, arriving tyReady 0 9 (.bits 0), exchanging fun x => { x with outs := [out0] }, wDelivered (by decide +kernel) (wSome2
    (by decide +kernel) (by decide +kernel))⟩,
  ⟨0, arriving tyGrant 0 9 (.bits 0), exchanging fun x => { x with outs := [{ out0 with runs := [(0, 0, [0])] }], desc := 4 }, wDelivered
    (by decide +kernel) (wSome2 (by decide +kernel) (by decide +kernel))⟩,
  ⟨0, arriving tySlcAck 0 9 (.bits 0), exchanging fun x => { x with outs := [out0] }, by decide +kernel, wDelivered (by decide +kernel)
    (wSome2 (by decide +kernel) (by decide +kernel))⟩⟩

theorem witness_ExchangeStagesComplete :
    (∃ (p : Nat) (exch : U32) (s : State), ∃ (x : Exch), (s.dev.slc.exch.find? fun x => x.part == p && x.id == exch && x.phase == .waitTags) =
    some x ∧ True) ∧
    (∃ (p : Nat) (exch : U32) (s : State), ∃ (x : Exch), openX s.dev p exch = some x ∧ canFix x = true) ∧
    (∃ (p : Nat) (exch : U32) (s : State) (l : _), ∃ (x : Exch), openX s.dev p exch = some x ∧ (x.rowsFixed = true ∧ x.status = 0 ∧ l < xdNl
    x.desc ∧ rxAlloc (x.rxt.getD l 0) = true ∧ tgetD x.expected l 0 ≠ 0 ∧ tget x.rxBuf l = none) ∧ ∃ (is : _) (d : _), request s.dev (xdPool
    x.desc) p 1 (.alloc exch l) = (some is, d) ∧ True) ∧
    (∃ (p : Nat) (exch : U32) (s : State) (i : InXfer), i.complete = false ∧ ∃ (x : Exch), openX s.dev p exch = some x ∧ x.status = 0 ∧
    (x.ins.find? fun y => y.src == i.src) = some i ∧ xferDone x i = true ∧ (x.combine = false → (x.ins.all fun y => y.src == i.src ||
    y.complete) = true → xdNl x.desc ≤ x.finals.length)) ∧
    (∃ (p : Nat) (exch : U32) (s : State), ∃ (x : Exch), (s.dev.slc.exch.find? fun x => x.part == p && x.id == exch && exchDone x) = some x ∧
    x.wrote = false ∧ x.signal = true) ∧
    (∃ (p : Nat) (exch : U32) (s : State) (i : InXfer), i.retsHeld = false ∧ ∃ (x : Exch), openX s.dev p exch = some x ∧ (x.combine = true ∧
    x.status = 0 ∧ (x.ins.find? fun y => y.src == i.src) = some i) ∧ ∃ (is : _) (d : _), request s.dev (xdPool x.desc) p (divUp (tgetD
    x.homeRecs i.src []).length (retPer s.dev x.desc)) (.returns exch i.src) = (some is, d) ∧ True) :=
  ⟨⟨0, 5, exchanging fun x => { x with phase := .waitTags }, wSome (by decide +kernel) (trivial)⟩,
  ⟨0, 5, exchanging fun x => { x with ins := [in0] }, wSome (by decide +kernel) (by decide +kernel)⟩,
  ⟨0, 5, exchanging fun x =>
    { x with rowsFixed := true, desc := 0x1000000000000000000000000000000000000000000000000000000000000000000000000000000000000000000000000000000000000, rxt := [0x20000000000000000000000000000000], expected := [(0, 1)] },
    0, wSome (by decide +kernel) ⟨by decide +kernel, wSomeL (by decide +kernel) (trivial)⟩⟩,
  ⟨0, 5, exchanging fun x => { x with ins := [in0] }, in0, by decide +kernel, wSome (by decide +kernel) (by decide +kernel)⟩,
  ⟨0, 5, exchanging fun x => { x with tokens := 0 }, wSome (by decide +kernel) (by decide +kernel)⟩,
  ⟨0, 5, exchanging fun x => { x with combine := true, ins := [in0], homeRecs := [(0, [0])], desc := 0x1000000000000000000000000 }, in0,
    by decide +kernel, wSome (by decide +kernel) ⟨by decide +kernel, wSomeL (by decide +kernel) (trivial)⟩⟩⟩

theorem witness_HomeSumCompletes :
    
    ∃ (p : Nat) (exch : U32) (t : Nat) (s : State), weirOk s.dev p 0 = true ∧ ∃ (x : Exch), openX s.dev p exch = some x ∧ (x.combine = true ∧
    x.status = 0 ∧ t < x.tokens ∧ x.summed.contains t = false ∧ regionFault (opQuota s.dev p (.exch x.uid)) p (xdRec x.desc + 16 * t * xdK
    x.desc) (16 * xdK x.desc) = none) ∧ ∃ (recs : _), recs = (List.range (xdK x.desc)).map (fun r => (t * xdK x.desc + r, readWord s.dev p
    false 128 (xdRec x.desc + 16 * t * xdK x.desc + 16 * r))) ∧ ∃ (skip : _), skip = rcSkip ((recs.head?.map (·.2)).getD 0) ∧ ∃ (used : _),
    used = (if skip then [] else recs.filter fun r => rcSends r.2) ∧ (used.any fun r => (returnRow x r.1).isNone) = false ∧ ∃ (wantShared :
    _), wantShared = (xdShared x.desc && !skip) ∧ ∃ (out : _), out = xdData x.desc + t * xdStride x.desc ∧ ∃ (n : _), n = rowElems (xdOfmt
    x.desc) (xdWidth x.desc) ∧ (wantShared = true → regionFault (opQuota s.dev p (.exch x.uid)) p out n = none) ∧ okFor s.dev p (.exch
    x.uid) false out n = true :=
  ⟨0, 5, 0, line fun d =>
    { pooled d with slc := { d.slc with exch := [{ exch0 with combine := true, tokens := 1, desc := 0x1000000000000000000800000 }] }, mem := { d.mem with dram := [(0x200003, 1)] } },
    by decide +kernel, wSome (by decide +kernel) ⟨by decide +kernel, wEq (wEq (wEq ⟨by decide +kernel, wEq (wEq (wEq
    (by decide +kernel)))⟩))⟩⟩

theorem witness_SluiceTimersComplete :
    (∃ (p : Nat) (exch : U32) (dst : Nat) (s : State), ∃ (x : Exch) (o : OutXfer), (s.dev.slc.exch.findSome? fun x => if x.part = p ∧ x.id =
    exch then (x.outs.find? fun o => o.dst == dst && o.timing && !o.ended).map fun o => (x, o) else none) = some (x, o) ∧ o.retries <
    slcRetries o.cfg) ∧
    (∃ (p : Nat) (exch : U32) (dst : Nat) (s : State), ∃ (x : Exch) (o : OutXfer), (s.dev.slc.exch.findSome? fun x => if x.part = p ∧ x.id =
    exch then (x.outs.find? fun o => o.dst == dst && o.deferred && !o.ended).map fun o => (x, o) else none) = some (x, o) ∧ True) ∧
    (∃ (dev : DevId) (p : Nat) (source : Bool) (s : State), (source = false → (s.dev.slc.store.any fun y => y.cell.src == dev &&
    y.cell.part.toNat == p) = false) ∧ ∃ (k : EarlyCredit), (s.dev.slc.credits.find? fun k => k.source == source && k.dev == dev && k.part
    == p) = some k ∧ True) ∧
    (∃ (p : Nat) (exch : U32) (dev : DevId) (s : State), ∃ (a : PendingAbort), (s.dev.slc.aborts.find? fun a => a.part == p && a.id == exch &&
    a.cell.dest == dev) = some a ∧ a.resends < slcRetries s.dev.slc.cfg) ∧
    (∃ (p : Nat) (exch : U32) (dev : DevId) (s : State), ∃ (a : PendingAbort), (s.dev.slc.aborts.find? fun a => a.part == p && a.id == exch &&
    a.cell.dest == dev) = some a ∧ slcRetries s.dev.slc.cfg ≤ a.resends ∧ a.escalated = false) :=
  ⟨⟨0, 5, 0, exchanging fun x => { x with outs := [out0] }, wSome2 (by decide +kernel) (by decide +kernel)⟩,
  ⟨0, 5, 0, exchanging fun x => { x with outs := [{ out0 with deferred := true }] }, wSome2 (by decide +kernel) (trivial)⟩,
  ⟨1, 0, false, line fun d => { d with slc := { d.slc with credits := [⟨0, 1, 0, false, 4, 0, []⟩] } }, by decide +kernel, wSome
    (by decide +kernel) (trivial)⟩,
  ⟨0, 5, 1, line fun d => { d with slc := { d.slc with aborts := [⟨0, 5, { (arriving tyAbort 0 0 (.bits 0)) with dest := 1 }, 0, false⟩] } },
    wSome (by decide +kernel) (by decide +kernel)⟩,
  ⟨0, 5, 1, line fun d => { d with slc := { d.slc with aborts := [⟨0, 5, { (arriving tyAbort 0 0 (.bits 0)) with dest := 1 }, 7, false⟩] } },
    wSome (by decide +kernel) (by decide +kernel)⟩⟩

theorem witness_LinkBringUpCompletes :
    (∃ (n : Nat) (s : State), (s.dev.port n).state = .training ∨ (s.dev.port n).state = .hello) ∧
    (∃ (n : Nat) (s : State), (s.dev.port n).state = .dark ∧ 3 ≤ (s.dev.port n).attempts) ∧
    (∃ (n : Nat) (s : State), (s.dev.port n).state = .training ∧ (s.dev.port n).lanes = 0) ∧
    (∃ (n : Nat) (s : State), (s.dev.port n).state = .hello ∧ (s.dev.port n).creditsKnown = false ∧ (s.dev.port n).hellosSeen = 0) ∧
    (∃ (n : Nat) (s : State), (s.dev.port n).state = .hello ∧ (s.dev.port n).creditsKnown = false ∧ 1 ≤ (s.dev.port n).hellosSeen) ∧
    (∃ (n : Nat) (s : State) (cls : Nat), (s.dev.port n).up = true ∧ cls ∈ classesOf s.dev n) :=
  ⟨⟨0, dv fun d => d.modPort 0 fun x => { x with state := .training }, by decide +kernel⟩,
  ⟨0, dv fun d => d.modPort 0 fun x => { x with attempts := 3 }, by decide +kernel⟩,
  ⟨0, dv fun d => d.modPort 0 fun x => { x with state := .training }, by decide +kernel⟩,
  ⟨0, dv fun d => d.modPort 0 fun x => { x with state := .hello }, by decide +kernel⟩,
  ⟨0, dv fun d => d.modPort 0 fun x => { x with state := .hello, hellosSeen := 1 }, by decide +kernel⟩,
  ⟨0, dv fun d => d.modPort 0 fun x => { x with state := .up }, 9, by decide +kernel⟩⟩

theorem witness_LinkTroubleCompletes :
    (∃ (n : Nat) (s : State), (s.dev.port n).up = true ∧ fld (s.dev.port n).cfg 15 8 < (s.dev.port n).discards) ∧
    (∃ (n : Nat) (s : State) (healthy : BitVec 4) (pair : BitVec 4), (s.dev.port n).up = true ∧ healthy &&& (s.dev.port n).lanes ≠ (s.dev.port
    n).lanes ∧ 0x11 ≤ (s.dev.port n).version.toNat ∧ lanePair healthy = some pair) ∧
    (∃ (n : Nat) (s : State) (v : U32), s.dev.pwr.rails = true ∧ n < 48 ∧ (44 ≤ n → fld v 7 2 = fld (s.dev.port n).cfg 7 2) ∧ bit (s.dev.port
    n).cfg 0 ≠ bit v 0) :=
  ⟨⟨0, dv fun d => d.modPort 0 fun x => { x with state := .up, discards := 1000 }, by decide +kernel⟩,
  ⟨0, dv fun d => d.modPort 0 fun x => { x with state := .up, lanes := 15, version := 0x11 }, 3, 3, by decide +kernel⟩,
  ⟨0, State.reset, 0x10FC, by decide +kernel⟩⟩

theorem witness_FabricCellsComplete :
    (∃ (c : Cell) (x : BitVec 512), c.pay = .bits x ∧ c.crcOk = true) ∧
    (∃ (port : Nat) (c : Cell) (s : State), ∃ (d : Dev), screen s.dev port c = .onward d ∧ True) ∧
    (∃ (port : Nat) (c : Cell) (s : State), ∃ (d : Dev), Delivered s.dev port c [tyLinkState] d ∧ devRack c.src = rackNum d ∧ c.src ≠ myId d) ∧
    (∃ (s : State), opticsOn s.dev = true) ∧
    (∃ (port : Nat) (c : Cell) (s : State) (dest : DevId) (plane : BitVec 4), c.pay = .unreach dest plane ∧ ∃ (d : Dev), Delivered s.dev port c
    [tyUnreach] d ∧ True) :=
  ⟨⟨arriving tyMgmt 0 0 (.bits 5), 5, by decide +kernel⟩,
  ⟨0, { arriving tyMgmt 0 0 (.bits 0) with dest := 2 }, line id, wOnward (by decide +kernel) (trivial)⟩,
  ⟨0, arriving tyLinkState 0 9 (.bits 0), line id, wDelivered (by decide +kernel) (by decide +kernel)⟩,
  ⟨dv fun d => { d with boot := { d.boot with stage := .ready } }, by decide +kernel⟩,
  ⟨0, arriving tyUnreach 0 9 (.unreach 70 3), line id, 70, 3, by decide +kernel, wDelivered (by decide +kernel) (trivial)⟩⟩

theorem witness_RackRequestsAtSourceComplete :
    (∃ (p : Nat) (st : Nat) (s : State), ((s.dev.part p).valid = true ∧ weirOk s.dev p 2 = true) ∧ ∃ (r : RmReq), nextOf s.dev p st = some r ∧
    r.phase = .queued ∧ rqCheck (rqQuota s.dev p st r.order) p st r.desc = none ∧ rmWeirOk s.dev p st r.desc = true ∧ rmPoisoned s.dev p st
    r = none ∧ rqOp r.desc = opFence ∧ rqTgt r.desc = false) ∧
    (∃ (p : Nat) (st : Nat) (s : State), ((s.dev.part p).valid = true ∧ weirOk s.dev p 2 = true) ∧ ∃ (r : RmReq), nextOf s.dev p st = some r ∧
    (r.phase = .queued ∧ rqCheck (rqQuota s.dev p st r.order) p st r.desc = none ∧ rmWeirOk s.dev p st r.desc = true ∧ rmPoisoned s.dev p st
    r = none ∧ rqOp r.desc = opLoad ∧ otherRack s.dev r.desc = false) ∧ ∃ (t : Nat), freeTag s.dev = some t ∧ True) ∧
    (∃ (p : Nat) (st : Nat) (s : State), ((s.dev.part p).valid = true ∧ weirOk s.dev p 2 = true) ∧ ∃ (r : RmReq), nextOf s.dev p st = some r ∧
    (r.phase = .queued ∧ rqCheck (rqQuota s.dev p st r.order) p st r.desc = none ∧ rmWeirOk s.dev p st r.desc = true ∧ rmPoisoned s.dev p st
    r = none ∧ rqOp r.desc = opStore ∧ otherRack s.dev r.desc = false) ∧ ∃ (t : Nat), freeTag s.dev = some t ∧ True) ∧
    (∃ (p : Nat) (st : Nat) (s : State), ((s.dev.part p).valid = true ∧ weirOk s.dev p 2 = true) ∧ ∃ (r : RmReq), nextOf s.dev p st = some r ∧
    (r.phase = .queued ∧ rqCheck (rqQuota s.dev p st r.order) p st r.desc = none ∧ rmWeirOk s.dev p st r.desc = true ∧ rmPoisoned s.dev p st
    r = none ∧ rqOp r.desc = opFlagged ∧ rqGlobal r.desc = false) ∧ ∃ (t : Nat), freeTag s.dev = some t ∧ True) ∧
    (∃ (p : Nat) (st : Nat) (s : State), ((s.dev.part p).valid = true ∧ weirOk s.dev p 2 = true) ∧ ∃ (r : RmReq), nextOf s.dev p st = some r ∧
    (r.phase = .queued ∧ rqCheck (rqQuota s.dev p st r.order) p st r.desc = none ∧ rmWeirOk s.dev p st r.desc = true ∧ rmPoisoned s.dev p st
    r = none ∧ rqOp r.desc = opAtomic) ∧ ∃ (t : Nat), freeTag s.dev = some t ∧ True) ∧
    (∃ (p : Nat) (st : Nat) (s : State), ((s.dev.part p).valid = true ∧ weirOk s.dev p 2 = true) ∧ ∃ (r : RmReq), nextOf s.dev p st = some r ∧
    (r.phase = .queued ∧ rqCheck (rqQuota s.dev p st r.order) p st r.desc = none ∧ rmWeirOk s.dev p st r.desc = true ∧ rmPoisoned s.dev p st
    r = none ∧ rqOp r.desc = opReduce) ∧ ∃ (t : Nat), freeTag s.dev = some t ∧ True) ∧
    (∃ (p : Nat) (st : Nat) (s : State), ((s.dev.part p).valid = true ∧ weirOk s.dev p 2 = true) ∧ ∃ (r : RmReq), nextOf s.dev p st = some r ∧
    (r.phase = .queued ∧ rqCheck (rqQuota s.dev p st r.order) p st r.desc = none ∧ rmWeirOk s.dev p st r.desc = true ∧ rmPoisoned s.dev p st
    r = none ∧ rqOp r.desc = opMcast) ∧ ∃ (t : Nat), freeTag s.dev = some t ∧ True) ∧
    (∃ (p : Nat) (st : Nat) (s : State), ((s.dev.part p).valid = true ∧ weirOk s.dev p 2 = true) ∧ ∃ (r : RmReq), nextOf s.dev p st = some r ∧
    (r.phase = .queued ∧ rqCheck (rqQuota s.dev p st r.order) p st r.desc = none ∧ rmWeirOk s.dev p st r.desc = true ∧ rmPoisoned s.dev p st
    r = none ∧ rqOp r.desc = opFence ∧ rqTgt r.desc = true) ∧ ∃ (t : Nat), freeTag s.dev = some t ∧ True) :=
  ⟨⟨0, 0, requesting 0x7 id id, by decide +kernel, wSome (by decide +kernel) (by decide +kernel)⟩,
  ⟨0, 0, requesting 0x10000000000000000000800000001 id id, by decide +kernel, wSome (by decide +kernel) ⟨by decide +kernel, wSome
    (by decide +kernel) (trivial)⟩⟩,
  ⟨0, 0, requesting 0x10000000000000000000800000002 id id, by decide +kernel, wSome (by decide +kernel) ⟨by decide +kernel, wSome
    (by decide +kernel) (trivial)⟩⟩,
  ⟨0, 0, requesting 0x10000000000000000000800000003 id id, by decide +kernel, wSome (by decide +kernel) ⟨by decide +kernel, wSome
    (by decide +kernel) (trivial)⟩⟩,
  ⟨0, 0, requesting 0x4 id id, by decide +kernel, wSome (by decide +kernel) ⟨by decide +kernel, wSome (by decide +kernel) (trivial)⟩⟩,
  ⟨0, 0, requesting 0x4000000005 id id, by decide +kernel, wSome (by decide +kernel) ⟨by decide +kernel, wSome (by decide +kernel) (trivial)⟩⟩,
  ⟨0, 0, requesting 0x800000006 id (fun d => { d with rm := { d.rm with mcast := [(0, 0x100000000000000000)] } }), by decide +kernel, wSome
    (by decide +kernel) ⟨by decide +kernel, wSome (by decide +kernel) (trivial)⟩⟩,
  ⟨0, 0, requesting 0x10000000000000000000000000027 id id, by decide +kernel, wSome (by decide +kernel) ⟨by decide +kernel, wSome
    (by decide +kernel) (trivial)⟩⟩⟩

theorem witness_RackRequestsAtTargetComplete :
    (∃ (port : Nat) (c : Cell) (s : State), ∃ (d : Dev), Served awaitsTokens s.dev port c [tyRmLoad] d ∧ rmLate d c = none ∧ ∃ (d1 : Dev) (cmd :
    BitVec 512) (data : List Byte), rmGather d c = (d1, some (cmd, data)) ∧ True) ∧
    (∃ (port : Nat) (c : Cell) (s : State), ∃ (d : Dev), Served awaitsTokens s.dev port c [tyRmStore] d ∧ rmLate d c = none ∧ ∃ (d1 : Dev) (cmd
    : BitVec 512) (data : List Byte), rmGather d c = (d1, some (cmd, data)) ∧ True) ∧
    (∃ (port : Nat) (c : Cell) (s : State), ∃ (d : Dev), Served awaitsTokens s.dev port c [tyRmAtomic] d ∧ rmLate d c = none ∧ ∃ (d1 : Dev) (cmd
    : BitVec 512) (data : List Byte), rmGather d c = (d1, some (cmd, data)) ∧ True) ∧
    (∃ (port : Nat) (c : Cell) (s : State), ∃ (d : Dev), Served awaitsTokens s.dev port c [tyRmReduce] d ∧ rmLate d c = none ∧ ∃ (d1 : Dev) (cmd
    : BitVec 512) (data : List Byte), rmGather d c = (d1, some (cmd, data)) ∧ True) ∧
    (∃ (port : Nat) (c : Cell) (s : State), ∃ (d : Dev), Served awaitsTokens s.dev port c [tyRmFence] d ∧ rmLate d c = none ∧ ∃ (d1 : Dev) (cmd
    : BitVec 512) (data : List Byte), rmGather d c = (d1, some (cmd, data)) ∧ True) ∧
    (∃ (port : Nat) (c : Cell) (s : State), ∃ (d : Dev), Served awaitsTokens s.dev port c [tyRmMcast] d ∧ (rmLate d c = none ∧ posY (myPos d) ≠
    posY (devPos c.src)) ∧ ∃ (d1 : Dev) (cmd : BitVec 512) (data : List Byte), rmGather d c = (d1, some (cmd, data)) ∧ bit (tgetD d.rm.mcast
    (ccGroup cmd) 0) (myPos d) = true) ∧
    (∃ (c : Cell) (s : State), awaitsTokens s.dev c = true ∧ c.ty.toNat = tyRmLoad) ∧
    (∃ (c : Cell) (s : State), awaitsTokens s.dev c = true ∧ c.ty.toNat = tyRmStore) ∧
    (∃ (c : Cell) (s : State), awaitsTokens s.dev c = true ∧ c.ty.toNat = tyRmAtomic) ∧
    (∃ (c : Cell) (s : State), awaitsTokens s.dev c = true ∧ c.ty.toNat = tyRmReduce) ∧
    (∃ (c : Cell) (s : State), awaitsTokens s.dev c = true ∧ c.ty.toNat = tyRmFence) ∧
    (∃ (c : Cell) (s : State), awaitsTokens s.dev c = true ∧ c.ty.toNat = tyRmMcast) ∧
    (∃ (src : DevId) (tag : BitVec 13) (p : Nat) (s : State), weirOk s.dev p 0 = true ∧ ∃ (h : HeldFlag), (s.dev.rm.heldFlags.find? fun h =>
    h.src == src && h.part == p && h.tag == tag.toNat) = some h ∧ lowerDone s.dev src p h.seq.toNat = true) :=
  ⟨⟨0, arriving tyRmLoad 0 9 (.bits 0x208000000000000), exporting id, wServed (by decide +kernel) (by decide +kernel) ⟨by decide +kernel,
    wSomeR2 (by decide +kernel) (trivial)⟩⟩,
  ⟨0, arriving tyRmStore 0 9 (.bits 0x400000000000000), exporting id, wServed (by decide +kernel) (by decide +kernel) ⟨by decide +kernel,
    wSomeR2 (by decide +kernel) (trivial)⟩⟩,
  ⟨0, arriving tyRmAtomic 0 9 (.bits 0x800000000000000), exporting id, wServed (by decide +kernel) (by decide +kernel) ⟨by decide +kernel,
    wSomeR2 (by decide +kernel) (trivial)⟩⟩,
  ⟨0, arriving tyRmReduce 0 9 (.bits 0xa00000000000000), exporting id, wServed (by decide +kernel) (by decide +kernel) ⟨by decide +kernel,
    wSomeR2 (by decide +kernel) (trivial)⟩⟩,
  ⟨0, arriving tyRmFence 0 9 (.bits 0xe00000000000000), exporting id, wServed (by decide +kernel) (by decide +kernel) ⟨by decide +kernel,
    wSomeR2 (by decide +kernel) (trivial)⟩⟩,
  ⟨0, { arriving tyRmMcast 0 9 (.bits 0xc00000000000000) with src := 8 }, exporting fun d =>
    { d with rm := { d.rm with mcast := [(0, 0x100000000000000001)] } }, wServed (by decide +kernel) (by decide +kernel) ⟨by decide +kernel,
    wSomeR2 (by decide +kernel) (by decide +kernel)⟩⟩,
  ⟨arriving tyRmLoad 0 9 (.bits 0), line fun d => d.modPart 0 fun x => { x with weirRate := 1, weirLevel := [(0, 0)] }, by decide +kernel⟩,
  ⟨arriving tyRmStore 0 9 (.bits 0), line fun d => d.modPart 0 fun x => { x with weirRate := 1, weirLevel := [(0, 0)] }, by decide +kernel⟩,
  ⟨arriving tyRmAtomic 0 9 (.bits 0), line fun d => d.modPart 0 fun x => { x with weirRate := 1, weirLevel := [(0, 0)] }, by decide +kernel⟩,
  ⟨arriving tyRmReduce 0 9 (.bits 0), line fun d => d.modPart 0 fun x => { x with weirRate := 1, weirLevel := [(0, 0)] }, by decide +kernel⟩,
  ⟨arriving tyRmFence 0 9 (.bits 0), line fun d => d.modPart 0 fun x => { x with weirRate := 1, weirLevel := [(0, 0)] }, by decide +kernel⟩,
  ⟨arriving tyRmMcast 0 9 (.bits 0), line fun d => d.modPart 0 fun x => { x with weirRate := 1, weirLevel := [(0, 0)] }, by decide +kernel⟩,
  ⟨1, 9, 0, exporting fun d => { d with rm := { d.rm with heldFlags := [⟨1, 0, 9, 0, false, 0, []⟩] } }, by decide +kernel, wSome
    (by decide +kernel) (by decide +kernel)⟩⟩

theorem witness_RackAnswersAndTimeoutsComplete :
    (∃ (port : Nat) (c : Cell) (s : State), ∃ (d : Dev), Served awaitsTokens s.dev port c [tyReduceM] d ∧ True) ∧
    (∃ (port : Nat) (c : Cell) (s : State), ∃ (d : Dev), Served awaitsTokens s.dev port c [tyMerge] d ∧ True) ∧
    (∃ (p : Nat) (st : Nat) (s : State), writeWins s.dev p st = [] ∧ ∃ (r : RmReq), nextOf s.dev p st = some r ∧ (r.phase = .heldFlag ∧ (earlier
    s.dev r).all (fun y => y.phase == .merged && y.respStatus.isSome) = true ∧ rqOutside (rqQuota s.dev p st r.order) p st r.desc = none ∧
    rmPoisoned s.dev p st r = none) ∧ ∃ (t : Nat), freeTag s.dev = some t ∧ True) ∧
    (∃ (port : Nat) (c : Cell) (s : State), ∃ (d : Dev), Delivered s.dev port c [tyRmResp] d ∧ ∃ (r : RmReq), (d.rm.reqs.find? fun r => r.tag ==
    some c.tag.toNat && r.part == c.part.toNat && r.phase == .sent) = some r ∧ rqOp r.desc ≠ opMcast) ∧
    (∃ (tag : BitVec 13) (s : State), ∃ (r : RmReq), (s.dev.rm.reqs.find? fun r => r.tag == some tag.toNat && r.phase == .sent) = some r ∧
    r.retries < retryLimit r.cfg ∧ rqOp r.desc ≠ opMcast) :=
  ⟨⟨0, arriving tyReduceM 0 9 (.bits 0), exporting id, wServed (by decide +kernel) (by decide +kernel) (trivial)⟩,
  ⟨0, arriving tyMerge 0 9 (.bits 0), exporting id, wServed (by decide +kernel) (by decide +kernel) (trivial)⟩,
  ⟨0, 0, requesting 0x10000000000000000000800000003 (fun r => { r with phase := .heldFlag }) id, by decide +kernel, wSome (by decide +kernel)
    ⟨by decide +kernel, wSome (by decide +kernel) (trivial)⟩⟩,
  ⟨0, arriving tyRmResp 0 9 (.bits 0), requesting 0x10000000000000000000800000002 (fun r => { r with phase := .sent, tag := some 9 }) id,
    wDelivered (by decide +kernel) (wSome (by decide +kernel) (by decide +kernel))⟩,
  ⟨9, requesting 0x10000000000000000000800000002 (fun r => { r with phase := .sent, tag := some 9 }) id, wSome (by decide +kernel)
    (by decide +kernel)⟩⟩

theorem witness_GatewayCommandsComplete :
    (∃ (port : Nat) (c : Cell) (s : State), c.off ≠ 0 ∧ ∃ (d : Dev), Served awaitsTokens s.dev port c [tyGwWrite] d ∧ ∃ (x : GwRx),
    (d.rm.gwRx.find? fun y => y.src == c.src && y.part == c.part.toNat && y.tag == c.tag.toNat) = some x ∧ (((List.range 72).all fun i =>
    (tget (tput x.cells c.off.toNat (payBits c)) (i + 1)).isSome) = true ∧ findDup d c.src x.part x.tag opStore 0 c.retry = none ∧ exported
    d x.part = true) ∧ ∃ (cmd : BitVec 512), x.cmd = some cmd ∧ ∃ (cells : _), cells = tput x.cells c.off.toNat (payBits c) ∧ ∃ (set : _),
    set = bitsSet 4096 (packNat ((List.range 8).map fun i => (512 * i, (tgetD cells (i + 1) 0).toNat))) ∧ (set.all fun i => Machine.windowOk
    d x.part (ccOff cmd + i) 1) = true ∧ ((d.part x.part).det = true → set ≠ [] → pageTaken d x.part (ccOff cmd) 1 c.src none = false)) ∧
    (∃ (port : Nat) (c : Cell) (s : State), ∃ (d : Dev), Served awaitsTokens s.dev port c [tyGwRead] d ∧ Machine.windowOk d c.part.toNat (ccOff
    (payBits c)) 4096 = true ∧ poisonAt d c.part.toNat false (ccOff (payBits c)) 4096 = none) ∧
    (∃ (port : Nat) (c : Cell) (s : State), c.off ≠ 0 ∧ ∃ (d : Dev), Delivered s.dev port c [tyGwData] d ∧ ∃ (w : GwWin), (d.rm.wins.find? fun w
    => w.tag == some c.tag.toNat && w.part == c.part.toNat && w.filling) = some w ∧ 0 ∉ w.gotCells) ∧
    (∃ (p : Nat) (st : Nat) (base : U64) (s : State), ∃ (w : GwWin), (s.dev.rm.wins.find? fun w => winKey p st base true w && !w.flushing) =
    some w ∧ True) :=
  ⟨⟨0, arriving tyGwWrite 72 9 (.bits 0), exporting fun d =>
    { d with rm := { d.rm with gwRx := [⟨1, 0, 9, some 0, (List.range 71).map fun i => (i + 1, if i = 0 then 1 else 0)⟩] } },
    by decide +kernel, wServed (by decide +kernel) (by decide +kernel) (wSome (by decide +kernel) ⟨by decide +kernel, wSome
    (by decide +kernel) (wEq (wEq (by decide +kernel)))⟩)⟩,
  ⟨0, arriving tyGwRead 0 9 (.bits 0), exporting id, wServed (by decide +kernel) (by decide +kernel) (by decide +kernel)⟩,
  ⟨0, arriving tyGwData 1 9 (.bits 0), line fun d => { d with rm := { d.rm with wins := [win0] } }, by decide +kernel, wDelivered
    (by decide +kernel) (wSome (by decide +kernel) (by decide +kernel))⟩,
  ⟨0, 0, 0, line fun d => { d with rm := { d.rm with wins := [{ win0 with isWrite := true }] } }, wSome (by decide +kernel) (trivial)⟩⟩

theorem witness_CollectiveChunksComplete :
    (∃ (p : Nat) (comm : Nat) (s : State), ∃ (x : Coll), slotless s.dev p comm = some x ∧ ∃ (w : WaitReq), (s.dev.cst.waits.find? fun w =>
    w.pool == cmPool x.cm && w.part == p) = some w ∧ w.who = .slots x.uid ∧ ∃ (is : List Nat) (d1 : Dev), grantWaiting s.dev (cmPool x.cm) p
    = (some (.slots x.uid, is), d1) ∧ True) ∧
    (∃ (p : Nat) (comm : Nat) (s : State), ∃ (x : Coll), curC s.dev p comm = some x ∧ (chunkReady s.dev x x.started = true ∧ slotTokens s.dev x
    = true) ∧ ∃ (st : Nat) (sts : List Nat), x.stages = st :: sts ∧ ∃ (own : Tbl (List Byte)), inputSlices ((List.range x.size).foldl (fun d
    j => touched d p (ldSrc x.desc + j * ldLen x.desc + x.started * x.base) (sliceLen x x.started)) s.dev) x x.started = .inr own ∧ True) ∧
    (∃ (p : Nat) (comm : Nat) (st : Nat) (k : Nat) (s : State), ∃ (x : Coll), curC s.dev p comm = some x ∧ (slotTokens s.dev x = true ∧
    isReducing x st = false) ∧ ∃ (sl : Slot), getSlot x st k = some sl ∧ sumReady x sl = true ∧ ∃ (own : Tbl (List Byte)), sl.own = some own
    ∧ True) ∧
    (∃ (p : Nat) (comm : Nat) (st : Nat) (k : Nat) (s : State), ∃ (x : Coll), curC s.dev p comm = some x ∧ (slotTokens s.dev x = true ∧
    isReducing x st = true) ∧ ∃ (sl : Slot), getSlot x st k = some sl ∧ sumReady x sl = true ∧ ∃ (own : Tbl (List Byte)), sl.own = some own
    ∧ ∃ (res : _) (fl : _), reduceSlices (chargeSlots s.dev x (bytesIn own + bytesIn sl.rx)) x sl own = .inr (res, fl) ∧ True) :=
  ⟨⟨0, 0, line fun d =>
    { (pooled d) with rill := { d.rill with colls := [{ coll0 0x10000000000000000000000000000000010000000160 with openStatus := none }] }, cst := { (pooled d).cst with waits := [⟨0, 0, 1, .slots 0⟩] } },
    wSome (by decide +kernel) (wSome (by decide +kernel) ⟨by decide +kernel, wSlots (by decide +kernel) (by decide +kernel) (trivial)⟩)⟩,
  ⟨0, 0, collecting 0x10000000000000000000000000000000010000000160 id, wSome (by decide +kernel) ⟨by decide +kernel, wCons (by decide +kernel)
    (wInr (by decide +kernel) (trivial))⟩⟩,
  ⟨0, 0, 3, 0, collecting 0x10000000000000000000000000000000010000000160 (fun x =>
    { x with slots := [slot0 3 [(0, List.replicate 256 0)] [(1, List.replicate 256 0)]] }), wSome (by decide +kernel) ⟨by decide +kernel,
    wSome (by decide +kernel) ⟨by decide +kernel, wSome (by decide +kernel) (trivial)⟩⟩⟩,
  ⟨0, 0, 0, 0, collecting 0x10000000000000000000000000000000010000000160 (fun x =>
    { x with slots := [slot0 0 [(0, List.replicate 256 0), (1, List.replicate 256 0)] [(1, List.replicate 256 0)]] }), wSome
    (by decide +kernel) ⟨by decide +kernel, wSome (by decide +kernel) ⟨by decide +kernel, wSome (by decide +kernel) (wInr2
    (by decide +kernel) (trivial))⟩⟩⟩⟩

theorem witness_CollectiveTransfersComplete :
    (∃ (port : Nat) (c : Cell) (s : State), ∃ (d : Dev), Served slotAwaits s.dev port c [tyCollData] d ∧ ∃ (x : Coll), curC d c.part.toNat
    (tagComm c) = some x ∧ (x.opened = true ∧ tagStage c ∈ x.stages) ∧ ∃ (r : Nat), rankOfDev x c.src = some r ∧ (matched x r = true ∧ r ∈
    stagePeers x (tagStage c)) ∧ ∃ (k : _), chunkNamed x (tagStage c) (fld c.tag 1 0) (fld c.off 22 17) = some k ∧ (64 < needBytes x
    (tagStage c) k r ∧ isReleased x (tagStage c) k = false) ∧ (∀ sl, getSlot x (tagStage c) k = some sl → tget sl.rx r = none ∧ tget
    sl.cells r = none) ∧ fld c.off 16 0 < divUp (needBytes x (tagStage c) k r) 64 ∧ (∃ sl, (findC (needSlot d x.uid (tagStage c) k)
    x.uid).bind (fun x => getSlot x (tagStage c) k) = some sl ∧ tget sl.cells r = none)) ∧
    (∃ (port : Nat) (c : Cell) (s : State), ctlKind c = kEmpty ∧ ∃ (d : Dev), Delivered s.dev port c [tyCollAck] d ∧ ∃ (x : Coll), seqC d
    c.part.toNat (tagComm c) (ctlSeq c) = some x ∧ (x.ended = false ∧ x.opened = true ∧ ctlChunk c < x.nchunk ∧ tagStage c ∈ x.stages ∧
    isReleased x (tagStage c) (ctlChunk c) = false ∧ ctlChunk c < freedOf x (tagStage c) + 4) ∧ ∃ (r : Nat), rankOfDev x c.src = some r ∧
    (matched x r = true ∧ r ∈ stagePeers x (tagStage c) ∧ needBytes x (tagStage c) (ctlChunk c) r = 0) ∧ (∀ sl, getSlot x (tagStage c)
    (ctlChunk c) = some sl → tget sl.rx r = none)) ∧
    (∃ (port : Nat) (c : Cell) (s : State), (ctlKind c = kAck ∧ tagStage c ≠ 7) ∧ ∃ (d : Dev), Delivered s.dev port c [tyCollAck] d ∧ ∃ (x :
    Coll), seqC d c.part.toNat (tagComm c) (ctlSeq c) = some x ∧ x.ended = false ∧ ∃ (r : Nat), rankOfDev x c.src = some r ∧ True) ∧
    (∃ (port : Nat) (c : Cell) (s : State), ctlKind c = kFree ∧ ∃ (d : Dev), Delivered s.dev port c [tyCollAck] d ∧ ∃ (x : Coll), seqC d
    c.part.toNat (tagComm c) (ctlSeq c) = some x ∧ x.ended = false ∧ ∃ (r : Nat), rankOfDev x c.src = some r ∧ True) ∧
    (∃ (port : Nat) (c : Cell) (s : State), ctlKind c = kProbe ∧ ∃ (d : Dev), Delivered s.dev port c [tyCollAck] d ∧ ∃ (x : Coll), seqC d
    c.part.toNat (tagComm c) (ctlSeq c) = some x ∧ x.ended = false ∧ ∃ (r : Nat), rankOfDev x c.src = some r ∧ True) ∧
    (∃ (port : Nat) (c : Cell) (s : State), ctlKind c = kNak ∧ ∃ (d : Dev), Delivered s.dev port c [tyCollAck] d ∧ ∃ (x : Coll), seqC d
    c.part.toNat (tagComm c) (ctlSeq c) = some x ∧ x.ended = false ∧ ∃ (r : Nat), rankOfDev x c.src = some r ∧ ∃ (o : _), outOf x (tagStage
    c) (ctlChunk c) r = some o ∧ o.acked = false ∧ o.isEmpty = false) :=
  ⟨⟨0, arriving tyCollData 0 0 (.bits 0), collecting 0x10000000000000000000000000000000010000000160 id, wServed (by decide +kernel)
    (by decide +kernel) (wSome (by decide +kernel) ⟨by decide +kernel, wSome (by decide +kernel) ⟨by decide +kernel, wSome
    (by decide +kernel) ⟨by decide +kernel, wNone (by decide +kernel), by decide +kernel, wSome (by decide +kernel) (by decide +kernel)⟩⟩⟩)⟩,
  ⟨0, arriving tyCollAck 0 0 (.bits 0x5), collecting 0x5 id, by decide +kernel, wDelivered (by decide +kernel) (wSome (by decide +kernel)
    ⟨by decide +kernel, wSome (by decide +kernel) ⟨by decide +kernel, wNone (by decide +kernel)⟩⟩)⟩,
  ⟨0, arriving tyCollAck 0 0 (.bits 0x2), collecting 0x10000000000000000000000000000000010000000160 id, by decide +kernel, wDelivered
    (by decide +kernel) (wSome (by decide +kernel) ⟨by decide +kernel, wSome (by decide +kernel) (trivial)⟩)⟩,
  ⟨0, arriving tyCollAck 0 0 (.bits 0x3), collecting 0x10000000000000000000000000000000010000000160 id, by decide +kernel, wDelivered
    (by decide +kernel) (wSome (by decide +kernel) ⟨by decide +kernel, wSome (by decide +kernel) (trivial)⟩)⟩,
  ⟨0, arriving tyCollAck 0 0 (.bits 0x4), collecting 0x10000000000000000000000000000000010000000160 id, by decide +kernel, wDelivered
    (by decide +kernel) (wSome (by decide +kernel) ⟨by decide +kernel, wSome (by decide +kernel) (trivial)⟩)⟩,
  ⟨0, arriving tyCollAck 0 0 (.bits 0x6), collecting 0x10000000000000000000000000000000010000000160 (fun x => { x with outs := [sent0] }),
    by decide +kernel, wDelivered (by decide +kernel) (wSome (by decide +kernel) ⟨by decide +kernel, wSome (by decide +kernel) (wSome
    (by decide +kernel) (by decide +kernel))⟩)⟩⟩

theorem witness_CollectiveControlComplete :
    (∃ (port : Nat) (c : Cell) (s : State), ctlKind c = kOpen ∧ ∃ (d : Dev), Delivered s.dev port c [tyCollAck] d ∧ (d.part c.part.toNat).valid
    = true ∧ ∃ (x : _), seqC d (c.part.toNat) (tagComm c) (ctlSeq c) = some x ∧ True) ∧
    (∃ (port : Nat) (c : Cell) (s : State), ctlKind c = kAbort ∧ ∃ (d : Dev), Delivered s.dev port c [tyCollAck] d ∧ (d.part c.part.toNat).valid
    = true ∧ ∃ (x : _), seqC d (c.part.toNat) (tagComm c) (ctlSeq c) = some x ∧ True) ∧
    (∃ (port : Nat) (c : Cell) (s : State), ctlKind c = kMismatch ∧ ∃ (d : Dev), Delivered s.dev port c [tyCollAck] d ∧ (d.part
    c.part.toNat).valid = true ∧ ∃ (x : _), seqC d (c.part.toNat) (tagComm c) (ctlSeq c) = some x ∧ True) ∧
    (∃ (port : Nat) (c : Cell) (s : State), ctlKind c = kOpen ∧ ∃ (d : Dev), Delivered s.dev port c [tyCollAck] d ∧ (d.part c.part.toNat).valid
    = true ∧ seqC d (c.part.toNat) (tagComm c) (ctlSeq c) = none ∧ cmValid (commOf d (c.part.toNat) (tagComm c)) = true ∧ ctlSeq c < cmNext
    (commOf d (c.part.toNat) (tagComm c))) ∧
    (∃ (port : Nat) (c : Cell) (s : State), ctlKind c = kAbort ∧ ∃ (d : Dev), Delivered s.dev port c [tyCollAck] d ∧ (d.part c.part.toNat).valid
    = true ∧ seqC d (c.part.toNat) (tagComm c) (ctlSeq c) = none ∧ cmValid (commOf d (c.part.toNat) (tagComm c)) = true ∧ ctlSeq c < cmNext
    (commOf d (c.part.toNat) (tagComm c))) ∧
    (∃ (port : Nat) (c : Cell) (s : State), ctlKind c = kMismatch ∧ ∃ (d : Dev), Delivered s.dev port c [tyCollAck] d ∧ (d.part
    c.part.toNat).valid = true ∧ seqC d (c.part.toNat) (tagComm c) (ctlSeq c) = none ∧ cmValid (commOf d (c.part.toNat) (tagComm c)) = true
    ∧ ctlSeq c < cmNext (commOf d (c.part.toNat) (tagComm c))) ∧
    (∃ (port : Nat) (c : Cell) (s : State), ctlKind c = kOpen ∧ ∃ (d : Dev), Delivered s.dev port c [tyCollAck] d ∧ (d.part c.part.toNat).valid
    = true ∧ seqC d (c.part.toNat) (tagComm c) (ctlSeq c) = none ∧ cmNext (commOf d (c.part.toNat) (tagComm c)) ≤ ctlSeq c ∧
    (d.rill.store.any fun e => e.src == c.src && e.part == c.part && tagComm e == tagComm c && payBits e == payBits c) = false ∧ 64 *
    (d.rill.store.length + 1) ≤ 262144) ∧
    (∃ (port : Nat) (c : Cell) (s : State), ctlKind c = kAbort ∧ ∃ (d : Dev), Delivered s.dev port c [tyCollAck] d ∧ (d.part c.part.toNat).valid
    = true ∧ seqC d (c.part.toNat) (tagComm c) (ctlSeq c) = none ∧ cmNext (commOf d (c.part.toNat) (tagComm c)) ≤ ctlSeq c ∧
    (d.rill.store.any fun e => e.src == c.src && e.part == c.part && tagComm e == tagComm c && payBits e == payBits c) = false ∧ 64 *
    (d.rill.store.length + 1) ≤ 262144) ∧
    (∃ (port : Nat) (c : Cell) (s : State), ctlKind c = kMismatch ∧ ∃ (d : Dev), Delivered s.dev port c [tyCollAck] d ∧ (d.part
    c.part.toNat).valid = true ∧ seqC d (c.part.toNat) (tagComm c) (ctlSeq c) = none ∧ cmNext (commOf d (c.part.toNat) (tagComm c)) ≤ ctlSeq
    c ∧ (d.rill.store.any fun e => e.src == c.src && e.part == c.part && tagComm e == tagComm c && payBits e == payBits c) = false ∧ 64 *
    (d.rill.store.length + 1) ≤ 262144) ∧
    (∃ (port : Nat) (c : Cell) (s : State), ctlKind c = kOpen ∧ ∃ (d : Dev), Delivered s.dev port c [tyCollAck] d ∧ (d.part c.part.toNat).valid
    = true ∧ seqC d (c.part.toNat) (tagComm c) (ctlSeq c) = none ∧ cmNext (commOf d (c.part.toNat) (tagComm c)) ≤ ctlSeq c ∧
    (d.rill.store.any fun e => e.src == c.src && e.part == c.part && tagComm e == tagComm c && payBits e == payBits c) = false ∧ 262144 < 64
    * (d.rill.store.length + 1)) ∧
    (∃ (port : Nat) (c : Cell) (s : State), ctlKind c = kAbort ∧ ∃ (d : Dev), Delivered s.dev port c [tyCollAck] d ∧ (d.part c.part.toNat).valid
    = true ∧ seqC d (c.part.toNat) (tagComm c) (ctlSeq c) = none ∧ cmNext (commOf d (c.part.toNat) (tagComm c)) ≤ ctlSeq c ∧
    (d.rill.store.any fun e => e.src == c.src && e.part == c.part && tagComm e == tagComm c && payBits e == payBits c) = false ∧ 262144 < 64
    * (d.rill.store.length + 1)) ∧
    (∃ (port : Nat) (c : Cell) (s : State), ctlKind c = kMismatch ∧ ∃ (d : Dev), Delivered s.dev port c [tyCollAck] d ∧ (d.part
    c.part.toNat).valid = true ∧ seqC d (c.part.toNat) (tagComm c) (ctlSeq c) = none ∧ cmNext (commOf d (c.part.toNat) (tagComm c)) ≤ ctlSeq
    c ∧ (d.rill.store.any fun e => e.src == c.src && e.part == c.part && tagComm e == tagComm c && payBits e == payBits c) = false ∧ 262144
    < 64 * (d.rill.store.length + 1)) ∧
    (∃ (port : Nat) (c : Cell) (s : State), ctlKind c = kOpenAck ∧ ∃ (d : Dev), Delivered s.dev port c [tyCollAck] d ∧ (d.part
    c.part.toNat).valid = true ∧ ∃ (x : _), seqC (dropKept d c kOpen 0) c.part.toNat (tagComm c) (ctlSeq c) = some x ∧ ∃ (r : _), rankOfDev
    x c.src = some r ∧ True) :=
  ⟨⟨0, arriving tyCollAck 0 0 (.bits 0x0), collecting 0x10000000000000000000000000000000010000000160 id, by decide +kernel, wDelivered
    (by decide +kernel) ⟨by decide +kernel, wSome (by decide +kernel) (trivial)⟩⟩,
  ⟨0, arriving tyCollAck 0 0 (.bits 0x7), collecting 0x10000000000000000000000000000000010000000160 id, by decide +kernel, wDelivered
    (by decide +kernel) ⟨by decide +kernel, wSome (by decide +kernel) (trivial)⟩⟩,
  ⟨0, arriving tyCollAck 0 0 (.bits 0x8), collecting 0x10000000000000000000000000000000010000000160 id, by decide +kernel, wDelivered
    (by decide +kernel) ⟨by decide +kernel, wSome (by decide +kernel) (trivial)⟩⟩,
  ⟨0, arriving tyCollAck 0 0 (.bits 0x0), line fun d => d.modPart 0 fun x => { x with comms := [(0, pack 192 [(86, 1), (144, 1)])] },
    by decide +kernel, wDelivered (by decide +kernel) (by decide +kernel)⟩,
  ⟨0, arriving tyCollAck 0 0 (.bits 0x7), line fun d => d.modPart 0 fun x => { x with comms := [(0, pack 192 [(86, 1), (144, 1)])] },
    by decide +kernel, wDelivered (by decide +kernel) (by decide +kernel)⟩,
  ⟨0, arriving tyCollAck 0 0 (.bits 0x8), line fun d => d.modPart 0 fun x => { x with comms := [(0, pack 192 [(86, 1), (144, 1)])] },
    by decide +kernel, wDelivered (by decide +kernel) (by decide +kernel)⟩,
  ⟨0, arriving tyCollAck 0 0 (.bits 0x0), line id, by decide +kernel, wDelivered (by decide +kernel) (by decide +kernel)⟩,
  ⟨0, arriving tyCollAck 0 0 (.bits 0x7), line id, by decide +kernel, wDelivered (by decide +kernel) (by decide +kernel)⟩,
  ⟨0, arriving tyCollAck 0 0 (.bits 0x8), line id, by decide +kernel, wDelivered (by decide +kernel) (by decide +kernel)⟩,
  ⟨0, arriving tyCollAck 0 0 (.bits 0x0), line fun d =>
    { d with rill := { d.rill with store := List.replicate 4096 (arriving tyCollAck 0 0 (.bits 1)) } }, by decide +kernel, wDelivered
    (by decide +kernel) (by decide +kernel)⟩,
  ⟨0, arriving tyCollAck 0 0 (.bits 0x7), line fun d =>
    { d with rill := { d.rill with store := List.replicate 4096 (arriving tyCollAck 0 0 (.bits 1)) } }, by decide +kernel, wDelivered
    (by decide +kernel) (by decide +kernel)⟩,
  ⟨0, arriving tyCollAck 0 0 (.bits 0x8), line fun d =>
    { d with rill := { d.rill with store := List.replicate 4096 (arriving tyCollAck 0 0 (.bits 1)) } }, by decide +kernel, wDelivered
    (by decide +kernel) (by decide +kernel)⟩,
  ⟨0, arriving tyCollAck 0 0 (.bits 0x1), collecting 0x10000000000000000000000000000000010000000160 id, by decide +kernel, wDelivered
    (by decide +kernel) ⟨by decide +kernel, wSome (by decide +kernel) (wSome (by decide +kernel) (trivial))⟩⟩⟩

theorem witness_CollectiveTimersAndQueriesComplete :
    (∃ (p : Nat) (comm : Nat) (st : Nat) (k : Nat) (peer : Nat) (s : State), ∃ (x : Coll), curC s.dev p comm = some x ∧ ∃ (o : CollXfer), outOf
    x st k peer = some o ∧ o.acked = false ∧ o.timing = true) ∧
    (∃ (p : Nat) (comm : Nat) (st : Nat) (peer : Nat) (s : State) (sl : Slot), (sl.stage = st ∧ sl.own.isSome = true ∧ peer ∈ sl.unsent) ∧ ∃ (x
    : Coll), curC s.dev p comm = some x ∧ sl ∈ x.slots ∧ windowOpen x st sl.chunk peer = false) ∧
    (∃ (kind : Nat), kind ≠ kEmpty) ∧
    (∃ (port : Nat) (c : Cell) (s : State), ∃ (d : Dev), Delivered s.dev port c [tyPeerQuery] d ∧ True) ∧
    (∃ (port : Nat) (c : Cell) (s : State), bit (payBits c) 0 = true ∧ ∃ (d : Dev), Delivered s.dev port c [tyPeerState] d ∧ True) ∧
    (∃ (port : Nat) (c : Cell) (s : State), bit (payBits c) 0 = false ∧ ∃ (d : Dev), Delivered s.dev port c [tyPeerState] d ∧ True) ∧
    (∃ (rill : Bool) (p : Nat) (id : U32) (dev : DevId) (s : State), (∃ q ∈ s.dev.slc.queries, q.rill = rill ∧ q.part = p ∧ q.id = id ∧ q.dev =
    dev)) :=
  ⟨⟨0, 0, 0, 0, 1, collecting 0x10000000000000000000000000000000010000000160 (fun x => { x with outs := [sent0] }), wSome (by decide +kernel)
    (wSome (by decide +kernel) (by decide +kernel))⟩,
  ⟨0, 0, 0, 1, collecting 0x10000000000000000000000000000000010000000160 (fun x => { x with slots := [{ slot0 0 [] [] with chunk := 4 }] }),
    { slot0 0 [] [] with chunk := 4 }, by decide +kernel, wSome (by decide +kernel) (by decide +kernel)⟩,
  ⟨0, by decide +kernel⟩,
  ⟨0, arriving tyPeerQuery 0 9 (.bits 0), line id, wDelivered (by decide +kernel) (trivial)⟩,
  ⟨0, arriving tyPeerState 0 9 (.bits 1), line id, by decide +kernel, wDelivered (by decide +kernel) (trivial)⟩,
  ⟨0, arriving tyPeerState 0 9 (.bits 0), line id, by decide +kernel, wDelivered (by decide +kernel) (trivial)⟩,
  ⟨true, 0, 5, 1, line fun d => { d with slc := { d.slc with queries := [⟨true, 0, 5, 0, 1⟩] } }, by decide +kernel⟩⟩

theorem witness_MaintenanceCommandsComplete :
    (∃ (a : Nat) (s : State), s.dev.pwr.rails = true ∧ a < winBase) ∧
    (∃ (pc : Nat) (o : Nat) (s : State), s.dev.pwr.rails = true ∧ pc < 36 ∧ o < 0x1000000) ∧
    (∃ (pc : Nat) (o : Nat) (s : State), s.dev.pwr.rails = true ∧ pc < 36 ∧ o < 0x1000000) ∧
    (∃ (o : Nat) (s : State), s.dev.pwr.rails = true ∧ cstBase + o < cstTop) ∧
    (∃ (row : Nat) (chan : Nat) (t : Nat) (s : State), (s.dev.mem.rowSparing.find? fun x => x.1 == row) = some (row, chan, t)) ∧
    (∃ (chan : Nat) (bank : Nat) (t : Nat) (s : State), (s.dev.mem.bankSparing.find? fun x => x.1 == chan) = some (chan, bank, t)) ∧
    (∃ (eb : Nat) (s : State), (s.dev.pwr.rails = true ∧ eb < ebTotal ∧ eb ∈ s.dev.ftl.used) ∧ ∃ (d : Dev), d = flashRead s.dev (liveIn
    s.dev.ftl eb) ∧ eb ∉ d.ftl.retired) ∧
    (∃ (eb : Nat) (s : State), (s.dev.pwr.rails = true ∧ eb < ebTotal ∧ eb ∈ s.dev.ftl.used) ∧ ∃ (d : Dev), d = flashRead s.dev (liveIn
    s.dev.ftl eb) ∧ eb ∉ d.ftl.retired ∧ ∃ (key : Nat) (rest : List Nat), liveIn d.ftl eb = key :: rest ∧ True) ∧
    (∃ (eb : Nat) (s : State), (s.dev.ftl.relocQ.find? fun x => x.1 == eb) = some (eb, 0)) :=
  ⟨⟨64, State.reset, by decide +kernel⟩,
  ⟨3, 8, State.reset, by decide +kernel⟩,
  ⟨3, 8, State.reset, by decide +kernel⟩,
  ⟨8, State.reset, by decide +kernel⟩,
  ⟨3, 1, 0, dv fun d => { d with mem := { d.mem with rowSparing := [(3, 1, 0)] } }, by decide +kernel⟩,
  ⟨1, 2, 0, dv fun d => { d with mem := { d.mem with bankSparing := [(1, 2, 0)] } }, by decide +kernel⟩,
  ⟨4, dv fun d => { d with ftl := { d.ftl with used := [4], place := [(9, 4 * ebBlocks)] } }, by decide +kernel, wEq (by decide +kernel)⟩,
  ⟨4, dv fun d => { d with ftl := { d.ftl with used := [4], place := [(9, 4 * ebBlocks)] } }, by decide +kernel, wEq ⟨by decide +kernel, wCons
    (by decide +kernel) (trivial)⟩⟩,
  ⟨4, dv fun d => { d with ftl := { d.ftl with used := [4], relocQ := [(4, 0)] } }, by decide +kernel⟩⟩

theorem witness_KvAndGrantCommandsComplete :
    (∃ (p : Nat) (v : BitVec 320) (s : State), s.dev.pwr.rails = true ∧ p < 16 ∧ bit (v &&& kvMask) 0 = false) ∧
    (∃ (p : Nat) (v : BitVec 320) (s : State), s.dev.pwr.rails = true ∧ p < 16 ∧ bit (v &&& kvMask) 0 = true ∧ kvCfgOk s.dev p (v &&& kvMask) =
    true) ∧
    (∃ (p : Nat) (v : BitVec 320) (s : State), s.dev.pwr.rails = true ∧ p < 16 ∧ bit (v &&& kvMask) 0 = true ∧ kvCfgOk s.dev p (v &&& kvMask) =
    false) ∧
    (∃ (p : Nat) (s : State), ((s.dev.part p).kvDue ≠ 0 ∧ kvEn (s.dev.part p) = true ∧ ((s.dev.part p).kvCopies.all fun k => k.done) = true ∧
    kvLoss (kvTouched (kvFinish (s.dev.modPart p fun x => { x with kvDue := x.kvDue - 1 }) p) p) p = none) ∧ ∃ (cs : List KvChange),
    kvChanges (kvTouched (kvFinish (s.dev.modPart p fun x => { x with kvDue := x.kvDue - 1 }) p) p) p = some cs ∧ True) ∧
    (∃ (p : Nat) (s : State), ((s.dev.part p).kvDue ≠ 0 ∧ kvEn (s.dev.part p) = true ∧ ((s.dev.part p).kvCopies.all fun k => k.done) = true) ∧ ∃
    (a : _), kvLoss (kvTouched (kvFinish (s.dev.modPart p fun x => { x with kvDue := x.kvDue - 1 }) p) p) p = some a ∧ True) ∧
    (∃ (p : Nat) (q : Nat) (s : State), (weirOk s.dev p 0 = true ∧ weirOk s.dev p 1 = true) ∧ ∃ (k : KvCopy), ((s.dev.part p).kvCopies.find? fun
    k => k.seq == q && !k.done) = some k ∧ True) ∧
    (∃ (g : Nat) (p : Nat) (s : State), ∃ (who : WaitFor) (is : List Nat) (d : Dev), grantWaiting s.dev g p = (some (who, is), d) ∧ True) :=
  ⟨⟨0, 0, line id, by decide +kernel⟩,
  ⟨0, 1, line id, by decide +kernel⟩,
  ⟨0, 1, line fun d => d.modPart 0 fun x => { x with cls := 1 }, by decide +kernel⟩,
  ⟨0, line fun d => d.modPart 0 fun x => { x with kvCfg := 1, kvDue := 1 }, by decide +kernel, wSome (by decide +kernel) (trivial)⟩,
  ⟨0, line fun d => { (d.modPart 0 fun x => { x with kvCfg := 1, kvDue := 1 }) with mem := { d.mem with poison := [0x8000] } },
    by decide +kernel, wSome (by decide +kernel) (trivial)⟩,
  ⟨0, 2, line fun d => d.modPart 0 fun x => { x with kvCopies := [⟨2, true, false, []⟩] }, by decide +kernel, wSome (by decide +kernel)
    (trivial)⟩,
  ⟨0, 0, line fun d => { (pooled d) with cst := { (pooled d).cst with waits := [⟨0, 0, 1, .slots 0⟩] } }, wSomeL2 (by decide +kernel)
    (trivial)⟩⟩

theorem witness_DmaFetchAndCompletionComplete :
    (∃ (ch : Nat) (s : State), fetchReady s.dev ch = true ∧ ∃ (p : _), p = (chanOf s.dev ch).part ∧ ∃ (a : _), a = (chanOf s.dev ch).ring.toNat
    + 64 * (chanOf s.dev ch).head ∧ (okNew s.dev p false a 64 = true ∧ poisonAt s.dev p false a 64 = none) ∧ ∃ (w : _), w = readWord s.dev p
    false 512 a ∧ bdOwn w = false ∧ ∃ (d : _), d = modChan (chargeRange (setSem s.dev p (chanOf s.dev ch).kickSem (semOf s.dev p (chanOf
    s.dev ch).kickSem - 1)) p a 64) ch (fun c => { c with head := (c.head + 1) % c.ringLen }) ∧ True) ∧
    (∃ (ch : Nat) (s : State), fetchReady s.dev ch = true ∧ ∃ (p : _), p = (chanOf s.dev ch).part ∧ ∃ (a : _), a = (chanOf s.dev ch).ring.toNat
    + 64 * (chanOf s.dev ch).head ∧ (okNew s.dev p false a 64 = true ∧ poisonAt s.dev p false a 64 = none) ∧ ∃ (w : _), w = readWord s.dev p
    false 512 a ∧ (bdOwn w = true ∧ 1 ≤ bdOp w ∧ bdOp w ≤ 8) ∧ ∃ (d : _), d = modChan (chargeRange (setSem s.dev p (chanOf s.dev ch).kickSem
    (semOf s.dev p (chanOf s.dev ch).kickSem - 1)) p a 64) ch (fun c => { c with head := (c.head + 1) % c.ringLen }) ∧ True) ∧
    (∃ (ch : Nat) (s : State), ch % 8 ≠ 7 ∧ ∃ (x : Desc) (rest : List Desc), (chanOf s.dev ch).fetched = x :: rest ∧ x.done = true ∧ x.status =
    0 ∧ x.started = true ∧ weirOk s.dev x.part 0 = true) :=
  ⟨⟨0, kicked id, by decide +kernel, wEq (wEq ⟨by decide +kernel, wEq ⟨by decide +kernel, wEq (trivial)⟩⟩)⟩,
  ⟨0, kicked fun d => { d with mem := { d.mem with dram := [(0x200000, 0x11)] } }, by decide +kernel, wEq (wEq ⟨by decide +kernel, wEq
    ⟨by decide +kernel, wEq (trivial)⟩⟩)⟩,
  ⟨0, bulk { desc0 0 with started := true, done := true }, by decide +kernel, wCons (by decide +kernel) (by decide +kernel)⟩⟩

theorem witness_BulkOperationsComplete :
    (∃ (ch : Nat) (s : State) (cause : _), ((engOf s.dev (ch / 8)).active = some ch ∧ ch % 8 ≠ 7 ∧ cause ≠ 2) ∧ ∃ (x : Desc), (standing (chanOf
    s.dev ch)).head? = some x ∧ x.started = false ∧ bdWeirOk s.dev x.part (bdOp x.w) = true ∧ bdCheck (opQuota s.dev (x.part) (frontOp s.dev
    ch)) (x.part) x.w = some cause ∧ bdOp x.w = 1) ∧
    (∃ (ch : Nat) (s : State) (cause : _), ((engOf s.dev (ch / 8)).active = some ch ∧ ch % 8 ≠ 7 ∧ cause ≠ 2) ∧ ∃ (x : Desc), (standing (chanOf
    s.dev ch)).head? = some x ∧ x.started = false ∧ bdWeirOk s.dev x.part (bdOp x.w) = true ∧ bdCheck (opQuota s.dev (x.part) (frontOp s.dev
    ch)) (x.part) x.w = some cause ∧ bdOp x.w = 2) ∧
    (∃ (ch : Nat) (s : State) (cause : _), ((engOf s.dev (ch / 8)).active = some ch ∧ ch % 8 ≠ 7 ∧ cause ≠ 2) ∧ ∃ (x : Desc), (standing (chanOf
    s.dev ch)).head? = some x ∧ x.started = false ∧ bdWeirOk s.dev x.part (bdOp x.w) = true ∧ bdCheck (opQuota s.dev (x.part) (frontOp s.dev
    ch)) (x.part) x.w = some cause ∧ bdOp x.w = 3) ∧
    (∃ (ch : Nat) (s : State) (cause : _), ((engOf s.dev (ch / 8)).active = some ch ∧ ch % 8 ≠ 7 ∧ cause ≠ 2) ∧ ∃ (x : Desc), (standing (chanOf
    s.dev ch)).head? = some x ∧ x.started = false ∧ bdWeirOk s.dev x.part (bdOp x.w) = true ∧ bdCheck (opQuota s.dev (x.part) (frontOp s.dev
    ch)) (x.part) x.w = some cause ∧ bdOp x.w = 4) ∧
    (∃ (ch : Nat) (s : State) (cause : _), ((engOf s.dev (ch / 8)).active = some ch ∧ ch % 8 ≠ 7 ∧ cause ≠ 2) ∧ ∃ (x : Desc), (standing (chanOf
    s.dev ch)).head? = some x ∧ x.started = false ∧ bdWeirOk s.dev x.part (bdOp x.w) = true ∧ bdCheck (opQuota s.dev (x.part) (frontOp s.dev
    ch)) (x.part) x.w = some cause ∧ bdOp x.w = 5) ∧
    (∃ (ch : Nat) (s : State) (cause : _), ((engOf s.dev (ch / 8)).active = some ch ∧ ch % 8 ≠ 7 ∧ cause ≠ 2) ∧ ∃ (x : Desc), (standing (chanOf
    s.dev ch)).head? = some x ∧ x.started = false ∧ bdWeirOk s.dev x.part (bdOp x.w) = true ∧ bdCheck (opQuota s.dev (x.part) (frontOp s.dev
    ch)) (x.part) x.w = some cause ∧ bdOp x.w = 6) ∧
    (∃ (ch : Nat) (s : State) (cause : _), ((engOf s.dev (ch / 8)).active = some ch ∧ ch % 8 ≠ 7 ∧ cause ≠ 2) ∧ ∃ (x : Desc), (standing (chanOf
    s.dev ch)).head? = some x ∧ x.started = false ∧ bdWeirOk s.dev x.part (bdOp x.w) = true ∧ bdCheck (opQuota s.dev (x.part) (frontOp s.dev
    ch)) (x.part) x.w = some cause ∧ bdOp x.w = 7) ∧
    (∃ (ch : Nat) (s : State) (cause : _), ((engOf s.dev (ch / 8)).active = some ch ∧ ch % 8 ≠ 7 ∧ cause ≠ 2) ∧ ∃ (x : Desc), (standing (chanOf
    s.dev ch)).head? = some x ∧ x.started = false ∧ bdWeirOk s.dev x.part (bdOp x.w) = true ∧ bdCheck (opQuota s.dev (x.part) (frontOp s.dev
    ch)) (x.part) x.w = some cause ∧ bdOp x.w = 8) ∧
    (∃ (ch : Nat) (s : State), ((engOf s.dev (ch / 8)).active = some ch ∧ ch % 8 ≠ 7) ∧ ∃ (x : Desc), (standing (chanOf s.dev ch)).head? = some
    x ∧ x.started = false ∧ bdWeirOk s.dev x.part (bdOp x.w) = true ∧ bdCheck (opQuota s.dev (x.part) (frontOp s.dev ch)) (x.part) x.w =
    none ∧ bdOp x.w = 1) ∧
    (∃ (ch : Nat) (s : State), ((engOf s.dev (ch / 8)).active = some ch ∧ ch % 8 ≠ 7) ∧ ∃ (x : Desc), (standing (chanOf s.dev ch)).head? = some
    x ∧ x.started = false ∧ bdWeirOk s.dev x.part (bdOp x.w) = true ∧ bdCheck (opQuota s.dev (x.part) (frontOp s.dev ch)) (x.part) x.w =
    none ∧ bdOp x.w = 2) ∧
    (∃ (ch : Nat) (s : State), ((engOf s.dev (ch / 8)).active = some ch ∧ ch % 8 ≠ 7) ∧ ∃ (x : Desc), (standing (chanOf s.dev ch)).head? = some
    x ∧ x.started = false ∧ bdWeirOk s.dev x.part (bdOp x.w) = true ∧ bdCheck (opQuota s.dev (x.part) (frontOp s.dev ch)) (x.part) x.w =
    none ∧ bdOp x.w = 3) ∧
    (∃ (ch : Nat) (s : State), ((engOf s.dev (ch / 8)).active = some ch ∧ ch % 8 ≠ 7) ∧ ∃ (x : Desc), (standing (chanOf s.dev ch)).head? = some
    x ∧ x.started = false ∧ bdWeirOk s.dev x.part (bdOp x.w) = true ∧ bdCheck (opQuota s.dev (x.part) (frontOp s.dev ch)) (x.part) x.w =
    none ∧ bdOp x.w = 4) ∧
    (∃ (ch : Nat) (s : State), ((engOf s.dev (ch / 8)).active = some ch ∧ ch % 8 ≠ 7) ∧ ∃ (x : Desc), (standing (chanOf s.dev ch)).head? = some
    x ∧ x.started = false ∧ bdWeirOk s.dev x.part (bdOp x.w) = true ∧ bdCheck (opQuota s.dev (x.part) (frontOp s.dev ch)) (x.part) x.w =
    none ∧ bdOp x.w = 5) ∧
    (∃ (ch : Nat) (s : State), ((engOf s.dev (ch / 8)).active = some ch ∧ ch % 8 ≠ 7) ∧ ∃ (x : Desc), (standing (chanOf s.dev ch)).head? = some
    x ∧ x.started = false ∧ bdWeirOk s.dev x.part (bdOp x.w) = true ∧ bdCheck (opQuota s.dev (x.part) (frontOp s.dev ch)) (x.part) x.w =
    none ∧ bdOp x.w = 6) ∧
    (∃ (ch : Nat) (s : State), ((engOf s.dev (ch / 8)).active = some ch ∧ ch % 8 ≠ 7) ∧ ∃ (x : Desc), (standing (chanOf s.dev ch)).head? = some
    x ∧ (x.started = false ∧ bdWeirOk s.dev x.part (bdOp x.w) = true ∧ bdCheck (opQuota s.dev (x.part) (frontOp s.dev ch)) (x.part) x.w =
    none ∧ bdOp x.w = 7 ∧ allocTest s.dev (bdPool x.w) (x.part) (bdLen x.w) = none) ∧ ∃ (is : _) (d : _), takeBufs s.dev (bdPool x.w)
    (x.part) (bdLen x.w) false = (is, d) ∧ True) ∧
    (∃ (ch : Nat) (s : State), ((engOf s.dev (ch / 8)).active = some ch ∧ ch % 8 ≠ 7) ∧ ∃ (x : Desc), (standing (chanOf s.dev ch)).head? = some
    x ∧ (x.started = false ∧ bdWeirOk s.dev x.part (bdOp x.w) = true ∧ bdCheck (opQuota s.dev (x.part) (frontOp s.dev ch)) (x.part) x.w =
    none ∧ bdOp x.w = 8 ∧ poisonAt s.dev (x.part) false (bdSrc x.w) (8 * bdLen x.w) = none) ∧ ∃ (is : _), freeTests (chargeRange s.dev
    (x.part) (bdSrc x.w) (8 * bdLen x.w)) (bdPool x.w) (x.part) [] ((chunks 8 (readRange s.dev (x.part) false (bdSrc x.w) (8 * bdLen
    x.w))).map leNat) = .inl is ∧ True) :=
  ⟨⟨0, bulk (desc0 1), 1, by decide +kernel, wSome (by decide +kernel) (by decide +kernel)⟩,
  ⟨0, bulk (desc0 2), 1, by decide +kernel, wSome (by decide +kernel) (by decide +kernel)⟩,
  ⟨0, bulk (desc0 3), 1, by decide +kernel, wSome (by decide +kernel) (by decide +kernel)⟩,
  ⟨0, bulk (desc0 4), 1, by decide +kernel, wSome (by decide +kernel) (by decide +kernel)⟩,
  ⟨0, bulk (desc0 5), 1, by decide +kernel, wSome (by decide +kernel) (by decide +kernel)⟩,
  ⟨0, bulk (desc0 6), 1, by decide +kernel, wSome (by decide +kernel) (by decide +kernel)⟩,
  ⟨0, bulk (desc0 7), 1, by decide +kernel, wSome (by decide +kernel) (by decide +kernel)⟩,
  ⟨0, bulk (desc0 8), 1, by decide +kernel, wSome (by decide +kernel) (by decide +kernel)⟩,
  ⟨0, bulk (desc0 0x8000000000000000000000000000000000000000000000001), by decide +kernel, wSome (by decide +kernel) (by decide +kernel)⟩,
  ⟨0, bulk (desc0 0x1000000000000000000000000000000000000000000000000002), by decide +kernel, wSome (by decide +kernel) (by decide +kernel)⟩,
  ⟨0, bulk (desc0 0x1000000000000000000000000000000000000000000000000003), by decide +kernel, wSome (by decide +kernel) (by decide +kernel)⟩,
  ⟨0, bulk (desc0 0x1000000000000000000000000000000000000000000000000004), by decide +kernel, wSome (by decide +kernel) (by decide +kernel)⟩,
  ⟨0, bulk (desc0 0x8000000000000000000000000000000000000000000000005), by decide +kernel, wSome (by decide +kernel) (by decide +kernel)⟩,
  ⟨0, bulk (desc0 0x8000000000000000000000000000000000000000000000006), by decide +kernel, wSome (by decide +kernel) (by decide +kernel)⟩,
  ⟨0, bulk (desc0 0x1000000000000000000000000000000000000000000000007), by decide +kernel, wSome (by decide +kernel) ⟨by decide +kernel, wPair
    (trivial)⟩⟩,
  ⟨0, (fun s : State => s.putDev
    { s.dev with cst := { s.dev.cst with pools := [(0, { cfg := 0x0000000000080041, base := BitVec.ofNat 64 cstBase, held := [(0, ⟨0, false⟩)] })] }, mem := { s.dev.mem with dram := [(0x200045, 0x81)] } })
    (bulk (desc0 0x1000000000000000000000000000000400000000000000008)), by decide +kernel, wSome (by decide +kernel) ⟨by decide +kernel,
    wInl (by decide +kernel) (trivial)⟩⟩⟩

theorem witness_SchedulerPlacementComplete :
    (∃ (n : Nat) (pc : Nat) (p : Nat) (s : State) (o : Option QEntry) (d : Dev), (coreOf s.dev n = some pc ∧ coreFree (s.dev.core pc) = true ∧
    (placeOrder s.dev).findSome? (fun p => (taskFor s.dev p n).map fun q => (p, q)) = some (p, o)) ∧ ((∃ q, o = some q ∧ d = loadFresh
    (placed s.dev p) pc p q) ∨ (∃ x, o = none ∧ tget ((placed s.dev p).part p).ctxs n = some x ∧ d = ((placed s.dev p).modPart p fun y =>
    { y with ctxs := tdel y.ctxs n }).modCore pc fun c =>
    { c with task := some x.task, part := p, plane0 := x.plane0, plane1 := x.plane1, acc0 := x.acc0, acc1 := x.acc1 })) ∧ (s.dev.core pc).st
    = .basking) ∧
    (∃ (n : Nat) (pc : Nat) (p : Nat) (s : State) (o : Option QEntry) (d : Dev), (coreOf s.dev n = some pc ∧ coreFree (s.dev.core pc) = true ∧
    (placeOrder s.dev).findSome? (fun p => (taskFor s.dev p n).map fun q => (p, q)) = some (p, o)) ∧ ((∃ q, o = some q ∧ d = loadFresh
    (placed s.dev p) pc p q) ∨ (∃ x, o = none ∧ tget ((placed s.dev p).part p).ctxs n = some x ∧ d = ((placed s.dev p).modPart p fun y =>
    { y with ctxs := tdel y.ctxs n }).modCore pc fun c =>
    { c with task := some x.task, part := p, plane0 := x.plane0, plane1 := x.plane1, acc0 := x.acc0, acc1 := x.acc1 })) ∧ (s.dev.core pc).st
    ≠ .basking) ∧
    (∃ (p : Nat) (i : Nat) (pc : Nat) (s : State) (q : QEntry) (cands : List Nat), ((s.dev.part p).queue[i]? = some q ∧ (s.dev.part p).st =
    .active ∧ mayPreempt s.dev (s.dev.part p).cls = true ∧ eligible s.dev p q = true ∧ (∀ y ∈ s.dev.sched.preempting, ¬ (y.1 = p ∧ y.2.1 =
    q.sub ∧ y.2.2.1 = q.index))) ∧ (pinnedTo s.dev p q = none ∧ firstFree s.dev p = none ∧ cands = (coreSet (s.dev.part p)).filter
    (takesQueued (s.dev.part p)) ∨ ∃ n, pinnedTo s.dev p q = some n ∧ coreFree (lcoreCore s.dev n) = false ∧ cands = [n].filter (takesQueued
    (s.dev.part p))) ∧ victimFor s.dev p cands = some pc) ∧
    (∃ (n : Nat) (s : State), ∃ (pc : Nat), coreOf s.dev n = some pc ∧ ∃ (h : Handover), (s.dev.core pc).handover = some h ∧ ∃ (victim : _),
    victim = (match (s.dev.core pc).task with | some t => h.outPart == some t.part && h.inPart != some t.part | none => false) ∧ ∃ (d : _),
    d = (match h.outPart with | some z => if (s.dev.part z).valid then saveOut s.dev pc n z victim else s.dev | none => s.dev) ∧ ∃ (d1 : _),
    d1 = restoreIn d pc n (h.inPart.filter fun p => bit (d.part p).coreset n) ∧ (d1.sched.preempting.find? fun x => x.2.2.2 == pc) = none) ∧
    (∃ (n : Nat) (s : State), ∃ (pc : Nat), coreOf s.dev n = some pc ∧ ∃ (h : Handover), (s.dev.core pc).handover = some h ∧ ∃ (victim : _),
    victim = (match (s.dev.core pc).task with | some t => h.outPart == some t.part && h.inPart != some t.part | none => false) ∧ ∃ (d : _),
    d = (match h.outPart with | some z => if (s.dev.part z).valid then saveOut s.dev pc n z victim else s.dev | none => s.dev) ∧ ∃ (d1 : _),
    d1 = restoreIn d pc n (h.inPart.filter fun p => bit (d.part p).coreset n) ∧ ∃ (x : _), (d1.sched.preempting.find? fun x => x.2.2.2 ==
    pc) = some x ∧ ∃ (d2 : _), d2 =
    { d1 with sched := { d1.sched with preempting := dropFirst (fun y => y.2.2.2 == pc) d1.sched.preempting } } ∧ ((d2.part x.1).st =
    .active ∧ takesQueued (d2.part x.1) n = true) ∧ ∃ (q : _), ((d2.part x.1).queue.find? fun q => q.sub == x.2.1 && q.index == x.2.2.1) =
    some q ∧ True) ∧
    (∃ (n : Nat) (s : State), bit s.dev.sched.bask 16 = true ∧ ∃ (pc : Nat), coreOf s.dev n = some pc ∧ (s.dev.core pc).st = .idle ∧ (s.dev.core
    pc).handover = none) ∧
    (∃ (n : Nat) (s : State), ∃ (pc : Nat), coreOf s.dev n = some pc ∧ (s.dev.core pc).st = .waking ∧ (s.dev.core pc).recovering = none) ∧
    (∃ (p : Nat) (r : Resource) (s : State), (s.dev.part p).valid = true ∧ weirRateOf (s.dev.part p) (resIdx r) ≠ 0) :=
  ⟨⟨0, 0, 0, line fun d => (d.modPart 0 fun x => { x with queue := [qentry0] }).modCore 0 fun c => { c with st := .basking }, some qentry0,
    loadFresh (placed (line fun d => (d.modPart 0 fun x => { x with queue := [qentry0] }).modCore 0 fun c => { c with st := .basking }).dev
    0) 0 0 qentry0, by decide +kernel, Or.inl ⟨qentry0, rfl, rfl⟩, by decide +kernel⟩,
  ⟨0, 0, 0, line fun d => (d.modPart 0 fun x => { x with queue := [qentry0] }).modCore 0 fun c => { c with st := .idle }, some qentry0,
    loadFresh (placed (line fun d => (d.modPart 0 fun x => { x with queue := [qentry0] }).modCore 0 fun c => { c with st := .idle }).dev 0)
    0 0 qentry0, by decide +kernel, Or.inl ⟨qentry0, rfl, rfl⟩, by decide +kernel⟩,
  ⟨0, 0, 0, dv fun d => ((d.modPart 0 fun _ => { part0 1 [] with queue := [qentry0] }).modPart 1 fun _ =>
    { part0 1 [] with cls := 1 }).modCore 0 fun c => { c with st := .running, holder := some 1, task := some { task0 with part := 1 } },
    qentry0, [0], by decide +kernel, Or.inl (by decide +kernel), by decide +kernel⟩,
  ⟨0, line fun d =>
    { (d.modPart 0 fun x => { x with queue := [qentry0] }).modCore 0 fun c => { c with handover := some ⟨none, some 0⟩ } with sched := { d.sched with preempting := [] } },
    wSome (by decide +kernel) (wSome (by decide +kernel) (wEq (wEq (wEq (by decide +kernel)))))⟩,
  ⟨0, line fun d =>
    { (d.modPart 0 fun x => { x with queue := [qentry0] }).modCore 0 fun c => { c with handover := some ⟨none, some 0⟩ } with sched := { d.sched with preempting := [(0, 1, 0, 0)] } },
    wSome (by decide +kernel) (wSome (by decide +kernel) (wEq (wEq (wEq (wSome (by decide +kernel) (wEq ⟨by decide +kernel, wSome
    (by decide +kernel) (trivial)⟩))))))⟩,
  ⟨0, line id, by decide +kernel, wSome (by decide +kernel) (by decide +kernel)⟩,
  ⟨0, line fun d => d.modCore 0 fun c => { c with st := .waking }, wSome (by decide +kernel) (by decide +kernel)⟩,
  ⟨0, .dram, line fun d => d.modPart 0 fun x => { x with weirRate := 1 }, by decide +kernel⟩⟩

theorem witness_PauseAndResultsComplete :
    (∃ (n : Nat) (s : State), s.dev.pwr.hold = false ∧ ∃ (pc : Nat), coreOf s.dev n = some pc ∧ (s.dev.core pc).st = .running ∧ ∃ (t : Task),
    (s.dev.core pc).task = some t ∧ waitOpen s.dev t = true ∧ t.stopped = none ∧ enginesOpen s.dev t.part = false ∧ (s.dev.part t.part).st ≠
    .pausing) ∧
    (∃ (p : Nat) (s : State), (s.dev.part p).st = .pausing ∧ (s.dev.part p).holding = false ∧ ((s.dev.part p).atBoundary || noTasks s.dev p) =
    true ∧ s.dev.cores.any (recoveringFor p) = false) ∧
    (∃ (p : Nat) (s : State), ((s.dev.part p).st = .pausing ∧ (s.dev.part p).holding = true ∧ coresOf s.dev p = [] ∧ transfersOpen s.dev p =
    false) ∧ ∃ (d : _), d = (s.dev.part p).pauseReq.foldl (fun d r => sendEvent d
    { code := 0x04, mailbox := p + 1, status := sOk, tag := r.1.tag.toNat, data := toLe 8 (s.dev.part p).step.toNat, part := some p, source := srcSched, dest := some (r.1.session, r.2) })
    (s.dev.modPart p fun x => { x with st := .paused, holding := false, pauseReq := [] }) ∧ ∃ (m : _), jobManager d p = some m ∧ True) ∧
    (∃ (p : Nat) (s : State), ((s.dev.part p).st = .pausing ∧ (s.dev.part p).holding = true ∧ coresOf s.dev p = [] ∧ transfersOpen s.dev p =
    false) ∧ ∃ (d : _), d = (s.dev.part p).pauseReq.foldl (fun d r => sendEvent d
    { code := 0x04, mailbox := p + 1, status := sOk, tag := r.1.tag.toNat, data := toLe 8 (s.dev.part p).step.toNat, part := some p, source := srcSched, dest := some (r.1.session, r.2) })
    (s.dev.modPart p fun x => { x with st := .paused, holding := false, pauseReq := [] }) ∧ jobManager d p = none) ∧
    (∃ (mb : Nat) (win : Nat) (s : State), ∃ (w : Window), tget s.dev.host.windows (winIdx mb win) = some w ∧ ∃ (g : Nat) (sub : U32), nextGen w
    = some (g, sub) ∧ ∃ (src : Nat) (len : Nat), tgetD w.src g (0, 0) = (src, len) ∧ ((weirOk s.dev (mb - 1) 0 = true ∨ dramBytes s.dev (mb
    - 1) src len = 0) ∧ okNew s.dev (mb - 1) false src len = true ∧ poisonAt s.dev (mb - 1) false src len = none) ∧ ∃ (sid : Nat) (tag :
    U32) (noevt : Bool), tgetD w.who g (0, 0, true) = (sid, tag, noevt) ∧ True) :=
  ⟨⟨0, tile 0x100000008 (fun t => { t with holding := some 0x100000008 }) id id, by decide +kernel, wSome (by decide +kernel)
    ⟨by decide +kernel, wSome (by decide +kernel) (by decide +kernel)⟩⟩,
  ⟨0, dv fun d => d.modPart 0 fun _ => { part0 1 [] with st := .pausing }, by decide +kernel⟩,
  ⟨0, dv fun d => d.modPart 0 fun _ => { part0 1 [] with st := .pausing, holding := true, job := 1 }, by decide +kernel, wEq (wSome
    (by decide +kernel) (trivial))⟩,
  ⟨0, dv fun d => d.modPart 0 fun _ => { part0 1 [] with st := .pausing, holding := true }, by decide +kernel, wEq (by decide +kernel)⟩,
  ⟨1, 2, line fun d => { d with host := { d.host with windows := [(66, window0)] } }, wSome (by decide +kernel) (wSome2 (by decide +kernel)
    (wPair ⟨by decide +kernel, wTriple (trivial)⟩))⟩⟩

theorem witness_CoreRecoveryCompletes :
    (∃ (pc : Nat) (s : State), (s.dev.pwr.rails = true ∧ (tget s.dev.cores pc).isSome = true ∧ (s.dev.core pc).st ≠ .fused ∧ (s.dev.core pc).st
    ≠ .failed ∧ (s.dev.core pc).lcore = none) ∧ ∃ (d : _), d = (s.dev.modCore pc fun c =>
    { c with st := .failed, lcore := none, holder := none, sram := [], plane0 := {}, plane1 := {}, acc0 := {}, acc1 := {}, task := none, handover := none, recovering := none })
    ∧ True) ∧
    (∃ (pc : Nat) (s : State), (s.dev.pwr.rails = true ∧ (tget s.dev.cores pc).isSome = true ∧ (s.dev.core pc).st ≠ .fused ∧ (s.dev.core pc).st
    ≠ .failed) ∧ ∃ (d : _), d = (s.dev.modCore pc fun c =>
    { c with st := .failed, lcore := none, holder := none, sram := [], plane0 := {}, plane1 := {}, acc0 := {}, acc1 := {}, task := none, handover := none, recovering := none })
    ∧ ∃ (n : _), (s.dev.core pc).lcore = some n ∧ ∃ (t : _), t = (s.dev.core pc).task.map strand ∧ ∃ (o : _), o = (s.dev.core
    pc).recovering.getD pc ∧ ∃ (e : _), e = (match t with | some t => withdrawPushes d t n | none => d) ∧ (e.cores.find? fun x => x.2.st ==
    .spare) = none) ∧
    (∃ (pc : Nat) (s : State), (s.dev.pwr.rails = true ∧ (tget s.dev.cores pc).isSome = true ∧ (s.dev.core pc).st ≠ .fused ∧ (s.dev.core pc).st
    ≠ .failed) ∧ ∃ (d : _), d = (s.dev.modCore pc fun c =>
    { c with st := .failed, lcore := none, holder := none, sram := [], plane0 := {}, plane1 := {}, acc0 := {}, acc1 := {}, task := none, handover := none, recovering := none })
    ∧ ∃ (n : _), (s.dev.core pc).lcore = some n ∧ ∃ (t : _), t = (s.dev.core pc).task.map strand ∧ ∃ (o : _), o = (s.dev.core
    pc).recovering.getD pc ∧ ∃ (e : _), e = (match t with | some t => withdrawPushes d t n | none => d) ∧ ∃ (sp : _) (x : _), (e.cores.find?
    fun x => x.2.st == .spare) = some (sp, x) ∧ ∃ (known : _), known = (e.rec_.running.any fun r => r.cls == 1 && r.unit == o) ∧ ∃ (part :
    _), part = (match t with | some t => some t.part | none => (s.dev.core pc).holder) ∧ True) ∧
    (∃ (pc : Nat) (u : CoreUnit) (s : State), s.dev.pwr.rails = true ∧ ∃ (t : Task), (s.dev.core pc).task = some t ∧ (t.unit u).isEmpty = false) ∧
    (∃ (pc : Nat) (s : State), ((s.dev.core pc).st = .waking ∧ (s.dev.core pc).task = none) ∧ ∃ (o : Nat), (s.dev.core pc).recovering = some o ∧
    ∃ (n : Nat), (s.dev.core pc).lcore = some n ∧ (∀ p, (s.dev.core pc).holder = some p → tgetD (s.dev.part p).viewBad n [] = [])) ∧
    (∃ (pc : Nat) (s : State), ((s.dev.core pc).st = .waking ∧ bit s.dev.sched.recovCfg 16 = true) ∧ ∃ (o : Nat), (s.dev.core pc).recovering =
    some o ∧ ∃ (n : Nat), (s.dev.core pc).lcore = some n ∧ (∀ p, (s.dev.core pc).holder = some p → tgetD (s.dev.part p).viewBad n [] = []) ∧
    ∃ (t : _), (s.dev.core pc).task = some t ∧ (s.dev.core pc).holder = some t.part ∧ t.stopped = none ∧ logHolds t = true) :=
  ⟨⟨32, line id, by decide +kernel, wEq (trivial)⟩,
  ⟨3, line fun d => (d.modCore 32 fun c => { c with st := .failed }).modCore 33 fun c => { c with st := .failed }, by decide +kernel, wEq
    (wSome (by decide +kernel) (wEq (wEq (wEq (by decide +kernel)))))⟩,
  ⟨3, line id, by decide +kernel, wEq (wSome (by decide +kernel) (wEq (wEq (wEq (wSome2 (by decide +kernel) (wEq (wEq (trivial))))))))⟩,
  ⟨0, .loader, tile 1 (fun t => { t with loader := [flying 1] }) id id, by decide +kernel, wSome (by decide +kernel) (by decide +kernel)⟩,
  ⟨0, line fun d => d.modCore 0 fun c => { c with st := .waking, recovering := some 3 }, by decide +kernel, wSome (by decide +kernel) (wSome
    (by decide +kernel) (by decide +kernel))⟩,
  ⟨0, tile 1 id (fun c => { c with st := .waking, recovering := some 3 }) id, by decide +kernel, wSome (by decide +kernel) (wSome
    (by decide +kernel) ⟨by decide +kernel, wSome (by decide +kernel) (by decide +kernel)⟩)⟩⟩

theorem witness_ProbeAndHeartbeatCommandsComplete :
    (∃ (port : Nat) (c : Cell) (s : State) (x : _), c.pay = .mgmt (.probe x) ∧ ∃ (d : Dev), Told false s.dev port c d ∧ True) ∧
    (∃ (port : Nat) (c : Cell) (s : State), c.pay = .mgmt (.probeAnswer c.src) ∧ ∃ (d : Dev), Told false s.dev port c d ∧ (∀ x ∈ d.rec_.probes,
    x.peer ≠ c.src)) ∧
    (∃ (port : Nat) (c : Cell) (s : State), c.pay = .mgmt (.probeAnswer c.src) ∧ ∃ (d : Dev), Told false s.dev port c d ∧ ∃ (x : _),
    (d.rec_.probes.filter fun x => x.peer == c.src) = [x] ∧ ∃ (e : _), e = probesClosed d c.src ∧ ∃ (m : _), x.behalf = some m ∧ True) ∧
    (∃ (port : Nat) (c : Cell) (s : State), c.pay = .mgmt (.probeAnswer c.src) ∧ ∃ (d : Dev), Told false s.dev port c d ∧ ∃ (x : _),
    (d.rec_.probes.filter fun x => x.peer == c.src) = [x] ∧ (x.behalf = none ∧ x.asManager = false) ∧ ∃ (e : _), e = probesClosed d c.src ∧
    True) ∧
    (∃ (port : Nat) (c : Cell) (s : State), c.pay = .mgmt (.probeAnswer c.src) ∧ ∃ (d : Dev), Told false s.dev port c d ∧ role d = 1 ∧ ∃ (x :
    _), (d.rec_.probes.filter fun x => x.peer == c.src) = [x] ∧ (x.behalf = none ∧ x.asManager = true) ∧ ∃ (e : _), e = probesClosed d c.src
    ∧ ∃ (j : _), d.mgr.jobs = [j] ∧ j.launched = false ∧ ∃ (k : _), (jobList d j).findIdx? (· == c.src) = some k ∧ k ≠ 0 ∧ k ∉ j.acked) ∧
    (∃ (port : Nat) (c : Cell) (s : State), c.pay = .mgmt (.probeAnswer c.src) ∧ ∃ (d : Dev), Told false s.dev port c d ∧ (∀ j ∈ d.mgr.jobs,
    j.launched = true) ∧ ∃ (x : _), (d.rec_.probes.filter fun x => x.peer == c.src) = [x] ∧ (x.behalf = none ∧ x.asManager = true) ∧ ∃ (e :
    _), e = probesClosed d c.src ∧ True) ∧
    (∃ (port : Nat) (c : Cell) (s : State) (peer : _), (c.pay = .mgmt (.probeAnswer peer) ∧ c.src ≠ peer) ∧ ∃ (d : Dev), Told false s.dev port c
    d ∧ ∃ (x : _), (d.rec_.probes.filter fun x => x.peer == peer && x.asManager) = [x] ∧ True) ∧
    (∃ (port : Nat) (c : Cell) (s : State) (peer : _), (c.pay = .mgmt (.probeAnswer peer) ∧ c.src ≠ peer) ∧ ∃ (d : Dev), Told false s.dev port c
    d ∧ (∀ x ∈ d.rec_.probes, x.peer = peer → x.asManager = false) ∧ peer ∈ d.rec_.reported ∧ c.src ∈ reportTo d peer) ∧
    (∃ (port : Nat) (c : Cell) (s : State) (peer : _), (c.pay = .mgmt (.probeAnswer peer) ∧ c.src ≠ peer) ∧ ∃ (d : Dev), Told false s.dev port c
    d ∧ (∀ x ∈ d.rec_.probes, x.peer = peer → x.asManager = false) ∧ (peer ∉ d.rec_.reported ∨ c.src ∉ reportTo d peer)) ∧
    (∃ (port : Nat) (c : Cell) (s : State) (x : _), ∃ (d : Dev), Told false s.dev port c d ∧ role d = 1 ∧ ∃ (t : _), t = .silent x ∧ c.pay =
    .mgmt (.faultReport t)) ∧
    (∃ (port : Nat) (c : Cell) (s : State) (x : _), ∃ (d : Dev), Told false s.dev port c d ∧ role d = 1 ∧ ∃ (t : _), t = .dark x ∧ c.pay = .mgmt
    (.faultReport t)) ∧
    (∃ (port : Nat) (c : Cell) (s : State) (x : _), ∃ (d : Dev), Told false s.dev port c d ∧ role d = 1 ∧ ∃ (t : _), t = .selfFault x ∧ c.pay =
    .mgmt (.faultReport t)) ∧
    (∃ (port : Nat) (c : Cell) (s : State) (x : _), ∃ (d : Dev), Told false s.dev port c d ∧ role d = 1 ∧ ∃ (t : _), t = .unanswered x ∧ c.pay =
    .mgmt (.faultReport t)) ∧
    (∃ (port : Nat) (c : Cell) (s : State) (p : _), ∃ (d : Dev), Told false s.dev port c d ∧ role d = 1 ∧ ∃ (t : _), t = .sequencer p ∧ c.pay =
    .mgmt (.faultReport t) ∧ ∃ (j : _), findJob d p = some j ∧ j.launched = true ∧ j.replaying = false) ∧
    (∃ (port : Nat) (c : Cell) (s : State), ∃ (d : Dev), Told false s.dev port c d ∧ role d = 2 ∧ ∃ (t : _), t = .selfFault (peerDev d) ∧ c.pay
    = .mgmt (.faultReport t)) ∧
    (∃ (port : Nat) (c : Cell) (s : State) (t : _), c.pay = .mgmt (.faultReport t) ∧ ∃ (d : Dev), Told false s.dev port c d ∧ role d ≠ 1 ∧ ¬
    (role d = 2 ∧ t = .selfFault (peerDev d))) ∧
    (∃ (port : Nat) (c : Cell) (s : State) (x : _) (p : _) (g : _) (step : _) (seeds : _), c.pay = .mgmt (.snapshotReport x p g step seeds) ∧ ∃
    (d : Dev), Told false s.dev port c d ∧ role d ≠ 0) ∧
    (∃ (port : Nat) (c : Cell) (s : State) (x : _) (p : _) (g : _) (step : _) (seeds : _), c.pay = .mgmt (.snapshotReport x p g step seeds) ∧ ∃
    (d : Dev), Told false s.dev port c d ∧ role d = 0) ∧
    (∃ (port : Nat) (c : Cell) (s : State) (p : _) (g : _) (step : _) (seeds : _) (buddy : _) (lost : _) (spare : _), c.pay = .mgmt
    (.snapshotRestore p g step seeds buddy lost spare) ∧ ∃ (d : Dev), Told false s.dev port c d ∧ trusted d c.src = false) ∧
    (∃ (port : Nat) (c : Cell) (s : State) (p : _) (g : _) (step : _) (seeds : _) (buddy : _) (lost : _) (spare : _), c.pay = .mgmt
    (.snapshotRestore p g step seeds buddy lost spare) ∧ ∃ (d : Dev), Told false s.dev port c d ∧ (trusted d c.src = true ∧ (d.part p).valid
    = true) ∧ ∃ (e : _), e = dropStep (abortAll (rillRestart d p) p none) p ∧ ∃ (head : _), head = ((e.part p).heads.find? fun h => h.gen ==
    g && h.step == step) ∧ ∃ (e1 : _), e1 = setStepSeeds (e.modPart p fun x => { x with heads := head.toList, refill := none }) p step seeds
    ∧ ∃ (b : _), buddy = some b ∧ True) ∧
    (∃ (port : Nat) (c : Cell) (s : State) (p : _) (g : _) (step : _) (seeds : _) (buddy : _) (lost : _) (spare : _), (c.pay = .mgmt
    (.snapshotRestore p g step seeds buddy lost spare) ∧ buddy = none) ∧ ∃ (d : Dev), Told false s.dev port c d ∧ (trusted d c.src = true ∧
    (d.part p).valid = true) ∧ ∃ (e : _), e = dropStep (abortAll (rillRestart d p) p none) p ∧ ∃ (head : _), head = ((e.part p).heads.find?
    fun h => h.gen == g && h.step == step) ∧ ∃ (e1 : _), e1 = setStepSeeds (e.modPart p fun x =>
    { x with heads := head.toList, refill := none }) p step seeds ∧ True) ∧
    (∃ (port : Nat) (c : Cell) (s : State) (p : _) (x : _) (g : _) (step : _) (seeds : _) (crcs : _) (table : _), c.pay = .mgmt (.snapHeader x p
    g step seeds crcs table) ∧ ∃ (d : Dev), Told false s.dev port c d ∧ (jobMembers d p).contains c.src = true) ∧
    (∃ (port : Nat) (c : Cell) (s : State) (p : _) (step : _) (lost : _), c.pay = .mgmt (.snapAsk p step lost) ∧ ∃ (d : Dev), Told false s.dev
    port c d ∧ (jobMembers d p).contains c.src = true ∧ ∃ (m : _), ((d.part p).mirrors.find? fun m => (m.dev == lost || m.dev == c.src) &&
    m.head.step == step) = some m ∧ True) ∧
    (∃ (port : Nat) (c : Cell) (s : State) (p : _) (g : _) (step : _) (seeds : _) (crcs : _) (table : _), c.pay = .mgmt (.snapCopy p g step
    seeds crcs table) ∧ ∃ (d : Dev), Told false s.dev port c d ∧ (jobMembers d p).contains c.src = true ∧ (d.part p).refill = some step) ∧
    (∃ (port : Nat) (c : Cell) (s : State) (x : _), c.pay = .mgmt (.probeRequest x) ∧ ∃ (d : Dev), Told true s.dev port c d ∧ True) ∧
    (∃ (port : Nat) (c : Cell) (s : State), c.pay = .mgmt .heartbeat ∧ ∃ (d : Dev), Told true s.dev port c d ∧ role d ≠ 0 ∧ c.src = peerDev d) ∧
    (∃ (port : Nat) (c : Cell) (s : State) (man : _) (dep : _) (first : _) (n : _), c.pay = .mgmt (.newRoot man dep first n) ∧ ∃ (d : Dev), Told
    true s.dev port c d ∧ True) ∧
    (∃ (s : State), role s.dev ≠ 0 ∧ peerDev s.dev ≠ myId s.dev) ∧
    (∃ (s : State), role s.dev = 2 ∧ s.dev.mgr.active = true) ∧
    (∃ (peer : DevId) (s : State), (∀ x ∈ s.dev.rec_.probes, x.peer ≠ peer)) ∧
    (∃ (peer : DevId) (s : State), ∃ (x : Probe), (s.dev.rec_.probes.filter fun x => x.peer == peer) = [x] ∧ ∃ (d : _), d = probesClosed s.dev
    peer ∧ ∃ (m : _), x.behalf = some m ∧ True) ∧
    (∃ (peer : DevId) (s : State), ∃ (x : Probe), (s.dev.rec_.probes.filter fun x => x.peer == peer) = [x] ∧ (x.behalf = none ∧ x.asManager =
    true) ∧ ∃ (d : _), d = probesClosed s.dev peer ∧ role d = 1) ∧
    (∃ (peer : DevId) (s : State), ∃ (x : Probe), (s.dev.rec_.probes.filter fun x => x.peer == peer) = [x] ∧ (x.behalf = none ∧ x.asManager =
    true) ∧ ∃ (d : _), d = probesClosed s.dev peer ∧ role d = 2 ∧ peer = peerDev d) ∧
    (∃ (peer : DevId) (s : State), ∃ (x : Probe), (s.dev.rec_.probes.filter fun x => x.peer == peer) = [x] ∧ (x.behalf = none ∧ x.asManager =
    false) ∧ ∃ (d : _), d = probesClosed s.dev peer ∧ jobsUnder d peer = [] ∧ reportTo d peer ≠ []) ∧
    (∃ (peer : DevId) (s : State), ∃ (x : Probe), (s.dev.rec_.probes.filter fun x => x.peer == peer) = [x] ∧ (x.behalf = none ∧ x.asManager =
    false) ∧ ∃ (d : _), d = probesClosed s.dev peer ∧ jobsUnder d peer = [] ∧ reportTo d peer = []) :=
  ⟨⟨0, arriving tyMgmt 0 0 (.mgmt (.probe 0)), line id, 0, by decide +kernel, wTold (by decide +kernel) (by decide +kernel) (trivial)⟩,
  ⟨0, arriving tyMgmt 0 0 (.mgmt (.probeAnswer 1)), line id, by decide +kernel, wTold (by decide +kernel) (by decide +kernel)
    (by decide +kernel)⟩,
  ⟨0, arriving tyMgmt 0 0 (.mgmt (.probeAnswer 1)), line (fun d =>
    { d with rec_ := { d.rec_ with probes := [{ peer := 1, since := 0, asManager := false, routes := [], behalf := some 2, askers := [] }] } }),
    by decide +kernel, wTold (by decide +kernel) (by decide +kernel) (wOne (by decide +kernel) (wEq (wSome (by decide +kernel) (trivial))))⟩,
  ⟨0, arriving tyMgmt 0 0 (.mgmt (.probeAnswer 1)), line (fun d =>
    { d with rec_ := { d.rec_ with probes := [{ peer := 1, since := 0, asManager := false, routes := [], behalf := none, askers := [] }] } }),
    by decide +kernel, wTold (by decide +kernel) (by decide +kernel) (wOne (by decide +kernel) ⟨by decide +kernel, wEq (trivial)⟩)⟩,
  ⟨0, arriving tyMgmt 0 0 (.mgmt (.probeAnswer 1)), managing (fun d =>
    { d with rec_ := { d.rec_ with probes := [{ peer := 1, since := 0, asManager := true, routes := [], behalf := none, askers := [] }] } })
    fun j => { j with launched := false }, by decide +kernel, wTold (by decide +kernel) (by decide +kernel) ⟨by decide +kernel, wOne
    (by decide +kernel) ⟨by decide +kernel, wEq (wOne (by decide +kernel) ⟨by decide +kernel, wSome (by decide +kernel)
    (by decide +kernel)⟩)⟩⟩⟩,
  ⟨0, arriving tyMgmt 0 0 (.mgmt (.probeAnswer 1)), managing (fun d =>
    { d with rec_ := { d.rec_ with probes := [{ peer := 1, since := 0, asManager := true, routes := [], behalf := none, askers := [] }] } })
    id, by decide +kernel, wTold (by decide +kernel) (by decide +kernel) ⟨by decide +kernel, wOne (by decide +kernel) ⟨by decide +kernel,
    wEq (trivial)⟩⟩⟩,
  ⟨0, arriving tyMgmt 0 0 (.mgmt (.probeAnswer 5)), line (fun d =>
    { d with rec_ := { d.rec_ with probes := [{ peer := 5, since := 0, asManager := true, routes := [], behalf := none, askers := [] }] } }),
    5, by decide +kernel, wTold (by decide +kernel) (by decide +kernel) (wOne (by decide +kernel) (trivial))⟩,
  ⟨0, arriving tyMgmt 0 0 (.mgmt (.probeAnswer 5)), line fun d =>
    { (d.modPart 0 fun x => { x with job := 0x10000000000000001 }) with rec_ := { d.rec_ with reported := [5] } }, 5, by decide +kernel,
    wTold (by decide +kernel) (by decide +kernel) (by decide +kernel)⟩,
  ⟨0, arriving tyMgmt 0 0 (.mgmt (.probeAnswer 5)), line id, 5, by decide +kernel, wTold (by decide +kernel) (by decide +kernel)
    ⟨by decide +kernel, Or.inl (by decide +kernel)⟩⟩,
  ⟨0, arriving tyMgmt 0 0 (.mgmt (.faultReport (.silent 5))), managing id id, 5, wTold (by decide +kernel) (by decide +kernel)
    ⟨by decide +kernel, wEq (by decide +kernel)⟩⟩,
  ⟨0, arriving tyMgmt 0 0 (.mgmt (.faultReport (.dark 5))), managing id id, 5, wTold (by decide +kernel) (by decide +kernel)
    ⟨by decide +kernel, wEq (by decide +kernel)⟩⟩,
  ⟨0, arriving tyMgmt 0 0 (.mgmt (.faultReport (.selfFault 5))), managing id id, 5, wTold (by decide +kernel) (by decide +kernel)
    ⟨by decide +kernel, wEq (by decide +kernel)⟩⟩,
  ⟨0, arriving tyMgmt 0 0 (.mgmt (.faultReport (.unanswered 5))), managing id id, 5, wTold (by decide +kernel) (by decide +kernel)
    ⟨by decide +kernel, wEq (by decide +kernel)⟩⟩,
  ⟨0, arriving tyMgmt 0 0 (.mgmt (.faultReport (.sequencer 0))), managing id id, 0, wTold (by decide +kernel) (by decide +kernel)
    ⟨by decide +kernel, wEq ⟨by decide +kernel, wSome (by decide +kernel) (by decide +kernel)⟩⟩⟩,
  ⟨0, arriving tyMgmt 0 0 (.mgmt (.faultReport (.selfFault 1))), managing (fun d => { d with mgr := { d.mgr with scm := 0x00011002 } }) id,
    wTold (by decide +kernel) (by decide +kernel) ⟨by decide +kernel, wEq (by decide +kernel)⟩⟩,
  ⟨0, arriving tyMgmt 0 0 (.mgmt (.faultReport (.silent 5))), line id, .silent 5, by decide +kernel, wTold (by decide +kernel)
    (by decide +kernel) (by decide +kernel)⟩,
  ⟨0, arriving tyMgmt 0 0 (.mgmt (.snapshotReport 1 0 1 9 [])), managing id id, 1, 0, 1, 9, [], by decide +kernel, wTold (by decide +kernel)
    (by decide +kernel) (by decide +kernel)⟩,
  ⟨0, arriving tyMgmt 0 0 (.mgmt (.snapshotReport 1 0 1 9 [])), line id, 1, 0, 1, 9, [], by decide +kernel, wTold (by decide +kernel)
    (by decide +kernel) (by decide +kernel)⟩,
  ⟨0, arriving tyMgmt 0 0 (.mgmt (.snapshotRestore 0 1 0 [] none 5 6)), managing (fun d => { d with mgr := { d.mgr with scm := 0x00051002 } })
    id, 0, 1, 0, [], none, 5, 6, by decide +kernel, wTold (by decide +kernel) (by decide +kernel) (by decide +kernel)⟩,
  ⟨0, arriving tyMgmt 0 0 (.mgmt (.snapshotRestore 0 1 0 [] (some 4) 5 6)), line id, 0, 1, 0, [], some 4, 5, 6, by decide +kernel, wTold
    (by decide +kernel) (by decide +kernel) ⟨by decide +kernel, wEq (wEq (wEq (wSome (by decide +kernel) (trivial))))⟩⟩,
  ⟨0, arriving tyMgmt 0 0 (.mgmt (.snapshotRestore 0 1 0 [] none 5 6)), line id, 0, 1, 0, [], none, 5, 6, by decide +kernel, wTold
    (by decide +kernel) (by decide +kernel) ⟨by decide +kernel, wEq (wEq (wEq (trivial)))⟩⟩,
  ⟨0, arriving tyMgmt 0 0 (.mgmt (.snapHeader 1 0 1 9 [] [] [])), managing id id, 0, 1, 1, 9, [], [], [], by decide +kernel, wTold
    (by decide +kernel) (by decide +kernel) (by decide +kernel)⟩,
  ⟨0, arriving tyMgmt 0 0 (.mgmt (.snapAsk 0 9 5)), managing (fun d => d.modPart 0 fun x => { x with mirrors := [⟨5, ⟨1, 9, [], []⟩, []⟩] })
    id, 0, 9, 5, by decide +kernel, wTold (by decide +kernel) (by decide +kernel) ⟨by decide +kernel, wSome (by decide +kernel) (trivial)⟩⟩,
  ⟨0, arriving tyMgmt 0 0 (.mgmt (.snapCopy 0 1 9 [] [] [])), managing (fun d => d.modPart 0 fun x => { x with refill := some 9 }) id, 0, 1,
    9, [], [], [], by decide +kernel, wTold (by decide +kernel) (by decide +kernel) (by decide +kernel)⟩,
  ⟨0, arriving tyMgmt 0 0 (.mgmt (.probeRequest 5)), line id, 5, by decide +kernel, wTold (by decide +kernel) (by decide +kernel) (trivial)⟩,
  ⟨0, arriving tyMgmt 0 0 (.mgmt .heartbeat), managing id id, by decide +kernel, wTold (by decide +kernel) (by decide +kernel)
    (by decide +kernel)⟩,
  ⟨0, arriving tyMgmt 0 0 (.mgmt (.newRoot 3 4 0 16)), line id, 3, 4, 0, 16, by decide +kernel, wTold (by decide +kernel) (by decide +kernel)
    (trivial)⟩,
  ⟨managing id id, by decide +kernel⟩,
  ⟨managing (fun d => { d with mgr := { d.mgr with scm := 0x00011002 } }) id, by decide +kernel⟩,
  ⟨5, line id, by decide +kernel⟩,
  ⟨5, line (fun d =>
    { d with rec_ := { d.rec_ with probes := [{ peer := 5, since := 0, asManager := false, routes := [], behalf := some 2, askers := [] }] } }),
    wOne (by decide +kernel) (wEq (wSome (by decide +kernel) (trivial)))⟩,
  ⟨5, managing (fun d =>
    { d with rec_ := { d.rec_ with probes := [{ peer := 5, since := 0, asManager := true, routes := [], behalf := none, askers := [] }] } })
    id, wOne (by decide +kernel) ⟨by decide +kernel, wEq (by decide +kernel)⟩⟩,
  ⟨1, managing (fun d =>
    { d with mgr := { d.mgr with scm := 0x00011002 }, rec_ := { d.rec_ with probes := [{ peer := 1, since := 0, asManager := true, routes := [], behalf := none, askers := [] }] } })
    id, wOne (by decide +kernel) ⟨by decide +kernel, wEq (by decide +kernel)⟩⟩,
  ⟨5, managing (fun d =>
    { d with rec_ := { d.rec_ with probes := [{ peer := 5, since := 0, asManager := false, routes := [], behalf := none, askers := [] }] } })
    id, wOne (by decide +kernel) ⟨by decide +kernel, wEq (by decide +kernel)⟩⟩,
  ⟨5, line (fun d =>
    { d with rec_ := { d.rec_ with probes := [{ peer := 5, since := 0, asManager := false, routes := [], behalf := none, askers := [] }] } }),
    wOne (by decide +kernel) ⟨by decide +kernel, wEq (by decide +kernel)⟩⟩⟩

theorem witness_ManagerCommandsComplete :
    (∃ (port : Nat) (c : Cell) (s : State) (id : _) (pos : _) (rank : _) (spec : _) (subst : _) (dep : _), (c.pay = .mgmt (.launch id pos rank
    spec subst dep) ∧ pos ≠ 0) ∧ ∃ (d : Dev), Told true s.dev port c d ∧ ∃ (d1 : _), d1 = toChildren d c.src (spawnList (membersOf spec
    subst) c.src) pos (launchMsg id spec subst dep) ∧ launchById d1 id = none ∧ ∃ (d2 : _) (l : _), launchJoin d1 id c.src dep spec subst =
    (d2, l) ∧ True) ∧
    (∃ (port : Nat) (c : Cell) (s : State) (id : _) (subst : _), c.pay = .mgmt (.launchDone id subst) ∧ ∃ (d : Dev), Told true s.dev port c d ∧
    role d ≠ 2 ∧ ∃ (d1 : _), d1 = adopt d id subst ∧ ∃ (l : _), launchById d1 id = some l ∧ True) ∧
    (∃ (port : Nat) (c : Cell) (s : State) (id : _) (subst : _) (st : _), c.pay = .mgmt (.launchAbort id st subst) ∧ ∃ (d : Dev), Told true
    s.dev port c d ∧ role d ≠ 2 ∧ ∃ (d1 : _), d1 = adopt d id subst ∧ ∃ (l : _), launchById d1 id = some l ∧ l.open_ = false) ∧
    (∃ (port : Nat) (c : Cell) (s : State) (id : _), c.pay = .mgmt (.jobFailed id) ∧ ∃ (d : Dev), Told true s.dev port c d ∧ role d ≠ 2 ∧ ∃ (l :
    _), launchById d id = some l ∧ True) ∧
    (∃ (port : Nat) (c : Cell) (s : State) (f : _) (e : _) (rejoin : _), (c.pay = .mgmt (.fence f e rejoin) ∧ rejoin = false) ∧ ∃ (d : Dev),
    Told true s.dev port c d ∧ (role d ≠ 2 ∧ f = myId d) ∧ ∃ (d1 : _), d1 =
    { d with rec_ := { d.rec_ with reported := d.rec_.reported.filter (· != f) } } ∧ True) ∧
    (∃ (port : Nat) (c : Cell) (s : State) (f : _) (e : _) (rejoin : _), (c.pay = .mgmt (.fence f e rejoin) ∧ rejoin = true) ∧ ∃ (d : Dev), Told
    true s.dev port c d ∧ (f ≠ myId d ∧ devRack f = rackNum d) ∧ ∃ (d1 : _), d1 =
    { d with rec_ := { d.rec_ with reported := d.rec_.reported.filter (· != f) } } ∧ True) ∧
    (∃ (port : Nat) (c : Cell) (s : State) (f : _) (e : _) (rejoin : _), (c.pay = .mgmt (.fence f e rejoin) ∧ rejoin = false) ∧ ∃ (d : Dev),
    Told true s.dev port c d ∧ (role d ≠ 2 ∧ f ≠ myId d ∧ devRack f = rackNum d) ∧ ∃ (d1 : _), d1 =
    { d with rec_ := { d.rec_ with reported := d.rec_.reported.filter (· != f) } } ∧ True) ∧
    (∃ (port : Nat) (c : Cell) (s : State) (f : _) (e : _) (rejoin : _), (c.pay = .mgmt (.fence f e rejoin) ∧ rejoin = false) ∧ ∃ (d : Dev),
    Told true s.dev port c d ∧ (role d = 2 ∧ f ≠ myId d ∧ devRack f = rackNum d) ∧ ∃ (d1 : _), d1 =
    { d with rec_ := { d.rec_ with reported := d.rec_.reported.filter (· != f) } } ∧ True) ∧
    (∃ (port : Nat) (c : Cell) (s : State) (f : _) (e : _) (rejoin : _), (c.pay = .mgmt (.fence f e rejoin) ∧ rejoin = false) ∧ ∃ (d : Dev),
    Told true s.dev port c d ∧ (role d ≠ 2 ∧ f ≠ myId d ∧ devRack f ≠ rackNum d) ∧ ∃ (d1 : _), d1 =
    { d with rec_ := { d.rec_ with reported := d.rec_.reported.filter (· != f) } } ∧ True) ∧
    (∃ (port : Nat) (c : Cell) (s : State) (p : _) (subst : _), c.pay = .mgmt (.resume p subst) ∧ ∃ (d : Dev), Told true s.dev port c d ∧ ∃ (l0
    : _), launchOf d p = some l0 ∧ ∃ (d1 : _), d1 = adopt d l0.id subst ∧ ∃ (l : _), launchOf d1 p = some l ∧ True) ∧
    (∃ (port : Nat) (c : Cell) (s : State) (id : _) (pos : _) (st : _), c.pay = .mgmt (.launchAck id pos st) ∧ ∃ (d : Dev), Told false s.dev
    port c d ∧ role d = 1 ∧ findJobId d id = none) ∧
    (∃ (port : Nat) (c : Cell) (s : State) (id : _) (pos : _) (st : _), (c.pay = .mgmt (.launchAck id pos st) ∧ pos ≠ 0 ∧ st = 0) ∧ ∃ (d : Dev),
    Told false s.dev port c d ∧ role d = 1 ∧ ∃ (j : _), findJobId d id = some j ∧ (jobList d j).getD pos 0 = c.src ∧ j.launched = false) ∧
    (∃ (port : Nat) (c : Cell) (s : State) (id : _) (pos : _) (st : _), (c.pay = .mgmt (.launchAck id pos st) ∧ pos ≠ 0 ∧ st ≠ 0) ∧ ∃ (d : Dev),
    Told false s.dev port c d ∧ role d = 1 ∧ ∃ (j : _), findJobId d id = some j ∧ (jobList d j).getD pos 0 = c.src ∧ j.launched = false) ∧
    (∃ (port : Nat) (c : Cell) (s : State) (id : _) (pos : _) (st : _), (c.pay = .mgmt (.launchAck id pos st) ∧ pos ≠ 0 ∧ st = 0) ∧ ∃ (d : Dev),
    Told false s.dev port c d ∧ role d = 1 ∧ ∃ (j : _), findJobId d id = some j ∧ (jobList d j).getD pos 0 = c.src ∧ j.launched = true ∧
    (j.subst.map (·.2)).contains c.src = true ∧ pos ∉ j.acked ∧ j.replaying = false) ∧
    (∃ (port : Nat) (c : Cell) (s : State) (f : _), c.pay = .mgmt (.fenceAck f) ∧ ∃ (d : Dev), Told false s.dev port c d ∧ role d = 1) ∧
    (∃ (port : Nat) (c : Cell) (s : State) (p : _), c.pay = .mgmt (.pauseRequest p) ∧ ∃ (d : Dev), Told false s.dev port c d ∧ role d = 1) ∧
    (∃ (port : Nat) (c : Cell) (s : State) (p : _), c.pay = .mgmt (.resumeRequest p) ∧ ∃ (d : Dev), Told false s.dev port c d ∧ role d = 1) ∧
    (∃ (port : Nat) (c : Cell) (s : State) (p : _), c.pay = .mgmt (.pausedReport p) ∧ ∃ (d : Dev), Told false s.dev port c d ∧ role d = 1) ∧
    (∃ (id : U64) (s : State), role s.dev = 1 ∧ ∃ (j : Job), findJobId s.dev id = some j ∧ j.launched = false) ∧
    (∃ (rack : Nat) (s : State), rack ∈ s.dev.mgr.cooling ∧ ∃ (d : _), d = fenceNext
    { s.dev with mgr := { s.dev.mgr with cooling := dropFirst (· == rack) s.dev.mgr.cooling } } rack ∧ role d ≠ 1) ∧
    (∃ (rack : Nat) (s : State), rack ∈ s.dev.mgr.cooling ∧ ∃ (d : _), d = fenceNext
    { s.dev with mgr := { s.dev.mgr with cooling := dropFirst (· == rack) s.dev.mgr.cooling } } rack ∧ role d = 1) :=
  ⟨⟨0, arriving tyMgmt 0 0 (.mgmt (.launch 7 1 0 [] [] 1)), line id, 7, 1, 0, [], [], 1, by decide +kernel, wTold (by decide +kernel)
    (by decide +kernel) (wEq ⟨by decide +kernel, wPair (trivial)⟩)⟩,
  ⟨0, arriving tyMgmt 0 0 (.mgmt (.launchDone 7 [])), line fun d =>
    { d with mgr := { d.mgr with launches := [⟨7, 0, [], [], true, false, 0, 1, 0, [], 0⟩] } }, 7, [], by decide +kernel, wTold
    (by decide +kernel) (by decide +kernel) ⟨by decide +kernel, wEq (wSome (by decide +kernel) (trivial))⟩⟩,
  ⟨0, arriving tyMgmt 0 0 (.mgmt (.launchAbort 7 2 [])), line fun d =>
    { d with mgr := { d.mgr with launches := [⟨7, 0, [], [], true, false, 0, 1, 0, [], 0⟩] } }, 7, [], 2, by decide +kernel, wTold
    (by decide +kernel) (by decide +kernel) ⟨by decide +kernel, wEq (wSome (by decide +kernel) (by decide +kernel))⟩⟩,
  ⟨0, arriving tyMgmt 0 0 (.mgmt (.jobFailed 7)), line fun d =>
    { d with mgr := { d.mgr with launches := [⟨7, 0, [], [], true, false, 0, 1, 0, [], 0⟩] } }, 7, by decide +kernel, wTold
    (by decide +kernel) (by decide +kernel) ⟨by decide +kernel, wSome (by decide +kernel) (trivial)⟩⟩,
  ⟨0, arriving tyMgmt 0 0 (.mgmt (.fence 0 1 false)), line id, 0, 1, false, by decide +kernel, wTold (by decide +kernel) (by decide +kernel)
    ⟨by decide +kernel, wEq (trivial)⟩⟩,
  ⟨0, arriving tyMgmt 0 0 (.mgmt (.fence 5 1 true)), line id, 5, 1, true, by decide +kernel, wTold (by decide +kernel) (by decide +kernel)
    ⟨by decide +kernel, wEq (trivial)⟩⟩,
  ⟨0, arriving tyMgmt 0 0 (.mgmt (.fence 5 1 false)), line id, 5, 1, false, by decide +kernel, wTold (by decide +kernel) (by decide +kernel)
    ⟨by decide +kernel, wEq (trivial)⟩⟩,
  ⟨0, arriving tyMgmt 0 0 (.mgmt (.fence 5 1 false)), managing (fun d => { d with mgr := { d.mgr with scm := 0x00011002 } }) id, 5, 1, false,
    by decide +kernel, wTold (by decide +kernel) (by decide +kernel) ⟨by decide +kernel, wEq (trivial)⟩⟩,
  ⟨0, arriving tyMgmt 0 0 (.mgmt (.fence 70 1 false)), line id, 70, 1, false, by decide +kernel, wTold (by decide +kernel) (by decide +kernel)
    ⟨by decide +kernel, wEq (trivial)⟩⟩,
  ⟨0, arriving tyMgmt 0 0 (.mgmt (.resume 0 [])), line fun d =>
    { d with mgr := { d.mgr with launches := [⟨7, 0, [], [], true, false, 0, 1, 0, [], 0⟩] } }, 0, [], by decide +kernel, wTold
    (by decide +kernel) (by decide +kernel) (wSome (by decide +kernel) (wEq (wSome (by decide +kernel) (trivial))))⟩,
  ⟨0, arriving tyMgmt 0 0 (.mgmt (.launchAck 8 1 0)), managing id id, 8, 1, 0, by decide +kernel, wTold (by decide +kernel)
    (by decide +kernel) (by decide +kernel)⟩,
  ⟨0, arriving tyMgmt 0 0 (.mgmt (.launchAck 7 1 0)), managing id fun j => { j with launched := false }, 7, 1, 0, by decide +kernel, wTold
    (by decide +kernel) (by decide +kernel) ⟨by decide +kernel, wSome (by decide +kernel) (by decide +kernel)⟩⟩,
  ⟨0, arriving tyMgmt 0 0 (.mgmt (.launchAck 7 1 2)), managing id fun j => { j with launched := false }, 7, 1, 2, by decide +kernel, wTold
    (by decide +kernel) (by decide +kernel) ⟨by decide +kernel, wSome (by decide +kernel) (by decide +kernel)⟩⟩,
  ⟨0, arriving tyMgmt 0 0 (.mgmt (.launchAck 7 1 0)), managing id fun j => { j with launched := true, subst := [(1, 1)] }, 7, 1, 0,
    by decide +kernel, wTold (by decide +kernel) (by decide +kernel) ⟨by decide +kernel, wSome (by decide +kernel) (by decide +kernel)⟩⟩,
  ⟨0, arriving tyMgmt 0 0 (.mgmt (.fenceAck 5)), managing id id, 5, by decide +kernel, wTold (by decide +kernel) (by decide +kernel)
    (by decide +kernel)⟩,
  ⟨0, arriving tyMgmt 0 0 (.mgmt (.pauseRequest 0)), managing id id, 0, by decide +kernel, wTold (by decide +kernel) (by decide +kernel)
    (by decide +kernel)⟩,
  ⟨0, arriving tyMgmt 0 0 (.mgmt (.resumeRequest 0)), managing id id, 0, by decide +kernel, wTold (by decide +kernel) (by decide +kernel)
    (by decide +kernel)⟩,
  ⟨0, arriving tyMgmt 0 0 (.mgmt (.pausedReport 0)), managing id id, 0, by decide +kernel, wTold (by decide +kernel) (by decide +kernel)
    (by decide +kernel)⟩,
  ⟨7, managing id fun j => { j with launched := false }, by decide +kernel, wSome (by decide +kernel) (by decide +kernel)⟩,
  ⟨0, line fun d => { d with mgr := { d.mgr with cooling := [0] } }, by decide +kernel, wEq (by decide +kernel)⟩,
  ⟨0, managing (fun d => { d with mgr := { d.mgr with cooling := [0] } }) id, by decide +kernel, wEq (by decide +kernel)⟩⟩

theorem witness_EthernetCommandsComplete :
    (∃ (s : State) (f : Frame), uhpUp s.dev = true ∧ f.fcsOk = false) ∧
    (∃ (s : State) (f : Frame), (uhpUp s.dev = true ∧ f.fcsOk = true) ∧ (forUs s.fuses.mac f.dst = false ∨ tagsOk s.dev f.tags = false ∨ fld
    s.dev.host.netCfg 37 24 < f.length ∨ f.pauseOrPfc = true)) ∧
    (∃ (s : State) (f : Frame), (uhpUp s.dev = true ∧ f.fcsOk = true ∧ forUs s.fuses.mac f.dst = true ∧ tagsOk s.dev f.tags = true ∧ f.length ≤
    fld s.dev.host.netCfg 37 24 ∧ f.pauseOrPfc = false) ∧ (f.payload = .lldp ∨ f.payload = .other) ∧ ∃ (d : Dev), d = (if f.ce then hostErr
    s.dev 5 1 else s.dev) ∧ True) ∧
    (∃ (s : State) (f : Frame) (ty : _) (rsvd : _) (len : _), (uhpUp s.dev = true ∧ f.fcsOk = true ∧ forUs s.fuses.mac f.dst = true ∧ tagsOk
    s.dev f.tags = true ∧ f.length ≤ fld s.dev.host.netCfg 37 24 ∧ f.pauseOrPfc = false ∧ f.payload = .uhp ty rsvd len) ∧ (ty = 0 ∨ 9 <
    ty.toNat ∨ rsvd = true ∨ 8224 < len.toNat) ∧ ∃ (d : Dev), d = (if f.ce then hostErr s.dev 5 1 else s.dev) ∧ True) ∧
    (∃ (s : State) (f : Frame) (ty : _) (rsvd : _) (len : _), (uhpUp s.dev = true ∧ f.fcsOk = true ∧ forUs s.fuses.mac f.dst = true ∧ tagsOk
    s.dev f.tags = true ∧ f.length ≤ fld s.dev.host.netCfg 37 24 ∧ f.pauseOrPfc = false ∧ f.payload = .uhp ty rsvd len ∧ ty ≠ 0 ∧ ty.toNat ≤
    9 ∧ rsvd = false ∧ len.toNat ≤ 8224) ∧ ∃ (d : Dev), d = (if f.ce then hostErr s.dev 5 1 else s.dev) ∧ True) ∧
    (∃ (s : State) (f : Frame) (n : _) (a : _), (uhpUp s.dev = true ∧ f.fcsOk = true ∧ forUs s.fuses.mac f.dst = true ∧ tagsOk s.dev f.tags =
    true ∧ f.length ≤ fld s.dev.host.netCfg 37 24 ∧ f.pauseOrPfc = false ∧ s.dev.boot.stage = .recovery ∧ s.dev.host.ip6 = none ∧
    s.dev.host.ip6Dup = false ∧ f.payload = .dhcpv6Advertise n a) ∧ ∃ (d : Dev), d = (if f.ce then hostErr s.dev 5 1 else s.dev) ∧ True) ∧
    (∃ (s : State) (f : Frame) (a : _), (uhpUp s.dev = true ∧ f.fcsOk = true ∧ forUs s.fuses.mac f.dst = true ∧ tagsOk s.dev f.tags = true ∧
    f.length ≤ fld s.dev.host.netCfg 37 24 ∧ f.pauseOrPfc = false ∧ s.dev.boot.stage = .recovery ∧ s.dev.host.ip6 = none ∧ s.dev.host.ip6Dup
    = false ∧ f.payload = .dhcpv6Reply a) ∧ ∃ (d : Dev), d = (if f.ce then hostErr s.dev 5 1 else s.dev) ∧ True) ∧
    (∃ (s : State) (target : _), uhpUp s.dev = true ∧ target ∈ ownAddrs s.fuses s.dev) ∧
    (∃ (s : State), uhpUp s.dev = true ∧ s.dev.host.echoSecond = s.dev.time.now / 1000000000 ∧ s.dev.host.echoCount < 100) ∧
    (∃ (s : State) (target : U32), uhpUp s.dev = true ∧ ip4Used s.dev = true ∧ target.toNat = fld s.dev.host.ip4 31 0) ∧
    (∃ (s : State) (f : Frame), uhpUp s.dev = false ∧ (∀ a, f.payload ≠ .neighborAdvertisement a)) ∧
    (∃ (s : State), uhpUp s.dev = false) ∧
    (∃ (s : State), uhpUp s.dev = false) ∧
    (∃ (s : State), (s.dev.host.link = true ∧ s.dev.host.ip6 = none ∧ s.dev.host.ip6Dup = false) ∧ (s.dev.boot.stage = .network ∨
    s.dev.boot.stage = .ready)) ∧
    (∃ (s : State), s.dev.host.link = true) ∧
    (∃ (s : State) (m : PtpMsg) (n : _) (src : _) (x : _), s.dev.host.link = true ∧ s.dev.boot.stage = .ready ∧ bit s.dev.host.ptpCfg 8 = true ∧
    fld s.dev.host.ptpCfg 7 0 = (ptpDomain m).toNat ∧ m = .announce n src x) ∧
    (∃ (s : State) (m : PtpMsg) (n : _) (src : _) (seq : _) (two : _) (t1 : _), (s.dev.host.link = true ∧ s.dev.boot.stage = .ready ∧ bit
    s.dev.host.ptpCfg 8 = true ∧ fld s.dev.host.ptpCfg 7 0 = (ptpDomain m).toNat ∧ m = .sync n src seq two t1 ∧ ptpMaster s.dev = some src)
    ∧ ∃ (d : _), d = { s.dev with time := { s.dev.time with holdover := false } } ∧ True) ∧
    (∃ (s : State) (m : PtpMsg) (n : _) (src : _) (seq : _) (t1 : _) (t2 : _), s.dev.host.link = true ∧ s.dev.boot.stage = .ready ∧ bit
    s.dev.host.ptpCfg 8 = true ∧ fld s.dev.host.ptpCfg 7 0 = (ptpDomain m).toNat ∧ m = .followUp n src seq t1 ∧ ptpMaster s.dev = some src ∧
    s.dev.host.ptp.sync = some (seq, t2)) ∧
    (∃ (s : State) (m : PtpMsg) (n : _) (src : _) (seq : _) (t3 : _) (t4 : _), s.dev.host.link = true ∧ s.dev.boot.stage = .ready ∧ bit
    s.dev.host.ptpCfg 8 = true ∧ fld s.dev.host.ptpCfg 7 0 = (ptpDomain m).toNat ∧ m = .delayResp n src seq t4 ∧ ptpMaster s.dev = some src
    ∧ s.dev.host.ptp.req = some (seq, t3)) ∧
    (∃ (s : State), s.dev.host.link = true ∧ s.dev.boot.stage = .recovery ∧ s.dev.host.ip6 = none) ∧
    (∃ (s : State), s.dev.host.link = false) ∧
    (∃ (s : State), s.dev.host.link = false ∧ (s.dev.boot.stage = .network ∨ s.dev.boot.stage = .ready ∨ s.dev.boot.stage = .recovery ∧
    s.dev.host.ip6.isSome = true) ∧ ∃ (d : _), d = sendFrame (modHost s.dev fun h =>
    { h with link := true, downSince := none, llSince := some s.dev.time.now, llDup := false }) (.neighborSolicitation (linkLocal
    s.fuses.mac)) ∧ True) ∧
    (∃ (s : State), (s.dev.host.link = false ∧ s.dev.boot.stage = .recovery ∧ s.dev.host.ip6 = none) ∧ ∃ (d : _), d = sendFrame (modHost s.dev
    fun h => { h with link := true, downSince := none, llSince := some s.dev.time.now, llDup := false }) (.neighborSolicitation (linkLocal
    s.fuses.mac)) ∧ True) ∧
    (∃ (s : State), s.dev.boot.stage = .ready ∧ bit s.dev.host.ptpCfg 8 = true) :=
  ⟨⟨hostUp id id,
    { dst := State.reset.fuses.mac, tags := [], length := 100, fcsOk := false, pauseOrPfc := false, ce := false, payload := .lldp },
    by decide +kernel⟩,
  ⟨hostUp id id, { dst := 1, tags := [], length := 100, fcsOk := true, pauseOrPfc := false, ce := false, payload := .lldp },
    by decide +kernel, Or.inl (by decide +kernel)⟩,
  ⟨hostUp id id,
    { dst := State.reset.fuses.mac, tags := [], length := 100, fcsOk := true, pauseOrPfc := false, ce := false, payload := .other },
    by decide +kernel, Or.inr rfl, wEq (trivial)⟩,
  ⟨hostUp id id,
    { dst := State.reset.fuses.mac, tags := [], length := 100, fcsOk := true, pauseOrPfc := false, ce := false, payload := .uhp 0 false 64 },
    0, false, 64, by decide +kernel, Or.inl rfl, wEq (trivial)⟩,
  ⟨hostUp id id,
    { dst := State.reset.fuses.mac, tags := [], length := 100, fcsOk := true, pauseOrPfc := false, ce := false, payload := .uhp 3 false 64 },
    3, false, 64, by decide +kernel, wEq (trivial)⟩,
  ⟨hostUp id fun d => { d with boot := { d.boot with stage := .recovery } },
    { dst := State.reset.fuses.mac, tags := [], length := 100, fcsOk := true, pauseOrPfc := false, ce := false, payload := .dhcpv6Advertise 4 9 },
    4, 9, by decide +kernel, wEq (trivial)⟩,
  ⟨hostUp id fun d => { d with boot := { d.boot with stage := .recovery } },
    { dst := State.reset.fuses.mac, tags := [], length := 100, fcsOk := true, pauseOrPfc := false, ce := false, payload := .dhcpv6Reply 9 },
    9, by decide +kernel, wEq (trivial)⟩,
  ⟨hostUp id id, (ownAddrs State.reset.fuses (hostUp id id).dev).headD 0, by decide +kernel⟩,
  ⟨hostUp id fun d => { d with host := { d.host with echoSecond := 2 } }, by decide +kernel⟩,
  ⟨hostUp id fun d => { d with host := { d.host with ip4 := 0x1800000005 } }, 5, by decide +kernel⟩,
  ⟨State.reset,
    { dst := State.reset.fuses.mac, tags := [], length := 100, fcsOk := true, pauseOrPfc := false, ce := false, payload := .other },
    by decide +kernel, fun a h => by cases h⟩,
  ⟨State.reset, by decide +kernel⟩,
  ⟨State.reset, by decide +kernel⟩,
  ⟨hostUp id id, by decide +kernel, Or.inr rfl⟩,
  ⟨hostUp id id, by decide +kernel⟩,
  ⟨hostUp id id, .announce 0 ⟨1, 2⟩ ⟨1, 6, 0, 0, 1, 0, 0⟩, 0, ⟨1, 2⟩, ⟨1, 6, 0, 0, 1, 0, 0⟩, by decide +kernel⟩,
  ⟨hostUp id fun d => { d with host := { d.host with ptp := { masters := [(⟨1, 2⟩, ⟨1, 6, 0, 0, 1, 0, 0⟩)] } } }, .sync 0 ⟨1, 2⟩ 3 false 7, 0,
    ⟨1, 2⟩, 3, false, 7, by decide +kernel, wEq (trivial)⟩,
  ⟨hostUp id fun d => { d with host := { d.host with ptp := { masters := [(⟨1, 2⟩, ⟨1, 6, 0, 0, 1, 0, 0⟩)], sync := some (3, 9) } } },
    .followUp 0 ⟨1, 2⟩ 3 7, 0, ⟨1, 2⟩, 3, 7, 9, by decide +kernel⟩,
  ⟨hostUp id fun d => { d with host := { d.host with ptp := { masters := [(⟨1, 2⟩, ⟨1, 6, 0, 0, 1, 0, 0⟩)], req := some (3, 9) } } },
    .delayResp 0 ⟨1, 2⟩ 3 7, 0, ⟨1, 2⟩, 3, 9, 7, by decide +kernel⟩,
  ⟨hostUp id fun d => { d with boot := { d.boot with stage := .recovery } }, by decide +kernel⟩,
  ⟨State.reset, by decide +kernel⟩,
  ⟨dv fun d => { d with boot := { d.boot with stage := .ready } }, by decide +kernel, Or.inr (Or.inl rfl), wEq (trivial)⟩,
  ⟨dv fun d => { d with boot := { d.boot with stage := .recovery } }, by decide +kernel, wEq (trivial)⟩,
  ⟨hostUp id id, by decide +kernel⟩⟩

theorem witness_SessionCommandsComplete :
    (∃ (m : UhpMsg) (s : State), (uhpUp s.dev = true ∧ forPart s.fuses s.dev m.dst = true ∧ m.rsvd = false ∧ m.ece = false ∧ m.session = 0xFFFF
    ∧ m.seq = 0 ∧ m.ackno = 0 ∧ m.body.length = 16 ∧ m.len = 16 ∧ le m.body 4 4 = 0) ∧ ∃ (c : Dev), c = (if m.ce then hostErr s.dev 5 1 else
    s.dev) ∧ ∃ (x : _), (s.dev.host.hellos.find? (sameHello s.dev m)) = some x ∧ True) ∧
    (∃ (m : UhpMsg) (s : State), (uhpUp s.dev = true ∧ forPart s.fuses s.dev m.dst = true ∧ m.rsvd = false ∧ m.ece = false ∧ m.session = 0xFFFF
    ∧ m.seq = 0 ∧ m.ackno = 0 ∧ m.body.length = 16 ∧ m.len = 16 ∧ le m.body 4 4 = 0 ∧ (s.dev.host.hellos.find? (sameHello s.dev m)) = none ∧
    s.dev.boot.stage = .ready) ∧ ∃ (c : Dev), c = (if m.ce then hostErr s.dev 5 1 else s.dev) ∧ ∃ (u : _), agree [0x12, 0x11, 0x10] (le
    m.body 0 1) (le m.body 1 1) = some u ∧ ∃ (x : _), agree [0x11, 0x10] (le m.body 2 1) (le m.body 3 1) = some x ∧ ∃ (n : _), lowestSession
    s.dev = some n ∧ True) ∧
    (∃ (m : UhpMsg) (s : State), (uhpUp s.dev = true ∧ forPart s.fuses s.dev m.dst = true ∧ m.rsvd = false ∧ m.ece = false ∧ m.session = 0xFFFF
    ∧ m.seq = 0 ∧ m.ackno = 0 ∧ m.body.length = 16 ∧ m.len = 16 ∧ le m.body 4 4 = 0 ∧ (s.dev.host.hellos.find? (sameHello s.dev m)) = none ∧
    s.dev.boot.stage = .ready) ∧ (agree [0x12, 0x11, 0x10] (le m.body 0 1) (le m.body 1 1) = none ∨ agree [0x11, 0x10] (le m.body 2 1) (le
    m.body 3 1) = none) ∧ ∃ (c : Dev), c = (if m.ce then hostErr s.dev 5 1 else s.dev) ∧ True) ∧
    (∃ (m : UhpMsg) (s : State), (uhpUp s.dev = true ∧ forPart s.fuses s.dev m.dst = true ∧ uhpHeaderOk m = true ∧ m.ackno = 0 ∧ m.ece = false)
    ∧ ∃ (x : Session), sessionOf s.dev m = some x ∧ ((m.seq - x.rcvNext).toNat < fld x.cfg 47 32 ∧ (∀ y ∈ x.rcvHeld, y.2.seq ≠ m.seq)) ∧ ∃
    (c : Dev), c = modSession (if m.ce then hostErr s.dev 5 1 else s.dev) x.id (fun y => { y with ceSeen := y.ceSeen || m.ce }) ∧ ∃ (put :
    Nat → Dev), put = (fun ty => noteAck (pumpRx (modSession c x.id fun y => { y with rcvHeld := y.rcvHeld ++ [(ty, m)] }) x.id) x.id) ∧
    True) ∧
    (∃ (m : UhpMsg) (s : State), (uhpUp s.dev = true ∧ forPart s.fuses s.dev m.dst = true ∧ uhpHeaderOk m = true ∧ m.ackno = 0 ∧ m.ece = false)
    ∧ ∃ (x : Session), sessionOf s.dev m = some x ∧ (2 ^ 63 ≤ (m.seq - x.rcvNext).toNat ∨ ∃ y ∈ x.rcvHeld, y.2.seq = m.seq) ∧ ∃ (c : Dev), c
    = modSession (if m.ce then hostErr s.dev 5 1 else s.dev) x.id (fun y => { y with ceSeen := y.ceSeen || m.ce }) ∧ True) ∧
    (∃ (n : Nat) (s : State), ∃ (x : Session), findSession s.dev n = some x ∧ x.unacked ≠ [] ∧ x.stalled = false ∧ (∀ y ∈ x.unacked, y.tries <
    fld x.cfg 19 16)) ∧
    (∃ (n : Nat) (s : State), ∃ (x : Session), findSession s.dev n = some x ∧ x.ackDue = true) ∧
    (∃ (n : Nat) (s : State), ∃ (x : Session), findSession s.dev n = some x ∧ x.stalled = true) ∧
    (∃ (n : Nat) (s : State), ∃ (x : Session), findSession s.dev n = some x ∧ ∃ (k : _), x.key = some k ∧ k.expiry ≠ 0 ∧ k.expiry.toNat ≤
    s.dev.time.now) ∧
    (∃ (m : UhpMsg) (s : State), (uhpUp s.dev = true ∧ forPart s.fuses s.dev m.dst = true ∧ uhpHeaderOk m = true ∧ m.seq = 0 ∧ le m.body 1 7 =
    0) ∧ ∃ (x : Session), sessionOf s.dev m = some x ∧ ∃ (c : Dev), c = (if m.ce then hostErr s.dev 5 1 else s.dev) ∧ ∃ (n : _), n = le
    m.body 0 1 ∧ (n ≤ 16 ∧ m.body.length = 8 + 16 * n) ∧ ∃ (bs : _), bs = (if x.uhp.toNat ≥ 0x11 then (List.range n).map fun i => (le m.body
    (8 + 16 * i) 8, le m.body (16 + 16 * i) 8) else []) ∧ True) ∧
    (∃ (m : UhpMsg) (s : State), (uhpUp s.dev = true ∧ forPart s.fuses s.dev m.dst = true ∧ uhpHeaderOk m = true ∧ m.seq = 0 ∧ m.ackno = 0 ∧
    m.ece = false ∧ m.body.length = 9) ∧ ∃ (x : Session), sessionOf s.dev m = some x ∧ ∃ (c : Dev), c = (if m.ce then hostErr s.dev 5 1 else
    s.dev) ∧ ∃ (u : _), (x.unacked.find? fun u => u.msg.seq.toNat == le m.body 0 8) = some u ∧ True) :=
  ⟨⟨hostMsg 0xFFFF 0 (toLe 16 (packNat [(0, 0x10), (8, 0x12), (16, 0x10), (24, 0x11), (64, 9)])), hostUp id fun d =>
    { d with host := { d.host with hellos := [⟨.v6 5, 7, 9, 2000000000, sent, false⟩] } }, by decide +kernel, wEq (wSome (by decide +kernel)
    (trivial))⟩,
  ⟨hostMsg 0xFFFF 0 (toLe 16 (packNat [(0, 0x10), (8, 0x12), (16, 0x10), (24, 0x11), (64, 9)])), hostUp id id, by decide +kernel, wEq (wSome
    (by decide +kernel) (wSome (by decide +kernel) (wSome (by decide +kernel) (trivial))))⟩,
  ⟨hostMsg 0xFFFF 0 (toLe 16 (packNat [(0, 0x10), (8, 0x12), (16, 0x20), (24, 0x11), (64, 9)])), hostUp id id, by decide +kernel, Or.inr
    (by decide +kernel), wEq (trivial)⟩,
  ⟨hostMsg 0 1 [], hostUp id id, by decide +kernel, wSome (by decide +kernel) ⟨by decide +kernel, wEq (wEq (trivial))⟩⟩,
  ⟨hostMsg 0 0 [], hostUp id id, by decide +kernel, wSome (by decide +kernel) ⟨Or.inl (by decide +kernel), wEq (trivial)⟩⟩,
  ⟨1, hostUp (fun y => { y with unacked := [⟨sent, 0⟩] }) id, wSome (by decide +kernel) (by decide +kernel)⟩,
  ⟨1, hostUp (fun y => { y with ackDue := true }) id, wSome (by decide +kernel) (by decide +kernel)⟩,
  ⟨1, hostUp (fun y => { y with stalled := true }) id, wSome (by decide +kernel) (by decide +kernel)⟩,
  ⟨1, hostUp (fun y => { y with key := some ⟨0, 0, 0, false, false, 1⟩ }) (fun d => { d with time := { d.time with now := 5000000000 } }),
    wSome (by decide +kernel) (wSome (by decide +kernel) (by decide +kernel))⟩,
  ⟨hostMsg 0 0 (List.replicate 8 0), hostUp id id, by decide +kernel, wSome (by decide +kernel) (wEq (wEq ⟨by decide +kernel, wEq
    (trivial)⟩))⟩,
  ⟨hostMsg 0 0 (toLe 9 1), hostUp (fun y => { y with unacked := [⟨sent, 0⟩] }) id, by decide +kernel, wSome (by decide +kernel) (wEq (wSome
    (by decide +kernel) (trivial)))⟩⟩

theorem witness_HostAddressAndPtpRegisters :
    (∃ (s : State) (target : U32), fld s.dev.host.ip4 31 0 ≠ 0 ∧ fld s.dev.host.ip4 37 32 ≠ 0 ∧ target.toNat = fld s.dev.host.ip4 31 0 ∧ uhpUp
    s.dev = true) ∧
    (∃ (s : State) (m : PtpMsg), s.dev.host.link = true ∧ s.dev.boot.stage = .ready ∧ ¬ (bit s.dev.host.ptpCfg 8 = true ∧ fld s.dev.host.ptpCfg
    7 0 = (ptpDomain m).toNat)) ∧
    (∃ (s : State) (m : PtpMsg) (n : _) (src : _) (seq : _) (t1 : _), (s.dev.host.link = true ∧ s.dev.boot.stage = .ready ∧ bit
    s.dev.host.ptpCfg 8 = true ∧ fld s.dev.host.ptpCfg 7 0 = n.toNat ∧ m = .sync n src seq false t1 ∧ ptpMaster s.dev = some src ∧
    s.dev.time.locked = true) ∧ ∃ (w : _), s.dev.host.ptp.delay = some w ∧ True) ∧
    (∃ s : State, fld s.dev.host.ip4 31 0 = 0 ∨ fld s.dev.host.ip4 37 32 = 0) ∧
    (∃ (s : State) (t : State) (x : BitVec 256), s.dev.pwr.rails = true ∧ exec (.registerWrite .hostIp4 5) s = .next t ∧ x = regVal t.fuses
    t.dev .hostIp4) ∧
    (∃ (s : State) (t : State) (x : BitVec 256), s.dev.pwr.rails = true ∧ exec (.registerWrite .hostPtpCfg 5) s = .next t ∧ x = regVal t.fuses
    t.dev .hostPtpCfg) :=
  ⟨⟨hostUp id fun d => { d with host := { d.host with ip4 := 0x1800000005 } }, 5, by decide +kernel⟩,
  ⟨hostUp id id, .sync 5 ⟨1, 2⟩ 3 false 7, by decide +kernel⟩,
  ⟨hostUp id fun d =>
    { d with host := { d.host with ptp := { masters := [(⟨1, 2⟩, ⟨1, 6, 0, 0, 1, 0, 0⟩)], delay := some 4 } }, time := { d.time with locked := true } },
    .sync 0 ⟨1, 2⟩ 3 false 7, 0, ⟨1, 2⟩, 3, 7, by decide +kernel, wSome (by decide +kernel) (trivial)⟩,
  ⟨State.reset, Or.inl rfl⟩,
  ⟨State.reset, _, _, rfl, rfl, rfl⟩,
  ⟨State.reset, _, _, rfl, rfl, rfl⟩⟩

theorem witness_PartitionCommandsComplete :
    (∃ (r : ReqId) (s : State), ∃ (q : Req), Asked s.dev r 0x01 q ∧ ∃ (p : Nat), q.part = p ∧ ∃ (x : Session), findSession s.dev q.id.session =
    some x ∧ ∃ (rec_ : List Byte), openBlob s.fuses s.dev q.body = some rec_ ∧ recordOk s.dev x rec_ (q.body.drop 92) = true) ∧
    (∃ (r : ReqId) (s : State), ∃ (q : Req), Asked s.dev r 0x02 q ∧ ∃ (p : Nat), q.part = p ∧ True) ∧
    (∃ (r : ReqId) (s : State), ∃ (q : Req), Asked s.dev r 0x03 q ∧ ∃ (p : Nat), q.part = p ∧ True) ∧
    (∃ (r : ReqId) (s : State), ∃ (q : Req), Asked s.dev r 0x10 q ∧ ∃ (p : Nat), q.part = p ∧ ∃ (b : _) (d : _), partCreate s.dev p q.body =
    .inr (b, d) ∧ True) ∧
    (∃ (r : ReqId) (s : State), ∃ (q : Req), Asked s.dev r 0x11 q ∧ q.started = false ∧ ∃ (p : Nat), q.part = p ∧ (s.dev.part p).valid = true ∧
    (s.dev.part p).saving = none ∧ destroyReady (beginDestroy (markStarted s.dev q) p) p = true) ∧
    (∃ (r : ReqId) (s : State), ∃ (q : Req), Asked s.dev r 0x12 q ∧ ∃ (p : Nat), q.part = p ∧ (q.started = true ∨ ((s.dev.part p).leaving = 0 ∧
    (s.dev.part p).lowering = none)) ∧ ∃ (d : _), setQuota s.dev p q.body q.started = .done d ∧ True) ∧
    (∃ (r : ReqId) (s : State), ∃ (q : Req), Asked s.dev r 0x13 q ∧ ∃ (p : Nat), q.part = p ∧ (s.dev.part p).valid = true ∧ ∃ (d : _), d =
    setWeir s.dev p (le q.body 0 8) (le q.body 8 8) ∧ True) ∧
    (∃ (r : ReqId) (s : State), ∃ (q : Req), Asked s.dev r 0x20 q ∧ (isUnload q.body = false ∧ le q.body 0 1 = 0 ∧ le q.body 1 7 = 0) ∧ ∃ (p :
    Nat), q.part = p ∧ ∃ (a : _), a = le q.body 8 8 ∧ ∃ (n : _), n = le q.body 16 4 ∧ (a + n ≤ dramTop ∧ okNew s.dev p false a n = true ∧
    poisonAt s.dev p false a n = none) ∧ ∃ (g : _), parseProgram (readRange s.dev p false a n) = (sOk, noCmd, g) ∧ (g.sramUnits ≤ ((lowered
    s.dev p).part p).sramUnits ∧ ((lowered s.dev p).part p).sideUsed + g.pages ≤ ((lowered s.dev p).part p).sideQuota) ∧ ∃ (h : _),
    ((List.range 64).find? fun h => (tget ((lowered s.dev p).part p).progs h).isNone) = some h ∧ True) ∧
    (∃ (r : ReqId) (s : State), ∃ (q : Req), Asked s.dev r 0x20 q ∧ (isUnload q.body = true ∧ le q.body 0 1 = 1 ∧ le q.body 2 6 = 0) ∧ ∃ (p :
    Nat), q.part = p ∧ progInUse s.dev p (le q.body 1 1) = false ∧ ∃ (g : _), tget (s.dev.part p).progs (le q.body 1 1) = some g ∧ True) :=
  ⟨⟨ask0, asked 0 0x01 124 [(0,
    0xdb38cf8b7dc05ca20c5cd7f18f3f85a546b83f5d7d972638c6698f772a7a63983efc429833fdd09a1807f60f2a57d58b1f3a0cabe31d7c61307fbb81e1cb4147f7360c472459e8417be14a4d28b14add8e3506758ef5a2d1742aa637ca036072189df3bad3c54e076e6b604d3d40a7ce000000000000000000000000)]
    id, wAsked (by decide +kernel) (by decide +kernel) (wIs (wSome (by decide +kernel) (wSome (by decide +kernel) (by decide +kernel))))⟩,
  ⟨ask0, asked 0 0x02 0 [] id, wAsked (by decide +kernel) (by decide +kernel) (wIs (trivial))⟩,
  ⟨ask0, asked 0 0x03 0 [] id, wAsked (by decide +kernel) (by decide +kernel) (wIs (trivial))⟩,
  ⟨ask0, asked 0 0x10 64 [(16, 10), (32, 1), (64, 1), (96, 4)] (fun d => { d with parts := [] }), wAsked (by decide +kernel)
    (by decide +kernel) (wIs (wInr2 (by decide +kernel) (trivial)))⟩,
  ⟨ask0, asked 0 0x11 0 [] id, wAsked (by decide +kernel) (by decide +kernel) ⟨by decide +kernel, wIs (by decide +kernel)⟩⟩,
  ⟨ask0, asked 0 0x12 32 [(0, 1), (32, 16), (64, 67), (128, 64)] id, wAsked (by decide +kernel) (by decide +kernel) (wIs ⟨by decide +kernel,
    wDone (by decide +kernel) (trivial)⟩)⟩,
  ⟨ask0, asked 0 0x13 17 [(128, 1)] id, wAsked (by decide +kernel) (by decide +kernel) (wIs ⟨by decide +kernel, wEq (trivial)⟩)⟩,
  ⟨ask1, asked 1 0x20 20 [(128, 96)] (imaged), wAsked (by decide +kernel) (by decide +kernel) ⟨by decide +kernel, wIs (wEq (wEq
    ⟨by decide +kernel, wOkProg (by decide +kernel) ⟨by decide +kernel, wSome (by decide +kernel) (trivial)⟩⟩))⟩⟩,
  ⟨ask1, asked 1 0x20 20 [(0, 1)] id, wAsked (by decide +kernel) (by decide +kernel) ⟨by decide +kernel, wIs ⟨by decide +kernel, wSome
    (by decide +kernel) (trivial)⟩⟩⟩⟩

theorem witness_SubmissionCommandsComplete :
    (∃ (r : ReqId) (s : State), ∃ (q : Req), Asked s.dev r 0x21 q ∧ (q.started = false ∧ le q.body 20 4 = 0) ∧ ∃ (p : Nat), q.part = p ∧
    ((s.dev.part p).st ≠ .destroying ∧ launchShut s.dev p = false ∧ (s.dev.part p).heldSubs = [] ∧ submitWindow s.dev p q.id.mailbox q.body
    = some none) ∧ ∃ (id : _), id = BitVec.ofNat 32 (le q.body 0 4) ∧ (∀ y ∈ (s.dev.part p).subs, y.id ≠ id) ∧ ∃ (ws : List (BitVec 512)),
    submitEntries s.dev p q.body = .inr ws ∧ ∃ (e : _), e = (if le q.body 24 8 = 0 then s.dev else touched s.dev p (le q.body 24 8) (64 * le
    q.body 4 2)) ∧ (ws.findIdx? fun w => !entryFieldsOk e p id.toNat w) = none ∧ ∃ (d : _), d = (e.modPart p fun x =>
    { x with remembered := x.remembered.filter (· != id) }) ∧ (d.part p).heldSubs = [] ∧ (d.part p).queue.length + ws.length ≤ 256) ∧
    (∃ (r : ReqId) (s : State), ∃ (q : Req), Asked s.dev r 0x22 q ∧ q.started = false ∧ ∃ (p : Nat), q.part = p ∧ ∃ (id : _), id = BitVec.ofNat
    32 (le q.body 0 4) ∧ ∃ (x : _), findSub (takeHeld s.dev p id) p id = some x ∧ x.aborting = false) ∧
    (∃ (r : ReqId) (s : State), ∃ (q : Req), Asked s.dev r 0x23 q ∧ ∃ (p : Nat), q.part = p ∧ (s.dev.part p).st = .active ∧ ∃ (d : _), d =
    ((accept s.dev q).modPart p fun x => { x with pauseReq := x.pauseReq ++ [(q.id, q.noevt)] }) ∧ jobManager d p = none) ∧
    (∃ (r : ReqId) (s : State), ∃ (q : Req), Asked s.dev r 0x24 q ∧ ∃ (p : Nat), q.part = p ∧ ((s.dev.part p).st = .paused ∧ (s.dev.part
    p).saving = none) ∧ ∃ (d : _), d = ((accept s.dev q).modPart p fun x => { x with resumeReq := x.resumeReq ++ [(q.id, q.noevt)] }) ∧
    jobManager d p = none) ∧
    (∃ (r : ReqId) (s : State), ∃ (q : Req), Asked s.dev r 0x25 q ∧ (le q.body 0 1 = 0 ∧ le q.body 1 1 = 0) ∧ ∃ (p : Nat), q.part = p ∧ (mayHold
    s.dev p = true ∧ imageLoss s.dev p = none) ∧ ∃ (d : _), d = touched s.dev p 0 ((s.dev.part p).pages.length * pageSize) ∧ (imageOf s.dev
    p).length ≤ blockSize * blocksFrom ((lowered d p).part p) (le q.body 4 4)) ∧
    (∃ (r : ReqId) (s : State), ∃ (q : Req), Asked s.dev r 0x26 q ∧ (le q.body 0 1 = 0 ∧ le q.body 1 1 = 0) ∧ ∃ (p : Nat), q.part = p ∧
    mayRestore s.dev p = true ∧ weirOk s.dev p 1 = true) ∧
    (∃ (p : Nat) (s : State), weirOk s.dev p 1 = true ∧ ∃ (v : Saving), (s.dev.part p).saving = some v ∧ v.toHost = false) :=
  ⟨⟨ask1, asked 1 0x21 96 [(0, 9), (32, 1), (48, 0xFFFF), (288, 9)] (fun d => d.modPart 0 fun x =>
    { x with progs := [(0, { cmds := [0x3F], tasks := [{ start := 0, count := 1, pinned := false, lcore := 0 }], sramUnits := 1, pages := 1 })] }),
    wAsked (by decide +kernel) (by decide +kernel) ⟨by decide +kernel, wIs ⟨by decide +kernel, wEq ⟨by decide +kernel, wInr
    (by decide +kernel) (wEq ⟨by decide +kernel, wEq (by decide +kernel)⟩)⟩⟩⟩⟩,
  ⟨ask1, asked 1 0x22 4 [(0, 9)] (fun d => d.modPart 0 fun x => { x with subs := [sub0] }), wAsked (by decide +kernel) (by decide +kernel)
    ⟨by decide +kernel, wIs (wEq (wSome (by decide +kernel) (by decide +kernel)))⟩⟩,
  ⟨ask1, asked 1 0x23 0 [] id, wAsked (by decide +kernel) (by decide +kernel) (wIs ⟨by decide +kernel, wEq (by decide +kernel)⟩)⟩,
  ⟨ask1, asked 1 0x24 0 [] (fun d => d.modPart 0 fun x => { x with st := .paused }), wAsked (by decide +kernel) (by decide +kernel) (wIs
    ⟨by decide +kernel, wEq (by decide +kernel)⟩)⟩,
  ⟨ask1, asked 1 0x25 8 [] (fun d => d.modPart 0 fun x => { x with st := .paused, pages := [], flash := [3], coreset := 0 }), wAsked
    (by decide +kernel) (by decide +kernel) ⟨by decide +kernel, wIs ⟨by decide +kernel, wEq (image_fits (by decide +kernel))⟩⟩⟩,
  ⟨ask1, asked 1 0x26 8 [] (fun d => d.modPart 0 fun x => { x with st := .paused, progs := [], flash := [3] }), wAsked (by decide +kernel)
    (by decide +kernel) ⟨by decide +kernel, wIs (by decide +kernel)⟩⟩,
  ⟨0, line fun d => d.modPart 0 fun x => { x with flash := [3], saving := some ⟨ask1, false, false, 0, [7], false⟩ }, by decide +kernel, wSome
    (by decide +kernel) (by decide +kernel)⟩⟩

theorem witness_TableCommandsComplete :
    (∃ (r : ReqId) (s : State), ∃ (q : Req), Asked s.dev r 0x30 q ∧ (isUnmap q.body = false ∧ le q.body 1 1 ≤ 7 ∧ le q.body 4 4 = 0 ∧ le q.body
    20 4 = 0) ∧ ∃ (p : Nat), q.part = p ∧ ∃ (ver : _), ver = ((findSession s.dev q.id.session).map (·.mbox.toNat)).getD 0x10 ∧ ∃ (w : _),
    newWindow s.dev ver q.id.mailbox q.body = .inr w ∧ ∃ (n : _), ((List.range 64).find? fun n => (tget s.dev.host.windows (winIdx
    q.id.mailbox n)).isNone) = some n ∧ True) ∧
    (∃ (r : ReqId) (s : State), ∃ (q : Req), Asked s.dev r 0x30 q ∧ (isUnmap q.body = true ∧ le q.body 2 2 < 64 ∧ le q.body 1 1 ≤ 7 ∧ le q.body
    4 4 = 0 ∧ le q.body 20 4 = 0) ∧ ∃ (p : Nat), q.part = p ∧ ∃ (k : _), k = winIdx q.id.mailbox (le q.body 2 2) ∧ ∃ (w : _), tget
    s.dev.host.windows k = some w ∧ winBusy s.dev k w = false) ∧
    (∃ (r : ReqId) (s : State), ∃ (q : Req), Asked s.dev r 0x31 q ∧ (le q.body 2 2 = 0 ∧ le q.body 12 4 ≤ 8176) ∧ ∃ (p : Nat), q.part = p ∧ ∃ (k
    : _) (w : Window), resultWin s.dev q = some (k, w) ∧ le q.body 8 4 + le q.body 12 4 ≤ w.len ∧ ∃ (g : _), g = le q.body 4 4 ∧ ∃ (e : _),
    tget w.gens g = some (.published e) ∧ s.dev.time.now < e) ∧
    (∃ (r : ReqId) (s : State), ∃ (q : Req), Asked s.dev r 0x32 q ∧ le q.body 2 2 = 0 ∧ ∃ (p : Nat), q.part = p ∧ ∃ (k : _) (w : Window),
    resultWin s.dev q = some (k, w) ∧ ∃ (g : _), g = le q.body 4 4 ∧ ∃ (e : _), tget w.gens g = some (.published e) ∧ s.dev.time.now < e) ∧
    (∃ (r : ReqId) (s : State), ∃ (q : Req), Asked s.dev r 0x40 q ∧ le q.body 1 7 = 0 ∧ ∃ (p : Nat), q.part = p ∧ (∀ g ∈ s.dev.gate.steps,
    g.part = p → g.slot = le q.body 0 1 → g.closed = true ∧ g.granted = true) ∧ ∃ (x : BitVec 2048), x = BitVec.ofNat 2048 (leNat
    (q.body.drop 8)) ∧ gdFails s.dev p x = none) ∧
    (∃ (r : ReqId) (s : State) (d : _) (bs : _), ∃ (q : Req), Asked s.dev r 0x41 q ∧ le q.body 12 4 = 0 ∧ ∃ (p : Nat), q.part = p ∧ ∃ (n : _), n
    = le q.body 10 2 ∧ (n ≠ 0 ∧ n ≤ 16384) ∧ ∃ (a : _), a = le q.body 0 8 + 16 * le q.body 8 2 ∧ (okNew s.dev p false a (16 * n) = true ∧ (∀
    e ∈ (chunks 16 bs).mapIdx fun i e => (a + 16 * i, e), nullEntry d p e.1 = true ∨ eptEntryOk (BitVec.ofNat 128 (leNat e.2)) = true)) ∧ ∃
    (src : _), src = le q.body 16 8 ∧ (src = 0 ∧ le q.body 24 8 = 0 ∧ d = s.dev ∧ bs = q.body.drop 32 ∨ src ≠ 0 ∧ src + 16 * n ≤ dramTop ∧
    okNew s.dev p false src (16 * n) = true ∧ poisonAt s.dev p false src (16 * n) = none ∧ d = touched s.dev p src (16 * n) ∧ bs = readRange
    d p false src (16 * n))) ∧
    (∃ (r : ReqId) (s : State), ∃ (q : Req), Asked s.dev r 0x42 q ∧ (isDelete q.body = false ∧ le q.body 1 1 < 4 ∧ le q.body 14 2 = 0 ∧
    commSizesOk q.body = true) ∧ ∃ (p : Nat), q.part = p ∧ ∃ (cm : _), cm = commRecord q.body ∧ (okNew s.dev p false (cmMembers cm) (2 * cmN
    cm) = true ∧ poisonAt s.dev p false (cmMembers cm) (2 * cmN cm) = none) ∧ ∃ (d : _), d = touched s.dev p (cmMembers cm) (2 * cmN cm) ∧
    commBusy d p (le q.body 0 1) = false ∧ ∃ (ms : _), ms = memberTable d p cm ∧ commTableOk d cm ms = true) ∧
    (∃ (r : ReqId) (s : State), ∃ (q : Req), Asked s.dev r 0x42 q ∧ (isDelete q.body = true ∧ le q.body 1 1 < 4 ∧ le q.body 14 2 = 0) ∧ ∃ (p :
    Nat), q.part = p ∧ commBusy s.dev p (le q.body 0 1) = false) ∧
    (∃ (r : ReqId) (s : State), ∃ (q : Req), Asked s.dev r 0x50 q ∧ ∃ (p : Nat), q.part = p ∧ quiet s.dev p = true) ∧
    (∃ (r : ReqId) (s : State), ∃ (q : Req), Asked s.dev r 0x51 q ∧ (le q.body 0 1 < 16 ∧ le q.body 1 7 = 0) ∧ ∃ (p : Nat), q.part = p ∧ quiet
    s.dev p = true ∧ ∃ (put : Tbl U64 → Nat → Tbl U64), put = (fun t i => if (le q.body 0 1).testBit i then tput t i (BitVec.ofNat 64 (le
    q.body (8 + 8 * i) 8)) else t) ∧ True) ∧
    (∃ (r : ReqId) (s : State), ∃ (q : Req), Asked s.dev r 0x52 q ∧ le q.body 20 4 ≤ 254 ∧ ∃ (p : Nat), q.part = p ∧ ∃ (log : _), log =
    (s.dev.part p).dlog ∧ ∃ (total : _), total = (s.dev.part p).dlogWritten.toNat ∧ le q.body 16 4 ≤ total ∧ ∃ (kept : _), kept = min (total
    - le q.body 16 4) log.length ∧ ∃ (all : _), all = (log.drop (log.length - kept)).mapIdx (fun i e => (i, e)) ∧ True) :=
  ⟨⟨ask1, asked 1 0x30 32 [(192, 64)] id, wAsked (by decide +kernel) (by decide +kernel) ⟨by decide +kernel, wIs (wEq (wInr (by decide +kernel)
    (wSome (by decide +kernel) (trivial))))⟩⟩,
  ⟨ask1, asked 1 0x30 32 [(0, 256)] (fun d =>
    { d with host := { d.host with windows := [(64, { window0 with kind := .data, gens := [], src := [] })] } }), wAsked (by decide +kernel)
    (by decide +kernel) ⟨by decide +kernel, wIs (wEq (wSome (by decide +kernel) (by decide +kernel)))⟩⟩,
  ⟨ask1, asked 1 0x31 16 [(32, 1), (96, 8)] (fun d =>
    { d with host := { d.host with windows := [(64, { window0 with kind := .result, gens := [(1, .published 3000000000)] })] } }), wAsked
    (by decide +kernel) (by decide +kernel) ⟨by decide +kernel, wIs (wSome2 (by decide +kernel) ⟨by decide +kernel, wEq (wPub
    (by decide +kernel) (by decide +kernel))⟩)⟩⟩,
  ⟨ask1, asked 1 0x32 8 [(32, 1)] (fun d =>
    { d with host := { d.host with windows := [(64, { window0 with kind := .result, gens := [(1, .published 3000000000)] })] } }), wAsked
    (by decide +kernel) (by decide +kernel) ⟨by decide +kernel, wIs (wSome2 (by decide +kernel) (wEq (wPub (by decide +kernel)
    (by decide +kernel))))⟩⟩,
  ⟨ask1, asked 1 0x40 264 [(64, 1), (80, 1), (96, 1), (112, 1), (120, 1), (160, 1), (176, 1), (224, 1), (240, 1), (288, 1)] id, wAsked
    (by decide +kernel) (by decide +kernel) ⟨by decide +kernel, wIs ⟨by decide +kernel, wEq (by decide +kernel)⟩⟩⟩,
  ⟨ask1, asked 1 0x41 48 [(80, 1)] id, (asked 1 0x41 48 [(80, 1)] id).dev, (toLe 48 (packNat [(80, 1)])).drop 32, wAsked (by decide +kernel)
    (by decide +kernel) ⟨by decide +kernel, wIs (wEq ⟨by decide +kernel, wEq ⟨by decide +kernel, wEq (Or.inl ⟨by decide +kernel,
    by decide +kernel, rfl, by decide +kernel⟩)⟩⟩)⟩⟩,
  ⟨ask1, asked 1 0x42 24 [(16, 1), (24, 1), (32, 1)] id, wAsked (by decide +kernel) (by decide +kernel) ⟨by decide +kernel, wIs (wEq
    ⟨by decide +kernel, wEq ⟨by decide +kernel, wEq (by decide +kernel)⟩⟩)⟩⟩,
  ⟨ask1, asked 1 0x42 24 [(8, 1)] id, wAsked (by decide +kernel) (by decide +kernel) ⟨by decide +kernel, wIs (by decide +kernel)⟩⟩,
  ⟨ask1, asked 1 0x50 8 [(0, 5)] id, wAsked (by decide +kernel) (by decide +kernel) (wIs (by decide +kernel))⟩,
  ⟨ask1, asked 1 0x51 40 [(0, 1), (64, 5)] id, wAsked (by decide +kernel) (by decide +kernel) ⟨by decide +kernel, wIs ⟨by decide +kernel, wEq
    (trivial)⟩⟩⟩,
  ⟨ask1, asked 1 0x52 24 [] id, wAsked (by decide +kernel) (by decide +kernel) ⟨by decide +kernel, wIs (wEq (wEq ⟨by decide +kernel, wEq (wEq
    (trivial))⟩))⟩⟩⟩

theorem witness_ServiceCommandsComplete :
    (∃ (r : ReqId) (s : State), ∃ (q : Req), Asked s.dev r 0x60 q ∧ le q.body 8 4 ≤ 254) ∧
    (∃ (r : ReqId) (s : State), ∃ (q : Req), Asked s.dev r 0x61 q ∧ le q.body 0 4 < 512) ∧
    (∃ (r : ReqId) (s : State), s.dev.boot.commit = none ∧ ∃ (q : Req), Asked s.dev r 0x70 q ∧ (le q.body 0 2 < 64 ∧ le q.body 2 2 = 0) ∧ ∃ (w :
    _), tget s.dev.host.windows (winIdx 0 (le q.body 0 2)) = some w ∧ (w.kind = .firmware ∧ le q.body 4 4 ≤ w.len) ∧ ∃ (img : _), img =
    mread (tgetD s.dev.host.staging (winIdx 0 (le q.body 0 2)) []) 0 (le q.body 4 4) ∧ True) ∧
    (∃ (r : ReqId) (s : State), (s.dev.boot.commit = none ∧ s.dev.boot.dramDefect = false) ∧ ∃ (q : Req), Asked s.dev r 0x71 q ∧ (q.started =
    false ∧ le q.body 4 1 ≤ 1 ∧ commitResets s.dev q = false) ∧ ∃ (x : _), s.dev.boot.staged = some x ∧ x.version.toNat = le q.body 0 4 ∧ ∃
    (d : _), d = { s.dev with boot := { s.dev.boot with commit := some (q, x) } } ∧ True) ∧
    (∃ (r : ReqId) (s : State), (s.dev.boot.commit = none ∧ s.dev.boot.dramDefect = false ∧ s.dev.parts.any (fun p => p.2.valid) = false) ∧ ∃ (q
    : Req), Asked s.dev r 0x71 q ∧ (q.started = false ∧ le q.body 4 1 ≤ 1 ∧ commitResets s.dev q = true) ∧ ∃ (x : _), s.dev.boot.staged =
    some x ∧ x.version.toNat = le q.body 0 4 ∧ ∃ (d : _), d = { s.dev with boot := { s.dev.boot with commit := some (q, x) } } ∧ True) ∧
    (∃ (r : ReqId) (s : State), ∃ (q : Req) (x : _), s.dev.boot.commit = some (q, x) ∧ q.id = r ∧ ∃ (d : _), d =
    { s.dev with boot := { s.dev.boot with commit := none } } ∧ commitResets d q = false) ∧
    (∃ (r : ReqId) (s : State), ∃ (q : Req) (x : _), s.dev.boot.commit = some (q, x) ∧ q.id = r ∧ ∃ (d : _), d =
    { s.dev with boot := { s.dev.boot with commit := none } } ∧ commitResets d q = true) ∧
    (∃ (r : ReqId) (s : State), ∃ (q : Req), Asked s.dev r 0x72 q ∧ le q.body 32 2 < 64 ∧ ∃ (w : _), tget s.dev.host.windows (winIdx 0 (le
    q.body 32 2)) = some w ∧ w.kind = .host ∧ ∃ (blob : _), blob = logBlob s.fuses s.dev.boot ∧ blob.length + 2828 ≤ w.len ∧ ∃ (leaf : _) (t
    : _), takeLeaf s = some (leaf, t) ∧ True) ∧
    (∃ (r : ReqId) (s : State), ∃ (q : Req), Asked s.dev r 0x80 q ∧ le q.body 3 1 = 0 ∧ ∃ (role : Nat), role = le q.body 0 1 ∧ ∃ (first : Nat),
    first = le q.body 1 1 ∧ ∃ (n : Nat), n = le q.body 2 1 ∧ ∃ (peer : DevId), peer = BitVec.ofNat 16 (le q.body 4 2) ∧ roleOk s.dev role
    first n peer = true) ∧
    (∃ (r : ReqId) (s : State), isManager s.dev = true ∧ ∃ (q : Req), Asked s.dev r 0x81 q ∧ le q.body 12 4 = 0 ∧ specOk s.dev (BitVec.ofNat 64
    (le q.body 0 8)) (q.body.drop 16) = true) ∧
    (∃ (r : ReqId) (s : State), isManager s.dev = true ∧ ∃ (q : Req), Asked s.dev r 0x82 q ∧ q.started = false ∧ inBlock s.dev (fdDev q.body) =
    true ∧ le q.body 2 1 = 0) ∧
    (∃ (r : ReqId) (s : State), isManager s.dev = true ∧ ∃ (q : Req), Asked s.dev r 0x82 q ∧ q.started = false ∧ inBlock s.dev (fdDev q.body) =
    true ∧ le q.body 2 1 = 1) ∧
    (∃ (r : ReqId) (s : State), ∃ (q : Req), Asked s.dev r 0xF0 q ∧ regRangeOk q.body = true) ∧
    (∃ (r : ReqId) (s : State), ∃ (q : Req), Asked s.dev r 0xF1 q ∧ regRangeOk q.body = true ∧ q.body.length = 16 + 8 * le q.body 8 2) :=
  ⟨⟨ask0, asked 0 0x60 12 [] id, wAsked (by decide +kernel) (by decide +kernel) (by decide +kernel)⟩,
  ⟨ask0, asked 0 0x61 4 [(0, 1)] id, wAsked (by decide +kernel) (by decide +kernel) (by decide +kernel)⟩,
  ⟨ask0, asked 0 0x70 8 [] (fun d =>
    { d with host := { d.host with windows := [(0, { window0 with kind := .firmware, len := 1048576, gens := [] })] } }), by decide +kernel,
    wAsked (by decide +kernel) (by decide +kernel) ⟨by decide +kernel, wSome (by decide +kernel) ⟨by decide +kernel, wEq (trivial)⟩⟩⟩,
  ⟨ask0, asked 0 0x71 5 [(0, 5)] (fun d => { d with boot := { d.boot with staged := some ⟨5, 0, []⟩ } }), by decide +kernel, wAsked
    (by decide +kernel) (by decide +kernel) ⟨by decide +kernel, wSome (by decide +kernel) ⟨by decide +kernel, wEq (trivial)⟩⟩⟩,
  ⟨ask0, asked 0 0x71 5 [(0, 5), (32, 1)] (fun d => { d with boot := { d.boot with staged := some ⟨5, 0, []⟩ }, parts := [] }),
    by decide +kernel, wAsked (by decide +kernel) (by decide +kernel) ⟨by decide +kernel, wSome (by decide +kernel) ⟨by decide +kernel, wEq
    (trivial)⟩⟩⟩,
  ⟨ask0, dv fun d => { d with boot := { d.boot with commit := some (⟨ask0, 0, 0x71, 0, false, toLe 5 5, true, false⟩, ⟨5, 0, []⟩) } }, wSome2
    (by decide +kernel) ⟨by decide +kernel, wEq (by decide +kernel)⟩⟩,
  ⟨ask0, dv fun d =>
    { d with boot := { d.boot with commit := some (⟨ask0, 0, 0x71, 0, false, toLe 5 4294967301, true, false⟩, ⟨5, 0, []⟩) } }, wSome2
    (by decide +kernel) ⟨by decide +kernel, wEq (by decide +kernel)⟩⟩,
  ⟨ask0, asked 0 0x72 34 [] (fun d =>
    { d with host := { d.host with windows := [(0, { window0 with kind := .host, len := 1048576, gens := [] })] } }), wAsked
    (by decide +kernel) (by decide +kernel) ⟨by decide +kernel, wSome (by decide +kernel) ⟨by decide +kernel, wEq ⟨by decide +kernel, wSome2
    (by decide +kernel) (trivial)⟩⟩⟩⟩,
  ⟨ask0, asked 0 0x80 6 [(0, 1), (16, 16), (32, 70)] id, wAsked (by decide +kernel) (by decide +kernel) ⟨by decide +kernel, wEq (wEq (wEq (wEq
    (by decide +kernel))))⟩⟩,
  ⟨ask0, asked 0 0x81 80 [(64, 64), (128, 1), (152, 1)] (fun d => { d with mgr := { d.mgr with scm := 0x00011001, active := true } }),
    by decide +kernel, wAsked (by decide +kernel) (by decide +kernel) (by decide +kernel)⟩,
  ⟨ask0, asked 0 0x82 3 [(0, 1)] (fun d => { d with mgr := { d.mgr with scm := 0x00011001, active := true } }), by decide +kernel, wAsked
    (by decide +kernel) (by decide +kernel) (by decide +kernel)⟩,
  ⟨ask0, asked 0 0x82 3 [(0, 1), (16, 1)] (fun d => { d with mgr := { d.mgr with scm := 0x00011001, active := true } }), by decide +kernel,
    wAsked (by decide +kernel) (by decide +kernel) (by decide +kernel)⟩,
  ⟨ask0, asked 0 0xF0 16 [(0, 0xC00000000000), (64, 1)] id, wAsked (by decide +kernel) (by decide +kernel) (by decide +kernel)⟩,
  ⟨ask0, asked 0 0xF1 24 [(0, 0xC00000000000), (64, 1)] id, wAsked (by decide +kernel) (by decide +kernel) (by decide +kernel)⟩⟩

theorem witness_EveryResetIsFull :
    (∃ (s : State), s.dev.pwr.off = none) ∧
    (∃ (s : State), s.dev.boot.commit = none ∧ commitAcked s.dev = true) :=
  ⟨⟨State.reset, by decide +kernel⟩,
  ⟨dv fun d => { d with boot := { d.boot with resetAfter := some (1, 3) } }, by decide +kernel⟩⟩

theorem witness_PowerAndSidebandComplete :
    (∃ (s : State), s.dev.boot.held = true ∧ ∃ (d : _), d = inputSeen (· == .resetIn) s.dev ∧ True) ∧
    (∃ (s : State), ∃ (o : OffCause), s.dev.pwr.off = some o ∧ o ≠ .epo ∧ o ≠ .thermalTrip) ∧
    (∃ (s : State), (s.dev.pwr.epoLow = true ∧ s.dev.pwr.off = some .epo) ∧ ∃ (d : _), d = inputSeen (· == .epo) s.dev ∧ True) ∧
    (∃ (s : State), s.dev.pwr.epoLow = false ∧ s.dev.pwr.off = some .thermalTrip) ∧
    (∃ (s : State) (vin : _), 400 ≤ vin ∧ vin < 440 ∧ s.dev.pwr.rails = true ∧ s.dev.pwr.lowInput = false) ∧
    (∃ (s : State) (i : _) (b : _), (i ∉ s.dev.pwr.faulty ∧ i = .slotId b) ∧ ∃ (d : _), d = logInput
    { pwrErr s.dev 3 with pwr := { (pwrErr s.dev 3).pwr with faulty := s.dev.pwr.faulty ++ [i], sbFault := true } } sevWarning srcPwr 1
    (contactOf i) 0 ∧ True) ∧
    (∃ (s : State) (i : _), (i ∉ s.dev.pwr.faulty ∧ i = .resetIn ∧ s.dev.boot.held = true) ∧ ∃ (d : _), d = logInput
    { pwrErr s.dev 3 with pwr := { (pwrErr s.dev 3).pwr with faulty := s.dev.pwr.faulty ++ [i], sbFault := true } } sevWarning srcPwr 1
    (contactOf i) 0 ∧ True) ∧
    (∃ (s : State) (i : _), (i ∉ s.dev.pwr.faulty ∧ i = .resetIn ∧ s.dev.boot.held = false) ∧ ∃ (d : _), d = logInput
    { pwrErr s.dev 3 with pwr := { (pwrErr s.dev 3).pwr with faulty := s.dev.pwr.faulty ++ [i], sbFault := true } } sevWarning srcPwr 1
    (contactOf i) 0 ∧ True) ∧
    (∃ (s : State) (i : _), (i ∉ s.dev.pwr.faulty ∧ i = .epo ∧ s.dev.pwr.off = none) ∧ ∃ (d : _), d = logInput
    { pwrErr s.dev 3 with pwr := { (pwrErr s.dev 3).pwr with faulty := s.dev.pwr.faulty ++ [i], sbFault := true } } sevWarning srcPwr 1
    (contactOf i) 0 ∧ True) ∧
    (∃ (s : State) (v : _) (a : _), s.dev.pwr.rails = true ∧ s.dev.boot.stage = .rom ∧ s.dev.boot.slotFixed = false ∧ slotFaulty s.dev.pwr =
    false ∧ lastN 3 (s.dev.boot.slotSamples ++ [v]) = a ∧ a = [v, v, v]) ∧
    (∃ (s : State), s.dev.boot.slotFixed = true ∧ ∃ (d : _), d = inputSeen isSlotId s.dev ∧ True) ∧
    (∃ (s : State), s.dev.boot.slotFixed = false ∧ ∃ (d : _), d = inputSeen isSlotId s.dev ∧ True) :=
  ⟨⟨dv fun d => { d with boot := { d.boot with held := true } }, by decide +kernel, wEq (trivial)⟩,
  ⟨dv fun d => { d with pwr := { d.pwr with off := some .brownOut } }, wSome (by decide +kernel) (by decide +kernel)⟩,
  ⟨dv fun d => { d with pwr := { d.pwr with epoLow := true, off := some .epo } }, by decide +kernel, wEq (trivial)⟩,
  ⟨dv fun d => { d with pwr := { d.pwr with off := some .thermalTrip } }, by decide +kernel⟩,
  ⟨State.reset, 420, by decide +kernel⟩,
  ⟨State.reset, .slotId 0, 0, by decide +kernel, wEq (trivial)⟩,
  ⟨dv fun d => { d with boot := { d.boot with held := true } }, .resetIn, by decide +kernel, wEq (trivial)⟩,
  ⟨State.reset, .resetIn, by decide +kernel, wEq (trivial)⟩,
  ⟨State.reset, .epo, by decide +kernel, wEq (trivial)⟩,
  ⟨dv fun d => { d with boot := { d.boot with slotSamples := [5, 5] } }, 5, [5, 5, 5], by decide +kernel⟩,
  ⟨dv fun d => { d with boot := { d.boot with slotFixed := true } }, by decide +kernel, wEq (trivial)⟩,
  ⟨State.reset, by decide +kernel, wEq (trivial)⟩⟩

theorem witness_BootAndGovernorComplete :
    (∃ (s : State), s.dev.pwr.rails = true ∧ s.dev.boot.stage = .rom ∧ s.dev.boot.slotFixed = true) ∧
    (∃ (s : State), s.dev.pwr.rails = true ∧ s.dev.boot.stage = .flashMount) ∧
    (∃ (s : State), s.dev.pwr.rails = true ∧ s.dev.boot.stage = .dramTest) ∧
    (∃ (s : State), s.dev.pwr.rails = true ∧ s.dev.boot.stage = .dramTest) ∧
    (∃ (s : State), s.dev.pwr.rails = true ∧ s.dev.boot.stage = .optics) ∧
    (∃ (s : State), s.dev.pwr.rails = true ∧ s.dev.boot.stage = .network ∧ s.dev.host.link = true) ∧
    (∃ (s : State) (x : _), s.dev.pwr.rails = true ∧ trips x = true) ∧
    (∃ (s : State) (x : _), s.dev.pwr.rails = true ∧ trips x = false) ∧
    (∃ (s : State), s.dev.pwr.rails = true ∧ s.dev.pwr.hold = false ∧ 120 ≤ s.dev.pwr.vcore ∧ exceeded s.dev.pwr = none ∧ s.dev.pwr.vcore + 1 <
    fld s.dev.pwr.cfg 19 12) ∧
    (∃ (s : State), (s.dev.pwr.rails = true ∧ s.dev.pwr.hold = false ∧ 120 ≤ s.dev.pwr.vcore ∧ 120 < s.dev.pwr.vcore) ∧ ∃ (l : _), exceeded
    s.dev.pwr = some l ∧ True) ∧
    (∃ (s : State), ∃ (d : _), d =
    { s.dev with log := { s.dev.log with rates := [] }, fab := { s.dev.fab with ports := s.dev.fab.ports.map fun (x : Nat × Port) => (x.1, { x.2 with discards := 0 }) } }
    ∧ True) ∧
    (∃ (s : State), (∀ r ∈ s.dev.log.rates, r.left = 0) ∧ ∃ (d : _), d =
    { s.dev with log := { s.dev.log with rates := [] }, fab := { s.dev.fab with ports := s.dev.fab.ports.map fun (x : Nat × Port) => (x.1, { x.2 with discards := 0 }) } }
    ∧ True) :=
  ⟨⟨dv fun d => { d with boot := { d.boot with stage := .rom, slotFixed := true } }, by decide +kernel⟩,
  ⟨dv fun d => { d with boot := { d.boot with stage := .flashMount } }, by decide +kernel⟩,
  ⟨dv fun d => { d with boot := { d.boot with stage := .dramTest } }, by decide +kernel⟩,
  ⟨dv fun d => { d with boot := { d.boot with stage := .dramTest } }, by decide +kernel⟩,
  ⟨dv fun d => { d with boot := { d.boot with stage := .optics } }, by decide +kernel⟩,
  ⟨dv fun d => { d with boot := { d.boot with stage := .network }, host := { d.host with link := true } }, by decide +kernel⟩,
  ⟨State.reset, { tj := [111], td := [], tIn := 20, tOut := 20, vin := 600, pin := 0, amps := 0 }, by decide +kernel⟩,
  ⟨State.reset, { tj := [20], td := [], tIn := 20, tOut := 20, vin := 600, pin := 0, amps := 0 }, by decide +kernel⟩,
  ⟨dv fun d => { d with pwr := { d.pwr with vcore := 125 } }, by decide +kernel⟩,
  ⟨dv fun d => { d with pwr := { d.pwr with vcore := 125, pin := 2000 } }, by decide +kernel, wSome (by decide +kernel) (trivial)⟩,
  ⟨State.reset, wEq (trivial)⟩,
  ⟨State.reset, by decide +kernel, wEq (trivial)⟩⟩

theorem witness_RailsFollowTheirCauses :
    (∃ s t : State, s.dev.pwr.rails = (s.dev.pwr.off.isNone && !s.dev.boot.held) ∧ step s = .next t) ∧
    (∃ (c : Instr) (s t : State), s.dev.pwr.rails = (s.dev.pwr.off.isNone && !s.dev.boot.held) ∧ exec c s = .next t ∧ s.dev.pwr.off ≠ none ∧
    t.dev.pwr.off = none) ∧
    (∃ (c : Instr) (s t : State), s.dev.pwr.rails = (s.dev.pwr.off.isNone && !s.dev.boot.held) ∧ exec c s = .next t ∧ s.dev.pwr.off = some .epo
    ∧ t.dev.pwr.off ≠ some .epo) ∧
    (∃ (c : Instr) (s t : State), s.dev.pwr.rails = (s.dev.pwr.off.isNone && !s.dev.boot.held) ∧ exec c s = .next t ∧ s.dev.pwr.off = some
    .thermalTrip ∧ t.dev.pwr.off ≠ some .thermalTrip) :=
  ⟨⟨State.reset, after (step State.reset), by decide +kernel, rfl⟩,
  ⟨.inputStable, (dv fun d => { d with pwr := { d.pwr with rails := false, off := some .brownOut } }), _, by decide +kernel, rfl,
    by decide +kernel, by decide +kernel⟩,
  ⟨.epoDeassert, (dv fun d => { d with pwr := { d.pwr with rails := false, off := some .epo, epoLow := true } }), _, by decide +kernel, rfl,
    by decide +kernel, by decide +kernel⟩,
  ⟨.tripCooled, (dv fun d => { d with pwr := { d.pwr with rails := false, off := some .thermalTrip } }), _, by decide +kernel, rfl,
    by decide +kernel, by decide +kernel⟩⟩

theorem witness_PwrCfgFields :
    (∃ (v : U64) (s : State), ¬ (700 ≤ fld v 10 0 ∧ fld v 10 0 ≤ 1400 ∧ 120 ≤ fld v 19 12 ∧ fld v 19 12 ≤ 170 ∧ 60 ≤ fld v 31 24 ∧ fld v 31 24 ≤
    100 ∧ 60 ≤ fld v 39 32 ∧ fld v 39 32 ≤ 95) ∧ s = State.reset) ∧
    (∃ (v : U64) (s : State), s.dev.pwr.rails = true ∧ 700 ≤ fld v 10 0 ∧ fld v 10 0 ≤ 1400 ∧ 120 ≤ fld v 19 12 ∧ fld v 19 12 ≤ 170 ∧ 60 ≤ fld v
    31 24 ∧ fld v 31 24 ≤ 100 ∧ 60 ≤ fld v 39 32 ∧ fld v 39 32 ≤ 95) :=
  ⟨⟨0, State.reset, by decide +kernel, rfl⟩,
  ⟨0x5f3c0aa2bc, State.reset, rfl, by decide +kernel⟩⟩

theorem witness_RegisterWritesComplete :
    (∃ (p : Nat) (s : State), s.dev.pwr.rails = true ∧ p < 16) ∧
    (∃ (p : Nat) (v : U64) (s : State), s.dev.pwr.rails = true ∧ p < 16 ∧ fld (BitVec.ofNat 32 v.toNat) 7 0 = 0) ∧
    (∃ (p : Nat) (v : U64) (s : State), s.dev.pwr.rails = true ∧ p < 16 ∧ fld (BitVec.ofNat 32 v.toNat) 15 0 = 0) ∧
    (∃ (p : Nat) (v : U64) (s : State), (s.dev.pwr.rails = true ∧ p < 16) ∧ (fld v 14 8 = 0 ∨ 64 < fld v 14 8)) ∧
    (∃ (p : Nat) (v : U64) (s : State), s.dev.pwr.rails = true ∧ p < 16 ∧ 1 ≤ fld v 14 8 ∧ fld v 14 8 ≤ 64 ∧ noTasks (s.dev.modPart p fun x =>
    { x with grdCfgNext := some (merge grdCfgMask 0 v) }) p = false) ∧
    (∃ (s : State), s.dev.pwr.rails = true) ∧
    (∃ (v : U64) (s : State), s.dev.pwr.rails = true ∧ 4096 < fld (BitVec.ofNat 32 v.toNat) 12 0 + fld (BitVec.ofNat 32 v.toNat) 25 13) ∧
    (∃ (v : U64) (s : State), s.dev.pwr.rails = true ∧ fld (BitVec.ofNat 32 v.toNat) 22 20 = 7) ∧
    (∃ (v : U64) (s : State), s.dev.pwr.rails = true ∧ fld v 15 0 = 0) :=
  ⟨⟨15, State.reset, by decide +kernel⟩,
  ⟨15, 0, State.reset, by decide +kernel⟩,
  ⟨15, 0, State.reset, by decide +kernel⟩,
  ⟨0, 0x4100, State.reset, by decide +kernel, Or.inr (by decide +kernel)⟩,
  ⟨0, 0x4000, tile 8 id id id, by decide +kernel⟩,
  ⟨State.reset, by decide +kernel⟩,
  ⟨0x1FFF, State.reset, by decide +kernel⟩,
  ⟨0x700000, State.reset, by decide +kernel⟩,
  ⟨0, State.reset, by decide +kernel⟩⟩

theorem witness_DramReadsBack :
    
    ∃ (d : Dev) (p a : Nat) (bs : List Byte), (d.part p).pages.Nodup ∧ Memory.wf d.mem.dram = true ∧ a + bs.length ≤ dramTop ∧ okRange d p false
    a bs.length = true :=
  ⟨(line id).dev, 0, 8, [1, 2], by decide +kernel, by decide +kernel, by decide +kernel, by decide +kernel⟩

/-! A REG_WRITE of one register, wherever the free register map puts it. -/

theorem le_toLe (v : Nat) (l : List Byte) (h : v < 2 ^ 64) : le (toLe 8 v ++ l) 0 8 = v := by
  have e : ((toLe 8 v ++ l).drop 0).take 8 = toLe 8 v := by
    rw [List.drop_zero, List.take_left' (toLe_length 8 v)]
  unfold le
  rw [e, leNat_toLe]
  exact Nat.mod_eq_of_lt h

def writeBody (a : Nat) : List Byte := toLe 8 a ++ toLe 16 (packNat [(0, 1), (64, 5)])

def writeReq (a : Nat) : Req := ⟨⟨1, 0, 1⟩, 0, 0xF1, 0, false, writeBody a, false, false⟩

def writing (a : Nat) : State := hostUp id fun d => { d with host := { d.host with reqs := [writeReq a] } }

theorem writing_rest {a i n : Nat} (h : 8 ≤ i) : le (writeBody a) i n = le (toLe 16 (packNat [(0, 1), (64, 5)])) (i - 8) n := by
  unfold writeBody le
  rw [show i = 8 + (i - 8) by omega, ← List.drop_drop, List.drop_left' (toLe_length 8 a)]
  simp

/-- The map has some register at some address; and a request to write 5 to whichever register it has at an address meets
every hypothesis, with partition 0 present. -/
theorem witness_RegWriteBypassesCommandChecks :
    (∃ a x, regAt a = some x) ∧
    ∀ a x, regAt a = some x → ∃ (r : ReqId) (s : State) (q : Req) (v : U64) (p : Nat), Asked s.dev r 0xF1 q ∧ q.body.length = 24 ∧
      le q.body 8 2 = 1 ∧ regRangeOk q.body = true ∧ regAt (le q.body 0 8) = some x ∧ v = BitVec.ofNat 64 (le q.body 16 8) ∧
      s.dev.parts.any (fun y => y.2.valid) = true ∧ p < 16 ∧ (s.dev.part p).valid = true ∧ fld v 7 0 ≠ 0 := by
  refine ⟨⟨(Config.regAddr (.poolCfg 0)).toNat, .poolCfg 0, ?_⟩, fun a x h => ?_⟩
  · unfold regAt
    have : allRegs = .poolCfg 0 :: allRegs.tail := by rfl
    rw [this, List.find?_cons_of_pos]
    simp
  · have he := List.find?_some h
    have hs := (Config.regSlot x).isLt
    simp only [beq_iff_eq, Config.regAddr, BitVec.toNat_ofNat] at he
    have ha : a = regsLo + 8 * (Config.regSlot x).toNat := by unfold regsLo; omega
    have hl : le (writeBody a) 0 8 = a := le_toLe _ _ (by rw [ha]; unfold regsLo; omega)
    have hn : le (writeBody a) 8 2 = 1 := (writing_rest (by omega)).trans (by decide +kernel)
    have hz : le (writeBody a) 10 6 = 0 := (writing_rest (by omega)).trans (by decide +kernel)
    have hv : le (writeBody a) 16 8 = 5 := (writing_rest (by omega)).trans (by decide +kernel)
    refine ⟨ask0, writing a, writeReq a, 5, 0, ⟨?_, rfl, rfl, by rfl⟩, ?_, hn, ?_, ?_, ?_, by rfl, by omega, by rfl, by decide +kernel⟩
    · unfold writing hostUp line dv
      rfl
    · show (writeBody a).length = 24
      unfold writeBody
      rw [List.length_append, toLe_length, toLe_length]
    · show regRangeOk (writeBody a) = true
      unfold regRangeOk
      rw [hl, hn, hz]
      simp only [ha, regsLo, regsHi]
      simp
      omega
    · show regAt (le (writeBody a) 0 8) = some x
      rw [hl]
      exact h
    · show _ = BitVec.ofNat 64 (le (writeBody a) 16 8)
      rw [hv]
      rfl

end Sys2Proof.Tests
end

section
/-! HOST_IP4 and HOST_PTP_CFG (R466, R468): what a write of the two registers keeps, which datagrams and ARP requests the
IPv4 address takes, and which PTP messages the domain takes. -/

namespace Sys2Proof.Machine

/-! ### Fields of a masked word (R9, R11) -/

theorem testBit_nfld (x hi lo i : Nat) : (nfld x hi lo).testBit i = (decide (i < hi + 1 - lo) && x.testBit (lo + i)) := by
  rw [nfld, Nat.testBit_mod_two_pow, Nat.testBit_shiftRight]

/-- A field that lies in the low `k` bits does not see the bits above them. -/
theorem nfld_mod_two_pow_low {k hi : Nat} (x lo : Nat) (h : hi < k) : nfld (x % 2 ^ k) hi lo = nfld x hi lo := by
  refine Nat.eq_of_testBit_eq fun i => ?_
  rw [testBit_nfld, testBit_nfld, Nat.testBit_mod_two_pow]
  by_cases hi' : i < hi + 1 - lo
  · have hk : lo + i < k := by omega
    simp [hk]
  · simp [hi']

/-- A field above the low `k` bits of a number of `k` bits is zero. -/
theorem nfld_mod_two_pow_high {k lo : Nat} (x hi : Nat) (h : k ≤ lo) : nfld (x % 2 ^ k) hi lo = 0 := by
  have hx : x % 2 ^ k < 2 ^ lo := Nat.lt_of_lt_of_le (Nat.mod_lt x (Nat.two_pow_pos k)) (Nat.pow_le_pow_right Nat.two_pos h)
  rw [nfld, Nat.shiftRight_eq_div_pow, Nat.div_eq_of_lt hx, Nat.zero_mod]

/-- Masking with the ones of [hi:0] keeps the low hi + 1 bits. -/
theorem toNat_and_ones_zero {w hi : Nat} (x : BitVec w) (h : hi < w) : (x &&& ones w hi 0).toNat = x.toNat % 2 ^ (hi + 1) := by
  have hle : 2 ^ (hi + 1) ≤ 2 ^ w := Nat.pow_le_pow_right Nat.two_pos h
  have hlt : 2 ^ (hi + 1) - 1 < 2 ^ w := by have := Nat.two_pow_pos (hi + 1); omega
  rw [BitVec.toNat_and, ones, BitVec.toNat_ofNat, Nat.shiftLeft_zero, Nat.sub_zero, Nat.mod_eq_of_lt hlt,
    Nat.and_two_pow_sub_one_eq_mod]

/-! ### Writes of the two registers -/

theorem exec_registerWrite_of_rails (r : Reg) (v : U64) {s : State} (h : s.dev.pwr.rails = true) :
    exec (.registerWrite r v) s = .next (s.putDev (regWriteLog s.dev r v)) := by
  have hexec : exec (.registerWrite r v) s = .next (s.putDev (if s.dev.pwr.rails then regWriteLog s.dev r v else s.dev)) := rfl
  rw [hexec, if_pos h]

/-- With the rails on, what holds of the value that a write leaves in a register holds of what is read back. -/
theorem registerWrite_reads_back {r : Reg} {v : U64} {s : State} {n : Nat} {P : Nat → Prop} (hr : s.dev.pwr.rails = true)
    (hn : regVal s.fuses (regWriteLog s.dev r v) r = n) (hP : P n) :
    ∃ t, exec (.registerWrite r v) s = .next t ∧ ∀ x, x = regVal t.fuses t.dev r → P x :=
  ⟨_, exec_registerWrite_of_rails r v hr, fun _ hx => (hx.trans hn) ▸ hP⟩

/-- HOST_IP4 keeps ADDR and PREFIX, bits 0 to 37. -/
theorem regVal_write_hostIp4 (f : Fuses) (d : Dev) (v : U64) :
    regVal f (regWriteLog d .hostIp4 v) .hostIp4 = v.toNat % 2 ^ 38 :=
  toNat_and_ones_zero v (by decide)

/-- HOST_PTP_CFG keeps DOMAIN and EN, bits 0 to 8. -/
theorem regVal_write_hostPtpCfg (f : Fuses) (d : Dev) (v : U64) :
    regVal f (regWriteLog d .hostPtpCfg v) .hostPtpCfg = v.toNat % 2 ^ 9 := by
  have h : regVal f (regWriteLog d .hostPtpCfg v) .hostPtpCfg = (BitVec.ofNat 32 v.toNat).toNat % 2 ^ 9 :=
    toNat_and_ones_zero (BitVec.ofNat 32 v.toNat) (by decide)
  rw [h, BitVec.toNat_ofNat, Nat.mod_mod_of_dvd _ (Nat.pow_dvd_pow 2 (by decide))]

/-! ### The IPv4 address (R466) -/

theorem ip4Used_eq_true_iff (d : Dev) : ip4Used d = true ↔ fld d.host.ip4 31 0 ≠ 0 ∧ fld d.host.ip4 37 32 ≠ 0 := by
  rw [ip4Used, Bool.and_eq_true, bne_iff_ne, bne_iff_ne]

theorem ip4Used_eq_false_iff (d : Dev) : ip4Used d = false ↔ fld d.host.ip4 31 0 = 0 ∨ fld d.host.ip4 37 32 = 0 := by
  rw [ip4Used, Bool.and_eq_false_iff, bne_eq_false_iff_eq, bne_eq_false_iff_eq]

theorem forPart_v4_of_used (fu : Fuses) {d : Dev} {target : U32} (hu : ip4Used d = true)
    (ht : target.toNat = fld d.host.ip4 31 0) : forPart fu d (.v4 target) = true := by
  simp [forPart, hu, ht]

theorem forPart_v4_of_unused (fu : Fuses) {d : Dev} (target : U32) (hu : ip4Used d = false) :
    forPart fu d (.v4 target) = false := by
  simp [forPart, hu]

theorem exec_arpRequest (sender target : U32) (s : State) :
    exec (.arpRequest sender target) s = .next (s.putDev (arpRequest sender target s.dev)) := rfl

theorem arpRequest_of_used {sender target : U32} {d : Dev} (hup : uhpUp d = true) (hu : ip4Used d = true)
    (ht : target.toNat = fld d.host.ip4 31 0) : arpRequest sender target d = sendFrame d (.arpReply sender target) := by
  simp [arpRequest, hup, hu, ht]

theorem arpRequest_of_unused (sender target : U32) {d : Dev} (hu : ip4Used d = false) : arpRequest sender target d = d := by
  simp [arpRequest, hu]

/-! ### Datagrams for another node change nothing (R436) -/

section
variable {m : UhpMsg} {fu : Fuses} {d : Dev} (h : forPart fu d m.dst = false)
include h

theorem helloMsg_of_not_forPart : helloMsg m fu d = d := by simp [helloMsg, h]

theorem sequenced_of_not_forPart (ty : Nat) : sequenced ty m fu d = d := by simp [sequenced, h]

theorem ackMsg_of_not_forPart : ackMsg m fu d = d := by simp [ackMsg, h]

theorem nakMsg_of_not_forPart : nakMsg m fu d = d := by simp [nakMsg, h]

end

theorem onDevF_of_fixed {f : Fuses → Dev → Dev} {s : State} (h : f s.fuses s.dev = s.dev) : onDevF f s = .next s := by
  rw [onDevF, h]

theorem onDev_of_fixed {f : Dev → Dev} {s : State} (h : f s.dev = s.dev) : onDev f s = .next s := by
  rw [onDev, h]

theorem exec_datagram_not_forPart {m : UhpMsg} {s : State} (h : forPart s.fuses s.dev m.dst = false) :
    exec (.hello m) s = .next s ∧ exec (.mboxReq m) s = .next s ∧ exec (.write m) s = .next s ∧ exec (.readReq m) s = .next s ∧
      exec (.readResp m) s = .next s ∧ exec (.ack m) s = .next s ∧ exec (.nak m) s = .next s :=
  ⟨onDevF_of_fixed (helloMsg_of_not_forPart h), onDevF_of_fixed (sequenced_of_not_forPart h 2),
    onDevF_of_fixed (sequenced_of_not_forPart h 5), onDevF_of_fixed (sequenced_of_not_forPart h 6),
    onDevF_of_fixed (sequenced_of_not_forPart h 7), onDevF_of_fixed (ackMsg_of_not_forPart h),
    onDevF_of_fixed (nakMsg_of_not_forPart h)⟩

/-! ### PTP (R435, R468) -/

@[simp] theorem modPtp_time (d : Dev) (f : Ptp → Ptp) : (modPtp d f).time = d.time := rfl
@[simp] theorem modPtp_ptp (d : Dev) (f : Ptp → Ptp) : (modPtp d f).host.ptp = f d.host.ptp := rfl
@[simp] theorem sendFrame_time (d : Dev) (f : OutFrame) : (sendFrame d f).time = d.time := rfl

theorem exec_ptpSync (m : PtpMsg) (s : State) : exec (.ptpSync m) s = .next (s.putDev (ptpSync m s.dev)) := rfl

theorem ptpOffset_of_locked (off : Int) {d : Dev} (h : d.time.locked = true) :
    ptpOffset off d = { d with time := { d.time with offset := off, slew := off } } := by
  rw [ptpOffset, if_pos h]

/-- In lock and with the delay known, a complete Sync sets the offset that slewing removes, and of the time base
nothing else. -/
theorem ptpSynced_time_of_locked (t1 t2 : Nat) {d : Dev} {w : Int} (hw : d.host.ptp.delay = some w)
    (hl : d.time.locked = true) :
    (ptpSynced t1 t2 d).time = { d.time with offset := (t2 : Int) - t1 - w, slew := (t2 : Int) - t1 - w } := by
  simp [ptpSynced, hw, ptpOffset_of_locked, hl]

theorem ptpSync_of_not_ours {m : PtpMsg} {d : Dev}
    (h : ¬ (bit d.host.ptpCfg 8 = true ∧ fld d.host.ptpCfg 7 0 = (ptpDomain m).toNat)) : ptpSync m d = d := by
  refine if_pos (.inr (.inr ?_))
  rcases Decidable.not_and_iff_or_not.mp h with hen | hdom
  · exact .inl (by simpa using hen)
  · exact .inr hdom

/-- A one-step Sync of the selected master, taken as complete on arrival; a holdover ends. -/
theorem ptpSync_oneStep {n : Byte} {src : PtpPort} {seq : U16} {t1 : Nat} {d : Dev} (hlink : d.host.link = true)
    (hst : d.boot.stage = .ready) (hen : bit d.host.ptpCfg 8 = true) (hdom : fld d.host.ptpCfg 7 0 = n.toNat)
    (hm : ptpMaster d = some src) : ptpSync (.sync n src seq false t1) d =
      ptpSynced t1 d.time.now { d with time := { d.time with holdover := false } } := by
  simp [ptpSync, hlink, hst, hen, ptpDomain, hdom, hm]

/-- Settles O48: the writes by what the masks keep, the IPv4 clauses by whether the address is in use, the PTP clauses
by whether the message is of the domain. -/
theorem hostAddressAndPtpRegisters : Obligations.HostAddressAndPtpRegisters := by
  unfold Obligations.HostAddressAndPtpRegisters
  refine ⟨fun v s hr => ⟨registerWrite_reads_back hr (regVal_write_hostIp4 _ _ v) ?_,
      registerWrite_reads_back hr (regVal_write_hostPtpCfg _ _ v) ?_⟩, rfl, rfl,
    fun s sender target => ⟨fun ha hp ht hup => ?_, fun h0 => ?_⟩,
    fun s m hlink hst => ⟨fun h => onDev_of_fixed (ptpSync_of_not_ours h), ?_⟩⟩
  · exact ⟨nfld_mod_two_pow_low _ _ (by decide), nfld_mod_two_pow_low _ _ (by decide), nfld_mod_two_pow_high _ _ (Nat.le_refl _)⟩
  · exact ⟨nfld_mod_two_pow_low _ _ (by decide), nfld_mod_two_pow_low _ _ (by decide), nfld_mod_two_pow_high _ _ (Nat.le_refl _)⟩
  · have hu : ip4Used s.dev = true := (ip4Used_eq_true_iff _).mpr ⟨ha, hp⟩
    exact ⟨by rw [exec_arpRequest, arpRequest_of_used hup hu ht], forPart_v4_of_used _ hu ht⟩
  · have hu : ip4Used s.dev = false := (ip4Used_eq_false_iff _).mpr h0
    have hf := forPart_v4_of_unused s.fuses target hu
    exact ⟨onDev_of_fixed (arpRequest_of_unused sender target hu), hf, fun m hm => exec_datagram_not_forPart (hm ▸ hf)⟩
  · rintro n src seq t1 w hen hdom rfl hm hw hl
    have hsync := congrArg Dev.time (ptpSync_oneStep (seq := seq) (t1 := t1) hlink hst hen hdom hm)
    exact ⟨_, exec_ptpSync _ s, hsync.trans (ptpSynced_time_of_locked t1 s.dev.time.now hw hl)⟩

end Sys2Proof.Machine
end

section
/-! The boot state is written by the commands of chapter 18 alone (R485 to R499). Here, one lemma for each function that
a step can reach outside them, in the order of the model's files: the function leaves `Dev.boot` as it was. A function
that takes a handler leaves it when the handler does; one that also answers a result is stated for the device it gives.
The functions of chapter 18 that do write it are stated for the staged image, `Boot.staged`. Each proof opens the function,
splits along its branches and leaves them to the lemmas of what the function calls. -/

namespace Sys2Proof.Machine

/-! ### Branches and folds -/

@[simp] theorem boot_ite (c : Prop) [Decidable c] (a b : Dev) : (if c then a else b).boot = if c then a.boot else b.boot :=
  apply_ite Dev.boot c a b

@[simp] theorem foldl_boot {γ : Type} {f : Dev → γ → Dev} (h : ∀ d x, (f d x).boot = d.boot) (d : Dev) (xs : List γ) :
    (xs.foldl f d).boot = d.boot := foldl_keeps Dev.boot f h d xs

theorem ite_eq_of {α β : Type} (g : α → β) {c : Prop} [Decidable c] {a b : α} {y : β} (ha : g a = y) (hb : g b = y) :
    g (if c then a else b) = y := by
  split <;> assumption

theorem boot_of_fst_eq {α : Type} {r : Dev × α} {d d' : Dev} {a : α} (hr : r = (d', a)) (h : r.1.boot = d.boot) :
    d'.boot = d.boot := by
  rw [← h, hr]

theorem boot_of_snd_eq {α : Type} {r : α × Dev} {d d' : Dev} {a : α} (hr : r = (a, d')) (h : r.2.boot = d.boot) :
    d'.boot = d.boot := by
  rw [← h, hr]

/-- The device that an arrival leaves. -/
def Arrival.dev : Arrival → Dev
  | .dropped d => d
  | .here d => d
  | .onward d => d

@[simp] theorem Arrival.dev_dropped (d : Dev) : (Arrival.dropped d).dev = d := rfl
@[simp] theorem Arrival.dev_here (d : Dev) : (Arrival.here d).dev = d := rfl
@[simp] theorem Arrival.dev_onward (d : Dev) : (Arrival.onward d).dev = d := rfl

/-! ### Machine/Ops.lean -/

@[simp] theorem drawFree_boot (d : Dev) : (drawFree d).2.boot = d.boot := rfl
@[simp] theorem modView_boot (d : Dev) (p lcore : Nat) (f : Memory → Memory) : (modView d p lcore f).boot = d.boot := by
  unfold modView; split <;> simp
@[simp] theorem writeLoc_boot (d : Dev) (p : Nat) (b : Byte) (l : Loc) : (writeLoc d p b l).boot = d.boot := by
  unfold writeLoc; split <;> simp
@[simp] theorem lowered_boot (d : Dev) (p : Nat) : (lowered d p).boot = d.boot := by
  unfold lowered; split <;> simp
@[simp] theorem opQuota_boot (d : Dev) (p : Nat) (op : OpId) : (opQuota d p op).boot = d.boot := by
  unfold opQuota; split <;> simp
@[simp] theorem unpoison_boot (d : Dev) (p : Nat) (ls : List Loc) : (unpoison d p ls).boot = d.boot := by simp [unpoison]
@[simp] theorem touchLines_boot (d : Dev) (ls : List Loc) : (touchLines d ls).boot = d.boot := by simp [touchLines]
@[simp] theorem modTasks_boot (d : Dev) (p : Nat) (f : Task → Task) : (modTasks d p f).boot = d.boot := rfl
@[simp] theorem noteChange_boot (d : Dev) (p a : Nat) (old new : List Byte) : (noteChange d p a old new).boot = d.boot := by
  simp [noteChange]
@[simp] theorem touched_boot (d : Dev) (p a n : Nat) : (touched d p a n).boot = d.boot := by simp [touched]
@[simp] theorem writeRange_boot (d : Dev) (p : Nat) (engine : Bool) (a : Nat) (bs : List Byte) :
    (writeRange d p engine a bs).boot = d.boot := by simp [writeRange]
@[simp] theorem chargeRange_boot (d : Dev) (p a n : Nat) (engine : Bool) :
    (chargeRange d p a n engine).boot = d.boot := by simp [chargeRange]
@[simp] theorem chargeImage_boot (d : Dev) (p a n : Nat) : (chargeImage d p a n).boot = d.boot := rfl
@[simp] theorem countDenied_boot (d : Dev) (a n : Nat) : (countDenied d a n).boot = d.boot := by simp [countDenied]
@[simp] theorem noteDenied_boot (d : Dev) (p a n : Nat) : (noteDenied d p a n).boot = d.boot := by simp [noteDenied]
@[simp] theorem storeRange_boot (d : Dev) (p a : Nat) (bs : List Byte) : (storeRange d p a bs).boot = d.boot := by
  simp [storeRange]
@[simp] theorem viewWrite_boot (d : Dev) (p lcore a : Nat) (bs : List Byte) : (viewWrite d p lcore a bs).boot = d.boot := by
  unfold viewWrite; dsimp only; split <;> simp
@[simp] theorem modTask_boot (d : Dev) (p lcore : Nat) (f : Task → Task) : (modTask d p lcore f).boot = d.boot := by
  unfold modTask; split <;> simp
@[simp] theorem addSb_boot (d : Dev) (p lcore i : Nat) (v : U32) : (addSb d p lcore i v).boot = d.boot := by simp [addSb]
@[simp] theorem raise_boot (d : Dev) (p : Nat) (t : SigTarget) : (raise d p t).boot = d.boot := by
  unfold raise; split <;> simp

/-! ### Machine/Fabric.lean -/

@[simp] theorem fabErr_boot (d : Dev) (i : Nat) : (fabErr d i).boot = d.boot := rfl
@[simp] theorem pumpPortFuel_boot (k n : Nat) (d : Dev) : (pumpPortFuel k n d).boot = d.boot := by
  fun_induction pumpPortFuel <;> grind [Dev.modPort_boot]
@[simp] theorem pumpPort_boot (d : Dev) (n : Nat) : (pumpPort d n).boot = d.boot := by simp [pumpPort]
@[simp] theorem mergeQueue_boot (d : Dev) (n : Nat) (c : Cell) : (mergeQueue d n c).boot = d.boot := by
  unfold mergeQueue; dsimp only; repeat' split
  all_goals simp
@[simp] theorem enqueue_boot (d : Dev) (named : Nat) (c : Cell) : (enqueue d named c).boot = d.boot := by simp [enqueue]
@[simp] theorem sendPair_boot (d : Dev) (c : Cell) (next : Nat) : (sendPair d c next).boot = d.boot := by simp [sendPair]
@[simp] theorem sendZ_boot (d : Dev) (c : Cell) : (sendZ d c).boot = d.boot := by
  unfold sendZ; dsimp only; split <;> simp
@[simp] theorem escape_boot (d : Dev) (c : Cell) (dimX : Bool) : (escape d c dimX).boot = d.boot := by
  unfold escape; dsimp only; split <;> simp
@[simp] theorem routeDim_boot (d : Dev) (c : Cell) (dimX : Bool) (next : Nat) : (routeDim d c dimX next).boot = d.boot := by
  simp [routeDim]
@[simp] theorem route_boot (d : Dev) (c : Cell) : (route d c).boot = d.boot := by
  fun_cases route <;> simp [*]
@[simp] theorem sendFor_boot (d : Dev) (p : Nat) (c : Cell) : (sendFor d p c).boot = d.boot := by simp [sendFor]
@[simp] theorem sendAll_boot (d : Dev) (p : Nat) (cs : List Cell) : (sendAll d p cs).boot = d.boot := by simp [sendAll]
@[simp] theorem countDiscard_boot (d : Dev) (n : Nat) : (countDiscard d n).boot = d.boot := rfl
@[simp] theorem giveBack_boot (d : Dev) (n cls : Nat) : (giveBack d n cls).boot = d.boot := by simp [giveBack]
@[simp] theorem atFloor_boot (d : Dev) (c : Cell) : (atFloor d c).dev.boot = d.boot := by
  unfold atFloor; split <;> rfl
@[simp] theorem screen_boot (d : Dev) (n : Nat) (c : Cell) : (screen d n c).dev.boot = d.boot := by
  fun_cases screen <;> simp +zetaDelta
@[simp] theorem onCell_boot {d : Dev} {deliver : Dev → Dev} (h : ∀ e, e.boot = d.boot → (deliver e).boot = d.boot) (n : Nat)
    (c : Cell) (types : List Nat) : (onCell d n c types deliver).boot = d.boot := by
  have hs := screen_boot d n c
  unfold onCell; split <;> simp_all
@[simp] theorem holdCell_boot (d : Dev) (n : Nat) (c : Cell) : (holdCell d n c).boot = d.boot := by simp [holdCell]
@[simp] theorem leaveBuffer_boot (d : Dev) (n : Nat) (c : Cell) : (leaveBuffer d n c).boot = d.boot := rfl
@[simp] theorem onCellWhen_boot {d : Dev} {deliver : Dev → Dev} (h : ∀ e, e.boot = d.boot → (deliver e).boot = d.boot)
    (waits : Dev → Cell → Bool) (n : Nat) (c : Cell) (types : List Nat) :
    (onCellWhen waits d n c types deliver).boot = d.boot := by
  have hl : (onCell (leaveBuffer d n c) n c types deliver).boot = (leaveBuffer d n c).boot :=
    onCell_boot (by simpa using h) ..
  simp [onCellWhen, hl]
@[simp] theorem announce_boot (d : Dev) : (announce d).boot = d.boot := by simp [announce]
@[simp] theorem linksNoted_boot (before d : Dev) : (linksNoted before d).boot = d.boot := by simp [linksNoted]
@[simp] theorem setPort_boot (d : Dev) (n : Nat) (f : Port → Port) : (setPort d n f).boot = d.boot := by simp [setPort]
@[simp] theorem startPort_boot (d : Dev) (n : Nat) : (startPort d n).boot = d.boot := by simp [startPort]
@[simp] theorem logPartner_boot (d : Dev) (n : Nat) (h : LinkHello) : (logPartner d n h).boot = d.boot := by
  simp [logPartner]
@[simp] theorem sendHello_boot (d : Dev) (n : Nat) : (sendHello d n).boot = d.boot := rfl
@[simp] theorem helloTick_boot (d : Dev) : (helloTick d).boot = d.boot := by
  fun_cases helloTick
  grind [sendHello_boot, foldl_boot]

/-! ### Machine/Probe.lean -/

@[simp] theorem sendMgmt_boot (d : Dev) (dest : DevId) (m : Mgmt) : (sendMgmt d dest m).boot = d.boot := by simp [sendMgmt]
@[simp] theorem dataLoss_boot (d : Dev) (part : Option Nat) (unit addr len : Nat) :
    (dataLoss d part unit addr len).boot = d.boot := by
  unfold dataLoss; dsimp only; repeat' split
  all_goals simp
@[simp] theorem lossHere_boot (d : Dev) (p unit a : Nat) : (lossHere d p unit a).boot = d.boot := by simp [lossHere]
@[simp] theorem lossAt_boot (d : Dev) (p a n : Nat) (unit : Nat) : (lossAt d p a n unit).boot = d.boot := by
  unfold lossAt; split <;> simp
@[simp] theorem sendProbes_boot (d : Dev) (peer : DevId) : (sendProbes d peer).boot = d.boot := by simp [sendProbes]
@[simp] theorem escalateFor_boot (d : Dev) (peer : DevId) (asManager : Bool) (behalf : Option DevId) (asker : List DevId) :
    (escalateFor d peer asManager behalf asker).boot = d.boot := by simp [escalateFor]
@[simp] theorem escalate_boot (d : Dev) (peer : DevId) (asManager : Bool) : (escalate d peer asManager).boot = d.boot := by
  simp [escalate]

/-! ### Machine/Bucket.lean -/

@[simp] theorem modBucket_boot (d : Dev) (p i : Nat) (f : Bucket → Bucket) : (modBucket d p i f).boot = d.boot := rfl
@[simp] theorem grdErr_boot (d : Dev) (p i : Nat) : (grdErr d p i).boot = d.boot := rfl
@[simp] theorem grdFlag_boot (d : Dev) (p fl : Nat) : (grdFlag d p fl).boot = d.boot := rfl
@[simp] theorem writeOutcome_boot (d : Dev) (p i status flags : Nat) : (writeOutcome d p i status flags).boot = d.boot := by
  simp [writeOutcome]
@[simp] theorem bucketFail_boot (d : Dev) (p i status : Nat) : (bucketFail d p i status).boot = d.boot := by
  unfold bucketFail; split <;> simp
@[simp] theorem bucketEnded_boot (d : Dev) (p i role status : Nat) (fixed : Bool) :
    (bucketEnded d p i role status fixed).boot = d.boot := by simp [bucketEnded]
@[simp] theorem seqReport_boot (d : Dev) (p step : Nat) : (seqReport d p step).boot = d.boot := by
  unfold seqReport; split <;> simp
@[simp] theorem selfFault_boot (d : Dev) : (selfFault d).boot = d.boot := by simp [selfFault]

/-! ### Machine/Cistern.lean -/

@[simp] theorem setPool_boot (d : Dev) (g : Nat) (f : Pool → Pool) : (setPool d g f).boot = d.boot := rfl
@[simp] theorem cstErr_boot (d : Dev) (i : Nat) : (cstErr d i).boot = d.boot := rfl
@[simp] theorem poolEvent_boot (d : Dev) (g l : Nat) : (poolEvent d g l).boot = d.boot := by simp [poolEvent]
@[simp] theorem notePool_boot (d : Dev) (g : Nat) : (notePool d g).boot = d.boot := by simp [notePool]
@[simp] theorem zeroBuf_boot (d : Dev) (g i : Nat) : (zeroBuf d g i).boot = d.boot := by
  fun_cases zeroBuf <;> simp [*]
@[simp] theorem takeBuf_boot (d : Dev) (g p : Nat) (engine : Bool) (i : Nat) : (takeBuf d g p engine i).boot = d.boot := by
  simp [takeBuf]
@[simp] theorem takeBufs_boot (d : Dev) (g p n : Nat) (engine : Bool) : (takeBufs d g p n engine).2.boot = d.boot := by
  simp [takeBufs]
@[simp] theorem freeBufs_boot (d : Dev) (g : Nat) (is : List Nat) : (freeBufs d g is).boot = d.boot := by
  fun_cases freeBufs
  grind [notePool_boot, setPool_boot, foldl_boot]
@[simp] theorem freeAll_boot (d : Dev) (bs : List (Nat × Nat)) : (freeAll d bs).boot = d.boot := by simp [freeAll]
@[simp] theorem releaseEngine_boot (d : Dev) (g i : Nat) : (releaseEngine d g i).boot = d.boot := rfl
@[simp] theorem request_boot (d : Dev) (g p n : Nat) (who : WaitFor) : (request d g p n who).2.boot = d.boot := by
  unfold request; dsimp only; repeat' split
  all_goals simp
@[simp] theorem grantWaiting_boot (d : Dev) (g p : Nat) : (grantWaiting d g p).2.boot = d.boot := by
  unfold grantWaiting; repeat' split
  all_goals simp
@[simp] theorem dropWaits_boot (d : Dev) (k : WaitReq → Bool) : (dropWaits d k).boot = d.boot := rfl
@[simp] theorem countBadFree_boot (d : Dev) (p cause a : Nat) : (countBadFree d p cause a).boot = d.boot := by
  simp [countBadFree]
@[simp] theorem returnBuffers_boot (d : Dev) (p : Nat) : (returnBuffers d p).boot = d.boot := by simp [returnBuffers]

/-! ### Machine/Tasks.lean -/

@[simp] theorem portDone_boot (d : Dev) (p lcore : Nat) (sub : U32) (idx : Nat) :
    (portDone d p lcore sub idx).boot = d.boot := by
  simp [portDone]

/-! ### Machine/Xdesc.lean -/

@[simp] theorem writeShared_boot (d : Dev) (p : Nat) (engine : Bool) (rs : List (Nat × Nat)) (a : Nat) (bs : List Byte) :
    (writeShared d p engine rs a bs).boot = d.boot := by simp [writeShared]

/-! ### Machine/Gate.lean -/

@[simp] theorem modStep_boot (d : Dev) (k : Nat) (f : GStep → GStep) : (modStep d k f).boot = d.boot := rfl
@[simp] theorem sweepSteps_boot (d : Dev) : (sweepSteps d).boot = d.boot := rfl
@[simp] theorem gateFlag_boot (d : Dev) (p i : Nat) : (gateFlag d p i).boot = d.boot := rfl
@[simp] theorem gateWrite_boot (d : Dev) (p slot a : Nat) (bs : List Byte) : (gateWrite d p slot a bs).boot = d.boot := by
  simp [gateWrite]
@[simp] theorem gateFault_boot (d : Dev) (k cause token : Nat) : (gateFault d k cause token).boot = d.boot := by
  unfold gateFault; split <;> simp
@[simp] theorem gateReadFault_boot (d : Dev) (k p cause token addr n : Nat) :
    (gateReadFault d k p cause token addr n).boot = d.boot := by simp [gateReadFault]
@[simp] theorem writeRecords_boot (d : Dev) (p id slot base k : Nat) (cs : List Choice) :
    (writeRecords d p id slot base k cs).1.boot = d.boot := by
  fun_induction writeRecords <;> simp [*]
@[simp] theorem gateClose_boot (d : Dev) (k : Nat) : (gateClose d k).boot = d.boot := by
  fun_cases gateClose with
  | case5 g _ _ x p top _ a d1 _ ts cs d2 d3 d4 t hr =>
    have h3 : d3.boot = d.boot := by simp [d3, d2, d1]
    rw [gateFault_boot, boot_of_fst_eq hr (writeRecords_boot ..), h3]
  | case6 g _ _ x p top _ a d1 _ ts cs d2 d3 d4 hr =>
    have h3 : d3.boot = d.boot := by simp [d3, d2, d1]
    rw [modStep_boot, gateWrite_boot, boot_of_fst_eq hr (writeRecords_boot ..), h3]
  | case7 g _ _ x p top _ a d1 _ ts cs d2 d3 d4 hr =>
    have h3 : d3.boot = d.boot := by simp [d3, d2, d1]
    rw [gateFault_boot, boot_of_fst_eq hr (writeRecords_boot ..), h3]
  | _ => simp +zetaDelta
@[simp] theorem pushBytes_boot (u : Push) (a n : Nat) (d : Dev) : (pushBytes u a n d).2.boot = d.boot := by simp [pushBytes]
@[simp] theorem takeRow_boot (k : Nat) (g : GStep) (u : Push) (skip : Nat → Bool) (d : Dev) (i : Nat) :
    (takeRow k g u skip d i).boot = d.boot := by
  unfold takeRow; dsimp only; repeat' split
  all_goals simp
@[simp] theorem takePush_boot (k : Nat) (d : Dev) (u : Push) : (takePush k d u).boot = d.boot := by
  unfold takePush; dsimp only; repeat' split
  all_goals simp
@[simp] theorem grantStep_boot (d : Dev) (k : Nat) : (grantStep d k).boot = d.boot := by
  unfold grantStep; dsimp only; repeat' split
  all_goals simp
@[simp] theorem receivePush_boot (d : Dev) (u : Push) : (receivePush d u).boot = d.boot := by
  unfold receivePush; dsimp only; split <;> simp
@[simp] theorem workspaceError_boot (d : Dev) (k : Nat) : (workspaceError d k).boot = d.boot := by
  unfold workspaceError; split <;> simp
@[simp] theorem gateDiscard_boot (d : Dev) (k : GStep → Bool) (sev : Nat) (event : Bool) :
    (gateDiscard d k sev event).boot = d.boot := by simp [gateDiscard]
@[simp] theorem gateForget_boot (d : Dev) (p : Nat) : (gateForget d p).boot = d.boot := rfl

/-! ### Machine/Sluice.lean -/

@[simp] theorem modX_boot (d : Dev) (uid : Nat) (f : Exch → Exch) : (modX d uid f).boot = d.boot := rfl
@[simp] theorem modOut_boot (d : Dev) (uid dst : Nat) (f : OutXfer → OutXfer) : (modOut d uid dst f).boot = d.boot := rfl
@[simp] theorem modIn_boot (d : Dev) (uid src : Nat) (f : InXfer → InXfer) : (modIn d uid src f).boot = d.boot := rfl
@[simp] theorem slcErr_boot (d : Dev) (i : Nat) : (slcErr d i).boot = d.boot := rfl
@[simp] theorem slcFlag_boot (d : Dev) (p fl : Nat) : (slcFlag d p fl).boot = d.boot := rfl
@[simp] theorem slcWrite_boot (d : Dev) (x : Exch) (engine : Bool) (a : Nat) (bs : List Byte) :
    (slcWrite d x engine a bs).boot = d.boot := by simp [slcWrite]
@[simp] theorem slcNote_boot (d : Dev) (x : Exch) (a : Nat) (bs : List Byte) : (slcNote d x a bs).boot = d.boot := by
  simp [slcNote]
@[simp] theorem tableReport_boot (d : Dev) (p a n : Nat) : (tableReport d p a n).boot = d.boot := by
  unfold tableReport; split <;> simp
@[simp] theorem tablesReport_boot (d : Dev) (p : Nat) (x : BitVec 512) : (tablesReport d p x).boot = d.boot := by
  unfold tablesReport; dsimp only; split <;> simp
theorem writeHeaders_boot {d d' : Dev} {x : Exch} {hs : List (BitVec 512)} (h : writeHeaders d x hs = .inr d') :
    d'.boot = d.boot := by
  revert h; fun_induction writeHeaders <;> simp +contextual [*, eq_comm]
@[simp] theorem sendTo_boot (d : Dev) (uid dst upto : Nat) : (sendTo d uid dst upto).boot = d.boot := by
  unfold sendTo; repeat' split
  all_goals simp
@[simp] theorem takeCredit_boot (d : Dev) (own : Nat) (dev : DevId) (part : Nat) :
    (takeCredit d own dev part).2.boot = d.boot := by
  unfold takeCredit; dsimp only; split <;> simp
@[simp] theorem startOut_boot (uid : Nat) (d : Dev) (dst : Nat) : (startOut uid d dst).boot = d.boot := by
  unfold startOut; dsimp only; repeat' split
  all_goals simp
@[simp] theorem takeTags_boot (d : Dev) (x : Exch) : (takeTags d x).boot = d.boot := by simp [takeTags]
@[simp] theorem endOut_boot (d : Dev) (uid dst : Nat) : (endOut d uid dst).boot = d.boot := by
  unfold endOut; repeat' split
  all_goals simp
@[simp] theorem sendAbort_boot (status cause : Nat) (x : Exch) (d : Dev) (rank : Nat) :
    (sendAbort status cause x d rank).boot = d.boot := by simp [sendAbort]
@[simp] theorem enterSlcDup_boot (d : Dev) (cfg : U32) (src : DevId) (part tag : Nat) (id : U32) (whole : Bool) :
    (enterSlcDup d cfg src part tag id whole).boot = d.boot := by simp [enterSlcDup]
@[simp] theorem closeIns_boot (d : Dev) (x : Exch) : (closeIns d x).boot = d.boot := by
  unfold closeIns; refine foldl_boot (fun d x => ?_) _ _; split <;> simp
@[simp] theorem dropBuffers_boot (d : Dev) (x : Exch) : (dropBuffers d x).boot = d.boot := by simp [dropBuffers]
@[simp] theorem lostServing_boot (d : Dev) (x : Exch) (status cause : Nat) :
    (lostServing d x status cause).boot = d.boot := by
  simp [lostServing]
@[simp] theorem slcFail_boot (d : Dev) (uid status cause peer : Nat) (gone : List Nat) :
    (slcFail d uid status cause peer gone).boot = d.boot := by
  unfold slcFail; split <;> simp
@[simp] theorem slcRegionFail_boot (d : Dev) (uid p : Nat) (f : Nat × Nat × Nat) :
    (slcRegionFail d uid p f).boot = d.boot := by
  simp [slcRegionFail]
@[simp] theorem writeStatus_boot (d : Dev) (x : Exch) : (writeStatus d x).boot = d.boot := by simp [writeStatus]
@[simp] theorem addX_boot (d : Dev) (x : Exch) : (addX d x).boot = d.boot := rfl
@[simp] theorem startDispatch_boot (d : Dev) (x : Exch) : (startDispatch d x).boot = d.boot := by
  fun_cases startDispatch <;> grind [writeHeaders_boot, chargeRange_boot, addX_boot, modX_boot, opQuota_boot,
    slcRegionFail_boot, slcFlag_boot, foldl_boot]
@[simp] theorem slcSilent_boot (d : Dev) (x : Exch) (f : Nat × Nat) : (slcSilent d x f).boot = d.boot := by simp [slcSilent]
@[simp] theorem tablesTouched_boot (d : Dev) (p : Nat) (x : BitVec 512) : (tablesTouched d p x).boot = d.boot := by
  simp [tablesTouched]
theorem slcPost_boot {start : Dev → Exch → Dev} (h : ∀ d x, (start d x).boot = d.boot) (d : Dev) (p lcore : Nat) (sub : U32)
    (addr kind : Nat) : (slcPost d p lcore sub addr kind start).boot = d.boot := by
  fun_cases slcPost <;> grind [startDispatch_boot, logOp_boot, slcSilent_boot, addX_boot, lossHere_boot, slcFail_boot,
    tablesTouched_boot, tablesReport_boot]

/-! ### Machine/Exchange.lean -/

@[simp] theorem answerSlc_boot (d : Dev) (c : Cell) (ty off : Nat) (pay : BitVec 512) :
    (answerSlc d c ty off pay).boot = d.boot := by simp [answerSlc]
@[simp] theorem sendCountAck_boot (d : Dev) (c : Cell) (id : Nat) (defer_ : Bool) :
    (sendCountAck d c id defer_).boot = d.boot := by simp [sendCountAck]
@[simp] theorem grantCredit_boot (d : Dev) (cfg : U32) (dev : DevId) (p : Nat) :
    (grantCredit d cfg dev p).2.boot = d.boot := by
  unfold grantCredit; dsimp only; split <;> simp
@[simp] theorem sendSlcAck_boot (d : Dev) (dev : DevId) (combine : Bool) (part tag id credit : Nat) :
    (sendSlcAck d dev combine part tag id credit).boot = d.boot := by simp [sendSlcAck]
@[simp] theorem deferCell_boot (d : Dev) (c : Cell) (id : Nat) : (deferCell d c id).boot = d.boot := by simp [deferCell]
@[simp] theorem storeCell_boot (d : Dev) (c : Cell) : (storeCell d c).boot = d.boot := rfl
@[simp] theorem ackStored_boot (d : Dev) (c : Cell) : (ackStored d c).boot = d.boot := by
  unfold ackStored; split <;> simp
@[simp] theorem keepCell_boot (d : Dev) (c : Cell) : (keepCell d c).boot = d.boot := by simp [keepCell]
@[simp] theorem sluiceRaise_boot (d : Dev) (p : Nat) (t : SigTarget) : (sluiceRaise d p t).boot = d.boot := by
  unfold sluiceRaise; split <;> simp
@[simp] theorem expertDone_boot (uid : Nat) (d : Dev) (l : Nat) : (expertDone uid d l).boot = d.boot := by
  unfold expertDone; repeat' split
  all_goals simp
theorem placeBytes_boot {d d' : Dev} {x : Exch} {l row o : Nat} {bs : List Byte} {base : Nat × Nat}
    (h : placeBytes d x l row o bs base = .inr d') : d'.boot = d.boot := by
  revert h; fun_cases placeBytes <;> grind [chargeRange_boot, slcWrite_boot]
@[simp] theorem placeCell_boot (uid src : Nat) (d : Dev) (off : Nat) : (placeCell uid src d off).boot = d.boot := by
  fun_cases placeCell <;> grind [modIn_boot, expertDone_boot, modX_boot, placeBytes_boot, slcRegionFail_boot, foldl_boot]
@[simp] theorem placeAll_boot (uid : Nat) (d : Dev) (src : Nat) : (placeAll uid d src).boot = d.boot := by
  unfold placeAll; dsimp only; repeat' split
  all_goals simp
@[simp] theorem placeWaiting_boot (d : Dev) (p : Nat) : (placeWaiting d p).boot = d.boot := by simp [placeWaiting]
@[simp] theorem writeRowMap_boot (uid src : Nat) (d : Dev) (off : Nat) : (writeRowMap uid src d off).boot = d.boot := by
  fun_cases writeRowMap <;> simp [*]
@[simp] theorem answerReady_boot (d : Dev) (x : Exch) (i : InXfer) : (answerReady d x i).boot = d.boot := by
  simp [answerReady]
@[simp] theorem readyIf_boot (uid : Nat) (d : Dev) (src : Nat) : (readyIf uid d src).boot = d.boot := by
  fun_cases readyIf <;> simp [*]
@[simp] theorem ackIf_boot (uid : Nat) (d : Dev) (src : Nat) : (ackIf uid d src).boot = d.boot := by
  unfold ackIf; repeat' split
  all_goals simp
@[simp] theorem takeCell_boot (uid src : Nat) (d : Dev) (c : Cell) : (takeCell uid src d c).boot = d.boot := by
  unfold takeCell; split <;> simp
@[simp] theorem adoptLanding_boot (d : Dev) (uid src : Nat) (dev : DevId) (p : Nat) :
    (adoptLanding d uid src dev p).boot = d.boot := by
  unfold adoptLanding; dsimp only; split <;> simp
@[simp] theorem joinCount_boot (d : Dev) (x : Exch) (i : InXfer) (c : Cell) (whole : Option U32) (cfg : U32) :
    (joinCount d x i c whole cfg).boot = d.boot := by simp [joinCount]
@[simp] theorem newCount_boot (c : Cell) (id : U32) (d : Dev) : (newCount c id d).boot = d.boot := by
  unfold newCount; repeat' split
  all_goals simp
@[simp] theorem countCell_boot (c : Cell) (d : Dev) : (countCell c d).boot = d.boot := by
  unfold countCell; split <;> simp
@[simp] theorem bodyCell_boot (c : Cell) (d : Dev) : (bodyCell c d).boot = d.boot := by
  fun_cases bodyCell <;> simp [*]
@[simp] theorem endByAbort_boot (d : Dev) (x : Exch) (c : Cell) : (endByAbort d x c).boot = d.boot := by
  unfold endByAbort; split <;> simp
@[simp] theorem absorbStored_boot (d : Dev) (uid : Nat) : (absorbStored d uid).boot = d.boot := by
  fun_cases absorbStored <;> grind [joinCount_boot, endByAbort_boot, enterSlcDup_boot, slcFail_boot, foldl_boot]
@[simp] theorem refuseRecord_boot (uid : Nat) (d : Dev) (rec_ : Nat) : (refuseRecord uid d rec_).boot = d.boot := by
  unfold refuseRecord; split <;> simp
@[simp] theorem trimOwn_boot (uid : Nat) (d : Dev) : (trimOwn uid d).boot = d.boot := by
  unfold trimOwn; repeat' split
  all_goals simp
@[simp] theorem rowsFix_boot (x : Exch) (d : Dev) : (rowsFix x d).boot = d.boot := by
  fun_cases rowsFix <;> grind [ackIf_boot, readyIf_boot, trimOwn_boot, expertDone_boot, writeRowMap_boot, placeAll_boot,
    modX_boot, slcFail_boot, foldl_boot]
@[simp] theorem giveRegion_boot (d : Dev) (uid l : Nat) (is : List Nat) : (giveRegion d uid l is).boot = d.boot := by
  unfold giveRegion; split <;> simp
@[simp] theorem rxBufAlloc_boot (p : Nat) (exch : U32) (l : Nat) (d : Dev) : (rxBufAlloc p exch l d).boot = d.boot := by
  fun_cases rxBufAlloc <;> grind [request_boot, giveRegion_boot, foldl_boot]
@[simp] theorem xferComplete_boot (p : Nat) (exch : U32) (src : Nat) (d : Dev) :
    (xferComplete p exch src d).boot = d.boot := by
  unfold xferComplete; repeat' split
  all_goals simp
@[simp] theorem startCombine_boot (d : Dev) (x : Exch) : (startCombine d x).boot = d.boot := by
  unfold startCombine; dsimp only; repeat' split
  all_goals simp
@[simp] theorem xchgPost_boot (d : Dev) (p lcore : Nat) (sub : U32) (addr kind : Nat) :
    (xchgPost d p lcore sub addr kind).boot = d.boot := by
  simp [xchgPost, slcPost_boot startCombine_boot]
@[simp] theorem giveReturns_boot (d : Dev) (uid src : Nat) (is : List Nat) : (giveReturns d uid src is).boot = d.boot := by
  simp [giveReturns]
@[simp] theorem returnBuffersHeld_boot (p : Nat) (exch : U32) (src : Nat) (d : Dev) :
    (returnBuffers_ p exch src d).boot = d.boot := by
  fun_cases returnBuffers_ <;> grind [giveReturns_boot, request_boot, foldl_boot]
@[simp] theorem freeReturns_boot (uid : Nat) (d : Dev) : (freeReturns uid d).boot = d.boot := by
  unfold freeReturns; split <;> simp
@[simp] theorem homeSum_boot (p : Nat) (exch : U32) (t : Nat) (d : Dev) : (homeSum p exch t d).boot = d.boot := by
  unfold homeSum; dsimp only; repeat' split
  all_goals simp
@[simp] theorem countAckCell_boot (c : Cell) (d : Dev) : (countAckCell c d).boot = d.boot := by
  unfold countAckCell; split <;> simp
@[simp] theorem readyCell_boot (c : Cell) (d : Dev) : (readyCell c d).boot = d.boot := by
  unfold readyCell; split <;> simp
@[simp] theorem grantCell_boot (c : Cell) (d : Dev) : (grantCell c d).boot = d.boot := by
  unfold grantCell; split <;> simp
@[simp] theorem ackCell_boot (c : Cell) (d : Dev) : (ackCell c d).boot = d.boot := by
  unfold ackCell; repeat' split
  all_goals simp
@[simp] theorem abortCell_boot (c : Cell) (d : Dev) : (abortCell c d).boot = d.boot := by
  unfold abortCell; dsimp only; split <;> simp
@[simp] theorem removeX_boot (d : Dev) (uid : Nat) : (removeX d uid).boot = d.boot := rfl
@[simp] theorem closeX_boot (d : Dev) (x : Exch) : (closeX d x).boot = d.boot := rfl
@[simp] theorem keepAreas_boot (d : Dev) (x : Exch) : (keepAreas d x).boot = d.boot := rfl
@[simp] theorem exchComplete_boot (p : Nat) (exch : U32) (d : Dev) : (exchComplete p exch d).boot = d.boot := by
  unfold exchComplete; split <;> simp
@[simp] theorem abortX_boot (gone : Bool) (d : Dev) (x : Exch) : (abortX gone d x).boot = d.boot := by
  unfold abortX; dsimp only; split <;> simp
@[simp] theorem abortSub_boot (d : Dev) (p : Nat) (sub : U32) : (abortSub d p sub).boot = d.boot := by simp [abortSub]
@[simp] theorem slcForget_boot (d : Dev) (p : Nat) : (slcForget d p).boot = d.boot := by simp [slcForget]
@[simp] theorem resendOut_boot (d : Dev) (x : Exch) (o : OutXfer) (retry : Bool) (n : Nat) :
    (resendOut d x o retry n).boot = d.boot := by simp [resendOut]
@[simp] theorem slcTimeout_boot (p : Nat) (exch : U32) (dst : Nat) (d : Dev) : (slcTimeout p exch dst d).boot = d.boot := by
  unfold slcTimeout; split <;> simp
@[simp] theorem slcDefer_boot (p : Nat) (exch : U32) (dst : Nat) (d : Dev) : (slcDefer p exch dst d).boot = d.boot := by
  unfold slcDefer; split <;> simp
@[simp] theorem creditLapse_boot (dev : DevId) (p : Nat) (source : Bool) (d : Dev) :
    (creditLapse dev p source d).boot = d.boot := by
  unfold creditLapse; dsimp only; split <;> simp
@[simp] theorem abortResend_boot (p : Nat) (exch : U32) (dev : DevId) (d : Dev) :
    (abortResend p exch dev d).boot = d.boot := by
  unfold abortResend; dsimp only; split <;> simp
@[simp] theorem slcResendTo_boot (d : Dev) (peer : DevId) : (slcResendTo d peer).boot = d.boot := by simp [slcResendTo]
@[simp] theorem slcFenceDevice_boot (d : Dev) (dev : DevId) : (slcFenceDevice d dev).boot = d.boot := by
  fun_cases slcFenceDevice
  grind [freeAll_boot, slcFail_boot, endOut_boot, foldl_boot]
@[simp] theorem sendQuery_boot (d : Dev) (rill : Bool) (p : Nat) (id seq : U32) (dev : DevId) (part : Nat) :
    (sendQuery d rill p id seq dev part).boot = d.boot := by simp [sendQuery]
@[simp] theorem slcQueryTimer_boot (p : Nat) (id : U32) (dev : DevId) (d : Dev) :
    (slcQueryTimer p id dev d).boot = d.boot := by
  unfold slcQueryTimer; split <;> simp
@[simp] theorem slcPeerState_boot (c : Cell) (d : Dev) : (slcPeerState c d).boot = d.boot := by simp [slcPeerState]

/-! ### Machine/Rill.lean -/

@[simp] theorem modC_boot (d : Dev) (uid : Nat) (f : Coll → Coll) : (modC d uid f).boot = d.boot := rfl
@[simp] theorem rillErr_boot (d : Dev) (i : Nat) : (rillErr d i).boot = d.boot := rfl
@[simp] theorem rillFlag_boot (d : Dev) (p fl : Nat) : (rillFlag d p fl).boot = d.boot := rfl
@[simp] theorem modSlot_boot (d : Dev) (uid st c : Nat) (f : Slot → Slot) : (modSlot d uid st c f).boot = d.boot := rfl
@[simp] theorem needSlot_boot (d : Dev) (uid st c : Nat) : (needSlot d uid st c).boot = d.boot := rfl
@[simp] theorem modOutC_boot (d : Dev) (uid st c r : Nat) (f : CollXfer → CollXfer) :
    (modOutC d uid st c r f).boot = d.boot :=
  rfl
@[simp] theorem sendCtl_boot (d : Dev) (x : Coll) (r st c kind : Nat) (fields : List (Nat × Nat)) :
    (sendCtl d x r st c kind fields).boot = d.boot := by simp [sendCtl]
@[simp] theorem sendKept_boot (d : Dev) (x : Coll) (r kind level : Nat) (fields : List (Nat × Nat)) :
    (sendKept d x r kind level fields).boot = d.boot := by simp [sendKept]
@[simp] theorem sendDue_boot (d : Dev) (uid : Nat) : (sendDue d uid).boot = d.boot := by
  unfold sendDue; dsimp only; repeat' split
  all_goals simp
@[simp] theorem chargeSlots_boot (d : Dev) (x : Coll) (n : Nat) : (chargeSlots d x n).boot = d.boot := by simp [chargeSlots]
@[simp] theorem trySend_boot (uid st c : Nat) (d : Dev) (r : Nat) : (trySend uid st c d r).boot = d.boot := by
  unfold trySend; repeat' split
  all_goals simp
@[simp] theorem releaseSlot_boot (d : Dev) (uid st c : Nat) : (releaseSlot d uid st c).boot = d.boot := by
  unfold releaseSlot; split <;> simp
@[simp] theorem tryRelease_boot (uid : Nat) (d : Dev) (sc : Nat × Nat) : (tryRelease uid d sc).boot = d.boot := by
  unfold tryRelease; split <;> simp
@[simp] theorem pumpColl_boot (d : Dev) (uid : Nat) : (pumpColl d uid).boot = d.boot := by
  unfold pumpColl; split <;> simp
@[simp] theorem reportColl_boot (d : Dev) (x : Coll) (status cause rank : Nat) (signal : Bool) :
    (reportColl d x status cause rank signal).boot = d.boot := by
  unfold reportColl; repeat' split
  all_goals simp
@[simp] theorem collEnd_boot (d : Dev) (uid status cause rank : Nat) (signal : Bool) (fwd : Option Nat) :
    (collEnd d uid status cause rank signal fwd).boot = d.boot := by
  unfold collEnd; split <;> simp
@[simp] theorem verdictFuel_boot (k uid : Nat) (d : Dev) : (verdictFuel k uid d).boot = d.boot := by
  fun_induction verdictFuel <;> grind [collEnd_boot, modC_boot, sendKept_boot, foldl_boot]
@[simp] theorem verdictStep_boot (d : Dev) (uid : Nat) : (verdictStep d uid).boot = d.boot := by
  unfold verdictStep; split <;> simp
@[simp] theorem signalFuel_boot (k uid : Nat) (d : Dev) : (signalFuel k uid d).boot = d.boot := by
  fun_induction signalFuel <;> grind [addSem_boot, modC_boot]
@[simp] theorem chunkComplete_boot (d : Dev) (uid c : Nat) : (chunkComplete d uid c).boot = d.boot := by simp [chunkComplete]
@[simp] theorem barrierFuel_boot (k uid : Nat) (d : Dev) : (barrierFuel k uid d).boot = d.boot := by
  fun_induction barrierFuel with
  | case5 n uid d x _ _ ready s _ d1 d2 ih =>
    have h2 : d2.boot = d1.boot := by simp only [d2]; split <;> simp
    rw [ih, pumpColl_boot, h2, modSlot_boot]
  | _ => rfl
@[simp] theorem openColl_boot (d : Dev) (uid : Nat) (bufs : List Nat) : (openColl d uid bufs).boot = d.boot := rfl
@[simp] theorem askSlots_boot (d : Dev) (uid : Nat) : (askSlots d uid).boot = d.boot := by
  fun_cases askSlots <;> grind [openColl_boot, request_boot, foldl_boot]
@[simp] theorem settleComm_boot (k p comm : Nat) (d : Dev) : (settleComm k p comm d).boot = d.boot := by
  fun_induction settleComm <;> grind [sendDue_boot, verdictStep_boot, barrierFuel_boot, pumpColl_boot, collEnd_boot,
    foldl_boot]
@[simp] theorem settleColl_boot (d : Dev) (p comm : Nat) : (settleColl d p comm).boot = d.boot := by simp [settleColl]
@[simp] theorem takeOpen_boot (d : Dev) (uid : Nat) (c : Cell) : (takeOpen d uid c).boot = d.boot := by
  unfold takeOpen; repeat' split
  all_goals simp
@[simp] theorem takeAbort_boot (d : Dev) (uid : Nat) (c : Cell) : (takeAbort d uid c).boot = d.boot := by
  unfold takeAbort; split <;> simp
@[simp] theorem takeMismatch_boot (d : Dev) (uid : Nat) (c : Cell) : (takeMismatch d uid c).boot = d.boot := by
  fun_cases takeMismatch <;> simp [*]
@[simp] theorem absorbColl_boot (d : Dev) (uid p comm seq : Nat) : (absorbColl d uid p comm seq).boot = d.boot := by
  simp [absorbColl]
@[simp] theorem collAccept_boot (d : Dev) (p comm : Nat) (sub : U32) (at_ bucket : Option (Nat × Nat)) (x : BitVec 512)
    (fail : Option Nat) :
    (collAccept d p comm sub at_ bucket x fail).boot = d.boot := by
  unfold collAccept; dsimp only; repeat' split
  all_goals simp
@[simp] theorem collPost_boot (d : Dev) (p lcore : Nat) (sub : U32) (addr comm : Nat) :
    (collPost d p lcore sub addr comm).boot = d.boot := by simp [collPost]
@[simp] theorem rillAbort_boot (d : Dev) (x : Coll) : (rillAbort d x).boot = d.boot := by simp [rillAbort]
@[simp] theorem rillAbortSub_boot (d : Dev) (p : Nat) (sub : U32) : (rillAbortSub d p sub).boot = d.boot := by
  simp [rillAbortSub]
@[simp] theorem rillForget_boot (d : Dev) (p : Nat) : (rillForget d p).boot = d.boot := by simp [rillForget]
@[simp] theorem rillRestart_boot (d : Dev) (p : Nat) : (rillRestart d p).boot = d.boot := by simp [rillRestart]
@[simp] theorem dropComm_boot (d : Dev) (p comm : Nat) : (dropComm d p comm).boot = d.boot := rfl
@[simp] theorem rillFenceDevice_boot (d : Dev) (dev : DevId) : (rillFenceDevice d dev).boot = d.boot := by
  simp [rillFenceDevice]
@[simp] theorem resendXfer_boot (d : Dev) (x : Coll) (o : CollXfer) : (resendXfer d x o).boot = d.boot := by simp [resendXfer]
@[simp] theorem rillResendTo_boot (d : Dev) (dev : DevId) : (rillResendTo d dev).boot = d.boot := by
  unfold rillResendTo; refine foldl_boot (fun d x => ?_) _ _; split <;> simp
@[simp] theorem rillTick_boot (d : Dev) : (rillTick d).boot = d.boot := by simp [rillTick]
@[simp] theorem rillQueryTimer_boot (p : Nat) (id : U32) (dev : DevId) (d : Dev) :
    (rillQueryTimer p id dev d).boot = d.boot := by
  unfold rillQueryTimer; split <;> simp
@[simp] theorem rillPeerState_boot (c : Cell) (d : Dev) : (rillPeerState c d).boot = d.boot := by simp [rillPeerState]

/-! ### Machine/Stage.lean -/

@[simp] theorem chunkStart_boot (p comm chunk : Nat) (d : Dev) : (chunkStart p comm chunk d).boot = d.boot := by
  unfold chunkStart; dsimp only; repeat' split
  all_goals simp
@[simp] theorem giveRetain_boot (d : Dev) (uid chunk pool : Nat) (is : List Nat) :
    (giveRetain d uid chunk pool is).boot = d.boot := by
  unfold giveRetain; repeat' split
  all_goals simp
@[simp] theorem askRetain_boot (d : Dev) (uid chunk : Nat) : (askRetain d uid chunk).boot = d.boot := by
  fun_cases askRetain <;> grind [giveRetain_boot, request_boot, foldl_boot]
@[simp] theorem releaseRetention_boot (d : Dev) (p : Nat) (entry : Option Nat) :
    (releaseRetention d p entry).boot = d.boot := by
  simp [releaseRetention]
theorem writeOutput_boot {d d' : Dev} {x : Coll} {c : Nat} {res : Tbl (List Byte)} (h : writeOutput d x c res = .inr d') :
    d'.boot = d.boot := by
  revert h; fun_cases writeOutput <;> grind [writeRange_boot, rillFlag_boot, modC_boot, foldl_boot]
@[simp] theorem writeOnward_boot (d : Dev) (x : Coll) (st c : Nat) (res : Tbl (List Byte)) :
    (writeOnward d x st c res).boot = d.boot := by
  fun_cases writeOnward <;> grind [chunkComplete_boot, collEnd_boot, chargeSlots_boot, askRetain_boot, writeOutput_boot,
    modSlot_boot, countDenied_boot, needSlot_boot, foldl_boot]
@[simp] theorem stageSum_boot (p comm st chunk : Nat) (d : Dev) : (stageSum p comm st chunk d).boot = d.boot := by
  unfold stageSum; dsimp only; repeat' split
  all_goals simp
@[simp] theorem ackTransfer_boot (d : Dev) (x : Coll) (st c r : Nat) : (ackTransfer d x st c r).boot = d.boot := by
  simp [ackTransfer]
@[simp] theorem takeTransfer_boot (d : Dev) (x : Coll) (st c r : Nat) (bytes : List Byte) :
    (takeTransfer d x st c r bytes).boot = d.boot := by simp [takeTransfer]
@[simp] theorem ackEnded_boot (d : Dev) (p comm st : Nat) (c : Cell) : (ackEnded d p comm st c).boot = d.boot := by
  fun_cases ackEnded <;> simp [*]
@[simp] theorem collData_boot (c : Cell) (d : Dev) : (collData c d).boot = d.boot := by
  unfold collData; dsimp only; repeat' split
  all_goals simp
@[simp] theorem collEmpty_boot (c : Cell) (d : Dev) : (collEmpty c d).boot = d.boot := by
  fun_cases collEmpty <;> simp [*]

/-! ### Machine/Grad.lean -/

@[simp] theorem writeSummary_boot (d : Dev) (p : Nat) (e : BitVec 1024) (m : Nat) (word0 : Bool) (eloc : Option Int) :
    (writeSummary d p e m word0 eloc).boot = d.boot := by simp [writeSummary]
@[simp] theorem postBucket_boot (p : Nat) (d : Dev) (i : Nat) : (postBucket p d i).boot = d.boot := by
  unfold postBucket; repeat' split
  all_goals simp
@[simp] theorem seqPump_boot (d : Dev) (p : Nat) : (seqPump d p).boot = d.boot := by simp [seqPump]
@[simp] theorem seqPumpAll_boot (d : Dev) : (seqPumpAll d).boot = d.boot := by simp [seqPumpAll]
@[simp] theorem entryLost_boot (d : Dev) (p i status : Nat) (e : BitVec 1024) : (entryLost d p i status e).boot = d.boot := by
  simp [entryLost]
@[simp] theorem launchBucket_boot (d : Dev) (p i : Nat) (e : BitVec 1024) : (launchBucket d p i e).boot = d.boot := by
  unfold launchBucket; dsimp only; repeat' split
  all_goals simp
@[simp] theorem bucketFilled_boot (p i : Nat) (d : Dev) : (bucketFilled p i d).boot = d.boot := by
  unfold bucketFilled; dsimp only; repeat' split
  all_goals simp
@[simp] theorem bucketConverted_boot (p i : Nat) (d : Dev) : (bucketConverted p i d).boot = d.boot := by
  unfold bucketConverted; dsimp only; repeat' split
  all_goals simp
@[simp] theorem bucketFinish_boot (d : Dev) (p i : Nat) : (bucketFinish d p i).boot = d.boot := by
  unfold bucketFinish; split <;> simp
@[simp] theorem verifyBlock_boot (p i : Nat) (b : Bucket) (acc : Bool × Dev) (g : Nat) :
    (verifyBlock p i b acc g).2.boot = acc.2.boot := by
  unfold verifyBlock
  extract_lets d e key whole ok a d1 d2
  have h2 : d2.boot = acc.2.boot := by simp [d2, d1, d]
  split
  · rfl
  split
  · rfl
  split
  · split <;> simp [h2]
  · simp [h2]
@[simp] theorem shardVerify_boot (p i : Nat) (d : Dev) : (shardVerify p i d).boot = d.boot := by
  have hblocks (b : Bucket) (d : Dev) (gs : List Nat) : (gs.foldl (verifyBlock p i b) (true, d)).2.boot = d.boot :=
    foldl_keeps (fun y : Bool × Dev => y.2.boot) _ (verifyBlock_boot p i b) _ _
  fun_cases shardVerify <;> grind [selfFault_boot, bucketFinish_boot, noteDenied_boot, lossAt_boot, touched_boot,
    seqPump_boot, bucketFail_boot, grdFlag_boot, modBucket_boot, writeSummary_boot]
@[simp] theorem summaryDone_boot (p i : Nat) (d : Dev) : (summaryDone p i d).boot = d.boot := by
  unfold summaryDone; repeat' split
  all_goals simp
@[simp] theorem grdBoundary_boot (d : Dev) (p : Nat) : (grdBoundary d p).boot = d.boot := rfl
@[simp] theorem grdNoTasks_boot (d : Dev) (p : Nat) : (grdNoTasks d p).boot = d.boot := by simp [grdNoTasks]
@[simp] theorem grdCfgWrite_boot (p : Nat) (v : U64) (d : Dev) : (grdCfgWrite p v d).boot = d.boot := by simp [grdCfgWrite]
@[simp] theorem grdBtabWrite_boot (p : Nat) (v : U64) (d : Dev) : (grdBtabWrite p v d).boot = d.boot := by simp [grdBtabWrite]

/-! ### Machine/Collectives.lean -/

@[simp] theorem onColl_boot {deliver : Dev → Dev} (h : ∀ d, (deliver d).boot = d.boot) (d : Dev) (port : Nat) (c : Cell)
    (kind : Nat) : (onColl d port c kind deliver).boot = d.boot :=
  onCell_boot (fun e he => ite_eq_of Dev.boot (by simp [h, he]) rfl) ..
@[simp] theorem answerColl_boot (d : Dev) (c : Cell) (kind chunk : Nat) : (answerColl d c kind chunk).boot = d.boot := by
  simp [answerColl]
@[simp] theorem slotsReserved_boot (p comm : Nat) (d : Dev) : (slotsReserved p comm d).boot = d.boot := by
  fun_cases slotsReserved <;> grind [openColl_boot, grantWaiting_boot, settleColl_boot, foldl_boot]
@[simp] theorem keepEarly_boot (d : Dev) (c : Cell) (kind chunk : Nat) : (keepEarly d c kind chunk).boot = d.boot := by
  simp [keepEarly]
@[simp] theorem controlCell_boot {take : Dev → Nat → Cell → Dev} (h : ∀ d u c, (take d u c).boot = d.boot) (c : Cell)
    (kind chunk : Nat) (d : Dev) : (controlCell c kind chunk take d).boot = d.boot := by
  fun_cases controlCell <;> simp [*]
@[simp] theorem dropKept_boot (d : Dev) (c : Cell) (kind level : Nat) : (dropKept d c kind level).boot = d.boot := rfl
@[simp] theorem openAck_boot (c : Cell) (d : Dev) : (openAck c d).boot = d.boot := by
  unfold openAck; dsimp only; repeat' split
  all_goals simp
@[simp] theorem noteFreed_boot (d : Dev) (x : Coll) (st r f : Nat) : (noteFreed d x st r f).boot = d.boot := rfl
@[simp] theorem collAck_boot (c : Cell) (d : Dev) : (collAck c d).boot = d.boot := by
  unfold collAck; repeat' split
  all_goals simp
@[simp] theorem collFree_boot (c : Cell) (d : Dev) : (collFree c d).boot = d.boot := by
  fun_cases collFree <;> simp [*]
@[simp] theorem collProbe_boot (c : Cell) (d : Dev) : (collProbe c d).boot = d.boot := by
  fun_cases collProbe <;> simp [*]
@[simp] theorem collRetry_boot (d : Dev) (x : Coll) (o : CollXfer) : (collRetry d x o).boot = d.boot := by simp [collRetry]
@[simp] theorem collNak_boot (c : Cell) (d : Dev) : (collNak c d).boot = d.boot := by
  fun_cases collNak <;> simp [*]
@[simp] theorem collTimeout_boot (p comm st chunk peer : Nat) (d : Dev) :
    (collTimeout p comm st chunk peer d).boot = d.boot := by
  fun_cases collTimeout <;> simp [*]
@[simp] theorem windowProbe_boot (p comm st peer : Nat) (d : Dev) : (windowProbe p comm st peer d).boot = d.boot := by
  unfold windowProbe; split <;> simp
@[simp] theorem controlResend_boot (p comm kind peer : Nat) (d : Dev) : (controlResend p comm kind peer d).boot = d.boot := by
  unfold controlResend; dsimp only; split <;> simp
@[simp] theorem rillHoldExpiry_boot (p comm peer : Nat) (d : Dev) : (rillHoldExpiry p comm peer d).boot = d.boot := by
  simp [rillHoldExpiry]
@[simp] theorem peerQueryCell_boot (c : Cell) (d : Dev) : (peerQueryCell c d).boot = d.boot := by simp [peerQueryCell]

/-! ### Machine/Ftl.lean -/

@[simp] theorem ftlErr_boot (d : Dev) (i : Nat) : (ftlErr d i).boot = d.boot := rfl
@[simp] theorem addWear_boot (d : Dev) (n : Nat) : (addWear d n).boot = d.boot := by simp [addWear]
@[simp] theorem writeBlock_boot (d : Dev) (key : Nat) (bs : List Byte) : (writeBlock d key bs).boot = d.boot := by
  simp [writeBlock]
@[simp] theorem trimBlock_boot (d : Dev) (key : Nat) : (trimBlock d key).boot = d.boot := rfl
@[simp] theorem trimExtent_boot (d : Dev) (e : Nat) : (trimExtent d e).boot = d.boot := rfl
@[simp] theorem countReads_boot (d : Dev) (keys : List Nat) : (countReads d keys).boot = d.boot := by simp [countReads]
@[simp] theorem moveLive_boot (d : Dev) (eb : Nat) : (moveLive d eb).boot = d.boot := by simp [moveLive]
@[simp] theorem flashRelocation_boot (eb : Nat) (d : Dev) : (flashRelocation eb d).boot = d.boot := by
  unfold flashRelocation; split <;> simp
@[simp] theorem loseKey_boot (d : Dev) (key : Nat) : (loseKey d key).boot = d.boot := by
  unfold loseKey; dsimp only; repeat' split
  all_goals simp
@[simp] theorem flashRead_boot (d : Dev) (keys : List Nat) : (flashRead d keys).boot = d.boot := by simp [flashRead]
@[simp] theorem scrubErase_boot (eb : Nat) (r : MediaResult) (d : Dev) : (scrubErase eb r d).boot = d.boot := by
  unfold scrubErase; dsimp only; repeat' split
  all_goals simp
@[simp] theorem ageErase_boot (eb : Nat) (r : MediaResult) (d : Dev) : (ageErase eb r d).boot = d.boot := by
  unfold ageErase; split <;> simp
@[simp] theorem flashScrub_boot (eb : Nat) (r : MediaResult) (d : Dev) : (flashScrub eb r d).boot = d.boot := by
  simp [flashScrub]

/-! ### Machine/Bulk.lean -/

@[simp] theorem modChan_boot (d : Dev) (ch : Nat) (f : Chan → Chan) : (modChan d ch f).boot = d.boot := rfl
@[simp] theorem dmaErr_boot (d : Dev) (i : Nat) : (dmaErr d i).boot = d.boot := rfl
@[simp] theorem halfEvent_boot (d : Dev) (p : Nat) (x : Desc) (sourceBytes : Nat) :
    (halfEvent d p x sourceBytes).1.boot = d.boot := by
  unfold halfEvent; split <;> simp
@[simp] theorem countEnd_boot (d : Dev) (ch : Nat) (x : Desc) : (countEnd d ch x).boot = d.boot := by simp [countEnd]

/-! ### Machine/Engines.lean -/

@[simp] theorem modEng_boot (d : Dev) (e : Nat) (f : Engine → Engine) : (modEng d e f).boot = d.boot := rfl
theorem chooseChan_boot {d d' : Dev} {e c : Nat} (h : chooseChan d e = some (c, d')) : d'.boot = d.boot := by
  revert h; fun_cases chooseChan <;> grind [modEng_boot]
@[simp] theorem passOver_boot (d : Dev) (e : Nat) : (passOver d e).boot = d.boot := by simp [passOver]
@[simp] theorem loadEngine_boot (d : Dev) (e : Nat) : (loadEngine d e).boot = d.boot := by
  have h3 : ∀ d3 : Dev, d3.boot = d.boot → ∀ c d4, chooseChan d3 e = some (c, d4) → d4.boot = d.boot :=
    fun _ h _ _ hc => (chooseChan_boot hc).trans h
  fun_cases loadEngine <;> grind [passOver_boot, modEng_boot]
@[simp] theorem loadEngines_boot (d : Dev) : (loadEngines d).boot = d.boot := by simp [loadEngines]
@[simp] theorem endActive_boot (d : Dev) (ch : Nat) : (endActive d ch).boot = d.boot := by simp [endActive]

/-! ### Machine/Rmem.lean -/

@[simp] theorem rmErr_boot (d : Dev) (i : Nat) : (rmErr d i).boot = d.boot := rfl
@[simp] theorem modReq_boot (d : Dev) (k : RmReq → Bool) (f : RmReq → RmReq) : (modReq d k f).boot = d.boot := rfl
@[simp] theorem rmPush_boot (d : Dev) (p st : Nat) (x : BitVec 512) : (rmPush d p st x).boot = d.boot := rfl
@[simp] theorem dmaPumpFuel_boot (k ch : Nat) (d : Dev) : (dmaPumpFuel k ch d).boot = d.boot := by
  fun_induction dmaPumpFuel <;> grind [modChan_boot, rmPush_boot]
@[simp] theorem dmaPump_boot (d : Dev) (ch : Nat) : (dmaPump d ch).boot = d.boot := by simp [dmaPump]
@[simp] theorem rmStore_boot (d : Dev) (p a : Nat) (bs : List Byte) : (rmStore d p a bs).boot = d.boot := by simp [rmStore]
@[simp] theorem fabricEnd_boot (d : Dev) (x : Desc) : (fabricEnd d x).1.boot = d.boot := by
  unfold fabricEnd; split <;> simp
@[simp] theorem dmaPartDone_boot (d : Dev) (ch status : Nat) (r : RmReq) : (dmaPartDone d ch status r).boot = d.boot := by
  unfold dmaPartDone; split <;> simp
@[simp] theorem dmaMedia_boot (d : Dev) (st : Nat) : (dmaMedia d st).boot = d.boot := by simp [dmaMedia]
@[simp] theorem holdTag_boot (d : Dev) (tag : Option Nat) (peer : DevId) : (holdTag d tag peer).boot = d.boot := by
  unfold holdTag; split <;> simp
@[simp] theorem detRejected_boot (d : Dev) (p : Nat) : (detRejected d p).boot = d.boot := rfl
@[simp] theorem rmComplete_boot (d : Dev) (r : RmReq) (status mask : Nat) : (rmComplete d r status mask).boot = d.boot := by
  simp [rmComplete]
@[simp] theorem takePages_boot (d : Dev) (p off n : Nat) (src : DevId) (stream : Option Nat) :
    (takePages d p off n src stream).boot = d.boot := rfl
@[simp] theorem noteComb_boot (d : Dev) (p off etype : Nat) (line : List Byte) :
    (noteComb d p off etype line).boot = d.boot := by
  unfold noteComb; split <;> simp
@[simp] theorem rmEffect_boot (d : Dev) (src : DevId) (p tag : Nat) (c : BitVec 512) (data : List Byte) :
    (rmEffect d src p tag c data).1.boot = d.boot := by
  unfold rmEffect
  extract_lets op off n flagRange restricted spans stream d1 d2 old
  have h2 : d2.boot = d.boot := ite_eq_of Dev.boot (foldl_boot (fun _ _ => takePages_boot ..) _ _) rfl
  refine ite_eq_of (fun y : Dev × RmAns => y.1.boot) rfl (ite_eq_of (fun y : Dev × RmAns => y.1.boot) (by simp) ?_)
  clear_value op d2
  split
  · split <;> simp [h2]
  · split <;> simp [h2]
  · split
    · simp [h2]
    · split
      · exact h2
      · simp [h2]
  all_goals simp [h2]
@[simp] theorem markSeq_boot (d : Dev) (src : DevId) (p op seq : Nat) : (markSeq d src p op seq).boot = d.boot := by
  simp [markSeq]
@[simp] theorem sourceRestart_boot (d : Dev) (src : DevId) (p op seq : Nat) (retry : Bool) :
    (sourceRestart d src p op seq retry).boot = d.boot := by simp [sourceRestart]
@[simp] theorem enterDup_boot (d : Dev) (src : DevId) (p tag seq op : Nat) (a : RmAns) :
    (enterDup d src p tag seq op a).boot = d.boot := by simp [enterDup]
@[simp] theorem answer_boot (d : Dev) (dest : DevId) (p tag : Nat) (a : RmAns) : (answer d dest p tag a).boot = d.boot := by
  simp [answer]
@[simp] theorem rmServe_boot (d : Dev) (src : DevId) (p tag : Nat) (c : BitVec 512) (data : List Byte) (retry : Bool) :
    (rmServe d src p tag c data retry).1.boot = d.boot := by
  unfold rmServe; dsimp only; repeat' split
  all_goals simp
@[simp] theorem serveAndAnswer_boot (d : Dev) (src : DevId) (p tag : Nat) (c : BitVec 512) (data : List Byte) (retry : Bool) :
    (serveAndAnswer d src p tag c data retry).boot = d.boot := by
  fun_cases serveAndAnswer <;> grind [rmServe_boot, answer_boot, foldl_boot]
theorem lateCell_boot {d d' : Dev} {c : Cell} {cmd : BitVec 512} {op seq : Nat} (h : lateCell d c cmd op seq = some d') :
    d'.boot = d.boot := by
  revert h; fun_cases lateCell <;> simp +contextual [*, eq_comm]
theorem rmLate_boot {d d' : Dev} {c : Cell} (h : rmLate d c = some d') : d'.boot = d.boot := by
  unfold rmLate at h; split at h
  · nomatch h
  · exact lateCell_boot h
@[simp] theorem rmGather_boot (d : Dev) (c : Cell) : (rmGather d c).1.boot = d.boot := by
  fun_cases rmGather <;> simp [*]
@[simp] theorem modMerge_boot (d : Dev) (c : Cell) (f : MergePair → MergePair) : (modMerge d c f).boot = d.boot := rfl
@[simp] theorem tryMerge_boot (d : Dev) (m : MergePair) : (tryMerge d m).boot = d.boot := by
  unfold tryMerge; dsimp only; repeat' split
  all_goals simp
@[simp] theorem settleMerges_boot (d : Dev) : (settleMerges d).boot = d.boot := by simp [settleMerges]
@[simp] theorem rmArrive_boot (d : Dev) (c : Cell) : (rmArrive d c).boot = d.boot := by
  fun_cases rmArrive <;> grind [settleMerges_boot, rmLate_boot, rmGather_boot, serveAndAnswer_boot, foldl_boot]
@[simp] theorem rmCell_boot (n : Nat) (c : Cell) (ty : Nat) (d : Dev) : (rmCell n c ty d).boot = d.boot := by simp [rmCell]
@[simp] theorem relayCopies_boot (d : Dev) (c : Cell) (cmd : BitVec 512) : (relayCopies d c cmd).boot = d.boot := by
  simp [relayCopies]
@[simp] theorem mcastCell_boot (c : Cell) (d : Dev) : (mcastCell c d).boot = d.boot := by
  fun_cases mcastCell <;> grind [rmLate_boot, rmGather_boot, serveAndAnswer_boot, relayCopies_boot, foldl_boot]
@[simp] theorem heldWrite_boot (src : DevId) (tag p : Nat) (d : Dev) : (heldWrite src tag p d).boot = d.boot := by
  unfold heldWrite; dsimp only; split <;> simp
@[simp] theorem modWin_boot (d : Dev) (k : GwWin → Bool) (f : GwWin → GwWin) : (modWin d k f).boot = d.boot := rfl
@[simp] theorem flushWin_boot (d : Dev) (w : GwWin) : (flushWin d w).boot = d.boot := by
  unfold flushWin; repeat' split
  all_goals simp
@[simp] theorem flushStream_boot (d : Dev) (p st : Nat) : (flushStream d p st).boot = d.boot := by simp [flushStream]
@[simp] theorem gwStore_boot (d : Dev) (p st order : Nat) (x : BitVec 512) (data : List Byte) :
    (gwStore d p st order x data).boot = d.boot := by simp [gwStore]
@[simp] theorem gwFetch_boot (d : Dev) (p st order : Nat) (x : BitVec 512) (tag : Nat) :
    (gwFetch d p st order x tag).boot = d.boot := by simp [gwFetch]
@[simp] theorem settleFuel_boot (k p st : Nat) (d : Dev) : (settleFuel k p st d).boot = d.boot := by
  fun_induction settleFuel <;> grind [rmComplete_boot, foldl_boot]
@[simp] theorem settle_boot (d : Dev) (p st : Nat) : (settle d p st).boot = d.boot := by
  unfold settle; dsimp only; split <;> simp
@[simp] theorem takeSeq_boot (d : Dev) (dest : DevId) (p op : Nat) : (takeSeq d dest p op).2.boot = d.boot := by
  unfold takeSeq; split <;> simp
@[simp] theorem chargeLocal_boot (d : Dev) (r : RmReq) (n : Nat) : (chargeLocal d r n).boot = d.boot := by simp [chargeLocal]
@[simp] theorem rmSend_boot (d : Dev) (r : RmReq) (tag : Nat) : (rmSend d r tag).boot = d.boot := by
  fun_cases rmSend <;> grind [settle_boot, chargeLocal_boot, rmServe_boot, modReq_boot, sendAll_boot, rmComplete_boot,
    takeSeq_boot, foldl_boot]
@[simp] theorem mcastEnd_boot (d : Dev) (r : RmReq) : (mcastEnd d r).boot = d.boot := by simp [mcastEnd]
@[simp] theorem mcastSend_boot (d : Dev) (r : RmReq) (tag : Nat) : (mcastSend d r tag).boot = d.boot := by
  fun_cases mcastSend <;> grind [chargeLocal_boot, rmServe_boot, modReq_boot, mcastEnd_boot, sendAll_boot, foldl_boot]
@[simp] theorem flushOne_boot (d : Dev) (p : Nat) : (flushOne d p).boot = d.boot := by
  unfold flushOne; split <;> simp
@[simp] theorem gwIssue_boot (d : Dev) (r : RmReq) : (gwIssue d r).boot = d.boot := by
  unfold gwIssue; repeat' split
  all_goals simp
@[simp] theorem rqRefused_boot (d q : Dev) (p st : Nat) (x : BitVec 512) (status : Nat) :
    (rqRefused d q p st x status).boot = d.boot := by
  unfold rqRefused; split
  · simp
  · split
    · split <;> simp
    · rfl
theorem rmPoisoned_boot {d d' : Dev} {p st : Nat} {r : RmReq} (h : rmPoisoned d p st r = some d') : d'.boot = d.boot := by
  revert h; fun_cases rmPoisoned <;> simp +contextual [*, eq_comm]
@[simp] theorem rmIssue_boot (p st op : Nat) (tgt : Bool) (d : Dev) : (rmIssue p st op tgt d).boot = d.boot := by
  fun_cases rmIssue <;> grind [gwIssue_boot, settle_boot, mcastSend_boot, rmPoisoned_boot, flushStream_boot, modReq_boot,
    rmComplete_boot, rmSend_boot, rqRefused_boot]
@[simp] theorem flagGlobal_boot (p st : Nat) (d : Dev) : (flagGlobal p st d).boot = d.boot := by
  unfold flagGlobal; split
  · rfl
  · dsimp only; split
    · rfl
    split
    · split
      · simp
      split
      · exact rmPoisoned_boot ‹_›
      · simp
      · rfl
    · simp
@[simp] theorem respCell_boot (d : Dev) (r : RmReq) (c : Cell) : (respCell d r c).boot = d.boot := by simp [respCell]
@[simp] theorem respMcast_boot (d : Dev) (r : RmReq) (c : Cell) : (respMcast d r c).boot = d.boot := by simp [respMcast]
@[simp] theorem respWin_boot (d : Dev) (w : GwWin) (status : Nat) : (respWin d w status).boot = d.boot := by simp [respWin]
@[simp] theorem rmResp_boot (c : Cell) (d : Dev) : (rmResp c d).boot = d.boot := by
  fun_cases rmResp <;> simp [*]
@[simp] theorem resend_boot (d : Dev) (p : Nat) (cs : List Cell) : (resend d p cs).boot = d.boot := by simp [resend]
@[simp] theorem mcastResend_boot (d : Dev) (r : RmReq) : (mcastResend d r).boot = d.boot := by simp [mcastResend]
@[simp] theorem rmTimeout_boot (tag : Nat) (d : Dev) : (rmTimeout tag d).boot = d.boot := by
  unfold rmTimeout; repeat' split
  all_goals simp
@[simp] theorem rmResendTo_boot (d : Dev) (peer : DevId) : (rmResendTo d peer).boot = d.boot := by simp [rmResendTo]
@[simp] theorem rmFenceDevice_boot (d : Dev) (dev : DevId) : (rmFenceDevice d dev).boot = d.boot := by simp [rmFenceDevice]
@[simp] theorem gwWhole_boot (d : Dev) (c : Cell) (x : GwRx) (cmd : BitVec 512) : (gwWhole d c x cmd).boot = d.boot := by
  unfold gwWhole; split <;> simp
@[simp] theorem gwWriteCell_boot (c : Cell) (d : Dev) : (gwWriteCell c d).boot = d.boot := by
  fun_cases gwWriteCell <;> grind [lateCell_boot, gwWhole_boot, foldl_boot]
@[simp] theorem gwReadCell_boot (c : Cell) (d : Dev) : (gwReadCell c d).boot = d.boot := by simp [gwReadCell]
@[simp] theorem gwDataCell_boot (c : Cell) (d : Dev) : (gwDataCell c d).boot = d.boot := by
  unfold gwDataCell; dsimp only; split <;> simp

/-! ### Machine/Dma.lean -/

@[simp] theorem chanFault_boot (d : Dev) (ch : Nat) : (chanFault d ch).boot = d.boot := by simp [chanFault]
@[simp] theorem dmaFetch_boot (ch : Nat) (d : Dev) : (dmaFetch ch d).boot = d.boot := by simp [dmaFetch]
@[simp] theorem firmwareCheck_boot (d q : Dev) (ch : Nat) (x : Desc) : (firmwareCheck d q ch x).2.boot = d.boot := by
  unfold firmwareCheck; split <;> simp
@[simp] theorem runBulk_boot {f : Dev → Nat → Nat → Desc → Dev × Desc} (h : ∀ d p ch x, (f d p ch x).1.boot = d.boot)
    (op ch : Nat) (d : Dev) : (runBulk op f ch d).boot = d.boot := by
  fun_cases runBulk <;> grind [modChan_boot, loadEngine_boot, firmwareCheck_boot, countDenied_boot, foldl_boot]
@[simp] theorem mediaEnd_boot (d : Dev) (p ch : Nat) (x : Desc) (moved addr len : Nat) :
    (mediaEnd d p ch x moved addr len).1.boot = d.boot := by simp [mediaEnd]
@[simp] theorem lossEnd_boot (d : Dev) (p ch : Nat) (x : Desc) (moved a : Nat) :
    (lossEnd d p ch x moved a).1.boot = d.boot := by
  simp [lossEnd]
@[simp] theorem putCheck_boot (d : Dev) (p kind a : Nat) (bs : List Byte) : (putCheck d p kind a bs).boot = d.boot := by
  simp [putCheck]
@[simp] theorem chargeUnit_boot (d : Dev) (p a n : Nat) (fixed : Bool) : (chargeUnit d p a n fixed).boot = d.boot := by
  simp [chargeUnit]
@[simp] theorem copyDesc_boot (d : Dev) (p ch : Nat) (x : Desc) : (copyDesc d p ch x).1.boot = d.boot := by
  unfold copyDesc; dsimp only; split <;> simp
@[simp] theorem flashReadDesc_boot (d : Dev) (p ch : Nat) (x : Desc) : (flashReadDesc d p ch x).1.boot = d.boot := by
  unfold flashReadDesc; dsimp only; repeat' split
  all_goals simp
@[simp] theorem flashWriteDesc_boot (d : Dev) (p ch : Nat) (x : Desc) : (flashWriteDesc d p ch x).1.boot = d.boot := by
  unfold flashWriteDesc; dsimp only; split <;> simp
@[simp] theorem flashTrimDesc_boot (d : Dev) (p _ch : Nat) (x : Desc) : (flashTrimDesc d p _ch x).1.boot = d.boot := by
  fun_cases flashTrimDesc
  grind [trimBlock_boot, weirCharge_boot, foldl_boot]
@[simp] theorem fabricDesc_boot (d : Dev) (_p ch : Nat) (x : Desc) : (fabricDesc d _p ch x).1.boot = d.boot := rfl
@[simp] theorem fabricRun_boot (op ch : Nat) (d : Dev) : (fabricRun op ch d).boot = d.boot := by
  simp [fabricRun, runBulk_boot fabricDesc_boot]
@[simp] theorem allocDesc_boot (d : Dev) (p _ch : Nat) (x : Desc) : (allocDesc d p _ch x).1.boot = d.boot := by
  unfold allocDesc; dsimp only; split <;> simp
@[simp] theorem freeDesc_boot (d : Dev) (p ch : Nat) (x : Desc) : (freeDesc d p ch x).1.boot = d.boot := by
  unfold freeDesc; dsimp only; repeat' split
  all_goals simp
@[simp] theorem writeBack_boot (d : Dev) (x : Desc) : (writeBack d x).boot = d.boot := by simp [writeBack]
@[simp] theorem copyEnded_boot (d : Dev) (x : Desc) : (copyEnded d x).boot = d.boot := rfl
@[simp] theorem descriptorComplete_boot (ch : Nat) (d : Dev) : (descriptorComplete ch d).boot = d.boot := by
  unfold descriptorComplete; split <;> simp
@[simp] theorem leaveEngines_boot (mine : List Nat) (d : Dev) : (leaveEngines mine d).boot = d.boot := by
  fun_cases leaveEngines
  grind [modChan_boot, modEng_boot, loadEngine_boot, foldl_boot]
@[simp] theorem dropChannels_boot (d : Dev) (p : Nat) : (dropChannels d p).boot = d.boot := by simp [dropChannels]

/-! ### Machine/Sched.lean -/

@[simp] theorem modCoreTask_boot (d : Dev) (pc : Nat) (f : Task → Task) : (modCoreTask d pc f).boot = d.boot := rfl
@[simp] theorem schErr_boot (d : Dev) (i : Nat) : (schErr d i).boot = d.boot := rfl
@[simp] theorem modWindow_boot (d : Dev) (k : Nat) (f : Window → Window) : (modWindow d k f).boot = d.boot := rfl
@[simp] theorem subDone_boot (d : Dev) (p : Nat) (req : ReqId) (noevt : Bool) (id : U32) (status gen : Nat) :
    (subDone d p req noevt id status gen).boot = d.boot := by simp [subDone]
@[simp] theorem admitFuel_boot (k p : Nat) (d : Dev) : (admitFuel k p d).boot = d.boot := by
  fun_induction admitFuel <;> grind [Dev.modPart_boot, respond_boot]
@[simp] theorem admitHeld_boot (d : Dev) (p : Nat) : (admitHeld d p).boot = d.boot := by simp [admitHeld]
@[simp] theorem endSubOps_boot (d : Dev) (p : Nat) (s : Sub) : (endSubOps d p s).boot = d.boot := by simp [endSubOps]
@[simp] theorem subComplete_boot (d : Dev) (p : Nat) (s : Sub) : (subComplete d p s).boot = d.boot := by
  unfold subComplete; split <;> simp
@[simp] theorem abortsDue_boot (d : Dev) (p : Nat) : (abortsDue d p).boot = d.boot := by simp [abortsDue]
@[simp] theorem endSubs_boot (d : Dev) (p : Nat) : (endSubs d p).boot = d.boot := by simp [endSubs]
@[simp] theorem taskRetired_boot (d : Dev) (p : Nat) (id : U32) (entry status : Nat) :
    (taskRetired d p id entry status).boot = d.boot := by
  unfold taskRetired; dsimp only; split <;> simp
@[simp] theorem beginHandover_boot (d : Dev) (pc : Nat) (inPart : Option Nat) :
    (beginHandover d pc inPart).boot = d.boot := by
  simp [beginHandover]
@[simp] theorem beginTask_boot (d : Dev) (pc : Nat) : (beginTask d pc).boot = d.boot := by
  unfold beginTask; dsimp only; split <;> simp
@[simp] theorem recoveryDone_boot (d : Dev) (pc : Nat) : (recoveryDone d pc).boot = d.boot := by
  unfold recoveryDone; dsimp only; repeat' split
  all_goals simp
@[simp] theorem retireTask_boot (d : Dev) (pc status : Nat) : (retireTask d pc status).boot = d.boot := by
  unfold retireTask; dsimp only; split <;> simp
@[simp] theorem settleCore_boot (d : Dev) (pc : Nat) : (settleCore d pc).boot = d.boot := by
  unfold settleCore; dsimp only; repeat' split
  all_goals simp
@[simp] theorem stopTask_boot (d : Dev) (pc status : Nat) (idx : Option Nat) :
    (stopTask d pc status idx).boot = d.boot := by
  unfold stopTask; dsimp only; split <;> simp
@[simp] theorem abortTask_boot (d : Dev) (pc : Nat) : (abortTask d pc).boot = d.boot := by
  unfold abortTask; dsimp only; split <;> simp
@[simp] theorem abortWaiting_boot (d : Dev) (pc : Nat) : (abortWaiting d pc).boot = d.boot := by
  unfold abortWaiting; split <;> simp
@[simp] theorem replayEnded_boot (d : Dev) (pc : Nat) : (replayEnded d pc).boot = d.boot := by
  unfold replayEnded; split <;> simp
@[simp] theorem abortSubmission_boot (d : Dev) (p : Nat) (id : U32) : (abortSubmission d p id).boot = d.boot := by
  unfold abortSubmission; dsimp only; repeat' split
  all_goals simp
@[simp] theorem saveOut_boot (d : Dev) (pc lcore q : Nat) (victim : Bool) : (saveOut d pc lcore q victim).boot = d.boot := by
  unfold saveOut; dsimp only; split <;> simp
@[simp] theorem restoreIn_boot (d : Dev) (pc lcore : Nat) (inPart : Option Nat) :
    (restoreIn d pc lcore inPart).boot = d.boot := by
  unfold restoreIn; split <;> simp
@[simp] theorem loadFresh_boot (d : Dev) (pc p : Nat) (q : QEntry) : (loadFresh d pc p q).boot = d.boot := by simp [loadFresh]
@[simp] theorem placed_boot (d : Dev) (p : Nat) : (placed d p).boot = d.boot := rfl
@[simp] theorem handoverDone_boot (n : Nat) (d : Dev) : (handoverDone n d).boot = d.boot := by
  unfold handoverDone; dsimp only; repeat' split
  all_goals simp
@[simp] theorem taskPlace_boot (n : Nat) (d : Dev) : (taskPlace n d).boot = d.boot := by
  unfold taskPlace; dsimp only; repeat' split
  all_goals simp
@[simp] theorem preempt_boot (p i : Nat) (d : Dev) : (preempt p i d).boot = d.boot := by
  fun_cases preempt <;> simp [*]
@[simp] theorem watchdogExpiry_boot (n : Nat) (d : Dev) : (watchdogExpiry n d).boot = d.boot := by
  fun_cases watchdogExpiry <;> simp [*]
@[simp] theorem modChansOf_boot (d : Dev) (p : Nat) (f : Chan → Chan) : (modChansOf d p f).boot = d.boot := rfl
@[simp] theorem pauseBoundary_boot (p : Nat) (d : Dev) : (pauseBoundary p d).boot = d.boot := by simp [pauseBoundary]
@[simp] theorem partitionPaused_boot (p : Nat) (d : Dev) : (partitionPaused p d).boot = d.boot := by
  unfold partitionPaused; dsimp only; repeat' split
  all_goals simp
@[simp] theorem resultPublish_boot (mb win : Nat) (d : Dev) : (resultPublish mb win d).boot = d.boot := by
  unfold resultPublish; dsimp only; repeat' split
  all_goals simp
@[simp] theorem endGen_boot (d : Dev) (k g : Nat) : (endGen d k g).boot = d.boot := rfl

/-! ### Machine/Parts.lean -/

@[simp] theorem grantPages_boot (d : Dev) (n : Nat) : (grantPages d n).2.boot = d.boot := rfl
@[simp] theorem setWeir_boot (d : Dev) (p rate burst : Nat) : (setWeir d p rate burst).boot = d.boot := by simp [setWeir]
@[simp] theorem restartSeqs_boot (d : Dev) (p : Nat) : (restartSeqs d p).boot = d.boot := rfl
theorem partCreate_boot {d d' : Dev} {p : Nat} {b bs : List Byte} (h : partCreate d p b = .inr (bs, d')) :
    d'.boot = d.boot := by
  revert h; fun_cases partCreate <;> grind [grantPages_boot, trimExtent_boot, Dev.modPart_boot, setWeir_boot,
    restartSeqs_boot, modChan_boot, foldl_boot]
@[simp] theorem setShare_boot (d : Dev) (g p : Nat) (v : U64) : (setShare d g p v).boot = d.boot := rfl
@[simp] theorem createPool_boot (d : Dev) (g : Nat) (cfg base : U64) : (createPool d g cfg base).boot = d.boot := by
  simp [createPool]
theorem poolEntry_boot {d d' : Dev} {p : Nat} {b : List Byte} (h : poolEntry d p b = .inr d') : d'.boot = d.boot := by
  revert h; fun_cases poolEntry <;> grind [setShare_boot, createPool_boot, notePool_boot, setPool_boot]
theorem poolEntries_boot {p i : Nat} {bs : List (List Byte)} {d d' : Dev} (h : poolEntries p i bs d = .inr d') :
    d'.boot = d.boot := by
  revert h; fun_induction poolEntries <;> grind [poolEntry_boot]
@[simp] theorem cutView_boot (d : Dev) (p top n : Nat) : (cutView d p top n).boot = d.boot := by simp [cutView]
@[simp] theorem dropView_boot (d : Dev) (p n : Nat) : (dropView d p n).boot = d.boot := by
  unfold dropView; split <;> simp
@[simp] theorem applyQuota_boot (d : Dev) (p : Nat) (q : QuotaReq) : (applyQuota d p q).boot = d.boot := by
  fun_cases applyQuota
  grind [dropView_boot, cutView_boot, Dev.modPart_boot, trimExtent_boot, grantPages_boot, foldl_boot]
theorem setQuota_waits_boot {d d' : Dev} {p : Nat} {b : List Byte} {started : Bool} (h : setQuota d p b started = .waits d') :
    d'.boot = d.boot := by
  revert h; fun_cases setQuota <;> grind [Dev.modPart_boot]
theorem setQuota_done_boot {d d' : Dev} {p : Nat} {b : List Byte} {started : Bool} (h : setQuota d p b started = .done d') :
    d'.boot = d.boot := by
  revert h; fun_cases setQuota <;> grind [poolEntries_boot, applyQuota_boot]
@[simp] theorem abortAll_boot (d : Dev) (p : Nat) (failed : Option Byte) : (abortAll d p failed).boot = d.boot := by
  fun_cases abortAll
  grind [Dev.modPart_boot, respond_boot, abortSubmission_boot, foldl_boot]
@[simp] theorem beginDestroy_boot (d : Dev) (p : Nat) : (beginDestroy d p).boot = d.boot := by simp [beginDestroy]
@[simp] theorem finishDestroy_boot (d : Dev) (p : Nat) : (finishDestroy d p).boot = d.boot := by simp [finishDestroy]

/-! ### Machine/Job.lean -/

@[simp] theorem relayMgmt_boot (d : Dev) (src dest : DevId) (m : Mgmt) : (relayMgmt d src dest m).boot = d.boot := by
  simp [relayMgmt]
@[simp] theorem toChildren_boot (d : Dev) (src : DevId) (l : List DevId) (j : Nat) (m : Nat → DevId → Mgmt) :
    (toChildren d src l j m).boot = d.boot := by simp [toChildren]
@[simp] theorem toMembers_boot (d : Dev) (j : Job) (m : Mgmt) : (toMembers d j m).boot = d.boot := by simp [toMembers]
@[simp] theorem learnEpoch_boot (d : Dev) (c : Cell) : (learnEpoch d c).boot = d.boot := by simp [learnEpoch]
theorem onMgmt_boot {f : Mgmt → Option (Dev → Dev)} (h : ∀ m g, f m = some g → ∀ d, (g d).boot = d.boot) (d : Dev)
    (n : Nat) (c : Cell) (boss : Bool) : (onMgmt d n c boss f).boot = d.boot := by
  refine onCell_boot (fun e he => ?_) ..
  split
  · split
    · rfl
    · split <;> simp [h _ _ ‹_›, he]
  · rfl

/-! ### Machine/Flags.lean -/

@[simp] theorem runFlags_boot {α : Type} (d : Dev) (p : Nat) (m : FlM α) : (runFlags d p m).2.boot = d.boot := rfl
@[simp] theorem addDigest_boot (d : Dev) (p accum : Nat) (v : U64) : (addDigest d p accum v).boot = d.boot := rfl

/-! ### Machine/Tiers.lean -/

@[simp] theorem memErr_boot (d : Dev) (i : Nat) : (memErr d i).boot = d.boot := rfl
@[simp] theorem spareBank_boot (d : Dev) (chan bank : Nat) : (spareBank d chan bank).boot = d.boot := by simp [spareBank]
@[simp] theorem spareRow_boot (d : Dev) (chan row : Nat) : (spareRow d chan row).boot = d.boot := by simp [spareRow]
@[simp] theorem correctedLine_boot (d : Dev) (a : Nat) : (correctedLine d a).boot = d.boot := by simp [correctedLine]
@[simp] theorem poisonLine_boot (d : Dev) (a : Nat) : (poisonLine d a).boot = d.boot := by
  unfold poisonLine; dsimp only; repeat' split
  all_goals simp
@[simp] theorem scrubPeriod_boot (d : Dev) : (scrubPeriod d).boot = d.boot := by simp [scrubPeriod]
@[simp] theorem coreSramError_boot (d : Dev) (pc o : Nat) (r : MediaResult) : (coreSramError d pc o r).boot = d.boot := by
  unfold coreSramError; dsimp only; repeat' split
  all_goals simp
@[simp] theorem cisternError_boot (d : Dev) (o : Nat) (r : MediaResult) : (cisternError d o r).boot = d.boot := by
  fun_cases cisternError <;> simp [*]
@[simp] theorem dramScrub_boot (a : Nat) (r : MediaResult) (d : Dev) : (dramScrub a r d).boot = d.boot := by
  unfold dramScrub; dsimp only; repeat' split
  all_goals simp
@[simp] theorem rowSpareDone_boot (row : Nat) (d : Dev) : (rowSpareDone row d).boot = d.boot := by
  unfold rowSpareDone; split <;> simp
@[simp] theorem bankSpareDone_boot (chan : Nat) (d : Dev) : (bankSpareDone chan d).boot = d.boot := by
  unfold bankSpareDone; split <;> simp

/-! ### Machine/Kv.lean -/

@[simp] theorem kvCfgWrite_boot (p : Nat) (v : BitVec 320) (d : Dev) : (kvCfgWrite p v d).boot = d.boot := by
  simp [kvCfgWrite]
@[simp] theorem setKvSeq_boot (d : Dev) (p s state npages : Nat) : (setKvSeq d p s state npages).boot = d.boot := by
  simp [setKvSeq]
@[simp] theorem setKvPages_boot (d : Dev) (p s first : Nat) (pages : List Nat) :
    (setKvPages d p s first pages).boot = d.boot := by simp [setKvPages]
@[simp] theorem takeKv_boot (d : Dev) (p n : Nat) : (takeKv d p n).2.boot = d.boot := rfl
@[simp] theorem giveKv_boot (d : Dev) (p : Nat) (pages : List Nat) : (giveKv d p pages).boot = d.boot := rfl
@[simp] theorem holdSlots_boot (d : Dev) (p s : Nat) (slots : List Nat) : (holdSlots d p s slots).boot = d.boot := rfl
@[simp] theorem dropSlots_boot (d : Dev) (p s : Nat) : (dropSlots d p s).boot = d.boot := rfl
@[simp] theorem setKvStatus_boot (d : Dev) (p : Nat) (c : KvChange) (status : Nat) :
    (setKvStatus d p c status).boot = d.boot := by simp [setKvStatus]
@[simp] theorem kvTouched_boot (d : Dev) (p : Nat) : (kvTouched d p).boot = d.boot := by simp [kvTouched]
@[simp] theorem kvFinish_boot (d : Dev) (p : Nat) : (kvFinish d p).boot = d.boot := by simp [kvFinish]
@[simp] theorem kvLeave_boot (d : Dev) (p : Nat) (c : KvChange) : (kvLeave d p c).boot = d.boot := by simp [kvLeave]
@[simp] theorem addCopy_boot (d : Dev) (p : Nat) (k : KvCopy) : (addCopy d p k).boot = d.boot := rfl
@[simp] theorem kvGrow_boot (d : Dev) (p : Nat) (c : KvChange) : (kvGrow d p c).boot = d.boot := by
  unfold kvGrow; dsimp only; repeat' split
  all_goals simp
@[simp] theorem kvJoin_boot (p : Nat) (acc : Dev × Bool) (c : KvChange) : (kvJoin p acc c).1.boot = acc.1.boot := by
  unfold kvJoin; split; split <;> simp
@[simp] theorem kvProcess_boot (d : Dev) (p : Nat) (cs : List KvChange) : (kvProcess d p cs).boot = d.boot := by
  unfold kvProcess
  dsimp only
  rw [foldl_keeps (fun y : Dev × Bool => y.1.boot) _ (kvJoin_boot p)]
  simp
@[simp] theorem kvStep_boot (d : Dev) (p : Nat) : (kvStep d p).boot = d.boot := by simp [kvStep]
@[simp] theorem kvBoundary_boot (p : Nat) (d : Dev) : (kvBoundary p d).boot = d.boot := by
  unfold kvBoundary; dsimp only; repeat' split
  all_goals simp
@[simp] theorem kvOut_boot (p : Nat) (d : Dev) (x : Nat × Nat) : (kvOut p d x).boot = d.boot := by
  unfold kvOut; dsimp only; split <;> simp
@[simp] theorem kvIn_boot (p : Nat) (d : Dev) (x : Nat × Nat) : (kvIn p d x).boot = d.boot := by simp [kvIn]
@[simp] theorem kvCopyDone_boot (p s : Nat) (d : Dev) : (kvCopyDone p s d).boot = d.boot := by
  unfold kvCopyDone; dsimp only; repeat' split
  all_goals simp

/-! ### Machine/Ctl.lean -/

@[simp] theorem ctlRead_boot (d : Dev) (p off : Nat) : (ctlRead d p off).2.boot = d.boot := by
  fun_cases ctlRead <;> simp [*]
@[simp] theorem ctlWrite_boot (d : Dev) (p off v : Nat) : (ctlWrite d p off v).boot = d.boot := by
  fun_cases ctlWrite <;> simp [*]
@[simp] theorem ctlReads_boot (p n off : Nat) (d : Dev) : (ctlReads p n off d).2.boot = d.boot := by
  fun_induction ctlReads <;> grind [ctlRead_boot]
@[simp] theorem ctlWrites_boot (d : Dev) (p off : Nat) (bs : List Byte) : (ctlWrites d p off bs).boot = d.boot := by
  simp [ctlWrites]

/-! ### Machine/Tile.lean -/

@[simp] theorem sramStop_boot (d : Dev) (pc n p o : Nat) : (sramStop d pc n p o).boot = d.boot := by simp [sramStop]
theorem sramCheck_boot {d d' : Dev} {pc n : Nat} {t : Task} {w : Cmd} (h : sramCheck d pc n t w = some d') :
    d'.boot = d.boot := by
  unfold sramCheck at h; split at h
  · cases h
    simp
  · obtain ⟨_, _, rfl⟩ := Option.map_eq_some_iff.mp h
    simp
@[simp] theorem replayCheck_boot (n : Nat) (d : Dev) : (replayCheck n d).boot = d.boot := by
  unfold replayCheck; split <;> simp
@[simp] theorem finishCmd_boot (d : Dev) (pc : Nat) (x : InFlight) : (finishCmd d pc x).boot = d.boot := by
  unfold finishCmd; repeat' split
  all_goals simp
@[simp] theorem halfSignal_boot (d : Dev) (pc : Nat) (x : InFlight) : (halfSignal d pc x).boot = d.boot := by
  simp [halfSignal]
@[simp] theorem retireUnit_boot (u : CoreUnit) (k pc : Nat) (d : Dev) : (retireUnit u k pc d).boot = d.boot := by
  fun_induction retireUnit <;> grind [finishCmd_boot, halfSignal_boot, modCoreTask_boot]
@[simp] theorem retireNulls_boot (d : Dev) (pc : Nat) : (retireNulls d pc).boot = d.boot := by simp [retireNulls]
@[simp] theorem queueCmd_boot (d : Dev) (pc : Nat) (u : CoreUnit) (x : InFlight) : (queueCmd d pc u x).boot = d.boot := by
  simp [queueCmd]
@[simp] theorem stored_boot (d : Dev) (t : Task) (bs : List Byte) : (stored d t bs).2.boot = d.boot := by
  unfold stored; split <;> simp
@[simp] theorem popUnit_boot (d : Dev) (pc : Nat) (u : CoreUnit) (x : InFlight) : (popUnit d pc u x).boot = d.boot := by
  simp [popUnit]
@[simp] theorem commandComplete_boot (n : Nat) (u : CoreUnit) (d : Dev) : (commandComplete n u d).boot = d.boot := by
  fun_cases commandComplete <;> simp [*]
@[simp] theorem controlDone_boot (d : Dev) (pc : Nat) (w : Cmd) : (controlDone d pc w).boot = d.boot := rfl
@[simp] theorem ldw_boot (n : Nat) (w : Cmd) (d : Dev) : (ldw n w d).boot = d.boot := by
  fun_cases ldw <;> grind [Dev.modCore_boot, sramCheck_boot, stored_boot, queueCmd_boot, foldl_boot]
@[simp] theorem storedRows_boot (d : Dev) (t : Task) (b : Bank) (r0 m : Nat) : (storedRows d t b r0 m).2.boot = d.boot := by
  unfold storedRows; split
  · exact foldl_keeps (fun y : Bank × Dev => y.2.boot) _ (fun y i => by simp) _ _
  · rfl
@[simp] theorem mm_boot (n : Nat) (w : Cmd) (d : Dev) : (mm n w d).boot = d.boot := by
  fun_cases mm <;> grind [stopTask_boot, Dev.modCore_boot, storedRows_boot, sramCheck_boot, queueCmd_boot, runFlags_boot,
    foldl_boot]
@[simp] theorem accOut_boot (n : Nat) (w : Cmd) (d : Dev) : (accOut n w d).boot = d.boot := by
  unfold accOut; split <;> simp
@[simp] theorem vop_boot (n : Nat) (w : Cmd) (d : Dev) : (vop n w d).boot = d.boot := by
  fun_cases vop <;> grind [viewWrite_boot, sramCheck_boot, stored_boot, queueCmd_boot, runFlags_boot, foldl_boot]
@[simp] theorem cvt_boot (n : Nat) (w : Cmd) (d : Dev) : (cvt n w d).boot = d.boot := by
  fun_cases cvt <;> grind [viewWrite_boot, sramCheck_boot, stored_boot, queueCmd_boot, runFlags_boot, foldl_boot]
@[simp] theorem mov_boot (n : Nat) (w : Cmd) (d : Dev) : (mov n w d).boot = d.boot := by
  unfold mov; split <;> simp
@[simp] theorem ctlDeliver_boot (p n : Nat) (port fixed : Bool) (off k m : Nat) (bs : List Byte) (d : Dev) :
    (ctlDeliver p n port fixed off k m bs d).2.boot = d.boot := by
  fun_induction ctlDeliver <;> grind [rmPush_boot, ctlWrites_boot]
@[simp] theorem moverStop_boot (d : Dev) (pc m idx status : Nat) : (moverStop d pc m idx status).boot = d.boot := by
  simp [moverStop]
@[simp] theorem moveSeg_boot (d : Dev) (pc p n m : Nat) (x : InFlight) (lo hi : Nat) :
    (moveSeg d pc p n m x lo hi).2.boot = d.boot := by
  unfold moveSeg; dsimp only; repeat' split
  all_goals simp
@[simp] theorem moveCtl_boot (d : Dev) (pc p n m : Nat) (x : InFlight) (lo hi : Nat) :
    (moveCtl d pc p n m x lo hi).2.boot = d.boot := by
  fun_cases moveCtl with
  | case1 w off _ k0 unit lost top bs k d1 hr mark d2 =>
    have h2 : d2.boot = d.boot := (modCoreTask_boot ..).trans (boot_of_snd_eq hr (ctlDeliver_boot ..))
    refine ite_eq_of Dev.boot ?_ h2
    rw [moverStop_boot, lossHere_boot, h2]
  | case2 w off _ k0 unit lost top bs k d1 hr mark d2 =>
    exact (modCoreTask_boot ..).trans (boot_of_snd_eq hr (ctlDeliver_boot ..))
  | case3 w off _ bs d1 hr =>
    -- As a pair of variables, the eight reads are not evaluated.
    have h8 := ctlReads_boot p 8 off d
    generalize ctlReads p 8 off d = r at hr h8
    obtain ⟨u, e⟩ := r
    have h1 : d1.boot = d.boot :=
      boot_of_snd_eq hr (ite_eq_of (fun y : List Byte × Dev => y.2.boot) h8 (ctlReads_boot ..))
    exact (foldl_boot (fun _ _ => viewWrite_boot ..) _ _).trans h1
@[simp] theorem moveBytes_boot (d : Dev) (pc p n m : Nat) (x : InFlight) (lo hi : Nat) :
    (moveBytes d pc p n m x lo hi).2.boot = d.boot := by
  unfold moveBytes; split <;> simp
@[simp] theorem moverHalfEvent_boot (n m : Nat) (d : Dev) : (moverHalfEvent n m d).boot = d.boot := by
  fun_cases moverHalfEvent <;> grind [moveBytes_boot, halfSignal_boot, modCoreTask_boot, foldl_boot]
@[simp] theorem movCheck_boot (d : Dev) (p n : Nat) (w : Cmd) (bs : List Byte) : (movCheck d p n w bs).boot = d.boot := by
  simp [movCheck]
@[simp] theorem moverFullEvent_boot (n m : Nat) (d : Dev) : (moverFullEvent n m d).boot = d.boot := by
  fun_cases moverFullEvent <;> grind [moveBytes_boot, moverStop_boot, modCoreTask_boot, popUnit_boot, countDenied_boot,
    movCheck_boot, foldl_boot]
@[simp] theorem modCounter_boot (d : Dev) (pc p : Nat) (w : Cmd) (f : U32 → U32) : (modCounter d pc p w f).boot = d.boot := by
  simp [modCounter]
@[simp] theorem passWait_boot (d : Dev) (pc n : Nat) (t : Task) (w : Cmd) : (passWait d pc n t w).boot = d.boot := by
  simp [passWait]
@[simp] theorem wait_boot (n : Nat) (w : Cmd) (d : Dev) : (wait n w d).boot = d.boot := by
  unfold wait; split <;> simp
@[simp] theorem waitSatisfied_boot (n : Nat) (d : Dev) : (waitSatisfied n d).boot = d.boot := by
  fun_cases waitSatisfied <;> simp [*]
@[simp] theorem sig_boot (n : Nat) (w : Cmd) (d : Dev) : (sig n w d).boot = d.boot := by
  unfold sig; split <;> simp
@[simp] theorem digestSet_boot (n : Nat) (w : Cmd) (d : Dev) : (digestSet n w d).boot = d.boot := by
  unfold digestSet; split <;> simp
@[simp] theorem digestFlush_boot (n : Nat) (w : Cmd) (d : Dev) : (digestFlush n w d).boot = d.boot := by
  unfold digestFlush; split <;> simp
@[simp] theorem endTask_boot (n : Nat) (w : Cmd) (d : Dev) : (endTask n w d).boot = d.boot := by
  unfold endTask; split <;> simp
@[simp] theorem portAccepted_boot (d : Dev) (pc : Nat) (x : InFlight) : (portAccepted d pc x).boot = d.boot := rfl
@[simp] theorem gatePush_boot (n : Nat) (w : Cmd) (d : Dev) : (gatePush n w d).boot = d.boot := by
  unfold gatePush; split <;> simp
theorem engCheck_boot {d d' : Dev} {pc n : Nat} {t : Task} {w : Cmd} {from_ bytes : Nat}
    (h : engCheck d pc n t w from_ bytes = some d') : d'.boot = d.boot := by
  unfold engCheck at h; split at h
  · cases h
    simp
  · obtain ⟨_, _, rfl⟩ := Option.map_eq_some_iff.mp h
    simp
@[simp] theorem xchg_boot (kind n : Nat) (w : Cmd) (d : Dev) : (xchg kind n w d).boot = d.boot := by
  fun_cases xchg <;> grind [portAccepted_boot, xchgPost_boot, modCoreTask_boot, engCheck_boot, foldl_boot]
@[simp] theorem coll_boot (op n : Nat) (w : Cmd) (d : Dev) : (coll op n w d).boot = d.boot := by
  fun_cases coll <;> grind [portAccepted_boot, modCoreTask_boot, engCheck_boot, collPost_boot, foldl_boot]

/-! ### Machine/Barrier.lean -/

@[simp] theorem modBarrier_boot (d : Dev) (p : Nat) (f : Barrier → Barrier) : (modBarrier d p f).boot = d.boot := rfl
@[simp] theorem modJob_boot (d : Dev) (p : Nat) (f : Job → Job) : (modJob d p f).boot = d.boot := rfl
@[simp] theorem jobEnds_boot (d : Dev) (p : Nat) : (jobEnds d p).boot = d.boot := by simp [jobEnds]
@[simp] theorem jobFails_boot (d : Dev) (j : Job) (cls : Nat) (unit : DevId) (since : Nat) :
    (jobFails d j cls unit since).boot = d.boot := by simp [jobFails]
@[simp] theorem askBatches_boot (d : Dev) (step : U64) : (askBatches d step).boot = d.boot := by simp [askBatches]
@[simp] theorem orderReplay_boot (d : Dev) (j : Job) (cls : Nat) (lost spare : DevId) (since : Nat) :
    (orderReplay d j cls lost spare since).boot = d.boot := by
  fun_cases orderReplay <;> grind [jobFails_boot, modJob_boot, sendMgmt_boot, askBatches_boot, foldl_boot]
@[simp] theorem replayOver_boot (d : Dev) (j : Job) (step : U64) : (replayOver d j step).boot = d.boot := by simp [replayOver]
@[simp] theorem replayJob_boot (d : Dev) (p : Nat) : (replayJob d p).boot = d.boot := by
  unfold replayJob; split <;> simp
@[simp] theorem sendArrive_boot (d : Dev) (dest : DevId) (p : Nat) (step : U64) (count : Nat) (and_ : Bool) :
    (sendArrive d dest p step count and_).boot = d.boot := by simp [sendArrive]
@[simp] theorem modGather_boot (d : Dev) (p : Nat) (f : Gather → Gather) : (modGather d p f).boot = d.boot := rfl
@[simp] theorem logBarrier_boot (d : Dev) (p : Nat) (src : DevId) (step : U64) : (logBarrier d p src step).boot = d.boot := by
  simp [logBarrier]
@[simp] theorem passRelease_boot (d : Dev) (p : Nat) (ms : List DevId) (and_ pause snap : Bool) (step : U64) :
    (passRelease d p ms and_ pause snap step).boot = d.boot := by simp [passRelease]
@[simp] theorem takeRelease_boot (d : Dev) (p : Nat) (and_ pause snap : Bool) (step : U64) :
    (takeRelease d p and_ pause snap step).boot = d.boot := by simp [takeRelease]
@[simp] theorem rootAnswer_boot (d : Dev) (p : Nat) (j : Job) (step : U64) (and_ pause snap : Bool) :
    (rootAnswer d p j step and_ pause snap).boot = d.boot := by simp [rootAnswer]
@[simp] theorem rootReady_boot (d : Dev) (p : Nat) (j : Job) (step : U64) (and_ : Bool) :
    (rootReady d p j step and_).boot = d.boot := by simp [rootReady]
@[simp] theorem rootSettle_boot (d : Dev) (p : Nat) : (rootSettle d p).boot = d.boot := by
  fun_cases rootSettle <;> simp [*]
@[simp] theorem rootArrive_boot (d : Dev) (p : Nat) (src : DevId) (step : U64) (count : Nat) (and_ : Bool) :
    (rootArrive d p src step count and_).boot = d.boot := by
  unfold rootArrive; repeat' split
  all_goals simp
@[simp] theorem gatherSettle_boot (d : Dev) (p : Nat) : (gatherSettle d p).boot = d.boot := by
  unfold gatherSettle; dsimp only; repeat' split
  all_goals simp
@[simp] theorem gatherAdd_boot (d : Dev) (p : Nat) (src : DevId) (step : U64) (count : Nat) (and_ : Bool) :
    (gatherAdd d p src step count and_).boot = d.boot := by simp [gatherAdd]
@[simp] theorem ownArrival_boot (d : Dev) (p : Nat) (step : U64) (and_ : Bool) :
    (ownArrival d p step and_).boot = d.boot := by
  simp [ownArrival]
@[simp] theorem voteFailed_boot (d : Dev) (p : Nat) : (voteFailed d p).boot = d.boot := by simp [voteFailed]
@[simp] theorem barrierUp_boot (d : Dev) (p : Nat) : (barrierUp d p).boot = d.boot := by
  unfold barrierUp; dsimp only; split <;> simp
@[simp] theorem stepCmd_boot (n : Nat) (w : Cmd) (d : Dev) : (stepCmd n w d).boot = d.boot := by
  unfold stepCmd; split <;> simp
@[simp] theorem sequencerVote_boot (p : Nat) (d : Dev) : (sequencerVote p d).boot = d.boot := by simp [sequencerVote]
@[simp] theorem firmwareTransfer_boot (d : Dev) (p mark : Nat) (w : BitVec 512) (parts : List (BitVec 512)) :
    (firmwareTransfer d p mark w parts).boot = d.boot := by simp [firmwareTransfer]
@[simp] theorem firmwareCopy_boot (d : Dev) (p mark src dst n : Nat) : (firmwareCopy d p mark src dst n).boot = d.boot := by
  simp [firmwareCopy]
@[simp] theorem promoteEntry_boot (p : Nat) (acc : Bool × Dev) (i : Nat) : (promoteEntry p acc i).2.boot = acc.2.boot := by
  fun_cases promoteEntry <;> grind [touched_boot, firmwareCopy_boot, lossAt_boot, dataLoss_boot, countDenied_boot]
@[simp] theorem promoteFailed_boot (d : Dev) (p : Nat) : (promoteFailed d p).boot = d.boot := by
  unfold promoteFailed; dsimp only; split <;> simp
@[simp] theorem promotionEnd_boot (d : Dev) (p : Nat) (good : Bool) : (promotionEnd d p good).boot = d.boot := by
  simp [promotionEnd]
@[simp] theorem promoteAll_boot (d : Dev) (p : Nat) : (promoteAll d p).2.boot = d.boot := by
  unfold promoteAll; dsimp only; split
  · exact foldl_keeps (fun y : Bool × Dev => y.2.boot) _ (promoteEntry_boot p) _ _
  · rfl
@[simp] theorem commit_boot (p : Nat) (d : Dev) : (commit p d).boot = d.boot := by
  unfold commit; dsimp only; repeat' split
  all_goals simp
@[simp] theorem beginSnapshot_boot (d : Dev) (p : Nat) : (beginSnapshot d p).boot = d.boot := by simp [beginSnapshot]
@[simp] theorem snapshotCopied_boot (d : Dev) (p : Nat) (good : Bool) : (snapshotCopied d p good).boot = d.boot := by
  simp [snapshotCopied]
@[simp] theorem reportSnapshots_boot (d : Dev) (p : Nat) (hs : List SnapHead) : (reportSnapshots d p hs).boot = d.boot := by
  simp [reportSnapshots]
@[simp] theorem snapshotValid_boot (p : Nat) (d : Dev) : (snapshotValid p d).boot = d.boot := by
  unfold snapshotValid; dsimp only; repeat' split
  all_goals simp
@[simp] theorem passStep_boot (d : Dev) (p n : Nat) (w : Task → BitVec 128) : (passStep d p n w).boot = d.boot := by
  simp [passStep]
@[simp] theorem releaseStep_boot (d : Dev) (p : Nat) (b : Barrier) (pause : Bool) (copied : Option Bool) :
    (releaseStep d p b pause copied).boot = d.boot := by
  unfold releaseStep; split <;> simp
@[simp] theorem stepBarrierRelease_boot (p : Nat) (d : Dev) : (stepBarrierRelease p d).boot = d.boot := by
  unfold stepBarrierRelease; dsimp only; repeat' split
  all_goals simp
@[simp] theorem barrierArrive_boot (c : Cell) (d : Dev) : (barrierArrive c d).boot = d.boot := by simp [barrierArrive]
@[simp] theorem barrierRelease_boot (c : Cell) (d : Dev) : (barrierRelease c d).boot = d.boot := by
  unfold barrierRelease; dsimp only; split <;> simp
@[simp] theorem releaseDelay_boot (p : Nat) (d : Dev) : (releaseDelay p d).boot = d.boot := by
  unfold releaseDelay; split <;> simp

/-! ### Machine/Tables.lean -/

@[simp] theorem modEpt_boot (d : Dev) (p : Nat) (f : BitVec 128 → BitVec 128) : (modEpt d p f).boot = d.boot := by
  simp [modEpt]
@[simp] theorem repeer_boot (d : Dev) (p : Nat) (lost spare : DevId) : (repeer d p lost spare).boot = d.boot := by
  simp [repeer]
@[simp] theorem retable_boot (d : Dev) (p : Nat) (lost spare : DevId) : (retable d p lost spare).boot = d.boot := by
  simp [retable]
@[simp] theorem unlive_boot (d : Dev) (dev : DevId) : (unlive d dev).boot = d.boot := by simp [unlive]
@[simp] theorem restartPeer_boot (d : Dev) (p : Nat) (spare : DevId) : (restartPeer d p spare).boot = d.boot := by
  simp [restartPeer]
@[simp] theorem rebuddy_boot (d : Dev) (p : Nat) (lost spare : DevId) : (rebuddy d p lost spare).boot = d.boot := rfl
@[simp] theorem replaceIn_boot (d : Dev) (l : Launch) (lost spare : DevId) : (replaceIn d l lost spare).boot = d.boot := by
  simp [replaceIn]
@[simp] theorem modLaunch_boot (d : Dev) (id : U64) (f : Launch → Launch) : (modLaunch d id f).boot = d.boot := rfl
@[simp] theorem adopt_boot (d : Dev) (id : U64) (subst : List (Nat × DevId)) : (adopt d id subst).boot = d.boot := by
  unfold adopt; split <;> simp

/-! ### Machine/Launch.lean -/

@[simp] theorem snapWrite_boot (d : Dev) (p : Nat) (v : BitVec 128) : (snapWrite d p v).boot = d.boot := by simp [snapWrite]
@[simp] theorem setStepSeeds_boot (d : Dev) (p : Nat) (step : U64) (seeds : List U64) :
    (setStepSeeds d p step seeds).boot = d.boot := rfl
theorem launchSetup_boot {d d' : Dev} {id : U64} {man dep : DevId} {spec : List Byte} {ms : List DevId}
    (h : launchSetup d id man dep spec ms = .inr d') : d'.boot = d.boot := by
  revert h; fun_cases launchSetup with
  | case3 p made d1 hm _ me rank d2 d3 =>
    have h1 : d1.boot = d.boot := by grind [partCreate_boot]
    have h3 : d3.boot = d1.boot := by simp only [d3]; split <;> simp [d2]
    rintro ⟨⟩
    rw [Dev.modPart_boot, h3, h1]
  | _ => nofun
@[simp] theorem launchJoin_boot (d : Dev) (id : U64) (man dep : DevId) (spec : List Byte) (subst : List (Nat × DevId)) :
    (launchJoin d id man dep spec subst).1.boot = d.boot := by
  fun_cases launchJoin
  grind [launchSetup_boot, foldl_boot]
@[simp] theorem dropPartition_boot (d : Dev) (p : Nat) : (dropPartition d p).boot = d.boot := by simp [dropPartition]
@[simp] theorem launchUndo_boot (d : Dev) (l : Launch) : (launchUndo d l).boot = d.boot := by simp [launchUndo]
@[simp] theorem launchedEvent_boot (d : Dev) (p : Nat) (id : U64) (status : Nat) :
    (launchedEvent d p id status).boot = d.boot := by simp [launchedEvent]
@[simp] theorem passDown_boot (d : Dev) (l : Launch) (m : Nat → DevId → Mgmt) : (passDown d l m).boot = d.boot := by
  unfold passDown; dsimp only; split <;> simp
@[simp] theorem deputyCopy_boot (d : Dev) (id : U64) (spec : List Byte) (subst : List (Nat × DevId)) :
    (deputyCopy d id spec subst).boot = d.boot := by simp [deputyCopy]
@[simp] theorem launchCell_boot (c : Cell) (id : U64) (pos : Nat) (spec : List Byte) (subst : List (Nat × DevId))
    (dep : DevId) (d : Dev) :
    (launchCell c id pos spec subst dep d).boot = d.boot := by
  unfold launchCell; dsimp only; repeat' split
  all_goals simp
@[simp] theorem modJobId_boot (d : Dev) (id : U64) (f : Job → Job) : (modJobId d id f).boot = d.boot := rfl
@[simp] theorem managerEvent_boot (d : Dev) (j : Job) (status : Nat) : (managerEvent d j status).boot = d.boot := by
  simp [managerEvent]
@[simp] theorem launchFails_boot (d : Dev) (id : U64) (status : Nat) : (launchFails d id status).boot = d.boot := by
  unfold launchFails; dsimp only; repeat' split
  all_goals simp
@[simp] theorem launchOpen_boot (d : Dev) (id : U64) : (launchOpen d id).boot = d.boot := by
  unfold launchOpen; split <;> simp
@[simp] theorem launchSettle_boot (d : Dev) (id : U64) : (launchSettle d id).boot = d.boot := by
  unfold launchSettle; split <;> simp
@[simp] theorem resendLaunch_boot (d : Dev) (id : U64) : (resendLaunch d id).boot = d.boot := by
  unfold resendLaunch; split <;> simp
@[simp] theorem launchStart_boot (d : Dev) (id : U64) : (launchStart d id).boot = d.boot := by
  unfold launchStart; split <;> simp
@[simp] theorem substitute_boot (d : Dev) (j : Job) (lost spare : DevId) : (substitute d j lost spare).boot = d.boot := by
  unfold substitute; dsimp only; split <;> simp
@[simp] theorem tellMembers_boot (d : Dev) (id : U64) : (tellMembers d id).boot = d.boot := by
  unfold tellMembers; split <;> simp
@[simp] theorem spareReady_boot (d : Dev) (j : Job) (spare : DevId) (pos : Nat) (status : Byte) :
    (spareReady d j spare pos status).boot = d.boot := by
  unfold spareReady; repeat' split
  all_goals simp
@[simp] theorem launchAck_boot (c : Cell) (id : U64) (pos : Nat) (status : Byte) (d : Dev) :
    (launchAck c id pos status d).boot = d.boot := by
  unfold launchAck; split <;> simp
@[simp] theorem atManager_boot {g : Dev → Dev} (h : ∀ d, (g d).boot = d.boot) (d : Dev) : (atManager g d).boot = d.boot := by
  simp [atManager, h]
@[simp] theorem launchTimeout_boot (id : U64) (d : Dev) : (launchTimeout id d).boot = d.boot := by
  unfold launchTimeout; split <;> simp
@[simp] theorem launchDone_boot (id : U64) (subst : List (Nat × DevId)) (d : Dev) :
    (launchDone id subst d).boot = d.boot := by
  unfold launchDone; dsimp only; split <;> simp
@[simp] theorem launchAbort_boot (id : U64) (status : Byte) (subst : List (Nat × DevId)) (d : Dev) :
    (launchAbort id status subst d).boot = d.boot := by
  unfold launchAbort; dsimp only; split <;> simp
@[simp] theorem jobFailed_boot (id : U64) (d : Dev) : (jobFailed id d).boot = d.boot := by
  unfold jobFailed; dsimp only; split <;> simp
@[simp] theorem resumePart_boot (d : Dev) (p : Nat) : (resumePart d p).boot = d.boot := by simp [resumePart]
@[simp] theorem jobResumeSettle_boot (d : Dev) (p : Nat) : (jobResumeSettle d p).boot = d.boot := by
  unfold jobResumeSettle; split <;> simp
@[simp] theorem jobResume_boot (p : Nat) (subst : List (Nat × DevId)) (d : Dev) : (jobResume p subst d).boot = d.boot := by
  unfold jobResume; dsimp only; repeat' split
  all_goals simp

/-! ### Machine/Recovery.lean -/

@[simp] theorem withdrawPushes_boot (d : Dev) (t : Task) (lcore : Nat) : (withdrawPushes d t lcore).boot = d.boot := rfl
@[simp] theorem coreLost_boot (d : Dev) (origin : Nat) (t : Option Task) : (coreLost d origin t).boot = d.boot := by
  unfold coreLost; split <;> simp
@[simp] theorem coreFail_boot (pc : Nat) (d : Dev) : (coreFail pc d).boot = d.boot := by
  unfold coreFail; dsimp only; repeat' split
  all_goals simp
@[simp] theorem coreHang_boot (pc : Nat) (u : CoreUnit) (d : Dev) : (coreHang pc u d).boot = d.boot := by
  unfold coreHang; split <;> simp
@[simp] theorem viewGone_boot (d : Dev) (pc p n : Nat) : (viewGone d pc p n).boot = d.boot := by simp [viewGone]
@[simp] theorem replayNot_boot (d : Dev) (pc n : Nat) (t : Task) : (replayNot d pc n t).boot = d.boot := by simp [replayNot]
@[simp] theorem replayStart_boot (pc : Nat) (copyFailed : Bool) (d : Dev) : (replayStart pc copyFailed d).boot = d.boot := by
  unfold replayStart; dsimp only; repeat' split
  all_goals simp
@[simp] theorem fenceNext_boot (d : Dev) (rack : Nat) : (fenceNext d rack).boot = d.boot := by
  unfold fenceNext; dsimp only; split <;> simp
@[simp] theorem fenceAsk_boot (d : Dev) (f : DevId) (rejoin : Bool) (req : Option ReqId) :
    (fenceAsk d f rejoin req).boot = d.boot := by simp [fenceAsk]
@[simp] theorem fenceSettle_boot (d : Dev) : (fenceSettle d).boot = d.boot := by
  unfold fenceSettle; refine foldl_boot (fun d x => ?_) _ _; split <;> simp
@[simp] theorem setCur_boot (d : Dev) (e : BitVec 4) : (setCur d e).boot = d.boot := rfl
@[simp] theorem setFloor_boot (d : Dev) (e : BitVec 4) : (setFloor d e).boot = d.boot := rfl
@[simp] theorem setFenced_boot (d : Dev) (f : DevId) (on : Bool) : (setFenced d f on).boot = d.boot := rfl
@[simp] theorem endWith_boot (d : Dev) (f : DevId) : (endWith d f).boot = d.boot := by simp [endWith]
@[simp] theorem deputySees_boot (d : Dev) (rack : Nat) (e : BitVec 4) : (deputySees d rack e).boot = d.boot := rfl
@[simp] theorem fenceCell_boot (c : Cell) (f : DevId) (e : BitVec 4) (rejoin : Bool) (d : Dev) :
    (fenceCell c f e rejoin d).boot = d.boot := by simp [fenceCell]
@[simp] theorem fenceAck_boot (src f : DevId) (d : Dev) : (fenceAck src f d).boot = d.boot := by simp [fenceAck]
@[simp] theorem fenceEpochWait_boot (rack : Nat) (d : Dev) : (fenceEpochWait rack d).boot = d.boot := by simp [fenceEpochWait]
@[simp] theorem relaunchAll_boot (d : Dev) (id : U64) : (relaunchAll d id).boot = d.boot := by
  unfold relaunchAll; split <;> simp
@[simp] theorem jobLoses_boot (d : Dev) (j : Job) (lost : DevId) (since : Nat) : (jobLoses d j lost since).boot = d.boot := by
  unfold jobLoses; dsimp only; repeat' split
  all_goals simp
@[simp] theorem launchLoses_boot (d : Dev) (j : Job) (lost : DevId) : (launchLoses d j lost).boot = d.boot := by
  unfold launchLoses; split <;> simp
@[simp] theorem jobsLose_boot (d : Dev) (lost : DevId) (since : Nat) : (jobsLose d lost since).boot = d.boot := by
  simp [jobsLose]
@[simp] theorem selfLost_boot (d : Dev) (since : Nat) : (selfLost d since).boot = d.boot := by simp [selfLost]
@[simp] theorem deviceLost_boot (d : Dev) (lost : DevId) (since : Nat) : (deviceLost d lost since).boot = d.boot := by
  simp [deviceLost]
@[simp] theorem laneFailed_boot (d : Dev) (n : Nat) : (laneFailed d n).boot = d.boot := by
  unfold laneFailed; dsimp only; split <;> simp
@[simp] theorem pairOut_boot (d : Dev) (a b : Nat) : (pairOut d a b).boot = d.boot := by simp [pairOut]
@[simp] theorem pathOut_boot (d : Dev) (hops : List Nat) : (pathOut d hops).boot = d.boot := by
  fun_induction pathOut <;> simp [*]
@[simp] theorem enterZexcl_boot (d : Dev) (dest : DevId) (plane : Nat) : (enterZexcl d dest plane).boot = d.boot := rfl
@[simp] theorem routeOut_boot (d : Dev) (peer : DevId) (r : Nat) : (routeOut d peer r).boot = d.boot := by simp [routeOut]
@[simp] theorem linkFault_boot (d : Dev) (x : Probe) (failed : List Nat) : (linkFault d x failed).boot = d.boot := by
  simp [linkFault]
@[simp] theorem probesClosed_boot (d : Dev) (peer : DevId) : (probesClosed d peer).boot = d.boot := rfl
@[simp] theorem relaunchAt_boot (d : Dev) (peer : DevId) (j : Job) : (relaunchAt d peer j).boot = d.boot := by
  unfold relaunchAt; split <;> simp
@[simp] theorem peerGivenUp_boot (d : Dev) (peer : DevId) (since : Nat) : (peerGivenUp d peer since).boot = d.boot := by
  simp [peerGivenUp]
@[simp] theorem peerLives_boot (d : Dev) (x : Probe) : (peerLives d x).boot = d.boot := by simp [peerLives]
@[simp] theorem probeAnswered_boot (d : Dev) (failed : List Nat) (x : Probe) : (probeAnswered d failed x).boot = d.boot := by
  unfold probeAnswered; split <;> simp
@[simp] theorem heardOf_boot (d : Dev) (src peer : DevId) : (heardOf d src peer).boot = d.boot := by simp [heardOf]
@[simp] theorem probeAnswer_boot (src peer : DevId) (failed : List Nat) (d : Dev) :
    (probeAnswer src peer failed d).boot = d.boot := by simp [probeAnswer]
@[simp] theorem replayAgain_boot (d : Dev) (j : Job) (since : Nat) : (replayAgain d j since).boot = d.boot := by
  unfold replayAgain; split <;> simp
@[simp] theorem resumeJob_boot (since : Nat) (d : Dev) (j : Job) : (resumeJob since d j).boot = d.boot := by simp [resumeJob]
@[simp] theorem takeover_boot (d : Dev) (old : DevId) (since : Nat) : (takeover d old since).boot = d.boot := by
  simp [takeover]
@[simp] theorem orphaned_boot (d : Dev) (p : Nat) (peer : DevId) (since : Nat) : (orphaned d p peer since).boot = d.boot := by
  unfold orphaned; dsimp only; split <;> simp
@[simp] theorem peerSilent_boot (d : Dev) (peer : DevId) (since : Nat) : (peerSilent d peer since).boot = d.boot := by
  simp [peerSilent]
@[simp] theorem probeSilent_boot (d : Dev) (x : Probe) : (probeSilent d x).boot = d.boot := by
  unfold probeSilent; split <;> simp
@[simp] theorem peerProbeTimeout_boot (peer : DevId) (d : Dev) : (peerProbeTimeout peer d).boot = d.boot := by
  simp [peerProbeTimeout]
@[simp] theorem managerProbe_boot (d : Dev) (src peer : DevId) : (managerProbe d src peer).boot = d.boot := by
  simp [managerProbe]
@[simp] theorem faultReport_boot (src : DevId) (t : Trouble) (d : Dev) : (faultReport src t d).boot = d.boot := by
  fun_cases faultReport <;> simp [*]
@[simp] theorem takeReport_boot (src : DevId) (t : Trouble) (d : Dev) : (takeReport src t d).boot = d.boot := by
  simp [takeReport]
@[simp] theorem snapshotKnown_boot (p : Nat) (r : SnapReport) (d : Dev) : (snapshotKnown p r d).boot = d.boot := by
  simp [snapshotKnown]
@[simp] theorem heartbeat_boot (src : DevId) (d : Dev) : (heartbeat src d).boot = d.boot := by simp [heartbeat]
@[simp] theorem heartbeatPeriod_boot (d : Dev) : (heartbeatPeriod d).boot = d.boot := by simp [heartbeatPeriod]
@[simp] theorem arriveAgain_boot (d : Dev) (p : Nat) : (arriveAgain d p).boot = d.boot := by
  unfold arriveAgain; dsimp only; repeat' split
  all_goals simp
@[simp] theorem tellRoot_boot (d : Dev) (p : Nat) : (tellRoot d p).boot = d.boot := by
  unfold tellRoot; dsimp only; repeat' split
  all_goals simp
@[simp] theorem namedDeputy_boot (d : Dev) (man : DevId) (first n : Nat) : (namedDeputy d man first n).boot = d.boot := rfl
@[simp] theorem newRoot_boot (man dep : DevId) (first n : Nat) (d : Dev) : (newRoot man dep first n d).boot = d.boot := by
  simp [newRoot]
@[simp] theorem dropStep_boot (d : Dev) (p : Nat) : (dropStep d p).boot = d.boot := by simp [dropStep]
@[simp] theorem restoreRegions_boot (d : Dev) (p : Nat) (head : Option SnapHead) (gen : Nat) (buddy : DevId) :
    (restoreRegions d p head gen buddy).boot = d.boot := by simp [restoreRegions]
@[simp] theorem spareFor_boot (d : Dev) (p : Nat) (lost spare : DevId) : (spareFor d p lost spare).boot = d.boot := by
  simp [spareFor]
@[simp] theorem snapshotRestore_boot (p g : Nat) (step : U64) (seeds : List U64) (buddy : Option DevId) (lost spare : DevId)
    (d : Dev) :
    (snapshotRestore p g step seeds buddy lost spare d).boot = d.boot := by
  unfold snapshotRestore; repeat' split
  all_goals simp
@[simp] theorem mirrorHead_boot (p : Nat) (m : Mirror) (d : Dev) : (mirrorHead p m d).boot = d.boot := rfl
@[simp] theorem mirrorAsked_boot (src : DevId) (p : Nat) (step : U64) (lost : DevId) (d : Dev) :
    (mirrorAsked src p step lost d).boot = d.boot := by
  unfold mirrorAsked; split <;> simp
@[simp] theorem mirrorCopy_boot (p : Nat) (h : SnapHead) (table : List Byte) (d : Dev) :
    (mirrorCopy p h table d).boot = d.boot := by
  unfold mirrorCopy; repeat' split
  all_goals simp

/-! ### Machine/Links.lean -/

@[simp] theorem logBringup_boot (d : Dev) (n : Nat) : (logBringup d n).boot = d.boot := by simp [logBringup]
@[simp] theorem bringupStepTimeout_boot (n : Nat) (d : Dev) : (bringupStepTimeout n d).boot = d.boot := by
  simp [bringupStepTimeout]
@[simp] theorem laneRecovered_boot (d : Dev) (n : Nat) : (laneRecovered d n).boot = d.boot := by
  unfold laneRecovered; dsimp only; split <;> simp
@[simp] theorem fecAlignmentLock_boot (n : Nat) (d : Dev) : (fecAlignmentLock n d).boot = d.boot := by simp [fecAlignmentLock]
@[simp] theorem checkPartner_boot (d : Dev) (n : Nat) (h : LinkHello) : (checkPartner d n h).boot = d.boot := by
  fun_cases checkPartner <;> grind [Dev.modPort_boot, logPartner_boot, setPort_boot, foldl_boot]
@[simp] theorem linkHello_boot (n : Nat) (h : LinkHello) (d : Dev) : (linkHello n h d).boot = d.boot := by
  fun_cases linkHello <;> grind [Dev.modPort_boot, checkPartner_boot, foldl_boot]
@[simp] theorem inService_boot (d : Dev) (n : Nat) : (inService d n).boot = d.boot := by
  fun_cases inService <;> grind [logPartner_boot, setPort_boot, foldl_boot]
@[simp] theorem creditReturn_boot (n cls count : Nat) (d : Dev) : (creditReturn n cls count d).boot = d.boot := by
  simp [creditReturn]
@[simp] theorem reportDark_boot (d : Dev) (n : Nat) : (reportDark d n).boot = d.boot := by simp [reportDark]
@[simp] theorem laneDegrade_boot (n : Nat) (healthy : BitVec 4) (d : Dev) : (laneDegrade n healthy d).boot = d.boot := by
  unfold laneDegrade; dsimp only; repeat' split
  all_goals simp
@[simp] theorem portErrLimit_boot (n : Nat) (d : Dev) : (portErrLimit n d).boot = d.boot := by simp [portErrLimit]
@[simp] theorem linkStateCell_boot (c : Cell) (d : Dev) : (linkStateCell c d).boot = d.boot := by simp [linkStateCell]
@[simp] theorem unreach_boot (c : Cell) (d : Dev) : (unreach c d).boot = d.boot := by
  unfold unreach; split <;> simp
@[simp] theorem fabPortCfgWrite_boot (n : Nat) (v : U32) (d : Dev) : (fabPortCfgWrite n v d).boot = d.boot := by
  fun_cases fabPortCfgWrite <;> grind [logIgnored_boot, Dev.modPort_boot, laneFailed_boot, linksNoted_boot]

/-! ### Machine/Uhp.lean -/

@[simp] theorem hostErr_boot (d : Dev) (i n : Nat) : (hostErr d i n).boot = d.boot := rfl
@[simp] theorem modHost_boot (d : Dev) (f : HostLink → HostLink) : (modHost d f).boot = d.boot := rfl
@[simp] theorem sendFrame_boot (d : Dev) (f : OutFrame) : (sendFrame d f).boot = d.boot := rfl
@[simp] theorem addrDuplicate_boot (target : BitVec 128) (fu : Fuses) (d : Dev) :
    (addrDuplicate target fu d).boot = d.boot := by
  simp [addrDuplicate]
@[simp] theorem formGlobal_boot (d : Dev) (a : BitVec 128) : (formGlobal d a).boot = d.boot := rfl
@[simp] theorem dhcpv6_boot (f : FramePayload) (d : Dev) : (dhcpv6 f d).boot = d.boot := by
  fun_cases dhcpv6 <;> simp [*]
@[simp] theorem frameTaken_boot (f : Frame) (fu : Fuses) (d : Dev) : (frameTaken f fu d).boot = d.boot := by
  unfold frameTaken; dsimp only; split <;> simp
@[simp] theorem ethFrame_boot (f : Frame) (fu : Fuses) (d : Dev) : (ethFrame f fu d).boot = d.boot := by
  fun_cases ethFrame <;> simp [*]
@[simp] theorem routerAdvertisement_boot (pfx : U64) (len : Nat) (aFlag : Bool) (fu : Fuses) (d : Dev) :
    (routerAdvertisement pfx len aFlag fu d).boot = d.boot := by simp [routerAdvertisement]
@[simp] theorem neighborSolicitation_boot (src target : BitVec 128) (fu : Fuses) (d : Dev) :
    (neighborSolicitation src target fu d).boot = d.boot := by simp [neighborSolicitation]
@[simp] theorem echoRequest_boot (src : BitVec 128) (data : List Byte) (d : Dev) :
    (echoRequest src data d).boot = d.boot := by
  simp [echoRequest]
@[simp] theorem arpRequest_boot (sender target : U32) (d : Dev) : (arpRequest sender target d).boot = d.boot := by
  simp [arpRequest]
@[simp] theorem modPtp_boot (d : Dev) (f : Ptp → Ptp) : (modPtp d f).boot = d.boot := rfl
@[simp] theorem ptpOffset_boot (off : Int) (d : Dev) : (ptpOffset off d).boot = d.boot := by simp [ptpOffset]
@[simp] theorem ptpSynced_boot (t1 t2 : Nat) (d : Dev) : (ptpSynced t1 t2 d).boot = d.boot := by
  unfold ptpSynced; dsimp only; split <;> simp
@[simp] theorem ptpDelay_boot (t4 : Nat) (d : Dev) : (ptpDelay t4 d).boot = d.boot := by
  unfold ptpDelay; dsimp only; repeat' split
  all_goals simp
@[simp] theorem ptpSync_boot (m : PtpMsg) (d : Dev) : (ptpSync m d).boot = d.boot := by
  unfold ptpSync; repeat' split
  all_goals simp
@[simp] theorem ptpHoldover_boot (d : Dev) : (ptpHoldover d).boot = d.boot := by simp [ptpHoldover]
@[simp] theorem nakTo_boot (d : Dev) (m : UhpMsg) (num reason : Nat) : (nakTo d m num reason).boot = d.boot := rfl
@[simp] theorem helloAnswer_boot (m : UhpMsg) (d : Dev) : (helloAnswer m d).2.2.boot = d.boot := by
  unfold helloAnswer; dsimp only; repeat' split
  all_goals simp
@[simp] theorem helloMsg_boot (m : UhpMsg) (fu : Fuses) (d : Dev) : (helloMsg m fu d).boot = d.boot := by
  unfold helloMsg; dsimp only; repeat' split
  all_goals simp
@[simp] theorem closeSession_boot (d : Dev) (sid : Nat) : (closeSession d sid).boot = d.boot := rfl
@[simp] theorem ethLinkDown_boot (forOneSecond : Bool) (d : Dev) : (ethLinkDown forOneSecond d).boot = d.boot := by
  fun_cases ethLinkDown <;> grind [modHost_boot, closeSession_boot, foldl_boot]
@[simp] theorem sendAck_boot (d : Dev) (sid : Nat) : (sendAck d sid).boot = d.boot := by
  unfold sendAck; split <;> simp
@[simp] theorem noteAck_boot (d : Dev) (sid : Nat) : (noteAck d sid).boot = d.boot := by simp [noteAck]
@[simp] theorem ackMsg_boot (m : UhpMsg) (fu : Fuses) (d : Dev) : (ackMsg m fu d).boot = d.boot := by
  unfold ackMsg; dsimp only; repeat' split
  all_goals simp
@[simp] theorem refused_boot (d : Dev) (sid : Nat) (o : OutMsg) (reason : Nat) : (refused d sid o reason).boot = d.boot := by
  simp [refused]
@[simp] theorem nakMsg_boot (m : UhpMsg) (fu : Fuses) (d : Dev) : (nakMsg m fu d).boot = d.boot := by
  unfold nakMsg; dsimp only; repeat' split
  all_goals simp
@[simp] theorem retransmit_boot (sid : Nat) (d : Dev) : (retransmit sid d).boot = d.boot := by
  unfold retransmit; split <;> simp
@[simp] theorem macFailed_boot (d : Dev) (sid : Nat) : (macFailed d sid).boot = d.boot := by simp [macFailed]
@[simp] theorem macPassed_boot (d : Dev) (sid : Nat) : (macPassed d sid).boot = d.boot := rfl
@[simp] theorem sendNak_boot (d : Dev) (sid seq reason : Nat) : (sendNak d sid seq reason).boot = d.boot := by
  unfold sendNak; split <;> simp
theorem applyWrite_boot {d d' : Dev} {s : Session} {win off : Nat} {data : List Byte}
    (h : applyWrite d s win off data = .inr d') : d'.boot = d.boot := by
  revert h; fun_cases applyWrite <;> simp +contextual [*, eq_comm]
@[simp] theorem readWindow_boot (d : Dev) (k : Nat) (w : Window) (gen off len : Nat) :
    (readWindow d k w gen off len).2.2.boot = d.boot := by
  fun_cases readWindow <;> simp [*]
@[simp] theorem sendReadResp_boot (d : Dev) (sid k status reqId off : Nat) (data : List Byte) :
    (sendReadResp d sid k status reqId off data).boot = d.boot := by simp [sendReadResp]
theorem applyRead_boot {d d' : Dev} {s : Session} {b : List Byte} (h : applyRead d s b = .inr d') : d'.boot = d.boot := by
  revert h; fun_cases applyRead <;> grind [readWindow_boot, sendReadResp_boot, foldl_boot]
@[simp] theorem applyReadResp_boot (d : Dev) (sid : Nat) (b : List Byte) : (applyReadResp d sid b).boot = d.boot := rfl
@[simp] theorem sendReadReq_boot (d : Dev) (sid k hostWin off len : Nat) :
    (sendReadReq d sid k hostWin off len).boot = d.boot := by simp [sendReadReq]
@[simp] theorem sendWrite_boot (d : Dev) (sid k hostWin off : Nat) (data : List Byte) :
    (sendWrite d sid k hostWin off data).boot = d.boot := by simp [sendWrite]

/-! ### Machine/Mbox.lean -/

@[simp] theorem takeRequest_boot (d : Dev) (s : Session) (m : UhpMsg) : (takeRequest d s m).boot = d.boot := by
  simp [takeRequest]
@[simp] theorem takeWindowMsg_boot (d : Dev) (s : Session) (ty : Nat) (m : UhpMsg) :
    (takeWindowMsg d s ty m).boot = d.boot := by
  fun_cases takeWindowMsg <;> grind [sendNak_boot, applyRead_boot, applyReadResp_boot, macFailed_boot, applyWrite_boot,
    macPassed_boot, foldl_boot]
@[simp] theorem deliver_boot (d : Dev) (s : Session) (ty : Nat) (m : UhpMsg) : (deliver d s ty m).boot = d.boot := by
  unfold deliver; split <;> simp
@[simp] theorem pumpRxFuel_boot (k sid : Nat) (d : Dev) : (pumpRxFuel k sid d).boot = d.boot := by
  fun_induction pumpRxFuel <;> grind [modSession_boot, deliver_boot]
@[simp] theorem pumpRx_boot (d : Dev) (sid : Nat) : (pumpRx d sid).boot = d.boot := by simp [pumpRx]
@[simp] theorem pumpRxAll_boot (d : Dev) : (pumpRxAll d).boot = d.boot := by simp [pumpRxAll]
@[simp] theorem sequenced_boot (ty : Nat) (m : UhpMsg) (fu : Fuses) (d : Dev) : (sequenced ty m fu d).boot = d.boot := by
  unfold sequenced; dsimp only; repeat' split
  all_goals simp
@[simp] theorem onReq_boot {f : Req → Dev → Dev} (h : ∀ q d, (f q d).boot = d.boot) (r : ReqId) (cmd : Nat)
    (k : List Byte → Bool) (d : Dev) : (onReq r cmd k f d).boot = d.boot := by
  unfold onReq; split <;> simp [h]
@[simp] theorem markStarted_boot (d : Dev) (r : Req) : (markStarted d r).boot = d.boot := rfl
@[simp] theorem weirFreed_boot (d : Dev) (p : Nat) : (weirFreed d p).boot = d.boot := by simp [weirFreed]
@[simp] theorem weirFill_boot (p : Nat) (r : Resource) (bytes : Nat) (d : Dev) : (weirFill p r bytes d).boot = d.boot := by
  simp [weirFill]

/-! ### Machine/Boot.lean -/

@[simp] theorem powerOn_boot (d : Dev) : (powerOn d).boot = d.boot := rfl
@[simp] theorem inputSeen_boot (i : Sideband → Bool) (d : Dev) : (inputSeen i d).boot = d.boot := rfl
@[simp] theorem resetHigh_staged (d : Dev) : (resetHigh d).boot.staged = d.boot.staged := by
  unfold resetHigh; split <;> rfl
@[simp] theorem resetInRelease_staged (d : Dev) : (resetInRelease d).boot.staged = d.boot.staged := by
  simp [resetInRelease]
@[simp] theorem logInput_boot (d : Dev) (sev source cls inst v : Nat) : (logInput d sev source cls inst v).boot = d.boot := by
  simp [logInput]
@[simp] theorem pwrErr_boot (d : Dev) (i : Nat) : (pwrErr d i).boot = d.boot := rfl
@[simp] theorem slotIdSample_staged (v : BitVec 6) (d : Dev) : (slotIdSample v d).boot.staged = d.boot.staged := by
  fun_cases slotIdSample <;> simp +zetaDelta
@[simp] theorem slotIdChange_boot (v : BitVec 6) (d : Dev) : (slotIdChange v d).boot = d.boot := by
  unfold slotIdChange; dsimp only; split <;> simp
@[simp] theorem measure_staged (d : Dev) (kind : Nat) (digest : List Byte) :
    (measure d kind digest).boot.staged = d.boot.staged :=
  rfl
@[simp] theorem measureRom_staged (f : Fuses) (d : Dev) : (measureRom f d).boot.staged = d.boot.staged := rfl
@[simp] theorem logBoot_boot (f : Fuses) (sev : Nat) (d : Dev) : (logBoot f sev d).boot = d.boot := by simp [logBoot]
@[simp] theorem enterStage_staged (f : Fuses) (st : Stage) (d : Dev) : (enterStage f st d).boot.staged = d.boot.staged := by
  simp [enterStage]
@[simp] theorem enterRecovery_staged (f : Fuses) (reason : Nat) (d : Dev) :
    (enterRecovery f reason d).boot.staged = d.boot.staged := by
  unfold enterRecovery; dsimp only; split <;> simp
@[simp] theorem lightPorts_boot (d : Dev) : (lightPorts d).boot = d.boot := by simp [lightPorts]
@[simp] theorem mailboxReady_staged (f : Fuses) (d : Dev) : (mailboxReady f d).boot.staged = d.boot.staged := by
  simp [mailboxReady]
@[simp] theorem selfTestSpared_boot (rows banks : List (Nat × Nat)) (d : Dev) :
    (selfTestSpared rows banks d).boot = d.boot := by
  simp [selfTestSpared]
@[simp] theorem ethLinkUp_boot (f : Fuses) (d : Dev) : (ethLinkUp f d).boot = d.boot := by simp [ethLinkUp]
@[simp] theorem fwDone_boot (d : Dev) (r : Req) (version : Nat) : (fwDone d r version).boot = d.boot := by simp [fwDone]
@[simp] theorem attestWrites_boot (d : Dev) (r : Req) (addr : Nat) (bs : List Byte) :
    (attestWrites d r addr bs).boot = d.boot := by simp [attestWrites]

/-! ### Machine/Grants.lean -/

@[simp] theorem handOver_boot (d : Dev) (g p : Nat) (who : WaitFor) (is : List Nat) :
    (handOver d g p who is).boot = d.boot := by
  fun_cases handOver <;> simp [*]
@[simp] theorem waitingGrant_boot (g p : Nat) (d : Dev) : (waitingGrant g p d).boot = d.boot := by
  fun_cases waitingGrant <;> grind [grantWaiting_boot, handOver_boot, seqPumpAll_boot, foldl_boot]
@[simp] theorem holdExpiry_boot (engine id peer : Nat) (d : Dev) : (holdExpiry engine id peer d).boot = d.boot := by
  simp [holdExpiry]

/-! ### Machine/Mparts.lean -/

@[simp] theorem openSession_boot (fu : Fuses) (r : Req) (d : Dev) : (openSession fu r d).boot = d.boot := by
  unfold openSession; repeat' split
  all_goals simp
@[simp] theorem createCmd_boot (r : Req) (d : Dev) : (createCmd r d).boot = d.boot := by
  fun_cases createCmd <;> grind [respond_boot, respondOk_boot, partCreate_boot]
@[simp] theorem destroyCmd_boot (r : Req) (d : Dev) : (destroyCmd r d).boot = d.boot := by simp [destroyCmd]
@[simp] theorem setQuotaCmd_boot (r : Req) (d : Dev) : (setQuotaCmd r d).boot = d.boot := by
  fun_cases setQuotaCmd <;> grind [setQuota_waits_boot, setQuota_done_boot, markStarted_boot, Dev.modPart_boot, respond_boot,
    hostErr_boot, respondOk_boot]
@[simp] theorem setWeirCmd_boot (r : Req) (d : Dev) : (setWeirCmd r d).boot = d.boot := by simp [setWeirCmd]
@[simp] theorem loadProgram_boot (r : Req) (d : Dev) : (loadProgram r d).boot = d.boot := by
  unfold loadProgram; dsimp only; repeat' split
  all_goals simp
@[simp] theorem unloadProgram_boot (r : Req) (d : Dev) : (unloadProgram r d).boot = d.boot := by
  unfold unloadProgram; dsimp only; split <;> simp
@[simp] theorem enterSub_boot (r : Req) (d : Dev) (s : Sub) (es : List QEntry) : (enterSub r d s es).boot = d.boot := by
  simp [enterSub]
@[simp] theorem submit_boot (r : Req) (d : Dev) : (submit r d).boot = d.boot := by
  unfold submit; dsimp only; repeat' split
  all_goals simp
@[simp] theorem takeHeld_boot (d : Dev) (p : Nat) (id : U32) : (takeHeld d p id).boot = d.boot := by
  unfold takeHeld; dsimp only; repeat' split
  all_goals simp
@[simp] theorem abortCmd_boot (r : Req) (d : Dev) : (abortCmd r d).boot = d.boot := by
  unfold abortCmd; dsimp only; repeat' split
  all_goals simp
@[simp] theorem accept_boot (d : Dev) (r : Req) : (accept d r).boot = d.boot := by simp [accept]
@[simp] theorem pauseCmd_boot (r : Req) (d : Dev) : (pauseCmd r d).boot = d.boot := by
  unfold pauseCmd; dsimp only; repeat' split
  all_goals simp
@[simp] theorem resumeCmd_boot (r : Req) (d : Dev) : (resumeCmd r d).boot = d.boot := by
  unfold resumeCmd; dsimp only; repeat' split
  all_goals simp

/-! ### Machine/Mdata.lean -/

@[simp] theorem mapWindow_boot (r : Req) (d : Dev) : (mapWindow r d).boot = d.boot := by
  unfold mapWindow; dsimp only; repeat' split
  all_goals simp
@[simp] theorem unmapWindow_boot (r : Req) (d : Dev) : (unmapWindow r d).boot = d.boot := by
  unfold unmapWindow; dsimp only; split <;> simp
@[simp] theorem readResult_boot (r : Req) (d : Dev) : (readResult r d).boot = d.boot := by
  unfold readResult; split <;> simp
@[simp] theorem releaseResult_boot (r : Req) (d : Dev) : (releaseResult r d).boot = d.boot := by
  unfold releaseResult; split <;> simp
@[simp] theorem gateLoad_boot (r : Req) (d : Dev) : (gateLoad r d).boot = d.boot := by
  fun_cases gateLoad <;> simp [*]
@[simp] theorem eptUpdate_boot (r : Req) (d : Dev) : (eptUpdate r d).boot = d.boot := by
  unfold eptUpdate; dsimp only; repeat' split
  all_goals simp
@[simp] theorem setGroup_boot (d : Dev) (p g : Nat) (ms : List DevId) : (setGroup d p g ms).boot = d.boot := rfl
@[simp] theorem commCreate_boot (r : Req) (d : Dev) : (commCreate r d).boot = d.boot := by simp [commCreate]
@[simp] theorem commDelete_boot (r : Req) (d : Dev) : (commDelete r d).boot = d.boot := by simp [commDelete]
@[simp] theorem stepSet_boot (r : Req) (d : Dev) : (stepSet r d).boot = d.boot := by simp [stepSet]
@[simp] theorem seedSet_boot (r : Req) (d : Dev) : (seedSet r d).boot = d.boot := by simp [seedSet]
@[simp] theorem digestRead_boot (r : Req) (d : Dev) : (digestRead r d).boot = d.boot := by simp [digestRead]

/-! ### Machine/Image.lean -/

@[simp] theorem saveImage_boot (r : Req) (d : Dev) : (saveImage r d).boot = d.boot := by
  unfold saveImage; dsimp only; repeat' split
  all_goals simp
@[simp] theorem burn_boot (d : Dev) (p lba : Nat) (im : List Byte) : (burn d p lba im).boot = d.boot := by
  unfold burn; refine foldl_boot (fun d x => ?_) _ _; split <;> simp
@[simp] theorem imageDone_boot (p : Nat) (d : Dev) : (imageDone p d).boot = d.boot := by
  unfold imageDone; repeat' split
  all_goals simp
@[simp] theorem restoreTables_boot (d : Dev) (p : Nat) (b : List Byte) (m : ImageMap) :
    (restoreTables d p b m).boot = d.boot := by
  fun_cases restoreTables
  grind [Dev.modPart_boot, dropComm_boot, foldl_boot]
@[simp] theorem restoreViews_boot (d : Dev) (p : Nat) (b : List Byte) (m : ImageMap) : (restoreViews d p b m).boot = d.boot :=
  rfl
@[simp] theorem restoreChans_boot (d : Dev) (p : Nat) (b : List Byte) (m : ImageMap) :
    (restoreChans d p b m).boot = d.boot := by
  simp [restoreChans]
@[simp] theorem restoreBufs_boot (d : Dev) (p : Nat) (b : List Byte) (m : ImageMap) :
    (restoreBufs d p b m).boot = d.boot := by
  simp [restoreBufs]
@[simp] theorem applyImage_boot (d : Dev) (p : Nat) (b : List Byte) (m : ImageMap) (s : SchedImg) :
    (applyImage d p b m s).boot = d.boot := by simp [applyImage]
@[simp] theorem dropReads_boot (d : Dev) (sid k : Nat) : (dropReads d sid k).boot = d.boot := rfl
@[simp] theorem finishRestore_boot (r : Req) (d : Dev) (b : List Byte) (m : ImageMap) :
    (finishRestore r d b m).boot = d.boot := by
  unfold finishRestore; dsimp only; split <;> simp
@[simp] theorem restoreImage_boot (r : Req) (d : Dev) : (restoreImage r d).boot = d.boot := by
  unfold restoreImage; dsimp only; repeat' split
  all_goals simp

/-! ### Machine/Power.lean -/

@[simp] theorem modPwr_boot (d : Dev) (f : Power → Power) : (modPwr d f).boot = d.boot := rfl
@[simp] theorem setVin_boot (vin : Nat) (d : Dev) : (setVin vin d).boot = d.boot := by simp [setVin]
@[simp] theorem setRefresh_boot (d : Dev) : (setRefresh d).boot = d.boot := rfl
@[simp] theorem setAlert_boot (d : Dev) : (setAlert d).boot = d.boot := by simp [setAlert]
@[simp] theorem enterHold_boot (d : Dev) : (enterHold d).boot = d.boot := by simp [enterHold]
@[simp] theorem leaveHold_boot (d : Dev) : (leaveHold d).boot = d.boot := rfl
@[simp] theorem setHold_boot (d : Dev) : (setHold d).boot = d.boot := by simp [setHold]
@[simp] theorem sample_boot (x : Sensors) (d : Dev) : (sample x d).boot = d.boot := by simp [sample]
@[simp] theorem governorTick_boot (d : Dev) : (governorTick d).boot = d.boot := by
  fun_cases governorTick <;> simp [*]
@[simp] theorem pwrCfgWrite_boot (v : U64) (d : Dev) : (pwrCfgWrite v d).boot = d.boot := by simp [pwrCfgWrite]

/-! ### Machine/Regs.lean -/

@[simp] theorem regClear_boot (d : Dev) (r : Reg) : (regClear d r).boot = d.boot := by
  unfold regClear; split <;> simp
theorem poolCfgWrite_boot {d d' : Dev} {g : Nat} {v : U64} (h : poolCfgWrite d g v = some d') : d'.boot = d.boot := by
  revert h; fun_cases poolCfgWrite <;> simp +contextual [*, eq_comm]
theorem chanCfgWrite_boot {d d' : Dev} {n : Nat} {v : U64} (h : chanCfgWrite d n v = some d') : d'.boot = d.boot := by
  revert h; fun_cases chanCfgWrite <;> grind [modChan_boot]
theorem regWrite_boot {d d' : Dev} {r : Reg} {v : U64} (h : regWrite d r v = some d') : d'.boot = d.boot := by
  have hall : ∀ d' ∈ regWrite d r v, d'.boot = d.boot := by
    unfold regWrite
    extract_lets w
    split
    · simp
    split
    case h_25 => exact fun _ => poolCfgWrite_boot
    case h_29 => exact fun _ => chanCfgWrite_boot
    all_goals (try split) <;> simp +zetaDelta
  exact hall d' h
@[simp] theorem regWriteLog_boot (d : Dev) (r : Reg) (v : U64) : (regWriteLog d r v).boot = d.boot := by
  unfold regWriteLog
  cases h : regWrite d r v with
  | none => exact logIgnored_boot ..
  | some d' => exact regWrite_boot h
@[simp] theorem readRegs_boot (f : Fuses) (n a : Nat) (d : Dev) : (readRegs f n a d).2.boot = d.boot := by
  fun_induction readRegs <;> grind [regClear_boot]
@[simp] theorem regRead_boot (f : Fuses) (r : Req) (d : Dev) : (regRead f r d).boot = d.boot := by simp [regRead]
@[simp] theorem writeRegs_boot (bs : List (List Byte)) (a : Nat) (d : Dev) : (writeRegs bs a d).boot = d.boot := by
  fun_induction writeRegs <;> simp [*]
@[simp] theorem regWriteCmd_boot (r : Req) (d : Dev) : (regWriteCmd r d).boot = d.boot := by simp [regWriteCmd]

/-! ### Machine/Log.lean -/

@[simp] theorem logSuppressed_boot (d : Dev) (r : LogRate) : (logSuppressed d r).boot = d.boot := by simp [logSuppressed]
@[simp] theorem logRateSecond_boot (d : Dev) : (logRateSecond d).boot = d.boot := by simp [logRateSecond]
@[simp] theorem logRead_boot (r : Req) (d : Dev) : (logRead r d).boot = d.boot := by simp [logRead]
@[simp] theorem healthQuery_boot (f : Fuses) (r : Req) (d : Dev) : (healthQuery f r d).boot = d.boot := by simp [healthQuery]

/-! ### Machine/Mmgr.lean -/

@[simp] theorem managerAssign_boot (r : Req) (d : Dev) : (managerAssign r d).boot = d.boot := by simp [managerAssign]
@[simp] theorem jobLaunch_boot (r : Req) (d : Dev) : (jobLaunch r d).boot = d.boot := by simp [jobLaunch]
@[simp] theorem dropSpare_boot (d : Dev) (f : DevId) : (dropSpare d f).boot = d.boot := rfl
@[simp] theorem fenceDevice_boot (r : Req) (d : Dev) : (fenceDevice r d).boot = d.boot := by simp [fenceDevice]
@[simp] theorem addSpare_boot (d : Dev) (f : DevId) : (addSpare d f).boot = d.boot := rfl
@[simp] theorem fenceRejoin_boot (r : Req) (d : Dev) : (fenceRejoin r d).boot = d.boot := by simp [fenceRejoin]

/-! ### Machine/Tick.lean -/

@[simp] theorem weirTick_boot (d : Dev) : (weirTick d).boot = d.boot := rfl
@[simp] theorem tick_boot (d : Dev) : (tick d).boot = d.boot := by simp [tick]

end Sys2Proof.Machine
end

section
/-! The SVN floor and the staged firmware image (R490): every step keeps `FloorKept`, and VERIFY runs an image only at or
above the floor. -/

namespace Sys2Proof.Machine

/-! ### An image that is not refused (R487 to R490) -/

/-- `fwCheck` gives an image only after its SVN has passed both bounds. -/
theorem svn_of_fwCheck {f : Fuses} {b : List Byte} {x : FwImage} (h : fwCheck f b = .inr x) : f.svnFloor ≤ x.svn ∧ x.svn ≤ 64 := by
  simp only [fwCheck] at h
  split at h
  · cases h
  split at h
  · cases h
  next hsound =>
  split at h
  · cases h
  next hfloor =>
  cases h
  simp only [not_or, Nat.not_lt] at hsound hfloor
  exact ⟨hfloor, hsound.1⟩

theorem fwStage_staged {r : Req} {f : Fuses} {d : Dev} {x : FwImage} (h : (fwStage r f d).boot.staged = some x) :
    d.boot.staged = some x ∨ f.svnFloor ≤ x.svn := by
  simp only [fwStage] at h
  split at h
  · exact .inl (by simpa using h)
  split at h
  · exact .inl (by simpa using h)
  split at h
  · exact .inl (by simpa using h)
  split at h
  · exact .inl (by simpa using h)
  next y hy =>
  obtain rfl : y = x := by simpa using h
  exact .inr (svn_of_fwCheck hy).1

/-! ### What every step keeps of the floor and the staged image -/

/-- The floor does not fall and stays at most 64, and an image newly staged is not below it. -/
structure FloorKept (s t : State) : Prop where
  le : s.fuses.svnFloor ≤ t.fuses.svnFloor
  le_max : s.fuses.svnFloor ≤ 64 → t.fuses.svnFloor ≤ 64
  staged : ∀ x, t.dev.boot.staged = some x → s.dev.boot.staged = some x ∨ s.fuses.svnFloor ≤ x.svn

theorem floorKept_of_eq {s t : State} (hf : t.fuses.svnFloor = s.fuses.svnFloor)
    (hs : t.dev.boot.staged = s.dev.boot.staged) : FloorKept s t :=
  ⟨Nat.le_of_eq hf.symm, fun h => hf ▸ h, fun _ hx => .inl (hs ▸ hx)⟩

theorem FloorKept.refl (s : State) : FloorKept s s := floorKept_of_eq rfl rfl

theorem FloorKept.trans {s t u : State} (h : FloorKept s t) (h' : FloorKept t u) : FloorKept s u where
  le := Nat.le_trans h.le h'.le
  le_max := h'.le_max ∘ h.le_max
  staged x hx := (h'.staged x hx).elim (h.staged x) fun hle => .inr (Nat.le_trans h.le hle)

theorem floorKept_dev {s : State} {d : Dev} (h : d.boot.staged = s.dev.boot.staged) : FloorKept s { s with dev := d } :=
  floorKept_of_eq rfl h

/-! ### Resets: the fuses stay, the staged image is lost (R485) -/

theorem floorKept_restart (s : State) (cause : Nat) {g : Dev → Dev} (hg : ∀ d, (g d).boot.staged = d.boot.staged) :
    FloorKept s (restart s cause g) where
  le := Nat.le_refl _
  le_max := id
  staged x hx := by simp [restart, hg, afterReset, Dev.afterReset] at hx

theorem floorKept_powerOff (s : State) (cause : Nat) (off : OffCause) : FloorKept s (powerOff s cause off) :=
  floorKept_restart s cause fun _ => rfl

theorem floorKept_epoLow (s : State) : FloorKept s (epoLow s) := by
  have hlow : FloorKept s { s with dev := { s.dev with pwr := { s.dev.pwr with epoLow := true } } } := floorKept_dev rfl
  simp only [epoLow]
  split
  · exact hlow.trans (floorKept_powerOff _ _ _)
  · exact hlow
  · exact hlow.trans (floorKept_powerOff _ _ _)

theorem execResetInAssert_floorKept {s t : State} (h : execResetInAssert s = .next t) : FloorKept s t := by
  have hseen : FloorKept s { s with dev := inputSeen (· == .resetIn) s.dev } := floorKept_dev (by simp)
  simp only [execResetInAssert] at h
  split at h
  · cases h
    exact hseen
  · cases h
    refine hseen.trans ?_
    split
    · exact floorKept_dev rfl
    · exact floorKept_restart _ 1 fun _ => rfl

theorem execOverVoltage_floorKept {s t : State} (h : execOverVoltage s = .next t) : FloorKept s t := by
  simp only [execOverVoltage] at h
  split at h <;> cases h
  · exact floorKept_powerOff s 5 .overVoltage
  · exact .refl s
  · exact .refl s
  · exact floorKept_powerOff s _ .overVoltage

theorem execEpoAssert_floorKept {s t : State} (h : execEpoAssert s = .next t) : FloorKept s t := by
  cases h
  exact (floorKept_dev (by simp)).trans (floorKept_epoLow _)

theorem execSidebandFault_floorKept {i : Sideband} {s t : State} (h : execSidebandFault i s = .next t) : FloorKept s t := by
  simp only [execSidebandFault] at h
  split at h
  · cases h
    exact .refl s
  split at h <;> cases h
  · exact floorKept_dev (by simp)
  · exact (floorKept_dev (by simp)).trans (floorKept_epoLow _)
  · exact floorKept_dev (by simp)

theorem execSensorSample_floorKept {x : Sensors} {s t : State} (h : execSensorSample x s = .next t) : FloorKept s t := by
  simp only [execSensorSample] at h
  split at h
  · cases h
    exact .refl s
  split at h <;> cases h
  · exact floorKept_powerOff s 3 .thermalTrip
  · exact floorKept_dev (by simp)

/-! ### VERIFY and the other boot stages (R486, R487) -/

theorem verifyStage_floorKept (s : State) : FloorKept s (verifyStage s) := by
  simp only [verifyStage]
  split
  · exact floorKept_dev (by simp)
  next x hx =>
  have hx : fwCheck s.fuses s.fuses.image = .inr x := by
    split at hx
    · cases hx
    · exact hx
  exact ⟨Nat.le_max_left _ _, fun h => Nat.max_le.mpr ⟨h, (svn_of_fwCheck hx).2⟩, fun y hy => .inl (by simpa using hy)⟩

theorem bootStageDone_floorKept (o : StageOutcome) (s : State) : FloorKept s (bootStageDone o s) := by
  simp only [bootStageDone]
  split
  · exact .refl s
  split
  case h_5 => exact verifyStage_floorKept s
  case h_2 | h_10 =>
    split
    · exact floorKept_dev (by simp)
    · exact .refl s
  case h_11 => exact .refl s
  all_goals exact floorKept_dev (by simp)

/-! ### FW_STAGE (R491) -/

theorem fwStage_floorKept (r : ReqId) (s : State) :
    FloorKept s { s with dev := onReq r 0x70 always (fun q d => fwStage q s.fuses d) s.dev } := by
  refine ⟨Nat.le_refl _, id, fun x hx => ?_⟩
  dsimp only [onReq] at hx
  split at hx
  · split at hx
    · exact fwStage_staged hx
    · exact .inl hx
  · exact .inl hx

/-! ### FW_COMMIT and ATTEST (R492, R496) -/

theorem commitBegin_floorKept (r : Req) (x : FwImage) (s : State) : FloorKept s (commitBegin r x s) := by
  simp only [commitBegin]
  split
  · exact floorKept_dev (by simp)
  split
  · split
    · exact floorKept_dev (by simp)
    · exact floorKept_of_eq rfl (by simp)
  · exact floorKept_of_eq rfl (by simp)

theorem commitEnd_floorKept (r : Req) (x : FwImage) (s : State) : FloorKept s (commitEnd r x s) := by
  refine floorKept_of_eq rfl ?_
  simp only [commitEnd, fwDone_boot]
  split <;> simp

theorem fwCommit_floorKept (r : ReqId) (s : State) : FloorKept s (fwCommit r s) := by
  simp only [fwCommit]
  split
  · split
    · exact commitEnd_floorKept _ _ s
    split
    · split
      · exact floorKept_dev (by simp)
      · exact .refl s
    · exact .refl s
  · split
    · split
      · exact commitBegin_floorKept _ _ s
      · exact floorKept_dev (by simp)
    · exact .refl s
  · exact .refl s

theorem execFwCommitReset_floorKept {s t : State} (h : execFwCommitReset s = .next t) : FloorKept s t := by
  cases h
  split
  · exact floorKept_restart s 2 fun _ => rfl
  · exact .refl s

theorem takeLeaf_floorKept {s t : State} {leaf : Nat} (h : takeLeaf s = some (leaf, t)) : FloorKept s t := by
  simp only [takeLeaf] at h
  split at h
  · cases h
  split at h
  · cases h
    exact floorKept_dev rfl
  split at h <;> cases h
  refine floorKept_of_eq ?_ rfl
  dsimp only
  split <;> rfl

theorem attest_floorKept (r : Req) (s : State) : FloorKept s (attest r s) := by
  simp only [attest]
  split
  · exact floorKept_dev (by simp)
  split
  · exact floorKept_dev (by simp)
  split
  · exact floorKept_dev (by simp)
  split
  · exact floorKept_dev (by simp)
  next htake => exact (takeLeaf_floorKept htake).trans (floorKept_dev (by simp))

theorem execAttest_floorKept {r : ReqId} {s t : State} (h : execAttest r s = .next t) : FloorKept s t := by
  simp only [execAttest, onReqS] at h
  split at h <;> cases h
  · split
    · exact attest_floorKept _ s
    · exact .refl s
  · exact .refl s

/-! ### The commands -/

/-- By command. The named cases are the commands that write fuses or boot state, and those whose effect is written as a
branch in `exec…` itself; of every other command one function changes the device, and its lemma above says the rest. -/
theorem exec_floorKept {c : Instr} {s t : State} (h : exec c s = .next t) : FloorKept s t := by
  cases c
  case resetInAssert => exact execResetInAssert_floorKept h
  case overVoltage => exact execOverVoltage_floorKept h
  case epoAssert => exact execEpoAssert_floorKept h
  case sidebandFault => exact execSidebandFault_floorKept h
  case sensorSample => exact execSensorSample_floorKept h
  case fwCommitReset => exact execFwCommitReset_floorKept h
  case attest => exact execAttest_floorKept h
  -- a command that always completes: its next state is written out
  all_goals cases h
  case brownOut => exact floorKept_powerOff s 0 _
  case bootStageDone => exact bootStageDone_floorKept _ s
  case fwCommit => exact fwCommit_floorKept _ s
  case fwStage => exact fwStage_floorKept _ s
  case resetInRelease | slotIdSample => exact floorKept_dev (by simp)
  -- a command that acts in the device alone and leaves the boot state
  all_goals refine floorKept_dev (congrArg Boot.staged ?_)
  case mgmtProbe | managerHeartbeat | launchCell | launchAck | launchDone | launchAbort | fence | jobResume | probeAnswer |
      faultReport | probeRequest | fenceAck | newRoot | jobPauseRequest | jobResumeRequest | pausedReport | snapshotRestore =>
    refine onMgmt_boot (fun m g hg d => ?_) ..
    split at hg <;> cases hg <;> simp [atManager, ofMember]
  case gatePushAccept =>
    dsimp only
    split
    · rfl
    · split <;> simp
  case gateStepOpen | gateStepDone | exchangeTagsTaken | rowsFixed | gwIdleFlush | baskingEntry | coreWakeDone |
      stallProbeTimer | sessionExpiry | inputStable =>
    dsimp only
    split <;> simp [whenD]
  case peerQueryTimer => split <;> simp
  case cellForward => exact onCell_boot (fun _ he => he) ..
  all_goals simp

theorem step_floorKept {s t : State} (h : step s = .next t) : FloorKept s t := by
  simp only [step] at h
  split at h
  · cases h
    exact floorKept_dev (by simp)
  · have hq := exec_floorKept h
    exact ⟨hq.le, hq.le_max, hq.staged⟩

/-! ### VERIFY runs an image only at or above the floor (R487, R490) -/

theorem exec_bootStageDone_verify {s : State} (hrails : s.dev.pwr.rails = true) (hstage : s.dev.boot.stage = .verify) :
    exec (.bootStageDone .ok) s = .next (verifyStage s) := by
  simp [exec, execBootStageDone, bootStageDone, hrails, hstage]

@[simp] theorem enterStage_stage (f : Fuses) (st : Stage) (d : Dev) : (enterStage f st d).boot.stage = st := by
  simp [enterStage]

@[simp] theorem enterRecovery_stage (f : Fuses) (reason : Nat) (d : Dev) : (enterRecovery f reason d).boot.stage = .recovery := by
  simp [enterRecovery]

/-- VERIFY of an image that passes: the floor is raised to its SVN, and the DRAM test follows. -/
theorem verifyStage_of_image {s : State} {x : FwImage} (himg : s.fuses.image ≠ []) (hx : fwCheck s.fuses s.fuses.image = .inr x) :
    (verifyStage s).dev.boot.stage = .dramTest ∧ (verifyStage s).fuses = { s.fuses with svnFloor := x.svn } := by
  have hmax : max s.fuses.svnFloor x.svn = x.svn := Nat.max_eq_right (svn_of_fwCheck hx).1
  simp [verifyStage, himg, hx, hmax]

/-- VERIFY of no image, or of one that is refused. -/
theorem verifyStage_of_refused {s : State} (h : s.fuses.image = [] ∨ ∃ r, fwCheck s.fuses s.fuses.image = .inl r) :
    (verifyStage s).dev.boot.stage = .recovery ∧ (verifyStage s).fuses = s.fuses := by
  by_cases himg : s.fuses.image = []
  · simp [verifyStage, himg]
  · obtain ⟨r, hr⟩ := h.resolve_left himg
    simp [verifyStage, himg, hr]

/-- Settles O6. Every command keeps `FloorKept`: resets keep the fuses and lose the staged image, FW_STAGE and VERIFY go
through `fwCheck`, FW_COMMIT and ATTEST write other fuse fields, and all other commands leave fuses and boot state. -/
theorem svnFloorIsOneWay : Obligations.SvnFloorIsOneWay := by
  unfold Obligations.SvnFloorIsOneWay
  refine ⟨fun s t h => ?_, fun s hrails hstage => ⟨verifyStage s, exec_bootStageDone_verify hrails hstage, ?_⟩⟩
  · obtain ⟨hle, hmax, hstaged⟩ := step_floorKept h
    exact ⟨hle, hmax, hstaged⟩
  by_cases himg : s.fuses.image = []
  · exact .inr ⟨.inl himg, verifyStage_of_refused (.inl himg)⟩
  · cases hx : fwCheck s.fuses s.fuses.image with
    | inl r => exact .inr ⟨.inr ⟨r, rfl⟩, verifyStage_of_refused (.inr ⟨r, hx⟩)⟩
    | inr x => exact .inl ⟨x, himg, rfl, (svn_of_fwCheck hx).1, verifyStage_of_image himg hx⟩

end Sys2Proof.Machine
end

section
/-! PWR_CFG (R516): which fields a masked word keeps, and what PWR_CFG_WRITE and REGISTER_WRITE leave in the register. -/

namespace Sys2Proof.Machine

/-! ### Fields of a word masked field by field (R9, R11) -/

theorem fld_and {w : Nat} (x y : BitVec w) (hi lo : Nat) : fld (x &&& y) hi lo = fld x hi lo &&& fld y hi lo := by
  simp only [fld, nfld, BitVec.toNat_and, Nat.shiftRight_and_distrib, Nat.and_mod_two_pow]

/-- A field that the mask covers is kept. -/
theorem fld_and_of_ones {w hi lo : Nat} (x : BitVec w) {mask : BitVec w} (h : fld mask hi lo = 2 ^ (hi + 1 - lo) - 1) :
    fld (x &&& mask) hi lo = fld x hi lo := by
  rw [fld_and, h, Nat.and_two_pow_sub_one_eq_mod, fld, nfld, Nat.mod_mod]

/-- A field that the mask leaves out is cleared. -/
theorem fld_and_of_zero {w hi lo : Nat} (x : BitVec w) {mask : BitVec w} (h : fld mask hi lo = 0) :
    fld (x &&& mask) hi lo = 0 := by
  rw [fld_and, h, Nat.and_zero]

/-! ### The write of PWR_CFG -/

/-- The bits of CAP_W, VTARGET, ALERT_J and ALERT_D; the last two stand side by side. -/
def pwrCfgMask : U64 := ones 64 10 0 ||| ones 64 19 12 ||| ones 64 39 24

theorem pwrCfgOk_iff (v : U64) : pwrCfgOk v = true ↔
    700 ≤ fld v 10 0 ∧ fld v 10 0 ≤ 1400 ∧ 120 ≤ fld v 19 12 ∧ fld v 19 12 ≤ 170 ∧ 60 ≤ fld v 31 24 ∧ fld v 31 24 ≤ 100 ∧
      60 ≤ fld v 39 32 ∧ fld v 39 32 ≤ 95 := by
  simp only [pwrCfgOk, Bool.and_eq_true, decide_eq_true_eq, and_assoc]

theorem pwrCfgWrite_of_ok {v : U64} (d : Dev) (h : pwrCfgOk v = true) :
    pwrCfgWrite v d = { d with pwr := { d.pwr with cfg := v &&& pwrCfgMask } } := if_pos h

theorem pwrCfgWrite_of_not_ok {v : U64} (d : Dev) (h : ¬ pwrCfgOk v = true) :
    pwrCfgWrite v d = logIgnored d srcPwr .pwrCfg v.toNat := if_neg h

theorem exec_pwrCfgWrite_of_rails (v : U64) {s : State} (h : s.dev.pwr.rails = true) :
    exec (.pwrCfgWrite v) s = .next (s.putDev (pwrCfgWrite v s.dev)) := by
  have hexec : exec (.pwrCfgWrite v) s = .next (s.putDev (if s.dev.pwr.rails then pwrCfgWrite v s.dev else s.dev)) := rfl
  rw [hexec, if_pos h]

/-- PWR_CFG's own write logs the refusal, so REGISTER_WRITE adds nothing to it. -/
theorem exec_registerWrite_pwrCfg (v : U64) (s : State) :
    exec (.registerWrite .pwrCfg v) s = exec (.pwrCfgWrite v) s := rfl

/-- Settles O58: a write with rails on is the masked word or the log entry, by the range check; the mask holds ones in the
four fields and zeros in the reserved ones. -/
theorem pwrCfgFields : Obligations.PwrCfgFields := by
  unfold Obligations.PwrCfgFields
  refine ⟨fun v s hr => ⟨fun hok => ⟨v &&& pwrCfgMask, ?_, exec_registerWrite_pwrCfg v s, ?_⟩,
    fun hbad => ⟨?_, exec_registerWrite_pwrCfg v s, logIgnored_pwr ..⟩⟩, by decide⟩
  · rw [exec_pwrCfgWrite_of_rails v hr, pwrCfgWrite_of_ok s.dev ((pwrCfgOk_iff v).mpr hok)]
  · exact ⟨fld_and_of_ones v (by decide), fld_and_of_ones v (by decide), fld_and_of_ones v (by decide),
      fld_and_of_ones v (by decide), fld_and_of_zero v (by decide), fld_and_of_zero v (by decide), fld_and_of_zero v (by decide)⟩
  · rw [exec_pwrCfgWrite_of_rails v hr, pwrCfgWrite_of_not_ok s.dev (mt (pwrCfgOk_iff v).mp hbad)]

end Sys2Proof.Machine
end

section
/-! The power state and the grade are written by the commands of chapter 19 and the resets alone (R485 to R519). Here, one
lemma for each function that a step can reach outside them, in the order of the files of the model: the function leaves
`Dev.pwr` and `Dev.grade` as they were. A function that takes a handler leaves them when the handler does; one that also
answers a result is stated for the device it gives. -/

namespace Sys2Proof.Machine

/-! ### Branches and folds -/

/-- The power controller's state and the grade of `e` are those of `d`. -/
@[simp] abbrev PowerKept (d e : Dev) : Prop := e.pwr = d.pwr ∧ e.grade = d.grade

theorem PowerKept.refl (d : Dev) : PowerKept d d := ⟨rfl, rfl⟩

theorem PowerKept.trans {d e f : Dev} (h : PowerKept d e) (h' : PowerKept e f) : PowerKept d f :=
  ⟨h'.1.trans h.1, h'.2.trans h.2⟩

@[simp] theorem pwr_ite (c : Prop) [Decidable c] (a b : Dev) : (if c then a else b).pwr = if c then a.pwr else b.pwr :=
  apply_ite Dev.pwr c a b

@[simp] theorem grade_ite (c : Prop) [Decidable c] (a b : Dev) : (if c then a else b).grade = if c then a.grade else b.grade :=
  apply_ite Dev.grade c a b

@[simp] theorem foldl_powerKept {γ : Type} {f : Dev → γ → Dev} (h : ∀ d x, PowerKept d (f d x)) (d : Dev) (xs : List γ) :
    PowerKept d (xs.foldl f d) :=
  ⟨foldl_keeps Dev.pwr f (fun d x => (h d x).1) d xs, foldl_keeps Dev.grade f (fun d x => (h d x).2) d xs⟩

theorem ite_keeps {α : Type} {P : α → Prop} {c : Prop} [Decidable c] {a b : α} (ha : P a) (hb : P b) :
    P (if c then a else b) := by
  split <;> assumption

theorem ite_powerKept {c : Prop} [Decidable c] {d a b : Dev} (ha : PowerKept d a) (hb : PowerKept d b) :
    PowerKept d (if c then a else b) := by
  split <;> assumption

theorem powerKept_foldl {γ : Type} {f : Dev → γ → Dev} {d e : Dev} {xs : List γ} (he : PowerKept d e)
    (h : ∀ d x, PowerKept d (f d x)) : PowerKept d (xs.foldl f e) := he.trans (foldl_powerKept h e xs)

theorem foldl_fst_powerKept {α γ : Type} {f : Dev × α → γ → Dev × α} (h : ∀ y x, PowerKept y.1 (f y x).1) (y : Dev × α)
    (xs : List γ) : PowerKept y.1 (xs.foldl f y).1 :=
  ⟨foldl_keeps (·.1.pwr) f (fun y x => (h y x).1) y xs, foldl_keeps (·.1.grade) f (fun y x => (h y x).2) y xs⟩

theorem foldl_snd_powerKept {α γ : Type} {f : α × Dev → γ → α × Dev} (h : ∀ y x, PowerKept y.2 (f y x).2) (y : α × Dev)
    (xs : List γ) : PowerKept y.2 (xs.foldl f y).2 :=
  ⟨foldl_keeps (·.2.pwr) f (fun y x => (h y x).1) y xs, foldl_keeps (·.2.grade) f (fun y x => (h y x).2) y xs⟩

theorem powerKept_of_fst_eq {α : Type} {r : Dev × α} {d d' : Dev} {a : α} (hr : r = (d', a)) (h : PowerKept d r.1) :
    PowerKept d d' := by
  rwa [hr] at h

theorem powerKept_of_snd_eq {α : Type} {r : α × Dev} {d d' : Dev} {a : α} (hr : r = (a, d')) (h : PowerKept d r.2) :
    PowerKept d d' := by
  rwa [hr] at h

/-! ### Machine/Ops.lean -/

@[simp] theorem drawFree_powerKept (d : Dev) : PowerKept d (drawFree d).2 := ⟨rfl, rfl⟩
@[simp] theorem modView_powerKept (d : Dev) (p lcore : Nat) (f : Memory → Memory) : PowerKept d (modView d p lcore f) := by
  unfold modView; split <;> simp
@[simp] theorem writeLoc_powerKept (d : Dev) (p : Nat) (b : Byte) (l : Loc) : PowerKept d (writeLoc d p b l) := by
  unfold writeLoc; split <;> simp
@[simp] theorem lowered_powerKept (d : Dev) (p : Nat) : PowerKept d (lowered d p) := by
  unfold lowered; split <;> simp
@[simp] theorem opQuota_powerKept (d : Dev) (p : Nat) (op : OpId) : PowerKept d (opQuota d p op) := by
  unfold opQuota; split <;> simp
@[simp] theorem unpoison_powerKept (d : Dev) (p : Nat) (ls : List Loc) : PowerKept d (unpoison d p ls) := by simp [unpoison]
@[simp] theorem touchLines_powerKept (d : Dev) (ls : List Loc) : PowerKept d (touchLines d ls) := by simp [touchLines]
@[simp] theorem modTasks_powerKept (d : Dev) (p : Nat) (f : Task → Task) : PowerKept d (modTasks d p f) := ⟨rfl, rfl⟩
@[simp] theorem noteChange_powerKept (d : Dev) (p a : Nat) (old new : List Byte) : PowerKept d (noteChange d p a old new) := by
  simp [noteChange]
@[simp] theorem touched_powerKept (d : Dev) (p a n : Nat) : PowerKept d (touched d p a n) := by simp [touched]
@[simp] theorem writeRange_powerKept (d : Dev) (p : Nat) (engine : Bool) (a : Nat) (bs : List Byte) :
    PowerKept d (writeRange d p engine a bs) := by simp [writeRange]
@[simp] theorem chargeRange_powerKept (d : Dev) (p a n : Nat) (engine : Bool) :
    PowerKept d (chargeRange d p a n engine) := by simp [chargeRange]
@[simp] theorem chargeImage_powerKept (d : Dev) (p a n : Nat) : PowerKept d (chargeImage d p a n) := ⟨rfl, rfl⟩
@[simp] theorem countDenied_powerKept (d : Dev) (a n : Nat) : PowerKept d (countDenied d a n) := by simp [countDenied]
@[simp] theorem noteDenied_powerKept (d : Dev) (p a n : Nat) : PowerKept d (noteDenied d p a n) := by simp [noteDenied]
@[simp] theorem storeRange_powerKept (d : Dev) (p a : Nat) (bs : List Byte) : PowerKept d (storeRange d p a bs) := by
  simp [storeRange]
@[simp] theorem viewWrite_powerKept (d : Dev) (p lcore a : Nat) (bs : List Byte) : PowerKept d (viewWrite d p lcore a bs) := by
  unfold viewWrite; dsimp only; split <;> simp
@[simp] theorem modTask_powerKept (d : Dev) (p lcore : Nat) (f : Task → Task) : PowerKept d (modTask d p lcore f) := by
  unfold modTask; split <;> simp
@[simp] theorem addSb_powerKept (d : Dev) (p lcore i : Nat) (v : U32) : PowerKept d (addSb d p lcore i v) := by simp [addSb]
@[simp] theorem raise_powerKept (d : Dev) (p : Nat) (t : SigTarget) : PowerKept d (raise d p t) := by
  unfold raise; split <;> simp

/-! ### Machine/Fabric.lean -/

@[simp] theorem fabErr_powerKept (d : Dev) (i : Nat) : PowerKept d (fabErr d i) := ⟨rfl, rfl⟩
@[simp] theorem pumpPortFuel_powerKept (k n : Nat) (d : Dev) : PowerKept d (pumpPortFuel k n d) := by
  fun_induction pumpPortFuel <;> grind [Dev.modPort_pwr, Dev.modPort_grade]
@[simp] theorem pumpPort_powerKept (d : Dev) (n : Nat) : PowerKept d (pumpPort d n) := by simp [pumpPort]
@[simp] theorem mergeQueue_powerKept (d : Dev) (n : Nat) (c : Cell) : PowerKept d (mergeQueue d n c) := by
  unfold mergeQueue; dsimp only; repeat' split
  all_goals simp
@[simp] theorem enqueue_powerKept (d : Dev) (named : Nat) (c : Cell) : PowerKept d (enqueue d named c) := by simp [enqueue]
@[simp] theorem sendPair_powerKept (d : Dev) (c : Cell) (next : Nat) : PowerKept d (sendPair d c next) := by simp [sendPair]
@[simp] theorem sendZ_powerKept (d : Dev) (c : Cell) : PowerKept d (sendZ d c) := by
  unfold sendZ; dsimp only; split <;> simp
@[simp] theorem escape_powerKept (d : Dev) (c : Cell) (dimX : Bool) : PowerKept d (escape d c dimX) := by
  unfold escape; dsimp only; split <;> simp
@[simp] theorem routeDim_powerKept (d : Dev) (c : Cell) (dimX : Bool) (next : Nat) : PowerKept d (routeDim d c dimX next) := by
  simp [routeDim]
@[simp] theorem route_powerKept (d : Dev) (c : Cell) : PowerKept d (route d c) := by
  fun_cases route <;> simp [*]
@[simp] theorem sendFor_powerKept (d : Dev) (p : Nat) (c : Cell) : PowerKept d (sendFor d p c) := by simp [sendFor]
@[simp] theorem sendAll_powerKept (d : Dev) (p : Nat) (cs : List Cell) : PowerKept d (sendAll d p cs) := by simp [sendAll]
@[simp] theorem countDiscard_powerKept (d : Dev) (n : Nat) : PowerKept d (countDiscard d n) := ⟨rfl, rfl⟩
@[simp] theorem giveBack_powerKept (d : Dev) (n cls : Nat) : PowerKept d (giveBack d n cls) := by simp [giveBack]
@[simp] theorem atFloor_powerKept (d : Dev) (c : Cell) : PowerKept d ((atFloor d c).dev) := by
  unfold atFloor; split <;> exact ⟨rfl, rfl⟩
@[simp] theorem screen_powerKept (d : Dev) (n : Nat) (c : Cell) : PowerKept d ((screen d n c).dev) := by
  fun_cases screen <;> simp +zetaDelta
@[simp] theorem onCell_powerKept {d : Dev} {deliver : Dev → Dev} (h : ∀ e, PowerKept d e → PowerKept d (deliver e)) (n : Nat)
    (c : Cell) (types : List Nat) : PowerKept d (onCell d n c types deliver) := by
  have hs := screen_powerKept d n c
  unfold onCell; split <;> simp_all
@[simp] theorem holdCell_powerKept (d : Dev) (n : Nat) (c : Cell) : PowerKept d (holdCell d n c) := by simp [holdCell]
@[simp] theorem leaveBuffer_powerKept (d : Dev) (n : Nat) (c : Cell) : PowerKept d (leaveBuffer d n c) := ⟨rfl, rfl⟩
@[simp] theorem onCellWhen_powerKept {d : Dev} {deliver : Dev → Dev} (h : ∀ e, PowerKept d e → PowerKept d (deliver e))
    (waits : Dev → Cell → Bool) (n : Nat) (c : Cell) (types : List Nat) :
    PowerKept d (onCellWhen waits d n c types deliver) := by
  have hl : PowerKept (leaveBuffer d n c) (onCell (leaveBuffer d n c) n c types deliver) :=
    onCell_powerKept (by simpa using h) ..
  simp [onCellWhen, hl]
@[simp] theorem announce_powerKept (d : Dev) : PowerKept d (announce d) := by simp [announce]
@[simp] theorem linksNoted_powerKept (before d : Dev) : PowerKept d (linksNoted before d) := by simp [linksNoted]
@[simp] theorem setPort_powerKept (d : Dev) (n : Nat) (f : Port → Port) : PowerKept d (setPort d n f) := by simp [setPort]
@[simp] theorem startPort_powerKept (d : Dev) (n : Nat) : PowerKept d (startPort d n) := by simp [startPort]
@[simp] theorem logPartner_powerKept (d : Dev) (n : Nat) (h : LinkHello) : PowerKept d (logPartner d n h) := by
  simp [logPartner]
@[simp] theorem sendHello_powerKept (d : Dev) (n : Nat) : PowerKept d (sendHello d n) := ⟨rfl, rfl⟩
@[simp] theorem helloTick_powerKept (d : Dev) : PowerKept d (helloTick d) := by
  fun_cases helloTick
  grind [sendHello_powerKept, foldl_powerKept]

/-! ### Machine/Probe.lean -/

@[simp] theorem sendMgmt_powerKept (d : Dev) (dest : DevId) (m : Mgmt) : PowerKept d (sendMgmt d dest m) := by simp [sendMgmt]
@[simp] theorem dataLoss_powerKept (d : Dev) (part : Option Nat) (unit addr len : Nat) :
    PowerKept d (dataLoss d part unit addr len) := by
  unfold dataLoss; dsimp only; repeat' split
  all_goals simp
@[simp] theorem lossHere_powerKept (d : Dev) (p unit a : Nat) : PowerKept d (lossHere d p unit a) := by simp [lossHere]
@[simp] theorem lossAt_powerKept (d : Dev) (p a n : Nat) (unit : Nat) : PowerKept d (lossAt d p a n unit) := by
  unfold lossAt; split <;> simp
@[simp] theorem sendProbes_powerKept (d : Dev) (peer : DevId) : PowerKept d (sendProbes d peer) := by simp [sendProbes]
@[simp] theorem escalateFor_powerKept (d : Dev) (peer : DevId) (asManager : Bool) (behalf : Option DevId)
    (asker : List DevId) :
    PowerKept d (escalateFor d peer asManager behalf asker) := by simp [escalateFor]
@[simp] theorem escalate_powerKept (d : Dev) (peer : DevId) (asManager : Bool) : PowerKept d (escalate d peer asManager) := by
  simp [escalate]

/-! ### Machine/Bucket.lean -/

@[simp] theorem modBucket_powerKept (d : Dev) (p i : Nat) (f : Bucket → Bucket) : PowerKept d (modBucket d p i f) := ⟨rfl, rfl⟩
@[simp] theorem grdErr_powerKept (d : Dev) (p i : Nat) : PowerKept d (grdErr d p i) := ⟨rfl, rfl⟩
@[simp] theorem grdFlag_powerKept (d : Dev) (p fl : Nat) : PowerKept d (grdFlag d p fl) := ⟨rfl, rfl⟩
@[simp] theorem writeOutcome_powerKept (d : Dev) (p i status flags : Nat) : PowerKept d (writeOutcome d p i status flags) := by
  simp [writeOutcome]
@[simp] theorem bucketFail_powerKept (d : Dev) (p i status : Nat) : PowerKept d (bucketFail d p i status) := by
  unfold bucketFail; split <;> simp
@[simp] theorem bucketEnded_powerKept (d : Dev) (p i role status : Nat) (fixed : Bool) :
    PowerKept d (bucketEnded d p i role status fixed) := by simp [bucketEnded]
@[simp] theorem seqReport_powerKept (d : Dev) (p step : Nat) : PowerKept d (seqReport d p step) := by
  unfold seqReport; split <;> simp
@[simp] theorem selfFault_powerKept (d : Dev) : PowerKept d (selfFault d) := by simp [selfFault]

/-! ### Machine/Cistern.lean -/

@[simp] theorem setPool_powerKept (d : Dev) (g : Nat) (f : Pool → Pool) : PowerKept d (setPool d g f) := ⟨rfl, rfl⟩
@[simp] theorem cstErr_powerKept (d : Dev) (i : Nat) : PowerKept d (cstErr d i) := ⟨rfl, rfl⟩
@[simp] theorem poolEvent_powerKept (d : Dev) (g l : Nat) : PowerKept d (poolEvent d g l) := by simp [poolEvent]
@[simp] theorem notePool_powerKept (d : Dev) (g : Nat) : PowerKept d (notePool d g) := by simp [notePool]
@[simp] theorem zeroBuf_powerKept (d : Dev) (g i : Nat) : PowerKept d (zeroBuf d g i) := by
  fun_cases zeroBuf <;> simp [*]
@[simp] theorem takeBuf_powerKept (d : Dev) (g p : Nat) (engine : Bool) (i : Nat) : PowerKept d (takeBuf d g p engine i) := by
  simp [takeBuf]
@[simp] theorem takeBufs_powerKept (d : Dev) (g p n : Nat) (engine : Bool) : PowerKept d (takeBufs d g p n engine).2 := by
  simp [takeBufs]
@[simp] theorem freeBufs_powerKept (d : Dev) (g : Nat) (is : List Nat) : PowerKept d (freeBufs d g is) := by
  fun_cases freeBufs
  grind [notePool_powerKept, setPool_powerKept, foldl_powerKept]
@[simp] theorem freeAll_powerKept (d : Dev) (bs : List (Nat × Nat)) : PowerKept d (freeAll d bs) := by simp [freeAll]
@[simp] theorem releaseEngine_powerKept (d : Dev) (g i : Nat) : PowerKept d (releaseEngine d g i) := ⟨rfl, rfl⟩
@[simp] theorem request_powerKept (d : Dev) (g p n : Nat) (who : WaitFor) : PowerKept d (request d g p n who).2 := by
  unfold request; dsimp only; repeat' split
  all_goals simp
@[simp] theorem grantWaiting_powerKept (d : Dev) (g p : Nat) : PowerKept d (grantWaiting d g p).2 := by
  unfold grantWaiting; repeat' split
  all_goals simp
@[simp] theorem dropWaits_powerKept (d : Dev) (k : WaitReq → Bool) : PowerKept d (dropWaits d k) := ⟨rfl, rfl⟩
@[simp] theorem countBadFree_powerKept (d : Dev) (p cause a : Nat) : PowerKept d (countBadFree d p cause a) := by
  simp [countBadFree]
@[simp] theorem returnBuffers_powerKept (d : Dev) (p : Nat) : PowerKept d (returnBuffers d p) := by simp [returnBuffers]

/-! ### Machine/Tasks.lean -/

@[simp] theorem portDone_powerKept (d : Dev) (p lcore : Nat) (sub : U32) (idx : Nat) :
    PowerKept d (portDone d p lcore sub idx) := by
  simp [portDone]

/-! ### Machine/Xdesc.lean -/

@[simp] theorem writeShared_powerKept (d : Dev) (p : Nat) (engine : Bool) (rs : List (Nat × Nat)) (a : Nat) (bs : List Byte) :
    PowerKept d (writeShared d p engine rs a bs) := by simp [writeShared]

/-! ### Machine/Gate.lean -/

@[simp] theorem modStep_powerKept (d : Dev) (k : Nat) (f : GStep → GStep) : PowerKept d (modStep d k f) := ⟨rfl, rfl⟩
@[simp] theorem sweepSteps_powerKept (d : Dev) : PowerKept d (sweepSteps d) := ⟨rfl, rfl⟩
@[simp] theorem gateFlag_powerKept (d : Dev) (p i : Nat) : PowerKept d (gateFlag d p i) := ⟨rfl, rfl⟩
@[simp] theorem gateWrite_powerKept (d : Dev) (p slot a : Nat) (bs : List Byte) : PowerKept d (gateWrite d p slot a bs) := by
  simp [gateWrite]
@[simp] theorem gateFault_powerKept (d : Dev) (k cause token : Nat) : PowerKept d (gateFault d k cause token) := by
  unfold gateFault; split <;> simp
@[simp] theorem gateReadFault_powerKept (d : Dev) (k p cause token addr n : Nat) :
    PowerKept d (gateReadFault d k p cause token addr n) := by simp [gateReadFault]
@[simp] theorem writeRecords_powerKept (d : Dev) (p id slot base k : Nat) (cs : List Choice) :
    PowerKept d (writeRecords d p id slot base k cs).1 := by
  fun_induction writeRecords <;> simp [*]
@[simp] theorem gateClose_powerKept (d : Dev) (k : Nat) : PowerKept d (gateClose d k) := by
  fun_cases gateClose with
  | case5 g _ _ x p top _ a d1 _ ts cs d2 d3 d4 t hr =>
    have h3 : PowerKept d d3 := by simp [d3, d2, d1]
    exact (h3.trans (powerKept_of_fst_eq hr (writeRecords_powerKept ..))).trans (gateFault_powerKept ..)
  | case6 g _ _ x p top _ a d1 _ ts cs d2 d3 d4 hr =>
    have h3 : PowerKept d d3 := by simp [d3, d2, d1]
    have h4 := h3.trans (powerKept_of_fst_eq hr (writeRecords_powerKept ..))
    simpa using h4
  | case7 g _ _ x p top _ a d1 _ ts cs d2 d3 d4 hr =>
    have h3 : PowerKept d d3 := by simp [d3, d2, d1]
    exact (h3.trans (powerKept_of_fst_eq hr (writeRecords_powerKept ..))).trans (gateFault_powerKept ..)
  | _ => simp +zetaDelta
@[simp] theorem pushBytes_powerKept (u : Push) (a n : Nat) (d : Dev) : PowerKept d (pushBytes u a n d).2 := by simp [pushBytes]
@[simp] theorem takeRow_powerKept (k : Nat) (g : GStep) (u : Push) (skip : Nat → Bool) (d : Dev) (i : Nat) :
    PowerKept d (takeRow k g u skip d i) := by
  unfold takeRow; dsimp only; repeat' split
  all_goals simp
@[simp] theorem takePush_powerKept (k : Nat) (d : Dev) (u : Push) : PowerKept d (takePush k d u) := by
  unfold takePush; dsimp only; repeat' split
  all_goals simp
@[simp] theorem grantStep_powerKept (d : Dev) (k : Nat) : PowerKept d (grantStep d k) := by
  unfold grantStep; dsimp only; repeat' split
  all_goals simp
@[simp] theorem receivePush_powerKept (d : Dev) (u : Push) : PowerKept d (receivePush d u) := by
  unfold receivePush; dsimp only; split <;> simp
@[simp] theorem workspaceError_powerKept (d : Dev) (k : Nat) : PowerKept d (workspaceError d k) := by
  unfold workspaceError; split <;> simp
@[simp] theorem gateDiscard_powerKept (d : Dev) (k : GStep → Bool) (sev : Nat) (event : Bool) :
    PowerKept d (gateDiscard d k sev event) := by simp [gateDiscard]
@[simp] theorem gateForget_powerKept (d : Dev) (p : Nat) : PowerKept d (gateForget d p) := ⟨rfl, rfl⟩

/-! ### Machine/Sluice.lean -/

@[simp] theorem modX_powerKept (d : Dev) (uid : Nat) (f : Exch → Exch) : PowerKept d (modX d uid f) := ⟨rfl, rfl⟩
@[simp] theorem modOut_powerKept (d : Dev) (uid dst : Nat) (f : OutXfer → OutXfer) :
    PowerKept d (modOut d uid dst f) := ⟨rfl, rfl⟩
@[simp] theorem modIn_powerKept (d : Dev) (uid src : Nat) (f : InXfer → InXfer) : PowerKept d (modIn d uid src f) := ⟨rfl, rfl⟩
@[simp] theorem slcErr_powerKept (d : Dev) (i : Nat) : PowerKept d (slcErr d i) := ⟨rfl, rfl⟩
@[simp] theorem slcFlag_powerKept (d : Dev) (p fl : Nat) : PowerKept d (slcFlag d p fl) := ⟨rfl, rfl⟩
@[simp] theorem slcWrite_powerKept (d : Dev) (x : Exch) (engine : Bool) (a : Nat) (bs : List Byte) :
    PowerKept d (slcWrite d x engine a bs) := by simp [slcWrite]
@[simp] theorem slcNote_powerKept (d : Dev) (x : Exch) (a : Nat) (bs : List Byte) : PowerKept d (slcNote d x a bs) := by
  simp [slcNote]
@[simp] theorem tableReport_powerKept (d : Dev) (p a n : Nat) : PowerKept d (tableReport d p a n) := by
  unfold tableReport; split <;> simp
@[simp] theorem tablesReport_powerKept (d : Dev) (p : Nat) (x : BitVec 512) : PowerKept d (tablesReport d p x) := by
  unfold tablesReport; dsimp only; split <;> simp
theorem writeHeaders_powerKept {d d' : Dev} {x : Exch} {hs : List (BitVec 512)} (h : writeHeaders d x hs = .inr d') :
    PowerKept d d' := by
  revert h; fun_induction writeHeaders <;> simp +contextual [*, eq_comm]
@[simp] theorem sendTo_powerKept (d : Dev) (uid dst upto : Nat) : PowerKept d (sendTo d uid dst upto) := by
  unfold sendTo; repeat' split
  all_goals simp
@[simp] theorem takeCredit_powerKept (d : Dev) (own : Nat) (dev : DevId) (part : Nat) :
    PowerKept d (takeCredit d own dev part).2 := by
  unfold takeCredit; dsimp only; split <;> simp
@[simp] theorem startOut_powerKept (uid : Nat) (d : Dev) (dst : Nat) : PowerKept d (startOut uid d dst) := by
  unfold startOut; dsimp only; repeat' split
  all_goals simp
@[simp] theorem takeTags_powerKept (d : Dev) (x : Exch) : PowerKept d (takeTags d x) := by simp [takeTags]
@[simp] theorem endOut_powerKept (d : Dev) (uid dst : Nat) : PowerKept d (endOut d uid dst) := by
  unfold endOut; repeat' split
  all_goals simp
@[simp] theorem sendAbort_powerKept (status cause : Nat) (x : Exch) (d : Dev) (rank : Nat) :
    PowerKept d (sendAbort status cause x d rank) := by simp [sendAbort]
@[simp] theorem enterSlcDup_powerKept (d : Dev) (cfg : U32) (src : DevId) (part tag : Nat) (id : U32) (whole : Bool) :
    PowerKept d (enterSlcDup d cfg src part tag id whole) := by simp [enterSlcDup]
@[simp] theorem closeIns_powerKept (d : Dev) (x : Exch) : PowerKept d (closeIns d x) := by
  unfold closeIns; refine foldl_powerKept (fun d x => ?_) _ _; split <;> simp
@[simp] theorem dropBuffers_powerKept (d : Dev) (x : Exch) : PowerKept d (dropBuffers d x) := by simp [dropBuffers]
@[simp] theorem lostServing_powerKept (d : Dev) (x : Exch) (status cause : Nat) :
    PowerKept d (lostServing d x status cause) := by
  simp [lostServing]
@[simp] theorem slcFail_powerKept (d : Dev) (uid status cause peer : Nat) (gone : List Nat) :
    PowerKept d (slcFail d uid status cause peer gone) := by
  unfold slcFail; split <;> simp
@[simp] theorem slcRegionFail_powerKept (d : Dev) (uid p : Nat) (f : Nat × Nat × Nat) :
    PowerKept d (slcRegionFail d uid p f) := by
  simp [slcRegionFail]
@[simp] theorem writeStatus_powerKept (d : Dev) (x : Exch) : PowerKept d (writeStatus d x) := by simp [writeStatus]
@[simp] theorem addX_powerKept (d : Dev) (x : Exch) : PowerKept d (addX d x) := ⟨rfl, rfl⟩
@[simp] theorem startDispatch_powerKept (d : Dev) (x : Exch) : PowerKept d (startDispatch d x) := by
  fun_cases startDispatch <;> grind [writeHeaders_powerKept, chargeRange_powerKept, addX_powerKept, modX_powerKept,
    opQuota_powerKept,
    slcRegionFail_powerKept, slcFlag_powerKept, foldl_powerKept]
@[simp] theorem slcSilent_powerKept (d : Dev) (x : Exch) (f : Nat × Nat) : PowerKept d (slcSilent d x f) := by simp [slcSilent]
@[simp] theorem tablesTouched_powerKept (d : Dev) (p : Nat) (x : BitVec 512) : PowerKept d (tablesTouched d p x) := by
  simp [tablesTouched]
theorem slcPost_powerKept {start : Dev → Exch → Dev} (h : ∀ d x, PowerKept d (start d x)) (d : Dev) (p lcore : Nat) (sub : U32)
    (addr kind : Nat) : PowerKept d (slcPost d p lcore sub addr kind start) := by
  fun_cases slcPost <;> grind [startDispatch_powerKept, logOp_pwr, logOp_grade, slcSilent_powerKept, addX_powerKept,
    lossHere_powerKept, slcFail_powerKept,
    tablesTouched_powerKept, tablesReport_powerKept]

/-! ### Machine/Exchange.lean -/

@[simp] theorem answerSlc_powerKept (d : Dev) (c : Cell) (ty off : Nat) (pay : BitVec 512) :
    PowerKept d (answerSlc d c ty off pay) := by simp [answerSlc]
@[simp] theorem sendCountAck_powerKept (d : Dev) (c : Cell) (id : Nat) (defer_ : Bool) :
    PowerKept d (sendCountAck d c id defer_) := by simp [sendCountAck]
@[simp] theorem grantCredit_powerKept (d : Dev) (cfg : U32) (dev : DevId) (p : Nat) :
    PowerKept d (grantCredit d cfg dev p).2 := by
  unfold grantCredit; dsimp only; split <;> simp
@[simp] theorem sendSlcAck_powerKept (d : Dev) (dev : DevId) (combine : Bool) (part tag id credit : Nat) :
    PowerKept d (sendSlcAck d dev combine part tag id credit) := by simp [sendSlcAck]
@[simp] theorem deferCell_powerKept (d : Dev) (c : Cell) (id : Nat) : PowerKept d (deferCell d c id) := by simp [deferCell]
@[simp] theorem storeCell_powerKept (d : Dev) (c : Cell) : PowerKept d (storeCell d c) := ⟨rfl, rfl⟩
@[simp] theorem ackStored_powerKept (d : Dev) (c : Cell) : PowerKept d (ackStored d c) := by
  unfold ackStored; split <;> simp
@[simp] theorem keepCell_powerKept (d : Dev) (c : Cell) : PowerKept d (keepCell d c) := by simp [keepCell]
@[simp] theorem sluiceRaise_powerKept (d : Dev) (p : Nat) (t : SigTarget) : PowerKept d (sluiceRaise d p t) := by
  unfold sluiceRaise; split <;> simp
@[simp] theorem expertDone_powerKept (uid : Nat) (d : Dev) (l : Nat) : PowerKept d (expertDone uid d l) := by
  unfold expertDone; repeat' split
  all_goals simp
theorem placeBytes_powerKept {d d' : Dev} {x : Exch} {l row o : Nat} {bs : List Byte} {base : Nat × Nat}
    (h : placeBytes d x l row o bs base = .inr d') : PowerKept d d' := by
  revert h; fun_cases placeBytes <;> grind [chargeRange_powerKept, slcWrite_powerKept]
@[simp] theorem placeCell_powerKept (uid src : Nat) (d : Dev) (off : Nat) : PowerKept d (placeCell uid src d off) := by
  fun_cases placeCell <;> grind [modIn_powerKept, expertDone_powerKept, modX_powerKept, placeBytes_powerKept,
    slcRegionFail_powerKept, foldl_powerKept]
@[simp] theorem placeAll_powerKept (uid : Nat) (d : Dev) (src : Nat) : PowerKept d (placeAll uid d src) := by
  unfold placeAll; dsimp only; repeat' split
  all_goals simp
@[simp] theorem placeWaiting_powerKept (d : Dev) (p : Nat) : PowerKept d (placeWaiting d p) := by simp [placeWaiting]
@[simp] theorem writeRowMap_powerKept (uid src : Nat) (d : Dev) (off : Nat) : PowerKept d (writeRowMap uid src d off) := by
  fun_cases writeRowMap <;> simp [*]
@[simp] theorem answerReady_powerKept (d : Dev) (x : Exch) (i : InXfer) : PowerKept d (answerReady d x i) := by
  simp [answerReady]
@[simp] theorem readyIf_powerKept (uid : Nat) (d : Dev) (src : Nat) : PowerKept d (readyIf uid d src) := by
  fun_cases readyIf <;> simp [*]
@[simp] theorem ackIf_powerKept (uid : Nat) (d : Dev) (src : Nat) : PowerKept d (ackIf uid d src) := by
  unfold ackIf; repeat' split
  all_goals simp
@[simp] theorem takeCell_powerKept (uid src : Nat) (d : Dev) (c : Cell) : PowerKept d (takeCell uid src d c) := by
  unfold takeCell; split <;> simp
@[simp] theorem adoptLanding_powerKept (d : Dev) (uid src : Nat) (dev : DevId) (p : Nat) :
    PowerKept d (adoptLanding d uid src dev p) := by
  unfold adoptLanding; dsimp only; split <;> simp
@[simp] theorem joinCount_powerKept (d : Dev) (x : Exch) (i : InXfer) (c : Cell) (whole : Option U32) (cfg : U32) :
    PowerKept d (joinCount d x i c whole cfg) := by simp [joinCount]
@[simp] theorem newCount_powerKept (c : Cell) (id : U32) (d : Dev) : PowerKept d (newCount c id d) := by
  unfold newCount; repeat' split
  all_goals simp
@[simp] theorem countCell_powerKept (c : Cell) (d : Dev) : PowerKept d (countCell c d) := by
  unfold countCell; split <;> simp
@[simp] theorem bodyCell_powerKept (c : Cell) (d : Dev) : PowerKept d (bodyCell c d) := by
  fun_cases bodyCell <;> simp [*]
@[simp] theorem endByAbort_powerKept (d : Dev) (x : Exch) (c : Cell) : PowerKept d (endByAbort d x c) := by
  unfold endByAbort; split <;> simp
@[simp] theorem absorbStored_powerKept (d : Dev) (uid : Nat) : PowerKept d (absorbStored d uid) := by
  unfold absorbStored; dsimp only
  split
  · exact .refl d
  refine ite_powerKept (.refl d) (powerKept_foldl (powerKept_foldl ⟨rfl, rfl⟩ fun d s => ?_) fun d s => ?_)
  · repeat' split
    all_goals simp
  · repeat' split
    all_goals simp
@[simp] theorem refuseRecord_powerKept (uid : Nat) (d : Dev) (rec_ : Nat) : PowerKept d (refuseRecord uid d rec_) := by
  unfold refuseRecord; split <;> simp
@[simp] theorem trimOwn_powerKept (uid : Nat) (d : Dev) : PowerKept d (trimOwn uid d) := by
  unfold trimOwn; repeat' split
  all_goals simp
@[simp] theorem rowsFix_powerKept (x : Exch) (d : Dev) : PowerKept d (rowsFix x d) := by
  unfold rowsFix; dsimp only
  refine ite_powerKept (by simp) (ite_powerKept (by simp) (ite_powerKept (by simp) ?_))
  refine powerKept_foldl (powerKept_foldl (powerKept_foldl (powerKept_foldl (powerKept_foldl (by simp) fun d i => ?_)
    fun d _ => expertDone_powerKept ..) fun d _ => placeAll_powerKept ..) fun d _ => readyIf_powerKept ..) fun d _ =>
      ackIf_powerKept ..
  split <;> simp
@[simp] theorem giveRegion_powerKept (d : Dev) (uid l : Nat) (is : List Nat) : PowerKept d (giveRegion d uid l is) := by
  unfold giveRegion; split <;> simp
@[simp] theorem rxBufAlloc_powerKept (p : Nat) (exch : U32) (l : Nat) (d : Dev) : PowerKept d (rxBufAlloc p exch l d) := by
  fun_cases rxBufAlloc <;> grind [request_powerKept, giveRegion_powerKept, foldl_powerKept]
@[simp] theorem xferComplete_powerKept (p : Nat) (exch : U32) (src : Nat) (d : Dev) :
    PowerKept d (xferComplete p exch src d) := by
  unfold xferComplete; repeat' split
  all_goals simp
@[simp] theorem startCombine_powerKept (d : Dev) (x : Exch) : PowerKept d (startCombine d x) := by
  unfold startCombine; dsimp only; repeat' split
  all_goals simp
@[simp] theorem xchgPost_powerKept (d : Dev) (p lcore : Nat) (sub : U32) (addr kind : Nat) :
    PowerKept d (xchgPost d p lcore sub addr kind) := by
  simp [xchgPost, slcPost_powerKept startCombine_powerKept]
@[simp] theorem giveReturns_powerKept (d : Dev) (uid src : Nat) (is : List Nat) : PowerKept d (giveReturns d uid src is) := by
  simp [giveReturns]
@[simp] theorem returnBuffersHeld_powerKept (p : Nat) (exch : U32) (src : Nat) (d : Dev) :
    PowerKept d (returnBuffers_ p exch src d) := by
  fun_cases returnBuffers_ <;> grind [giveReturns_powerKept, request_powerKept, foldl_powerKept]
@[simp] theorem freeReturns_powerKept (uid : Nat) (d : Dev) : PowerKept d (freeReturns uid d) := by
  unfold freeReturns; split <;> simp
@[simp] theorem homeSum_powerKept (p : Nat) (exch : U32) (t : Nat) (d : Dev) : PowerKept d (homeSum p exch t d) := by
  unfold homeSum; dsimp only; repeat' split
  all_goals simp
@[simp] theorem countAckCell_powerKept (c : Cell) (d : Dev) : PowerKept d (countAckCell c d) := by
  unfold countAckCell; split <;> simp
@[simp] theorem readyCell_powerKept (c : Cell) (d : Dev) : PowerKept d (readyCell c d) := by
  unfold readyCell; split <;> simp
@[simp] theorem grantCell_powerKept (c : Cell) (d : Dev) : PowerKept d (grantCell c d) := by
  unfold grantCell; split <;> simp
@[simp] theorem ackCell_powerKept (c : Cell) (d : Dev) : PowerKept d (ackCell c d) := by
  unfold ackCell; repeat' split
  all_goals simp
@[simp] theorem abortCell_powerKept (c : Cell) (d : Dev) : PowerKept d (abortCell c d) := by
  unfold abortCell; dsimp only; split <;> simp
@[simp] theorem removeX_powerKept (d : Dev) (uid : Nat) : PowerKept d (removeX d uid) := ⟨rfl, rfl⟩
@[simp] theorem closeX_powerKept (d : Dev) (x : Exch) : PowerKept d (closeX d x) := ⟨rfl, rfl⟩
@[simp] theorem keepAreas_powerKept (d : Dev) (x : Exch) : PowerKept d (keepAreas d x) := ⟨rfl, rfl⟩
@[simp] theorem exchComplete_powerKept (p : Nat) (exch : U32) (d : Dev) : PowerKept d (exchComplete p exch d) := by
  unfold exchComplete; split <;> simp
@[simp] theorem abortX_powerKept (gone : Bool) (d : Dev) (x : Exch) : PowerKept d (abortX gone d x) := by
  unfold abortX; dsimp only; split <;> simp
@[simp] theorem abortSub_powerKept (d : Dev) (p : Nat) (sub : U32) : PowerKept d (abortSub d p sub) := by simp [abortSub]
@[simp] theorem slcForget_powerKept (d : Dev) (p : Nat) : PowerKept d (slcForget d p) := by simp [slcForget]
@[simp] theorem resendOut_powerKept (d : Dev) (x : Exch) (o : OutXfer) (retry : Bool) (n : Nat) :
    PowerKept d (resendOut d x o retry n) := by simp [resendOut]
@[simp] theorem slcTimeout_powerKept (p : Nat) (exch : U32) (dst : Nat) (d : Dev) : PowerKept d (slcTimeout p exch dst d) := by
  unfold slcTimeout; split <;> simp
@[simp] theorem slcDefer_powerKept (p : Nat) (exch : U32) (dst : Nat) (d : Dev) : PowerKept d (slcDefer p exch dst d) := by
  unfold slcDefer; split <;> simp
@[simp] theorem creditLapse_powerKept (dev : DevId) (p : Nat) (source : Bool) (d : Dev) :
    PowerKept d (creditLapse dev p source d) := by
  unfold creditLapse; dsimp only; split <;> simp
@[simp] theorem abortResend_powerKept (p : Nat) (exch : U32) (dev : DevId) (d : Dev) :
    PowerKept d (abortResend p exch dev d) := by
  unfold abortResend; dsimp only; split <;> simp
@[simp] theorem slcResendTo_powerKept (d : Dev) (peer : DevId) : PowerKept d (slcResendTo d peer) := by simp [slcResendTo]
@[simp] theorem slcFenceDevice_powerKept (d : Dev) (dev : DevId) : PowerKept d (slcFenceDevice d dev) := by
  unfold slcFenceDevice; dsimp only
  refine .trans (powerKept_foldl (powerKept_foldl (.refl d) fun d x => ?_) fun d x => by simp) (freeAll_powerKept ..)
  split <;> simp
@[simp] theorem sendQuery_powerKept (d : Dev) (rill : Bool) (p : Nat) (id seq : U32) (dev : DevId) (part : Nat) :
    PowerKept d (sendQuery d rill p id seq dev part) := by simp [sendQuery]
@[simp] theorem slcQueryTimer_powerKept (p : Nat) (id : U32) (dev : DevId) (d : Dev) :
    PowerKept d (slcQueryTimer p id dev d) := by
  unfold slcQueryTimer; split <;> simp
@[simp] theorem slcPeerState_powerKept (c : Cell) (d : Dev) : PowerKept d (slcPeerState c d) := by simp [slcPeerState]

/-! ### Machine/Rill.lean -/

@[simp] theorem modC_powerKept (d : Dev) (uid : Nat) (f : Coll → Coll) : PowerKept d (modC d uid f) := ⟨rfl, rfl⟩
@[simp] theorem rillErr_powerKept (d : Dev) (i : Nat) : PowerKept d (rillErr d i) := ⟨rfl, rfl⟩
@[simp] theorem rillFlag_powerKept (d : Dev) (p fl : Nat) : PowerKept d (rillFlag d p fl) := ⟨rfl, rfl⟩
@[simp] theorem modSlot_powerKept (d : Dev) (uid st c : Nat) (f : Slot → Slot) :
    PowerKept d (modSlot d uid st c f) := ⟨rfl, rfl⟩
@[simp] theorem needSlot_powerKept (d : Dev) (uid st c : Nat) : PowerKept d (needSlot d uid st c) := ⟨rfl, rfl⟩
@[simp] theorem modOutC_powerKept (d : Dev) (uid st c r : Nat) (f : CollXfer → CollXfer) :
    PowerKept d (modOutC d uid st c r f) :=
  ⟨rfl, rfl⟩
@[simp] theorem sendCtl_powerKept (d : Dev) (x : Coll) (r st c kind : Nat) (fields : List (Nat × Nat)) :
    PowerKept d (sendCtl d x r st c kind fields) := by simp [sendCtl]
@[simp] theorem sendKept_powerKept (d : Dev) (x : Coll) (r kind level : Nat) (fields : List (Nat × Nat)) :
    PowerKept d (sendKept d x r kind level fields) := by simp [sendKept]
@[simp] theorem sendDue_powerKept (d : Dev) (uid : Nat) : PowerKept d (sendDue d uid) := by
  unfold sendDue; dsimp only; repeat' split
  all_goals simp
@[simp] theorem chargeSlots_powerKept (d : Dev) (x : Coll) (n : Nat) : PowerKept d (chargeSlots d x n) := by simp [chargeSlots]
@[simp] theorem trySend_powerKept (uid st c : Nat) (d : Dev) (r : Nat) : PowerKept d (trySend uid st c d r) := by
  unfold trySend; repeat' split
  all_goals simp
@[simp] theorem releaseSlot_powerKept (d : Dev) (uid st c : Nat) : PowerKept d (releaseSlot d uid st c) := by
  unfold releaseSlot; split <;> simp
@[simp] theorem tryRelease_powerKept (uid : Nat) (d : Dev) (sc : Nat × Nat) : PowerKept d (tryRelease uid d sc) := by
  unfold tryRelease; split <;> simp
@[simp] theorem pumpColl_powerKept (d : Dev) (uid : Nat) : PowerKept d (pumpColl d uid) := by
  unfold pumpColl; split <;> simp
@[simp] theorem reportColl_powerKept (d : Dev) (x : Coll) (status cause rank : Nat) (signal : Bool) :
    PowerKept d (reportColl d x status cause rank signal) := by
  unfold reportColl; repeat' split
  all_goals simp
@[simp] theorem collEnd_powerKept (d : Dev) (uid status cause rank : Nat) (signal : Bool) (fwd : Option Nat) :
    PowerKept d (collEnd d uid status cause rank signal fwd) := by
  unfold collEnd; split <;> simp
@[simp] theorem verdictFuel_powerKept (k uid : Nat) (d : Dev) : PowerKept d (verdictFuel k uid d) := by
  fun_induction verdictFuel <;> grind [collEnd_powerKept, modC_powerKept, sendKept_powerKept, foldl_powerKept]
@[simp] theorem verdictStep_powerKept (d : Dev) (uid : Nat) : PowerKept d (verdictStep d uid) := by
  unfold verdictStep; split <;> simp
@[simp] theorem signalFuel_powerKept (k uid : Nat) (d : Dev) : PowerKept d (signalFuel k uid d) := by
  fun_induction signalFuel <;> grind [addSem_pwr, addSem_grade, modC_powerKept]
@[simp] theorem chunkComplete_powerKept (d : Dev) (uid c : Nat) :
    PowerKept d (chunkComplete d uid c) := by simp [chunkComplete]
@[simp] theorem barrierFuel_powerKept (k uid : Nat) (d : Dev) : PowerKept d (barrierFuel k uid d) := by
  fun_induction barrierFuel with
  | case5 n uid d x _ _ ready s _ d1 d2 ih =>
    have h2 : PowerKept d1 d2 := by simp only [d2]; split <;> simp
    have h1 : PowerKept d d1 := modSlot_powerKept ..
    exact ((h1.trans h2).trans (pumpColl_powerKept ..)).trans ih
  | _ => exact .refl _
@[simp] theorem openColl_powerKept (d : Dev) (uid : Nat) (bufs : List Nat) : PowerKept d (openColl d uid bufs) := ⟨rfl, rfl⟩
@[simp] theorem askSlots_powerKept (d : Dev) (uid : Nat) : PowerKept d (askSlots d uid) := by
  fun_cases askSlots with
  | case4 _ _ _ _ _ _ hr => exact (powerKept_of_snd_eq hr (request_powerKept ..)).trans (openColl_powerKept ..)
  | case5 _ _ _ _ _ hr => exact powerKept_of_snd_eq hr (request_powerKept ..)
  | _ => simp
@[simp] theorem settleComm_powerKept (k p comm : Nat) (d : Dev) : PowerKept d (settleComm k p comm d) := by
  fun_induction settleComm <;> simp +zetaDelta [*]
@[simp] theorem settleColl_powerKept (d : Dev) (p comm : Nat) : PowerKept d (settleColl d p comm) := by simp [settleColl]
@[simp] theorem takeOpen_powerKept (d : Dev) (uid : Nat) (c : Cell) : PowerKept d (takeOpen d uid c) := by
  unfold takeOpen; repeat' split
  all_goals simp
@[simp] theorem takeAbort_powerKept (d : Dev) (uid : Nat) (c : Cell) : PowerKept d (takeAbort d uid c) := by
  unfold takeAbort; split <;> simp
@[simp] theorem takeMismatch_powerKept (d : Dev) (uid : Nat) (c : Cell) : PowerKept d (takeMismatch d uid c) := by
  fun_cases takeMismatch <;> simp [*]
@[simp] theorem absorbColl_powerKept (d : Dev) (uid p comm seq : Nat) : PowerKept d (absorbColl d uid p comm seq) := by
  simp [absorbColl]
@[simp] theorem collAccept_powerKept (d : Dev) (p comm : Nat) (sub : U32) (at_ bucket : Option (Nat × Nat)) (x : BitVec 512)
    (fail : Option Nat) :
    PowerKept d (collAccept d p comm sub at_ bucket x fail) := by
  unfold collAccept; dsimp only; repeat' split
  all_goals simp
@[simp] theorem collPost_powerKept (d : Dev) (p lcore : Nat) (sub : U32) (addr comm : Nat) :
    PowerKept d (collPost d p lcore sub addr comm) := by simp [collPost]
@[simp] theorem rillAbort_powerKept (d : Dev) (x : Coll) : PowerKept d (rillAbort d x) := by simp [rillAbort]
@[simp] theorem rillAbortSub_powerKept (d : Dev) (p : Nat) (sub : U32) : PowerKept d (rillAbortSub d p sub) := by
  simp [rillAbortSub]
@[simp] theorem rillForget_powerKept (d : Dev) (p : Nat) : PowerKept d (rillForget d p) := by simp [rillForget]
@[simp] theorem rillRestart_powerKept (d : Dev) (p : Nat) : PowerKept d (rillRestart d p) := by simp [rillRestart]
@[simp] theorem dropComm_powerKept (d : Dev) (p comm : Nat) : PowerKept d (dropComm d p comm) := ⟨rfl, rfl⟩
@[simp] theorem rillFenceDevice_powerKept (d : Dev) (dev : DevId) : PowerKept d (rillFenceDevice d dev) := by
  simp [rillFenceDevice]
@[simp] theorem resendXfer_powerKept (d : Dev) (x : Coll) (o : CollXfer) :
    PowerKept d (resendXfer d x o) := by simp [resendXfer]
@[simp] theorem rillResendTo_powerKept (d : Dev) (dev : DevId) : PowerKept d (rillResendTo d dev) := by
  unfold rillResendTo; refine foldl_powerKept (fun d x => ?_) _ _; split <;> simp
@[simp] theorem rillTick_powerKept (d : Dev) : PowerKept d (rillTick d) := by simp [rillTick]
@[simp] theorem rillQueryTimer_powerKept (p : Nat) (id : U32) (dev : DevId) (d : Dev) :
    PowerKept d (rillQueryTimer p id dev d) := by
  unfold rillQueryTimer; split <;> simp
@[simp] theorem rillPeerState_powerKept (c : Cell) (d : Dev) : PowerKept d (rillPeerState c d) := by simp [rillPeerState]

/-! ### Machine/Stage.lean -/

@[simp] theorem chunkStart_powerKept (p comm chunk : Nat) (d : Dev) : PowerKept d (chunkStart p comm chunk d) := by
  unfold chunkStart; dsimp only; repeat' split
  all_goals simp
@[simp] theorem giveRetain_powerKept (d : Dev) (uid chunk pool : Nat) (is : List Nat) :
    PowerKept d (giveRetain d uid chunk pool is) := by
  unfold giveRetain; repeat' split
  all_goals simp
@[simp] theorem askRetain_powerKept (d : Dev) (uid chunk : Nat) : PowerKept d (askRetain d uid chunk) := by
  fun_cases askRetain <;> grind [giveRetain_powerKept, request_powerKept, foldl_powerKept]
@[simp] theorem releaseRetention_powerKept (d : Dev) (p : Nat) (entry : Option Nat) :
    PowerKept d (releaseRetention d p entry) := by
  simp [releaseRetention]
theorem writeOutput_powerKept {d d' : Dev} {x : Coll} {c : Nat} {res : Tbl (List Byte)} (h : writeOutput d x c res = .inr d') :
    PowerKept d d' := by
  revert h; fun_cases writeOutput <;> grind [writeRange_powerKept, rillFlag_powerKept, modC_powerKept, foldl_powerKept]
@[simp] theorem writeOnward_powerKept (d : Dev) (x : Coll) (st c : Nat) (res : Tbl (List Byte)) :
    PowerKept d (writeOnward d x st c res) := by
  fun_cases writeOnward <;> grind [chunkComplete_powerKept, collEnd_powerKept, chargeSlots_powerKept, askRetain_powerKept,
    writeOutput_powerKept,
    modSlot_powerKept, countDenied_powerKept, needSlot_powerKept, foldl_powerKept]
@[simp] theorem stageSum_powerKept (p comm st chunk : Nat) (d : Dev) : PowerKept d (stageSum p comm st chunk d) := by
  unfold stageSum; dsimp only; repeat' split
  all_goals simp
@[simp] theorem ackTransfer_powerKept (d : Dev) (x : Coll) (st c r : Nat) : PowerKept d (ackTransfer d x st c r) := by
  simp [ackTransfer]
@[simp] theorem takeTransfer_powerKept (d : Dev) (x : Coll) (st c r : Nat) (bytes : List Byte) :
    PowerKept d (takeTransfer d x st c r bytes) := by simp [takeTransfer]
@[simp] theorem ackEnded_powerKept (d : Dev) (p comm st : Nat) (c : Cell) : PowerKept d (ackEnded d p comm st c) := by
  fun_cases ackEnded <;> simp [*]
@[simp] theorem collData_powerKept (c : Cell) (d : Dev) : PowerKept d (collData c d) := by
  unfold collData; dsimp only; repeat' split
  all_goals simp
@[simp] theorem collEmpty_powerKept (c : Cell) (d : Dev) : PowerKept d (collEmpty c d) := by
  fun_cases collEmpty <;> simp [*]

/-! ### Machine/Grad.lean -/

@[simp] theorem writeSummary_powerKept (d : Dev) (p : Nat) (e : BitVec 1024) (m : Nat) (word0 : Bool) (eloc : Option Int) :
    PowerKept d (writeSummary d p e m word0 eloc) := by simp [writeSummary]
@[simp] theorem postBucket_powerKept (p : Nat) (d : Dev) (i : Nat) : PowerKept d (postBucket p d i) := by
  unfold postBucket; repeat' split
  all_goals simp
@[simp] theorem seqPump_powerKept (d : Dev) (p : Nat) : PowerKept d (seqPump d p) := by simp [seqPump]
@[simp] theorem seqPumpAll_powerKept (d : Dev) : PowerKept d (seqPumpAll d) := by simp [seqPumpAll]
@[simp] theorem entryLost_powerKept (d : Dev) (p i status : Nat) (e : BitVec 1024) :
    PowerKept d (entryLost d p i status e) := by
  simp [entryLost]
@[simp] theorem launchBucket_powerKept (d : Dev) (p i : Nat) (e : BitVec 1024) : PowerKept d (launchBucket d p i e) := by
  unfold launchBucket; dsimp only; repeat' split
  all_goals simp
@[simp] theorem bucketFilled_powerKept (p i : Nat) (d : Dev) : PowerKept d (bucketFilled p i d) := by
  unfold bucketFilled; dsimp only; repeat' split
  all_goals simp
@[simp] theorem bucketConverted_powerKept (p i : Nat) (d : Dev) : PowerKept d (bucketConverted p i d) := by
  unfold bucketConverted; dsimp only; repeat' split
  all_goals simp
@[simp] theorem bucketFinish_powerKept (d : Dev) (p i : Nat) : PowerKept d (bucketFinish d p i) := by
  unfold bucketFinish; split <;> simp
@[simp] theorem verifyBlock_powerKept (p i : Nat) (b : Bucket) (acc : Bool × Dev) (g : Nat) :
    PowerKept acc.2 (verifyBlock p i b acc g).2 := by
  unfold verifyBlock
  extract_lets d e key whole ok a d1 d2
  have h2 : PowerKept acc.2 d2 := by simp [d2, d1, d]
  split
  · exact .refl _
  split
  · exact .refl _
  split
  · split <;> simp [h2]
  · simp [h2]
@[simp] theorem shardVerify_powerKept (p i : Nat) (d : Dev) : PowerKept d (shardVerify p i d) := by
  have hblocks (b : Bucket) (d : Dev) (gs : List Nat) : PowerKept d (gs.foldl (verifyBlock p i b) (true, d)).2 :=
    foldl_snd_powerKept (verifyBlock_powerKept p i b) _ _
  fun_cases shardVerify <;> grind [selfFault_powerKept, bucketFinish_powerKept, noteDenied_powerKept, lossAt_powerKept,
    touched_powerKept,
    seqPump_powerKept, bucketFail_powerKept, grdFlag_powerKept, modBucket_powerKept, writeSummary_powerKept]
@[simp] theorem summaryDone_powerKept (p i : Nat) (d : Dev) : PowerKept d (summaryDone p i d) := by
  unfold summaryDone; repeat' split
  all_goals simp
@[simp] theorem grdBoundary_powerKept (d : Dev) (p : Nat) : PowerKept d (grdBoundary d p) := ⟨rfl, rfl⟩
@[simp] theorem grdNoTasks_powerKept (d : Dev) (p : Nat) : PowerKept d (grdNoTasks d p) := by simp [grdNoTasks]
@[simp] theorem grdCfgWrite_powerKept (p : Nat) (v : U64) (d : Dev) : PowerKept d (grdCfgWrite p v d) := by simp [grdCfgWrite]
@[simp] theorem grdBtabWrite_powerKept (p : Nat) (v : U64) (d : Dev) :
    PowerKept d (grdBtabWrite p v d) := by simp [grdBtabWrite]

/-! ### Machine/Collectives.lean -/

@[simp] theorem onColl_powerKept {deliver : Dev → Dev} (h : ∀ d, PowerKept d (deliver d)) (d : Dev) (port : Nat) (c : Cell)
    (kind : Nat) : PowerKept d (onColl d port c kind deliver) :=
  onCell_powerKept (fun e he => ite_powerKept ((he.trans (h e)).trans (seqPumpAll_powerKept ..)) (.refl d)) ..
@[simp] theorem answerColl_powerKept (d : Dev) (c : Cell) (kind chunk : Nat) : PowerKept d (answerColl d c kind chunk) := by
  simp [answerColl]
@[simp] theorem slotsReserved_powerKept (p comm : Nat) (d : Dev) : PowerKept d (slotsReserved p comm d) := by
  fun_cases slotsReserved <;> grind [openColl_powerKept, grantWaiting_powerKept, settleColl_powerKept, foldl_powerKept]
@[simp] theorem keepEarly_powerKept (d : Dev) (c : Cell) (kind chunk : Nat) : PowerKept d (keepEarly d c kind chunk) := by
  simp [keepEarly]
@[simp] theorem controlCell_powerKept {take : Dev → Nat → Cell → Dev} (h : ∀ d u c, PowerKept d (take d u c)) (c : Cell)
    (kind chunk : Nat) (d : Dev) : PowerKept d (controlCell c kind chunk take d) := by
  fun_cases controlCell <;> simp [*]
@[simp] theorem dropKept_powerKept (d : Dev) (c : Cell) (kind level : Nat) :
    PowerKept d (dropKept d c kind level) := ⟨rfl, rfl⟩
@[simp] theorem openAck_powerKept (c : Cell) (d : Dev) : PowerKept d (openAck c d) := by
  unfold openAck; dsimp only; repeat' split
  all_goals simp
@[simp] theorem noteFreed_powerKept (d : Dev) (x : Coll) (st r f : Nat) : PowerKept d (noteFreed d x st r f) := ⟨rfl, rfl⟩
@[simp] theorem collAck_powerKept (c : Cell) (d : Dev) : PowerKept d (collAck c d) := by
  unfold collAck; repeat' split
  all_goals simp
@[simp] theorem collFree_powerKept (c : Cell) (d : Dev) : PowerKept d (collFree c d) := by
  fun_cases collFree <;> simp [*]
@[simp] theorem collProbe_powerKept (c : Cell) (d : Dev) : PowerKept d (collProbe c d) := by
  fun_cases collProbe <;> simp [*]
@[simp] theorem collRetry_powerKept (d : Dev) (x : Coll) (o : CollXfer) : PowerKept d (collRetry d x o) := by simp [collRetry]
@[simp] theorem collNak_powerKept (c : Cell) (d : Dev) : PowerKept d (collNak c d) := by
  fun_cases collNak <;> simp [*]
@[simp] theorem collTimeout_powerKept (p comm st chunk peer : Nat) (d : Dev) :
    PowerKept d (collTimeout p comm st chunk peer d) := by
  fun_cases collTimeout <;> simp [*]
@[simp] theorem windowProbe_powerKept (p comm st peer : Nat) (d : Dev) : PowerKept d (windowProbe p comm st peer d) := by
  unfold windowProbe; split <;> simp
@[simp] theorem controlResend_powerKept (p comm kind peer : Nat) (d : Dev) :
    PowerKept d (controlResend p comm kind peer d) := by
  unfold controlResend; dsimp only; split <;> simp
@[simp] theorem rillHoldExpiry_powerKept (p comm peer : Nat) (d : Dev) : PowerKept d (rillHoldExpiry p comm peer d) := by
  simp [rillHoldExpiry]
@[simp] theorem peerQueryCell_powerKept (c : Cell) (d : Dev) : PowerKept d (peerQueryCell c d) := by simp [peerQueryCell]

/-! ### Machine/Ftl.lean -/

@[simp] theorem ftlErr_powerKept (d : Dev) (i : Nat) : PowerKept d (ftlErr d i) := ⟨rfl, rfl⟩
@[simp] theorem addWear_powerKept (d : Dev) (n : Nat) : PowerKept d (addWear d n) := by simp [addWear]
@[simp] theorem writeBlock_powerKept (d : Dev) (key : Nat) (bs : List Byte) : PowerKept d (writeBlock d key bs) := by
  simp [writeBlock]
@[simp] theorem trimBlock_powerKept (d : Dev) (key : Nat) : PowerKept d (trimBlock d key) := ⟨rfl, rfl⟩
@[simp] theorem trimExtent_powerKept (d : Dev) (e : Nat) : PowerKept d (trimExtent d e) := ⟨rfl, rfl⟩
@[simp] theorem countReads_powerKept (d : Dev) (keys : List Nat) : PowerKept d (countReads d keys) := by simp [countReads]
@[simp] theorem moveLive_powerKept (d : Dev) (eb : Nat) : PowerKept d (moveLive d eb) := by simp [moveLive]
@[simp] theorem flashRelocation_powerKept (eb : Nat) (d : Dev) : PowerKept d (flashRelocation eb d) := by
  unfold flashRelocation; split <;> simp
@[simp] theorem loseKey_powerKept (d : Dev) (key : Nat) : PowerKept d (loseKey d key) := by
  unfold loseKey; dsimp only; repeat' split
  all_goals simp
@[simp] theorem flashRead_powerKept (d : Dev) (keys : List Nat) : PowerKept d (flashRead d keys) := by simp [flashRead]
@[simp] theorem scrubErase_powerKept (eb : Nat) (r : MediaResult) (d : Dev) : PowerKept d (scrubErase eb r d) := by
  unfold scrubErase; dsimp only; repeat' split
  all_goals simp
@[simp] theorem ageErase_powerKept (eb : Nat) (r : MediaResult) (d : Dev) : PowerKept d (ageErase eb r d) := by
  unfold ageErase; split <;> simp
@[simp] theorem flashScrub_powerKept (eb : Nat) (r : MediaResult) (d : Dev) : PowerKept d (flashScrub eb r d) := by
  simp [flashScrub]

/-! ### Machine/Bulk.lean -/

@[simp] theorem modChan_powerKept (d : Dev) (ch : Nat) (f : Chan → Chan) : PowerKept d (modChan d ch f) := ⟨rfl, rfl⟩
@[simp] theorem dmaErr_powerKept (d : Dev) (i : Nat) : PowerKept d (dmaErr d i) := ⟨rfl, rfl⟩
@[simp] theorem halfEvent_powerKept (d : Dev) (p : Nat) (x : Desc) (sourceBytes : Nat) :
    PowerKept d (halfEvent d p x sourceBytes).1 := by
  unfold halfEvent; split <;> simp
@[simp] theorem countEnd_powerKept (d : Dev) (ch : Nat) (x : Desc) : PowerKept d (countEnd d ch x) := by simp [countEnd]

/-! ### Machine/Engines.lean -/

@[simp] theorem modEng_powerKept (d : Dev) (e : Nat) (f : Engine → Engine) : PowerKept d (modEng d e f) := ⟨rfl, rfl⟩
theorem chooseChan_powerKept {d d' : Dev} {e c : Nat} (h : chooseChan d e = some (c, d')) : PowerKept d d' := by
  revert h; fun_cases chooseChan <;> grind [modEng_powerKept]
@[simp] theorem passOver_powerKept (d : Dev) (e : Nat) : PowerKept d (passOver d e) := by simp [passOver]
@[simp] theorem loadEngine_powerKept (d : Dev) (e : Nat) : PowerKept d (loadEngine d e) := by
  have h3 : ∀ d3 : Dev, PowerKept d d3 → ∀ c d4, chooseChan d3 e = some (c, d4) → PowerKept d d4 :=
    fun _ h _ _ hc => h.trans (chooseChan_powerKept hc)
  fun_cases loadEngine <;> grind [passOver_powerKept, modEng_powerKept]
@[simp] theorem loadEngines_powerKept (d : Dev) : PowerKept d (loadEngines d) := by simp [loadEngines]
@[simp] theorem endActive_powerKept (d : Dev) (ch : Nat) : PowerKept d (endActive d ch) := by simp [endActive]

/-! ### Machine/Rmem.lean -/

@[simp] theorem rmErr_powerKept (d : Dev) (i : Nat) : PowerKept d (rmErr d i) := ⟨rfl, rfl⟩
@[simp] theorem modReq_powerKept (d : Dev) (k : RmReq → Bool) (f : RmReq → RmReq) : PowerKept d (modReq d k f) := ⟨rfl, rfl⟩
@[simp] theorem rmPush_powerKept (d : Dev) (p st : Nat) (x : BitVec 512) : PowerKept d (rmPush d p st x) := ⟨rfl, rfl⟩
@[simp] theorem dmaPumpFuel_powerKept (k ch : Nat) (d : Dev) : PowerKept d (dmaPumpFuel k ch d) := by
  fun_induction dmaPumpFuel <;> grind [modChan_powerKept, rmPush_powerKept]
@[simp] theorem dmaPump_powerKept (d : Dev) (ch : Nat) : PowerKept d (dmaPump d ch) := by simp [dmaPump]
@[simp] theorem rmStore_powerKept (d : Dev) (p a : Nat) (bs : List Byte) : PowerKept d (rmStore d p a bs) := by simp [rmStore]
@[simp] theorem fabricEnd_powerKept (d : Dev) (x : Desc) : PowerKept d (fabricEnd d x).1 := by
  unfold fabricEnd; split <;> simp
@[simp] theorem dmaPartDone_powerKept (d : Dev) (ch status : Nat) (r : RmReq) : PowerKept d (dmaPartDone d ch status r) := by
  unfold dmaPartDone; split <;> simp
@[simp] theorem dmaMedia_powerKept (d : Dev) (st : Nat) : PowerKept d (dmaMedia d st) := by simp [dmaMedia]
@[simp] theorem holdTag_powerKept (d : Dev) (tag : Option Nat) (peer : DevId) : PowerKept d (holdTag d tag peer) := by
  unfold holdTag; split <;> simp
@[simp] theorem detRejected_powerKept (d : Dev) (p : Nat) : PowerKept d (detRejected d p) := ⟨rfl, rfl⟩
@[simp] theorem rmComplete_powerKept (d : Dev) (r : RmReq) (status mask : Nat) : PowerKept d (rmComplete d r status mask) := by
  simp [rmComplete]
@[simp] theorem takePages_powerKept (d : Dev) (p off n : Nat) (src : DevId) (stream : Option Nat) :
    PowerKept d (takePages d p off n src stream) := ⟨rfl, rfl⟩
@[simp] theorem noteComb_powerKept (d : Dev) (p off etype : Nat) (line : List Byte) :
    PowerKept d (noteComb d p off etype line) := by
  unfold noteComb; split <;> simp
@[simp] theorem rmEffect_powerKept (d : Dev) (src : DevId) (p tag : Nat) (c : BitVec 512) (data : List Byte) :
    PowerKept d (rmEffect d src p tag c data).1 := by
  unfold rmEffect
  extract_lets op off n flagRange restricted spans stream d1 d2 old
  have h2 : PowerKept d d2 := ite_powerKept (foldl_powerKept (fun _ _ => takePages_powerKept ..) _ _) (.refl d)
  refine ite_keeps (P := fun y : Dev × RmAns => PowerKept d y.1) (.refl d)
    (ite_keeps (P := fun y : Dev × RmAns => PowerKept d y.1) (by simp) ?_)
  clear_value op d2
  split
  · split <;> simp [h2]
  · split <;> simp [h2]
  · split
    · simp [h2]
    · split
      · exact h2
      · simp [h2]
  all_goals simp [h2]
@[simp] theorem markSeq_powerKept (d : Dev) (src : DevId) (p op seq : Nat) : PowerKept d (markSeq d src p op seq) := by
  simp [markSeq]
@[simp] theorem sourceRestart_powerKept (d : Dev) (src : DevId) (p op seq : Nat) (retry : Bool) :
    PowerKept d (sourceRestart d src p op seq retry) := by simp [sourceRestart]
@[simp] theorem enterDup_powerKept (d : Dev) (src : DevId) (p tag seq op : Nat) (a : RmAns) :
    PowerKept d (enterDup d src p tag seq op a) := by simp [enterDup]
@[simp] theorem answer_powerKept (d : Dev) (dest : DevId) (p tag : Nat) (a : RmAns) : PowerKept d (answer d dest p tag a) := by
  simp [answer]
@[simp] theorem rmServe_powerKept (d : Dev) (src : DevId) (p tag : Nat) (c : BitVec 512) (data : List Byte) (retry : Bool) :
    PowerKept d (rmServe d src p tag c data retry).1 := by
  unfold rmServe; dsimp only; repeat' split
  all_goals simp
@[simp] theorem serveAndAnswer_powerKept (d : Dev) (src : DevId) (p tag : Nat) (c : BitVec 512) (data : List Byte)
    (retry : Bool) :
    PowerKept d (serveAndAnswer d src p tag c data retry) := by
  fun_cases serveAndAnswer <;> grind [rmServe_powerKept, answer_powerKept, foldl_powerKept]
theorem lateCell_powerKept {d d' : Dev} {c : Cell} {cmd : BitVec 512} {op seq : Nat} (h : lateCell d c cmd op seq = some d') :
    PowerKept d d' := by
  revert h; fun_cases lateCell <;> simp +contextual [*, eq_comm]
theorem rmLate_powerKept {d d' : Dev} {c : Cell} (h : rmLate d c = some d') : PowerKept d d' := by
  unfold rmLate at h; split at h
  · nomatch h
  · exact lateCell_powerKept h
@[simp] theorem rmGather_powerKept (d : Dev) (c : Cell) : PowerKept d (rmGather d c).1 := by
  fun_cases rmGather <;> simp [*]
@[simp] theorem modMerge_powerKept (d : Dev) (c : Cell) (f : MergePair → MergePair) :
    PowerKept d (modMerge d c f) := ⟨rfl, rfl⟩
@[simp] theorem tryMerge_powerKept (d : Dev) (m : MergePair) : PowerKept d (tryMerge d m) := by
  unfold tryMerge; dsimp only; repeat' split
  all_goals simp
@[simp] theorem settleMerges_powerKept (d : Dev) : PowerKept d (settleMerges d) := by simp [settleMerges]
@[simp] theorem rmArrive_powerKept (d : Dev) (c : Cell) : PowerKept d (rmArrive d c) := by
  fun_cases rmArrive <;> grind [settleMerges_powerKept, rmLate_powerKept, rmGather_powerKept, serveAndAnswer_powerKept,
    foldl_powerKept]
@[simp] theorem rmCell_powerKept (n : Nat) (c : Cell) (ty : Nat) (d : Dev) : PowerKept d (rmCell n c ty d) := by simp [rmCell]
@[simp] theorem relayCopies_powerKept (d : Dev) (c : Cell) (cmd : BitVec 512) : PowerKept d (relayCopies d c cmd) := by
  simp [relayCopies]
@[simp] theorem mcastCell_powerKept (c : Cell) (d : Dev) : PowerKept d (mcastCell c d) := by
  fun_cases mcastCell <;> grind [rmLate_powerKept, rmGather_powerKept, serveAndAnswer_powerKept, relayCopies_powerKept,
    foldl_powerKept]
@[simp] theorem heldWrite_powerKept (src : DevId) (tag p : Nat) (d : Dev) : PowerKept d (heldWrite src tag p d) := by
  unfold heldWrite; dsimp only; split <;> simp
@[simp] theorem modWin_powerKept (d : Dev) (k : GwWin → Bool) (f : GwWin → GwWin) : PowerKept d (modWin d k f) := ⟨rfl, rfl⟩
@[simp] theorem flushWin_powerKept (d : Dev) (w : GwWin) : PowerKept d (flushWin d w) := by
  unfold flushWin; repeat' split
  all_goals simp
@[simp] theorem flushStream_powerKept (d : Dev) (p st : Nat) : PowerKept d (flushStream d p st) := by simp [flushStream]
@[simp] theorem gwStore_powerKept (d : Dev) (p st order : Nat) (x : BitVec 512) (data : List Byte) :
    PowerKept d (gwStore d p st order x data) := by simp [gwStore]
@[simp] theorem gwFetch_powerKept (d : Dev) (p st order : Nat) (x : BitVec 512) (tag : Nat) :
    PowerKept d (gwFetch d p st order x tag) := by simp [gwFetch]
@[simp] theorem settleFuel_powerKept (k p st : Nat) (d : Dev) : PowerKept d (settleFuel k p st d) := by
  fun_induction settleFuel <;> grind [rmComplete_powerKept, foldl_powerKept]
@[simp] theorem settle_powerKept (d : Dev) (p st : Nat) : PowerKept d (settle d p st) := by
  unfold settle; dsimp only; split <;> simp
@[simp] theorem takeSeq_powerKept (d : Dev) (dest : DevId) (p op : Nat) : PowerKept d (takeSeq d dest p op).2 := by
  unfold takeSeq; split <;> simp
@[simp] theorem chargeLocal_powerKept (d : Dev) (r : RmReq) (n : Nat) :
    PowerKept d (chargeLocal d r n) := by simp [chargeLocal]
@[simp] theorem rmSend_powerKept (d : Dev) (r : RmReq) (tag : Nat) : PowerKept d (rmSend d r tag) := by
  fun_cases rmSend <;> grind [settle_powerKept, chargeLocal_powerKept, rmServe_powerKept, modReq_powerKept, sendAll_powerKept,
    rmComplete_powerKept,
    takeSeq_powerKept, foldl_powerKept]
@[simp] theorem mcastEnd_powerKept (d : Dev) (r : RmReq) : PowerKept d (mcastEnd d r) := by simp [mcastEnd]
@[simp] theorem mcastSend_powerKept (d : Dev) (r : RmReq) (tag : Nat) : PowerKept d (mcastSend d r tag) := by
  fun_cases mcastSend <;> grind [chargeLocal_powerKept, rmServe_powerKept, modReq_powerKept, mcastEnd_powerKept,
    sendAll_powerKept, foldl_powerKept]
@[simp] theorem flushOne_powerKept (d : Dev) (p : Nat) : PowerKept d (flushOne d p) := by
  unfold flushOne; split <;> simp
@[simp] theorem gwIssue_powerKept (d : Dev) (r : RmReq) : PowerKept d (gwIssue d r) := by
  unfold gwIssue; repeat' split
  all_goals simp
@[simp] theorem rqRefused_powerKept (d q : Dev) (p st : Nat) (x : BitVec 512) (status : Nat) :
    PowerKept d (rqRefused d q p st x status) := by
  unfold rqRefused; split
  · simp
  · split
    · split <;> simp
    · exact ⟨rfl, rfl⟩
theorem rmPoisoned_powerKept {d d' : Dev} {p st : Nat} {r : RmReq} (h : rmPoisoned d p st r = some d') : PowerKept d d' := by
  revert h; fun_cases rmPoisoned <;> simp +contextual [*, eq_comm]
@[simp] theorem rmIssue_powerKept (p st op : Nat) (tgt : Bool) (d : Dev) : PowerKept d (rmIssue p st op tgt d) := by
  fun_cases rmIssue <;> grind [gwIssue_powerKept, settle_powerKept, mcastSend_powerKept, rmPoisoned_powerKept,
    flushStream_powerKept, modReq_powerKept,
    rmComplete_powerKept, rmSend_powerKept, rqRefused_powerKept]
@[simp] theorem flagGlobal_powerKept (p st : Nat) (d : Dev) : PowerKept d (flagGlobal p st d) := by
  unfold flagGlobal; split
  · exact ⟨rfl, rfl⟩
  · dsimp only; split
    · exact ⟨rfl, rfl⟩
    split
    · split
      · simp
      split
      · exact rmPoisoned_powerKept ‹_›
      · simp
      · exact ⟨rfl, rfl⟩
    · simp
@[simp] theorem respCell_powerKept (d : Dev) (r : RmReq) (c : Cell) : PowerKept d (respCell d r c) := by simp [respCell]
@[simp] theorem respMcast_powerKept (d : Dev) (r : RmReq) (c : Cell) : PowerKept d (respMcast d r c) := by simp [respMcast]
@[simp] theorem respWin_powerKept (d : Dev) (w : GwWin) (status : Nat) : PowerKept d (respWin d w status) := by simp [respWin]
@[simp] theorem rmResp_powerKept (c : Cell) (d : Dev) : PowerKept d (rmResp c d) := by
  fun_cases rmResp <;> simp [*]
@[simp] theorem resend_powerKept (d : Dev) (p : Nat) (cs : List Cell) : PowerKept d (resend d p cs) := by simp [resend]
@[simp] theorem mcastResend_powerKept (d : Dev) (r : RmReq) : PowerKept d (mcastResend d r) := by simp [mcastResend]
@[simp] theorem rmTimeout_powerKept (tag : Nat) (d : Dev) : PowerKept d (rmTimeout tag d) := by
  unfold rmTimeout; repeat' split
  all_goals simp
@[simp] theorem rmResendTo_powerKept (d : Dev) (peer : DevId) : PowerKept d (rmResendTo d peer) := by simp [rmResendTo]
@[simp] theorem rmFenceDevice_powerKept (d : Dev) (dev : DevId) : PowerKept d (rmFenceDevice d dev) := by simp [rmFenceDevice]
@[simp] theorem gwWhole_powerKept (d : Dev) (c : Cell) (x : GwRx) (cmd : BitVec 512) : PowerKept d (gwWhole d c x cmd) := by
  unfold gwWhole; split <;> simp
@[simp] theorem gwWriteCell_powerKept (c : Cell) (d : Dev) : PowerKept d (gwWriteCell c d) := by
  fun_cases gwWriteCell <;> grind [lateCell_powerKept, gwWhole_powerKept, foldl_powerKept]
@[simp] theorem gwReadCell_powerKept (c : Cell) (d : Dev) : PowerKept d (gwReadCell c d) := by simp [gwReadCell]
@[simp] theorem gwDataCell_powerKept (c : Cell) (d : Dev) : PowerKept d (gwDataCell c d) := by
  unfold gwDataCell; dsimp only; split <;> simp

/-! ### Machine/Dma.lean -/

@[simp] theorem chanFault_powerKept (d : Dev) (ch : Nat) : PowerKept d (chanFault d ch) := by simp [chanFault]
@[simp] theorem dmaFetch_powerKept (ch : Nat) (d : Dev) : PowerKept d (dmaFetch ch d) := by simp [dmaFetch]
@[simp] theorem firmwareCheck_powerKept (d q : Dev) (ch : Nat) (x : Desc) : PowerKept d (firmwareCheck d q ch x).2 := by
  unfold firmwareCheck; split <;> simp
@[simp] theorem runBulk_powerKept {f : Dev → Nat → Nat → Desc → Dev × Desc} (h : ∀ d p ch x, PowerKept d (f d p ch x).1)
    (op ch : Nat) (d : Dev) : PowerKept d (runBulk op f ch d) := by
  fun_cases runBulk <;> grind [modChan_powerKept, loadEngine_powerKept, firmwareCheck_powerKept, countDenied_powerKept,
    foldl_powerKept]
@[simp] theorem mediaEnd_powerKept (d : Dev) (p ch : Nat) (x : Desc) (moved addr len : Nat) :
    PowerKept d (mediaEnd d p ch x moved addr len).1 := by simp [mediaEnd]
@[simp] theorem lossEnd_powerKept (d : Dev) (p ch : Nat) (x : Desc) (moved a : Nat) :
    PowerKept d (lossEnd d p ch x moved a).1 := by
  simp [lossEnd]
@[simp] theorem putCheck_powerKept (d : Dev) (p kind a : Nat) (bs : List Byte) : PowerKept d (putCheck d p kind a bs) := by
  simp [putCheck]
@[simp] theorem chargeUnit_powerKept (d : Dev) (p a n : Nat) (fixed : Bool) : PowerKept d (chargeUnit d p a n fixed) := by
  simp [chargeUnit]
@[simp] theorem copyDesc_powerKept (d : Dev) (p ch : Nat) (x : Desc) : PowerKept d (copyDesc d p ch x).1 := by
  unfold copyDesc; dsimp only; split <;> simp
@[simp] theorem flashReadDesc_powerKept (d : Dev) (p ch : Nat) (x : Desc) : PowerKept d (flashReadDesc d p ch x).1 := by
  unfold flashReadDesc; dsimp only; repeat' split
  all_goals simp
@[simp] theorem flashWriteDesc_powerKept (d : Dev) (p ch : Nat) (x : Desc) : PowerKept d (flashWriteDesc d p ch x).1 := by
  unfold flashWriteDesc; dsimp only; split <;> simp
@[simp] theorem flashTrimDesc_powerKept (d : Dev) (p _ch : Nat) (x : Desc) : PowerKept d (flashTrimDesc d p _ch x).1 := by
  fun_cases flashTrimDesc
  grind [trimBlock_powerKept, weirCharge_pwr, weirCharge_grade, foldl_powerKept]
@[simp] theorem fabricDesc_powerKept (d : Dev) (_p ch : Nat) (x : Desc) : PowerKept d (fabricDesc d _p ch x).1 := ⟨rfl, rfl⟩
@[simp] theorem fabricRun_powerKept (op ch : Nat) (d : Dev) : PowerKept d (fabricRun op ch d) := by
  simp [fabricRun]
@[simp] theorem allocDesc_powerKept (d : Dev) (p _ch : Nat) (x : Desc) : PowerKept d (allocDesc d p _ch x).1 := by
  unfold allocDesc; dsimp only; split <;> simp
@[simp] theorem freeDesc_powerKept (d : Dev) (p ch : Nat) (x : Desc) : PowerKept d (freeDesc d p ch x).1 := by
  unfold freeDesc; dsimp only; repeat' split
  all_goals simp
@[simp] theorem writeBack_powerKept (d : Dev) (x : Desc) : PowerKept d (writeBack d x) := by simp [writeBack]
@[simp] theorem copyEnded_powerKept (d : Dev) (x : Desc) : PowerKept d (copyEnded d x) := ⟨rfl, rfl⟩
@[simp] theorem descriptorComplete_powerKept (ch : Nat) (d : Dev) : PowerKept d (descriptorComplete ch d) := by
  unfold descriptorComplete; split <;> simp
@[simp] theorem leaveEngines_powerKept (mine : List Nat) (d : Dev) : PowerKept d (leaveEngines mine d) := by
  fun_cases leaveEngines
  simp +zetaDelta
@[simp] theorem dropChannels_powerKept (d : Dev) (p : Nat) : PowerKept d (dropChannels d p) := by simp [dropChannels]

/-! ### Machine/Sched.lean -/

@[simp] theorem modCoreTask_powerKept (d : Dev) (pc : Nat) (f : Task → Task) : PowerKept d (modCoreTask d pc f) := ⟨rfl, rfl⟩
@[simp] theorem schErr_powerKept (d : Dev) (i : Nat) : PowerKept d (schErr d i) := ⟨rfl, rfl⟩
@[simp] theorem modWindow_powerKept (d : Dev) (k : Nat) (f : Window → Window) : PowerKept d (modWindow d k f) := ⟨rfl, rfl⟩
@[simp] theorem subDone_powerKept (d : Dev) (p : Nat) (req : ReqId) (noevt : Bool) (id : U32) (status gen : Nat) :
    PowerKept d (subDone d p req noevt id status gen) := by simp [subDone]
@[simp] theorem admitFuel_powerKept (k p : Nat) (d : Dev) : PowerKept d (admitFuel k p d) := by
  fun_induction admitFuel <;> grind [Dev.modPart_pwr, Dev.modPart_grade, respond_pwr, respond_grade]
@[simp] theorem admitHeld_powerKept (d : Dev) (p : Nat) : PowerKept d (admitHeld d p) := by simp [admitHeld]
@[simp] theorem endSubOps_powerKept (d : Dev) (p : Nat) (s : Sub) : PowerKept d (endSubOps d p s) := by simp [endSubOps]
@[simp] theorem subComplete_powerKept (d : Dev) (p : Nat) (s : Sub) : PowerKept d (subComplete d p s) := by
  unfold subComplete; split <;> simp
@[simp] theorem abortsDue_powerKept (d : Dev) (p : Nat) : PowerKept d (abortsDue d p) := by simp [abortsDue]
@[simp] theorem endSubs_powerKept (d : Dev) (p : Nat) : PowerKept d (endSubs d p) := by simp [endSubs]
@[simp] theorem taskRetired_powerKept (d : Dev) (p : Nat) (id : U32) (entry status : Nat) :
    PowerKept d (taskRetired d p id entry status) := by
  unfold taskRetired; dsimp only; split <;> simp
@[simp] theorem beginHandover_powerKept (d : Dev) (pc : Nat) (inPart : Option Nat) :
    PowerKept d (beginHandover d pc inPart) := by
  simp [beginHandover]
@[simp] theorem beginTask_powerKept (d : Dev) (pc : Nat) : PowerKept d (beginTask d pc) := by
  unfold beginTask; dsimp only; split <;> simp
@[simp] theorem recoveryDone_powerKept (d : Dev) (pc : Nat) : PowerKept d (recoveryDone d pc) := by
  unfold recoveryDone; dsimp only; repeat' split
  all_goals simp
@[simp] theorem retireTask_powerKept (d : Dev) (pc status : Nat) : PowerKept d (retireTask d pc status) := by
  unfold retireTask; dsimp only; split <;> simp
@[simp] theorem settleCore_powerKept (d : Dev) (pc : Nat) : PowerKept d (settleCore d pc) := by
  unfold settleCore; dsimp only; repeat' split
  all_goals simp
@[simp] theorem stopTask_powerKept (d : Dev) (pc status : Nat) (idx : Option Nat) :
    PowerKept d (stopTask d pc status idx) := by
  unfold stopTask; dsimp only; split <;> simp
@[simp] theorem abortTask_powerKept (d : Dev) (pc : Nat) : PowerKept d (abortTask d pc) := by
  unfold abortTask; dsimp only; split <;> simp
@[simp] theorem abortWaiting_powerKept (d : Dev) (pc : Nat) : PowerKept d (abortWaiting d pc) := by
  unfold abortWaiting; split <;> simp
@[simp] theorem replayEnded_powerKept (d : Dev) (pc : Nat) : PowerKept d (replayEnded d pc) := by
  unfold replayEnded; split <;> simp
@[simp] theorem abortSubmission_powerKept (d : Dev) (p : Nat) (id : U32) : PowerKept d (abortSubmission d p id) := by
  unfold abortSubmission; dsimp only; repeat' split
  all_goals simp
@[simp] theorem saveOut_powerKept (d : Dev) (pc lcore q : Nat) (victim : Bool) :
    PowerKept d (saveOut d pc lcore q victim) := by
  unfold saveOut; dsimp only; split <;> simp
@[simp] theorem restoreIn_powerKept (d : Dev) (pc lcore : Nat) (inPart : Option Nat) :
    PowerKept d (restoreIn d pc lcore inPart) := by
  unfold restoreIn; split <;> simp
@[simp] theorem loadFresh_powerKept (d : Dev) (pc p : Nat) (q : QEntry) :
    PowerKept d (loadFresh d pc p q) := by simp [loadFresh]
@[simp] theorem placed_powerKept (d : Dev) (p : Nat) : PowerKept d (placed d p) := ⟨rfl, rfl⟩
@[simp] theorem handoverDone_powerKept (n : Nat) (d : Dev) : PowerKept d (handoverDone n d) := by
  unfold handoverDone; dsimp only; repeat' split
  all_goals simp
@[simp] theorem taskPlace_powerKept (n : Nat) (d : Dev) : PowerKept d (taskPlace n d) := by
  unfold taskPlace; dsimp only; repeat' split
  all_goals simp
@[simp] theorem preempt_powerKept (p i : Nat) (d : Dev) : PowerKept d (preempt p i d) := by
  fun_cases preempt <;> simp [*]
@[simp] theorem watchdogExpiry_powerKept (n : Nat) (d : Dev) : PowerKept d (watchdogExpiry n d) := by
  fun_cases watchdogExpiry <;> simp [*]
@[simp] theorem modChansOf_powerKept (d : Dev) (p : Nat) (f : Chan → Chan) : PowerKept d (modChansOf d p f) := ⟨rfl, rfl⟩
@[simp] theorem pauseBoundary_powerKept (p : Nat) (d : Dev) : PowerKept d (pauseBoundary p d) := by simp [pauseBoundary]
@[simp] theorem partitionPaused_powerKept (p : Nat) (d : Dev) : PowerKept d (partitionPaused p d) := by
  unfold partitionPaused; dsimp only; repeat' split
  all_goals simp
@[simp] theorem resultPublish_powerKept (mb win : Nat) (d : Dev) : PowerKept d (resultPublish mb win d) := by
  unfold resultPublish; dsimp only; repeat' split
  all_goals simp
@[simp] theorem endGen_powerKept (d : Dev) (k g : Nat) : PowerKept d (endGen d k g) := ⟨rfl, rfl⟩

/-! ### Machine/Parts.lean -/

@[simp] theorem grantPages_powerKept (d : Dev) (n : Nat) : PowerKept d (grantPages d n).2 := ⟨rfl, rfl⟩
@[simp] theorem setWeir_powerKept (d : Dev) (p rate burst : Nat) : PowerKept d (setWeir d p rate burst) := by simp [setWeir]
@[simp] theorem restartSeqs_powerKept (d : Dev) (p : Nat) : PowerKept d (restartSeqs d p) := ⟨rfl, rfl⟩
theorem partCreate_powerKept {d d' : Dev} {p : Nat} {b bs : List Byte} (h : partCreate d p b = .inr (bs, d')) :
    PowerKept d d' := by
  revert h; fun_cases partCreate with
  | case6 _ _ _ _ _ _ _ _ _ _ _ _ _ _ d1 hg =>
    have h1 : PowerKept d d1 := powerKept_of_snd_eq hg (grantPages_powerKept ..)
    rintro he
    obtain ⟨-, rfl⟩ := Prod.mk.inj (Sum.inr.inj he)
    simp +zetaDelta [h1]
  | _ => nofun
@[simp] theorem setShare_powerKept (d : Dev) (g p : Nat) (v : U64) : PowerKept d (setShare d g p v) := ⟨rfl, rfl⟩
@[simp] theorem createPool_powerKept (d : Dev) (g : Nat) (cfg base : U64) : PowerKept d (createPool d g cfg base) := by
  simp [createPool]
theorem poolEntry_powerKept {d d' : Dev} {p : Nat} {b : List Byte} (h : poolEntry d p b = .inr d') : PowerKept d d' := by
  revert h; fun_cases poolEntry <;> grind [setShare_powerKept, createPool_powerKept, notePool_powerKept, setPool_powerKept]
theorem poolEntries_powerKept {p i : Nat} {bs : List (List Byte)} {d d' : Dev} (h : poolEntries p i bs d = .inr d') :
    PowerKept d d' := by
  revert h; fun_induction poolEntries <;> grind [poolEntry_powerKept]
@[simp] theorem cutView_powerKept (d : Dev) (p top n : Nat) : PowerKept d (cutView d p top n) := by simp [cutView]
@[simp] theorem dropView_powerKept (d : Dev) (p n : Nat) : PowerKept d (dropView d p n) := by
  unfold dropView; split <;> simp
@[simp] theorem applyQuota_powerKept (d : Dev) (p : Nat) (q : QuotaReq) : PowerKept d (applyQuota d p q) := by
  have hviews : PowerKept d ((bitsSet 32 (removedCores (d.part p) q).toNat).foldl (fun d n => dropView d p n) d) := by simp
  unfold applyQuota; dsimp only
  simp [hviews]
theorem setQuota_waits_powerKept {d d' : Dev} {p : Nat} {b : List Byte} {started : Bool}
    (h : setQuota d p b started = .waits d') :
    PowerKept d d' := by
  revert h; fun_cases setQuota <;> grind [Dev.modPart_pwr, Dev.modPart_grade]
theorem setQuota_done_powerKept {d d' : Dev} {p : Nat} {b : List Byte} {started : Bool}
    (h : setQuota d p b started = .done d') :
    PowerKept d d' := by
  revert h; fun_cases setQuota <;> grind [poolEntries_powerKept, applyQuota_powerKept]
@[simp] theorem abortAll_powerKept (d : Dev) (p : Nat) (failed : Option Byte) : PowerKept d (abortAll d p failed) := by
  unfold abortAll; dsimp only
  refine powerKept_foldl (powerKept_foldl (by simp) fun d h => ?_) fun d id => abortSubmission_powerKept ..
  split <;> simp
@[simp] theorem beginDestroy_powerKept (d : Dev) (p : Nat) : PowerKept d (beginDestroy d p) := by simp [beginDestroy]
@[simp] theorem finishDestroy_powerKept (d : Dev) (p : Nat) : PowerKept d (finishDestroy d p) := by simp [finishDestroy]

/-! ### Machine/Job.lean -/

@[simp] theorem relayMgmt_powerKept (d : Dev) (src dest : DevId) (m : Mgmt) : PowerKept d (relayMgmt d src dest m) := by
  simp [relayMgmt]
@[simp] theorem toChildren_powerKept (d : Dev) (src : DevId) (l : List DevId) (j : Nat) (m : Nat → DevId → Mgmt) :
    PowerKept d (toChildren d src l j m) := by simp [toChildren]
@[simp] theorem toMembers_powerKept (d : Dev) (j : Job) (m : Mgmt) : PowerKept d (toMembers d j m) := by simp [toMembers]
@[simp] theorem learnEpoch_powerKept (d : Dev) (c : Cell) : PowerKept d (learnEpoch d c) := by simp [learnEpoch]
theorem onMgmt_powerKept {f : Mgmt → Option (Dev → Dev)} (h : ∀ m g, f m = some g → ∀ d, PowerKept d (g d)) (d : Dev)
    (n : Nat) (c : Cell) (boss : Bool) : PowerKept d (onMgmt d n c boss f) := by
  refine onCell_powerKept (fun e he => ?_) ..
  split
  · split
    · exact ⟨rfl, rfl⟩
    · split <;> simp [h _ _ ‹_›, he]
  · exact ⟨rfl, rfl⟩

/-! ### Machine/Flags.lean -/

@[simp] theorem runFlags_powerKept {α : Type} (d : Dev) (p : Nat) (m : FlM α) : PowerKept d (runFlags d p m).2 := ⟨rfl, rfl⟩
@[simp] theorem addDigest_powerKept (d : Dev) (p accum : Nat) (v : U64) : PowerKept d (addDigest d p accum v) := ⟨rfl, rfl⟩

/-! ### Machine/Tiers.lean -/

@[simp] theorem memErr_powerKept (d : Dev) (i : Nat) : PowerKept d (memErr d i) := ⟨rfl, rfl⟩
@[simp] theorem spareBank_powerKept (d : Dev) (chan bank : Nat) : PowerKept d (spareBank d chan bank) := by simp [spareBank]
@[simp] theorem spareRow_powerKept (d : Dev) (chan row : Nat) : PowerKept d (spareRow d chan row) := by simp [spareRow]
@[simp] theorem correctedLine_powerKept (d : Dev) (a : Nat) : PowerKept d (correctedLine d a) := by simp [correctedLine]
@[simp] theorem poisonLine_powerKept (d : Dev) (a : Nat) : PowerKept d (poisonLine d a) := by
  unfold poisonLine; dsimp only; repeat' split
  all_goals simp
@[simp] theorem scrubPeriod_powerKept (d : Dev) : PowerKept d (scrubPeriod d) := by simp [scrubPeriod]
@[simp] theorem coreSramError_powerKept (d : Dev) (pc o : Nat) (r : MediaResult) : PowerKept d (coreSramError d pc o r) := by
  unfold coreSramError; dsimp only; repeat' split
  all_goals simp
@[simp] theorem cisternError_powerKept (d : Dev) (o : Nat) (r : MediaResult) : PowerKept d (cisternError d o r) := by
  fun_cases cisternError <;> simp [*]
@[simp] theorem dramScrub_powerKept (a : Nat) (r : MediaResult) (d : Dev) : PowerKept d (dramScrub a r d) := by
  unfold dramScrub; dsimp only; repeat' split
  all_goals simp
@[simp] theorem rowSpareDone_powerKept (row : Nat) (d : Dev) : PowerKept d (rowSpareDone row d) := by
  unfold rowSpareDone; split <;> simp
@[simp] theorem bankSpareDone_powerKept (chan : Nat) (d : Dev) : PowerKept d (bankSpareDone chan d) := by
  unfold bankSpareDone; split <;> simp

/-! ### Machine/Kv.lean -/

@[simp] theorem kvCfgWrite_powerKept (p : Nat) (v : BitVec 320) (d : Dev) : PowerKept d (kvCfgWrite p v d) := by
  simp [kvCfgWrite]
@[simp] theorem setKvSeq_powerKept (d : Dev) (p s state npages : Nat) : PowerKept d (setKvSeq d p s state npages) := by
  simp [setKvSeq]
@[simp] theorem setKvPages_powerKept (d : Dev) (p s first : Nat) (pages : List Nat) :
    PowerKept d (setKvPages d p s first pages) := by simp [setKvPages]
@[simp] theorem takeKv_powerKept (d : Dev) (p n : Nat) : PowerKept d (takeKv d p n).2 := ⟨rfl, rfl⟩
@[simp] theorem giveKv_powerKept (d : Dev) (p : Nat) (pages : List Nat) : PowerKept d (giveKv d p pages) := ⟨rfl, rfl⟩
@[simp] theorem holdSlots_powerKept (d : Dev) (p s : Nat) (slots : List Nat) :
    PowerKept d (holdSlots d p s slots) := ⟨rfl, rfl⟩
@[simp] theorem dropSlots_powerKept (d : Dev) (p s : Nat) : PowerKept d (dropSlots d p s) := ⟨rfl, rfl⟩
@[simp] theorem setKvStatus_powerKept (d : Dev) (p : Nat) (c : KvChange) (status : Nat) :
    PowerKept d (setKvStatus d p c status) := by simp [setKvStatus]
@[simp] theorem kvTouched_powerKept (d : Dev) (p : Nat) : PowerKept d (kvTouched d p) := by simp [kvTouched]
@[simp] theorem kvFinish_powerKept (d : Dev) (p : Nat) : PowerKept d (kvFinish d p) := by simp [kvFinish]
@[simp] theorem kvLeave_powerKept (d : Dev) (p : Nat) (c : KvChange) : PowerKept d (kvLeave d p c) := by simp [kvLeave]
@[simp] theorem addCopy_powerKept (d : Dev) (p : Nat) (k : KvCopy) : PowerKept d (addCopy d p k) := ⟨rfl, rfl⟩
@[simp] theorem kvGrow_powerKept (d : Dev) (p : Nat) (c : KvChange) : PowerKept d (kvGrow d p c) := by
  unfold kvGrow; dsimp only; repeat' split
  all_goals simp
@[simp] theorem kvJoin_powerKept (p : Nat) (acc : Dev × Bool) (c : KvChange) : PowerKept acc.1 (kvJoin p acc c).1 := by
  unfold kvJoin; split; split <;> simp
@[simp] theorem kvProcess_powerKept (d : Dev) (p : Nat) (cs : List KvChange) : PowerKept d (kvProcess d p cs) := by
  unfold kvProcess
  dsimp only
  have h := foldl_fst_powerKept (kvJoin_powerKept p)
  simp [h]
@[simp] theorem kvStep_powerKept (d : Dev) (p : Nat) : PowerKept d (kvStep d p) := by simp [kvStep]
@[simp] theorem kvBoundary_powerKept (p : Nat) (d : Dev) : PowerKept d (kvBoundary p d) := by
  unfold kvBoundary; dsimp only; repeat' split
  all_goals simp
@[simp] theorem kvOut_powerKept (p : Nat) (d : Dev) (x : Nat × Nat) : PowerKept d (kvOut p d x) := by
  unfold kvOut; dsimp only; split <;> simp
@[simp] theorem kvIn_powerKept (p : Nat) (d : Dev) (x : Nat × Nat) : PowerKept d (kvIn p d x) := by simp [kvIn]
@[simp] theorem kvCopyDone_powerKept (p s : Nat) (d : Dev) : PowerKept d (kvCopyDone p s d) := by
  unfold kvCopyDone; dsimp only; repeat' split
  all_goals simp

/-! ### Machine/Ctl.lean -/

@[simp] theorem ctlRead_powerKept (d : Dev) (p off : Nat) : PowerKept d (ctlRead d p off).2 := by
  fun_cases ctlRead <;> simp [*]
@[simp] theorem ctlWrite_powerKept (d : Dev) (p off v : Nat) : PowerKept d (ctlWrite d p off v) := by
  fun_cases ctlWrite <;> simp [*]
@[simp] theorem ctlReads_powerKept (p n off : Nat) (d : Dev) : PowerKept d (ctlReads p n off d).2 := by
  fun_induction ctlReads <;> grind [ctlRead_powerKept]
@[simp] theorem ctlWrites_powerKept (d : Dev) (p off : Nat) (bs : List Byte) : PowerKept d (ctlWrites d p off bs) := by
  simp [ctlWrites]

/-! ### Machine/Tile.lean -/

@[simp] theorem sramStop_powerKept (d : Dev) (pc n p o : Nat) : PowerKept d (sramStop d pc n p o) := by simp [sramStop]
theorem sramCheck_powerKept {d d' : Dev} {pc n : Nat} {t : Task} {w : Cmd} (h : sramCheck d pc n t w = some d') :
    PowerKept d d' := by
  unfold sramCheck at h; split at h
  · cases h
    simp
  · obtain ⟨_, _, rfl⟩ := Option.map_eq_some_iff.mp h
    simp
@[simp] theorem replayCheck_powerKept (n : Nat) (d : Dev) : PowerKept d (replayCheck n d) := by
  unfold replayCheck; split <;> simp
@[simp] theorem finishCmd_powerKept (d : Dev) (pc : Nat) (x : InFlight) : PowerKept d (finishCmd d pc x) := by
  unfold finishCmd; repeat' split
  all_goals simp
@[simp] theorem halfSignal_powerKept (d : Dev) (pc : Nat) (x : InFlight) : PowerKept d (halfSignal d pc x) := by
  simp [halfSignal]
@[simp] theorem retireUnit_powerKept (u : CoreUnit) (k pc : Nat) (d : Dev) : PowerKept d (retireUnit u k pc d) := by
  fun_induction retireUnit <;> grind [finishCmd_powerKept, halfSignal_powerKept, modCoreTask_powerKept]
@[simp] theorem retireNulls_powerKept (d : Dev) (pc : Nat) : PowerKept d (retireNulls d pc) := by simp [retireNulls]
@[simp] theorem queueCmd_powerKept (d : Dev) (pc : Nat) (u : CoreUnit) (x : InFlight) : PowerKept d (queueCmd d pc u x) := by
  simp [queueCmd]
@[simp] theorem stored_powerKept (d : Dev) (t : Task) (bs : List Byte) : PowerKept d (stored d t bs).2 := by
  unfold stored; split <;> simp
@[simp] theorem popUnit_powerKept (d : Dev) (pc : Nat) (u : CoreUnit) (x : InFlight) : PowerKept d (popUnit d pc u x) := by
  simp [popUnit]
@[simp] theorem commandComplete_powerKept (n : Nat) (u : CoreUnit) (d : Dev) : PowerKept d (commandComplete n u d) := by
  fun_cases commandComplete <;> simp [*]
@[simp] theorem controlDone_powerKept (d : Dev) (pc : Nat) (w : Cmd) : PowerKept d (controlDone d pc w) := ⟨rfl, rfl⟩
@[simp] theorem ldw_powerKept (n : Nat) (w : Cmd) (d : Dev) : PowerKept d (ldw n w d) := by
  fun_cases ldw <;> grind [Dev.modCore_pwr, Dev.modCore_grade, sramCheck_powerKept, stored_powerKept, queueCmd_powerKept,
    foldl_powerKept]
@[simp] theorem storedRows_powerKept (d : Dev) (t : Task) (b : Bank) (r0 m : Nat) : PowerKept d (storedRows d t b r0 m).2 := by
  unfold storedRows; split
  · exact foldl_snd_powerKept (fun y i => by simp) (b, d) _
  · exact .refl d
@[simp] theorem mm_powerKept (n : Nat) (w : Cmd) (d : Dev) : PowerKept d (mm n w d) := by
  fun_cases mm <;> grind [stopTask_powerKept, Dev.modCore_pwr, Dev.modCore_grade, storedRows_powerKept, sramCheck_powerKept,
    queueCmd_powerKept, runFlags_powerKept,
    foldl_powerKept]
@[simp] theorem accOut_powerKept (n : Nat) (w : Cmd) (d : Dev) : PowerKept d (accOut n w d) := by
  unfold accOut; split <;> simp
@[simp] theorem vop_powerKept (n : Nat) (w : Cmd) (d : Dev) : PowerKept d (vop n w d) := by
  fun_cases vop <;> grind [viewWrite_powerKept, sramCheck_powerKept, stored_powerKept, queueCmd_powerKept, runFlags_powerKept,
    foldl_powerKept]
@[simp] theorem cvt_powerKept (n : Nat) (w : Cmd) (d : Dev) : PowerKept d (cvt n w d) := by
  fun_cases cvt <;> grind [viewWrite_powerKept, sramCheck_powerKept, stored_powerKept, queueCmd_powerKept, runFlags_powerKept,
    foldl_powerKept]
@[simp] theorem mov_powerKept (n : Nat) (w : Cmd) (d : Dev) : PowerKept d (mov n w d) := by
  unfold mov; split <;> simp
@[simp] theorem ctlDeliver_powerKept (p n : Nat) (port fixed : Bool) (off k m : Nat) (bs : List Byte) (d : Dev) :
    PowerKept d (ctlDeliver p n port fixed off k m bs d).2 := by
  fun_induction ctlDeliver <;> grind [rmPush_powerKept, ctlWrites_powerKept]
@[simp] theorem moverStop_powerKept (d : Dev) (pc m idx status : Nat) : PowerKept d (moverStop d pc m idx status) := by
  simp [moverStop]
@[simp] theorem moveSeg_powerKept (d : Dev) (pc p n m : Nat) (x : InFlight) (lo hi : Nat) :
    PowerKept d (moveSeg d pc p n m x lo hi).2 := by
  unfold moveSeg; dsimp only; repeat' split
  all_goals simp
@[simp] theorem moveCtl_powerKept (d : Dev) (pc p n m : Nat) (x : InFlight) (lo hi : Nat) :
    PowerKept d (moveCtl d pc p n m x lo hi).2 := by
  fun_cases moveCtl with
  | case1 w off _ k0 unit lost top bs k d1 hr mark d2 =>
    have h2 : PowerKept d d2 := (powerKept_of_snd_eq hr (ctlDeliver_powerKept ..)).trans (modCoreTask_powerKept ..)
    exact ite_powerKept ((h2.trans (lossHere_powerKept ..)).trans (moverStop_powerKept ..)) h2
  | case2 w off _ k0 unit lost top bs k d1 hr mark d2 =>
    exact (powerKept_of_snd_eq hr (ctlDeliver_powerKept ..)).trans (modCoreTask_powerKept ..)
  | case3 w off _ bs d1 hr =>
    -- As a pair of variables, the eight reads are not evaluated.
    have h8 := ctlReads_powerKept p 8 off d
    generalize ctlReads p 8 off d = r at hr h8
    obtain ⟨u, e⟩ := r
    have h1 : PowerKept d d1 :=
      powerKept_of_snd_eq hr (ite_keeps (P := fun y : List Byte × Dev => PowerKept d y.2) h8 (ctlReads_powerKept ..))
    exact h1.trans (foldl_powerKept (fun _ _ => viewWrite_powerKept ..) _ _)
@[simp] theorem moveBytes_powerKept (d : Dev) (pc p n m : Nat) (x : InFlight) (lo hi : Nat) :
    PowerKept d (moveBytes d pc p n m x lo hi).2 := by
  unfold moveBytes; split <;> simp
@[simp] theorem moverHalfEvent_powerKept (n m : Nat) (d : Dev) : PowerKept d (moverHalfEvent n m d) := by
  fun_cases moverHalfEvent <;> grind [moveBytes_powerKept, halfSignal_powerKept, modCoreTask_powerKept, foldl_powerKept]
@[simp] theorem movCheck_powerKept (d : Dev) (p n : Nat) (w : Cmd) (bs : List Byte) : PowerKept d (movCheck d p n w bs) := by
  simp [movCheck]
@[simp] theorem moverFullEvent_powerKept (n m : Nat) (d : Dev) : PowerKept d (moverFullEvent n m d) := by
  fun_cases moverFullEvent <;> grind [moveBytes_powerKept, moverStop_powerKept, modCoreTask_powerKept, popUnit_powerKept,
    countDenied_powerKept,
    movCheck_powerKept, foldl_powerKept]
@[simp] theorem modCounter_powerKept (d : Dev) (pc p : Nat) (w : Cmd) (f : U32 → U32) :
    PowerKept d (modCounter d pc p w f) := by
  simp [modCounter]
@[simp] theorem passWait_powerKept (d : Dev) (pc n : Nat) (t : Task) (w : Cmd) : PowerKept d (passWait d pc n t w) := by
  simp [passWait]
@[simp] theorem wait_powerKept (n : Nat) (w : Cmd) (d : Dev) : PowerKept d (wait n w d) := by
  unfold wait; split <;> simp
@[simp] theorem waitSatisfied_powerKept (n : Nat) (d : Dev) : PowerKept d (waitSatisfied n d) := by
  fun_cases waitSatisfied <;> simp [*]
@[simp] theorem sig_powerKept (n : Nat) (w : Cmd) (d : Dev) : PowerKept d (sig n w d) := by
  unfold sig; split <;> simp
@[simp] theorem digestSet_powerKept (n : Nat) (w : Cmd) (d : Dev) : PowerKept d (digestSet n w d) := by
  unfold digestSet; split <;> simp
@[simp] theorem digestFlush_powerKept (n : Nat) (w : Cmd) (d : Dev) : PowerKept d (digestFlush n w d) := by
  unfold digestFlush; split <;> simp
@[simp] theorem endTask_powerKept (n : Nat) (w : Cmd) (d : Dev) : PowerKept d (endTask n w d) := by
  unfold endTask; split <;> simp
@[simp] theorem portAccepted_powerKept (d : Dev) (pc : Nat) (x : InFlight) : PowerKept d (portAccepted d pc x) := ⟨rfl, rfl⟩
@[simp] theorem gatePush_powerKept (n : Nat) (w : Cmd) (d : Dev) : PowerKept d (gatePush n w d) := by
  unfold gatePush; split <;> simp
theorem engCheck_powerKept {d d' : Dev} {pc n : Nat} {t : Task} {w : Cmd} {from_ bytes : Nat}
    (h : engCheck d pc n t w from_ bytes = some d') : PowerKept d d' := by
  unfold engCheck at h; split at h
  · cases h
    simp
  · obtain ⟨_, _, rfl⟩ := Option.map_eq_some_iff.mp h
    simp
@[simp] theorem xchg_powerKept (kind n : Nat) (w : Cmd) (d : Dev) : PowerKept d (xchg kind n w d) := by
  fun_cases xchg <;> grind [portAccepted_powerKept, xchgPost_powerKept, modCoreTask_powerKept, engCheck_powerKept,
    foldl_powerKept]
@[simp] theorem coll_powerKept (op n : Nat) (w : Cmd) (d : Dev) : PowerKept d (coll op n w d) := by
  fun_cases coll <;> grind [portAccepted_powerKept, modCoreTask_powerKept, engCheck_powerKept, collPost_powerKept,
    foldl_powerKept]

/-! ### Machine/Barrier.lean -/

@[simp] theorem modBarrier_powerKept (d : Dev) (p : Nat) (f : Barrier → Barrier) : PowerKept d (modBarrier d p f) := ⟨rfl, rfl⟩
@[simp] theorem modJob_powerKept (d : Dev) (p : Nat) (f : Job → Job) : PowerKept d (modJob d p f) := ⟨rfl, rfl⟩
@[simp] theorem jobEnds_powerKept (d : Dev) (p : Nat) : PowerKept d (jobEnds d p) := by simp [jobEnds]
@[simp] theorem jobFails_powerKept (d : Dev) (j : Job) (cls : Nat) (unit : DevId) (since : Nat) :
    PowerKept d (jobFails d j cls unit since) := by simp [jobFails]
@[simp] theorem askBatches_powerKept (d : Dev) (step : U64) : PowerKept d (askBatches d step) := by simp [askBatches]
@[simp] theorem orderReplay_powerKept (d : Dev) (j : Job) (cls : Nat) (lost spare : DevId) (since : Nat) :
    PowerKept d (orderReplay d j cls lost spare since) := by
  fun_cases orderReplay <;> grind [jobFails_powerKept, modJob_powerKept, sendMgmt_powerKept, askBatches_powerKept,
    foldl_powerKept]
@[simp] theorem replayOver_powerKept (d : Dev) (j : Job) (step : U64) :
    PowerKept d (replayOver d j step) := by simp [replayOver]
@[simp] theorem replayJob_powerKept (d : Dev) (p : Nat) : PowerKept d (replayJob d p) := by
  unfold replayJob; split <;> simp
@[simp] theorem sendArrive_powerKept (d : Dev) (dest : DevId) (p : Nat) (step : U64) (count : Nat) (and_ : Bool) :
    PowerKept d (sendArrive d dest p step count and_) := by simp [sendArrive]
@[simp] theorem modGather_powerKept (d : Dev) (p : Nat) (f : Gather → Gather) : PowerKept d (modGather d p f) := ⟨rfl, rfl⟩
@[simp] theorem logBarrier_powerKept (d : Dev) (p : Nat) (src : DevId) (step : U64) :
    PowerKept d (logBarrier d p src step) := by
  simp [logBarrier]
@[simp] theorem passRelease_powerKept (d : Dev) (p : Nat) (ms : List DevId) (and_ pause snap : Bool) (step : U64) :
    PowerKept d (passRelease d p ms and_ pause snap step) := by simp [passRelease]
@[simp] theorem takeRelease_powerKept (d : Dev) (p : Nat) (and_ pause snap : Bool) (step : U64) :
    PowerKept d (takeRelease d p and_ pause snap step) := by simp [takeRelease]
@[simp] theorem rootAnswer_powerKept (d : Dev) (p : Nat) (j : Job) (step : U64) (and_ pause snap : Bool) :
    PowerKept d (rootAnswer d p j step and_ pause snap) := by simp [rootAnswer]
@[simp] theorem rootReady_powerKept (d : Dev) (p : Nat) (j : Job) (step : U64) (and_ : Bool) :
    PowerKept d (rootReady d p j step and_) := by simp [rootReady]
@[simp] theorem rootSettle_powerKept (d : Dev) (p : Nat) : PowerKept d (rootSettle d p) := by
  fun_cases rootSettle <;> simp [*]
@[simp] theorem rootArrive_powerKept (d : Dev) (p : Nat) (src : DevId) (step : U64) (count : Nat) (and_ : Bool) :
    PowerKept d (rootArrive d p src step count and_) := by
  unfold rootArrive; repeat' split
  all_goals simp
@[simp] theorem gatherSettle_powerKept (d : Dev) (p : Nat) : PowerKept d (gatherSettle d p) := by
  unfold gatherSettle; dsimp only; repeat' split
  all_goals simp
@[simp] theorem gatherAdd_powerKept (d : Dev) (p : Nat) (src : DevId) (step : U64) (count : Nat) (and_ : Bool) :
    PowerKept d (gatherAdd d p src step count and_) := by simp [gatherAdd]
@[simp] theorem ownArrival_powerKept (d : Dev) (p : Nat) (step : U64) (and_ : Bool) :
    PowerKept d (ownArrival d p step and_) := by
  simp [ownArrival]
@[simp] theorem voteFailed_powerKept (d : Dev) (p : Nat) : PowerKept d (voteFailed d p) := by simp [voteFailed]
@[simp] theorem barrierUp_powerKept (d : Dev) (p : Nat) : PowerKept d (barrierUp d p) := by
  unfold barrierUp; dsimp only; split <;> simp
@[simp] theorem stepCmd_powerKept (n : Nat) (w : Cmd) (d : Dev) : PowerKept d (stepCmd n w d) := by
  unfold stepCmd; split <;> simp
@[simp] theorem sequencerVote_powerKept (p : Nat) (d : Dev) : PowerKept d (sequencerVote p d) := by simp [sequencerVote]
@[simp] theorem firmwareTransfer_powerKept (d : Dev) (p mark : Nat) (w : BitVec 512) (parts : List (BitVec 512)) :
    PowerKept d (firmwareTransfer d p mark w parts) := by simp [firmwareTransfer]
@[simp] theorem firmwareCopy_powerKept (d : Dev) (p mark src dst n : Nat) : PowerKept d (firmwareCopy d p mark src dst n) := by
  simp [firmwareCopy]
@[simp] theorem promoteEntry_powerKept (p : Nat) (acc : Bool × Dev) (i : Nat) : PowerKept acc.2 (promoteEntry p acc i).2 := by
  fun_cases promoteEntry <;> grind [touched_powerKept, firmwareCopy_powerKept, lossAt_powerKept, dataLoss_powerKept,
    countDenied_powerKept]
@[simp] theorem promoteFailed_powerKept (d : Dev) (p : Nat) : PowerKept d (promoteFailed d p) := by
  unfold promoteFailed; dsimp only; split <;> simp
@[simp] theorem promotionEnd_powerKept (d : Dev) (p : Nat) (good : Bool) : PowerKept d (promotionEnd d p good) := by
  simp [promotionEnd]
@[simp] theorem promoteAll_powerKept (d : Dev) (p : Nat) : PowerKept d (promoteAll d p).2 := by
  unfold promoteAll; dsimp only; split
  · exact foldl_snd_powerKept (promoteEntry_powerKept p) (true, d) _
  · exact .refl d
@[simp] theorem commit_powerKept (p : Nat) (d : Dev) : PowerKept d (commit p d) := by
  unfold commit; dsimp only; repeat' split
  all_goals simp
@[simp] theorem beginSnapshot_powerKept (d : Dev) (p : Nat) : PowerKept d (beginSnapshot d p) := by simp [beginSnapshot]
@[simp] theorem snapshotCopied_powerKept (d : Dev) (p : Nat) (good : Bool) : PowerKept d (snapshotCopied d p good) := by
  simp [snapshotCopied]
@[simp] theorem reportSnapshots_powerKept (d : Dev) (p : Nat) (hs : List SnapHead) : PowerKept d (reportSnapshots d p hs) := by
  simp [reportSnapshots]
@[simp] theorem snapshotValid_powerKept (p : Nat) (d : Dev) : PowerKept d (snapshotValid p d) := by
  unfold snapshotValid; dsimp only; repeat' split
  all_goals simp
@[simp] theorem passStep_powerKept (d : Dev) (p n : Nat) (w : Task → BitVec 128) : PowerKept d (passStep d p n w) := by
  simp [passStep]
@[simp] theorem releaseStep_powerKept (d : Dev) (p : Nat) (b : Barrier) (pause : Bool) (copied : Option Bool) :
    PowerKept d (releaseStep d p b pause copied) := by
  unfold releaseStep; split <;> simp
@[simp] theorem stepBarrierRelease_powerKept (p : Nat) (d : Dev) : PowerKept d (stepBarrierRelease p d) := by
  unfold stepBarrierRelease; dsimp only; repeat' split
  all_goals simp
@[simp] theorem barrierArrive_powerKept (c : Cell) (d : Dev) : PowerKept d (barrierArrive c d) := by simp [barrierArrive]
@[simp] theorem barrierRelease_powerKept (c : Cell) (d : Dev) : PowerKept d (barrierRelease c d) := by
  unfold barrierRelease; dsimp only; split <;> simp
@[simp] theorem releaseDelay_powerKept (p : Nat) (d : Dev) : PowerKept d (releaseDelay p d) := by
  unfold releaseDelay; split <;> simp

/-! ### Machine/Tables.lean -/

@[simp] theorem modEpt_powerKept (d : Dev) (p : Nat) (f : BitVec 128 → BitVec 128) : PowerKept d (modEpt d p f) := by
  simp [modEpt]
@[simp] theorem repeer_powerKept (d : Dev) (p : Nat) (lost spare : DevId) : PowerKept d (repeer d p lost spare) := by
  simp [repeer]
@[simp] theorem retable_powerKept (d : Dev) (p : Nat) (lost spare : DevId) : PowerKept d (retable d p lost spare) := by
  simp [retable]
@[simp] theorem unlive_powerKept (d : Dev) (dev : DevId) : PowerKept d (unlive d dev) := by simp [unlive]
@[simp] theorem restartPeer_powerKept (d : Dev) (p : Nat) (spare : DevId) : PowerKept d (restartPeer d p spare) := by
  simp [restartPeer]
@[simp] theorem rebuddy_powerKept (d : Dev) (p : Nat) (lost spare : DevId) : PowerKept d (rebuddy d p lost spare) := ⟨rfl, rfl⟩
@[simp] theorem replaceIn_powerKept (d : Dev) (l : Launch) (lost spare : DevId) : PowerKept d (replaceIn d l lost spare) := by
  simp [replaceIn]
@[simp] theorem modLaunch_powerKept (d : Dev) (id : U64) (f : Launch → Launch) : PowerKept d (modLaunch d id f) := ⟨rfl, rfl⟩
@[simp] theorem adopt_powerKept (d : Dev) (id : U64) (subst : List (Nat × DevId)) : PowerKept d (adopt d id subst) := by
  unfold adopt; split <;> simp

/-! ### Machine/Launch.lean -/

@[simp] theorem snapWrite_powerKept (d : Dev) (p : Nat) (v : BitVec 128) : PowerKept d (snapWrite d p v) := by simp [snapWrite]
@[simp] theorem setStepSeeds_powerKept (d : Dev) (p : Nat) (step : U64) (seeds : List U64) :
    PowerKept d (setStepSeeds d p step seeds) := ⟨rfl, rfl⟩
theorem launchSetup_powerKept {d d' : Dev} {id : U64} {man dep : DevId} {spec : List Byte} {ms : List DevId}
    (h : launchSetup d id man dep spec ms = .inr d') : PowerKept d d' := by
  revert h; fun_cases launchSetup with
  | case3 p made d1 hm _ me rank d2 d3 =>
    have h1 : PowerKept d d1 := by grind [partCreate_powerKept]
    have h3 : PowerKept d1 d3 := by simp only [d3]; split <;> simp [d2]
    rintro ⟨⟩
    simpa using h1.trans h3
  | _ => nofun
@[simp] theorem launchJoin_powerKept (d : Dev) (id : U64) (man dep : DevId) (spec : List Byte) (subst : List (Nat × DevId)) :
    PowerKept d (launchJoin d id man dep spec subst).1 := by
  fun_cases launchJoin
  grind [launchSetup_powerKept, foldl_powerKept]
@[simp] theorem dropPartition_powerKept (d : Dev) (p : Nat) : PowerKept d (dropPartition d p) := by simp [dropPartition]
@[simp] theorem launchUndo_powerKept (d : Dev) (l : Launch) : PowerKept d (launchUndo d l) := by simp [launchUndo]
@[simp] theorem launchedEvent_powerKept (d : Dev) (p : Nat) (id : U64) (status : Nat) :
    PowerKept d (launchedEvent d p id status) := by simp [launchedEvent]
@[simp] theorem passDown_powerKept (d : Dev) (l : Launch) (m : Nat → DevId → Mgmt) : PowerKept d (passDown d l m) := by
  unfold passDown; dsimp only; split <;> simp
@[simp] theorem deputyCopy_powerKept (d : Dev) (id : U64) (spec : List Byte) (subst : List (Nat × DevId)) :
    PowerKept d (deputyCopy d id spec subst) := by simp [deputyCopy]
@[simp] theorem launchCell_powerKept (c : Cell) (id : U64) (pos : Nat) (spec : List Byte) (subst : List (Nat × DevId))
    (dep : DevId) (d : Dev) :
    PowerKept d (launchCell c id pos spec subst dep d) := by
  unfold launchCell; dsimp only; repeat' split
  all_goals simp
@[simp] theorem modJobId_powerKept (d : Dev) (id : U64) (f : Job → Job) : PowerKept d (modJobId d id f) := ⟨rfl, rfl⟩
@[simp] theorem managerEvent_powerKept (d : Dev) (j : Job) (status : Nat) : PowerKept d (managerEvent d j status) := by
  simp [managerEvent]
@[simp] theorem launchFails_powerKept (d : Dev) (id : U64) (status : Nat) : PowerKept d (launchFails d id status) := by
  unfold launchFails; dsimp only; repeat' split
  all_goals simp
@[simp] theorem launchOpen_powerKept (d : Dev) (id : U64) : PowerKept d (launchOpen d id) := by
  unfold launchOpen; split <;> simp
@[simp] theorem launchSettle_powerKept (d : Dev) (id : U64) : PowerKept d (launchSettle d id) := by
  unfold launchSettle; split <;> simp
@[simp] theorem resendLaunch_powerKept (d : Dev) (id : U64) : PowerKept d (resendLaunch d id) := by
  unfold resendLaunch; split <;> simp
@[simp] theorem launchStart_powerKept (d : Dev) (id : U64) : PowerKept d (launchStart d id) := by
  unfold launchStart; split <;> simp
@[simp] theorem substitute_powerKept (d : Dev) (j : Job) (lost spare : DevId) : PowerKept d (substitute d j lost spare) := by
  unfold substitute; dsimp only; split <;> simp
@[simp] theorem tellMembers_powerKept (d : Dev) (id : U64) : PowerKept d (tellMembers d id) := by
  unfold tellMembers; split <;> simp
@[simp] theorem spareReady_powerKept (d : Dev) (j : Job) (spare : DevId) (pos : Nat) (status : Byte) :
    PowerKept d (spareReady d j spare pos status) := by
  unfold spareReady; repeat' split
  all_goals simp
@[simp] theorem launchAck_powerKept (c : Cell) (id : U64) (pos : Nat) (status : Byte) (d : Dev) :
    PowerKept d (launchAck c id pos status d) := by
  unfold launchAck; split <;> simp
@[simp] theorem atManager_powerKept {g : Dev → Dev} (h : ∀ d, PowerKept d (g d)) (d : Dev) : PowerKept d (atManager g d) := by
  simp [atManager, h]
@[simp] theorem launchTimeout_powerKept (id : U64) (d : Dev) : PowerKept d (launchTimeout id d) := by
  unfold launchTimeout; split <;> simp
@[simp] theorem launchDone_powerKept (id : U64) (subst : List (Nat × DevId)) (d : Dev) :
    PowerKept d (launchDone id subst d) := by
  unfold launchDone; dsimp only; split <;> simp
@[simp] theorem launchAbort_powerKept (id : U64) (status : Byte) (subst : List (Nat × DevId)) (d : Dev) :
    PowerKept d (launchAbort id status subst d) := by
  unfold launchAbort; dsimp only; split <;> simp
@[simp] theorem jobFailed_powerKept (id : U64) (d : Dev) : PowerKept d (jobFailed id d) := by
  unfold jobFailed; dsimp only; split <;> simp
@[simp] theorem resumePart_powerKept (d : Dev) (p : Nat) : PowerKept d (resumePart d p) := by simp [resumePart]
@[simp] theorem jobResumeSettle_powerKept (d : Dev) (p : Nat) : PowerKept d (jobResumeSettle d p) := by
  unfold jobResumeSettle; split <;> simp
@[simp] theorem jobResume_powerKept (p : Nat) (subst : List (Nat × DevId)) (d : Dev) : PowerKept d (jobResume p subst d) := by
  unfold jobResume; dsimp only; repeat' split
  all_goals simp

/-! ### Machine/Recovery.lean -/

@[simp] theorem withdrawPushes_powerKept (d : Dev) (t : Task) (lcore : Nat) :
    PowerKept d (withdrawPushes d t lcore) := ⟨rfl, rfl⟩
@[simp] theorem coreLost_powerKept (d : Dev) (origin : Nat) (t : Option Task) : PowerKept d (coreLost d origin t) := by
  unfold coreLost; split <;> simp
@[simp] theorem coreFail_powerKept (pc : Nat) (d : Dev) : PowerKept d (coreFail pc d) := by
  unfold coreFail; dsimp only; repeat' split
  all_goals simp
@[simp] theorem coreHang_powerKept (pc : Nat) (u : CoreUnit) (d : Dev) : PowerKept d (coreHang pc u d) := by
  unfold coreHang; split <;> simp
@[simp] theorem viewGone_powerKept (d : Dev) (pc p n : Nat) : PowerKept d (viewGone d pc p n) := by simp [viewGone]
@[simp] theorem replayNot_powerKept (d : Dev) (pc n : Nat) (t : Task) : PowerKept d (replayNot d pc n t) := by simp [replayNot]
@[simp] theorem replayStart_powerKept (pc : Nat) (copyFailed : Bool) (d : Dev) :
    PowerKept d (replayStart pc copyFailed d) := by
  unfold replayStart; dsimp only; repeat' split
  all_goals simp
@[simp] theorem fenceNext_powerKept (d : Dev) (rack : Nat) : PowerKept d (fenceNext d rack) := by
  unfold fenceNext; dsimp only; split <;> simp
@[simp] theorem fenceAsk_powerKept (d : Dev) (f : DevId) (rejoin : Bool) (req : Option ReqId) :
    PowerKept d (fenceAsk d f rejoin req) := by simp [fenceAsk]
@[simp] theorem fenceSettle_powerKept (d : Dev) : PowerKept d (fenceSettle d) := by
  unfold fenceSettle; refine foldl_powerKept (fun d x => ?_) _ _; split <;> simp
@[simp] theorem setCur_powerKept (d : Dev) (e : BitVec 4) : PowerKept d (setCur d e) := ⟨rfl, rfl⟩
@[simp] theorem setFloor_powerKept (d : Dev) (e : BitVec 4) : PowerKept d (setFloor d e) := ⟨rfl, rfl⟩
@[simp] theorem setFenced_powerKept (d : Dev) (f : DevId) (on : Bool) : PowerKept d (setFenced d f on) := ⟨rfl, rfl⟩
@[simp] theorem endWith_powerKept (d : Dev) (f : DevId) : PowerKept d (endWith d f) := by simp [endWith]
@[simp] theorem deputySees_powerKept (d : Dev) (rack : Nat) (e : BitVec 4) : PowerKept d (deputySees d rack e) := ⟨rfl, rfl⟩
@[simp] theorem fenceCell_powerKept (c : Cell) (f : DevId) (e : BitVec 4) (rejoin : Bool) (d : Dev) :
    PowerKept d (fenceCell c f e rejoin d) := by simp [fenceCell]
@[simp] theorem fenceAck_powerKept (src f : DevId) (d : Dev) : PowerKept d (fenceAck src f d) := by simp [fenceAck]
@[simp] theorem fenceEpochWait_powerKept (rack : Nat) (d : Dev) :
    PowerKept d (fenceEpochWait rack d) := by simp [fenceEpochWait]
@[simp] theorem relaunchAll_powerKept (d : Dev) (id : U64) : PowerKept d (relaunchAll d id) := by
  unfold relaunchAll; split <;> simp
@[simp] theorem jobLoses_powerKept (d : Dev) (j : Job) (lost : DevId) (since : Nat) :
    PowerKept d (jobLoses d j lost since) := by
  unfold jobLoses; dsimp only; repeat' split
  all_goals simp
@[simp] theorem launchLoses_powerKept (d : Dev) (j : Job) (lost : DevId) : PowerKept d (launchLoses d j lost) := by
  unfold launchLoses; split <;> simp
@[simp] theorem jobsLose_powerKept (d : Dev) (lost : DevId) (since : Nat) : PowerKept d (jobsLose d lost since) := by
  simp [jobsLose]
@[simp] theorem selfLost_powerKept (d : Dev) (since : Nat) : PowerKept d (selfLost d since) := by simp [selfLost]
@[simp] theorem deviceLost_powerKept (d : Dev) (lost : DevId) (since : Nat) : PowerKept d (deviceLost d lost since) := by
  simp [deviceLost]
@[simp] theorem laneFailed_powerKept (d : Dev) (n : Nat) : PowerKept d (laneFailed d n) := by
  unfold laneFailed; dsimp only; split <;> simp
@[simp] theorem pairOut_powerKept (d : Dev) (a b : Nat) : PowerKept d (pairOut d a b) := by simp [pairOut]
@[simp] theorem pathOut_powerKept (d : Dev) (hops : List Nat) : PowerKept d (pathOut d hops) := by
  fun_induction pathOut <;> simp [*]
@[simp] theorem enterZexcl_powerKept (d : Dev) (dest : DevId) (plane : Nat) :
    PowerKept d (enterZexcl d dest plane) := ⟨rfl, rfl⟩
@[simp] theorem routeOut_powerKept (d : Dev) (peer : DevId) (r : Nat) : PowerKept d (routeOut d peer r) := by simp [routeOut]
@[simp] theorem linkFault_powerKept (d : Dev) (x : Probe) (failed : List Nat) : PowerKept d (linkFault d x failed) := by
  simp [linkFault]
@[simp] theorem probesClosed_powerKept (d : Dev) (peer : DevId) : PowerKept d (probesClosed d peer) := ⟨rfl, rfl⟩
@[simp] theorem relaunchAt_powerKept (d : Dev) (peer : DevId) (j : Job) : PowerKept d (relaunchAt d peer j) := by
  unfold relaunchAt; split <;> simp
@[simp] theorem peerGivenUp_powerKept (d : Dev) (peer : DevId) (since : Nat) : PowerKept d (peerGivenUp d peer since) := by
  simp [peerGivenUp]
@[simp] theorem peerLives_powerKept (d : Dev) (x : Probe) : PowerKept d (peerLives d x) := by simp [peerLives]
@[simp] theorem probeAnswered_powerKept (d : Dev) (failed : List Nat) (x : Probe) :
    PowerKept d (probeAnswered d failed x) := by
  unfold probeAnswered; split <;> simp
@[simp] theorem heardOf_powerKept (d : Dev) (src peer : DevId) : PowerKept d (heardOf d src peer) := by simp [heardOf]
@[simp] theorem probeAnswer_powerKept (src peer : DevId) (failed : List Nat) (d : Dev) :
    PowerKept d (probeAnswer src peer failed d) := by simp [probeAnswer]
@[simp] theorem replayAgain_powerKept (d : Dev) (j : Job) (since : Nat) : PowerKept d (replayAgain d j since) := by
  unfold replayAgain; split <;> simp
@[simp] theorem resumeJob_powerKept (since : Nat) (d : Dev) (j : Job) :
    PowerKept d (resumeJob since d j) := by simp [resumeJob]
@[simp] theorem takeover_powerKept (d : Dev) (old : DevId) (since : Nat) : PowerKept d (takeover d old since) := by
  simp [takeover]
@[simp] theorem orphaned_powerKept (d : Dev) (p : Nat) (peer : DevId) (since : Nat) :
    PowerKept d (orphaned d p peer since) := by
  unfold orphaned; dsimp only; split <;> simp
@[simp] theorem peerSilent_powerKept (d : Dev) (peer : DevId) (since : Nat) : PowerKept d (peerSilent d peer since) := by
  simp [peerSilent]
@[simp] theorem probeSilent_powerKept (d : Dev) (x : Probe) : PowerKept d (probeSilent d x) := by
  unfold probeSilent; split <;> simp
@[simp] theorem peerProbeTimeout_powerKept (peer : DevId) (d : Dev) : PowerKept d (peerProbeTimeout peer d) := by
  simp [peerProbeTimeout]
@[simp] theorem managerProbe_powerKept (d : Dev) (src peer : DevId) : PowerKept d (managerProbe d src peer) := by
  simp [managerProbe]
@[simp] theorem faultReport_powerKept (src : DevId) (t : Trouble) (d : Dev) : PowerKept d (faultReport src t d) := by
  fun_cases faultReport <;> simp [*]
@[simp] theorem takeReport_powerKept (src : DevId) (t : Trouble) (d : Dev) : PowerKept d (takeReport src t d) := by
  simp [takeReport]
@[simp] theorem snapshotKnown_powerKept (p : Nat) (r : SnapReport) (d : Dev) : PowerKept d (snapshotKnown p r d) := by
  simp [snapshotKnown]
@[simp] theorem heartbeat_powerKept (src : DevId) (d : Dev) : PowerKept d (heartbeat src d) := by simp [heartbeat]
@[simp] theorem heartbeatPeriod_powerKept (d : Dev) : PowerKept d (heartbeatPeriod d) := by simp [heartbeatPeriod]
@[simp] theorem arriveAgain_powerKept (d : Dev) (p : Nat) : PowerKept d (arriveAgain d p) := by
  unfold arriveAgain; dsimp only; repeat' split
  all_goals simp
@[simp] theorem tellRoot_powerKept (d : Dev) (p : Nat) : PowerKept d (tellRoot d p) := by
  unfold tellRoot; dsimp only; repeat' split
  all_goals simp
@[simp] theorem namedDeputy_powerKept (d : Dev) (man : DevId) (first n : Nat) :
    PowerKept d (namedDeputy d man first n) := ⟨rfl, rfl⟩
@[simp] theorem newRoot_powerKept (man dep : DevId) (first n : Nat) (d : Dev) : PowerKept d (newRoot man dep first n d) := by
  simp [newRoot]
@[simp] theorem dropStep_powerKept (d : Dev) (p : Nat) : PowerKept d (dropStep d p) := by simp [dropStep]
@[simp] theorem restoreRegions_powerKept (d : Dev) (p : Nat) (head : Option SnapHead) (gen : Nat) (buddy : DevId) :
    PowerKept d (restoreRegions d p head gen buddy) := by simp [restoreRegions]
@[simp] theorem spareFor_powerKept (d : Dev) (p : Nat) (lost spare : DevId) : PowerKept d (spareFor d p lost spare) := by
  simp [spareFor]
@[simp] theorem snapshotRestore_powerKept (p g : Nat) (step : U64) (seeds : List U64) (buddy : Option DevId)
    (lost spare : DevId)
    (d : Dev) :
    PowerKept d (snapshotRestore p g step seeds buddy lost spare d) := by
  unfold snapshotRestore; repeat' split
  all_goals simp
@[simp] theorem mirrorHead_powerKept (p : Nat) (m : Mirror) (d : Dev) : PowerKept d (mirrorHead p m d) := ⟨rfl, rfl⟩
@[simp] theorem mirrorAsked_powerKept (src : DevId) (p : Nat) (step : U64) (lost : DevId) (d : Dev) :
    PowerKept d (mirrorAsked src p step lost d) := by
  unfold mirrorAsked; split <;> simp
@[simp] theorem mirrorCopy_powerKept (p : Nat) (h : SnapHead) (table : List Byte) (d : Dev) :
    PowerKept d (mirrorCopy p h table d) := by
  unfold mirrorCopy; repeat' split
  all_goals simp

/-! ### Machine/Links.lean -/

@[simp] theorem logBringup_powerKept (d : Dev) (n : Nat) : PowerKept d (logBringup d n) := by simp [logBringup]
@[simp] theorem bringupStepTimeout_powerKept (n : Nat) (d : Dev) : PowerKept d (bringupStepTimeout n d) := by
  simp [bringupStepTimeout]
@[simp] theorem laneRecovered_powerKept (d : Dev) (n : Nat) : PowerKept d (laneRecovered d n) := by
  unfold laneRecovered; dsimp only; split <;> simp
@[simp] theorem fecAlignmentLock_powerKept (n : Nat) (d : Dev) :
    PowerKept d (fecAlignmentLock n d) := by simp [fecAlignmentLock]
@[simp] theorem checkPartner_powerKept (d : Dev) (n : Nat) (h : LinkHello) : PowerKept d (checkPartner d n h) := by
  fun_cases checkPartner <;> grind [Dev.modPort_pwr, Dev.modPort_grade, logPartner_powerKept, setPort_powerKept,
    foldl_powerKept]
@[simp] theorem linkHello_powerKept (n : Nat) (h : LinkHello) (d : Dev) : PowerKept d (linkHello n h d) := by
  fun_cases linkHello <;> grind [Dev.modPort_pwr, Dev.modPort_grade, checkPartner_powerKept, foldl_powerKept]
@[simp] theorem inService_powerKept (d : Dev) (n : Nat) : PowerKept d (inService d n) := by
  fun_cases inService <;> grind [logPartner_powerKept, setPort_powerKept, foldl_powerKept]
@[simp] theorem creditReturn_powerKept (n cls count : Nat) (d : Dev) : PowerKept d (creditReturn n cls count d) := by
  simp [creditReturn]
@[simp] theorem reportDark_powerKept (d : Dev) (n : Nat) : PowerKept d (reportDark d n) := by simp [reportDark]
@[simp] theorem laneDegrade_powerKept (n : Nat) (healthy : BitVec 4) (d : Dev) : PowerKept d (laneDegrade n healthy d) := by
  unfold laneDegrade; dsimp only; repeat' split
  all_goals simp
@[simp] theorem portErrLimit_powerKept (n : Nat) (d : Dev) : PowerKept d (portErrLimit n d) := by simp [portErrLimit]
@[simp] theorem linkStateCell_powerKept (c : Cell) (d : Dev) : PowerKept d (linkStateCell c d) := by simp [linkStateCell]
@[simp] theorem unreach_powerKept (c : Cell) (d : Dev) : PowerKept d (unreach c d) := by
  unfold unreach; split <;> simp
@[simp] theorem fabPortCfgWrite_powerKept (n : Nat) (v : U32) (d : Dev) : PowerKept d (fabPortCfgWrite n v d) := by
  fun_cases fabPortCfgWrite <;> grind [logIgnored_pwr, logIgnored_grade, Dev.modPort_pwr, Dev.modPort_grade,
    laneFailed_powerKept, linksNoted_powerKept]

/-! ### Machine/Uhp.lean -/

@[simp] theorem hostErr_powerKept (d : Dev) (i n : Nat) : PowerKept d (hostErr d i n) := ⟨rfl, rfl⟩
@[simp] theorem modHost_powerKept (d : Dev) (f : HostLink → HostLink) : PowerKept d (modHost d f) := ⟨rfl, rfl⟩
@[simp] theorem sendFrame_powerKept (d : Dev) (f : OutFrame) : PowerKept d (sendFrame d f) := ⟨rfl, rfl⟩
@[simp] theorem addrDuplicate_powerKept (target : BitVec 128) (fu : Fuses) (d : Dev) :
    PowerKept d (addrDuplicate target fu d) := by
  simp [addrDuplicate]
@[simp] theorem formGlobal_powerKept (d : Dev) (a : BitVec 128) : PowerKept d (formGlobal d a) := ⟨rfl, rfl⟩
@[simp] theorem dhcpv6_powerKept (f : FramePayload) (d : Dev) : PowerKept d (dhcpv6 f d) := by
  fun_cases dhcpv6 <;> simp [*]
@[simp] theorem frameTaken_powerKept (f : Frame) (fu : Fuses) (d : Dev) : PowerKept d (frameTaken f fu d) := by
  unfold frameTaken; dsimp only; split <;> simp
@[simp] theorem ethFrame_powerKept (f : Frame) (fu : Fuses) (d : Dev) : PowerKept d (ethFrame f fu d) := by
  fun_cases ethFrame <;> simp [*]
@[simp] theorem routerAdvertisement_powerKept (pfx : U64) (len : Nat) (aFlag : Bool) (fu : Fuses) (d : Dev) :
    PowerKept d (routerAdvertisement pfx len aFlag fu d) := by simp [routerAdvertisement]
@[simp] theorem neighborSolicitation_powerKept (src target : BitVec 128) (fu : Fuses) (d : Dev) :
    PowerKept d (neighborSolicitation src target fu d) := by simp [neighborSolicitation]
@[simp] theorem echoRequest_powerKept (src : BitVec 128) (data : List Byte) (d : Dev) :
    PowerKept d (echoRequest src data d) := by
  simp [echoRequest]
@[simp] theorem arpRequest_powerKept (sender target : U32) (d : Dev) : PowerKept d (arpRequest sender target d) := by
  simp [arpRequest]
@[simp] theorem modPtp_powerKept (d : Dev) (f : Ptp → Ptp) : PowerKept d (modPtp d f) := ⟨rfl, rfl⟩
@[simp] theorem ptpOffset_powerKept (off : Int) (d : Dev) : PowerKept d (ptpOffset off d) := by simp [ptpOffset]
@[simp] theorem ptpSynced_powerKept (t1 t2 : Nat) (d : Dev) : PowerKept d (ptpSynced t1 t2 d) := by
  unfold ptpSynced; dsimp only; split <;> simp
@[simp] theorem ptpDelay_powerKept (t4 : Nat) (d : Dev) : PowerKept d (ptpDelay t4 d) := by
  unfold ptpDelay; dsimp only; repeat' split
  all_goals simp
@[simp] theorem ptpSync_powerKept (m : PtpMsg) (d : Dev) : PowerKept d (ptpSync m d) := by
  unfold ptpSync; repeat' split
  all_goals simp
@[simp] theorem ptpHoldover_powerKept (d : Dev) : PowerKept d (ptpHoldover d) := by simp [ptpHoldover]
@[simp] theorem nakTo_powerKept (d : Dev) (m : UhpMsg) (num reason : Nat) : PowerKept d (nakTo d m num reason) := ⟨rfl, rfl⟩
@[simp] theorem helloAnswer_powerKept (m : UhpMsg) (d : Dev) : PowerKept d ((helloAnswer m d).2.2) := by
  unfold helloAnswer; dsimp only; repeat' split
  all_goals simp
@[simp] theorem helloMsg_powerKept (m : UhpMsg) (fu : Fuses) (d : Dev) : PowerKept d (helloMsg m fu d) := by
  unfold helloMsg; dsimp only; repeat' split
  all_goals simp
@[simp] theorem closeSession_powerKept (d : Dev) (sid : Nat) : PowerKept d (closeSession d sid) := ⟨rfl, rfl⟩
@[simp] theorem ethLinkDown_powerKept (forOneSecond : Bool) (d : Dev) : PowerKept d (ethLinkDown forOneSecond d) := by
  fun_cases ethLinkDown <;> grind [modHost_powerKept, closeSession_powerKept, foldl_powerKept]
@[simp] theorem sendAck_powerKept (d : Dev) (sid : Nat) : PowerKept d (sendAck d sid) := by
  unfold sendAck; split <;> simp
@[simp] theorem noteAck_powerKept (d : Dev) (sid : Nat) : PowerKept d (noteAck d sid) := by simp [noteAck]
@[simp] theorem ackMsg_powerKept (m : UhpMsg) (fu : Fuses) (d : Dev) : PowerKept d (ackMsg m fu d) := by
  unfold ackMsg; dsimp only; repeat' split
  all_goals simp
@[simp] theorem refused_powerKept (d : Dev) (sid : Nat) (o : OutMsg) (reason : Nat) :
    PowerKept d (refused d sid o reason) := by
  simp [refused]
@[simp] theorem nakMsg_powerKept (m : UhpMsg) (fu : Fuses) (d : Dev) : PowerKept d (nakMsg m fu d) := by
  unfold nakMsg; dsimp only; repeat' split
  all_goals simp
@[simp] theorem retransmit_powerKept (sid : Nat) (d : Dev) : PowerKept d (retransmit sid d) := by
  unfold retransmit; split <;> simp
@[simp] theorem macFailed_powerKept (d : Dev) (sid : Nat) : PowerKept d (macFailed d sid) := by simp [macFailed]
@[simp] theorem macPassed_powerKept (d : Dev) (sid : Nat) : PowerKept d (macPassed d sid) := ⟨rfl, rfl⟩
@[simp] theorem sendNak_powerKept (d : Dev) (sid seq reason : Nat) : PowerKept d (sendNak d sid seq reason) := by
  unfold sendNak; split <;> simp
theorem applyWrite_powerKept {d d' : Dev} {s : Session} {win off : Nat} {data : List Byte}
    (h : applyWrite d s win off data = .inr d') : PowerKept d d' := by
  revert h; fun_cases applyWrite <;> simp +contextual [*, eq_comm]
@[simp] theorem readWindow_powerKept (d : Dev) (k : Nat) (w : Window) (gen off len : Nat) :
    PowerKept d ((readWindow d k w gen off len).2.2) := by
  fun_cases readWindow <;> simp [*]
@[simp] theorem sendReadResp_powerKept (d : Dev) (sid k status reqId off : Nat) (data : List Byte) :
    PowerKept d (sendReadResp d sid k status reqId off data) := by simp [sendReadResp]
theorem applyRead_powerKept {d d' : Dev} {s : Session} {b : List Byte} (h : applyRead d s b = .inr d') : PowerKept d d' := by
  revert h; fun_cases applyRead <;> grind [readWindow_powerKept, sendReadResp_powerKept, foldl_powerKept]
@[simp] theorem applyReadResp_powerKept (d : Dev) (sid : Nat) (b : List Byte) :
    PowerKept d (applyReadResp d sid b) := ⟨rfl, rfl⟩
@[simp] theorem sendReadReq_powerKept (d : Dev) (sid k hostWin off len : Nat) :
    PowerKept d (sendReadReq d sid k hostWin off len) := by simp [sendReadReq]
@[simp] theorem sendWrite_powerKept (d : Dev) (sid k hostWin off : Nat) (data : List Byte) :
    PowerKept d (sendWrite d sid k hostWin off data) := by simp [sendWrite]

/-! ### Machine/Mbox.lean -/

@[simp] theorem takeRequest_powerKept (d : Dev) (s : Session) (m : UhpMsg) : PowerKept d (takeRequest d s m) := by
  simp [takeRequest]
@[simp] theorem takeWindowMsg_powerKept (d : Dev) (s : Session) (ty : Nat) (m : UhpMsg) :
    PowerKept d (takeWindowMsg d s ty m) := by
  fun_cases takeWindowMsg <;> grind [sendNak_powerKept, applyRead_powerKept, applyReadResp_powerKept, macFailed_powerKept,
    applyWrite_powerKept,
    macPassed_powerKept, foldl_powerKept]
@[simp] theorem deliver_powerKept (d : Dev) (s : Session) (ty : Nat) (m : UhpMsg) : PowerKept d (deliver d s ty m) := by
  unfold deliver; split <;> simp
@[simp] theorem pumpRxFuel_powerKept (k sid : Nat) (d : Dev) : PowerKept d (pumpRxFuel k sid d) := by
  fun_induction pumpRxFuel <;> grind [modSession_pwr, modSession_grade, deliver_powerKept]
@[simp] theorem pumpRx_powerKept (d : Dev) (sid : Nat) : PowerKept d (pumpRx d sid) := by simp [pumpRx]
@[simp] theorem pumpRxAll_powerKept (d : Dev) : PowerKept d (pumpRxAll d) := by simp [pumpRxAll]
@[simp] theorem sequenced_powerKept (ty : Nat) (m : UhpMsg) (fu : Fuses) (d : Dev) : PowerKept d (sequenced ty m fu d) := by
  unfold sequenced; dsimp only; repeat' split
  all_goals simp
@[simp] theorem onReq_powerKept {f : Req → Dev → Dev} (h : ∀ q d, PowerKept d (f q d)) (r : ReqId) (cmd : Nat)
    (k : List Byte → Bool) (d : Dev) : PowerKept d (onReq r cmd k f d) := by
  unfold onReq; split <;> simp [h]
@[simp] theorem markStarted_powerKept (d : Dev) (r : Req) : PowerKept d (markStarted d r) := ⟨rfl, rfl⟩
@[simp] theorem weirFreed_powerKept (d : Dev) (p : Nat) : PowerKept d (weirFreed d p) := by simp [weirFreed]
@[simp] theorem weirFill_powerKept (p : Nat) (r : Resource) (bytes : Nat) (d : Dev) : PowerKept d (weirFill p r bytes d) := by
  simp [weirFill]

/-! ### Machine/Boot.lean -/

@[simp] theorem logInput_powerKept (d : Dev) (sev source cls inst v : Nat) :
    PowerKept d (logInput d sev source cls inst v) := by
  simp [logInput]
@[simp] theorem logBoot_powerKept (f : Fuses) (sev : Nat) (d : Dev) : PowerKept d (logBoot f sev d) := by simp [logBoot]
@[simp] theorem lightPorts_powerKept (d : Dev) : PowerKept d (lightPorts d) := by simp [lightPorts]
@[simp] theorem selfTestSpared_powerKept (rows banks : List (Nat × Nat)) (d : Dev) :
    PowerKept d (selfTestSpared rows banks d) := by
  simp [selfTestSpared]
@[simp] theorem ethLinkUp_powerKept (f : Fuses) (d : Dev) : PowerKept d (ethLinkUp f d) := by simp [ethLinkUp]
@[simp] theorem fwDone_powerKept (d : Dev) (r : Req) (version : Nat) : PowerKept d (fwDone d r version) := by simp [fwDone]
@[simp] theorem attestWrites_powerKept (d : Dev) (r : Req) (addr : Nat) (bs : List Byte) :
    PowerKept d (attestWrites d r addr bs) := by simp [attestWrites]

/-! ### Machine/Grants.lean -/

@[simp] theorem handOver_powerKept (d : Dev) (g p : Nat) (who : WaitFor) (is : List Nat) :
    PowerKept d (handOver d g p who is) := by
  fun_cases handOver <;> simp [*]
@[simp] theorem waitingGrant_powerKept (g p : Nat) (d : Dev) : PowerKept d (waitingGrant g p d) := by
  fun_cases waitingGrant <;> grind [grantWaiting_powerKept, handOver_powerKept, seqPumpAll_powerKept, foldl_powerKept]
@[simp] theorem holdExpiry_powerKept (engine id peer : Nat) (d : Dev) : PowerKept d (holdExpiry engine id peer d) := by
  simp [holdExpiry]

/-! ### Machine/Mparts.lean -/

@[simp] theorem openSession_powerKept (fu : Fuses) (r : Req) (d : Dev) : PowerKept d (openSession fu r d) := by
  unfold openSession; repeat' split
  all_goals simp
@[simp] theorem createCmd_powerKept (r : Req) (d : Dev) : PowerKept d (createCmd r d) := by
  fun_cases createCmd <;> grind [respond_pwr, respond_grade, respondOk_pwr, respondOk_grade, partCreate_powerKept]
@[simp] theorem destroyCmd_powerKept (r : Req) (d : Dev) : PowerKept d (destroyCmd r d) := by simp [destroyCmd]
@[simp] theorem setQuotaCmd_powerKept (r : Req) (d : Dev) : PowerKept d (setQuotaCmd r d) := by
  fun_cases setQuotaCmd <;> grind [setQuota_waits_powerKept, setQuota_done_powerKept, markStarted_powerKept, Dev.modPart_pwr,
    Dev.modPart_grade, respond_pwr, respond_grade,
    hostErr_powerKept, respondOk_pwr, respondOk_grade]
@[simp] theorem setWeirCmd_powerKept (r : Req) (d : Dev) : PowerKept d (setWeirCmd r d) := by simp [setWeirCmd]
@[simp] theorem loadProgram_powerKept (r : Req) (d : Dev) : PowerKept d (loadProgram r d) := by
  unfold loadProgram; dsimp only; repeat' split
  all_goals simp
@[simp] theorem unloadProgram_powerKept (r : Req) (d : Dev) : PowerKept d (unloadProgram r d) := by
  unfold unloadProgram; dsimp only; split <;> simp
@[simp] theorem enterSub_powerKept (r : Req) (d : Dev) (s : Sub) (es : List QEntry) : PowerKept d (enterSub r d s es) := by
  simp [enterSub]
@[simp] theorem submit_powerKept (r : Req) (d : Dev) : PowerKept d (submit r d) := by
  unfold submit; dsimp only; repeat' split
  all_goals simp
@[simp] theorem takeHeld_powerKept (d : Dev) (p : Nat) (id : U32) : PowerKept d (takeHeld d p id) := by
  unfold takeHeld; dsimp only; repeat' split
  all_goals simp
@[simp] theorem abortCmd_powerKept (r : Req) (d : Dev) : PowerKept d (abortCmd r d) := by
  unfold abortCmd; dsimp only; repeat' split
  all_goals simp
@[simp] theorem accept_powerKept (d : Dev) (r : Req) : PowerKept d (accept d r) := by simp [accept]
@[simp] theorem pauseCmd_powerKept (r : Req) (d : Dev) : PowerKept d (pauseCmd r d) := by
  unfold pauseCmd; dsimp only; repeat' split
  all_goals simp
@[simp] theorem resumeCmd_powerKept (r : Req) (d : Dev) : PowerKept d (resumeCmd r d) := by
  unfold resumeCmd; dsimp only; repeat' split
  all_goals simp

/-! ### Machine/Mdata.lean -/

@[simp] theorem mapWindow_powerKept (r : Req) (d : Dev) : PowerKept d (mapWindow r d) := by
  unfold mapWindow; dsimp only; repeat' split
  all_goals simp
@[simp] theorem unmapWindow_powerKept (r : Req) (d : Dev) : PowerKept d (unmapWindow r d) := by
  unfold unmapWindow; dsimp only; split <;> simp
@[simp] theorem readResult_powerKept (r : Req) (d : Dev) : PowerKept d (readResult r d) := by
  unfold readResult; split <;> simp
@[simp] theorem releaseResult_powerKept (r : Req) (d : Dev) : PowerKept d (releaseResult r d) := by
  unfold releaseResult; split <;> simp
@[simp] theorem gateLoad_powerKept (r : Req) (d : Dev) : PowerKept d (gateLoad r d) := by
  fun_cases gateLoad <;> simp [*]
@[simp] theorem eptUpdate_powerKept (r : Req) (d : Dev) : PowerKept d (eptUpdate r d) := by
  unfold eptUpdate; dsimp only; repeat' split
  all_goals simp
@[simp] theorem setGroup_powerKept (d : Dev) (p g : Nat) (ms : List DevId) : PowerKept d (setGroup d p g ms) := ⟨rfl, rfl⟩
@[simp] theorem commCreate_powerKept (r : Req) (d : Dev) : PowerKept d (commCreate r d) := by simp [commCreate]
@[simp] theorem commDelete_powerKept (r : Req) (d : Dev) : PowerKept d (commDelete r d) := by simp [commDelete]
@[simp] theorem stepSet_powerKept (r : Req) (d : Dev) : PowerKept d (stepSet r d) := by simp [stepSet]
@[simp] theorem seedSet_powerKept (r : Req) (d : Dev) : PowerKept d (seedSet r d) := by simp [seedSet]
@[simp] theorem digestRead_powerKept (r : Req) (d : Dev) : PowerKept d (digestRead r d) := by simp [digestRead]

/-! ### Machine/Image.lean -/

@[simp] theorem saveImage_powerKept (r : Req) (d : Dev) : PowerKept d (saveImage r d) := by
  unfold saveImage; dsimp only; repeat' split
  all_goals simp
@[simp] theorem burn_powerKept (d : Dev) (p lba : Nat) (im : List Byte) : PowerKept d (burn d p lba im) := by
  unfold burn; refine foldl_powerKept (fun d x => ?_) _ _; split <;> simp
@[simp] theorem imageDone_powerKept (p : Nat) (d : Dev) : PowerKept d (imageDone p d) := by
  unfold imageDone; repeat' split
  all_goals simp
@[simp] theorem restoreTables_powerKept (d : Dev) (p : Nat) (b : List Byte) (m : ImageMap) :
    PowerKept d (restoreTables d p b m) := by
  fun_cases restoreTables
  grind [Dev.modPart_pwr, Dev.modPart_grade, dropComm_powerKept, foldl_powerKept]
@[simp] theorem restoreViews_powerKept (d : Dev) (p : Nat) (b : List Byte) (m : ImageMap) :
    PowerKept d (restoreViews d p b m) :=
  ⟨rfl, rfl⟩
@[simp] theorem restoreChans_powerKept (d : Dev) (p : Nat) (b : List Byte) (m : ImageMap) :
    PowerKept d (restoreChans d p b m) := by
  simp [restoreChans]
@[simp] theorem restoreBufs_powerKept (d : Dev) (p : Nat) (b : List Byte) (m : ImageMap) :
    PowerKept d (restoreBufs d p b m) := by
  simp [restoreBufs]
@[simp] theorem applyImage_powerKept (d : Dev) (p : Nat) (b : List Byte) (m : ImageMap) (s : SchedImg) :
    PowerKept d (applyImage d p b m s) := by simp [applyImage]
@[simp] theorem dropReads_powerKept (d : Dev) (sid k : Nat) : PowerKept d (dropReads d sid k) := ⟨rfl, rfl⟩
@[simp] theorem finishRestore_powerKept (r : Req) (d : Dev) (b : List Byte) (m : ImageMap) :
    PowerKept d (finishRestore r d b m) := by
  unfold finishRestore; dsimp only; split <;> simp
@[simp] theorem restoreImage_powerKept (r : Req) (d : Dev) : PowerKept d (restoreImage r d) := by
  unfold restoreImage; dsimp only; repeat' split
  all_goals simp

/-! ### Machine/Log.lean -/

@[simp] theorem logSuppressed_powerKept (d : Dev) (r : LogRate) : PowerKept d (logSuppressed d r) := by simp [logSuppressed]
@[simp] theorem logRateSecond_powerKept (d : Dev) : PowerKept d (logRateSecond d) := by simp [logRateSecond]
@[simp] theorem logRead_powerKept (r : Req) (d : Dev) : PowerKept d (logRead r d) := by simp [logRead]
@[simp] theorem healthQuery_powerKept (f : Fuses) (r : Req) (d : Dev) :
    PowerKept d (healthQuery f r d) := by simp [healthQuery]

/-! ### Machine/Mmgr.lean -/

@[simp] theorem managerAssign_powerKept (r : Req) (d : Dev) : PowerKept d (managerAssign r d) := by simp [managerAssign]
@[simp] theorem jobLaunch_powerKept (r : Req) (d : Dev) : PowerKept d (jobLaunch r d) := by simp [jobLaunch]
@[simp] theorem dropSpare_powerKept (d : Dev) (f : DevId) : PowerKept d (dropSpare d f) := ⟨rfl, rfl⟩
@[simp] theorem fenceDevice_powerKept (r : Req) (d : Dev) : PowerKept d (fenceDevice r d) := by simp [fenceDevice]
@[simp] theorem addSpare_powerKept (d : Dev) (f : DevId) : PowerKept d (addSpare d f) := ⟨rfl, rfl⟩
@[simp] theorem fenceRejoin_powerKept (r : Req) (d : Dev) : PowerKept d (fenceRejoin r d) := by simp [fenceRejoin]

/-! ### Machine/Tick.lean -/

@[simp] theorem weirTick_powerKept (d : Dev) : PowerKept d (weirTick d) := ⟨rfl, rfl⟩
@[simp] theorem tick_powerKept (d : Dev) : PowerKept d (tick d) := by simp [tick]

end Sys2Proof.Machine
end

section
/-! What no command does: fault, be refused, or change the queue; and which commands change the fuses (R485 to R496),
the boot state and the power state (R485 to R519). -/

namespace Sys2Proof.Machine

/-! ### Commands complete and leave the queue -/

/-- Settles O1: the step on a non-empty queue is `exec` of its front command. -/
theorem stepRunsFrontCommand : Obligations.StepRunsFrontCommand := by
  unfold Obligations.StepRunsFrontCommand
  intro c cs s
  rfl

theorem execResetInAssert_completes (s : State) : ∃ t, execResetInAssert s = .next t := by
  dsimp only [execResetInAssert]
  split <;> exact ⟨_, rfl⟩

theorem execOverVoltage_completes (s : State) : ∃ t, execOverVoltage s = .next t := by
  unfold execOverVoltage
  split <;> exact ⟨_, rfl⟩

theorem execSidebandFault_completes (i : Sideband) (s : State) : ∃ t, execSidebandFault i s = .next t := by
  dsimp only [execSidebandFault]
  split
  · exact ⟨_, rfl⟩
  · split <;> exact ⟨_, rfl⟩

theorem execSensorSample_completes (x : Sensors) (s : State) : ∃ t, execSensorSample x s = .next t := by
  unfold execSensorSample
  split
  · exact ⟨_, rfl⟩
  · split <;> exact ⟨_, rfl⟩

theorem execAttest_completes (r : ReqId) (s : State) : ∃ t, execAttest r s = .next t := by
  dsimp only [execAttest, onReqS]
  split <;> exact ⟨_, rfl⟩

/-- Settles O3, by command: the five whose outcome is written as a branch complete on every branch, and the next state
of each other one is written out. -/
theorem everyCommandCompletes : Obligations.EveryCommandCompletes := by
  unfold Obligations.EveryCommandCompletes
  intro c s
  cases c
  case resetInAssert => exact execResetInAssert_completes s
  case overVoltage => exact execOverVoltage_completes s
  case sidebandFault i => exact execSidebandFault_completes i s
  case sensorSample x => exact execSensorSample_completes x s
  case attest r => exact execAttest_completes r s
  all_goals exact ⟨_, rfl⟩

/-! ### The queue -/

@[simp] theorem restart_pending (s : State) (cause : Nat) (g : Dev → Dev) : (restart s cause g).pending = s.pending := rfl
@[simp] theorem powerOff_pending (s : State) (cause : Nat) (off : OffCause) : (powerOff s cause off).pending = s.pending := rfl

@[simp] theorem epoLow_pending (s : State) : (epoLow s).pending = s.pending := by
  dsimp only [epoLow]
  split <;> rfl

@[simp] theorem verifyStage_pending (s : State) : (verifyStage s).pending = s.pending := by
  dsimp only [verifyStage]
  split <;> rfl

@[simp] theorem bootStageDone_pending (o : StageOutcome) (s : State) : (bootStageDone o s).pending = s.pending := by
  dsimp only [bootStageDone]
  split
  · rfl
  split
  case h_2 | h_10 => split <;> rfl
  case h_5 => exact verifyStage_pending s
  all_goals rfl

@[simp] theorem commitBegin_pending (r : Req) (x : FwImage) (s : State) : (commitBegin r x s).pending = s.pending := by
  dsimp only [commitBegin]
  split
  · rfl
  split
  · split <;> rfl
  · rfl

@[simp] theorem fwCommit_pending (r : ReqId) (s : State) : (fwCommit r s).pending = s.pending := by
  dsimp only [fwCommit]
  split
  · split
    · rfl
    split
    · split <;> rfl
    · rfl
  · split
    · split
      · simp
      · rfl
    · rfl
  · rfl

/-- A leaf comes with a reservation at most: `takeLeaf` writes the records and the held leaves. -/
theorem takeLeaf_pending {s t : State} {leaf : Nat} (h : takeLeaf s = some (leaf, t)) : t.pending = s.pending := by
  dsimp only [takeLeaf] at h
  split at h
  · cases h
  split at h
  · cases h
    rfl
  split at h <;> cases h
  rfl

@[simp] theorem attest_pending (r : Req) (s : State) : (attest r s).pending = s.pending := by
  dsimp only [attest]
  split
  · rfl
  split
  · rfl
  split
  · rfl
  split
  · rfl
  next htake =>
    have h := takeLeaf_pending htake
    exact h

theorem execResetInAssert_pending {s t : State} (h : execResetInAssert s = .next t) : t.pending = s.pending := by
  dsimp only [execResetInAssert] at h
  split at h <;> cases h
  · rfl
  · split <;> rfl

theorem execOverVoltage_pending {s t : State} (h : execOverVoltage s = .next t) : t.pending = s.pending := by
  simp only [execOverVoltage] at h
  split at h <;> cases h <;> rfl

theorem execSidebandFault_pending {i : Sideband} {s t : State} (h : execSidebandFault i s = .next t) :
    t.pending = s.pending := by
  dsimp only [execSidebandFault] at h
  split at h
  · cases h
    rfl
  · split at h <;> cases h <;> simp

theorem execSensorSample_pending {x : Sensors} {s t : State} (h : execSensorSample x s = .next t) :
    t.pending = s.pending := by
  simp only [execSensorSample] at h
  split at h
  · cases h
    rfl
  · split at h <;> cases h <;> rfl

theorem execAttest_pending {r : ReqId} {s t : State} (h : execAttest r s = .next t) : t.pending = s.pending := by
  simp only [execAttest, onReqS] at h
  split at h <;> cases h
  · split <;> simp
  · rfl

/-- Settles O4, by command: a reset hands the queue on, the commands that write fuses leave it, and every other command
acts in the device. -/
theorem noCommandChangesTheQueue : Obligations.NoCommandChangesTheQueue := by
  unfold Obligations.NoCommandChangesTheQueue
  intro c s t h
  cases c
  case resetInAssert => exact execResetInAssert_pending h
  case overVoltage => exact execOverVoltage_pending h
  case sidebandFault => exact execSidebandFault_pending h
  case sensorSample => exact execSensorSample_pending h
  case attest => exact execAttest_pending h
  all_goals cases h
  case epoAssert => exact epoLow_pending _
  case bootStageDone => exact bootStageDone_pending _ s
  case fwCommit => exact fwCommit_pending _ s
  case fwCommitReset => split <;> rfl
  all_goals rfl

/-! ### Frames of the fuses, the boot state and the power state -/

/-- Settles O5, by command: one outside the ten acts in the device alone. -/
theorem fusesChangedOnlyByNamedCommands : Obligations.FusesChangedOnlyByNamedCommands := by
  unfold Obligations.FusesChangedOnlyByNamedCommands
  intro c s t hc h
  cases c
  -- one of the ten
  case resetInAssert | brownOut | overVoltage | epoAssert | sidebandFault | sensorSample | bootStageDone | fwCommit |
      fwCommitReset | attest => cases hc
  all_goals cases h; rfl

/-- The boot state, the power state and the grade of `e` are those of `d`. -/
@[simp] abbrev BootAndPowerKept (d e : Dev) : Prop := e.boot = d.boot ∧ PowerKept d e

theorem onMgmt_bootAndPowerKept {f : Mgmt → Option (Dev → Dev)} (h : ∀ m g, f m = some g → ∀ d, BootAndPowerKept d (g d))
    (d : Dev) (n : Nat) (c : Cell) (boss : Bool) : BootAndPowerKept d (onMgmt d n c boss f) :=
  ⟨onMgmt_boot (fun m g hg d => (h m g hg d).1) .., onMgmt_powerKept (fun m g hg d => (h m g hg d).2) ..⟩

/-- By command, outside `touchesBoot`: one function changes the device, and its lemmas say the rest. -/
theorem exec_bootAndPowerKept {c : Instr} {s t : State} (hc : touchesBoot c = false) (h : exec c s = .next t) :
    BootAndPowerKept s.dev t.dev := by
  cases c
  case resetInAssert | resetInRelease | inputStable | brownOut | overVoltage | lowInput | epoAssert | epoDeassert |
      tripCooled | sidebandFault | slotIdSample | slotIdChange | bootStageDone | fwStage | fwCommit | fwCommitReset |
      attest | sensorSample | governorTick | pwrCfgWrite | registerWrite | regWrite | regRead => cases hc
  all_goals cases h
  case mgmtProbe | managerHeartbeat | launchCell | launchAck | launchDone | launchAbort | fence | jobResume | probeAnswer |
      faultReport | probeRequest | fenceAck | newRoot | jobPauseRequest | jobResumeRequest | pausedReport | snapshotRestore =>
    refine onMgmt_bootAndPowerKept (fun m g hg d => ?_) ..
    split at hg <;> cases hg <;> simp [atManager, ofMember]
  case gatePushAccept =>
    dsimp only
    split
    · simp
    · split <;> simp
  case gateStepOpen | gateStepDone | exchangeTagsTaken | rowsFixed | gwIdleFlush | baskingEntry | coreWakeDone |
      stallProbeTimer | sessionExpiry =>
    dsimp only
    split <;> simp [whenD]
  case peerQueryTimer => split <;> simp
  case cellForward => exact ⟨onCell_boot (fun _ he => he) .., onCell_powerKept (fun _ he => he) ..⟩
  all_goals simp

/-- Settles O9: `exec_bootAndPowerKept`. -/
theorem bootAndPowerChangedOnlyByNamedCommands : Obligations.BootAndPowerChangedOnlyByNamedCommands := by
  unfold Obligations.BootAndPowerChangedOnlyByNamedCommands
  intro c s t hc h
  obtain ⟨hboot, hpwr, hgrade⟩ := exec_bootAndPowerKept hc h
  exact ⟨hgrade, hboot, hpwr⟩

end Sys2Proof.Machine
end

section
/-! The rails and what holds them off (R485, R503, R504, R507, R512, R513), and the leaves of the identity key (R495,
R496): what each command of chapters 18 and 19 does to them. -/

namespace Sys2Proof.Machine

/-! ### The functions of chapters 18 and 19 -/

/-- The rails, what holds them off, RESET_IN_N and the held leaves of `e` are those of `d`. -/
@[simp] abbrev LatchKept (d e : Dev) : Prop :=
  e.pwr.rails = d.pwr.rails ∧ e.pwr.off = d.pwr.off ∧ e.boot.held = d.boot.held ∧ e.boot.leafNext = d.boot.leafNext ∧
    e.boot.leafEnd = d.boot.leafEnd

theorem LatchKept.refl (d : Dev) : LatchKept d d := ⟨rfl, rfl, rfl, rfl, rfl⟩

theorem latchKept_of_kept {d e : Dev} (h : BootAndPowerKept d e) : LatchKept d e := by
  obtain ⟨hboot, hpwr, -⟩ := h
  simp [hboot, hpwr]

@[simp] theorem inputSeen_latchKept (i : Sideband → Bool) (d : Dev) : LatchKept d (inputSeen i d) := .refl d
@[simp] theorem pwrErr_latchKept (d : Dev) (i : Nat) : LatchKept d (pwrErr d i) := .refl d
@[simp] theorem slotIdSample_latchKept (v : BitVec 6) (d : Dev) : LatchKept d (slotIdSample v d) := by
  fun_cases slotIdSample <;> simp +zetaDelta
@[simp] theorem slotIdChange_latchKept (v : BitVec 6) (d : Dev) : LatchKept d (slotIdChange v d) := by
  unfold slotIdChange; dsimp only; split <;> simp
@[simp] theorem measure_latchKept (d : Dev) (kind : Nat) (digest : List Byte) : LatchKept d (measure d kind digest) := .refl d
@[simp] theorem measureRom_latchKept (f : Fuses) (d : Dev) : LatchKept d (measureRom f d) := .refl d
@[simp] theorem enterStage_latchKept (f : Fuses) (st : Stage) (d : Dev) : LatchKept d (enterStage f st d) := by
  simp [enterStage]
@[simp] theorem enterRecovery_latchKept (f : Fuses) (reason : Nat) (d : Dev) : LatchKept d (enterRecovery f reason d) := by
  unfold enterRecovery; dsimp only; split <;> simp
@[simp] theorem mailboxReady_latchKept (f : Fuses) (d : Dev) : LatchKept d (mailboxReady f d) := by simp [mailboxReady]
@[simp] theorem verifyStage_latchKept (s : State) : LatchKept s.dev (verifyStage s).dev := by
  unfold verifyStage; dsimp only; split <;> simp
@[simp] theorem bootStageDone_latchKept (o : StageOutcome) (s : State) : LatchKept s.dev (bootStageDone o s).dev := by
  dsimp only [bootStageDone]
  split
  · exact .refl _
  split
  case h_2 | h_10 => split <;> simp
  all_goals simp
@[simp] theorem fwStage_latchKept (r : Req) (f : Fuses) (d : Dev) : LatchKept d (fwStage r f d) := by
  unfold fwStage; dsimp only; repeat' split
  all_goals simp
@[simp] theorem commitBegin_latchKept (r : Req) (x : FwImage) (s : State) : LatchKept s.dev (commitBegin r x s).dev := by
  unfold commitBegin; dsimp only; repeat' split
  all_goals simp
@[simp] theorem commitEnd_latchKept (r : Req) (x : FwImage) (s : State) : LatchKept s.dev (commitEnd r x s).dev := by
  unfold commitEnd; dsimp only; split <;> simp
@[simp] theorem fwCommit_latchKept (r : ReqId) (s : State) : LatchKept s.dev (fwCommit r s).dev := by
  unfold fwCommit; repeat' split
  all_goals simp

@[simp] theorem modPwr_err_latchKept (d : Dev) (f : Tbl U32 → Tbl U32) :
    LatchKept d (modPwr d fun x => { x with err := f x.err }) := .refl d
@[simp] theorem setVin_latchKept (vin : Nat) (d : Dev) : LatchKept d (setVin vin d) := by
  unfold setVin; dsimp only; split <;> simp [modPwr]
@[simp] theorem setRefresh_latchKept (d : Dev) : LatchKept d (setRefresh d) := .refl d
@[simp] theorem setAlert_latchKept (d : Dev) : LatchKept d (setAlert d) := by
  unfold setAlert; dsimp only; repeat' split
  all_goals simp [modPwr]
@[simp] theorem enterHold_latchKept (d : Dev) : LatchKept d (enterHold d) := by
  unfold enterHold; split <;> simp [modPwr]
@[simp] theorem leaveHold_latchKept (d : Dev) : LatchKept d (leaveHold d) := .refl d
@[simp] theorem setHold_latchKept (d : Dev) : LatchKept d (setHold d) := by
  unfold setHold; dsimp only; repeat' split
  all_goals simp
@[simp] theorem sample_latchKept (x : Sensors) (d : Dev) : LatchKept d (sample x d) := by simp [sample, modPwr]
@[simp] theorem governorTick_latchKept (d : Dev) : LatchKept d (governorTick d) := by
  fun_cases governorTick <;> simp [modPwr]
@[simp] theorem pwrCfgWrite_latchKept (v : U64) (d : Dev) : LatchKept d (pwrCfgWrite v d) := by
  unfold pwrCfgWrite; split <;> simp [modPwr]

/-! ### The registers (R516, R517) -/

@[simp] theorem regClear_latchKept (d : Dev) (r : Reg) : LatchKept d (regClear d r) := by
  unfold regClear; split <;> simp [modPwr]
theorem poolCfgWrite_powerKept {d d' : Dev} {g : Nat} {v : U64} (h : poolCfgWrite d g v = some d') : PowerKept d d' := by
  revert h; fun_cases poolCfgWrite <;> simp +contextual [*, eq_comm]
theorem chanCfgWrite_powerKept {d d' : Dev} {n : Nat} {v : U64} (h : chanCfgWrite d n v = some d') : PowerKept d d' := by
  simp only [chanCfgWrite] at h
  split at h <;> cases h
  exact modChan_powerKept ..
theorem regWrite_latchKept {d d' : Dev} {r : Reg} {v : U64} (h : regWrite d r v = some d') : LatchKept d d' := by
  have hall : ∀ d' ∈ regWrite d r v, LatchKept d d' := by
    unfold regWrite
    extract_lets w
    split
    · simp
    split
    case h_25 => exact fun _ h => latchKept_of_kept ⟨poolCfgWrite_boot h, poolCfgWrite_powerKept h⟩
    case h_29 => exact fun _ h => latchKept_of_kept ⟨chanCfgWrite_boot h, chanCfgWrite_powerKept h⟩
    all_goals (try split) <;> simp +zetaDelta
  exact hall d' h
@[simp] theorem regWriteLog_latchKept (d : Dev) (r : Reg) (v : U64) : LatchKept d (regWriteLog d r v) := by
  unfold regWriteLog
  cases h : regWrite d r v with
  | none => simp
  | some d' => exact regWrite_latchKept h
@[simp] theorem readRegs_latchKept (f : Fuses) (n a : Nat) (d : Dev) : LatchKept d (readRegs f n a d).2 := by
  fun_induction readRegs <;> simp_all
@[simp] theorem regRead_latchKept (f : Fuses) (r : Req) (d : Dev) : LatchKept d (regRead f r d) := by
  unfold regRead; dsimp only; split <;> simp
@[simp] theorem writeRegs_latchKept (bs : List (List Byte)) (a : Nat) (d : Dev) : LatchKept d (writeRegs bs a d) := by
  fun_induction writeRegs <;> simp [*]
@[simp] theorem regWriteCmd_latchKept (r : Req) (d : Dev) : LatchKept d (regWriteCmd r d) := by
  unfold regWriteCmd; split <;> simp
theorem onReq_latchKept {f : Req → Dev → Dev} (h : ∀ q d, LatchKept d (f q d)) (r : ReqId) (cmd : Nat)
    (k : List Byte → Bool) (d : Dev) : LatchKept d (onReq r cmd k f d) := by
  unfold onReq; split
  · split
    · exact h ..
    · exact .refl d
  · exact .refl d

/-! ### The rails and their causes (R485, R503, R504, R507, R512) -/

/-- The rails are up exactly when no cause holds them off and RESET_IN_N is not asserted. -/
def RailsInv (s : State) : Prop := s.dev.pwr.rails = (s.dev.pwr.off.isNone && !s.dev.boot.held)

/-- What command c may do to the rails: it keeps `RailsInv`, INPUT_STABLE alone ends the last cause, and EPO and thermal
trip end by their own commands or with the input. -/
def RailsFollow (c : Instr) (s t : State) : Prop :=
  RailsInv s → RailsInv t ∧
    (s.dev.pwr.off ≠ none → t.dev.pwr.off = none →
      c = .inputStable ∧ s.dev.pwr.off ≠ some .epo ∧ s.dev.pwr.off ≠ some .thermalTrip) ∧
    (s.dev.pwr.off = some .epo → t.dev.pwr.off ≠ some .epo → c = .epoDeassert ∨ c = .brownOut) ∧
    (s.dev.pwr.off = some .thermalTrip → t.dev.pwr.off ≠ some .thermalTrip → c = .tripCooled ∨ c = .brownOut)

section
variable {c : Instr} {s t : State}

theorem railsFollow_of_off_eq (hoff : t.dev.pwr.off = s.dev.pwr.off) (hinv : RailsInv s → RailsInv t) : RailsFollow c s t :=
  fun h => ⟨hinv h, fun hs ht => absurd (hoff ▸ ht) hs, fun hs ht => absurd (hoff.trans hs) ht,
    fun hs ht => absurd (hoff.trans hs) ht⟩

theorem railsFollow_of_latchKept (h : LatchKept s.dev t.dev) : RailsFollow c s t := by
  obtain ⟨hrails, hoff, hheld, -⟩ := h
  exact railsFollow_of_off_eq hoff fun hinv => by rw [RailsInv, hrails, hoff, hheld]; exact hinv

theorem RailsFollow.of_latchKept_left {d : Dev} (h : LatchKept s.dev d) (h' : RailsFollow c { s with dev := d } t) :
    RailsFollow c s t := by
  obtain ⟨hrails, hoff, hheld, -⟩ := h
  simpa only [RailsFollow, RailsInv, hrails, hoff, hheld] using h'

@[simp] theorem powerOff_off (s : State) (cause : Nat) (off : OffCause) : (powerOff s cause off).dev.pwr.off = some off := rfl
@[simp] theorem powerOff_rails (s : State) (cause : Nat) (off : OffCause) : (powerOff s cause off).dev.pwr.rails = false := rfl

/-- Going off for a cause: an EPO stays one and a trip stays one, unless the command may end it. -/
theorem railsFollow_powerOff (cause : Nat) {off : OffCause}
    (hepo : s.dev.pwr.off = some .epo → off ≠ .epo → c = .epoDeassert ∨ c = .brownOut)
    (htrip : s.dev.pwr.off = some .thermalTrip → off ≠ .thermalTrip → c = .tripCooled ∨ c = .brownOut) :
    RailsFollow c s (powerOff s cause off) := by
  intro _
  simpa [RailsInv] using And.intro hepo htrip

theorem railsFollow_epoLow : RailsFollow c s (epoLow s) := by
  have hlow : LatchKept s.dev { s.dev with pwr := { s.dev.pwr with epoLow := true } } := .refl _
  refine .of_latchKept_left hlow ?_
  dsimp only [epoLow]
  split
  next hoff => exact railsFollow_powerOff _ (by simp [hoff]) (by simp [hoff])
  next hoff => exact railsFollow_of_latchKept hlow
  next hoff => exact railsFollow_powerOff _ (fun _ h => absurd rfl h) (by simp_all)

theorem execResetInAssert_railsFollow (h : execResetInAssert s = .next t) : RailsFollow c s t := by
  refine .of_latchKept_left (inputSeen_latchKept (· == .resetIn) s.dev) ?_
  dsimp only [execResetInAssert] at h
  split at h <;> cases h
  · exact railsFollow_of_latchKept (.refl _)
  · refine railsFollow_of_off_eq ?_ fun _ => ?_
    · split <;> rfl
    · split <;> simp [RailsInv, restart]

theorem resetHigh_railsFollow (d : Dev) : RailsFollow c { s with dev := d } { s with dev := resetHigh d } := by
  unfold resetHigh
  split
  · exact railsFollow_of_latchKept (.refl _)
  · exact railsFollow_of_off_eq rfl fun _ => by simp [RailsInv]

theorem execInputStable_railsFollow (h : execInputStable s = .next t) : RailsFollow .inputStable s t := by
  cases h
  intro hinv
  dsimp only
  split <;> simp_all [RailsInv, powerOn]

theorem execOverVoltage_railsFollow (h : execOverVoltage s = .next t) : RailsFollow c s t := by
  simp only [execOverVoltage] at h
  split at h <;> cases h
  next hoff => exact railsFollow_powerOff _ (by simp [hoff]) (by simp [hoff])
  next => exact railsFollow_of_latchKept (.refl _)
  next => exact railsFollow_of_latchKept (.refl _)
  next => exact railsFollow_powerOff _ (by simp_all) (by simp_all)

theorem execEpoDeassert_railsFollow (h : execEpoDeassert s = .next t) : RailsFollow .epoDeassert s t := by
  refine .of_latchKept_left (inputSeen_latchKept (· == .epo) s.dev) ?_
  cases h
  dsimp only
  split
  · intro hinv
    by_cases hepo : s.dev.pwr.off = some .epo <;> simp_all [RailsInv, inputSeen]
  · exact railsFollow_of_latchKept (.refl _)

theorem execTripCooled_railsFollow (h : execTripCooled s = .next t) : RailsFollow .tripCooled s t := by
  cases h
  dsimp only
  split
  · intro hinv
    simp_all [RailsInv]
  · exact railsFollow_of_latchKept (.refl _)

theorem execSidebandFault_railsFollow {i : Sideband} (h : execSidebandFault i s = .next t) : RailsFollow c s t := by
  dsimp only [execSidebandFault] at h
  split at h
  · cases h
    exact railsFollow_of_latchKept (.refl _)
  split at h <;> cases h
  · exact .of_latchKept_left (by simp) (resetHigh_railsFollow _)
  · exact .of_latchKept_left (by simp) (railsFollow_epoLow (s := { s with dev := _ }))
  · exact railsFollow_of_latchKept (by simp)

theorem execSensorSample_railsFollow {x : Sensors} (h : execSensorSample x s = .next t) : RailsFollow c s t := by
  simp only [execSensorSample] at h
  split at h
  · cases h
    exact railsFollow_of_latchKept (.refl _)
  next hrails =>
  split at h <;> cases h
  · intro hinv
    have hoff : s.dev.pwr.off = none := by
      simp_all [RailsInv]
    exact railsFollow_powerOff _ (by simp [hoff]) (by simp [hoff]) hinv
  · exact railsFollow_of_latchKept (by simp)

theorem restart_railsFollow (cause : Nat) : RailsFollow c s (restart s cause id) :=
  railsFollow_of_off_eq rfl fun _ => rfl

theorem takeLeaf_pwr_held {leaf : Nat} (h : takeLeaf s = some (leaf, t)) :
    t.dev.pwr = s.dev.pwr ∧ t.dev.boot.held = s.dev.boot.held := by
  dsimp only [takeLeaf] at h
  split at h
  · cases h
  split at h
  · cases h
    exact ⟨rfl, rfl⟩
  split at h <;> cases h
  exact ⟨rfl, rfl⟩

theorem attest_railsFollow (r : Req) : RailsFollow c s (attest r s) := by
  dsimp only [attest]
  split
  · exact railsFollow_of_latchKept (by simp)
  split
  · exact railsFollow_of_latchKept (by simp)
  split
  · exact railsFollow_of_latchKept (by simp)
  split
  · exact railsFollow_of_latchKept (by simp)
  next htake =>
  obtain ⟨hpwr, hheld⟩ := takeLeaf_pwr_held htake
  exact railsFollow_of_off_eq (by simp [hpwr]) fun hinv => by simpa [RailsInv, hpwr, hheld] using hinv

theorem execAttest_railsFollow {r : ReqId} (h : execAttest r s = .next t) : RailsFollow c s t := by
  simp only [execAttest, onReqS] at h
  split at h <;> cases h
  · split
    · exact attest_railsFollow _
    · exact railsFollow_of_latchKept (.refl _)
  · exact railsFollow_of_latchKept (.refl _)

/-- By command: outside `touchesBoot` nothing of this changes; of the others, those that act on the rails one by one. -/
theorem exec_railsFollow (h : exec c s = .next t) : RailsFollow c s t := by
  by_cases hc : touchesBoot c = false
  · exact railsFollow_of_latchKept (latchKept_of_kept (exec_bootAndPowerKept hc h))
  cases c
  case resetInAssert => exact execResetInAssert_railsFollow h
  case inputStable => exact execInputStable_railsFollow h
  case overVoltage => exact execOverVoltage_railsFollow h
  case epoDeassert => exact execEpoDeassert_railsFollow h
  case tripCooled => exact execTripCooled_railsFollow h
  case sidebandFault => exact execSidebandFault_railsFollow h
  case sensorSample => exact execSensorSample_railsFollow h
  case attest => exact execAttest_railsFollow h
  case resetInRelease =>
    cases h
    exact .of_latchKept_left (inputSeen_latchKept ..) (resetHigh_railsFollow _)
  case brownOut =>
    cases h
    exact railsFollow_powerOff _ (fun _ _ => .inr rfl) fun _ _ => .inr rfl
  case epoAssert =>
    cases h
    exact .of_latchKept_left (inputSeen_latchKept ..) railsFollow_epoLow
  case fwCommitReset =>
    cases h
    split
    · exact restart_railsFollow 2
    · exact railsFollow_of_latchKept (.refl _)
  case slotIdSample | slotIdChange | governorTick =>
    cases h
    exact railsFollow_of_latchKept (by simp)
  case lowInput | pwrCfgWrite | registerWrite =>
    cases h
    exact railsFollow_of_latchKept (ite_keeps (by simp) (.refl _))
  case bootStageDone =>
    cases h
    exact railsFollow_of_latchKept (bootStageDone_latchKept ..)
  case fwCommit =>
    cases h
    exact railsFollow_of_latchKept (fwCommit_latchKept ..)
  case fwStage | regWrite | regRead =>
    cases h
    exact railsFollow_of_latchKept (onReq_latchKept (by simp) ..)
  all_goals exact absurd rfl hc

theorem step_railsInv (hinv : RailsInv s) (h : step s = .next t) : RailsInv t := by
  simp only [step] at h
  split at h
  · cases h
    exact (railsFollow_of_latchKept (c := .brownOut) (t := idle s) (latchKept_of_kept ⟨tick_boot _, tick_powerKept _⟩) hinv).1
  · exact (exec_railsFollow h hinv).1

end

/-- Settles O57: `exec_railsFollow` for every command, and a tick leaves the power state. -/
theorem railsFollowTheirCauses : Obligations.RailsFollowTheirCauses := by
  unfold Obligations.RailsFollowTheirCauses
  exact ⟨rfl, fun s t => step_railsInv, fun c s t hinv h => (exec_railsFollow h hinv).2⟩

end Sys2Proof.Machine
end

section
/-! The leaves of the identity key (R495, R496): a reservation only moves on, and a leaf is taken from its front. -/

namespace Sys2Proof.Machine

/-- Under `LeafInv`, t meets it again and has handed out no leaf below s's next one; the floor is left to `FloorKept`. -/
def LeavesAdvance (s t : State) : Prop :=
  LeafInv s → reservedTop t.fuses ≤ 2 ^ 20 ∧ t.dev.boot.leafNext ≤ t.dev.boot.leafEnd ∧
    t.dev.boot.leafEnd ≤ reservedTop t.fuses ∧ nextLeaf s ≤ nextLeaf t

/-- The reservation records of g are those of f. -/
def RecordsKept (f g : Fuses) : Prop := g.recA = f.recA ∧ g.recB = f.recB

theorem RecordsKept.bestRec {f g : Fuses} (h : RecordsKept f g) : bestRec g = bestRec f := by
  obtain ⟨ha, hb⟩ := h
  simp only [Machine.bestRec, ha, hb]

theorem RecordsKept.reservedTop {f g : Fuses} (h : RecordsKept f g) : reservedTop g = reservedTop f := by
  rw [Machine.reservedTop, h.bestRec, Machine.reservedTop]

theorem nextLeaf_le_reservedTop {s : State} (h : LeafInv s) : nextLeaf s ≤ reservedTop s.fuses := by
  obtain ⟨-, -, -, hend⟩ := h
  unfold nextLeaf
  split <;> omega

section
variable {c : Instr} {s t : State}

theorem leavesAdvance_of_latchKept (hf : RecordsKept s.fuses t.fuses) (hd : LatchKept s.dev t.dev) : LeavesAdvance s t := by
  obtain ⟨-, -, -, hnext, hend⟩ := hd
  rintro ⟨-, htop, hle, hres⟩
  simp only [nextLeaf, hf.reservedTop, hnext, hend]
  exact ⟨htop, hle, hres, Nat.le_refl _⟩

/-- A reset loses the held leaves: the next one is the first that is not reserved. -/
theorem leavesAdvance_of_reset (hf : RecordsKept s.fuses t.fuses) (hnext : t.dev.boot.leafNext = 0) (hend : t.dev.boot.leafEnd = 0) :
    LeavesAdvance s t := by
  intro h
  have hle := nextLeaf_le_reservedTop h
  obtain ⟨-, htop, -, -⟩ := h
  simp only [nextLeaf, hf.reservedTop, hnext, hend]
  exact ⟨htop, Nat.le_refl _, Nat.zero_le _, hle⟩

theorem restart_leavesAdvance (s : State) (cause : Nat) {g : Dev → Dev}
    (hg : ∀ d, (g d).boot.leafNext = d.boot.leafNext ∧ (g d).boot.leafEnd = d.boot.leafEnd) :
    LeavesAdvance s (restart s cause g) :=
  leavesAdvance_of_reset ⟨rfl, rfl⟩ ((hg _).1.trans rfl) ((hg _).2.trans rfl)

theorem powerOff_leavesAdvance (s : State) (cause : Nat) (off : OffCause) : LeavesAdvance s (powerOff s cause off) :=
  restart_leavesAdvance s cause fun _ => ⟨rfl, rfl⟩

/-- What a device with the same leaves does, s does. -/
theorem LeavesAdvance.of_leaves_left {d : Dev} (hnext : d.boot.leafNext = s.dev.boot.leafNext)
    (hend : d.boot.leafEnd = s.dev.boot.leafEnd) (h : LeavesAdvance { s with dev := d } t) : LeavesAdvance s t := by
  simpa only [LeavesAdvance, LeafInv, nextLeaf, hnext, hend] using h

theorem leavesAdvance_of_leaves {d : Dev} (hnext : d.boot.leafNext = s.dev.boot.leafNext)
    (hend : d.boot.leafEnd = s.dev.boot.leafEnd) : LeavesAdvance s { s with dev := d } :=
  .of_leaves_left hnext hend fun ⟨_, htop, hle, hres⟩ => ⟨htop, hle, hres, Nat.le_refl _⟩

theorem epoLow_leavesAdvance : LeavesAdvance s (epoLow s) := by
  refine .of_leaves_left (d := { s.dev with pwr := { s.dev.pwr with epoLow := true } }) rfl rfl ?_
  dsimp only [epoLow]
  split
  · exact powerOff_leavesAdvance _ _ _
  · exact leavesAdvance_of_leaves rfl rfl
  · exact powerOff_leavesAdvance _ _ _

theorem execResetInAssert_leavesAdvance (h : execResetInAssert s = .next t) : LeavesAdvance s t := by
  refine .of_leaves_left (d := inputSeen (· == .resetIn) s.dev) rfl rfl ?_
  dsimp only [execResetInAssert] at h
  split at h <;> cases h
  · exact leavesAdvance_of_leaves rfl rfl
  · split
    · exact leavesAdvance_of_leaves rfl rfl
    · exact restart_leavesAdvance _ 1 fun _ => ⟨rfl, rfl⟩

theorem resetHigh_leavesAdvance (d : Dev) : LeavesAdvance { s with dev := d } { s with dev := resetHigh d } := by
  unfold resetHigh
  split <;> exact leavesAdvance_of_leaves rfl rfl

theorem execInputStable_leavesAdvance (h : execInputStable s = .next t) : LeavesAdvance s t := by
  cases h
  dsimp only
  split <;> exact leavesAdvance_of_leaves rfl rfl

theorem execOverVoltage_leavesAdvance (h : execOverVoltage s = .next t) : LeavesAdvance s t := by
  simp only [execOverVoltage] at h
  split at h <;> cases h
  · exact powerOff_leavesAdvance _ _ _
  · exact leavesAdvance_of_leaves rfl rfl
  · exact leavesAdvance_of_leaves rfl rfl
  · exact powerOff_leavesAdvance _ _ _

theorem execSidebandFault_leavesAdvance {i : Sideband} (h : execSidebandFault i s = .next t) : LeavesAdvance s t := by
  dsimp only [execSidebandFault] at h
  split at h
  · cases h
    exact leavesAdvance_of_leaves rfl rfl
  split at h <;> cases h
  · exact .of_leaves_left (by simp) (by simp) (resetHigh_leavesAdvance _)
  · exact .of_leaves_left (by simp) (by simp) (epoLow_leavesAdvance (s := { s with dev := _ }))
  · exact leavesAdvance_of_leaves (by simp) (by simp)

theorem execSensorSample_leavesAdvance {x : Sensors} (h : execSensorSample x s = .next t) : LeavesAdvance s t := by
  simp only [execSensorSample] at h
  split at h
  · cases h
    exact leavesAdvance_of_leaves rfl rfl
  split at h <;> cases h
  · exact powerOff_leavesAdvance _ _ _
  · exact leavesAdvance_of_leaves (by simp) (by simp)

/-! ### Functions that write other fuses (R487, R492) -/

theorem verifyStage_recordsKept (s : State) : RecordsKept s.fuses (verifyStage s).fuses := by
  unfold verifyStage; dsimp only; split <;> exact ⟨rfl, rfl⟩

theorem bootStageDone_recordsKept (o : StageOutcome) (s : State) : RecordsKept s.fuses (bootStageDone o s).fuses := by
  dsimp only [bootStageDone]
  split
  · exact ⟨rfl, rfl⟩
  split
  case h_2 | h_10 => split <;> exact ⟨rfl, rfl⟩
  case h_5 => exact verifyStage_recordsKept s
  all_goals exact ⟨rfl, rfl⟩

theorem commitBegin_recordsKept (r : Req) (x : FwImage) (s : State) : RecordsKept s.fuses (commitBegin r x s).fuses := by
  unfold commitBegin; dsimp only; repeat' split
  all_goals exact ⟨rfl, rfl⟩

theorem fwCommit_recordsKept (r : ReqId) (s : State) : RecordsKept s.fuses (fwCommit r s).fuses := by
  dsimp only [fwCommit]
  split
  · split
    · exact ⟨rfl, rfl⟩
    split
    · split <;> exact ⟨rfl, rfl⟩
    · exact ⟨rfl, rfl⟩
  · split
    · split
      · exact commitBegin_recordsKept ..
      · exact ⟨rfl, rfl⟩
    · exact ⟨rfl, rfl⟩
  · exact ⟨rfl, rfl⟩

/-! ### Taking a leaf (R496) -/

/-- Writing a reservation over the older record makes it the best one: its COUNTER is the higher. -/
theorem bestRec_reserve {f : Fuses} {x : LeafRec} {isA : Bool} (h : bestRec f = some (x, isA)) (n : Nat) :
    bestRec (if isA then { f with recB := some ⟨x.counter + 1, n⟩ } else { f with recA := some ⟨x.counter + 1, n⟩ }) =
      some (⟨x.counter + 1, n⟩, !isA) := by
  cases ha : f.recA <;> cases hb : f.recB <;> cases isA <;> simp [bestRec, ha, hb] at h ⊢ <;> grind

/-- The leaf that `takeLeaf` hands out is the next one, is one of the 2^20 there are, and is used up. -/
theorem takeLeaf_spec {leaf : Nat} (hinv : LeafInv s) (h : takeLeaf s = some (leaf, t)) :
    leaf = nextLeaf s ∧ leaf < 2 ^ 20 ∧ leaf < nextLeaf t ∧ LeafInv t := by
  obtain ⟨hsvn, htop, hle, hres⟩ := hinv
  simp only [takeLeaf] at h
  split at h
  · cases h
  next x isA hbest =>
  have hx : reservedTop s.fuses = x.next := by simp [reservedTop, hbest]
  split at h
  next hheld =>
    cases h
    simp only [nextLeaf, LeafInv, if_pos hheld]
    refine ⟨trivial, by omega, ?_, hsvn, htop, hheld, hres⟩
    split <;> omega
  next hheld =>
  split at h
  · cases h
  next hroom =>
  cases h
  have hnew := bestRec_reserve hbest (x.next + 1024)
  have htop' : reservedTop (if isA then { s.fuses with recB := some ⟨x.counter + 1, x.next + 1024⟩ } else
      { s.fuses with recA := some ⟨x.counter + 1, x.next + 1024⟩ }) = x.next + 1024 := by simp [reservedTop, hnew]
  have hsvn' : (if isA then { s.fuses with recB := some ⟨x.counter + 1, x.next + 1024⟩ } else
      { s.fuses with recA := some ⟨x.counter + 1, x.next + 1024⟩ } : Fuses).svnFloor = s.fuses.svnFloor := by split <;> rfl
  simp only [nextLeaf, LeafInv, if_neg hheld, htop', hsvn', hx]
  refine ⟨trivial, by omega, ?_, hsvn, by omega, by omega, Nat.le_refl _⟩
  split <;> omega

theorem takeLeaf_leavesAdvance {leaf : Nat} (h : takeLeaf s = some (leaf, t)) : LeavesAdvance s t := by
  intro hinv
  obtain ⟨hleaf, -, hlt, -, htop, hle, hres⟩ := takeLeaf_spec hinv h
  exact ⟨htop, hle, hres, by omega⟩

theorem attest_leavesAdvance (r : Req) : LeavesAdvance s (attest r s) := by
  dsimp only [attest]
  split
  · exact leavesAdvance_of_leaves (by simp) (by simp)
  split
  · exact leavesAdvance_of_leaves (by simp) (by simp)
  split
  · exact leavesAdvance_of_leaves (by simp) (by simp)
  split
  · exact leavesAdvance_of_leaves (by simp) (by simp)
  next htake =>
  intro hinv
  simpa [nextLeaf] using takeLeaf_leavesAdvance htake hinv

theorem execAttest_leavesAdvance {r : ReqId} (h : execAttest r s = .next t) : LeavesAdvance s t := by
  simp only [execAttest, onReqS] at h
  split at h <;> cases h
  · split
    · exact attest_leavesAdvance _
    · exact leavesAdvance_of_leaves rfl rfl
  · exact leavesAdvance_of_leaves rfl rfl

/-! ### The commands -/

theorem touchesFuses_of_touchesBoot (hc : touchesBoot c = false) : touchesFuses c = false := by
  cases c
  case resetInAssert | brownOut | overVoltage | epoAssert | sidebandFault | sensorSample | bootStageDone | fwCommit |
      fwCommitReset | attest => cases hc
  all_goals rfl

/-- By command: outside `touchesBoot` the records and the held leaves stay; a reset loses the held leaves, ATTEST takes
one, and the other commands leave them. -/
theorem exec_leavesAdvance (h : exec c s = .next t) : LeavesAdvance s t := by
  by_cases hc : touchesBoot c = false
  · have hfuses : t.fuses = s.fuses := fusesChangedOnlyByNamedCommands c s t (touchesFuses_of_touchesBoot hc) h
    exact leavesAdvance_of_latchKept (hfuses ▸ ⟨rfl, rfl⟩) (latchKept_of_kept (exec_bootAndPowerKept hc h))
  cases c
  case resetInAssert => exact execResetInAssert_leavesAdvance h
  case inputStable => exact execInputStable_leavesAdvance h
  case overVoltage => exact execOverVoltage_leavesAdvance h
  case sidebandFault => exact execSidebandFault_leavesAdvance h
  case sensorSample => exact execSensorSample_leavesAdvance h
  case attest => exact execAttest_leavesAdvance h
  case resetInRelease =>
    cases h
    exact .of_leaves_left (d := inputSeen (· == .resetIn) s.dev) rfl rfl (resetHigh_leavesAdvance _)
  case brownOut =>
    cases h
    exact powerOff_leavesAdvance _ _ _
  case epoAssert =>
    cases h
    exact .of_leaves_left (d := inputSeen (· == .epo) s.dev) rfl rfl epoLow_leavesAdvance
  case epoDeassert | tripCooled =>
    cases h
    dsimp only
    split <;> exact leavesAdvance_of_leaves rfl rfl
  case fwCommitReset =>
    cases h
    split
    · exact restart_leavesAdvance s 2 fun _ => ⟨rfl, rfl⟩
    · exact leavesAdvance_of_leaves rfl rfl
  case bootStageDone =>
    cases h
    exact leavesAdvance_of_latchKept (bootStageDone_recordsKept ..) (bootStageDone_latchKept ..)
  case fwCommit =>
    cases h
    exact leavesAdvance_of_latchKept (fwCommit_recordsKept ..) (fwCommit_latchKept ..)
  case slotIdSample | slotIdChange | governorTick =>
    cases h
    exact leavesAdvance_of_latchKept ⟨rfl, rfl⟩ (by simp)
  case lowInput | pwrCfgWrite | registerWrite =>
    cases h
    exact leavesAdvance_of_latchKept ⟨rfl, rfl⟩ (ite_keeps (by simp) (.refl _))
  case fwStage | regWrite | regRead =>
    cases h
    exact leavesAdvance_of_latchKept ⟨rfl, rfl⟩ (onReq_latchKept (by simp) ..)
  all_goals exact absurd rfl hc

theorem step_leavesAdvance (h : step s = .next t) : LeavesAdvance s t := by
  simp only [step] at h
  split at h
  · cases h
    exact leavesAdvance_of_latchKept ⟨rfl, rfl⟩ (latchKept_of_kept ⟨tick_boot _, tick_powerKept _⟩)
  · have hadv := exec_leavesAdvance h
    exact hadv

end

/-- Settles O7: `exec_leavesAdvance` for every command, with the floor by `FloorKept`, and `takeLeaf_spec`. -/
theorem noLeafIsUsedTwice : Obligations.NoLeafIsUsedTwice := by
  unfold Obligations.NoLeafIsUsedTwice
  refine ⟨fun s t hinv h => ?_, fun s t leaf => takeLeaf_spec⟩
  obtain ⟨htop, hle, hres, hnext⟩ := step_leavesAdvance h hinv
  exact ⟨⟨(step_floorKept h).le_max hinv.1, htop, hle, hres⟩, hnext⟩

end Sys2Proof.Machine
end

section
/-! The state right after reset (R485, R486), and the tick of an empty queue (R6; log 1). -/

namespace Sys2Proof.Machine

/-! ### Right after reset -/

theorem sram_of_mem_resetCores {g : Grade} {c : Nat × Core} (h : c ∈ resetCores g) : c.2.sram = [] := by
  simp only [resetCores, List.mem_map] at h
  obtain ⟨n, -, rfl⟩ := h
  dsimp only
  repeat' split
  all_goals rfl

theorem tgetD_of_forall {α : Type} {P : α → Prop} {t : Tbl α} (a : Nat) {x : α} (ht : ∀ c ∈ t, P c.2) (hx : P x) :
    P (tgetD t a x) := by
  induction t with
  | nil => exact hx
  | cons c t ih =>
    obtain ⟨k, v⟩ := c
    have hv : P v := ht (k, v) List.mem_cons_self
    have hrest := ih fun c hc => ht c (List.mem_cons_of_mem _ hc)
    by_cases hk : a = k
    · simpa [tgetD, tget, hk] using hv
    · simpa [tgetD, tget, hk] using hrest

/-- Settles O8: the fuses at reset hold one record at leaf 0, no leaf is held, and no core has a byte of SRAM. -/
theorem resetMeetsTheInvariant : Obligations.ResetMeetsTheInvariant := by
  unfold Obligations.ResetMeetsTheInvariant
  refine ⟨by unfold LeafInv; decide, rfl, rfl, rfl, rfl, fun n => ?_⟩
  exact tgetD_of_forall (P := fun c : Core => c.sram = []) n (fun _ hc => sram_of_mem_resetCores (g := .a) hc) rfl

/-- Settles O10: the fields of `State.reset`, one by one. -/
theorem resetRegisterValues : Obligations.ResetRegisterValues := by
  unfold Obligations.ResetRegisterValues
  intro d
  and_intros <;> rfl

/-! ### The tick -/

theorem tick_of_rails_off {d : Dev} (h : d.pwr.rails = false) : tick d = d := by
  simp [tick, h]

theorem tick_of_rails_on {d : Dev} (h : d.pwr.rails = true) :
    tick d = { helloTick (rillTick (weirTick d)) with time := countTick (helloTick (rillTick (weirTick d))).time } := by
  simp [tick, h]

theorem countTick_of_no_slew {t : TimeBase} (h : t.slew = 0) : countTick t = { t with now := t.now + 1, ticks := t.ticks + 1 } := by
  simp [countTick, h]

@[simp] theorem weirTick_time (d : Dev) : (weirTick d).time = d.time := rfl
@[simp] theorem rillTick_time (d : Dev) : (rillTick d).time = d.time := by
  unfold rillTick; dsimp only; split <;> rfl
@[simp] theorem helloTick_time (d : Dev) : (helloTick d).time = d.time :=
  foldl_keeps Dev.time sendHello (fun _ _ => rfl) d _

theorem rillTick_eq (d : Dev) : rillTick d = { d with rill := (rillTick d).rill } := by
  unfold rillTick; dsimp only; split <;> rfl

/-- No LINK_HELLO is due: every port in HELLO sent its last less than 10 µs ago (R179). -/
theorem helloTick_of_none_due {d : Dev}
    (h : ∀ x ∈ d.fab.ports, x.2.state = .hello → x.2.creditsKnown = false → d.time.now < x.2.helloAt + 10000) :
    helloTick d = d := by
  have hnone : (d.fab.ports.filter fun x => x.2.state == .hello && !x.2.creditsKnown &&
      decide (x.2.helloAt + 10000 ≤ d.time.now)) = [] := by
    rw [List.filter_eq_nil_iff]
    intro x hx
    simpa using h x hx
  simp [helloTick, hnone]

/-- Settles O2: with the rails off a tick does nothing; with them on it counts, and besides the waiting times it only
repeats LINK_HELLO. -/
theorem emptyQueueCountsOneNanosecond : Obligations.EmptyQueueCountsOneNanosecond := by
  unfold Obligations.EmptyQueueCountsOneNanosecond
  intro s hq
  have hstep : step s = .next (idle s) := by simp [step, hq]
  refine ⟨fun hoff => by rw [hstep, idle, tick_of_rails_off hoff], fun hon hslew => ⟨idle s, hstep, hq, rfl, ?_, fun hdue => ?_⟩⟩
  · simp [idle, tick_of_rails_on hon, countTick_of_no_slew hslew]
  · have hhello : helloTick (rillTick (weirTick s.dev)) = rillTick (weirTick s.dev) := by
      refine helloTick_of_none_due ?_
      rw [rillTick_eq]
      exact hdue
    simp only [idle, tick_of_rails_on hon, hhello]
    rw [rillTick_eq]
    rfl

end Sys2Proof.Machine
end

section
/-! Device DRAM under a partition's page list (R292 to R297, R302): what a write puts where, and what it leaves. -/

namespace Sys2Proof.Machine

/-! ### Addresses -/

/-- Where a page list puts a DRAM address. -/
def physAt (pages : List Nat) (x : Nat) : Nat := pages.getD (x / pageSize) 0 * pageSize + x % pageSize

theorem pageSize_pos : 0 < pageSize := by decide

/-- A DRAM address inside the quota has a page. -/
def Paged (pages : List Nat) (x : Nat) : Prop := x / pageSize < pages.length

theorem locate_dram {d : Dev} {p x : Nat} (engine : Bool) (hx : x < dramTop) (hp : Paged (d.part p).pages x) :
    locate d p engine x = .dram (physAt (d.part p).pages x) := by
  simp [locate, hx, List.getElem?_eq_getElem hp, physAt]

theorem locate_outside {d : Dev} {p x : Nat} (engine : Bool) (hx : x < dramTop) (hp : ¬ Paged (d.part p).pages x) :
    locate d p engine x = .outside := by
  simp [locate, hx, List.getElem?_eq_none (Nat.le_of_not_lt hp)]

/-- Below the DRAM top an address is decoded by the page list alone. -/
theorem locate_congr {d e : Dev} {p x : Nat} (engine : Bool) (hx : x < dramTop) (h : (e.part p).pages = (d.part p).pages) :
    locate e p engine x = locate d p engine x := by
  simp [locate, hx, h]

/-- With no page named twice, two addresses of the quota are at two places. -/
theorem physAt_inj {pages : List Nat} (hnd : pages.Nodup) {x y : Nat} (hx : Paged pages x) (hy : Paged pages y)
    (h : physAt pages x = physAt pages y) : x = y := by
  simp only [physAt, List.getD_eq_getElem _ 0 hx, List.getD_eq_getElem _ 0 hy] at h
  have hmod : x % pageSize = y % pageSize := by
    have := congrArg (· % pageSize) h
    simpa [Nat.mul_add_mod'] using this
  have hpage : pages[x / pageSize] = pages[y / pageSize] := by
    rw [hmod] at h
    exact Nat.eq_of_mul_eq_mul_right pageSize_pos (Nat.add_right_cancel h)
  have hdiv : x / pageSize = y / pageSize := (hnd.getElem_inj_iff).mp hpage
  rw [← Nat.div_add_mod x pageSize, ← Nat.div_add_mod y pageSize, hdiv, hmod]

theorem paged_of_okRange {d : Dev} {p a n i : Nat} {engine : Bool} (h : okRange d p engine a n = true) (htop : a + n ≤ dramTop)
    (hi : i < n) : Paged (d.part p).pages (a + i) := by
  by_contra hp
  have hplain := List.all_eq_true.mp h (locate d p engine (a + i)) (List.mem_map.mpr ⟨i, List.mem_range.mpr hi, rfl⟩)
  rw [locate_outside engine (by omega) hp] at hplain
  cases hplain

/-! ### The bytes of a DRAM write -/

/-- Bytes written one after another at the places that f gives. -/
def scatter (f : Nat → Nat) (a : Nat) (bs : List Byte) (m : Memory) : Memory :=
  match bs with
  | [] => m
  | b :: bs => scatter f (a + 1) bs (mput m (f a) b)

theorem scatter_wf (f : Nat → Nat) (a : Nat) (bs : List Byte) {m : Memory} (h : Memory.wf m = true) :
    Memory.wf (scatter f a bs m) = true := by
  induction bs generalizing a m with
  | nil => exact h
  | cons b bs ih => exact ih _ (mput_wf m (f a) b h)

theorem mget_scatter_out {f : Nat → Nat} {a x : Nat} {bs : List Byte} (m : Memory) (h : ∀ i < bs.length, x ≠ f (a + i)) :
    mget (scatter f a bs m) x = mget m x := by
  induction bs generalizing a m with
  | nil => rfl
  | cons b bs ih =>
    rw [List.length_cons] at h
    rw [scatter, ih _ fun i hi => ?_, mget_mput_ne _ _ (by simpa using h 0 (Nat.zero_lt_succ _))]
    have := h (i + 1) (by omega)
    rwa [show a + 1 + i = a + (i + 1) by omega]

theorem mget_scatter_in {f : Nat → Nat} {a i : Nat} {bs : List Byte} {m : Memory} (hm : Memory.wf m = true) (hi : i < bs.length)
    (hf : ∀ j < bs.length, ∀ k < bs.length, f (a + j) = f (a + k) → j = k) : mget (scatter f a bs m) (f (a + i)) = bs[i] := by
  induction bs generalizing a i m with
  | nil => simp at hi
  | cons b bs ih =>
    rw [List.length_cons] at hi hf
    have hshift (j : Nat) : a + 1 + j = a + (j + 1) := by omega
    rw [scatter]
    cases i with
    | zero =>
      rw [mget_scatter_out _ fun j hj he => ?_]
      · exact mget_mput_same m (f a) b hm
      · rw [hshift] at he
        have := hf 0 (by omega) (j + 1) (by omega) he
        omega
    | succ i =>
      have hbs := ih (a := a + 1) (i := i) (mput_wf m (f a) b hm) (by omega) fun j hj k hk he => by
        rw [hshift, hshift] at he
        have := hf (j + 1) (by omega) (k + 1) (by omega) he
        omega
      rwa [hshift] at hbs

theorem locs_succ (d : Dev) (p : Nat) (engine : Bool) (a n : Nat) :
    locs d p engine a (n + 1) = locate d p engine a :: locs d p engine (a + 1) n := by
  simp [locs, List.range_succ_eq_map, Function.comp_def, Nat.add_assoc, Nat.add_comm 1]

/-- Writing bytes at the places of a range of DRAM, on a device e that may differ from the one that decodes. -/
theorem foldl_writeLoc_dram {d : Dev} {p a : Nat} {engine : Bool} {bs : List Byte} (e : Dev) (htop : a + bs.length ≤ dramTop)
    (hp : ∀ i < bs.length, Paged (d.part p).pages (a + i)) :
    ((locs d p engine a bs.length).zip bs).foldl (fun e x => writeLoc e p x.2 x.1) e =
      { e with mem := { e.mem with dram := scatter (physAt (d.part p).pages) a bs e.mem.dram } } := by
  induction bs generalizing a e with
  | nil => rfl
  | cons b bs ih =>
    rw [List.length_cons] at htop hp
    have ha : Paged (d.part p).pages a := hp 0 (by omega)
    rw [List.length_cons, locs_succ, locate_dram engine (by omega) ha, List.zip_cons_cons, List.foldl_cons,
      ih _ (by omega) fun i hi => ?_]
    · rfl
    · have := hp (i + 1) (by omega)
      rwa [show a + 1 + i = a + (i + 1) by omega]

/-! ### The rest of a write -/

/-- What an update of one partition's record leaves in the record, it leaves in every partition's. -/
theorem part_modPart_keeps {α : Type} (d : Dev) (p q : Nat) {f : Part → Part} (g : Part → α) (hf : ∀ x, g (f x) = g x) :
    g ((d.modPart p f).part q) = g (d.part q) := by
  by_cases h : q = p
  · rw [h, Dev.part_modPart, hf]
  · rw [Dev.part_modPart_ne d f h]

@[simp] theorem noteChange_mem (d : Dev) (p a : Nat) (old new : List Byte) : (noteChange d p a old new).mem = d.mem := by
  unfold noteChange; split <;> rfl
@[simp] theorem noteChange_pages (d : Dev) (p a : Nat) (old new : List Byte) :
    ((noteChange d p a old new).part p).pages = (d.part p).pages := by
  unfold noteChange; split
  · rfl
  · exact part_modPart_keeps _ p p Part.pages fun _ => rfl
@[simp] theorem touchLines_mem (d : Dev) (ls : List Loc) : (touchLines d ls).mem = d.mem := by
  unfold touchLines; split <;> rfl
@[simp] theorem touchLines_part (d : Dev) (ls : List Loc) (p : Nat) : (touchLines d ls).part p = d.part p := by
  unfold touchLines; split <;> rfl
@[simp] theorem unpoison_dram (d : Dev) (p : Nat) (ls : List Loc) : (unpoison d p ls).mem.dram = d.mem.dram := by
  unfold unpoison; dsimp only; repeat' split
  all_goals rfl
@[simp] theorem unpoison_pages (d : Dev) (p : Nat) (ls : List Loc) : ((unpoison d p ls).part p).pages = (d.part p).pages := by
  unfold unpoison; dsimp only; repeat' split
  case isTrue.isTrue.isTrue | isTrue.isFalse.isTrue | isFalse.isTrue.isTrue | isFalse.isFalse.isTrue => rfl
  all_goals exact part_modPart_keeps _ p p Part.pages fun _ => rfl
theorem unpoison_poison (d : Dev) (p : Nat) (ls : List Loc) : (unpoison d p ls).mem.poison =
    if d.mem.poison.isEmpty then d.mem.poison
    else d.mem.poison.filter fun l => !(List.range 64).all fun i => ls.contains (.dram (64 * l + i)) := by
  unfold unpoison; dsimp only; repeat' split
  all_goals rfl

/-- A line that a write does not cover in full stays poisoned (R302). -/
theorem mem_poison_unpoison {d : Dev} {p l i : Nat} {ls : List Loc} (h : l ∈ d.mem.poison) (hi : i < 64)
    (hl : Loc.dram (64 * l + i) ∉ ls) : l ∈ (unpoison d p ls).mem.poison := by
  rw [unpoison_poison]
  split
  · exact h
  · have hnot : ((List.range 64).all fun i => ls.contains (.dram (64 * l + i))) = false := by
      rw [List.all_eq_false]
      exact ⟨i, List.mem_range.mpr hi, by simpa using hl⟩
    exact List.mem_filter.mpr ⟨h, by rw [hnot]; rfl⟩

/-! ### Reads after a write -/

section
variable {d : Dev} {p a : Nat} {bs : List Byte}

theorem writeRange_mem_dram (engine : Bool) (htop : a + bs.length ≤ dramTop) (hp : ∀ i < bs.length, Paged (d.part p).pages (a + i)) :
    (writeRange d p engine a bs).mem.dram = scatter (physAt (d.part p).pages) a bs d.mem.dram := by
  simp [writeRange, foldl_writeLoc_dram _ htop hp]

theorem writeRange_pages (engine : Bool) (htop : a + bs.length ≤ dramTop) (hp : ∀ i < bs.length, Paged (d.part p).pages (a + i)) :
    ((writeRange d p engine a bs).part p).pages = (d.part p).pages := by
  simp only [writeRange, foldl_writeLoc_dram _ htop hp, touchLines_part, unpoison_pages]
  exact noteChange_pages ..

theorem mem_poison_writeRange (engine : Bool) {l i : Nat} (htop : a + bs.length ≤ dramTop)
    (hp : ∀ i < bs.length, Paged (d.part p).pages (a + i)) (h : l ∈ d.mem.poison) (hi : i < 64)
    (hl : Loc.dram (64 * l + i) ∉ locs d p engine a bs.length) : l ∈ (writeRange d p engine a bs).mem.poison := by
  simp only [writeRange, foldl_writeLoc_dram _ htop hp, touchLines_mem]
  exact mem_poison_unpoison (by simpa using h) hi hl

theorem readRange_getElem (d : Dev) (p : Nat) (engine : Bool) (a : Nat) {n i : Nat} (hi : i < (readRange d p engine a n).length) :
    (readRange d p engine a n)[i] = readLoc d p (locate d p engine (a + i)) := by
  simp [readRange, locs]

theorem readLoc_dram_writeRange_out {b : Nat} (hnd : (d.part p).pages.Nodup) (htop : a + bs.length ≤ dramTop)
    (hp : ∀ i < bs.length, Paged (d.part p).pages (a + i)) (hb : b < dramTop) (hout : b < a ∨ a + bs.length ≤ b) (engine : Bool) :
    readLoc (writeRange d p engine a bs) p (locate d p engine b) = readLoc d p (locate d p engine b) := by
  by_cases hpb : Paged (d.part p).pages b
  · rw [locate_dram engine hb hpb]
    simp only [readLoc, writeRange_mem_dram engine htop hp]
    refine mget_scatter_out _ fun i hi he => ?_
    have := physAt_inj hnd hpb (hp i hi) he
    omega
  · rw [locate_outside engine hb hpb]
    rfl

theorem readLoc_dram_writeRange_in {i : Nat} (hnd : (d.part p).pages.Nodup) (hwf : Memory.wf d.mem.dram = true)
    (htop : a + bs.length ≤ dramTop) (hp : ∀ i < bs.length, Paged (d.part p).pages (a + i)) (hi : i < bs.length) (engine : Bool) :
    readLoc (writeRange d p engine a bs) p (locate d p engine (a + i)) = bs[i] := by
  rw [locate_dram engine (by omega) (hp i hi)]
  simp only [readLoc, writeRange_mem_dram engine htop hp]
  refine mget_scatter_in hwf hi fun j hj k hk he => ?_
  have := physAt_inj hnd (hp j hj) (hp k hk) he
  omega

end

/-- Settles O60: the range's bytes lie at pairwise different places, so each reads back, and no other address of the
partition is at one of them. -/
theorem dramReadsBack : Obligations.DramReadsBack := by
  unfold Obligations.DramReadsBack
  intro d p a bs hnd hwf htop hok
  have hp : ∀ i < bs.length, Paged (d.part p).pages (a + i) := fun i => paged_of_okRange hok htop
  have hpages := writeRange_pages false htop hp
  refine ⟨?_, fun b hb hout => ?_, hpages, ?_, fun l hl ⟨i, hi, hout⟩ => mem_poison_writeRange false htop hp hl hi hout⟩
  · refine List.ext_getElem (by simp [readRange, locs]) fun i h1 h2 => ?_
    rw [readRange_getElem, locate_congr false (by omega) hpages, readLoc_dram_writeRange_in hnd hwf htop hp h2]
  · refine List.ext_getElem (by simp [readRange, locs]) fun i h1 h2 => ?_
    obtain rfl : i = 0 := by simpa [readRange, locs] using h2
    rw [readRange_getElem, readRange_getElem, Nat.add_zero, locate_congr false hb hpages,
      readLoc_dram_writeRange_out hnd htop hp hb hout]
  · rw [writeRange_mem_dram false htop hp]
    exact scatter_wf _ a bs hwf

end Sys2Proof.Machine
end

section
/-! Cells of the fabric (R182 to R195): the 80 bytes of a cell, and what the commands of the fabric itself do. -/

namespace Sys2Proof.Machine

/-! ### The 80 bytes of a cell (R182) -/

/-- The header spells every field of the cell at its place. -/
theorem headerCell_cellHeader (c : Cell) (x : BitVec 512) (ok : Bool) :
    headerCell (cellHeader c) x ok = { c with crcOk := ok, pay := .bits x } := by
  have hdest : (cellHeader c).extractLsb' 80 16 = c.dest := by
    unfold cellHeader
    repeat rw [BitVec.extractLsb'_append_eq_of_le (by decide)]
    exact BitVec.extractLsb'_eq_self
  have hbits : bit (cellHeader c) 8 = c.last ∧ bit (cellHeader c) 9 = c.retry ∧ bit (cellHeader c) 10 = c.combine ∧
      bit (cellHeader c) 11 = c.flagStore := by
    unfold cellHeader bit
    repeat rw [BitVec.getLsbD_append]
    simp
  have hlow : (cellHeader c).extractLsb' 0 6 = c.rsvd := BitVec.extractLsb'_append_eq_right
  obtain ⟨hlast, hretry, hcombine, hflag⟩ := hbits
  simp only [headerCell, hdest, hlast, hretry, hcombine, hflag, hlow, Cell.mk.injEq, true_and, and_true]
  unfold cellHeader
  and_intros
  -- A field between others: those below it are shifted out, those above it cut off.
  all_goals
    repeat rw [BitVec.extractLsb'_append_eq_of_le (by decide)]
    exact BitVec.extractLsb'_append_eq_right

theorem leNat_toLe_of_lt {n v : Nat} (h : v < 256 ^ n) : leNat (toLe n v) = v := by
  rw [leNat_toLe, Nat.mod_eq_of_lt h]

/-- The payload of a cell with 64 bytes of it. -/
theorem imageCell_cellImage {c : Cell} {x : BitVec 512} (hpay : c.pay = .bits x) (hcrc : c.crcOk = true) :
    imageCell (cellImage c) = c := by
  have hhdr : leNat (toLe 12 (cellHeader c).toNat) = (cellHeader c).toNat :=
    leNat_toLe_of_lt (by have := (cellHeader c).isLt; omega)
  have hbits : leNat (toLe 64 (payBits c).toNat) = (payBits c).toNat :=
    leNat_toLe_of_lt (Nat.lt_of_lt_of_eq (payBits c).isLt (by rw [show 256 = 2 ^ 8 by rfl, ← Nat.pow_mul]))
  let body := toLe 12 (cellHeader c).toNat ++ toLe 64 (payBits c).toNat
  have hsum : leNat (toLe 4 (crc32c body)) = crc32c body := leNat_toLe_of_lt (crc32c_lt body)
  have hlen : body.length = 76 := by simp [body]
  have himg : cellImage c = body ++ toLe 4 (crc32c body) := rfl
  have h12 : (cellImage c).take 12 = toLe 12 (cellHeader c).toNat := by simp [himg, body]
  have h64 : ((cellImage c).drop 12).take 64 = toLe 64 (payBits c).toNat := by simp [himg, body]
  have h76 : (cellImage c).take 76 = body := by rw [himg, List.take_left' hlen]
  have hcheck : (cellImage c).drop 76 = toLe 4 (crc32c body) := by rw [himg, List.drop_left' hlen]
  rw [imageCell, h12, h64, h76, hcheck, hhdr, hbits, hsum, BitVec.ofNat_toNat, BitVec.ofNat_toNat,
    BitVec.setWidth_eq, BitVec.setWidth_eq, headerCell_cellHeader]
  simp only [payBits, hpay, beq_self_eq_true, ← hcrc]
  rw [← hpay]

theorem length_cellImage (c : Cell) : (cellImage c).length = 80 := by simp [cellImage]

/-! ### Cells that arrive -/

section
variable {d d1 : Dev} {port : Nat} {c : Cell} {types : List Nat}

/-- A delivered cell is handed to its handler. -/
theorem onCell_of_delivered (h : Delivered d port c types d1) (f : Dev → Dev) : onCell d port c types f = f d1 := by
  obtain ⟨hscreen, hty⟩ := h
  simp [onCell, hscreen, hty]

theorem onCell_of_onward (h : screen d port c = .onward d1) (f : Dev → Dev) : onCell d port c types f = route d1 c := by
  simp [onCell, h]

theorem Delivered.type_mem (h : Delivered d port c types d1) : c.ty.toNat ∈ types := h.2

/-- A cell that waits for no tokens is handed to its handler once it has left its input buffer. -/
theorem onCellWhen_of_served {waits : Dev → Cell → Bool} (h : Served waits d port c types d1) (f : Dev → Dev) :
    onCellWhen waits d port c types f = f d1 := by
  obtain ⟨hwaits, hd⟩ := h
  simp [onCellWhen, hwaits, onCell_of_delivered hd f]

/-- A cell that must wait for tokens stays in its input buffer. -/
theorem onCellWhen_of_waits {waits : Dev → Cell → Bool} (hty : c.ty.toNat ∈ types) (h : waits d c = true) (f : Dev → Dev) :
    onCellWhen waits d port c types f = holdCell d port c := by
  simp [onCellWhen, hty, h]

end

/-! ### The commands -/

theorem linkStateCell_of_rack {c : Cell} {d : Dev} (hrack : devRack c.src = rackNum d) (hsrc : c.src ≠ myId d) :
    linkStateCell c d = { d with fab := { d.fab with
      links := (List.range 28).foldl (fun t i =>
        tput t (28 * devPos c.src + i) (fld (payBits c) (2 * i + 1) (2 * i))) d.fab.links } } := by
  simp [linkStateCell, hrack, hsrc]

theorem unreach_of_pay {c : Cell} {dest : DevId} {plane : BitVec 4} (d : Dev) (h : c.pay = .unreach dest plane) :
    unreach c d = enterZexcl (fabErr d 0) dest plane.toNat := by
  simp [unreach, h]

theorem exec_cellForward (port : Nat) (c : Cell) (s : State) :
    exec (.cellForward port c) s = .next (s.putDev (onCell s.dev port c [] id)) := rfl
theorem exec_linkState (port : Nat) (c : Cell) (s : State) :
    exec (.linkState port c) s = .next (s.putDev (onCell s.dev port c [tyLinkState] (linkStateCell c))) := rfl
theorem exec_linkStatePeriod (s : State) :
    exec .linkStatePeriod s = .next (s.putDev (if opticsOn s.dev then announce s.dev else s.dev)) := rfl
theorem exec_unreach (port : Nat) (c : Cell) (s : State) :
    exec (.unreach port c) s = .next (s.putDev (onCell s.dev port c [tyUnreach] (unreach c))) := rfl

/-- Settles O28: the header's fields lie side by side, and each command's handler is what the cell is delivered to. -/
theorem fabricCellsComplete : Obligations.FabricCellsComplete := by
  unfold Obligations.FabricCellsComplete
  refine ⟨fun c x hpay hcrc => ⟨length_cellImage c, imageCell_cellImage hpay hcrc⟩, fun port c s d h => ?_,
    fun port c s d h hrack hsrc => ?_, fun s hon => ?_, fun port c s d dest plane h hpay => ?_, fun _ _ _ => rfl⟩
  · rw [exec_cellForward, onCell_of_onward h]
  · rw [exec_linkState, onCell_of_delivered h, linkStateCell_of_rack hrack hsrc]
  · rw [exec_linkStatePeriod, if_pos hon]
  · rw [exec_unreach, onCell_of_delivered h, unreach_of_pay d hpay]

end Sys2Proof.Machine
end

section
/-! Commands of an Expert Core and of its movers (R55 to R87): what each leaves when it may issue. -/

namespace Sys2Proof.Machine

/-! ### A command is a function of the device -/

section
variable {n : Nat} {f : Dev → Dev} {s : State} {d : Dev}

theorem onDev_eq (h : f s.dev = d) : onDev f s = .next (s.putDev d) := by
  rw [← h]; rfl

theorem onLive_eq (hrails : s.dev.pwr.rails = true) (h : f s.dev = d) : onLive f s = .next (s.putDev d) :=
  onDev_eq (by rw [if_pos hrails, h])

theorem onTile_eq (h : f s.dev = d) : onTile n f s = .next (s.putDev (replayCheck n d)) := by
  rw [← h]; rfl

end

/-! ### The array -/

theorem stored_of_sound {t : Task} (h : t.broken = false) (d : Dev) (bs : List Byte) : stored d t bs = (bs, d) := by
  simp [stored, h]

theorem storedRows_of_sound {t : Task} (h : t.broken = false) (d : Dev) (b : Bank) (r0 m : Nat) :
    storedRows d t b r0 m = (b, d) := by
  simp [storedRows, h]

/-- Settles O11: `issueTo` and the checks select the last branch of each command. -/
theorem arrayCommandsComplete : Obligations.ArrayCommandsComplete := by
  unfold Obligations.ArrayCommandsComplete
  refine ⟨fun n w s pc t => ⟨?_, ?_, ?_, ?_, ?_⟩,
    fun d t b r0 m bs hsound => ⟨stored_of_sound hsound d bs, storedRows_of_sound hsound d b r0 m⟩⟩
  · intro hissue hsram
    exact onTile_eq (by simp only [ldw, hissue, hsram])
  · intro hissue hnull
    exact onTile_eq (by simp only [mm, hissue, hnull, if_true])
  · intro hissue hnull hsram hfmt hbank
    have hnoFault : ¬ ((planeOf (s.dev.core pc) (cPlane w)).fmt ≠ some (mmWfmt w) ∨
        (!mmZero w) = true ∧ (bankOf (s.dev.core pc) (mmAcc w)).int ≠ intPair (mmWfmt w)) := by
      rintro (h | ⟨hzero, h⟩)
      · exact h hfmt
      · exact h (hbank (by simpa using hzero))
    exact onTile_eq (by simp only [mm, hissue, hnull, hsram, if_neg hnoFault, Bool.false_eq_true, if_false])
  · intro hissue hnull
    exact onTile_eq (by simp only [accOut, hissue, hnull, if_true])
  · intro hissue hnull hranges hbank
    have hnoFault : ¬ ((!rangesOk s.dev t w) = true ∨ (bankOf (s.dev.core pc) (cPlane w)).int ≠ (aoFmt w == 0xB)) := by
      simp [hranges, hbank]
    exact onTile_eq (by simp only [accOut, hissue, hnull, if_neg hnoFault, Bool.false_eq_true, if_false])

/-- Settles O12: with no fault found, VOP and CVT store what they compute. -/
theorem vectorCommandsComplete : Obligations.VectorCommandsComplete := by
  unfold Obligations.VectorCommandsComplete
  intro n w s pc t
  constructor
  · intro hissue hsram
    exact onTile_eq (by simp only [vop, hissue, hsram])
  · intro hissue hsram
    exact onTile_eq (by simp only [cvt, hissue, hsram])

/-! ### The movers -/

/-- Settles O13: the checks of a MOV and of its two events select the branch that moves. -/
theorem moverCommandsComplete : Obligations.MoverCommandsComplete := by
  unfold Obligations.MoverCommandsComplete
  refine ⟨?_, ?_, ?_, ?_⟩
  · intro n w s pc t hissue hnull hranges hctl hreplay
    have hnoFault : ¬ ((!rangesOk s.dev t w) = true ∨ toCtl w = true ∧ (!ctlMovOk t.part w) = true) := by
      simpa [hranges] using hctl
    have hnotSkipped : (t.suppressed && movOut w && toCtl w) = false := by
      cases hout : movOut w <;> cases hto : toCtl w <;> simp [hreplay, hout, hto]
    exact onTile_eq (by simp only [mov, hissue, hnull, if_neg hnoFault, hnotSkipped, Bool.false_eq_true, if_false])
  · intro n m s pc t x bs d hhead hhalf hnot hmoved
    exact onDev_eq (by simp [moverHalfEvent, hhead, hhalf, hnot, hmoved])
  · intro n m s pc t x bs d hhead hhalf hctl hmoved hplace
    have hdue : ¬ (movHalf x.w = true ∧ (!x.half) = true) := by
      rintro ⟨h, hnot⟩
      simp [hhalf h] at hnot
    have hreach : (movOut x.w && !toCtl x.w && !okFor d t.part (cmdOp d pc x.idx) false (movD x.w + movLen x.w)
        (crcLen (movCrc x.w))) = false := by
      cases hout : movOut x.w
      · rfl
      · simp [hplace hout]
    exact onDev_eq (by
      simp only [moverFullEvent, hhead, if_neg hdue, hmoved, hreach, Bool.false_eq_true, if_false]
      simp only [hctl, Bool.false_and, Bool.false_eq_true, if_false])
  · intro n u s pc t x hcore htask hunit hfirst
    have hpop : commandComplete n u s.dev = popUnit s.dev pc u x := by
      simp only [List.mem_cons, List.not_mem_nil, or_false] at hunit
      rcases hunit with rfl | rfl | rfl | rfl <;> simp only [commandComplete, hcore, htask, hfirst]
    exact onDev_eq hpop

/-! ### Control commands -/

/-- Settles O14: outside a replay each control command takes the branch of its first execution. -/
theorem controlCommandsComplete : Obligations.ControlCommandsComplete := by
  unfold Obligations.ControlCommandsComplete
  intro n w s pc t hlive
  refine ⟨?_, ?_, ?_, ?_, ?_, ?_⟩
  · intro hissue hfree hcount hdec hld
    exact onTile_eq (by simp [wait, hissue, hfree, hcount, passWait, hlive, hdec, hld])
  · intro hissue hfree hcount
    exact onTile_eq (by simp [wait, hissue, hfree, hlive, Nat.not_le.mpr hcount])
  · intro hissue hheld hcount
    exact onTile_eq (by simp only [waitSatisfied, hissue, hheld, ge_iff_le, if_pos hcount])
  · intro hissue hidle
    exact onTile_eq (by simp [sig, hissue, hidle, hlive])
  · intro hissue hset
    exact onTile_eq (by simp [digestSet, hissue, hset])
  · intro hissue hflush
    exact onTile_eq (by simp [digestFlush, hissue, hflush, hlive])

/-! ### Engine commands -/

/-- The exchange that Sluice takes of a command whose turn it is. -/
theorem xchg_of_turn {d : Dev} {n kind pc : Nat} {w : Cmd} {t : Task} (hissue : issueTo d n 0xD w .port = some (pc, t))
    (hkind : xchgKind w = kind) (hlive : t.suppressed = false) (hdesc : engCheck d pc n t w 8 8 = none)
    (hadmits : xchgAdmits d n t.part w = true)
    (hturn : portTurn d 0xD (xchgAdmits d) d.slc.lastPart d.slc.used = some t.part)
    (hfirst : firstCome d 0xD (xchgAdmits d) d.slc.held n t.part = true) :
    xchg kind n w d = portAccepted (xchgPost { d with slc := { d.slc with
      lastPart := t.part, used := usedNow d d.slc.lastPart d.slc.used t.part
      held := d.slc.held.filter (· != n) } } t.part n t.sub (engDesc w) kind) pc (flight d t w none) := by
  simp [xchg, hissue, hkind, hlive, hdesc, hadmits, hturn, hfirst]

/-- The collective that Rill takes of a command whose turn it is. -/
theorem coll_of_turn {d : Dev} {n op pc : Nat} {w : Cmd} {t : Task} (hissue : issueTo d n 0xE w .port = some (pc, t))
    (hop : collOp d n t.part w = op) (hlive : t.suppressed = false) (hdesc : engCheck d pc n t w 0 56 = none)
    (hadmits : collAdmits d n t.part w = true)
    (hturn : portTurn d 0xE (collAdmits d) d.rill.lastPart d.rill.used = some t.part)
    (hfirst : firstCome d 0xE (collAdmits d) d.rill.held n t.part = true) :
    coll op n w d = portAccepted (collPost { d with rill := { d.rill with
      lastPart := t.part, used := usedNow d d.rill.lastPart d.rill.used t.part
      held := d.rill.held.filter (· != n) } } t.part n t.sub (engDesc w) (collComm w)) pc (flight d t w none) := by
  simp [coll, hissue, hop, hlive, hdesc, hadmits, hturn, hfirst]

/-- Settles O15: a command that its engine could take, in its turn, is taken. -/
theorem engineCommandsComplete : Obligations.EngineCommandsComplete := by
  unfold Obligations.EngineCommandsComplete
  intro n w s pc t hlive
  refine ⟨?_, ?_, ?_, ?_⟩
  · intro hissue hslot hroom
    have hloaded : (tget s.dev.gate.descs (256 * t.part + gpSlot w)).isNone = false := by
      simpa using hslot
    exact onTile_eq (by simp [gatePush, hissue, hlive, hloaded, Nat.not_le.mpr hroom])
  · intro hissue hdesc hadmits hturn hfirst
    exact ⟨fun hkind => onTile_eq (xchg_of_turn hissue hkind hlive hdesc hadmits hturn hfirst),
      fun hkind => onTile_eq (xchg_of_turn hissue hkind hlive hdesc hadmits hturn hfirst)⟩
  · intro hissue hdesc hadmits hfirst hturn
    have hcoll {op : Nat} (hop : collOp s.dev n t.part w = op) :=
      onTile_eq (n := n) (coll_of_turn hissue hop hlive hdesc hadmits hturn hfirst)
    exact ⟨hcoll, hcoll, hcoll, hcoll, hcoll, hcoll⟩
  · intro hissue hidle hsignals hholding
    exact onTile_eq (by simp [endTask, hissue, hidle, hsignals, hholding])

end Sys2Proof.Machine
end

section
/-! The step barrier, the job barrier, the sequencer's vote, commit and snapshots (R78, R283 to R285, R420, R478
to R480): what each command leaves. -/

namespace Sys2Proof.Machine

/-- A delivered cell is a command on the device that screening leaves. -/
theorem onCell_eq {s : State} {d e : Dev} {port : Nat} {c : Cell} {types : List Nat} {f : Dev → Dev}
    (hcell : Delivered s.dev port c types d) (h : f d = e) :
    onDev (fun d => onCell d port c types f) s = .next (s.putDev e) :=
  onDev_eq (by rw [onCell_of_delivered hcell, h])

/-! ### STEP and its release -/

@[simp] theorem part_modCoreTask (d : Dev) (pc p : Nat) (f : Task → Task) : (modCoreTask d pc f).part p = d.part p := rfl

theorem barrierUp_of_not_full {d : Dev} {p : Nat} {b : Barrier} (hbarrier : (d.part p).barrier = some b) (hfull : b.full = false) :
    barrierUp d p = d := by
  simp [barrierUp, hbarrier, hfull]

/-- The first arrival of a barrier with several participants opens it. -/
theorem stepCmd_opens {d : Dev} {n pc : Nat} {w : Cmd} {t : Task} (hissue : issueNext d n 0x11 w = some (pc, t))
    (hidle : t.idle = true) (hlive : t.suppressed = false) (hnone : (d.part t.part).barrier = none) (hmany : 1 < stepParts w) :
    stepCmd n w d = (modCoreTask d pc fun t => { t with atStep := true, effects := logBit t.effects t.ip }).modPart t.part fun x =>
      { x with barrier := some ⟨stepParts w, stepJob w, [n], false, none, false⟩ } := by
  have hfull : Barrier.full ⟨stepParts w, stepJob w, [n], false, none, false⟩ = false := by
    simp [Barrier.full, hmany]
  simp only [stepCmd, hissue, hidle, hlive, hnone, Option.getD_none]
  simpa using barrierUp_of_not_full (by simp) hfull

/-- A further arrival joins the barrier that is open. -/
theorem stepCmd_joins {d : Dev} {n pc : Nat} {w : Cmd} {t : Task} {b : Barrier} (hissue : issueNext d n 0x11 w = some (pc, t))
    (hidle : t.idle = true) (hlive : t.suppressed = false) (hopen : (d.part t.part).barrier = some b)
    (hparts : b.participants = stepParts w) (hjob : b.job = stepJob w) :
    stepCmd n w d = barrierUp ((modCoreTask d pc fun t => { t with
      atStep := true, effects := logBit t.effects t.ip }).modPart t.part fun x =>
      { x with barrier := some { b with arrived := b.arrived ++ [n] } }) t.part := by
  simp [stepCmd, hissue, hidle, hlive, hopen, hparts, hjob]

section
variable {d : Dev} {p : Nat} {b : Barrier}

theorem stepBarrierRelease_plain (hbarrier : (d.part p).barrier = some b) (hmay : mayRelease (d.part p) = true)
    (hsnap : (releaseSays (d.part p) b (·.2.2) && snEn (d.part p)) = false) :
    stepBarrierRelease p d = releaseStep d p b (releaseSays (d.part p) b (·.2.1)) none := by
  have hnone : (!releaseSays (d.part p) b (·.2.2) || !snEn (d.part p)) = true := by
    rw [← Bool.not_and, hsnap, Bool.not_false]
  simp only [stepBarrierRelease, hmay, hbarrier, hnone, Bool.not_true, Bool.false_eq_true, if_false, if_true]

/-- A snapshot release goes by the local copies. -/
theorem stepBarrierRelease_snapshot (hbarrier : (d.part p).barrier = some b) (hmay : mayRelease (d.part p) = true)
    (hsnap : (releaseSays (d.part p) b (·.2.2) && snEn (d.part p)) = true) (hheld : (d.part p).snapHeld = none) :
    stepBarrierRelease p d =
      let e := if (d.part p).copying.isNone then beginSnapshot d p else d
      if copiesOut e p [0, 1] then e else releaseStep e p b (releaseSays (d.part p) b (·.2.1)) (e.part p).copying := by
  have hsome : (!releaseSays (d.part p) b (·.2.2) || !snEn (d.part p)) = false := by
    rw [← Bool.not_and, hsnap, Bool.not_true]
  simp only [stepBarrierRelease, hmay, hbarrier, hsome, hheld, Bool.not_true, Bool.false_eq_true, if_false, Option.isSome_none]

end

/-- Settles O16: STEP by its arrival, the release by whether a snapshot is ordered and how far its copies are. -/
theorem stepBarrierCompletes : Obligations.StepBarrierCompletes := by
  unfold Obligations.StepBarrierCompletes
  refine ⟨?_, ?_, ?_⟩
  · intro n w s pc t hissue hidle hlive hnone hmany
    exact onTile_eq (stepCmd_opens hissue hidle hlive hnone hmany)
  · intro n w s pc t b hissue hidle hlive hopen hparts hjob
    exact onTile_eq (stepCmd_joins hissue hidle hlive hopen hparts hjob)
  · intro p s b hbarrier hmay
    refine ⟨?_, ?_, ?_⟩
    · intro hsnap
      exact onDev_eq (stepBarrierRelease_plain hbarrier hmay hsnap)
    · intro hsnap hheld hfirst hout
      exact onDev_eq (by rw [stepBarrierRelease_snapshot hbarrier hmay hsnap hheld]; simp [hfirst, hout])
    · intro good hsnap hheld hcopying hout
      exact onDev_eq (by rw [stepBarrierRelease_snapshot hbarrier hmay hsnap hheld]; simp [hcopying, hout])

/-! ### The job barrier -/

/-- Settles O17: screening, then the branch of the cell's kind; the delay by what the release says. -/
theorem jobBarrierCompletes : Obligations.JobBarrierCompletes := by
  unfold Obligations.JobBarrierCompletes
  refine ⟨?_, ?_, ?_⟩
  · intro port c s d g hcell hkind hmember hroot hgather hstep
    exact onCell_eq hcell (by simp [barrierArrive, hkind, List.contains_iff_mem.mp hmember, hroot, hgather, hstep])
  · intro port c s d b hcell hkind hbarrier hrelease hstep
    exact onCell_eq hcell (by simp [barrierRelease, hkind, hbarrier, hrelease, hstep])
  · intro p s b r hbarrier hrelease hnot
    refine onDev_eq ?_
    have hdelay : releaseDelay p s.dev = if r.1 then modBarrier s.dev p fun b => { b with released := true }
        else voteFailed (modBarrier s.dev p fun b => { b with released := true }) p := by
      simp [releaseDelay, hbarrier, hrelease, hnot]
    have hcounted : ((modBarrier s.dev p fun b => { b with released := true }).part p).notReleased = (s.dev.part p).notReleased := by
      simp [modBarrier]
    rw [hdelay, voteFailed, hcounted]
    cases r.1
    · cases (s.dev.part p).notReleased <;> rfl
    · rfl

/-! ### Vote, commit and snapshots -/

/-- Settles O18: a commit goes by its promotion copies; a snapshot becomes valid behind the buddy's copy. -/
theorem sequencerVoteCommitSnapshotComplete : Obligations.SequencerVoteCommitSnapshotComplete := by
  unfold Obligations.SequencerVoteCommitSnapshotComplete
  refine ⟨?_, ?_, ?_, ?_, ?_⟩
  · intro p s hvalid hen hvote hfinal
    exact onDev_eq (by simp [sequencerVote, hvalid, hen, hvote, hfinal])
  · intro p s hen hnot hgood hmay
    have hturn : ¬ ((!grdEn (s.dev.part p)) = true ∨ (s.dev.part p).committed = true ∨ (s.dev.part p).grdFailed = true ∨
        (!mayCommit (s.dev.part p)) = true) := by
      simp [hen, hnot, hgood, hmay]
    have hfirst (hpromoting : (s.dev.part p).promoting = none) {good : Bool} {e : Dev} (hall : promoteAll s.dev p = (good, e)) :
        commit p s.dev = if copiesOut e p [2] then e.modPart p fun x => { x with promoting := some good }
          else promotionEnd e p good := by
      simp only [commit, if_neg hturn, hpromoting, hall]
    have hagain {good : Bool} (hpromoting : (s.dev.part p).promoting = some good) :
        commit p s.dev = if copiesOut s.dev p [2] then s.dev else promotionEnd s.dev p good := by
      simp only [commit, if_neg hturn, hpromoting]
    refine ⟨?_, ?_, ?_⟩
    · intro hpromoting hnone hout
      have hall : promoteAll s.dev p = (true, s.dev) := by rw [promoteAll, hnone, if_neg Bool.false_ne_true]
      exact onDev_eq (by rw [hfirst hpromoting hall]; simp [hout, promotionEnd])
    · intro hpromoting hsome
      have hall : promoteAll s.dev p = (List.range (grdCount (s.dev.part p))).foldl (promoteEntry p) (true, s.dev) := by
        rw [promoteAll, hsome, if_pos rfl]
      refine ⟨fun hout => onDev_eq ?_, fun hout hgood => onDev_eq ?_⟩
      · rw [hfirst hpromoting hall, if_pos hout]
      · rw [hfirst hpromoting hall]; simp [hout, hgood, promotionEnd]
    · intro good hpromoting hout
      refine ⟨fun hgood => onDev_eq ?_, fun hbad => onDev_eq ?_⟩
      · rw [hagain hpromoting]; simp [hout, hgood, promotionEnd]
      · rw [hagain hpromoting]; simp [hout, hbad, promotionEnd]
  · intro p s t rest h hfetched hop hdone hstatus hheld
    exact onDev_eq (by simp [snapshotValid, hfetched, hop, hdone, hstatus, hheld])
  · intro p d h hjob hne
    have hne' : jobDep (d.part p) ≠ jobMan (d.part p) := Ne.symm hne
    simp [reportSnapshots, hjob, hne', List.eraseDups_cons]
  · intro p d hs hjob
    simp [reportSnapshots, hjob]

/-- Settles O19: the bucket's phase selects the branch, and no loss turns it aside. -/
theorem bucketCommandsComplete : Obligations.BucketCommandsComplete := by
  unfold Obligations.BucketCommandsComplete
  refine ⟨?_, ?_, ?_, ?_⟩
  · intro p i s hvalid hen hi hnew hread hred d e hactive htarget
    exact onDev_eq (by
      simp only [bucketFilled, hvalid, hen, hnew, hread, hred]
      simp [Nat.not_le.mpr hi, d, e, hactive, Nat.not_lt.mpr htarget] )
  · intro p i s b hb hphase hacc
    exact onDev_eq (by simp only [bucketConverted, hb, hphase, hacc]; simp)
  · intro p i s b d hb hphase hpred hpoison hblocks
    exact onDev_eq (by simp [shardVerify, hb, hphase, hpred, hpoison, hblocks])
  · intro p i s b hb hend hphase hpoison
    exact onDev_eq (by simp [summaryDone, hb, hend, hphase, hpoison])

end Sys2Proof.Machine
end

section
/-! The Gate Unit and the exchanges of Sluice (R94 to R172): what each command leaves. -/

namespace Sys2Proof.Machine

/-- A served cell, its tokens there, is a command on the device that screening leaves. -/
theorem onCellWhen_eq {waits : Dev → Cell → Bool} {s : State} {d e : Dev} {port : Nat} {c : Cell} {types : List Nat}
    {f : Dev → Dev} (hcell : Served waits s.dev port c types d) (h : f d = e) :
    onDev (fun d => onCellWhen waits d port c types f) s = .next (s.putDev e) :=
  onDev_eq (by rw [onCellWhen_of_served hcell, h])

/-- A cell without tokens stays in its input buffer. -/
theorem onCellWhen_held {waits : Dev → Cell → Bool} {s : State} {port : Nat} {c : Cell} {types : List Nat}
    {f : Dev → Dev} (hty : c.ty.toNat ∈ types) (hwaits : waits s.dev c = true) :
    onDev (fun d => onCellWhen waits d port c types f) s = .next (s.putDev (holdCell s.dev port c)) :=
  onDev_eq (onCellWhen_of_waits hty hwaits f)

/-- Settles O20: each command goes by the first push or step that its rule selects. -/
theorem gateCommandsComplete : Obligations.GateCommandsComplete := by
  unfold Obligations.GateCommandsComplete
  refine ⟨?_, ?_, ?_⟩
  · intro s p u hturn hfirst
    show execGatePushAccept s = _
    exact onDev_eq (by simp only [hturn, hfirst])
  · intro s serve g hfirst hfits
    show execGateStepOpen _ s = _
    exact onDev_eq (by simp only [hfirst, hfits, if_true])
  · intro s p slot g hfirst
    show execGateStepDone _ _ s = _
    exact onDev_eq (by simp only [hfirst])

/-! ### Cells at the receiver and at the sender -/

/-- The first count cell of a source joins its open exchange. -/
theorem countCell_joins {d : Dev} {c : Cell} {x : Exch} {r : Nat} {i : InXfer} (hdup : slcDupOf d c = none)
    (hnew : findIn d c = none) (hopen : openX d c.part.toNat (BitVec.ofNat 32 (fld (payBits c) 31 0)) = some x)
    (hkind : x.combine = c.combine) (hok : x.status = 0) (hpeer : x.peers.findIdx? (fun q => q.1 == c.src) = some r)
    (hin : (x.ins.find? fun i => i.src == r && !i.own) = some i) (hcount : i.count = none) (hroom : bitmapRoom d c = true) :
    countCell c d = joinCount (sendCountAck d c (fld (payBits c) 31 0 % 2 ^ 32) false) x i c none d.slc.cfg := by
  simp only [countCell, hdup, newCount, hnew, Option.filter_none, hopen, hkind, hok, hpeer, hin, hcount, hroom]
  simp

/-- Settles O21: screening, then the place of the cell's transfer. -/
theorem receivedExchangeCellsComplete : Obligations.ReceivedExchangeCellsComplete := by
  unfold Obligations.ReceivedExchangeCellsComplete
  intro port c s d x
  refine ⟨?_, ?_, ?_, ?_, ?_⟩
  · intro hcell hdup hnew hopen hkind hok r hpeer i hin hcount hroom
    exact onCell_eq hcell (countCell_joins hdup hnew hopen hkind hok hpeer hin hcount hroom)
  · intro hcell i hin
    exact onCell_eq hcell (by simp only [bodyCell, hin])
  · intro hcell i hin
    exact onCellWhen_eq hcell (by simp only [bodyCell, hin])
  · intro hty hwaits
    exact onCellWhen_held (by simp [hty]) hwaits
  · intro hcell hstatus hopen hkind r hpeer
    have hmine : (openX d c.part.toNat (BitVec.ofNat 32 (fld (payBits c) 31 0))).filter (fun x => x.combine == c.combine) = some x := by
      simp [hopen, hkind, Option.filter]
    exact onCell_eq hcell (by simp [abortCell, hmine, endByAbort, hpeer, hstatus])

/-- Settles O22: each answer finds its transfer, and the transfer's state selects the branch. -/
theorem answeredExchangeCellsComplete : Obligations.AnsweredExchangeCellsComplete := by
  unfold Obligations.AnsweredExchangeCellsComplete
  intro port c s d x o hout hok
  refine ⟨?_, ?_, ?_, ?_⟩
  · intro hcell hnow
    exact onCell_eq hcell (by simp [countAckCell, hout, hnow, hok])
  · intro hcell hnot hlocal
    have hsends : ¬ (o.ready = true ∨ x.status ≠ 0 ∨ (!x.combine) = true ∧ xdGlobal x.desc = true) := by
      rcases hlocal with h | h <;> simp [hnot, hok, h]
    exact onCell_eq hcell (by simp only [readyCell, hout, if_neg hsends])
  · intro hcell hnot hearly hkind hglobal hall
    exact onCell_eq hcell (by simp [grantCell, hout, hnot, hok, hearly, hkind, hglobal, hall])
  · intro hcell hxfer hgrants
    exact onCell_eq hcell (by simp [ackCell, hout, hxfer, hgrants])

/-! ### Stages and timers -/

/-- Settles O23: the conditions of each stage select the branch that goes on. -/
theorem exchangeStagesComplete : Obligations.ExchangeStagesComplete := by
  unfold Obligations.ExchangeStagesComplete
  intro p exch s x
  refine ⟨?_, ?_, ?_, ?_, ?_, ?_⟩
  · intro hfirst
    show execExchangeTagsTaken _ _ s = _
    exact onDev_eq (by simp only [hfirst])
  · intro hopen hfix
    show execRowsFixed _ _ s = _
    exact onDev_eq (by simp only [hopen, hfix, if_true])
  · intro hopen hfixed hok l is d hl halloc hrows hnone hgrant
    exact onDev_eq (by
      simp only [rxBufAlloc, hopen, hfixed, hok, halloc, hnone, hgrant]
      simp [hl, hrows])
  · intro hopen hok i hin hnot hdone hlast
    have hends : ¬ ((!x.combine) = true ∧ (x.ins.all fun y => y.src == i.src || y.complete) = true ∧
        x.finals.length < xdNl x.desc) := by
      rintro ⟨hdispatch, hall, hshort⟩
      exact absurd (hlast (by simpa using hdispatch) hall) (Nat.not_le.mpr hshort)
    have hgoes : ¬ (x.status ≠ 0 ∨ i.complete = true ∨ (!xferDone x i) = true ∨ (!x.combine) = true ∧
        (x.ins.all fun y => y.src == i.src || y.complete) = true ∧ x.finals.length < xdNl x.desc) := by
      rintro (h | h | h | h)
      · exact h hok
      · simp [hnot] at h
      · simp [hdone] at h
      · exact hends h
    exact onDev_eq (by simp only [xferComplete, hopen, hin, if_neg hgoes])
  · intro hfirst hwrote hsignal
    exact onDev_eq (by simp [exchComplete, hfirst, hwrote, hsignal])
  · intro hopen hcombine hok i is d hin hnot hgrant
    exact onDev_eq (by simp [returnBuffers_, hopen, hin, hcombine, hok, hnot, hgrant])

/-- Settles O24: every check passes, and the sum of the rows that came is stored. -/
theorem homeSumCompletes : Obligations.HomeSumCompletes := by
  unfold Obligations.HomeSumCompletes
  intro p exch t s x hopen hcombine hok ht hnew hweir hread recs skip used out n wantShared hrecs hskip hused hrows hwant
    hout hn hshared hwrite
  have hopenTerm : ¬ ((!x.combine) = true ∨ x.status ≠ 0 ∨ t ≥ x.tokens ∨ x.summed.contains t = true ∨
      (!weirOk s.dev p 0) = true) := by
    simpa only [hcombine, hok, hweir, hnew, Bool.not_true, Bool.false_eq_true, false_or, or_false, ne_eq, not_true,
      ge_iff_le, Nat.not_le] using ht
  have hsharedOk : (if wantShared then regionFault (opQuota s.dev p (.exch x.uid)) p out n else none) = none := by
    cases wantShared
    · rfl
    · exact hshared rfl
  subst hrecs
  have hall : ((used.map fun r => (rcWeight r.2, returnRow x r.1)).any fun r => r.2.isNone) = false := by
    rw [List.any_map]; exact hrows
  subst hskip hused hwant hout hn
  refine onDev_eq ?_
  simp only [homeSum, hopen, if_neg hopenTerm, hread, hall, hsharedOk, hwrite, Bool.false_eq_true, if_false, Bool.not_true]
  rw [List.map_map]
  rfl

/-- Settles O25: the timer finds its transfer, credit or abort, and its count of resends selects the branch. -/
theorem sluiceTimersComplete : Obligations.SluiceTimersComplete := by
  unfold Obligations.SluiceTimersComplete
  refine ⟨?_, ?_, ?_, ?_⟩
  · intro p exch dst s x o hout hleft
    exact onDev_eq (by simp only [slcTimeout, hout, if_pos hleft])
  · intro p exch dst s x o hout
    exact onDev_eq (by simp only [slcDefer, hout])
  · intro dev p source s k hcredit hunused
    have hfree : (!source && s.dev.slc.store.any fun y => y.cell.src == dev && y.cell.part.toNat == p) = false := by
      cases source
      · simpa using hunused rfl
      · rfl
    exact onDev_eq (by simp only [creditLapse, hcredit, hfree, Bool.false_eq_true, if_false])
  · intro p exch dev s a habort
    refine ⟨?_, ?_⟩
    · intro hleft
      exact onDev_eq (by simp only [abortResend, habort, if_pos hleft])
    · intro hspent hnot
      exact onDev_eq (by simp only [abortResend, habort, if_neg (Nat.not_lt.mpr hspent), hnot, Bool.false_eq_true, if_false])

end Sys2Proof.Machine
end

section
/-! Ports of the fabric (R174 to R196, R205): what each command of bring-up and trouble leaves. -/

namespace Sys2Proof.Machine

/-- Settles O26: the port's state and its count of attempts or hellos select the branch. -/
theorem linkBringUpCompletes : Obligations.LinkBringUpCompletes := by
  unfold Obligations.LinkBringUpCompletes
  intro n s
  refine ⟨?_, ?_, ?_, ?_, ?_, ?_⟩
  · intro hstate
    have htrains : ((s.dev.port n).state == .training || (s.dev.port n).state == .hello) = true := by
      simpa using hstate
    exact onDev_eq (by simp only [bringupStepTimeout, htrains, Bool.not_true, Bool.false_eq_true, if_false])
  · intro hdark hattempts
    show execBringupRetryWait _ s = _
    exact onDev_eq (by simp [hdark, hattempts])
  · intro hstate hlanes
    exact onDev_eq (by simp [fecAlignmentLock, hstate, hlanes])
  · intro h hstate hnot hfirst
    exact onDev_eq (by simp [linkHello, hstate, hnot, hfirst])
  · intro h hstate hnot hseen
    exact onDev_eq (by simp [linkHello, hstate, hnot, Nat.pos_iff_ne_zero.mp hseen])
  · intro cls count hup hcls
    exact onDev_eq (by simp [creditReturn, hup, hcls])

/-- FAB_PORT_CFG's writable fields hold bit 0. -/
theorem bit_zero_merge_fabPortCfg (old v : U32) : bit (merge (ones 32 0 0 ||| ones 32 15 8) old v) 0 = bit v 0 := by
  simp [bit, merge, ones]

/-- Settles O27: what the port was, and what is written to it, selects the branch. -/
theorem linkTroubleCompletes : Obligations.LinkTroubleCompletes := by
  unfold Obligations.LinkTroubleCompletes
  intro n s
  refine ⟨?_, ?_, ?_⟩
  · intro hup hlimit
    exact onDev_eq (by simp [portErrLimit, hup, Nat.not_le.mpr hlimit])
  · intro healthy pair hup hlost hversion hpair
    exact onDev_eq (by simp [laneDegrade, hup, hlost, hversion, hpair])
  · intro v hrails hn hmap hchange
    have hkept : (decide (n ≥ 44) && fld v 7 2 != fld (s.dev.port n).cfg 7 2) = false := by
      by_cases h : 44 ≤ n
      · simp [hmap h]
      · simp [h]
    have hswitch : (bit (s.dev.port n).cfg 0 == bit (merge (ones 32 0 0 ||| ones 32 15 8) (s.dev.port n).cfg v) 0) = false := by
      rw [bit_zero_merge_fabPortCfg]; simpa using hchange
    refine onLive_eq hrails ?_
    rw [fabPortCfgWrite, if_neg (Nat.not_le.mpr hn)]
    simp only [hkept, Bool.false_and, Bool.false_eq_true, if_false, BitVec.ofNat_eq_ofNat, BitVec.or_zero, hswitch]

end Sys2Proof.Machine
end

section
/-! Rack memory and the gateway (R202 to R228): what each command leaves at the source and at the target. -/

namespace Sys2Proof.Machine

/-! ### Requests at their source -/

section
variable {d : Dev} {p st op t : Nat} {tgt : Bool} {r : RmReq}

/-- A fence of the stream that passes every check waits, and the stream's write windows are flushed. -/
theorem rmIssue_fence (hnext : nextOf d p st = some r) (hphase : r.phase = .queued) (hvalid : (d.part p).valid = true)
    (hcheck : rqCheck (rqQuota d p st r.order) p st r.desc = none) (hfabric : weirOk d p 2 = true)
    (hdram : rmWeirOk d p st r.desc = true) (hsound : rmPoisoned d p st r = none) (hop : rqOp r.desc = opFence)
    (htgt : rqTgt r.desc = false) :
    rmIssue p st opFence false d =
      settle (flushStream (modReq d (fun y => y.order == r.order) fun y => { y with phase := .waitFence }) p st) p st := by
  simp [rmIssue, hnext, hop, hphase, htgt, hvalid, hcheck, hfabric, hdram, hsound]

/-- A request that passes every check, and that neither waits here nor goes to another rack, is sent under a tag. -/
theorem rmIssue_sends (hnext : nextOf d p st = some r) (hphase : r.phase = .queued) (hvalid : (d.part p).valid = true)
    (hcheck : rqCheck (rqQuota d p st r.order) p st r.desc = none) (hfabric : weirOk d p 2 = true)
    (hdram : rmWeirOk d p st r.desc = true) (hsound : rmPoisoned d p st r = none) (htag : freeTag d = some t)
    (hop : rqOp r.desc = op) (hfence : op = opFence → rqTgt r.desc = tgt ∧ tgt = true)
    (hflag : op = opFlagged → rqGlobal r.desc = false) (hrack : (op ≠ opLoad ∧ op ≠ opStore) ∨ otherRack d r.desc = false) :
    rmIssue p st op tgt d = if op = opMcast then mcastSend d r t else rmSend d r t := by
  have hmine : ¬ (rqOp r.desc ≠ op ∨ r.phase ≠ .queued ∨ (op = opFence ∧ rqTgt r.desc ≠ tgt)) := by
    rintro (h | h | ⟨hop, h⟩)
    · exact h hop
    · exact h hphase
    · exact h (hfence hop).1
  have hgoes : ¬ (op = opFence ∧ (!tgt) = true) := by
    rintro ⟨hop, h⟩
    simp [(hfence hop).2] at h
  have hnotHeld : ¬ (op = opFlagged ∧ rqGlobal r.desc = true) := by
    rintro ⟨hop, h⟩
    simp [hflag hop] at h
  have hhere : ¬ ((op = opLoad ∨ op = opStore) ∧ otherRack d r.desc = true) := by
    rintro ⟨hop, h⟩
    rcases hrack with hother | hhere
    · exact hop.elim hother.1 hother.2
    · simp [hhere] at h
  simp only [rmIssue, hnext, if_neg hmine, hvalid, hcheck, hfabric, hdram, hsound, Bool.not_true, Bool.or_self,
    Bool.false_eq_true, if_false, if_neg hgoes, if_neg hnotHeld, if_neg hhere, htag]

end

/-- Settles O29: past the checks of R217 the OP alone decides how a request goes on. -/
theorem rackRequestsAtSourceComplete : Obligations.RackRequestsAtSourceComplete := by
  unfold Obligations.RackRequestsAtSourceComplete
  intro p st t s r hnext hphase hvalid hcheck hfabric hdram hsound
  refine ⟨fun hop htgt => onDev_eq (rmIssue_fence hnext hphase hvalid hcheck hfabric hdram hsound hop htgt), fun htag => ?_⟩
  have hsends {op : Nat} {tgt : Bool} (hop : rqOp r.desc = op) :=
    rmIssue_sends (op := op) (tgt := tgt) hnext hphase hvalid hcheck hfabric hdram hsound htag hop
  refine ⟨?_, ?_, ?_, ?_, ?_, ?_, ?_⟩
  · intro hop hrack
    exact onDev_eq (hsends hop nofun nofun (.inr hrack))
  · intro hop hrack
    exact onDev_eq (hsends hop nofun nofun (.inr hrack))
  · intro hop hlocal
    exact onDev_eq (hsends hop nofun (fun _ => hlocal) (.inl (by decide)))
  · intro hop
    exact onDev_eq (hsends hop nofun nofun (.inl (by decide)))
  · intro hop
    exact onDev_eq (hsends hop nofun nofun (.inl (by decide)))
  · intro hop
    exact onDev_eq (hsends hop nofun nofun (.inl (by decide)))
  · intro hop htgt
    exact onDev_eq (hsends hop (fun _ => ⟨htgt, rfl⟩) nofun (.inl (by decide)))

/-! ### Requests at their target -/

/-- A cell that completes a request not served before has it served and answered. -/
theorem rmCell_serves {s : State} {d d1 : Dev} {port ty : Nat} {c : Cell} {cmd : BitVec 512} {data : List Byte}
    (hcell : Served awaitsTokens s.dev port c [ty] d) (hnew : rmLate d c = none) (hwhole : rmGather d c = (d1, some (cmd, data))) :
    onDev (rmCell port c ty) s = .next (s.putDev (serveAndAnswer d1 c.src c.part.toNat c.tag.toNat cmd data c.retry)) :=
  onCellWhen_eq hcell (by simp only [rmArrive, hnew, hwhole])

/-- Settles O30: a whole request is served once; without tokens its cell stays; a held flag goes after earlier writes. -/
theorem rackRequestsAtTargetComplete : Obligations.RackRequestsAtTargetComplete := by
  unfold Obligations.RackRequestsAtTargetComplete
  refine ⟨?_, ?_, ?_⟩
  · intro port c s d d1 cmd data hnew hwhole
    have hserves {ty : Nat} (hcell : Served awaitsTokens s.dev port c [ty] d) := rmCell_serves hcell hnew hwhole
    refine ⟨hserves, hserves, hserves, hserves, hserves, ?_⟩
    intro hcell hrow hmember
    have hnoRelay : (!c.retry && posY (myPos d) == posY (devPos c.src)) = false := by
      simp [hrow]
    exact onCellWhen_eq hcell (by
      simp only [mcastCell, hnew, hwhole, hnoRelay, hmember, Bool.false_eq_true, if_false, if_true])
  · intro port c s hwaits
    have hheld {ty : Nat} {f : Dev → Dev} (hty : c.ty.toNat = ty) :
        onDev (fun d => onCellWhen awaitsTokens d port c [ty] f) s = .next (s.putDev (holdCell s.dev port c)) :=
      onCellWhen_held (by simp [hty]) hwaits
    exact ⟨hheld, hheld, hheld, hheld, hheld, hheld⟩
  · intro src tag p s h hfirst hlower hweir
    exact onDev_eq (by simp only [heldWrite, hfirst, hlower, hweir, Bool.and_self, if_true])

/-- Settles O31: the cell finds its pair or request, the timer its request, and the flag waits for nothing more. -/
theorem rackAnswersAndTimeoutsComplete : Obligations.RackAnswersAndTimeoutsComplete := by
  unfold Obligations.RackAnswersAndTimeoutsComplete
  refine ⟨?_, ?_, ?_, ?_, ?_, ?_⟩
  · intro port c s d hcell
    exact onCellWhen_eq hcell rfl
  · intro port c s d hcell
    exact onCellWhen_eq hcell rfl
  · intro src tag p s
    rfl
  · intro p st t s r hnext hphase hearlier hwins hinside hsound htag
    exact onDev_eq (by simp only [flagGlobal, hnext, hphase, hearlier, hwins, hinside, hsound, htag]; simp)
  · intro port c s d r hcell hreq hop
    exact onCell_eq hcell (by simp only [rmResp, hreq, if_neg hop])
  · intro tag s r hreq hleft hop
    exact onDev_eq (by simp only [rmTimeout, hreq, if_pos hleft, if_neg hop])

/-! ### The gateway -/

theorem okRange_rm (d : Dev) (r : Rmem) (p : Nat) (engine : Bool) (a n : Nat) :
    okRange { d with rm := r } p engine a n = okRange d p engine a n := rfl

theorem lowered_rm (d : Dev) (r : Rmem) (p : Nat) : lowered { d with rm := r } p = { lowered d p with rm := r } := by
  have hpart : ({ d with rm := r } : Dev).part p = d.part p := rfl
  rw [lowered, lowered, hpart]
  cases (d.part p).lowering <;> rfl

/-- What a window exports is the partition's, not rack memory's. -/
theorem windowOk_rm (d : Dev) (r : Rmem) (p off n : Nat) :
    Machine.windowOk { d with rm := r } p off n = Machine.windowOk d p off n := by
  simp only [Machine.windowOk, okNew, lowered_rm, okRange_rm]
  rfl

/-- A write window that is whole, inside the exported range, new, and free for its writer is written and answered. -/
theorem gwWhole_writes {d : Dev} {c : Cell} {x : GwRx} {cmd : BitVec 512} {set : List Nat}
    (hset : bitsSet 4096 (packNat ((List.range 8).map fun i => (512 * i, (tgetD x.cells (i + 1) 0).toNat))) = set)
    (hnew : findDup d c.src x.part x.tag opStore 0 c.retry = none) (hexport : exported d x.part = true)
    (hinside : (set.all fun i => Machine.windowOk d x.part (ccOff cmd + i) 1) = true)
    (hfree : (d.part x.part).det = true → set ≠ [] → pageTaken d x.part (ccOff cmd) 1 c.src none = false) :
    gwWhole d c x cmd =
      let data := (List.range 64).flatMap fun i => toLe 64 (tgetD x.cells (i + 9) 0).toNat
      let d := if (d.part x.part).det && !set.isEmpty then takePages d x.part (ccOff cmd) 1 c.src none else d
      let d := weirCharge d x.part 0 set.length
      let d := set.foldl (fun d i => writeRange d x.part false (ccOff cmd + i) [data.getD i 0]) d
      answer (enterDup d c.src x.part x.tag 0 opStore ⟨sOk, 0, []⟩) c.src x.part x.tag ⟨sOk, 0, []⟩ := by
  have hmine : ((d.part x.part).det && !set.isEmpty && pageTaken d x.part (ccOff cmd) 1 c.src none) = false := by
    cases hdet : (d.part x.part).det
    · rfl
    · cases set with
      | nil => rfl
      | cons a l => simp [hfree hdet (by simp)]
  simp only [gwWhole, hset, hnew, hexport, hinside, hmine, Bool.and_self, Bool.not_true, Bool.false_eq_true, if_false]

/-- Settles O32: the window's bytes are written or read whole, a read cell joins its window, an idle window goes. -/
theorem gatewayCommandsComplete : Obligations.GatewayCommandsComplete := by
  unfold Obligations.GatewayCommandsComplete
  refine ⟨?_, ?_, ?_, ?_⟩
  · intro port c s d x cmd hcell hoff hrx hcmd hwhole hnew hexport cells set hcells hset hinside hfree
    refine onCellWhen_eq hcell ?_
    have hknown : (d.rm.gwRx.any fun x => x.src == c.src && x.part == c.part.toNat && x.tag == c.tag.toNat) = true :=
      List.find?_isSome.trans List.any_eq_true.symm |>.mp (by rw [hrx]; rfl)
    subst hcells
    simp only [gwWriteCell, hknown, hrx, if_true, Option.getD_some, if_neg hoff, hcmd, hwhole]
    exact gwWhole_writes (x := { x with cells := tput x.cells c.off.toNat (payBits c) }) hset.symm hnew hexport
      (by simpa only [windowOk_rm] using hinside) hfree
  · intro port c s d hcell hok hsound
    exact onCellWhen_eq hcell (by simp [gwReadCell, hok, hsound])
  · intro port c s d w hcell hoff hwin hfirst
    have hne : 0 ≠ c.off.toNat := fun h => hoff (BitVec.eq_of_toNat_eq (by rw [← h]; rfl))
    have hpart : (c.off.toNat :: w.gotCells).contains 0 = false := by
      simp [hfirst, hne]
    exact onCell_eq hcell (by
      simp only [gwDataCell, hwin, if_neg hoff, hpart, Bool.false_and, Bool.false_eq_true, if_false, Bool.not_false])
  · intro p st base s w hwin
    show execGwIdleFlush _ _ _ s = _
    exact onDev_eq (by simp only [hwin])

end Sys2Proof.Machine
end

section
/-! Collectives of Rill and the queries of both engines (R162, R236 to R257): what each command leaves. -/

namespace Sys2Proof.Machine

theorem onRill_eq {s : State} {f : Dev → Dev} {d : Dev} (h : f s.dev = d) : onRill f s = .next (s.putDev (seqPumpAll d)) :=
  onDev_eq (by rw [h])

/-- A delivered COLL_ACK cell is taken by the command of its KIND. -/
theorem onColl_eq {s : State} {d e : Dev} {port kind : Nat} {c : Cell} {f : Dev → Dev}
    (hcell : Delivered s.dev port c [tyCollAck] d) (hkind : ctlKind c = kind) (h : f d = e) :
    onDev (fun d => onColl d port c kind f) s = .next (s.putDev (seqPumpAll e)) :=
  onDev_eq (by rw [onColl, onCell_of_delivered hcell, if_pos hkind, h])

/-! ### Chunks -/

/-- Settles O33: the head of the waiting requests, the next chunk, the ready stage: each goes on. -/
theorem collectiveChunksComplete : Obligations.CollectiveChunksComplete := by
  unfold Obligations.CollectiveChunksComplete
  refine ⟨?_, ?_, ?_⟩
  · intro p comm s x w is d1 hslotless hhead hwho hgrant
    exact onRill_eq (by simp only [slotsReserved, hslotless, hhead, if_pos hwho, hgrant])
  · intro p comm s x st sts own hcur hstages hready htokens d0 hinput
    exact onRill_eq (by
      simp only [chunkStart, hcur, hstages, hready, htokens, Bool.not_true, Bool.or_self, Bool.false_eq_true, if_false]
      simp only [d0] at hinput
      simp only [hinput, d0])
  · intro p comm st k s x sl own hcur hslot hown hready htokens d
    refine ⟨?_, ?_⟩
    · intro hgathers
      exact onRill_eq (by simp [stageSum, hcur, hslot, hown, hready, htokens, hgathers, d])
    · intro res fl hreduces hsum
      exact onRill_eq (by simp only [stageSum, hcur, hslot, hown, hready, htokens, hreduces]; simp [d, hsum])

/-! ### Transfers -/

/-- The first cell of an awaited transfer of several cells joins the slot of its chunk. -/
theorem collData_joins {d : Dev} {c : Cell} {x : Coll} {r k : Nat} {sl : Slot} (hrank : rankOfDev x c.src = some r)
    (hcur : curC d c.part.toNat (tagComm c) = some x) (hmatched : matched x r = true) (hopened : x.opened = true)
    (hstage : tagStage c ∈ x.stages) (hpeer : r ∈ stagePeers x (tagStage c))
    (hchunk : chunkNamed x (tagStage c) (fld c.tag 1 0) (fld c.off 22 17) = some k)
    (hlong : 64 < needBytes x (tagStage c) k r) (hheld : isReleased x (tagStage c) k = false)
    (hfirst : ∀ sl, getSlot x (tagStage c) k = some sl → tget sl.rx r = none ∧ tget sl.cells r = none)
    (hoff : fld c.off 16 0 < divUp (needBytes x (tagStage c) k r) 64)
    (hslot : (findC (needSlot d x.uid (tagStage c) k) x.uid).bind (fun x => getSlot x (tagStage c) k) = some sl)
    (hempty : tget sl.cells r = none) :
    collData c d = modSlot (chargeSlots (needSlot d x.uid (tagStage c) k) x 64) x.uid (tagStage c) k fun s =>
      { s with cells := tput s.cells r (tput [] (fld c.off 16 0) (payBits c)) } := by
  have hmine : ¬ ((!matched x r) = true ∨ (!x.opened) = true) := by simp [hmatched, hopened]
  have hplace : ¬ ((!x.stages.contains (tagStage c)) = true ∨ (!(stagePeers x (tagStage c)).contains r) = true) := by
    simp [hstage, hpeer]
  have hneeded : needBytes x (tagStage c) k r ≠ 0 := by omega
  have hnew : (isReleased x (tagStage c) k || ((getSlot x (tagStage c) k).bind fun s => tget s.rx r).isSome) = false := by
    rw [hheld, Bool.false_or]
    cases hsl : getSlot x (tagStage c) k with
    | none => rfl
    | some sl => simp [(hfirst sl hsl).1]
  have hgot : tgetD sl.cells r [] = [] := by simp [tgetD, hempty]
  have hfits : ¬ (fld c.off 16 0 ≥ divUp (needBytes x (tagStage c) k r) 64 ∨
      (tget ([] : Tbl (BitVec 512)) (fld c.off 16 0)).isSome = true) := by
    simp [hoff, tget]
  have hmore : (tput ([] : Tbl (BitVec 512)) (fld c.off 16 0) (payBits c)).length ≠ divUp (needBytes x (tagStage c) k r) 64 := by
    have hone : (tput ([] : Tbl (BitVec 512)) (fld c.off 16 0) (payBits c)).length = 1 := rfl
    rw [hone, divUp]
    omega
  simp only [collData, hcur, hrank, if_neg hmine, if_neg hplace, hchunk, if_neg hneeded, hnew, Bool.false_eq_true, if_false,
    hslot, hgot, if_neg hfits, if_neg hmore]

/-- Settles O34: the collective, the sender's rank and the cell's KIND select what is done. -/
theorem collectiveTransfersComplete : Obligations.CollectiveTransfersComplete := by
  unfold Obligations.CollectiveTransfersComplete
  intro port c s d x r hrank
  refine ⟨?_, fun hcell hseq hrunning => ⟨?_, ?_, ?_, ?_, ?_⟩⟩
  · intro k hcell hcur hmatched hopened hstage hpeer hchunk hlong hheld hfirst hoff ⟨sl, hslot, hempty⟩
    show execCollData port c s = _
    refine onRill_eq ?_
    rw [onCellWhen_of_served hcell]
    exact collData_joins hrank hcur hmatched hopened hstage hpeer hchunk hlong hheld hfirst hoff hslot hempty
  · intro hkind hmatched hopened hchunk hstage hpeer hneed hheld hfirst hwindow
    have hnew : (isReleased x (tagStage c) (ctlChunk c) ||
        ((getSlot x (tagStage c) (ctlChunk c)).bind fun s => tget s.rx r).isSome) = false := by
      rw [hheld, Bool.false_or]
      cases hsl : getSlot x (tagStage c) (ctlChunk c) with
      | none => rfl
      | some sl => simp [hfirst sl hsl]
    have hplace : ¬ ((!matched x r) = true ∨ ctlChunk c ≥ x.nchunk ∨ (!x.stages.contains (tagStage c)) = true ∨
        (!(stagePeers x (tagStage c)).contains r) = true ∨ needBytes x (tagStage c) (ctlChunk c) r > 0) := by
      simp [hmatched, hchunk, hstage, hpeer, hneed]
    exact onColl_eq hcell hkind (by
      simp only [collEmpty, hseq, hrank, if_neg hplace, hrunning, hopened, hnew, Bool.not_true, Bool.false_eq_true, if_false,
        if_neg (Nat.not_le.mpr hwindow)])
  · intro hkind hstage
    exact onColl_eq hcell hkind (by simp [collAck, hstage, hseq, hrank, hrunning])
  · intro hkind
    exact onColl_eq hcell hkind (by simp [collFree, hseq, hrank, hrunning])
  · intro hkind
    exact onColl_eq hcell hkind (by simp only [collProbe, hseq, hrank])
  · intro o hkind hout hopen hfull
    exact onColl_eq hcell hkind (by simp [collNak, hseq, hrank, hout, hopen, hfull])

/-! ### Control cells -/

section
variable {d : Dev} {c : Cell} {kind chunk : Nat} {take : Dev → Nat → Cell → Dev}

theorem controlCell_posted {x : Coll} (hvalid : (d.part c.part.toNat).valid = true)
    (hseq : seqC d c.part.toNat (tagComm c) (ctlSeq c) = some x) :
    controlCell c kind chunk take d = settleColl (take (answerColl d c kind chunk) x.uid c) c.part.toNat (tagComm c) := by
  simp [controlCell, hvalid, hseq]

theorem controlCell_gone (hvalid : (d.part c.part.toNat).valid = true)
    (hseq : seqC d c.part.toNat (tagComm c) (ctlSeq c) = none) (hcomm : cmValid (commOf d c.part.toNat (tagComm c)) = true)
    (hpast : ctlSeq c < cmNext (commOf d c.part.toNat (tagComm c))) :
    controlCell c kind chunk take d = answerColl d c kind chunk := by
  simp [controlCell, hvalid, hseq, hcomm, hpast]

/-- A cell of a collective to come goes to the store of early cells. -/
theorem controlCell_early (hvalid : (d.part c.part.toNat).valid = true)
    (hseq : seqC d c.part.toNat (tagComm c) (ctlSeq c) = none)
    (hnext : cmNext (commOf d c.part.toNat (tagComm c)) ≤ ctlSeq c) :
    controlCell c kind chunk take d = keepEarly d c kind chunk := by
  simp [controlCell, hvalid, hseq, Nat.not_lt.mpr hnext]

theorem keepEarly_keeps
    (hnew : (d.rill.store.any fun e => e.src == c.src && e.part == c.part && tagComm e == tagComm c && payBits e == payBits c) = false)
    (hroom : 64 * (d.rill.store.length + 1) ≤ 262144) :
    keepEarly d c kind chunk = answerColl { d with rill := { d.rill with store := d.rill.store ++ [c] } } c kind chunk := by
  simp only [keepEarly, hnew, Bool.false_eq_true, if_false, if_pos hroom]

theorem keepEarly_full
    (hnew : (d.rill.store.any fun e => e.src == c.src && e.part == c.part && tagComm e == tagComm c && payBits e == payBits c) = false)
    (hfull : 262144 < 64 * (d.rill.store.length + 1)) :
    keepEarly d c kind chunk = if ctlKind c = kOpen then rillErr d 3 else d := by
  simp only [keepEarly, hnew, Bool.false_eq_true, if_false, if_neg (Nat.not_le.mpr hfull)]

end

/-- Settles O35: a control cell is taken, answered alone, kept or refused, by where its collective stands. -/
theorem collectiveControlComplete : Obligations.CollectiveControlComplete := by
  unfold Obligations.CollectiveControlComplete
  intro port c s d hcell hvalid p m mm keep kept
  refine ⟨?_, ?_, ?_, ?_, ?_⟩
  · intro x hseq
    exact ⟨fun hkind => onColl_eq hcell hkind (controlCell_posted hvalid hseq),
      fun hkind => onColl_eq hcell hkind (controlCell_posted hvalid hseq),
      fun hkind => onColl_eq hcell hkind (controlCell_posted hvalid hseq)⟩
  · intro hseq hcomm hpast
    exact ⟨fun hkind => onColl_eq hcell hkind (controlCell_gone hvalid hseq hcomm hpast),
      fun hkind => onColl_eq hcell hkind (controlCell_gone hvalid hseq hcomm hpast),
      fun hkind => onColl_eq hcell hkind (controlCell_gone hvalid hseq hcomm hpast)⟩
  · intro hseq hnext hnew hroom
    have hkeeps {kind chunk : Nat} {take : Dev → Nat → Cell → Dev} :
        controlCell c kind chunk take d = answerColl (keep d) c kind chunk :=
      (controlCell_early hvalid hseq hnext).trans (keepEarly_keeps hnew hroom)
    exact ⟨fun hkind => onColl_eq hcell hkind hkeeps, fun hkind => onColl_eq hcell hkind hkeeps,
      fun hkind => onColl_eq hcell hkind hkeeps⟩
  · intro hseq hnext hnew hfull
    have hfullStore {kind chunk : Nat} {take : Dev → Nat → Cell → Dev} :
        controlCell c kind chunk take d = if ctlKind c = kOpen then rillErr d 3 else d :=
      (controlCell_early hvalid hseq hnext).trans (keepEarly_full hnew hfull)
    exact ⟨fun hkind => onColl_eq hcell hkind (hfullStore.trans (if_pos hkind)),
      fun hkind => onColl_eq hcell hkind (hfullStore.trans (if_neg (by rw [hkind]; decide))),
      fun hkind => onColl_eq hcell hkind (hfullStore.trans (if_neg (by rw [hkind]; decide)))⟩
  · intro x r hkind hseq hrank
    exact onColl_eq hcell hkind (by simp only [openAck, hseq, hrank])

/-- Settles O36: the timer finds its transfer or window, the query its engine. -/
theorem collectiveTimersAndQueriesComplete : Obligations.CollectiveTimersAndQueriesComplete := by
  unfold Obligations.CollectiveTimersAndQueriesComplete
  refine ⟨?_, ?_, ?_, ?_, ?_, ?_, ?_⟩
  · intro p comm st k peer s x o hcur hout hopen htiming
    exact onRill_eq (by simp [collTimeout, hcur, hout, hopen, htiming])
  · intro p comm st peer s x sl hcur hmem hstage hown hunsent hclosed
    have hready : (x.slots.any fun s => s.stage == st && s.own.isSome && s.unsent.contains peer &&
        !windowOpen x st s.chunk peer) = true :=
      List.any_eq_true.mpr ⟨sl, hmem, by simp [hstage, hown, hunsent, hclosed]⟩
    exact onRill_eq (by simp only [windowProbe, hcur, hready, if_true])
  · intro p comm kind peer s hkind
    refine onRill_eq ?_
    simp only [controlResend, if_neg hkind]
    split <;> rfl
  · intro p id dev s
    exact ⟨rfl, rfl⟩
  · intro port c s d hcell
    exact onCell_eq hcell rfl
  · intro port c s d hcell
    refine ⟨fun hrill => ?_, fun hsluice => ?_⟩
    · exact onCell_eq hcell (by rw [hrill, if_pos rfl])
    · exact onCell_eq hcell (by rw [hsluice, if_neg Bool.false_ne_true])
  · rintro rill p id dev s ⟨q, hmem, hrill, hpart, hid, hdev⟩
    have hopen : (s.dev.slc.queries.any fun q => q.rill == rill && q.part == p && q.id == id && q.dev == dev) = true :=
      List.any_eq_true.mpr ⟨q, hmem, by simp [hrill, hpart, hid, hdev]⟩
    show execPeerQueryUnanswered _ _ _ _ s = _
    exact onDev_eq (by rw [if_pos hopen])

end Sys2Proof.Machine
end

section
/-! Memory and flash maintenance, the KV page manager and waiting requests (R302 to R316, R327): what each command
leaves. -/

namespace Sys2Proof.Machine

/-! ### Patrol scrub -/

section
variable {d : Dev} {a : Nat} {r : MediaResult}

/-- Below the core windows lies DRAM. -/
theorem dramScrub_dram (ha : a < winBase) : dramScrub a r d = match r with
    | .clean => scrubPeriod d
    | .corrected _ => correctedLine (scrubPeriod d) a
    | .uncorrectable => poisonLine (scrubPeriod d) a := by
  have hnotCore : ¬ (winBase ≤ a ∧ a < winBase + 36 * 0x1000000) := by omega
  have hnotCistern : ¬ (cstBase ≤ a ∧ a < cstTop) := by
    simp only [winBase, cstBase] at *; omega
  have hnotGate : ¬ gateSram ≤ a := by
    simp only [winBase, gateSram] at *; omega
  exact (if_neg hnotCore).trans ((if_neg hnotCistern).trans (if_neg hnotGate))

/-- An address in the window of a physical core. -/
theorem dramScrub_core {pc o : Nat} (hpc : pc < 36) (ho : o < 0x1000000) :
    dramScrub (winBase + 0x1000000 * pc + o) r d = coreSramError d pc o r := by
  have hcore : winBase ≤ winBase + 0x1000000 * pc + o ∧ winBase + 0x1000000 * pc + o < winBase + 36 * 0x1000000 := by omega
  have hnum : (winBase + 0x1000000 * pc + o - winBase) / 0x1000000 = pc := by omega
  have hoff : (winBase + 0x1000000 * pc + o - winBase) % 0x1000000 = o := by omega
  rw [dramScrub, if_pos hcore, hnum, hoff]

/-- An address in Cistern SRAM. -/
theorem dramScrub_cistern {o : Nat} (ho : cstBase + o < cstTop) : dramScrub (cstBase + o) r d = cisternError d o r := by
  have hnotCore : ¬ (winBase ≤ cstBase + o ∧ cstBase + o < winBase + 36 * 0x1000000) := by
    simp only [winBase, cstBase]; omega
  rw [dramScrub, if_neg hnotCore, if_pos ⟨Nat.le_add_right _ _, ho⟩, Nat.add_sub_cancel_left]

theorem ce_coreSramError_corrected (d : Dev) (pc o n : Nat) :
    ((coreSramError d pc o (.corrected n)).core pc).ce = satAdd (d.core pc).ce 1 := by
  have hcore (d : Dev) (a b : Nat) (r : Reg) (v c : Nat) : (logCounted d a b r v c).core pc = d.core pc := by
    rw [Dev.core, logCounted_cores, Dev.core]
  simp [coreSramError, hcore]

end

/-! ### Flash -/

theorem flashScrub_of_used {d : Dev} {eb : Nat} {r : MediaResult} (heb : eb < ebTotal) (hused : eb ∈ d.ftl.used) :
    flashScrub eb r d = scrubErase eb r d := by
  simp [flashScrub, Nat.not_le.mpr heb, hused]

/-- Settles O37: the address tells the memory, and what was found selects the branch. -/
theorem maintenanceCommandsComplete : Obligations.MaintenanceCommandsComplete := by
  unfold Obligations.MaintenanceCommandsComplete
  refine ⟨?_, ?_, ?_, ?_, ?_, ?_, ?_⟩
  · intro a n s hrails ha
    exact ⟨onLive_eq hrails (dramScrub_dram ha), onLive_eq hrails (dramScrub_dram ha), onLive_eq hrails (dramScrub_dram ha)⟩
  · intro pc o n s hrails hpc ho
    exact ⟨fun r => onLive_eq hrails (dramScrub_core hpc ho), ce_coreSramError_corrected s.dev pc o n⟩
  · intro o r s hrails ho
    exact onLive_eq hrails (dramScrub_cistern ho)
  · intro row chan t s hrow
    exact onDev_eq (by simp only [rowSpareDone, hrow]; rfl)
  · intro chan bank t s hbank
    exact onDev_eq (by simp only [bankSpareDone, hbank]; rfl)
  · intro eb bits s d hrails heb hused hread hkept
    have hkeep : d.ftl.retired.contains eb = false := by simpa using hkept
    refine ⟨onLive_eq hrails ?_, fun key rest hlive => onLive_eq hrails ?_⟩
    · rw [flashScrub_of_used heb hused]
      simp only [scrubErase, ← hread, hkeep, Bool.false_eq_true, if_false]
    · rw [flashScrub_of_used heb hused]
      simp only [scrubErase, ← hread, hkeep, Bool.false_eq_true, if_false, hlive]
  · intro eb s hreloc
    exact onDev_eq (by simp only [flashRelocation, hreloc, if_true])

/-! ### The KV page manager and waiting requests -/

/-- Settles O38: EN and the configuration's check select the write; a due boundary goes by its losses. -/
theorem kvAndGrantCommandsComplete : Obligations.KvAndGrantCommandsComplete := by
  unfold Obligations.KvAndGrantCommandsComplete
  refine ⟨?_, ?_, ?_, ?_, ?_⟩
  · intro p v s hrails hp
    refine ⟨?_, ?_, ?_⟩
    · intro hoff
      exact onLive_eq hrails (by simp [kvCfgWrite, Nat.not_le.mpr hp, hoff])
    · intro hon hok
      exact onLive_eq hrails (by simp [kvCfgWrite, Nat.not_le.mpr hp, hon, hok])
    · intro hon hbad
      exact onLive_eq hrails (by simp [kvCfgWrite, Nat.not_le.mpr hp, hon, hbad])
  · intro p s cs hdue hen hcopies d
    have hgoes : (decide ((s.dev.part p).kvDue = 0) || !kvEn (s.dev.part p) ||
        (s.dev.part p).kvCopies.any fun k => !k.done) = false := by
      have hdone : ((s.dev.part p).kvCopies.any fun k => !k.done) = false := by
        rw [List.any_eq_not_all_not]; simpa using hcopies
      simp [hdue, hen, hdone]
    refine ⟨fun hloss hchanges => onDev_eq ?_, fun a hloss => onDev_eq ?_⟩
    · simp only [kvBoundary, hgoes, Bool.false_eq_true, if_false]
      simp only [d] at hloss hchanges
      simp only [hloss, hchanges, d]
    · simp only [kvBoundary, hgoes, Bool.false_eq_true, if_false]
      simp only [d] at hloss
      simp only [hloss, d]
  · intro p q s k hcopy hdram hflash
    exact onDev_eq (by simp only [kvCopyDone, hcopy, hdram, hflash, Bool.not_true, Bool.or_self, Bool.false_eq_true, if_false])
  · intro g p s who is d hgrant
    exact onDev_eq (by simp only [waitingGrant, hgrant])
  · intro id peer s
    exact ⟨rfl, rfl, rfl⟩

end Sys2Proof.Machine
end

section
/-! The bulk DMA engines (R332 to R342): fetching, completion, and the operations. -/

namespace Sys2Proof.Machine

/-! ### Fetching and completion -/

/-- Settles O39: a readable ring entry is taken or skipped by OWN; a finished descriptor is written back. -/
theorem dmaFetchAndCompletionComplete : Obligations.DmaFetchAndCompletionComplete := by
  unfold Obligations.DmaFetchAndCompletionComplete
  refine ⟨?_, ?_⟩
  · intro ch s hready p a w d hp ha hok hsound hw hd
    subst hp ha hd
    refine ⟨fun hown => onDev_eq ?_, fun hown hlow hhigh => onDev_eq ?_⟩
    · simp only [dmaFetch, hready, hok, hsound, ← hw, hown, Bool.not_true, Bool.not_false, Bool.false_eq_true, if_false,
        if_true, Option.isSome_none]
    · have hop : ¬ (bdOp w = 0 ∨ bdOp w > 8) := by omega
      simp only [dmaFetch, hready, hok, hsound, ← hw, hown, if_neg hop, Bool.not_true, Bool.false_eq_true, if_false,
        Option.isSome_none]
  · intro ch s x rest hfetched hdone hring hstatus hstarted hweir
    have hring' : (ch % 8 == 7) = false := by simpa using hring
    exact onDev_eq (by
      simp only [descriptorComplete, hfetched, hdone, hring', hweir, hstarted, writeBack, Bool.not_true, Bool.or_self,
        Bool.false_eq_true, if_false, if_true])

/-! ### The operations -/

section
variable {d : Dev} {ch op : Nat} {x : Desc} {f : Dev → Nat → Nat → Desc → Dev × Desc}

/-- A partition's active descriptor that fails a check that names no range ends with its cause. -/
theorem runBulk_refused {cause : Nat} (hactive : (engOf d (ch / 8)).active = some ch) (hhead : (standing (chanOf d ch)).head? = some x)
    (hnew : x.started = false) (hring : ch % 8 ≠ 7) (hweir : bdWeirOk d x.part op = true) (hop : bdOp x.w = op)
    (hcause : cause ≠ 2) (hcheck : bdCheck (opQuota d x.part (frontOp d ch)) x.part x.w = some cause) :
    runBulk op f ch d = modChan d ch fun c =>
      { c with fetched := updFirst (fun y => !y.done) (fun _ => { x with started := true }.finish sBadField cause) c.fetched } := by
  simp [runBulk, hactive, hhead, hnew, hring, hweir, hop, hcause, hcheck]

/-- One that passes its checks is run. -/
theorem runBulk_runs (hactive : (engOf d (ch / 8)).active = some ch) (hhead : (standing (chanOf d ch)).head? = some x)
    (hnew : x.started = false) (hring : ch % 8 ≠ 7) (hweir : bdWeirOk d x.part op = true) (hop : bdOp x.w = op)
    (hcheck : bdCheck (opQuota d x.part (frontOp d ch)) x.part x.w = none) :
    runBulk op f ch d = modChan (f d x.part ch { x with started := true }).1 ch fun c =>
      { c with fetched := updFirst (fun y => !y.done) (fun _ => (f d x.part ch { x with started := true }).2) c.fetched } := by
  simp [runBulk, hactive, hhead, hnew, hring, hweir, hop, hcheck]

end

/-- Settles O40: the check refuses the descriptor or lets its operation run; each operation then does what it says. -/
theorem bulkOperationsComplete : Obligations.BulkOperationsComplete := by
  unfold Obligations.BulkOperationsComplete
  intro ch s x hactive hhead hnew hring hweir p y put
  refine ⟨?_, ?_⟩
  · intro cause hcause hcheck t
    have hrefused {op : Nat} (f : Dev → Nat → Nat → Desc → Dev × Desc) (hop : bdOp x.w = op) :
        runBulk op f ch s.dev = put (s.dev, y.finish sBadField cause) :=
      runBulk_refused hactive hhead hnew hring (hop ▸ hweir) hop hcause hcheck
    exact ⟨fun hop => onDev_eq (hrefused _ hop), fun hop => onDev_eq (hrefused _ hop), fun hop => onDev_eq (hrefused _ hop),
      fun hop => onDev_eq (hrefused _ hop), fun hop => onDev_eq (congrArg (dmaPump · ch) (hrefused _ hop)),
      fun hop => onDev_eq (congrArg (dmaPump · ch) (hrefused _ hop)), fun hop => onDev_eq (hrefused _ hop),
      fun hop => onDev_eq (hrefused _ hop)⟩
  · intro hcheck
    have hruns {op : Nat} {f : Dev → Nat → Nat → Desc → Dev × Desc} {r : Dev × Desc} (hop : bdOp x.w = op)
        (hr : f s.dev p ch y = r) : runBulk op f ch s.dev = put r := by
      rw [← hr]; exact runBulk_runs hactive hhead hnew hring (hop ▸ hweir) hop hcheck
    have hfabric : fabricDesc s.dev p ch y = (s.dev, { y with parts := descParts x.w }) := by
      rw [fabricDesc, if_neg hring]
    refine ⟨fun hop => onDev_eq (hruns hop rfl), fun hop => onDev_eq (hruns hop rfl), fun hop => onDev_eq (hruns hop rfl),
      fun hop => onDev_eq (hruns hop rfl), fun hop => onDev_eq (congrArg (dmaPump · ch) (hruns hop hfabric)),
      fun hop => onDev_eq (congrArg (dmaPump · ch) (hruns hop hfabric)), ?_, ?_⟩
    · intro is d hop htest htake
      exact onDev_eq (hruns hop (by simp only [allocDesc, y, htest, htake]))
    · intro is hop hsound hlist
      exact onDev_eq (hruns hop (by simp only [freeDesc, y, hsound, hlist]))

end Sys2Proof.Machine
end

section
/-! Placing tasks, pausing, results, and the recovery of cores (R361 to R373, R413 to R416, R459 to R461). -/

namespace Sys2Proof.Machine

/-! ### Placement -/

/-- A task found for a free core is loaded, or its saved context comes back. -/
theorem taskPlace_places {d e : Dev} {n pc p : Nat} {o : Option QEntry} (hcore : coreOf d n = some pc)
    (hfree : coreFree (d.core pc) = true)
    (hturn : (placeOrder d).findSome? (fun p => (taskFor d p n).map fun q => (p, q)) = some (p, o))
    (htask : (∃ q, o = some q ∧ e = loadFresh (placed d p) pc p q) ∨
      (∃ x, o = none ∧ tget ((placed d p).part p).ctxs n = some x ∧
        e = ((placed d p).modPart p fun y => { y with ctxs := tdel y.ctxs n }).modCore pc fun c => { c with
          task := some x.task, part := p, plane0 := x.plane0, plane1 := x.plane1, acc0 := x.acc0, acc1 := x.acc1 })) :
    taskPlace n d = if (d.core pc).st = .basking then e.modCore pc fun c => { c with st := .waking } else beginTask e pc := by
  rcases htask with ⟨q, rfl, rfl⟩ | ⟨x, rfl, hctx, rfl⟩
  · simp only [taskPlace, hcore, hfree, hturn, Bool.not_true, Bool.false_eq_true, if_false]
  · simp only [taskPlace, hcore, hfree, hturn, hctx, Bool.not_true, Bool.false_eq_true, if_false]

/-- A waiting task that may pre-empt, with no core free for it, takes the victim found. -/
theorem preempt_takes {d : Dev} {p i pc : Nat} {q : QEntry} {cands : List Nat} (hq : (d.part p).queue[i]? = some q)
    (hactive : (d.part p).st = .active) (hmay : mayPreempt d (d.part p).cls = true) (heligible : eligible d p q = true)
    (hnew : ∀ y ∈ d.sched.preempting, ¬ (y.1 = p ∧ y.2.1 = q.sub ∧ y.2.2.1 = q.index))
    (hcands : pinnedTo d p q = none ∧ firstFree d p = none ∧ cands = (coreSet (d.part p)).filter (takesQueued (d.part p)) ∨
      ∃ n, pinnedTo d p q = some n ∧ coreFree (lcoreCore d n) = false ∧ cands = [n].filter (takesQueued (d.part p)))
    (hvictim : victimFor d p cands = some pc) :
    preempt p i d = settleCore (schErr { d with sched := { d.sched with
      preempting := d.sched.preempting ++ [(p, q.sub, q.index, pc)] } } 0) pc := by
  have hnone : (d.sched.preempting.any fun y => y.1 == p && y.2.1 == q.sub && y.2.2.1 == q.index) = false := by
    rw [List.any_eq_false]
    intro y hy
    simpa [and_assoc] using hnew y hy
  have hgoes : ¬ ((d.part p).st ≠ .active ∨ (!mayPreempt d (d.part p).cls) = true ∨ (!eligible d p q) = true ∨
      (d.sched.preempting.any fun y => y.1 == p && y.2.1 == q.sub && y.2.2.1 == q.index) = true) := by
    simp only [hactive, hmay, heligible, hnone]; decide
  rcases hcands with ⟨hpin, hfree, rfl⟩ | ⟨n, hpin, hfree, rfl⟩
  · simp only [preempt, hq, if_neg hgoes, hpin, hfree, hvictim, Option.isSome_none, Bool.false_eq_true, if_false]
  · simp only [preempt, hq, if_neg hgoes, hpin, hfree, hvictim, Bool.false_eq_true, if_false]

/-- Settles O41: the free core, the hand-over or the waiting task selects what comes next. -/
theorem schedulerPlacementComplete : Obligations.SchedulerPlacementComplete := by
  unfold Obligations.SchedulerPlacementComplete
  refine ⟨?_, ?_, ?_, ?_, ?_, ?_⟩
  · intro n pc p s o d hcore hfree hturn htask
    have hplace := taskPlace_places hcore hfree hturn htask
    exact ⟨fun hbask => onDev_eq (hplace.trans (if_pos hbask)), fun hawake => onDev_eq (hplace.trans (if_neg hawake))⟩
  · intro p i pc s q cands hq hactive hmay heligible hnew hcands hvictim
    exact onDev_eq (preempt_takes hq hactive hmay heligible hnew hcands hvictim)
  · intro n pc s h hcore hhandover victim d d1 hv hd hd1
    subst hv hd hd1
    refine ⟨?_, ?_⟩
    · intro hnone
      exact onDev_eq (by simp only [handoverDone, hcore, hhandover, hnone])
    · intro x q d2 hsome hd2 hactive htakes hq
      have hmay : ((d2.part x.1).st == .active && takesQueued (d2.part x.1) n) = true := by
        simp [hactive, htakes]
      subst hd2
      exact onDev_eq (by simp only [handoverDone, hcore, hhandover, hsome, hmay, if_true, hq])
  · intro n pc s hcore hbask hidle hnone
    show execBaskingEntry n s = _
    exact onDev_eq (by simp [hcore, hbask, hidle, hnone, whenD])
  · intro n pc s hcore hwaking hnone
    show execCoreWakeDone n s = _
    exact onDev_eq (by simp [hcore, hwaking, hnone])
  · intro p n r s hvalid hrate
    exact onDev_eq (by simp [weirFill, hvalid, hrate])

/-! ### Pausing and results -/

/-- Settles O42: nothing is left that would hold the event back. -/
theorem pauseAndResultsComplete : Obligations.PauseAndResultsComplete := by
  unfold Obligations.PauseAndResultsComplete
  refine ⟨?_, ?_, ?_, ?_, ?_⟩
  · intro n pc s t hcore htask hwait hlive hrunning hengines hactive hhold
    exact onDev_eq (by simp [watchdogExpiry, hcore, htask, hwait, hlive, hrunning, hengines, hactive, hhold])
  · intro p s hpausing hholding hboundary hcores
    exact onDev_eq (by
      simp only [pauseBoundary, hpausing, hholding, hboundary, hcores, ne_eq, not_true, Bool.not_true, Bool.false_eq_true, or_self,
        if_false])
  · intro p s hpausing hholding hcores hopen d hd
    have hdone : ¬ ((s.dev.part p).st ≠ .pausing ∨ (!(s.dev.part p).holding) = true ∨
        (!(coresOf s.dev p).isEmpty) = true ∨ transfersOpen s.dev p = true) := by
      simp [hpausing, hholding, hcores, hopen]
    exact ⟨fun m hm => onDev_eq (by simp only [partitionPaused, if_neg hdone, ← hd, hm]),
      fun hm => onDev_eq (by simp only [partitionPaused, if_neg hdone, ← hd, hm])⟩
  · intro mb win g src len s w sub sid tag noevt hw hgen hsrc hwho hweir hok hsound
    have htokens : (!weirOk s.dev (mb - 1) 0 && decide (0 < dramBytes s.dev (mb - 1) src len)) = false := by
      rcases hweir with h | h <;> simp [h]
    exact onDev_eq (by
      simp only [resultPublish, hw, hgen, hsrc, hwho, htokens, hok, hsound, Bool.not_true, Bool.false_eq_true, if_false])
  · intro mb win g s
    rfl

/-! ### Failed cores and replays -/

/-- Settles O43: what the core carried, and which spare is left, selects the branch. -/
theorem coreRecoveryCompletes : Obligations.CoreRecoveryCompletes := by
  unfold Obligations.CoreRecoveryCompletes
  refine ⟨?_, ?_, ?_⟩
  · intro pc s hrails hthere hfused hfailed d hd
    have hgoes : ¬ ((s.dev.core pc).st = .fused ∨ (s.dev.core pc).st = .failed ∨ (tget s.dev.cores pc).isNone = true) := by
      rintro (h | h | h)
      · exact hfused h
      · exact hfailed h
      · simp [Option.isNone_iff_eq_none.mp h] at hthere
    refine ⟨?_, ?_⟩
    · intro hnone
      exact onLive_eq hrails (by simp only [coreFail, if_neg hgoes, hnone, ← hd])
    · intro n t e o hlcore ht ho he
      subst ht ho
      refine ⟨?_, ?_⟩
      · intro hspare
        exact onLive_eq hrails (by simp only [coreFail, if_neg hgoes, hlcore, ← hd, ← he, hspare])
      · intro sp x hspare known part hknown hpart
        subst hknown hpart
        exact onLive_eq hrails (by simp only [coreFail, if_neg hgoes, hlcore, ← hd, ← he, hspare])
  · intro pc u s t htask hbusy hrails
    have hhang : exec (.coreHang pc u) s = .next (s.putDev (coreFail pc s.dev)) :=
      onDev_eq (by simp only [coreHang, htask, hbusy, Bool.false_eq_true, if_false])
    have hfail : exec (.coreFail pc) s = .next (s.putDev (coreFail pc s.dev)) := onLive_eq hrails rfl
    exact ⟨hhang.trans hfail.symm, _, hhang⟩
  · intro pc o n s hrecovering hlcore hwaking hkept
    refine ⟨?_, ?_⟩
    · intro hnone
      refine onDev_eq ?_
      cases hholder : (s.dev.core pc).holder with
      | none => simp [replayStart, hrecovering, hlcore, hwaking, hnone, hholder]
      | some p => simp [replayStart, hrecovering, hlcore, hwaking, hnone, hholder, hkept p hholder]
    · intro t htask hholder hlive hlog hen
      exact onDev_eq (by
        simp [replayStart, hrecovering, hlcore, hwaking, htask, hholder, hkept t.part hholder, hlive, hlog, hen])

end Sys2Proof.Machine
end

section
/-! Probes, heartbeats, fault reports and the orders of a replay (R409, R412, R421, R422): what each message leaves. -/

namespace Sys2Proof.Machine

/-! ### Management messages -/

section
variable {s : State} {d e : Dev} {port : Nat} {c : Cell} {boss : Bool} {m : Mgmt}

/-- A management cell that is told is handed to the message's handler. -/
theorem onMgmt_of_told (htold : Told boss e port c d) (hpay : c.pay = .mgmt m) {f : Mgmt → Option (Dev → Dev)}
    {g : Dev → Dev} (hf : f m = some g) : onMgmt e port c boss f = g d := by
  obtain ⟨d0, hcell, htrusted, rfl⟩ := htold
  have hbelieved : (boss && !trusted d0 c.src) = false := by
    cases boss
    · rfl
    · simp [htrusted rfl]
  rw [onMgmt, onCell_of_delivered hcell]
  simp only [hpay, hf, hbelieved, Bool.false_eq_true, if_false]

theorem onMgmt_eq (htold : Told boss s.dev port c d) (hpay : c.pay = .mgmt m) {f : Mgmt → Option (Dev → Dev)}
    {g : Dev → Dev} (hf : f m = some g) (h : g d = e) :
    onDev (fun d => onMgmt d port c boss f) s = .next (s.putDev e) :=
  onDev_eq (by rw [onMgmt_of_told htold hpay hf, h])

end

theorem atManager_of_role {d : Dev} (hrole : role d = 1) (g : Dev → Dev) : atManager g d = g d := if_pos hrole

/-! ### Probes -/

section
variable {d : Dev} {peer : DevId} {x : Probe}

theorem peer_of_filter_probes (hone : (d.rec_.probes.filter fun x => x.peer == peer) = [x]) : x.peer = peer := by
  have hmem : x ∈ d.rec_.probes.filter fun x => x.peer == peer := by rw [hone]; exact List.mem_singleton_self x
  simpa using (List.mem_filter.mp hmem).2

theorem filter_probes_of_none (hnone : ∀ x ∈ d.rec_.probes, x.peer ≠ peer) :
    (d.rec_.probes.filter fun x => x.peer == peer) = [] := by
  simpa [List.filter_eq_nil_iff] using hnone

/-- With no probe of the peer, closing its probes changes nothing. -/
theorem probesClosed_of_none (hnone : ∀ x ∈ d.rec_.probes, x.peer ≠ peer) : probesClosed d peer = d := by
  have hall : (d.rec_.probes.filter fun x => x.peer != peer) = d.rec_.probes :=
    List.filter_eq_self.mpr fun x hx => by simpa using hnone x hx
  rw [probesClosed, hall]

/-- A launched job has no launch cell to send again. -/
theorem relaunchAt_of_launched {j : Job} (hj : j.launched = true) : relaunchAt d peer j = d := by
  rw [relaunchAt]
  split
  · simp [hj]
  · rfl

theorem foldl_relaunchAt_of_launched {js : List Job} (hjs : ∀ j ∈ js, j.launched = true) :
    js.foldl (fun d j => relaunchAt d peer j) d = d := by
  induction js with
  | nil => rfl
  | cons j js ih =>
    rw [List.foldl_cons, relaunchAt_of_launched (hjs j (by simp)), ih fun k hk => hjs k (by simp [hk])]

/-- A word of the peer itself closes its one probe. -/
theorem probeAnswer_of_one {failed : List Nat} (hone : (d.rec_.probes.filter fun x => x.peer == peer) = [x]) :
    probeAnswer peer peer failed d = probeAnswered (probesClosed d peer) failed x := by
  simp [probeAnswer, hone]

theorem peerProbeTimeout_of_one (hone : (d.rec_.probes.filter fun x => x.peer == peer) = [x]) :
    peerProbeTimeout peer d = probeSilent (probesClosed d peer) x := by
  simp [peerProbeTimeout, hone]

end

/-! ### The manager's side of an answered probe -/

section
variable {d : Dev} {x : Probe} {failed : List Nat}

/-- A live peer with a launch cell that it still owes an acknowledgement gets the cell again. -/
theorem peerLives_of_owed {j : Job} {k : Nat} (hrole : role d = 1) (hjobs : d.mgr.jobs = [j]) (hnew : j.launched = false)
    (hpos : (jobList d j).findIdx? (· == x.peer) = some k) (hk : k ≠ 0) (hack : k ∉ j.acked) :
    peerLives d x = x.askers.foldl (fun d y => sendMgmt d y (.probeAnswer x.peer))
      (sendMgmt d x.peer (launchMsg j.id j.spec j.subst j.deputy k x.peer)) := by
  simp [peerLives, hjobs, relaunchAt, hpos, hrole, hnew, hk, hack]

theorem peerLives_of_launched (hjobs : ∀ j ∈ d.mgr.jobs, j.launched = true) :
    peerLives d x = x.askers.foldl (fun d y => sendMgmt d y (.probeAnswer x.peer)) d := by
  rw [peerLives, foldl_relaunchAt_of_launched hjobs]

theorem probeAnswered_of_manager (hbehalf : x.behalf = none) (hman : x.asManager = true) :
    probeAnswered d failed x = peerLives d x := by
  simp only [probeAnswered, hbehalf, hman, if_true]

theorem probeAnswered_of_behalf {m : DevId} (hbehalf : x.behalf = some m) :
    probeAnswered d failed x = sendMgmt d m (.probeAnswer x.peer) := by
  simp only [probeAnswered, hbehalf]

theorem probeAnswered_of_engine (hbehalf : x.behalf = none) (hengine : x.asManager = false) :
    probeAnswered d failed x = linkFault d x failed := by
  simp [probeAnswered, hbehalf, hengine]

end

/-! ### Another device's word that a peer lives -/

section
variable {d : Dev} {src peer : DevId} {failed : List Nat}

theorem probeAnswer_of_other (hother : src ≠ peer) : probeAnswer src peer failed d = heardOf d src peer :=
  if_pos hother

theorem heardOf_of_probe {x : Probe} (hone : (d.rec_.probes.filter fun x => x.peer == peer && x.asManager) = [x]) :
    heardOf d src peer = peerLives { d with rec_ := { d.rec_ with
      probes := d.rec_.probes.filter fun x => !(x.peer == peer && x.asManager) } } x := by
  simp [heardOf, hone]

theorem filter_managerProbes_of_none (hnone : ∀ x ∈ d.rec_.probes, x.peer = peer → x.asManager = false) :
    (d.rec_.probes.filter fun x => x.peer == peer && x.asManager) = [] := by
  simpa [List.filter_eq_nil_iff] using hnone

theorem heardOf_of_reported (hnone : ∀ x ∈ d.rec_.probes, x.peer = peer → x.asManager = false)
    (hreported : peer ∈ d.rec_.reported) (hsrc : src ∈ reportTo d peer) :
    heardOf d src peer = peerGivenUp { d with rec_ := { d.rec_ with
      reported := d.rec_.reported.filter (· != peer) } } peer d.time.now := by
  simp [heardOf, filter_managerProbes_of_none hnone, hreported, hsrc]

theorem heardOf_of_unasked (hnone : ∀ x ∈ d.rec_.probes, x.peer = peer → x.asManager = false)
    (hnot : peer ∉ d.rec_.reported ∨ src ∉ reportTo d peer) : heardOf d src peer = d := by
  have hsilent : ¬ (d.rec_.reported.contains peer = true ∧ (reportTo d peer).contains src = true) := by
    rintro ⟨hreported, hsrc⟩
    exact hnot.elim (· (by simpa using hreported)) (· (by simpa using hsrc))
  have hall : ∀ x ∈ d.rec_.probes, (!(x.peer == peer && x.asManager)) = true := fun x hx => by
    simpa [or_iff_not_imp_left] using hnone x hx
  simp only [heardOf, filter_managerProbes_of_none hnone, if_neg hsilent]
  simp

end

/-! ### Fault reports -/

section
variable {d : Dev} {src : DevId} {t : Trouble}

/-- A manager handles a report by what it says. -/
theorem takeReport_of_manager (hrole : role d = 1) : takeReport src t d = faultReport src t d := by
  simp [takeReport, hrole, atManager]

theorem faultReport_sequencer {p : Nat} {j : Job} (hjob : findJob d p = some j) (hlaunched : j.launched = true)
    (hfirst : j.replaying = false) : faultReport src (.sequencer p) d = replayJob d p := by
  simp [faultReport, hjob, hlaunched, hfirst]

theorem takeReport_of_deputy (hrole : role d = 2) (ht : t = .selfFault (peerDev d)) :
    takeReport src t d = takeover d (peerDev d) d.time.now := by
  rw [takeReport, if_pos ⟨hrole, ht⟩]

theorem takeReport_of_neither (hrole : role d ≠ 1) (ht : ¬ (role d = 2 ∧ t = .selfFault (peerDev d))) :
    takeReport src t d = fabErr d 3 := by
  rw [takeReport, if_neg ht, atManager, if_neg hrole]

end

/-! ### The orders of a replay and the copies of a snapshot -/

theorem ofMember_of_mem {d : Dev} {p : Nat} {src : DevId} (hmember : (jobMembers d p).contains src = true) (g : Dev → Dev) :
    ofMember d p src g = g d := if_pos hmember

theorem mirrorAsked_of_kept {d : Dev} {p : Nat} {src lost : DevId} {step : U64} {m : Mirror}
    (hmirror : ((d.part p).mirrors.find? fun m => (m.dev == lost || m.dev == src) && m.head.step == step) = some m) :
    mirrorAsked src p step lost d =
      sendMgmt d src (.snapCopy p m.head.gen m.head.step m.head.seeds m.head.crcs m.table) := by
  simp only [mirrorAsked, hmirror]

/-! ### Probes without an answer -/

section
variable {d : Dev} {x : Probe}

theorem probeSilent_of_behalf {m : DevId} (hbehalf : x.behalf = some m) :
    probeSilent d x = sendMgmt d m (.faultReport (.unanswered x.peer)) := by
  simp only [probeSilent, hbehalf]

theorem probeSilent_of_manager (hbehalf : x.behalf = none) (hman : x.asManager = true) (hrole : role d = 1) :
    probeSilent d x = deviceLost d x.peer x.since := by
  simp [probeSilent, hbehalf, hman, hrole]

theorem probeSilent_of_deputy (hbehalf : x.behalf = none) (hman : x.asManager = true) (hrole : role d = 2)
    (hmine : x.peer = peerDev d) : probeSilent d x = takeover d x.peer x.since := by
  simp only [probeSilent, hbehalf, hman, Bool.not_true, Bool.false_eq_true, if_false]
  rw [if_neg (by rw [hrole]; decide), if_pos ⟨hrole, hmine⟩]

theorem probeSilent_of_engine (hbehalf : x.behalf = none) (hengine : x.asManager = false) :
    probeSilent d x = peerSilent d x.peer x.since := by
  simp [probeSilent, hbehalf, hengine]

end

/-! ### What each message leaves -/

section
variable {port : Nat} {c : Cell} {s : State} {d : Dev}

/-- What the answer of a probed peer leaves, by who probes it and why. -/
theorem exec_probeAnswer_of_peer (htold : Told false s.dev port c d) {failed : List Nat}
    (hpay : c.pay = .mgmt (.probeAnswer c.src)) {x : Probe} {e e' : Dev}
    (hone : (d.rec_.probes.filter fun x => x.peer == c.src) = [x]) (he : e = probesClosed d c.src)
    (h : probeAnswered e failed x = e') : exec (.probeAnswer port c failed) s = .next (s.putDev e') :=
  onMgmt_eq htold hpay rfl (by rw [probeAnswer_of_one hone, ← he, h])

theorem exec_probeAnswer_of_other (htold : Told false s.dev port c d) {peer : DevId} {failed : List Nat}
    (hpay : c.pay = .mgmt (.probeAnswer peer)) (hother : c.src ≠ peer) {e : Dev} (h : heardOf d c.src peer = e) :
    exec (.probeAnswer port c failed) s = .next (s.putDev e) :=
  onMgmt_eq htold hpay rfl (by rw [probeAnswer_of_other hother, h])

theorem exec_faultReport_of_trouble (htold : Told false s.dev port c d) {t : Trouble}
    (hpay : c.pay = .mgmt (.faultReport t)) {e : Dev} (h : takeReport c.src t d = e) :
    exec (.faultReport port c) s = .next (s.putDev e) :=
  onMgmt_eq htold hpay rfl h

theorem exec_faultReport_of_snapshot (htold : Told false s.dev port c d) {x : DevId} {p g : Nat} {step : U64}
    {seeds : List U64} (hpay : c.pay = .mgmt (.snapshotReport x p g step seeds)) {e : Dev}
    (h : snapshotKnown p ⟨x, g, step, seeds⟩ d = e) : exec (.faultReport port c) s = .next (s.putDev e) :=
  onMgmt_eq htold hpay rfl h

/-- SNAPSHOT_RESTORE of a manager: the step's work goes, the generation is taken, and the copies come from the
spare's tree or from the buddy. -/
theorem exec_snapshotRestore_of_trusted (htold : Told false s.dev port c d) {p g : Nat} {step : U64} {seeds : List U64}
    {buddy : Option DevId} {lost spare : DevId} (hpay : c.pay = .mgmt (.snapshotRestore p g step seeds buddy lost spare))
    (htrusted : trusted d c.src = true) {e : Dev} (h : snapshotRestore p g step seeds buddy lost spare d = e) :
    exec (.snapshotRestore port c) s = .next (s.putDev e) :=
  onMgmt_eq htold hpay rfl (by rw [if_pos htrusted, h])

end
/-! ### The statement's parts -/

section
variable {port : Nat} {c : Cell} {s : State} {d : Dev}

/-- The peer's own answer closes its one probe, whoever it was made for; with no probe it changes nothing. -/
theorem probeAnswer_of_peer_complete (htold : Told false s.dev port c d) {failed : List Nat}
    (hpay : c.pay = .mgmt (.probeAnswer c.src)) :
    ((∀ x ∈ d.rec_.probes, x.peer ≠ c.src) → exec (.probeAnswer port c failed) s = .next (s.putDev d)) ∧
    (∀ x e, (d.rec_.probes.filter fun x => x.peer == c.src) = [x] → e = probesClosed d c.src →
      (∀ m, x.behalf = some m →
        exec (.probeAnswer port c failed) s = .next (s.putDev (sendMgmt e m (.probeAnswer c.src)))) ∧
      (x.behalf = none → x.asManager = false →
        exec (.probeAnswer port c failed) s = .next (s.putDev (linkFault e x failed))) ∧
      (∀ j k, x.behalf = none → x.asManager = true → role d = 1 → d.mgr.jobs = [j] → j.launched = false →
        (jobList d j).findIdx? (· == c.src) = some k → k ≠ 0 → k ∉ j.acked →
        exec (.probeAnswer port c failed) s = .next (s.putDev (x.askers.foldl (fun d y => sendMgmt d y (.probeAnswer c.src))
          (sendMgmt e c.src (launchMsg j.id j.spec j.subst j.deputy k c.src))))) ∧
      (x.behalf = none → x.asManager = true → (∀ j ∈ d.mgr.jobs, j.launched = true) →
        exec (.probeAnswer port c failed) s =
          .next (s.putDev (x.askers.foldl (fun d y => sendMgmt d y (.probeAnswer c.src)) e)))) := by
  refine ⟨fun hnone => onMgmt_eq htold hpay rfl ?_, fun x e hone he => ?_⟩
  · simp [probeAnswer, filter_probes_of_none hnone, probesClosed_of_none hnone]
  have hpeer := peer_of_filter_probes hone
  have hprobed : ∀ {e'}, probeAnswered e failed x = e' → exec (.probeAnswer port c failed) s = .next (s.putDev e') :=
    exec_probeAnswer_of_peer htold hpay hone he
  refine ⟨fun m hbehalf => ?_, fun hbehalf hengine => ?_, fun j k hbehalf hman hrole hjobs hnew hpos hk hack => ?_,
    fun hbehalf hman hjobs => ?_⟩
  · exact hprobed (by rw [probeAnswered_of_behalf hbehalf, hpeer])
  · exact hprobed (probeAnswered_of_engine hbehalf hengine)
  · have hrole' : role e = 1 := by rw [he]; exact hrole
    have hjobs' : e.mgr.jobs = [j] := by rw [he]; exact hjobs
    have hpos' : (jobList e j).findIdx? (· == x.peer) = some k := by rw [he, hpeer]; exact hpos
    exact hprobed (by
      rw [probeAnswered_of_manager hbehalf hman, peerLives_of_owed hrole' hjobs' hnew hpos' hk hack, hpeer])
  · have hjobs' : ∀ j ∈ e.mgr.jobs, j.launched = true := by rw [he]; exact hjobs
    exact hprobed (by rw [probeAnswered_of_manager hbehalf hman, peerLives_of_launched hjobs', hpeer])

/-- A fault report, by the role of the device that gets it. -/
theorem faultReport_complete (htold : Told false s.dev port c d) {t : Trouble} (hpay : c.pay = .mgmt (.faultReport t)) :
    (role d = 1 →
      (∀ x, t = .silent x → exec (.faultReport port c) s = .next (s.putDev (managerProbe d c.src x))) ∧
      (∀ x, t = .dark x → exec (.faultReport port c) s = .next (s.putDev (managerProbe d c.src x))) ∧
      (∀ x, t = .selfFault x → exec (.faultReport port c) s = .next (s.putDev (deviceLost d x d.time.now))) ∧
      (∀ x, t = .unanswered x → exec (.faultReport port c) s = .next (s.putDev d)) ∧
      (∀ p j, t = .sequencer p → findJob d p = some j → j.launched = true → j.replaying = false →
        exec (.faultReport port c) s = .next (s.putDev (replayJob d p)))) ∧
    (role d = 2 → t = .selfFault (peerDev d) →
      exec (.faultReport port c) s = .next (s.putDev (takeover d (peerDev d) d.time.now))) ∧
    (role d ≠ 1 → ¬ (role d = 2 ∧ t = .selfFault (peerDev d)) →
      exec (.faultReport port c) s = .next (s.putDev (fabErr d 3))) := by
  have htroubled : ∀ {e}, takeReport c.src t d = e → exec (.faultReport port c) s = .next (s.putDev e) :=
    exec_faultReport_of_trouble htold hpay
  refine ⟨fun hrole => ?_, fun hrole ht => htroubled (takeReport_of_deputy hrole ht),
    fun hrole ht => htroubled (takeReport_of_neither hrole ht)⟩
  have hmanaged : ∀ {e}, faultReport c.src t d = e → exec (.faultReport port c) s = .next (s.putDev e) :=
    fun h => htroubled ((takeReport_of_manager hrole).trans h)
  refine ⟨?_, ?_, ?_, ?_, ?_⟩
  · rintro x rfl
    exact hmanaged rfl
  · rintro x rfl
    exact hmanaged rfl
  · rintro x rfl
    exact hmanaged rfl
  · rintro x rfl
    exact hmanaged rfl
  · rintro p j rfl hjob hlaunched hfirst
    exact hmanaged (faultReport_sequencer hjob hlaunched hfirst)

/-- The restore order: none from a stranger, from the buddy's copy where one is named, else from the spare's tree. -/
theorem snapshotRestore_complete (htold : Told false s.dev port c d) {p g : Nat} {step : U64} {seeds : List U64}
    {buddy : Option DevId} {lost spare : DevId} (hpay : c.pay = .mgmt (.snapshotRestore p g step seeds buddy lost spare)) :
    (trusted d c.src = false → exec (.snapshotRestore port c) s = .next (s.putDev (fabErr d 3))) ∧
    (trusted d c.src = true → (d.part p).valid = true → ∀ e head e1, e = dropStep (abortAll (rillRestart d p) p none) p →
      head = ((e.part p).heads.find? fun h => h.gen == g && h.step == step) →
      e1 = setStepSeeds (e.modPart p fun x => { x with heads := head.toList, refill := none }) p step seeds →
      (∀ b, buddy = some b → exec (.snapshotRestore port c) s =
        .next (s.putDev (sendMgmt (e1.modPart p fun x => { x with refill := some step }) b (.snapAsk p step lost)))) ∧
      (buddy = none → exec (.snapshotRestore port c) s =
        .next (s.putDev (spareFor (restoreRegions e1 p head g (snBuddy (e1.part p))) p lost spare)))) := by
  refine ⟨fun hstranger => onMgmt_eq htold hpay rfl (by rw [if_neg (by simp [hstranger])]), ?_⟩
  intro htrusted hvalid e head e1 he hhead he1
  refine ⟨?_, ?_⟩
  · rintro b rfl
    exact exec_snapshotRestore_of_trusted htold hpay htrusted (by simp [snapshotRestore, hvalid, he1, hhead, he])
  · rintro rfl
    exact exec_snapshotRestore_of_trusted htold hpay htrusted (by simp [snapshotRestore, hvalid, he1, hhead, he])

/-- The messages of the buddy copies (log 82), from members of the partition's job. -/
theorem snapshotCopies_complete (htold : Told false s.dev port c d) {p : Nat}
    (hmember : (jobMembers d p).contains c.src = true) :
    (∀ x g step seeds crcs table, c.pay = .mgmt (.snapHeader x p g step seeds crcs table) →
      exec (.snapshotRestore port c) s = .next (s.putDev (d.modPart p fun z => { z with
        mirrors := z.mirrors.filter (fun y => !(y.dev == x && y.head.gen == g)) ++ [⟨x, ⟨g, step, seeds, crcs⟩, table⟩] }))) ∧
    (∀ step lost m, c.pay = .mgmt (.snapAsk p step lost) →
      ((d.part p).mirrors.find? fun m => (m.dev == lost || m.dev == c.src) && m.head.step == step) = some m →
      exec (.snapshotRestore port c) s = .next (s.putDev
        (sendMgmt d c.src (.snapCopy p m.head.gen m.head.step m.head.seeds m.head.crcs m.table)))) ∧
    (∀ g step seeds crcs table, c.pay = .mgmt (.snapCopy p g step seeds crcs table) → (d.part p).refill = some step →
      exec (.snapshotRestore port c) s = .next (s.putDev
        (let e := d.modPart p fun x => { x with refill := none, heads := [⟨g, step, seeds, crcs⟩] }
         restoreRegions (writeRange e p false (snTable (e.part p)) table) p none g (snBuddy (e.part p))))) := by
  refine ⟨fun x g step seeds crcs table hpay => ?_, fun step lost m hpay hmirror => ?_,
    fun g step seeds crcs table hpay hrefill => ?_⟩
  · exact onMgmt_eq htold hpay rfl (ofMember_of_mem hmember _)
  · exact onMgmt_eq htold hpay rfl ((ofMember_of_mem hmember _).trans (mirrorAsked_of_kept hmirror))
  · exact onMgmt_eq htold hpay rfl ((ofMember_of_mem hmember _).trans (by simp [mirrorCopy, hrefill]))

/-- What only a manager may send (log 63). -/
theorem bossMessages_complete (htold : Told true s.dev port c d) :
    (∀ x, c.pay = .mgmt (.probeRequest x) →
      exec (.probeRequest port c) s = .next (s.putDev (escalateFor d x false (some c.src)))) ∧
    (c.pay = .mgmt .heartbeat → role d ≠ 0 → c.src = peerDev d → exec (.managerHeartbeat port c) s =
      .next (s.putDev { d with mgr := { d.mgr with heard := true, active := d.mgr.active || d.mgr.sent } })) ∧
    (∀ man dep first n, c.pay = .mgmt (.newRoot man dep first n) →
      exec (.newRoot port c) s = .next (s.putDev (newRoot man dep first n d))) :=
  ⟨fun _ hpay => onMgmt_eq htold hpay rfl rfl,
    fun hpay hrole hsrc => onMgmt_eq htold hpay rfl (if_pos ⟨hrole, hsrc⟩),
    fun _ _ _ _ hpay => onMgmt_eq htold hpay rfl rfl⟩

end

/-- The one probe of a peer ends without an answer. -/
theorem peerProbeTimeout_complete {peer : DevId} {s : State} {x : Probe}
    (hone : (s.dev.rec_.probes.filter fun x => x.peer == peer) = [x]) {d : Dev} (hd : d = probesClosed s.dev peer) :
    (∀ m, x.behalf = some m →
      exec (.peerProbeTimeout peer) s = .next (s.putDev (sendMgmt d m (.faultReport (.unanswered peer))))) ∧
    (x.behalf = none → x.asManager = true → role d = 1 →
      exec (.peerProbeTimeout peer) s = .next (s.putDev (deviceLost d peer x.since))) ∧
    (x.behalf = none → x.asManager = true → role d = 2 → peer = peerDev d →
      exec (.peerProbeTimeout peer) s = .next (s.putDev (takeover d peer x.since))) ∧
    (x.behalf = none → x.asManager = false → jobsUnder d peer = [] →
      (reportTo d peer ≠ [] → exec (.peerProbeTimeout peer) s = .next (s.putDev
        (let d := { d with rec_ := { d.rec_ with reported := d.rec_.reported.filter (· != peer) ++ [peer] } }
         (reportTo d peer).foldl (fun d m => sendMgmt d m (.faultReport (.silent peer))) d))) ∧
      (reportTo d peer = [] → exec (.peerProbeTimeout peer) s = .next (s.putDev (peerGivenUp d peer x.since)))) := by
  obtain rfl := peer_of_filter_probes hone
  have hsilent : ∀ {e}, probeSilent d x = e → exec (.peerProbeTimeout x.peer) s = .next (s.putDev e) :=
    fun h => onDev_eq (by rw [peerProbeTimeout_of_one hone, ← hd, h])
  refine ⟨fun m hbehalf => hsilent (probeSilent_of_behalf hbehalf),
    fun hbehalf hman hrole => hsilent (probeSilent_of_manager hbehalf hman hrole),
    fun hbehalf hman hrole hmine => hsilent (probeSilent_of_deputy hbehalf hman hrole hmine),
    fun hbehalf hengine hunder => ⟨fun hmanagers => ?_, fun hnobody => ?_⟩⟩
  · exact hsilent ((probeSilent_of_engine hbehalf hengine).trans (by simp [peerSilent, hunder, hmanagers]))
  · exact hsilent ((probeSilent_of_engine hbehalf hengine).trans (by simp [peerSilent, hunder, hnobody]))

/-- Settles O44: each message is told, and the one probe of its peer, the roles and the job's state choose what it
does. -/
theorem probeAndHeartbeatCommandsComplete : Obligations.ProbeAndHeartbeatCommandsComplete := by
  unfold Obligations.ProbeAndHeartbeatCommandsComplete
  refine ⟨fun port c s d htold => ⟨fun x hpay => onMgmt_eq htold hpay rfl rfl,
      fun failed hpay => probeAnswer_of_peer_complete htold hpay, fun peer failed hpay hother => ?_,
      fun t hpay => faultReport_complete htold hpay, fun x p g step seeds hpay => ?_,
      fun p g step seeds buddy lost spare hpay => snapshotRestore_complete htold hpay,
      fun p hmember => snapshotCopies_complete htold hmember⟩,
    fun port c s d htold => bossMessages_complete htold, fun s hrole hpeer => ?_, fun s hrole hactive => ?_,
    fun peer s hnone => ?_, fun peer s x hone d hd => peerProbeTimeout_complete hone hd⟩
  · refine ⟨fun x hone => exec_probeAnswer_of_other htold hpay hother (heardOf_of_probe hone),
      fun hnone => ⟨fun hreported hsrc => ?_, fun hnot => ?_⟩⟩
    · exact exec_probeAnswer_of_other htold hpay hother (heardOf_of_reported hnone hreported hsrc)
    · exact exec_probeAnswer_of_other htold hpay hother (heardOf_of_unasked hnone hnot)
  · exact ⟨fun hrole => exec_faultReport_of_snapshot htold hpay (by rw [snapshotKnown, if_neg hrole]),
      fun hrole => exec_faultReport_of_snapshot htold hpay (by rw [snapshotKnown, if_pos hrole])⟩
  · exact onDev_eq (by simp [heartbeatPeriod, hrole, hpeer])
  · show execHeartbeatTimeout s = _
    exact onDev_eq (if_pos ⟨hrole, hactive⟩)
  · exact onDev_eq (d := s.dev) (by simp [peerProbeTimeout, filter_probes_of_none hnone, probesClosed_of_none hnone])

end Sys2Proof.Machine
end

section
/-! Job launch, fences, and the pause and resume of a job (R226, R473 to R482): what each message leaves. -/

namespace Sys2Proof.Machine

/-! ### A member's side of a launch -/

section
variable {d d1 : Dev} {c : Cell} {id : U64} {pos : Nat} {spec : List Byte} {subst : List (Nat × DevId)} {dep : DevId} {l : Launch}

/-- The launch cell of an unknown launch is passed on, set up and acknowledged. -/
theorem launchCell_of_unknown (hpos : pos ≠ 0)
    (hd1 : d1 = toChildren d c.src (spawnList (membersOf spec subst) c.src) pos (launchMsg id spec subst dep))
    (hnew : launchById d1 id = none) {d2 : Dev} (hjoin : launchJoin d1 id c.src dep spec subst = (d2, l)) :
    launchCell c id pos spec subst dep d = sendMgmt d2 c.src (.launchAck id pos l.status) := by
  simp only [launchCell, if_neg hpos, ← hd1, hnew, hjoin]

theorem launchDone_of_member (hrole : role d ≠ 2) (hd1 : d1 = adopt d id subst) (hknown : launchById d1 id = some l) :
    launchDone id subst d = launchOpen (passDown d1 l fun _ _ => .launchDone id subst) id := by
  simp only [launchDone, if_neg hrole, ← hd1, hknown]

theorem launchAbort_of_member {st : Byte} (hrole : role d ≠ 2) (hd1 : d1 = adopt d id subst)
    (hknown : launchById d1 id = some l) (hclosed : l.open_ = false) :
    launchAbort id st subst d =
      launchedEvent (launchUndo (passDown d1 l fun _ _ => .launchAbort id st subst) l) l.part id st.toNat := by
  simp only [launchAbort, if_neg hrole, ← hd1, hknown, hclosed, Bool.false_eq_true, if_false]

theorem jobFailed_of_member (hrole : role d ≠ 2) (hknown : launchById d id = some l) :
    jobFailed id d = jobEnds (passDown d l fun _ _ => .jobFailed id) l.part := by
  simp only [jobFailed, if_neg hrole, hknown]

theorem jobResume_of_known {p : Nat} {l0 : Launch} (hl0 : launchOf d p = some l0) (hd1 : d1 = adopt d l0.id subst)
    (hl : launchOf d1 p = some l) :
    jobResume p subst d = sendMgmt (resumePart (passDown d1 l fun _ _ => .resume p subst) p) l.manager (.resumeAck p) := by
  simp only [jobResume, hl0, ← hd1, hl]

end

/-! ### The manager's side of a launch -/

section
variable {d : Dev} {c : Cell} {id : U64} {pos : Nat} {st : Byte} {j : Job}

theorem launchAck_of_unknown (hjob : findJobId d id = none) :
    launchAck c id pos st d = sendMgmt d c.src (.launchAbort id (BitVec.ofNat 8 sInternal) []) := by
  simp only [launchAck, hjob]

/-- An acknowledgement from the device that stands at its position is taken. -/
theorem launchAck_of_known (hrole : role d = 1) (hjob : findJobId d id = some j) (hsrc : (jobList d j).getD pos 0 = c.src)
    (hpos : pos ≠ 0) :
    launchAck c id pos st d =
      if j.launched then spareReady d j c.src pos st
      else if st ≠ 0 then launchFails (modJobId d id fun j => { j with badPos := some pos, status := st }) id st.toNat
      else launchSettle (modJobId d id fun j => { j with
        acked := if j.acked.contains pos then j.acked else j.acked ++ [pos] }) id := by
  have htaken : ¬ (role d ≠ 1 ∨ (jobList d j).getD pos 0 ≠ c.src ∨ pos = 0) := by
    rintro (h | h | h)
    · exact h hrole
    · exact h hsrc
    · exact hpos h
  simp only [launchAck, hjob, if_neg htaken]

/-- A drawn spare of a launched job that runs no replay takes work from then on. -/
theorem spareReady_of_ok {spare : DevId} (hspare : (j.subst.map (·.2)).contains spare = true) (hack : pos ∉ j.acked)
    (hcalm : j.replaying = false) :
    spareReady d j spare pos 0 =
      sendMgmt (modJobId d j.id fun j => { j with acked := j.acked ++ [pos] }) spare (.launchDone j.id j.subst) := by
  have hready : ¬ ((!(j.subst.map (·.2)).contains spare) = true ∨ j.acked.contains pos = true) := by
    rw [hspare]
    simpa using hack
  rw [spareReady, if_neg hready, if_neg (fun h => h rfl)]
  simp [hcalm]

/-- A member is told paused at most once: the form in which the statement spells it. -/
theorem pausedBy_eq (src : DevId) : pausedBy src = fun j =>
    if j.members.contains src && !j.paused.contains src then { j with
      paused := j.paused ++ [src], pausing := j.pausing || !j.past.isEmpty, pauseMark := j.pauseMark || (!j.pausing && j.past.isEmpty) }
    else j := by
  funext j
  rw [pausedBy]
  cases j.members.contains src <;> cases j.paused.contains src <;> rfl

end

/-! ### Fences -/

section
variable {d d1 : Dev} {c : Cell} {f : DevId} {e : BitVec 4}

/-- What a fence does at the device d2, once its report of f is closed and a deputy has noted the epoch. -/
theorem fenceCell_eq {d2 : Dev} {rejoin : Bool}
    (hd1 : d1 = { d with rec_ := { d.rec_ with reported := d.rec_.reported.filter (· != f) } })
    (hd2 : d2 = if role d = 2 ∧ !rejoin then deputySees d1 (devRack f) e else d1) :
    fenceCell c f e rejoin d = sendMgmt
      (if f = myId d then
        if rejoin then ((List.range 16).filter fun p => jobValid (d2.part p)).foldl dropPartition (setFloor (setCur d2 e) e)
        else setFloor d2 e
      else if devRack f = rackNum d then
        if rejoin then setFenced d2 f false else unlive (endWith (setFenced (setCur d2 e) f true) f) f
      else if rejoin then d2
      else unlive (endWith d2 f) f) c.src (.fenceAck f) := by
  have hself : myId d2 = myId d := by
    rw [hd2, hd1]
    split <;> rfl
  have hrack : rackNum d2 = rackNum d := by
    rw [hd2, hd1]
    split <;> rfl
  rw [← hself, ← hrack, hd2, hd1]
  rfl

end

/-! ### The statement's parts -/

section
variable {port : Nat} {c : Cell} {s : State} {d : Dev}

theorem fence_complete (htold : Told true s.dev port c d) {f : DevId} {e : BitVec 4} {rejoin : Bool} {d1 : Dev}
    (hpay : c.pay = .mgmt (.fence f e rejoin))
    (hd1 : d1 = { d with rec_ := { d.rec_ with reported := d.rec_.reported.filter (· != f) } }) :
    (role d ≠ 2 → f = myId d → rejoin = false →
      exec (.fence port c) s = .next (s.putDev (sendMgmt (setFloor d1 e) c.src (.fenceAck f)))) ∧
    (f ≠ myId d → devRack f = rackNum d → rejoin = true →
      exec (.fence port c) s = .next (s.putDev (sendMgmt (setFenced d1 f false) c.src (.fenceAck f)))) ∧
    (role d ≠ 2 → f ≠ myId d → devRack f = rackNum d → rejoin = false → exec (.fence port c) s =
      .next (s.putDev (sendMgmt (unlive (endWith (setFenced (setCur d1 e) f true) f) f) c.src (.fenceAck f)))) ∧
    (role d = 2 → f ≠ myId d → devRack f = rackNum d → rejoin = false → exec (.fence port c) s = .next (s.putDev
      (sendMgmt (unlive (endWith (setFenced (setCur (deputySees d1 (devRack f) e) e) f true) f) f) c.src (.fenceAck f)))) ∧
    (role d ≠ 2 → f ≠ myId d → devRack f ≠ rackNum d → rejoin = false → exec (.fence port c) s =
      .next (s.putDev (sendMgmt (unlive (endWith d1 f) f) c.src (.fenceAck f)))) := by
  have hfence : ∀ {e'}, fenceCell c f e rejoin d = e' → exec (.fence port c) s = .next (s.putDev e') :=
    onMgmt_eq htold hpay rfl
  have hworker : role d ≠ 2 → d1 = if role d = 2 ∧ !false then deputySees d1 (devRack f) e else d1 :=
    fun hrole => (if_neg fun h => hrole h.1).symm
  refine ⟨?_, ?_, ?_, ?_, ?_⟩
  · rintro hrole hself rfl
    exact hfence (by rw [fenceCell_eq hd1 (hworker hrole), if_pos hself, if_neg Bool.false_ne_true])
  · rintro hother hrack rfl
    have hd2 : d1 = if role d = 2 ∧ !true then deputySees d1 (devRack f) e else d1 :=
      (if_neg fun h => Bool.false_ne_true h.2).symm
    exact hfence (by rw [fenceCell_eq hd1 hd2, if_neg hother, if_pos hrack, if_pos rfl])
  · rintro hrole hother hrack rfl
    exact hfence (by
      rw [fenceCell_eq hd1 (hworker hrole), if_neg hother, if_pos hrack, if_neg Bool.false_ne_true])
  · rintro hrole hother hrack rfl
    have hd2 : deputySees d1 (devRack f) e = if role d = 2 ∧ !false then deputySees d1 (devRack f) e else d1 :=
      (if_pos ⟨hrole, rfl⟩).symm
    exact hfence (by rw [fenceCell_eq hd1 hd2, if_neg hother, if_pos hrack, if_neg Bool.false_ne_true])
  · rintro hrole hother hrack rfl
    exact hfence (by
      rw [fenceCell_eq hd1 (hworker hrole), if_neg hother, if_neg hrack, if_neg Bool.false_ne_true])

theorem launchAck_complete (htold : Told false s.dev port c d) (hrole : role d = 1) {id : U64} {pos : Nat} {st : Byte}
    (hpay : c.pay = .mgmt (.launchAck id pos st)) :
    (findJobId d id = none → exec (.launchAck port c) s =
      .next (s.putDev (sendMgmt d c.src (.launchAbort id (BitVec.ofNat 8 sInternal) [])))) ∧
    (∀ j, findJobId d id = some j → (jobList d j).getD pos 0 = c.src → pos ≠ 0 →
      (j.launched = false → st = 0 → exec (.launchAck port c) s = .next (s.putDev (launchSettle (modJobId d id fun j =>
        { j with acked := if j.acked.contains pos then j.acked else j.acked ++ [pos] }) id))) ∧
      (j.launched = false → st ≠ 0 → exec (.launchAck port c) s = .next (s.putDev
        (launchFails (modJobId d id fun j => { j with badPos := some pos, status := st }) id st.toNat))) ∧
      (j.launched = true → st = 0 → (j.subst.map (·.2)).contains c.src = true → pos ∉ j.acked → j.replaying = false →
        exec (.launchAck port c) s = .next (s.putDev (sendMgmt (modJobId d j.id fun j => { j with acked := j.acked ++ [pos] })
          c.src (.launchDone j.id j.subst))))) := by
  have hack : ∀ {e}, launchAck c id pos st d = e → exec (.launchAck port c) s = .next (s.putDev e) :=
    fun h => onMgmt_eq htold hpay rfl ((atManager_of_role hrole _).trans h)
  refine ⟨fun hjob => hack (launchAck_of_unknown hjob), fun j hjob hsrc hpos => ?_⟩
  have hknown := launchAck_of_known (st := st) hrole hjob hsrc hpos
  refine ⟨?_, ?_, ?_⟩
  · rintro hnew rfl
    exact hack (by rw [hknown, if_neg (by simp [hnew]), if_neg (fun h => h rfl)])
  · intro hnew hst
    exact hack (by rw [hknown, if_neg (by simp [hnew]), if_pos hst])
  · rintro hlaunched rfl hspare hfresh hcalm
    exact hack (by rw [hknown, if_pos hlaunched, spareReady_of_ok hspare hfresh hcalm])

end

theorem launchTimeout_of_open {d : Dev} {id : U64} {j : Job} (hjob : findJobId d id = some j) (hrole : role d = 1)
    (hnew : j.launched = false) :
    launchTimeout id d = (let e := modJobId d id fun j => { j with rounds := j.rounds + 1 }
      (unacked e j).foldl (fun e k => escalate e ((jobList d j).getD k 0) true) e) := by
  simp only [launchTimeout, hjob, hrole, hnew]
  rfl

theorem fenceEpochWait_of_cooling {d e : Dev} {rack : Nat} (hcool : rack ∈ d.mgr.cooling)
    (he : e = fenceNext { d with mgr := { d.mgr with cooling := dropFirst (· == rack) d.mgr.cooling } } rack) :
    fenceEpochWait rack d = if role e ≠ 1 then e
      else (e.mgr.fences.flatMap (·.waiting)).eraseDups.foldl (fun d x => escalate d x true) e := by
  have hcooling : ¬ (!d.mgr.cooling.contains rack) = true := by simpa using hcool
  rw [fenceEpochWait, if_neg hcooling, ← he]

/-- Settles O45: each message is told, and the launch, the job or the fence it names chooses what it does. -/
theorem managerCommandsComplete : Obligations.ManagerCommandsComplete := by
  unfold Obligations.ManagerCommandsComplete
  refine ⟨fun port c s d htold => ⟨?_, ?_, ?_, fun f e rejoin d1 hpay hd1 => fence_complete htold hpay hd1, ?_⟩,
    fun port c s d htold hrole => ⟨fun id pos st hpay => launchAck_complete htold hrole hpay, ?_, ?_, ?_, ?_⟩, ?_, ?_⟩
  · intro id pos rank spec subst dep l d1 d2 hpay hpos hd1 hnew hjoin
    exact onMgmt_eq htold hpay rfl (launchCell_of_unknown hpos hd1 hnew hjoin)
  · intro id subst l d1 hrole hd1 hknown
    exact ⟨fun hpay => onMgmt_eq htold hpay rfl (launchDone_of_member hrole hd1 hknown),
      fun st hpay hclosed => onMgmt_eq htold hpay rfl (launchAbort_of_member hrole hd1 hknown hclosed)⟩
  · intro id l hpay hrole hknown
    exact onMgmt_eq htold hpay rfl (jobFailed_of_member hrole hknown)
  · intro p subst l0 l d1 hpay hl0 hd1 hl
    exact onMgmt_eq htold hpay rfl (jobResume_of_known hl0 hd1 hl)
  · intro f hpay
    exact onMgmt_eq htold hpay rfl (atManager_of_role hrole _)
  · intro p hpay
    exact onMgmt_eq htold hpay rfl (atManager_of_role hrole _)
  · intro p hpay
    exact onMgmt_eq htold hpay rfl (atManager_of_role hrole _)
  · intro p hpay
    exact onMgmt_eq htold hpay rfl ((atManager_of_role hrole _).trans (by rw [pausedBy_eq]))
  · intro id s j hjob hrole hnew
    exact onDev_eq (launchTimeout_of_open hjob hrole hnew)
  · intro rack s hcool d hd
    exact ⟨fun hrole => onDev_eq (by rw [fenceEpochWait_of_cooling hcool hd, if_pos hrole]),
      fun hrole => onDev_eq (by rw [fenceEpochWait_of_cooling hcool hd, if_neg (fun h => h hrole)])⟩

end Sys2Proof.Machine
end

section
/-! The Ethernet port (R432 to R435, R464, R466, R493): what a frame, an address event and a PTP message leave. -/

namespace Sys2Proof.Machine

theorem onDevF_eq {f : Fuses → Dev → Dev} {s : State} {d : Dev} (h : f s.fuses s.dev = d) :
    onDevF f s = .next (s.putDev d) := by
  rw [onDevF, h, State.putDev]

/-! ### Frames -/

section
variable {f : Frame} {fu : Fuses} {d : Dev}

theorem link_of_uhpUp (hup : uhpUp d = true) : d.host.link = true := by
  rw [uhpUp, Bool.and_eq_true] at hup
  exact hup.1

/-- While the port answers, a frame is dropped or taken. -/
theorem ethFrame_of_up (hup : uhpUp d = true) : ethFrame f fu d =
    if !f.fcsOk || !forUs fu.mac f.dst || !tagsOk d f.tags || decide (f.length > fld d.host.netCfg 37 24) || f.pauseOrPfc
    then hostErr (if f.fcsOk then d else hostErr d 0 1) 1 1 else frameTaken f fu d := by
  simp only [ethFrame, link_of_uhpUp hup, hup, Bool.not_true, Bool.false_eq_true, if_false]

theorem ethFrame_of_badFcs (hup : uhpUp d = true) (hfcs : f.fcsOk = false) :
    ethFrame f fu d = hostErr (hostErr d 0 1) 1 1 := by
  simp [ethFrame_of_up hup, hfcs]

theorem ethFrame_of_dropped (hup : uhpUp d = true) (hfcs : f.fcsOk = true)
    (hbad : forUs fu.mac f.dst = false ∨ tagsOk d f.tags = false ∨ fld d.host.netCfg 37 24 < f.length ∨ f.pauseOrPfc = true) :
    ethFrame f fu d = hostErr d 1 1 := by
  rcases hbad with h | h | h | h <;> simp [ethFrame_of_up hup, hfcs, h]

theorem ethFrame_of_good (hup : uhpUp d = true) (hfcs : f.fcsOk = true) (hdst : forUs fu.mac f.dst = true)
    (htags : tagsOk d f.tags = true) (hlen : f.length ≤ fld d.host.netCfg 37 24) (hpause : f.pauseOrPfc = false) :
    ethFrame f fu d = frameTaken f fu d := by
  simp [ethFrame_of_up hup, hfcs, hdst, htags, hpause, Nat.not_lt.mpr hlen]

/-- Before the port answers, only an advertisement of another node's address is looked at. -/
theorem ethFrame_of_down (hdown : uhpUp d = false) (hother : ∀ a, f.payload ≠ .neighborAdvertisement a) :
    ethFrame f fu d = d := by
  cases hpay : f.payload with
  | neighborAdvertisement a => exact absurd hpay (hother a)
  | _ => simp only [ethFrame, hdown, hpay, Bool.not_false, if_true, ite_self]

end

/-! ### What a frame holds -/

section
variable {f : Frame} {fu : Fuses} {d e : Dev} (he : e = if f.ce then hostErr d 5 1 else d)
include he

theorem frameTaken_of_quiet (hpay : f.payload = .lldp ∨ f.payload = .other) : frameTaken f fu d = e := by
  rcases hpay with h | h <;> simp only [frameTaken, ← he, h]

theorem frameTaken_of_uhp {ty : BitVec 4} {rsvd : Bool} {len : U16} (hpay : f.payload = .uhp ty rsvd len) :
    frameTaken f fu d = if ty = 0 ∨ ty.toNat > 9 ∨ rsvd ∨ len.toNat > 8224 then hostErr e 2 1 else e := by
  simp only [frameTaken, ← he, hpay]

/-- Counting a CE mark touches neither the boot stage nor the addresses. -/
theorem ceCounted_frame : e.boot = d.boot ∧ e.host.ip6 = d.host.ip6 ∧ e.host.ip6Dup = d.host.ip6Dup := by
  rw [he]
  split <;> exact ⟨rfl, rfl, rfl⟩

/-- In recovery, without an address, the DHCPv6 exchange goes on. -/
theorem dhcpv6_goes_on (hstage : d.boot.stage = .recovery) (hnone : d.host.ip6 = none) (hfree : d.host.ip6Dup = false) :
    ¬ (e.boot.stage ≠ .recovery ∨ e.host.ip6.isSome = true ∨ e.host.ip6Dup = true) := by
  obtain ⟨hboot, hip6, hdup⟩ := ceCounted_frame he
  rw [hboot, hip6, hdup, hstage, hnone, hfree]
  simp

theorem frameTaken_of_advertise {n : Nat} {a : BitVec 128} (hpay : f.payload = .dhcpv6Advertise n a)
    (hstage : d.boot.stage = .recovery) (hnone : d.host.ip6 = none) (hfree : d.host.ip6Dup = false) :
    frameTaken f fu d = sendFrame e (.dhcpv6Request n a) := by
  simp only [frameTaken, ← he, hpay]
  exact if_neg (dhcpv6_goes_on he hstage hnone hfree)

theorem frameTaken_of_reply {a : BitVec 128} (hpay : f.payload = .dhcpv6Reply a)
    (hstage : d.boot.stage = .recovery) (hnone : d.host.ip6 = none) (hfree : d.host.ip6Dup = false) :
    frameTaken f fu d = formGlobal e a := by
  simp only [frameTaken, ← he, hpay]
  exact if_neg (dhcpv6_goes_on he hstage hnone hfree)

end

/-! ### Answers and address events -/

section
variable {s : State} {fu : Fuses} {d : Dev}

theorem neighborSolicitation_of_own {src target : BitVec 128} (hup : uhpUp d = true) (hown : target ∈ ownAddrs fu d) :
    neighborSolicitation src target fu d = sendFrame d (.neighborAdvertisement src target) := by
  simp [neighborSolicitation, link_of_uhpUp hup, hup, hown]

theorem echoRequest_of_room {src : BitVec 128} {data : List Byte} (hup : uhpUp d = true)
    (hsec : d.host.echoSecond = d.time.now / 1000000000) (hroom : d.host.echoCount < 100) :
    echoRequest src data d = sendFrame (modHost d fun h => { h with
      echoSecond := d.time.now / 1000000000, echoCount := d.host.echoCount + 1 }) (.echoReply src data) := by
  simp [echoRequest, hup, hsec, Nat.not_le.mpr hroom]

theorem echoRequest_of_down {src : BitVec 128} {data : List Byte} (hdown : uhpUp d = false) :
    echoRequest src data d = d := by
  simp [echoRequest, hdown]

theorem arpRequest_of_down {sender target : U32} (hdown : uhpUp d = false) : arpRequest sender target d = d := by
  simp [arpRequest, hdown]

theorem routerAdvertisement_of_fresh {pfx : U64} (hlink : d.host.link = true) (hnone : d.host.ip6 = none)
    (hfree : d.host.ip6Dup = false) (hstage : d.boot.stage = .network ∨ d.boot.stage = .ready) :
    routerAdvertisement pfx 64 true fu d = formGlobal d (BitVec.ofNat 128 (pfx.toNat * 2 ^ 64 + eui64 fu.mac)) := by
  rw [routerAdvertisement, if_neg]
  rcases hstage with h | h <;> simp [hlink, hnone, hfree, h]

end

/-! ### The link -/

section
variable {fu : Fuses} {d e : Dev} (hlink : d.host.link = false)
  (he : e = sendFrame (modHost d fun h => { h with link := true, downSince := none, llSince := some d.time.now, llDup := false })
    (.neighborSolicitation (linkLocal fu.mac)))
include hlink he

/-- From the network stage on, a link that comes up has its link-local address probed; a recovery boot without an
address solicits one besides. -/
theorem ethLinkUp_of_booted (hstage : d.boot.stage = .network ∨ d.boot.stage = .ready ∨ d.boot.stage = .recovery) :
    ethLinkUp fu d = if d.boot.stage = .recovery ∧ d.host.ip6.isNone then sendFrame e .dhcpv6Solicit else e := by
  have hup : ¬ (d.host.link = true ∨
      (!(d.boot.stage == .network || d.boot.stage == .ready || d.boot.stage == .recovery)) = true) := by
    rcases hstage with h | h | h <;> simp [hlink, h]
  rw [ethLinkUp, if_neg hup, he]
  rfl

end

/-! ### PTP -/

section
variable {d : Dev}

/-- A message of the domain, with the clock enabled. -/
def PtpHeard (d : Dev) (m : PtpMsg) : Prop :=
  d.host.link = true ∧ d.boot.stage = .ready ∧ bit d.host.ptpCfg 8 = true ∧ fld d.host.ptpCfg 7 0 = (ptpDomain m).toNat

variable {m : PtpMsg} (hheard : PtpHeard d m)
include hheard

theorem ptpSync_guard_of_heard :
    ¬ (!d.host.link ∨ d.boot.stage ≠ .ready ∨ !bit d.host.ptpCfg 8 ∨ fld d.host.ptpCfg 7 0 ≠ (ptpDomain m).toNat) := by
  obtain ⟨hlink, hstage, hen, hdom⟩ := hheard
  simp [hlink, hstage, hen, hdom]

theorem ptpSync_of_announce {n : Byte} {src : PtpPort} {x : PtpData} (hm : m = .announce n src x) :
    ptpSync m d = modPtp d fun y => { y with masters := (y.masters.filter fun z => z.1 != src) ++ [(src, x)] } := by
  rw [ptpSync.eq_def, if_neg (ptpSync_guard_of_heard hheard), hm]

theorem ptpSync_of_sync {n : Byte} {src : PtpPort} {seq : U16} {two : Bool} {t1 : Nat} {e : Dev}
    (hm : m = .sync n src seq two t1) (hmaster : ptpMaster d = some src)
    (he : e = { d with time := { d.time with holdover := false } }) :
    ptpSync m d = if two then modPtp e fun x => { x with sync := some (seq, e.time.now) } else ptpSynced t1 e.time.now e := by
  rw [ptpSync.eq_def, if_neg (ptpSync_guard_of_heard hheard), hm, he]
  simp only [hmaster, ne_eq, not_true_eq_false, if_false]

theorem ptpSync_of_followUp {n : Byte} {src : PtpPort} {seq : U16} {t1 t2 : Nat} (hm : m = .followUp n src seq t1)
    (hmaster : ptpMaster d = some src) (hsync : d.host.ptp.sync = some (seq, t2)) : ptpSync m d = ptpSynced t1 t2 d := by
  rw [ptpSync.eq_def, if_neg (ptpSync_guard_of_heard hheard), hm]
  simp [hmaster, hsync]

theorem ptpSync_of_delayResp {n : Byte} {src : PtpPort} {seq : U16} {t3 t4 : Nat} (hm : m = .delayResp n src seq t4)
    (hmaster : ptpMaster d = some src) (hreq : d.host.ptp.req = some (seq, t3)) : ptpSync m d = ptpDelay t4 d := by
  rw [ptpSync.eq_def, if_neg (ptpSync_guard_of_heard hheard), hm]
  simp [hmaster, hreq]

end

/-! ### The statement's parts -/

/-- What a frame leaves that is dropped by none of the port's checks. -/
theorem goodFrame_complete {s : State} (hup : uhpUp s.dev = true) {f : Frame} {d : Dev} (hfcs : f.fcsOk = true)
    (hdst : forUs s.fuses.mac f.dst = true) (htags : tagsOk s.dev f.tags = true)
    (hlen : f.length ≤ fld s.dev.host.netCfg 37 24) (hpause : f.pauseOrPfc = false)
    (hd : d = if f.ce then hostErr s.dev 5 1 else s.dev) :
    (f.payload = .lldp ∨ f.payload = .other → exec (.ethFrame f) s = .next (s.putDev d)) ∧
    (∀ ty rsvd len, f.payload = .uhp ty rsvd len →
      ((ty = 0 ∨ 9 < ty.toNat ∨ rsvd = true ∨ 8224 < len.toNat) → exec (.ethFrame f) s = .next (s.putDev (hostErr d 2 1))) ∧
      (ty ≠ 0 → ty.toNat ≤ 9 → rsvd = false → len.toNat ≤ 8224 → exec (.ethFrame f) s = .next (s.putDev d))) ∧
    (s.dev.boot.stage = .recovery → s.dev.host.ip6 = none → s.dev.host.ip6Dup = false →
      (∀ n a, f.payload = .dhcpv6Advertise n a → exec (.ethFrame f) s = .next (s.putDev (sendFrame d (.dhcpv6Request n a)))) ∧
      (∀ a, f.payload = .dhcpv6Reply a → exec (.ethFrame f) s = .next (s.putDev (formGlobal d a)))) := by
  have htaken : ∀ {e}, frameTaken f s.fuses s.dev = e → exec (.ethFrame f) s = .next (s.putDev e) :=
    fun h => onDevF_eq ((ethFrame_of_good hup hfcs hdst htags hlen hpause).trans h)
  refine ⟨fun hpay => htaken (frameTaken_of_quiet hd hpay), fun ty rsvd len hpay => ⟨fun hbad => ?_, fun hty h9 hrsvd h8224 => ?_⟩,
    fun hstage hnone hfree => ⟨fun n a hpay => ?_, fun a hpay => ?_⟩⟩
  · exact htaken (by rw [frameTaken_of_uhp hd hpay, if_pos hbad])
  · have hgood : ¬ (ty = 0 ∨ ty.toNat > 9 ∨ rsvd = true ∨ len.toNat > 8224) := by
      rintro (h | h | h | h)
      · exact hty h
      · omega
      · simp [hrsvd] at h
      · omega
    exact htaken (by rw [frameTaken_of_uhp hd hpay, if_neg hgood])
  · exact htaken (frameTaken_of_advertise hd hpay hstage hnone hfree)
  · exact htaken (frameTaken_of_reply hd hpay hstage hnone hfree)

/-- Settles O46: frames by the port's checks and their payload, address events by the boot stage, PTP messages by the
best master. -/
theorem ethernetCommandsComplete : Obligations.EthernetCommandsComplete := by
  unfold Obligations.EthernetCommandsComplete
  refine ⟨fun s hup => ⟨?_, ?_, ?_, ?_, ?_, ?_⟩, fun s hdown => ⟨?_, ?_, ?_⟩, fun s hlink => ⟨?_, ?_, ?_, ?_, ?_⟩,
    fun s hlink => ⟨?_, ?_⟩, fun s => rfl, ?_⟩
  · exact fun f hfcs => onDevF_eq (ethFrame_of_badFcs hup hfcs)
  · exact fun f hfcs hbad => onDevF_eq (ethFrame_of_dropped hup hfcs hbad)
  · exact fun f d hfcs hdst htags hlen hpause hd => goodFrame_complete hup hfcs hdst htags hlen hpause hd
  · exact fun src target hown => onDevF_eq (neighborSolicitation_of_own hup hown)
  · exact fun src data hsec hroom => onDev_eq (echoRequest_of_room hup hsec hroom)
  · exact fun sender target hused htarget => onDev_eq (arpRequest_of_used hup hused htarget)
  · exact fun f hother => onDevF_of_fixed (ethFrame_of_down hdown hother)
  · exact fun src data => onDev_of_fixed (echoRequest_of_down hdown)
  · exact fun a b => onDev_of_fixed (arpRequest_of_down hdown)
  · exact fun pfx hnone hfree hstage => onDevF_eq (routerAdvertisement_of_fresh hlink hnone hfree hstage)
  · show execLldpTimer s = _
    exact onDevF_eq (if_pos hlink)
  · intro m hstage hen hdom
    have hheard : PtpHeard s.dev m := ⟨hlink, hstage, hen, hdom⟩
    exact ⟨fun n src x hm => onDev_eq (ptpSync_of_announce hheard hm),
      fun n src seq two t1 d hm hmaster hd => onDev_eq (ptpSync_of_sync hheard hm hmaster hd),
      fun n src seq t1 t2 hm hmaster hsync => onDev_eq (ptpSync_of_followUp hheard hm hmaster hsync),
      fun n src seq t3 t4 hm hmaster hreq => onDev_eq (ptpSync_of_delayResp hheard hm hmaster hreq)⟩
  · exact onDev_eq (by simp [ethLinkDown, hlink])
  · intro hstage hnone
    show execDhcpv6Resolicit s = _
    exact onDev_eq (if_pos (by simp [inRecovery, hstage, hlink, hnone]))
  · exact onDev_eq (by simp [ethLinkDown, hlink])
  · intro d hd
    refine ⟨fun hstage => ?_, fun hstage hnone => ?_⟩
    · have hbooted : s.dev.boot.stage = .network ∨ s.dev.boot.stage = .ready ∨ s.dev.boot.stage = .recovery :=
        hstage.imp_right (Or.imp_right And.left)
      have hsettled : ¬ (s.dev.boot.stage = .recovery ∧ s.dev.host.ip6.isNone = true) := by
        rcases hstage with h | h | ⟨-, h⟩
        · simp [h]
        · simp [h]
        · rintro ⟨-, hnone⟩
          simp [Option.isNone_iff_eq_none.mp hnone] at h
      exact onDevF_eq (by rw [ethLinkUp_of_booted hlink hd hbooted, if_neg hsettled])
    · have hsolicits : s.dev.boot.stage = .recovery ∧ s.dev.host.ip6.isNone = true := ⟨hstage, by rw [hnone]; rfl⟩
      exact onDevF_eq (by rw [ethLinkUp_of_booted hlink hd (.inr (.inr hstage)), if_pos hsolicits])
  · intro s hstage hen
    have hon : (s.dev.boot.stage == .ready && bit s.dev.host.ptpCfg 8) = true := by rw [hstage, hen]; rfl
    exact onDev_eq (if_pos hon)

end Sys2Proof.Machine
end

section
/-! UHP sessions (R436 to R444): what a HELLO, a sequenced message, an acknowledgement and a timer leave. -/

namespace Sys2Proof.Machine

/-! ### Numbers of a message -/

theorem fld_lt_two_pow {w : Nat} (x : BitVec w) (hi lo : Nat) : fld x hi lo < 2 ^ (hi + 1 - lo) :=
  Nat.mod_lt _ (Nat.two_pow_pos _)

theorem leNat_lt (bs : List Byte) : leNat bs < 256 ^ bs.length := by
  induction bs with
  | nil => decide
  | cons b bs ih =>
    have hb := b.isLt
    rw [leNat, List.length_cons, Nat.pow_succ]
    omega

/-- The number in n bytes lies below 256 ^ n. -/
theorem le_lt (bs : List Byte) (o n : Nat) : le bs o n < 256 ^ n :=
  Nat.lt_of_lt_of_le (leNat_lt _) (Nat.pow_le_pow_right (by decide) (List.length_take_le _ _))

theorem agree_mem {own : List Nat} {lo hi v : Nat} (h : agree own lo hi = some v) : v ∈ own := List.mem_of_find?_eq_some h

/-! ### HELLO -/

section
variable {m : UhpMsg} {fu : Fuses} {d c : Dev}

/-- A HELLO as R439 has it: no session, no sequence numbers, a body of 16 bytes. -/
def HelloSound (m : UhpMsg) : Prop :=
  m.rsvd = false ∧ m.ece = false ∧ m.session = 0xFFFF ∧ m.seq = 0 ∧ m.ackno = 0 ∧ m.body.length = 16 ∧ m.len = 16 ∧
  le m.body 4 4 = 0

/-- What the device remembers of a HELLO that it answers. -/
def helloKept (m : UhpMsg) (a : OutMsg × Bool × Dev) : Dev :=
  modHost a.2.2 fun h => { h with hellos := (h.hellos.filter fun x => decide (a.2.2.time.now < x.at_ + 1000000000)) ++
    [⟨m.hostAddr, m.hostPort, BitVec.ofNat 64 (le m.body 8 8), a.2.2.time.now, a.1, a.2.1⟩] }

/-- A sound HELLO gets the answer that it got before, or a new one. -/
theorem helloMsg_of_sound (hup : uhpUp d = true) (hdst : forPart fu d m.dst = true) (hsound : HelloSound m)
    (hc : c = if m.ce then hostErr d 5 1 else d) :
    helloMsg m fu d = match d.host.hellos.find? (sameHello d m) with
      | some x => onLine c m.hostAddr m.hostPort x.ect [x.answer]
      | none => onLine (helloKept m (helloAnswer m c)) m.hostAddr m.hostPort (helloAnswer m c).2.1 [(helloAnswer m c).1] := by
  obtain ⟨hrsvd, hece, hsession, hseq, hackno, hbody, hlen, hzero⟩ := hsound
  have hours : ¬ ((!uhpUp d) = true ∨ (!forPart fu d m.dst) = true) := by simp [hup, hdst]
  have hgood : ¬ (m.rsvd = true ∨ m.ece = true ∨ m.session ≠ 0xFFFF ∨ m.seq ≠ 0 ∨ m.ackno ≠ 0 ∨ m.body.length ≠ 16 ∨
      m.len.toNat ≠ 16 ∨ le m.body 4 4 ≠ 0) := by
    simp [hrsvd, hece, hsession, hseq, hackno, hbody, hlen, hzero]
  have hhellos : c.host.hellos.find? (sameHello c m) = d.host.hellos.find? (sameHello d m) := by
    rw [hc]
    split <;> rfl
  rw [helloMsg, if_neg hours, ← hc, if_neg hgood, ← hhellos]
  rfl

/-- In the ready stage a HELLO whose version ranges meet none of the part's is refused. -/
theorem helloAnswer_of_noVersion (hstage : d.boot.stage = .ready)
    (hnone : agree [0x12, 0x11, 0x10] (le m.body 0 1) (le m.body 1 1) = none ∨
      agree [0x11, 0x10] (le m.body 2 1) (le m.body 3 1) = none) :
    helloAnswer m d = (nakFor m 0xFFFF sBadVersion, false, d) := by
  have hrec : (d.boot.stage == .recovery) = false := by rw [hstage]; rfl
  unfold helloAnswer
  simp only [hrec, Bool.false_eq_true, if_false]
  rcases hnone with h | h
  · rw [h]
  · rw [h]
    cases agree [0x12, 0x11, 0x10] (le m.body 0 1) (le m.body 1 1) <;> rfl

/-- The session that a HELLO opens under number n, with UHP version u and mailbox version x. -/
def opened (m : UhpMsg) (d : Dev) (n u x : Nat) : Session :=
  { id := d.host.nextSession, num := n, cfg := d.host.uhpCfg, hostAddr := m.hostAddr, hostPort := m.hostPort
    uhp := BitVec.ofNat 8 u, mbox := BitVec.ofNat 8 x, isnHost := BitVec.ofNat 64 (le m.body 8 8)
    isnPart := Config.isn (d.fresh + 1), challenge := Config.challenge d.fresh, rcvNext := BitVec.ofNat 64 (le m.body 8 8)
    rcvHeld := [], sndNext := Config.isn (d.fresh + 1), unacked := [], waiting := [], window := 64, ackedInWindow := 0
    lastHalved := 0, sinceAck := 0, ackDue := false, ceSeen := m.ce, key := none, macFails := 0, stalled := false }

/-- The device once it holds that session. -/
def opening (m : UhpMsg) (d : Dev) (n u x : Nat) : Dev :=
  modHost { d with fresh := d.fresh + 2 } fun h => { h with
    sessions := h.sessions ++ [opened m d n u x], nextSession := h.nextSession + 1 }

theorem helloAnswer_of_versions {u x n : Nat} (hstage : d.boot.stage = .ready)
    (hu : agree [0x12, 0x11, 0x10] (le m.body 0 1) (le m.body 1 1) = some u)
    (hx : agree [0x11, 0x10] (le m.body 2 1) (le m.body 3 1) = some x) (hn : lowestSession d = some n) :
    helloAnswer m d = (rawMsg (BitVec.ofNat 8 u) n 1 0 false (helloBody d (opened m d n u x)), decide (u ≥ 0x12),
      opening m d n u x) := by
  have hrec : (d.boot.stage == .recovery) = false := by rw [hstage]; rfl
  unfold helloAnswer
  simp only [hrec, Bool.false_eq_true, if_false, Bool.false_and, hu, hx, hn]
  rfl

/-- The HELLO just answered is the same as a repeat that comes now. -/
theorem sameHello_self (m : UhpMsg) (d : Dev) (a : OutMsg) (ect : Bool) :
    sameHello d m ⟨m.hostAddr, m.hostPort, BitVec.ofNat 64 (le m.body 8 8), d.time.now, a, ect⟩ = true := by
  have hisn : (BitVec.ofNat 64 (le m.body 8 8)).toNat = le m.body 8 8 := by
    exact (BitVec.toNat_ofNat _ 64).trans (Nat.mod_eq_of_lt (le_lt m.body 8 8))
  simp [sameHello, hisn]

end

/-- What a new HELLO opens or refuses. -/
theorem hello_complete {m : UhpMsg} {s : State} {c : Dev} (hup : uhpUp s.dev = true)
    (hdst : forPart s.fuses s.dev m.dst = true) (hsound : HelloSound m) (hc : c = if m.ce then hostErr s.dev 5 1 else s.dev)
    (hnew : s.dev.host.hellos.find? (sameHello s.dev m) = none) (hstage : s.dev.boot.stage = .ready) :
    (∀ u x n, agree [0x12, 0x11, 0x10] (le m.body 0 1) (le m.body 1 1) = some u →
      agree [0x11, 0x10] (le m.body 2 1) (le m.body 3 1) = some x → lowestSession s.dev = some n →
      ∃ t y z, exec (.hello m) s = .next t ∧ t.dev.host.sessions = s.dev.host.sessions ++ [y] ∧ y.num = n ∧
        y.hostAddr = m.hostAddr ∧ y.hostPort = m.hostPort ∧ y.uhp.toNat = u ∧ y.mbox.toNat = x ∧
        y.rcvNext = BitVec.ofNat 64 (le m.body 8 8) ∧ y.key = none ∧
        z ∈ t.dev.host.hellos ∧ z.answer = rawMsg y.uhp n 1 0 false (helloBody t.dev y) ∧ sameHello t.dev m z = true) ∧
    ((agree [0x12, 0x11, 0x10] (le m.body 0 1) (le m.body 1 1) = none ∨ agree [0x11, 0x10] (le m.body 2 1) (le m.body 3 1) = none) →
      ∃ t, exec (.hello m) s = .next t ∧ t.dev.host.sessions = s.dev.host.sessions ∧
        t.dev.out = (onLine s.dev m.hostAddr m.hostPort false [nakFor m 0xFFFF sBadVersion]).out) := by
  have hanswered := helloMsg_of_sound hup hdst hsound hc
  simp only [hnew] at hanswered
  have hready : c.boot.stage = .ready := by
    rw [hc]
    split <;> exact hstage
  have hsessions : c.host.sessions = s.dev.host.sessions := by
    rw [hc]
    split <;> rfl
  refine ⟨fun u x n hu hx hn => ?_, fun hnone => ?_⟩
  · have hn' : lowestSession c = some n := by rw [lowestSession, hsessions]; exact hn
    have hbyte : ∀ v ∈ [0x12, 0x11, 0x10], (BitVec.ofNat 8 v).toNat = v := by decide
    rw [helloAnswer_of_versions hready hu hx hn'] at hanswered
    refine ⟨_, opened m c n u x, ⟨m.hostAddr, m.hostPort, BitVec.ofNat 64 (le m.body 8 8), c.time.now,
      rawMsg (BitVec.ofNat 8 u) n 1 0 false (helloBody c (opened m c n u x)), decide (u ≥ 0x12)⟩, onDevF_eq hanswered,
      congrArg (· ++ [opened m c n u x]) hsessions, rfl, rfl, rfl, hbyte u (agree_mem hu),
      hbyte x (List.mem_cons_of_mem _ (agree_mem hx)), rfl, rfl, List.mem_append_right _ (List.mem_singleton_self _), rfl,
      sameHello_self m c _ _⟩
  · rw [helloAnswer_of_noVersion hready hnone] at hanswered
    refine ⟨_, onDevF_eq hanswered, hsessions, ?_⟩
    rw [hc]
    cases m.ce <;> rfl

/-! ### Sequenced messages -/

section
variable {m : UhpMsg} {s : State} {x : Session} {c : Dev}

/-- A sequenced message of a known session is acknowledged again, ignored beyond the window, or held and delivered. -/
theorem sequenced_of_session {fu : Fuses} {d : Dev} (hup : uhpUp d = true) (hdst : forPart fu d m.dst = true)
    (hhdr : uhpHeaderOk m = true) (hackno : m.ackno = 0) (hece : m.ece = false) (hx : sessionOf d m = some x)
    (hc : c = modSession (if m.ce then hostErr d 5 1 else d) x.id (fun y => { y with ceSeen := y.ceSeen || m.ce })) (ty : Nat) :
    sequenced ty m fu d =
      if (m.seq - x.rcvNext).toNat ≥ 2 ^ 63 ∨ x.rcvHeld.any (fun y => y.2.seq == m.seq) then sendAck c x.id
      else if (m.seq - x.rcvNext).toNat ≥ fld x.cfg 47 32 then c
      else noteAck (pumpRx (modSession c x.id fun y => { y with rcvHeld := y.rcvHeld ++ [(ty, m)] }) x.id) x.id := by
  have hours : ¬ ((!uhpUp d) = true ∨ (!forPart fu d m.dst) = true) := by simp [hup, hdst]
  have hgood : ¬ ((!uhpHeaderOk m) = true ∨ m.ackno ≠ 0 ∨ m.ece = true) := by simp [hhdr, hackno, hece]
  have hsession : sessionOf (if m.ce then hostErr d 5 1 else d) m = some x := by
    rw [← hx]
    split <;> rfl
  rw [sequenced, if_neg hours, if_neg hgood, hc]
  simp only [hsession]

theorem sequenced_complete (hup : uhpUp s.dev = true) (hdst : forPart s.fuses s.dev m.dst = true)
    (hhdr : uhpHeaderOk m = true) (hackno : m.ackno = 0) (hece : m.ece = false) (hx : sessionOf s.dev m = some x)
    (hc : c = modSession (if m.ce then hostErr s.dev 5 1 else s.dev) x.id (fun y => { y with ceSeen := y.ceSeen || m.ce })) :
    ((m.seq - x.rcvNext).toNat < fld x.cfg 47 32 → (∀ y ∈ x.rcvHeld, y.2.seq ≠ m.seq) → ∀ ty, sequenced ty m s.fuses s.dev =
      noteAck (pumpRx (modSession c x.id fun y => { y with rcvHeld := y.rcvHeld ++ [(ty, m)] }) x.id) x.id) ∧
    ((2 ^ 63 ≤ (m.seq - x.rcvNext).toNat ∨ ∃ y ∈ x.rcvHeld, y.2.seq = m.seq) → ∀ ty, sequenced ty m s.fuses s.dev =
      sendAck c x.id) := by
  have hseq := sequenced_of_session hup hdst hhdr hackno hece hx hc
  refine ⟨fun hroom hfresh ty => ?_, fun hrepeat ty => ?_⟩
  · have hwindow := fld_lt_two_pow x.cfg 47 32
    have hnot : ¬ ((m.seq - x.rcvNext).toNat ≥ 2 ^ 63 ∨ x.rcvHeld.any (fun y => y.2.seq == m.seq) = true) := by
      rintro (h | h)
      · omega
      · obtain ⟨y, hy, hsame⟩ := List.any_eq_true.mp h
        exact hfresh y hy (eq_of_beq hsame)
    rw [hseq, if_neg hnot, if_neg (Nat.not_le.mpr hroom)]
  · rw [hseq, if_pos]
    exact hrepeat.imp_right fun ⟨y, hy, hsame⟩ => List.any_eq_true.mpr ⟨y, hy, beq_iff_eq.mpr hsame⟩

end

/-! ### Acknowledgements -/

section
variable {m : UhpMsg} {fu : Fuses} {d c : Dev} {x : Session} (hup : uhpUp d = true) (hdst : forPart fu d m.dst = true)
  (hhdr : uhpHeaderOk m = true) (hseq : m.seq = 0) (hx : sessionOf d m = some x) (hc : c = if m.ce then hostErr d 5 1 else d)
include hup hdst hhdr hseq hx hc

theorem ackMsg_of_session {n : Nat} {bs : List (Nat × Nat)} (hn : n = le m.body 0 1) (h16 : n ≤ 16)
    (hlen : m.body.length = 8 + 16 * n) (hzero : le m.body 1 7 = 0)
    (hbs : bs = if x.uhp.toNat ≥ 0x11 then (List.range n).map fun i => (le m.body (8 + 16 * i) 8, le m.body (16 + 16 * i) 8) else []) :
    ackMsg m fu d = pumpSession (modSession c x.id fun y =>
      { windowAfter c.time.now (x.unacked.filter fun u => ackCovers m.ackno.toNat bs u.msg.seq.toNat).length
          (m.ece && decide (x.uhp.toNat ≥ 0x12)) y with
        unacked := (y.unacked.filter fun u => !ackCovers m.ackno.toNat bs u.msg.seq.toNat).map fun u => { u with
          tries := if y.stalled then 0 else u.tries }
        stalled := false, ceSeen := y.ceSeen || m.ce }) x.id := by
  subst hn
  have hours : ¬ ((!uhpUp d) = true ∨ (!forPart fu d m.dst) = true) := by simp [hup, hdst]
  have hgood : ¬ ((!uhpHeaderOk m) = true ∨ m.seq ≠ 0 ∨ le m.body 0 1 > 16 ∨ m.body.length ≠ 8 + 16 * le m.body 0 1 ∨
      le m.body 1 7 ≠ 0) := by
    simp [hhdr, hseq, h16, hlen, hzero]
  have hsession : sessionOf c m = some x := by
    rw [← hx, hc]
    split <;> rfl
  rw [ackMsg, if_neg hours, if_neg hgood, ← hc, hbs]
  simp only [hsession]

theorem nakMsg_of_unacked {u : Unacked} (hackno : m.ackno = 0) (hece : m.ece = false) (hlen : m.body.length = 9)
    (hu : (x.unacked.find? fun u => u.msg.seq.toNat == le m.body 0 8) = some u) :
    nakMsg m fu d = pumpSession (refused (modSession
      (modSession c x.id fun y => { y with ceSeen := y.ceSeen || m.ce }) x.id fun y =>
        { y with unacked := y.unacked.filter fun u => u.msg.seq.toNat != le m.body 0 8 }) x.id u.msg (le m.body 8 1)) x.id := by
  have hours : ¬ ((!uhpUp d) = true ∨ (!forPart fu d m.dst) = true) := by simp [hup, hdst]
  have hgood : ¬ ((!uhpHeaderOk m) = true ∨ m.seq ≠ 0 ∨ m.ackno ≠ 0 ∨ m.ece = true ∨ m.body.length ≠ 9) := by
    simp [hhdr, hseq, hackno, hece, hlen]
  have hsession : sessionOf c m = some x := by
    rw [← hx, hc]
    split <;> rfl
  rw [nakMsg, if_neg hours, if_neg hgood, ← hc]
  simp only [hsession, hu]

end

/-! ### Timers -/

/-- What is missing goes again while every message of it has tries left. -/
theorem retransmit_of_triesLeft {n : Nat} {d : Dev} {x : Session} (hx : findSession d n = some x) (hsome : x.unacked ≠ [])
    (hrun : x.stalled = false) (htries : ∀ y ∈ x.unacked, y.tries < fld x.cfg 19 16) :
    retransmit n d = (let e := modSession d n fun y => { y with
        unacked := y.unacked.map fun z => { z with tries := z.tries + 1 }
        window := if y.uhp.toNat ≥ 0x12 then min 16 (fld y.cfg 47 32) else y.window, ackedInWindow := 0 }
      hostErr (onSession e x (x.unacked.map (·.msg))) 3 x.unacked.length) := by
  have hgoes : ¬ (x.unacked.isEmpty = true ∨ x.stalled = true) := by simp [hsome, hrun]
  have hleft : ¬ (x.unacked.any fun u => decide (u.tries ≥ fld x.cfg 19 16)) = true := by
    simpa using htries
  simp only [retransmit, hx, if_neg hgoes, if_neg hleft]

theorem sessionTimers_complete {n : Nat} {s : State} {x : Session} (hx : findSession s.dev n = some x) :
    (x.unacked ≠ [] → x.stalled = false → (∀ y ∈ x.unacked, y.tries < fld x.cfg 19 16) →
      exec (.uhpRetransmitTimeout n) s = .next (s.putDev (let d := modSession s.dev n fun y => { y with
          unacked := y.unacked.map fun z => { z with tries := z.tries + 1 }
          window := if y.uhp.toNat ≥ 0x12 then min 16 (fld y.cfg 47 32) else y.window, ackedInWindow := 0 }
        hostErr (onSession d x (x.unacked.map (·.msg))) 3 x.unacked.length))) ∧
    (x.ackDue = true → exec (.ackDelayTimer n) s = .next (s.putDev (sendAck s.dev n))) ∧
    (x.stalled = true → exec (.stallProbeTimer n) s = .next (s.putDev (sendRaw s.dev x 1 0 false (helloBody s.dev x)))) ∧
    (x.stalled = true → exec (.uhpIdleTimeout n) s = .next (s.putDev (closeSession s.dev n))) ∧
    (∀ k, x.key = some k → k.expiry ≠ 0 → k.expiry.toNat ≤ s.dev.time.now →
      exec (.sessionExpiry n) s = .next (s.putDev (closeSession s.dev n))) := by
  refine ⟨fun hsome hrun htries => onDev_eq (retransmit_of_triesLeft hx hsome hrun htries), fun hdue => ?_, fun hstalled => ?_,
    fun hstalled => ?_, fun k hk hexp hnow => ?_⟩
  · show execAckDelayTimer n s = _
    exact onDev_eq (by rw [hx, Option.map_some, Option.getD_some, if_pos hdue])
  · show execStallProbeTimer n s = _
    exact onDev_eq (by simp only [hx, hstalled, if_true])
  · show execUhpIdleTimeout n s = _
    exact onDev_eq (by rw [hx, Option.map_some, Option.getD_some, if_pos hstalled])
  · show execSessionExpiry n s = _
    exact onDev_eq (by
      simp only [hx, Option.bind_some, hk]
      exact if_pos ⟨hexp, hnow⟩)

/-- Settles O47: a HELLO by what was answered before and the version ranges, a sequenced message by its place in the
window, acknowledgements by the session they name. -/
theorem sessionCommandsComplete : Obligations.SessionCommandsComplete := by
  unfold Obligations.SessionCommandsComplete
  refine ⟨?_, ?_, fun n s x hx => sessionTimers_complete hx, ?_⟩
  · intro m s c hup hdst hrsvd hece hsession hseq hackno hbody hlen hzero hc
    have hsound : HelloSound m := ⟨hrsvd, hece, hsession, hseq, hackno, hbody, hlen, hzero⟩
    refine ⟨fun x hx => onDevF_eq (by simp only [helloMsg_of_sound hup hdst hsound hc, hx]), fun hnew => ⟨?_, ?_⟩⟩
    · exact fun u x n hstage => (hello_complete hup hdst hsound hc hnew hstage).1 u x n
    · exact fun hstage => (hello_complete hup hdst hsound hc hnew hstage).2
  · intro m s x c hup hdst hhdr hackno hece hx hc
    obtain ⟨hheld, hrepeated⟩ := sequenced_complete hup hdst hhdr hackno hece hx hc
    refine ⟨?_, fun hrepeat => ?_⟩
    · rintro hroom hfresh put rfl
      have hput := hheld hroom hfresh
      exact ⟨onDevF_eq (hput 2), onDevF_eq (hput 5), onDevF_eq (hput 6), onDevF_eq (hput 7)⟩
    · have hack := hrepeated hrepeat
      exact ⟨onDevF_eq (hack 2), onDevF_eq (hack 5), onDevF_eq (hack 6), onDevF_eq (hack 7)⟩
  · intro m s x c hup hdst hhdr hseq hx hc
    exact ⟨fun n bs hn h16 hlen hzero hbs => onDevF_eq (ackMsg_of_session hup hdst hhdr hseq hx hc hn h16 hlen hzero hbs),
      fun u hackno hece hlen hu => onDevF_eq (nakMsg_of_unacked hup hdst hhdr hseq hx hc hackno hece hlen hu)⟩

end Sys2Proof.Machine
end

section
/-! Mailbox commands on sessions, partitions and programs (R62 to R65, R353, R354, R445 to R447, R452). -/

namespace Sys2Proof.Machine

/-! ### Requests that may run -/

section
variable {s : State} {d e : Dev} {r : ReqId} {cmd : Nat} {k : List Byte → Bool} {q : Req}

/-- An outstanding request that may run is handed to its command. -/
theorem onReq_of_asked (hasked : Asked d r cmd q) (hk : k q.body = true) (f : Req → Dev → Dev) :
    onReq r cmd k f d = f q d := by
  obtain ⟨hfind, hcmd, hopen, hruns⟩ := hasked
  simp only [onReq, hfind, hcmd, hk, hopen, hruns, beq_self_eq_true, Bool.not_false, Bool.and_self, if_true]

theorem onReq_eq (hasked : Asked s.dev r cmd q) (hk : k q.body = true) {f : Req → Dev → Dev} (h : f q s.dev = e) :
    onDev (onReq r cmd k f) s = .next (s.putDev e) :=
  onDev_eq (by rw [onReq_of_asked hasked hk, h])

/-- The same for a command that reads the fuses. -/
theorem onReqF_eq (hasked : Asked s.dev r cmd q) (hk : k q.body = true) {f : Fuses → Req → Dev → Dev}
    (h : f s.fuses q s.dev = e) : onDevF (fun fu => onReq r cmd k (f fu)) s = .next (s.putDev e) :=
  onDevF_eq (by rw [onReq_of_asked hasked hk, h])

end

/-! ### Sessions and partitions -/

section
variable {fu : Fuses} {d e : Dev} {q : Req}

theorem openSession_of_ok {x : Session} {rec_ : List Byte} (hx : findSession d q.id.session = some x)
    (hblob : openBlob fu d q.body = some rec_) (hok : recordOk d x rec_ (q.body.drop 92) = true) :
    openSession fu q d = respondOk (modSession d x.id fun y => { y with key := some (keyRec rec_) }) q
      (toLe 24 (packNat [(0, (keyRec rec_).keyId.toNat), (32, (keyRec rec_).mask.toNat),
        (64, b2n (keyRec rec_).priv + 2 * b2n (keyRec rec_).events), (128, (keyRec rec_).expiry.toNat)])) := by
  simp only [openSession, hx, hblob, hok, Bool.not_true, Bool.false_eq_true, if_false]

theorem destroyCmd_of_ready (hnew : q.started = false) (hvalid : (d.part q.part).valid = true)
    (hnosave : (d.part q.part).saving = none) (hready : destroyReady (beginDestroy (markStarted d q) q.part) q.part = true) :
    destroyCmd q d = respondOk (finishDestroy (endSubs (beginDestroy (markStarted d q) q.part) q.part) q.part) q [] := by
  simp [destroyCmd, hnew, hvalid, hnosave, hready]

theorem setQuotaCmd_of_done (hturn : q.started = true ∨ ((d.part q.part).leaving = 0 ∧ (d.part q.part).lowering = none))
    (hdone : setQuota d q.part q.body q.started = .done e) : setQuotaCmd q d = respondOk e q [] := by
  have hgoes : ¬ ((!q.started) = true ∧ ((d.part q.part).leaving ≠ 0 ∨ (d.part q.part).lowering.isSome = true)) := by
    rcases hturn with h | ⟨hleaving, hlowering⟩
    · simp [h]
    · simp [hleaving, hlowering]
  rw [setQuotaCmd, if_neg hgoes]
  simp only [hdone]

theorem setWeirCmd_of_valid (hvalid : (d.part q.part).valid = true)
    (he : e = setWeir d q.part (le q.body 0 8) (le q.body 8 8)) :
    setWeirCmd q d = weirFreed (respondOk
      (if le q.body 16 1 = 0 then e else e.modPart q.part fun x => { x with weight := le q.body 16 1 }) q []) q.part := by
  simp only [setWeirCmd, hvalid, Bool.not_true, Bool.false_eq_true, if_false, he]

end

/-! ### Programs -/

section
variable {d : Dev} {q : Req}

/-- A readable good image that fits takes the lowest free handle. -/
theorem loadProgram_of_good {a n h : Nat} {g : Program} (ha : a = le q.body 8 8) (hn : n = le q.body 16 4)
    (hop : le q.body 0 1 = 0) (hrsvd : le q.body 1 7 = 0) (htop : a + n ≤ dramTop) (hok : okNew d q.part false a n = true)
    (hsound : poisonAt d q.part false a n = none) (himg : parseProgram (readRange d q.part false a n) = (sOk, noCmd, g))
    (hunits : g.sramUnits ≤ ((lowered d q.part).part q.part).sramUnits)
    (hfree : ((List.range 64).find? fun h => (tget ((lowered d q.part).part q.part).progs h).isNone) = some h)
    (hside : ((lowered d q.part).part q.part).sideUsed + g.pages ≤ ((lowered d q.part).part q.part).sideQuota) :
    loadProgram q d = respondOk ((touched d q.part a n).modPart q.part fun x => { x with
      progs := tput x.progs h g, sideUsed := x.sideUsed + g.pages }) q (loadBody h noCmd) := by
  subst ha hn
  have hrange : ¬ (le q.body 0 1 ≠ 0 ∨ le q.body 1 7 ≠ 0 ∨ le q.body 8 8 + le q.body 16 4 > dramTop ∨
      (!okNew d q.part false (le q.body 8 8) (le q.body 16 4)) = true) := by
    simp [hop, hrsvd, hok, Nat.not_lt.mpr htop]
  rw [loadProgram, if_neg hrange]
  simp only [hsound, Option.isSome_none, Bool.false_eq_true, if_false, himg, ne_eq, not_true_eq_false,
    if_neg (Nat.not_lt.mpr hunits), hfree, if_neg (Nat.not_lt.mpr hside)]

theorem unloadProgram_of_idle {g : Program} (hg : tget (d.part q.part).progs (le q.body 1 1) = some g) (hop : le q.body 0 1 = 1)
    (hrsvd : le q.body 2 6 = 0) (hidle : progInUse d q.part (le q.body 1 1) = false) :
    unloadProgram q d = respondOk (d.modPart q.part fun x => { x with
      progs := tdel x.progs (le q.body 1 1), sideUsed := x.sideUsed - g.pages }) q (loadBody (le q.body 1 1) noCmd) := by
  simp [unloadProgram, hg, hop, hrsvd, hidle]

end

/-- Settles O49: an asked request is handed to its command, and each command passes its checks. -/
theorem partitionCommandsComplete : Obligations.PartitionCommandsComplete := by
  unfold Obligations.PartitionCommandsComplete
  rintro r s q p rfl
  refine ⟨?_, ?_, ?_, ?_, ?_, ?_, ?_, ?_, ?_⟩
  · intro x rec_ hasked hx hblob hok
    exact onReqF_eq hasked rfl (openSession_of_ok hx hblob hok)
  · intro hasked
    exact onReq_eq hasked rfl (f := fun q d => closeSession (respondOk d q []) q.id.session) rfl
  · intro hasked
    exact onReqF_eq hasked rfl (f := fun fu q d => respondOk d q (capsBody fu d)) rfl
  · intro b d hasked hmade
    exact onReq_eq hasked rfl (by simp only [createCmd, hmade])
  · intro hasked hnew hvalid hnosave hready
    exact onReq_eq hasked rfl (destroyCmd_of_ready hnew hvalid hnosave hready)
  · intro d hasked hturn hdone
    exact onReq_eq hasked rfl (setQuotaCmd_of_done hturn hdone)
  · intro d hasked hvalid hd
    exact onReq_eq hasked rfl (setWeirCmd_of_valid hvalid hd)
  · intro a n g h hasked hload ha hn hop hrsvd htop hok hsound himg hunits hfree hside
    exact onReq_eq hasked (by rw [hload]; rfl)
      (loadProgram_of_good ha hn hop hrsvd htop hok hsound himg hunits hfree hside)
  · intro g hasked hunload hg hop hrsvd hidle
    exact onReq_eq hasked hunload (unloadProgram_of_idle hg hop hrsvd hidle)

end Sys2Proof.Machine
end

section
/-! Mailbox commands on submissions, pausing and images (R358, R373 to R375, R378, R379, R401, R402). -/

namespace Sys2Proof.Machine

/-! ### Submissions -/

section
variable {d e : Dev} {q : Req} {id : U32} {ws : List (BitVec 512)}

/-- A submission of good entries, with no result window named, enters its queue or is held. -/
theorem submit_of_good (hnew : q.started = false) (hid : id = BitVec.ofNat 32 (le q.body 0 4))
    (hlive : (d.part q.part).st ≠ .destroying) (hopen : launchShut d q.part = false) (hrsvd : le q.body 20 4 = 0)
    (hfresh : ∀ y ∈ (d.part q.part).subs, y.id ≠ id) (hheld : (d.part q.part).heldSubs = [])
    (hws : submitEntries d q.part q.body = .inr ws) (hwin : submitWindow d q.part q.id.mailbox q.body = some none)
    (he : e = if le q.body 24 8 = 0 then d else touched d q.part (le q.body 24 8) (64 * le q.body 4 2))
    (hgood : (ws.findIdx? fun w => !entryFieldsOk e q.part id.toNat w) = none) :
    submit q d = enterSub q e ⟨id, ws.length, [], false, none, 0, q.id, q.noevt, [], none⟩ (ws.mapIdx entryOf) := by
  subst hid
  have hfields : ¬ (le q.body 20 4 ≠ 0 ∨ (d.part q.part).subs.any (·.id == BitVec.ofNat 32 (le q.body 0 4)) = true ∨
      (d.part q.part).heldSubs.any (·.1.id == BitVec.ofNat 32 (le q.body 0 4)) = true) := by
    rw [hheld]
    simpa [hrsvd] using hfresh
  rw [submit, if_neg (by simp [hnew]), if_neg (by simp [hlive, hopen]), if_neg hfields]
  simp only [hws, hwin, ← he, hgood]
  rfl

/-- A queue with room takes the entries. -/
theorem enterSub_of_room {x : Sub} {es : List QEntry}
    (he : e = d.modPart q.part fun y => { y with remembered := y.remembered.filter (· != x.id) })
    (hheld : (e.part q.part).heldSubs = []) (hroom : (e.part q.part).queue.length + es.length ≤ 256) :
    enterSub q d x es =
      respond (e.modPart q.part fun y => { y with queue := y.queue ++ es, subs := y.subs ++ [x] }) q sAccepted 0xFFFF
        (toLe 4 x.gen) := by
  have hfits : (e.part q.part).heldSubs.isEmpty = true ∧ (e.part q.part).queue.length + es.length ≤ 256 :=
    ⟨by rw [hheld]; rfl, hroom⟩
  rw [enterSub, ← he, if_pos hfits]

theorem abortCmd_of_live {x : Sub} (hnew : q.started = false) (hid : id = BitVec.ofNat 32 (le q.body 0 4))
    (hx : findSub (takeHeld d q.part id) q.part id = some x) (hfirst : x.aborting = false) :
    abortCmd q d = abortSubmission (markStarted (takeHeld d q.part id) q) q.part id := by
  subst hid
  simp [abortCmd, hnew, hx, hfirst]

end

/-! ### Pause and resume -/

section
variable {d e : Dev} {q : Req}

theorem pauseCmd_of_active (hactive : (d.part q.part).st = .active)
    (he : e = (accept d q).modPart q.part fun x => { x with pauseReq := x.pauseReq ++ [(q.id, q.noevt)] })
    (hnojob : jobManager e q.part = none) : pauseCmd q d = e.modPart q.part fun x => { x with st := .pausing } := by
  simp only [pauseCmd, hactive, ne_eq, not_true_eq_false, if_false, ← he, hnojob]

theorem resumeCmd_of_paused (hpaused : (d.part q.part).st = .paused) (hnosave : (d.part q.part).saving = none)
    (he : e = (accept d q).modPart q.part fun x => { x with resumeReq := x.resumeReq ++ [(q.id, q.noevt)] })
    (hnojob : jobManager e q.part = none) : resumeCmd q d = resumePart e q.part := by
  have hgoes : ¬ ((d.part q.part).st ≠ .paused ∨ (d.part q.part).saving.isSome = true) := by simp [hpaused, hnosave]
  simp only [resumeCmd, if_neg hgoes, ← he, hnojob]

end

/-! ### Images in flash -/

section
variable {d e : Dev} {q : Req}

theorem saveImage_of_flash (htarget : le q.body 0 1 = 0) (hrsvd : le q.body 1 1 = 0) (hmay : mayHold d q.part = true)
    (hwhole : imageLoss d q.part = none) (he : e = touched d q.part 0 ((d.part q.part).pages.length * pageSize))
    (hfits : (imageOf d q.part).length ≤ blockSize * blocksFrom ((lowered e q.part).part q.part) (le q.body 4 4)) :
    saveImage q d = (respond e q sAccepted 0xFFFF (toLe 8 (imageOf d q.part).length)).modPart q.part fun x => { x with
      saving := some ⟨q.id, q.noevt, false, le q.body 4 4, imageOf d q.part, false⟩ } := by
  have hfields : ¬ (le q.body 0 1 > 1 ∨ le q.body 1 1 ≠ 0) := by simp [htarget, hrsvd]
  rw [saveImage, if_neg hfields, if_neg (by simp [hmay])]
  simp only [hwhole, ← he, if_neg (Nat.not_lt.mpr hfits), htarget]
  rfl

/-- A restore from flash goes by what can be read there. -/
theorem restoreImage_of_flash (htarget : le q.body 0 1 = 0) (hrsvd : le q.body 1 1 = 0) (hmay : mayRestore d q.part = true)
    (hweir : weirOk d q.part 1 = true) : restoreImage q d = match flashImage d q.part (le q.body 4 4) with
      | .bytes b m => finishRestore q (flashRead (weirCharge d q.part 1 (m.crc + 8))
          (imageKeys d q.part (le q.body 4 4) (divUp (m.crc + 8) blockSize))) b m
      | .fails st => respondErr (if st = sInternal then
          flashRead d (imageKeys d q.part (le q.body 4 4) (blocksFrom (d.part q.part) (le q.body 4 4))) else d) q st
      | .need .. => d := by
  have hfields : ¬ (le q.body 0 1 > 1 ∨ le q.body 1 1 ≠ 0) := by simp [htarget, hrsvd]
  have hmays : ¬ (!mayRestore d q.part) = true := by simp [hmay]
  cases hsrc : flashImage d q.part (le q.body 4 4) with
  | bytes b m => simp only [restoreImage, if_neg hfields, if_neg hmays, if_pos htarget, hsrc, if_pos hweir]
  | fails st => simp only [restoreImage, if_neg hfields, if_neg hmays, if_pos htarget, hsrc]
  | need h n => simp only [restoreImage, if_neg hfields, if_neg hmays, if_pos htarget, hsrc]

theorem imageDone_of_flash {p : Nat} {v : Saving} (hv : (d.part p).saving = some v) (hflash : v.toHost = false)
    (hweir : weirOk d p 1 = true) :
    imageDone p d = sendEvent ((burn (weirCharge d p 1 v.image.length) p v.lba v.image).modPart p fun x => { x with saving := none })
      { code := 0x06, mailbox := p + 1, status := sOk, tag := v.req.tag.toNat, data := toLe 8 v.image.length
        sev := sevInfo, part := some p, source := srcDet, dest := some (v.req.session, v.noevt) } := by
  simp only [imageDone, hv, hflash, hweir, Bool.not_false, if_true]
  rfl

end

/-- Settles O50: an asked request is handed to its command; submissions by their entries and the queue's room, images
by what flash holds. -/
theorem submissionCommandsComplete : Obligations.SubmissionCommandsComplete := by
  unfold Obligations.SubmissionCommandsComplete
  refine ⟨?_, fun p s v hv hflash hweir => onDev_eq (imageDone_of_flash hv hflash hweir)⟩
  rintro r s q p rfl
  refine ⟨?_, ?_, ?_, ?_, ?_, ?_⟩
  · intro ws id hasked hnew hid hlive hopen hrsvd hfresh hheld hws hwin e d he hgood hd hheld' hroom
    have hlength : (ws.mapIdx entryOf).length = ws.length := List.length_mapIdx
    have henter := enterSub_of_room (x := ⟨id, ws.length, [], false, none, 0, q.id, q.noevt, [], none⟩)
      (es := ws.mapIdx entryOf) hd hheld' (by rw [hlength]; exact hroom)
    exact onReq_eq hasked rfl
      ((submit_of_good hnew hid hlive hopen hrsvd hfresh hheld hws hwin he hgood).trans henter)
  · intro x id hasked hnew hid hx hfirst
    exact onReq_eq hasked rfl (abortCmd_of_live hnew hid hx hfirst)
  · intro hasked hactive d hd hnojob
    exact onReq_eq hasked rfl (pauseCmd_of_active hactive hd hnojob)
  · intro hasked hpaused hnosave d hd hnojob
    exact onReq_eq hasked rfl (resumeCmd_of_paused hpaused hnosave hd hnojob)
  · intro hasked htarget hrsvd hmay hwhole d hd hfits
    exact onReq_eq hasked rfl (saveImage_of_flash htarget hrsvd hmay hwhole hd hfits)
  · intro hasked htarget hrsvd hmay hweir
    have hrestored := restoreImage_of_flash htarget hrsvd hmay hweir
    refine onReq_eq hasked rfl (hrestored.trans ?_)
    cases flashImage s.dev q.part (le q.body 4 4) <;> rfl

end Sys2Proof.Machine
end

section
/-! Mailbox commands on windows, results, Gate descriptors, placement tables, communicators, the step counter, the seeds
and the digest log (R95 to R97, R128, R235, R395, R400, R455, R461). -/

namespace Sys2Proof.Machine

/-! ### Windows and results -/

section
variable {d : Dev} {q : Req} {w : Window}

/-- The fields that both window requests leave zero. -/
theorem not_windowFields (hflags : le q.body 1 1 ≤ 7) (hlow : le q.body 4 4 = 0) (hhigh : le q.body 20 4 = 0) :
    ¬ (le q.body 1 1 > 7 ∨ le q.body 4 4 ≠ 0 ∨ le q.body 20 4 ≠ 0) := by
  simp [hlow, hhigh, hflags]

theorem mapWindow_of_good {ver n : Nat} (hver : ver = ((findSession d q.id.session).map (·.mbox.toNat)).getD 0x10)
    (hflags : le q.body 1 1 ≤ 7) (hlow : le q.body 4 4 = 0) (hhigh : le q.body 20 4 = 0)
    (hw : newWindow d ver q.id.mailbox q.body = .inr w)
    (hn : ((List.range 64).find? fun n => (tget d.host.windows (winIdx q.id.mailbox n)).isNone) = some n) :
    mapWindow q d = (let k := winIdx q.id.mailbox n
      let e := modHost d fun h => { h with
        windows := tput h.windows k w, staging := if w.kind = .firmware then tput h.staging k [] else h.staging }
      respondOk (if w.pages = 0 then e else e.modPart (q.id.mailbox - 1) fun x => { x with sideUsed := x.sideUsed + w.pages }) q
        (mapBody n 0)) := by
  subst hver
  rw [mapWindow, if_neg (not_windowFields hflags hlow hhigh)]
  simp only [hw, hn]

theorem unmapWindow_of_idle {k : Nat} (hk : k = winIdx q.id.mailbox (le q.body 2 2)) (hnum : le q.body 2 2 < 64)
    (hw : tget d.host.windows k = some w) (hflags : le q.body 1 1 ≤ 7) (hlow : le q.body 4 4 = 0) (hhigh : le q.body 20 4 = 0)
    (hidle : winBusy d k w = false) :
    unmapWindow q d = (let e := modHost d fun h => { h with windows := tdel h.windows k, staging := tdel h.staging k }
      respondOk (if w.pages = 0 then e else e.modPart (q.id.mailbox - 1) fun x => { x with sideUsed := x.sideUsed - w.pages }) q
        (mapBody (le q.body 2 2) 0)) := by
  subst hk
  simp only [unmapWindow, if_pos hnum, hw, if_neg (not_windowFields hflags hlow hhigh), hidle, Bool.false_eq_true, if_false]

theorem genStatus_of_published {g e : Nat} (hg : tget w.gens g = some (.published e)) (hlease : d.time.now < e) :
    genStatus d w g = sOk := by
  simp only [genStatus, hg, if_pos hlease]

theorem readResult_of_published {k g e : Nat} (hwin : resultWin d q = some (k, w)) (hrsvd : le q.body 2 2 = 0)
    (hgen : g = le q.body 4 4) (hg : tget w.gens g = some (.published e)) (hlease : d.time.now < e)
    (hlen : le q.body 12 4 ≤ 8176) (hend : le q.body 8 4 + le q.body 12 4 ≤ w.len) :
    readResult q d = respondOk d q (toLe 16 (packNat [(0, g), (32, (e - d.time.now) / 1000000), (64, le q.body 12 4)]) ++
      mread (winBuf w g) (le q.body 8 4) (le q.body 12 4)) := by
  subst hgen
  have hfields : ¬ (le q.body 2 2 ≠ 0 ∨ le q.body 12 4 > 8176 ∨ le q.body 8 4 + le q.body 12 4 > w.len) := by
    simp [hrsvd, hlen, hend]
  simp only [readResult, hwin, if_neg hfields, genStatus_of_published hg hlease, if_true, hg]

theorem releaseResult_of_published {k g e : Nat} (hwin : resultWin d q = some (k, w)) (hrsvd : le q.body 2 2 = 0)
    (hgen : g = le q.body 4 4) (hg : tget w.gens g = some (.published e)) (hlease : d.time.now < e) :
    releaseResult q d = respondOk (endGen d k g) q [] := by
  subst hgen
  simp only [releaseResult, hwin, hrsvd, genStatus_of_published hg hlease, ne_eq, not_true_eq_false, if_false]

end

/-! ### Gate descriptors and placement tables -/

section
variable {d : Dev} {q : Req}

/-- A good descriptor is loaded when no step of its slot can take another push. -/
theorem gateLoad_of_good {x : BitVec 2048} (hx : x = BitVec.ofNat 2048 (leNat (q.body.drop 8))) (hrsvd : le q.body 1 7 = 0)
    (hgood : gdFails d q.part x = none)
    (hclosed : ∀ g ∈ d.gate.steps, g.part = q.part → g.slot = le q.body 0 1 → g.closed = true ∧ g.granted = true) :
    gateLoad q d =
      respondOk { d with gate := { d.gate with descs := tput d.gate.descs (256 * q.part + le q.body 0 1) x } } q [] := by
  subst hx
  have hidle : ¬ (d.gate.steps.any fun g => g.part == q.part && g.slot == le q.body 0 1 && (!g.closed || !g.granted)) = true := by
    intro hbusy
    obtain ⟨g, hg, hopen⟩ := List.any_eq_true.mp hbusy
    rw [Bool.and_eq_true, Bool.and_eq_true] at hopen
    obtain ⟨⟨hpart, hslot⟩, hopen⟩ := hopen
    obtain ⟨hc, hgr⟩ := hclosed g hg (eq_of_beq hpart) (eq_of_beq hslot)
    simp [hc, hgr] at hopen
  rw [gateLoad, if_neg (fun h => h hrsvd)]
  simp only [hgood, if_neg hidle]

theorem findIdx?_badEntries_of_good {p : Nat} {es : List (Nat × List Byte)}
    (hes : ∀ e ∈ es, nullEntry d p e.1 = true ∨ eptEntryOk (BitVec.ofNat 128 (leNat e.2)) = true) :
    (es.findIdx? fun e => !nullEntry d p e.1 && !eptEntryOk (BitVec.ofNat 128 (leNat e.2))) = none := by
  rw [List.findIdx?_eq_none_iff]
  intro e he
  rcases hes e he with h | h <;> simp [h]

/-- Where the entries of a placement table update come from: its body, or the partition's DRAM. -/
def EptSource (d : Dev) (q : Req) (src n : Nat) (e : Dev) (bs : List Byte) : Prop :=
  src = 0 ∧ le q.body 24 8 = 0 ∧ e = d ∧ bs = q.body.drop 32 ∨
  src ≠ 0 ∧ src + 16 * n ≤ dramTop ∧ okNew d q.part false src (16 * n) = true ∧ poisonAt d q.part false src (16 * n) = none ∧
    e = touched d q.part src (16 * n) ∧ bs = readRange e q.part false src (16 * n)

theorem eptUpdate_of_good {n a src : Nat} {e : Dev} {bs : List Byte} (hn : n = le q.body 10 2)
    (ha : a = le q.body 0 8 + 16 * le q.body 8 2) (hsrc : src = le q.body 16 8) (hsome : n ≠ 0) (hmax : n ≤ 16384)
    (hrsvd : le q.body 12 4 = 0) (hok : okNew d q.part false a (16 * n) = true) (hfrom : EptSource d q src n e bs)
    (hgood : ∀ y ∈ (chunks 16 bs).mapIdx fun i y => (a + 16 * i, y),
      nullEntry e q.part y.1 = true ∨ eptEntryOk (BitVec.ofNat 128 (leNat y.2)) = true) :
    eptUpdate q d = respondOk (writeRange e q.part false a bs) q [] := by
  subst hn ha hsrc
  have hentries := findIdx?_badEntries_of_good hgood
  rcases hfrom with ⟨hbody, hzero, rfl, rfl⟩ | ⟨hmem, htop, hmemOk, hsound, rfl, rfl⟩
  · have hfields : ¬ (le q.body 10 2 = 0 ∨ le q.body 10 2 > 16384 ∨ le q.body 12 4 ≠ 0 ∨
        (le q.body 16 8 = 0 ∧ le q.body 24 8 ≠ 0) ∨
        (!okNew e q.part false (le q.body 0 8 + 16 * le q.body 8 2) (16 * le q.body 10 2)) = true) := by
      simp [hsome, hmax, hrsvd, hzero, hok]
    rw [eptUpdate, if_neg hfields, if_neg (fun h => h.1 hbody), if_neg (fun h => h.1 hbody)]
    simp only [if_pos hbody, hentries]
  · have hfields : ¬ (le q.body 10 2 = 0 ∨ le q.body 10 2 > 16384 ∨ le q.body 12 4 ≠ 0 ∨
        (le q.body 16 8 = 0 ∧ le q.body 24 8 ≠ 0) ∨
        (!okNew d q.part false (le q.body 0 8 + 16 * le q.body 8 2) (16 * le q.body 10 2)) = true) := by
      simp [hsome, hmax, hrsvd, hmem, hok]
    have hrange : ¬ (le q.body 16 8 ≠ 0 ∧ (le q.body 16 8 + 16 * le q.body 10 2 > dramTop ∨
        (!okNew d q.part false (le q.body 16 8) (16 * le q.body 10 2)) = true)) := by
      simp [htop, hmemOk]
    have hwhole : ¬ (le q.body 16 8 ≠ 0 ∧ (poisonAt d q.part false (le q.body 16 8) (16 * le q.body 10 2)).isSome = true) := by
      simp [hsound]
    rw [eptUpdate, if_neg hfields, if_neg hrange, if_neg hwhole]
    simp only [if_neg hmem, hentries]

end

/-! ### Communicators -/

section
variable {d e : Dev} {q : Req}

theorem commCreate_of_good {cm : BitVec 192} {ms : List DevId} (hcm : cm = commRecord q.body) (hflags : le q.body 1 1 < 4)
    (hrsvd : le q.body 14 2 = 0) (hsizes : commSizesOk q.body = true)
    (hok : okNew d q.part false (cmMembers cm) (2 * cmN cm) = true)
    (hsound : poisonAt d q.part false (cmMembers cm) (2 * cmN cm) = none)
    (he : e = touched d q.part (cmMembers cm) (2 * cmN cm)) (hms : ms = memberTable e q.part cm)
    (htable : commTableOk e cm ms = true) (hidle : commBusy e q.part (le q.body 0 1) = false) :
    commCreate q d = (let c := (dropComm e q.part (le q.body 0 1)).modPart q.part fun x => { x with
        comms := tput x.comms (le q.body 0 1) cm }
      respondOk (if (le q.body 1 1).testBit 1 then setGroup c q.part (le q.body 13 1) ms else c) q []) := by
  subst hcm he hms
  have hfields : ¬ (le q.body 1 1 / 4 ≠ 0 ∨ le q.body 14 2 ≠ 0 ∨ (!commSizesOk q.body) = true ∨
      (!okNew d q.part false (cmMembers (commRecord q.body)) (2 * cmN (commRecord q.body))) = true) := by
    simp [Nat.div_eq_of_lt hflags, hrsvd, hsizes, hok]
  rw [commCreate, if_neg hfields, if_neg (by simp [hsound])]
  simp only [htable, hidle, Bool.not_true, Bool.false_eq_true, if_false]

theorem commDelete_of_idle (hflags : le q.body 1 1 < 4) (hrsvd : le q.body 14 2 = 0)
    (hidle : commBusy d q.part (le q.body 0 1) = false) :
    commDelete q d = respondOk ((dropComm d q.part (le q.body 0 1)).modPart q.part fun x => { x with
      comms := tdel x.comms (le q.body 0 1) }) q [] := by
  have hfields : ¬ (le q.body 1 1 / 4 ≠ 0 ∨ le q.body 14 2 ≠ 0) := by simp [Nat.div_eq_of_lt hflags, hrsvd]
  simp only [commDelete, if_neg hfields, hidle, Bool.false_eq_true, if_false]

end

/-! ### The step counter, the seeds and the digest log -/

section
variable {d : Dev} {q : Req}

theorem stepSet_of_quiet (hquiet : quiet d q.part = true) :
    stepSet q d = respondOk (d.modPart q.part fun x => { x with step := BitVec.ofNat 64 (le q.body 0 8) }) q [] := by
  rw [stepSet, if_neg (by simp [hquiet])]

theorem seedSet_of_quiet {put : Tbl U64 → Nat → Tbl U64} (hquiet : quiet d q.part = true) (hmask : le q.body 0 1 < 16)
    (hrsvd : le q.body 1 7 = 0)
    (hput : put = fun t i => if (le q.body 0 1).testBit i then tput t i (BitVec.ofNat 64 (le q.body (8 + 8 * i) 8)) else t) :
    seedSet q d = respondOk (d.modPart q.part fun x => { x with seeds := (List.range 4).foldl put x.seeds }) q [] := by
  subst hput
  have hfields : ¬ (le q.body 0 1 / 16 ≠ 0 ∨ le q.body 1 7 ≠ 0) := by simp [Nat.div_eq_of_lt hmask, hrsvd]
  rw [seedSet, if_neg hfields, if_neg (by simp [hquiet])]

/-- From a START that the log's counter has passed, the entries kept are the newest ones. -/
theorem digestRead_of_passed {log : List DigestEntry} {total kept : Nat} {all : List (Nat × DigestEntry)}
    (hmax : le q.body 20 4 ≤ 254) (hlog : log = (d.part q.part).dlog) (htotal : total = (d.part q.part).dlogWritten.toNat)
    (hstart : le q.body 16 4 ≤ total) (hkept : kept = min (total - le q.body 16 4) log.length)
    (hall : all = (log.drop (log.length - kept)).mapIdx fun i e => (i, e)) :
    digestRead q d = (let hits := (all.filter fun e =>
        decide (le q.body 0 8 ≤ e.2.step.toNat ∧ e.2.step.toNat ≤ le q.body 8 8)).take (le q.body 20 4)
      let next := if hits.length < le q.body 20 4 then total else match hits.getLast? with
        | some e => (2 ^ 32 + total - kept + (e.1 + 1)) % 2 ^ 32
        | none => (2 ^ 32 + total - kept) % 2 ^ 32
      respondOk d q (toLe 16 (packNat [(0, hits.length), (32, total - le q.body 16 4 - kept), (64, next)]) ++
        hits.flatMap fun e => digestBytes e.2)) := by
  subst hall hkept hlog htotal
  rw [digestRead, if_neg (Nat.not_lt.mpr hmax)]
  simp only [if_pos hstart]
  rfl

end

/-- Settles O51: an asked request is handed to its command, and each command passes its checks. -/
theorem tableCommandsComplete : Obligations.TableCommandsComplete := by
  unfold Obligations.TableCommandsComplete
  rintro r s q p rfl
  refine ⟨?_, ?_, ?_, ?_, ?_, ?_, ?_, ?_, ?_, ?_⟩
  · intro ver w n hasked hmap hver hflags hlow hhigh hw hn
    exact onReq_eq hasked (by rw [hmap]; rfl) (mapWindow_of_good hver hflags hlow hhigh hw hn)
  · intro w k hasked hunmap hk hnum hw hflags hlow hhigh hidle
    exact onReq_eq hasked hunmap (unmapWindow_of_idle hk hnum hw hflags hlow hhigh hidle)
  · intro k w g e hwin hrsvd hgen hg hlease
    exact ⟨fun hasked hlen hend => onReq_eq hasked rfl (readResult_of_published hwin hrsvd hgen hg hlease hlen hend),
      fun hasked => onReq_eq hasked rfl (releaseResult_of_published hwin hrsvd hgen hg hlease)⟩
  · intro x hasked hx hrsvd hgood hclosed
    exact onReq_eq hasked rfl (gateLoad_of_good hx hrsvd hgood hclosed)
  · intro n a src d bs hasked hn ha hsrc hsome hmax hrsvd hok hfrom hgood
    exact onReq_eq hasked rfl (eptUpdate_of_good hn ha hsrc hsome hmax hrsvd hok hfrom hgood)
  · intro cm d ms hasked hcreate hcm hflags hrsvd hsizes hok hsound hd hms htable hidle
    exact onReq_eq hasked (by rw [hcreate]; rfl)
      (commCreate_of_good hcm hflags hrsvd hsizes hok hsound hd hms htable hidle)
  · intro hasked hdelete hflags hrsvd hidle
    exact onReq_eq hasked hdelete (commDelete_of_idle hflags hrsvd hidle)
  · intro hasked hquiet
    exact onReq_eq hasked rfl (stepSet_of_quiet hquiet)
  · intro put hasked hquiet hmask hrsvd hput
    exact onReq_eq hasked rfl (seedSet_of_quiet hquiet hmask hrsvd hput)
  · intro log total kept all hasked hmax hlog htotal hstart hkept hall
    exact onReq_eq hasked rfl (digestRead_of_passed hmax hlog htotal hstart hkept hall)

end Sys2Proof.Machine
end

section
/-! Mailbox commands on the log, health, firmware, attestation, the manager and the registers (R453, R454, R471, R473, R482,
R491, R492, R499, R528, R530). -/

namespace Sys2Proof.Machine

/-! ### Log and health -/

section
variable {fu : Fuses} {d : Dev} {q : Req}

theorem logRead_of_max (hmax : le q.body 8 4 ≤ 254) : logRead q d = (let es := readLog d.log (le q.body 0 8) (le q.body 8 4)
    respondOk d q (toLe 16 (packNat [(0, es.length), (32, lostOf es), (64, logNext es (le q.body 0 8) % 2 ^ 64)]) ++
      es.flatMap entryBytes)) :=
  if_neg (Nat.not_lt.mpr hmax)

theorem healthQuery_of_sections (hsections : le q.body 0 4 < 512) :
    healthQuery fu q d = respondOk d q ((bitsSet 9 (le q.body 0 4)).flatMap (sectionBytes fu d)) :=
  if_neg (Nat.not_le.mpr hsections)

end

/-! ### Staged update -/

/-- An image that lies whole in a FIRMWARE window is staged or refused by its checks. -/
theorem fwStage_of_window {fu : Fuses} {d : Dev} {q : Req} {w : Window} {img : List Byte} (hfree : d.boot.commit = none)
    (hw : tget d.host.windows (winIdx 0 (le q.body 0 2)) = some w) (hkind : w.kind = .firmware) (hnum : le q.body 0 2 < 64)
    (hlen : le q.body 4 4 ≤ w.len) (hrsvd : le q.body 2 2 = 0)
    (himg : img = mread (tgetD d.host.staging (winIdx 0 (le q.body 0 2)) []) 0 (le q.body 4 4)) :
    (∀ why, fwCheck fu img = .inl why → fwStage q fu d = respondErr d q (stageStatus why)) ∧
    (∀ x, fwCheck fu img = .inr x → fwStage q fu d =
      respondOk { d with boot := { d.boot with staged := some x } } q (toLe 4 x.version.toNat)) := by
  subst himg
  have hfields : ¬ (w.kind ≠ .firmware ∨ le q.body 0 2 ≥ 64 ∨ le q.body 4 4 > w.len ∨ le q.body 2 2 ≠ 0) := by
    simp [hkind, hnum, hlen, hrsvd]
  have hidle : ¬ d.boot.commit.isSome = true := by simp [hfree]
  exact ⟨fun why hcheck => by simp only [fwStage, if_neg hidle, hw, if_neg hfields, hcheck],
    fun x hcheck => by simp only [fwStage, if_neg hidle, hw, if_neg hfields, hcheck]⟩

section
variable {s : State} {r : ReqId} {q : Req} {x : FwImage} {d : Dev}

/-- With no commit under way, FW_COMMIT of a staged image begins to write. -/
theorem fwCommit_of_staged (hasked : Asked s.dev r 0x71 q) (hnew : q.started = false) (hfree : s.dev.boot.commit = none)
    (hstaged : s.dev.boot.staged = some x) : fwCommit r s = commitBegin q x s := by
  obtain ⟨hfind, hcmd, hopen, hruns⟩ := hasked
  have hrunnable : runnable s.dev q = true := by simpa [hnew] using hruns
  simp only [fwCommit, hfree, hfind, hcmd, hrunnable, beq_self_eq_true, Bool.and_self, if_true, hstaged]

theorem commitBegin_of_ok (hsound : s.dev.boot.dramDefect = false) (hversion : x.version.toNat = le q.body 0 4)
    (hflags : le q.body 4 1 ≤ 1) (hd : d = { s.dev with boot := { s.dev.boot with commit := some (q, x) } }) :
    (commitResets s.dev q = false → commitBegin q x s = { s with
      fuses := { s.fuses with image := [] }
      dev := markStarted d q }) ∧
    (commitResets s.dev q = true → s.dev.parts.any (fun p => p.2.valid) = false → commitBegin q x s = { s with
      fuses := { s.fuses with image := [] }
      dev := respond { d with boot := { d.boot with
        resetAfter := some (q.id.session, ((findSession s.dev q.id.session).map (·.sndNext)).getD 0) } } q sAccepted 0xFFFF [] }) := by
  subst hd
  have hfields : ¬ (s.dev.boot.dramDefect = true ∨ x.version.toNat ≠ le q.body 0 4 ∨ le q.body 4 1 > 1) := by
    simp [hsound, hversion, hflags]
  refine ⟨fun hstay => ?_, fun hreset hempty => ?_⟩
  · rw [commitBegin, if_neg hfields, if_neg (by simp [hstay])]
  · rw [commitBegin, if_neg hfields, if_pos hreset, if_neg (by simp [hempty])]

/-- FW_COMMIT whose write is under way ends it. -/
theorem fwCommit_of_writing (hcommit : s.dev.boot.commit = some (q, x)) (hid : q.id = r) : fwCommit r s = commitEnd q x s := by
  simp only [fwCommit, hcommit, if_pos hid]

end

/-! ### Attestation -/

theorem onReqS_of_asked {s : State} {r : ReqId} {cmd : Nat} {q : Req} (hasked : Asked s.dev r cmd q) (f : Req → State → State) :
    onReqS r cmd f s = .next (f q s) := by
  obtain ⟨hfind, hcmd, hopen, hruns⟩ := hasked
  simp only [onReqS, hfind, hcmd, hopen, hruns, beq_self_eq_true, Bool.not_false, Bool.and_self, if_true]

theorem attest_of_leaf {s t : State} {q : Req} {w : Window} {leaf : Nat} {blob : List Byte}
    (hw : tget s.dev.host.windows (winIdx 0 (le q.body 32 2)) = some w) (hkind : w.kind = .host) (hnum : le q.body 32 2 < 64)
    (hblob : blob = logBlob s.fuses s.dev.boot) (hfits : blob.length + 2828 ≤ w.len) (hleaf : takeLeaf s = some (leaf, t)) :
    attest q s = t.putDev (
      let sign := identitySignature t.fuses leaf (attestMsg q s.dev blob)
      respondOk (attestWrites t.dev q w.addr (blob ++ sign)) q (toLe 8 (packNat [(0, blob.length), (32, 2828)]))) := by
  subst hblob
  have hfields : ¬ (w.kind ≠ .host ∨ le q.body 32 2 ≥ 64) := by simp [hkind, hnum]
  simp only [attest, hw, if_neg hfields, if_neg (Nat.not_lt.mpr hfits), hleaf, State.putDev]

/-! ### The manager -/

section
variable {d : Dev} {q : Req}

theorem managerAssign_of_ok {role first n : Nat} {peer : DevId} (hrole : role = le q.body 0 1) (hfirst : first = le q.body 1 1)
    (hn : n = le q.body 2 1) (hrsvd : le q.body 3 1 = 0) (hpeer : peer = BitVec.ofNat 16 (le q.body 4 2))
    (hok : roleOk d role first n peer = true) :
    managerAssign q d = (let v : U64 := if role = 0 then 0 else pack 64 [(0, role), (4, first), (8, n), (16, peer.toNat)]
      respondOk { d with mgr := { d.mgr with
        scm := merge scmMask d.mgr.scm v, active := false, heard := false, sent := false } } q []) := by
  subst hrole hfirst hn hpeer
  have hallowed : ¬ (!roleOk d (le q.body 0 1) (le q.body 1 1) (le q.body 2 1) (BitVec.ofNat 16 (le q.body 4 2))) = true := by
    rw [hok]
    decide
  rw [managerAssign, if_neg (fun h => h hrsvd), if_neg hallowed]
  by_cases hnone : le q.body 0 1 = 0
  · rw [if_pos hnone]
    simp only [if_pos hnone]
  · rw [if_neg hnone]
    simp only [if_neg hnone]

theorem jobLaunch_of_ok (hman : isManager d = true) (hrsvd : le q.body 12 4 = 0)
    (hspec : specOk d (BitVec.ofNat 64 (le q.body 0 8)) (q.body.drop 16) = true) :
    jobLaunch q d = (let e := accept d q
      launchStart { e with mgr := { e.mgr with jobs := e.mgr.jobs ++ [newJob q d] } } (BitVec.ofNat 64 (le q.body 0 8))) := by
  have hfields : ¬ (le q.body 12 4 ≠ 0 ∨ (!specOk d (BitVec.ofNat 64 (le q.body 0 8)) (q.body.drop 16)) = true) := by
    simp [hrsvd, hspec]
  rw [jobLaunch, if_neg (by simp [hman]), if_neg hfields]

section
variable (hnew : q.started = false) (hman : isManager d = true) (hblock : inBlock d (fdDev q.body) = true)
include hnew hman hblock

theorem fenceDevice_of_block (hfence : le q.body 2 1 = 0) :
    fenceDevice q d = jobsLose (escalate (fenceAsk (dropSpare (markStarted d q) (fdDev q.body)) (fdDev q.body) false (some q.id))
      (fdDev q.body) true) (fdDev q.body) d.time.now := by
  have hfields : ¬ (le q.body 2 1 > 1 ∨ (!inBlock d (fdDev q.body)) = true) := by simp [hfence, hblock]
  rw [fenceDevice, if_neg (by simp [hnew]), if_neg (by simp [hman]), if_neg hfields]

theorem fenceRejoin_of_block (hrejoin : le q.body 2 1 = 1) :
    fenceRejoin q d = (let e := addSpare (markStarted d q) (fdDev q.body)
      fenceAsk { e with rec_ := { e.rec_ with lost := e.rec_.lost.filter (· != fdDev q.body) } } (fdDev q.body) true (some q.id)) := by
  have hfields : ¬ (le q.body 2 1 > 1 ∨ (!inBlock d (fdDev q.body)) = true) := by simp [hrejoin, hblock]
  rw [fenceRejoin, if_neg (by simp [hnew]), if_neg (by simp [hman]), if_neg hfields]

end
end

/-! ### Registers -/

/-- The write of the k-th register from address a on, of values that stand in bs from o on. -/
def writeRegAt (bs : List Byte) (o a : Nat) (d : Dev) (k : Nat) : Dev :=
  match regAt (a + 8 * k) with
  | some x => regWriteLog d x (BitVec.ofNat 64 (le bs (o + 8 * k) 8))
  | none => d

theorem writeRegAt_succ (bs : List Byte) (o a : Nat) (d : Dev) (k : Nat) :
    writeRegAt bs o a d (k + 1) = writeRegAt bs (o + 8) (a + 8) d k := by
  have ha : a + 8 * (k + 1) = a + 8 + 8 * k := by omega
  have ho : o + 8 * (k + 1) = o + 8 + 8 * k := by omega
  rw [writeRegAt, writeRegAt, ha, ho]

/-- One register is written from each 8 bytes, in order. -/
theorem writeRegs_cons (b : List Byte) (bs : List (List Byte)) (a : Nat) (d : Dev) :
    writeRegs (b :: bs) a d = writeRegs bs (a + 8) (match regAt a with
      | some r => regWriteLog d r (BitVec.ofNat 64 (leNat b))
      | none => d) := by
  cases h : regAt a <;> simp only [writeRegs, h]

theorem writeRegs_chunksFuel {n f o : Nat} {bs : List Byte} (hlen : (bs.drop o).length = 8 * n) (hfuel : n < f) (a : Nat) (d : Dev) :
    writeRegs (chunksFuel 8 f (bs.drop o)) a d = (List.range n).foldl (writeRegAt bs o a) d := by
  induction n generalizing f o a d with
  | zero =>
    rw [List.length_eq_zero_iff.mp hlen]
    cases f <;> rfl
  | succ n ih =>
    obtain ⟨f, rfl⟩ : ∃ g, f = g + 1 := ⟨f - 1, by omega⟩
    have hdrop : (bs.drop (o + 8)).length = 8 * n := by
      rw [List.length_drop] at hlen ⊢
      omega
    have hchunk : chunksFuel 8 (f + 1) (bs.drop o) = (bs.drop o).take 8 :: chunksFuel 8 f (bs.drop (o + 8)) := by
      obtain ⟨b, cs, hcons⟩ := List.exists_cons_of_length_pos (l := bs.drop o) (by omega)
      rw [← List.drop_drop, hcons]
      rfl
    rw [hchunk, writeRegs_cons, ih hdrop (by omega), List.range_succ_eq_map, List.foldl_cons, List.foldl_map]
    simp only [writeRegAt_succ]
    rfl

theorem regWriteCmd_of_ok {q : Req} {d : Dev} (hok : regRangeOk q.body = true) (hlen : q.body.length = 16 + 8 * le q.body 8 2) :
    regWriteCmd q d = respondOk ((List.range (le q.body 8 2)).foldl (writeRegAt q.body 16 (le q.body 0 8)) d) q [] := by
  have hbytes : (q.body.drop 16).length = 8 * le q.body 8 2 := by rw [List.length_drop, hlen]; omega
  rw [regWriteCmd, if_neg (by simp [hok]), chunks, writeRegs_chunksFuel hbytes (by omega)]

theorem regRead_of_ok {fu : Fuses} {q : Req} {d : Dev} (hok : regRangeOk q.body = true) :
    regRead fu q d = (let y := readRegs fu (le q.body 8 2) (le q.body 0 8) d
      respondOk y.2 q y.1) := by
  rw [regRead, if_neg (by simp [hok])]

/-- Settles O52: an asked request is handed to its command, and each command passes its checks. -/
theorem serviceCommandsComplete : Obligations.ServiceCommandsComplete := by
  unfold Obligations.ServiceCommandsComplete
  intro r s q
  refine ⟨?_, ?_, ?_, ?_, ?_, ?_, ?_, ?_, ?_, ?_, ?_⟩
  · exact fun hasked hmax => onReq_eq hasked rfl (logRead_of_max hmax)
  · exact fun hasked hsections => onReqF_eq hasked rfl (healthQuery_of_sections hsections)
  · intro w img hasked hfree hw hkind hnum hlen hrsvd himg
    obtain ⟨hrefused, hstaged⟩ := fwStage_of_window (fu := s.fuses) hfree hw hkind hnum hlen hrsvd himg
    refine onReqF_eq (f := fun fu q d => fwStage q fu d) hasked rfl ?_
    cases hcheck : fwCheck s.fuses img with
    | inl why => exact hrefused why hcheck
    | inr x => exact hstaged x hcheck
  · intro x d hasked hnew hfree hstaged hsound hversion hflags hd
    obtain ⟨hstays, hresets⟩ := commitBegin_of_ok hsound hversion hflags hd
    have hbegin : exec (.fwCommit r) s = .next (commitBegin q x s) :=
      congrArg _ (fwCommit_of_staged hasked hnew hfree hstaged)
    exact ⟨fun hstay => by rw [hbegin, hstays hstay], fun hreset hempty => by rw [hbegin, hresets hreset hempty]⟩
  · intro x d hcommit hid hd
    have hend : exec (.fwCommit r) s = .next (commitEnd q x s) := congrArg _ (fwCommit_of_writing hcommit hid)
    exact ⟨fun hstay => by rw [hend, commitEnd, ← hd, if_neg (by simp [hstay])],
      fun hreset => by rw [hend, commitEnd, ← hd, if_pos hreset]⟩
  · intro w leaf t blob hasked hw hkind hnum hblob hfits hleaf
    exact (onReqS_of_asked hasked attest).trans (congrArg _ (attest_of_leaf hw hkind hnum hblob hfits hleaf))
  · intro role first n peer hasked hrole hfirst hn hrsvd hpeer hok
    exact onReq_eq hasked rfl (managerAssign_of_ok hrole hfirst hn hrsvd hpeer hok)
  · exact fun hasked hman hrsvd hspec => onReq_eq hasked rfl (jobLaunch_of_ok hman hrsvd hspec)
  · intro hasked hnew hman hblock
    exact ⟨fun hfence => onReq_eq hasked (by simp [isRejoin, hfence]) (fenceDevice_of_block hnew hman hblock hfence),
      fun hrejoin => onReq_eq hasked (by simp [isRejoin, hrejoin]) (fenceRejoin_of_block hnew hman hblock hrejoin)⟩
  · exact fun hasked hok => onReqF_eq hasked rfl (regRead_of_ok hok)
  · exact fun hasked hok hlen => onReq_eq hasked rfl (regWriteCmd_of_ok hok hlen)

/-! ### A written register -/

/-- An answered request leaves of every partition all but the level of its Weirs. -/
theorem respondOk_part_keeps {α : Type} (d : Dev) (q : Req) (b : List Byte) (p : Nat) (g : Part → α)
    (hg : ∀ (x : Part) l, g { x with weirLevel := l } = g x) : g ((respondOk d q b).part p) = g (d.part p) := by
  unfold respondOk respond
  split
  · rfl
  · unfold sendResp sendMail
    dsimp only
    split
    · rw [Dev.part, sendSeq_parts]
      rfl
    · rw [Dev.part, sendSeq_parts]
      exact part_modPart_keeps _ _ p g fun x => hg x _

theorem regWriteLog_schWeight {d : Dev} {p : Nat} {v : U64} (hp : p < 16) (hv : fld v 7 0 ≠ 0) :
    regWriteLog d (.schWeight p) v = d.modPart p fun x => { x with weight := fld v 7 0 } := by
  have hlow : fld (v.setWidth 32) 7 0 = fld v 7 0 := by
    rw [fld, BitVec.toNat_setWidth, nfld_mod_two_pow_low _ _ (by decide), fld]
  simp [regWriteLog, regWrite, regOk, hp, hlow, hv]

theorem regWriteLog_weirRate {d : Dev} {p : Nat} {v : U64} (hp : p < 16) :
    regWriteLog d (.weirRate p) v = d.modPart p fun x => { x with weirRate := v } := by
  simp [regWriteLog, regWrite, regOk, hp]

/-- Settles O53: REG_WRITE writes the register and is answered, whatever partitions exist. -/
theorem regWriteBypassesCommandChecks : Obligations.RegWriteBypassesCommandChecks := by
  unfold Obligations.RegWriteBypassesCommandChecks
  intro r s q x v hasked hlen hone hok hx hv _
  have hwritten : regWriteCmd q s.dev = respondOk (regWriteLog s.dev x v) q [] := by
    rw [regWriteCmd_of_ok hok (by rw [hlen, hone]), hone, hv]
    simp only [List.range_one, List.foldl_cons, List.foldl_nil, writeRegAt, Nat.mul_zero, Nat.add_zero, hx]
  have hexec : exec (.regWrite r) s = .next (s.putDev (respondOk (regWriteLog s.dev x v) q [])) :=
    onReq_eq hasked rfl hwritten
  refine ⟨hexec, fun p hp _ => ⟨_, hexec, ?_, ?_⟩⟩
  · rintro rfl hweight
    exact (respondOk_part_keeps _ q [] p Part.weight fun _ _ => rfl).trans (by
      rw [regWriteLog_schWeight hp hweight, Dev.part_modPart])
  · rintro rfl
    exact (respondOk_part_keeps _ q [] p Part.weirRate fun _ _ => rfl).trans (by
      rw [regWriteLog_weirRate hp, Dev.part_modPart])

end Sys2Proof.Machine
end

section
/-! Resets, power, the sideband, boot and the governor (R454, R485 to R487, R502 to R507, R511 to R513, R527). -/

namespace Sys2Proof.Machine

/-! ### What a reset loses -/

/-- A reset with this LAST_RESET has left the fuses, the image and the flash blocks, and lost the rest (R485). -/
def LostAll (s : State) (k : Nat) (t : State) : Prop :=
  t.fuses = { s.fuses with lastReset := k } ∧ t.dev.parts = [] ∧ t.dev.host.sessions = [] ∧ t.dev.host.windows = [] ∧
  t.dev.host.reqs = [] ∧ t.dev.log.dram = [] ∧ t.dev.log.sram = [] ∧ t.dev.mem.dram = [] ∧ t.dev.cst.sram = [] ∧
  (∀ n, (t.dev.core n).sram = []) ∧ t.dev.time.now = 0 ∧ t.dev.boot.stage = .rom ∧
  ∀ k, readBlock t.dev.ftl k = readBlock s.dev.ftl k

/-- The change to a device that a restart makes touches the held input and the power controller alone. -/
def InputsOnly (g : Dev → Dev) : Prop :=
  ∀ d, g d = { d with boot := { d.boot with held := (g d).boot.held }, pwr := (g d).pwr }

theorem restart_lostAll (s : State) (k : Nat) {g : Dev → Dev} (hg : InputsOnly g) : LostAll s k (restart s k g) := by
  unfold LostAll restart
  dsimp only
  rw [hg]
  refine ⟨rfl, rfl, rfl, rfl, rfl, rfl, rfl, rfl, rfl, fun n => ?_, rfl, rfl, fun _ => rfl⟩
  exact tgetD_of_forall (P := fun c : Core => c.sram = []) n (fun _ hc => sram_of_mem_resetCores (g := s.fuses.grade) hc) rfl

theorem powerOff_lostAll (s : State) (k : Nat) (off : OffCause) : LostAll s k (powerOff s k off) :=
  restart_lostAll s k fun _ => rfl

/-- EPO_N turns low while the rails are off for no cause. -/
theorem epoLow_of_on {s : State} (hon : s.dev.pwr.off = none) :
    epoLow s = powerOff { s with dev := { s.dev with pwr := { s.dev.pwr with epoLow := true } } } 4 .epo := by
  simp only [epoLow, hon]

/-- Settles O54: each of the resets is a restart, and a restart rebuilds the device from the fuses and the flash. -/
theorem everyResetIsFull : Obligations.EveryResetIsFull := by
  unfold Obligations.EveryResetIsFull
  intro s
  dsimp only
  refine ⟨fun hfree hon => ?_, ⟨_, rfl, powerOff_lostAll s 0 _, rfl⟩, fun hon => ⟨?_, ?_⟩, fun hdone hacked => ?_⟩
  · let s' : State := { s with dev := inputSeen (· == .resetIn) s.dev }
    let hold (d : Dev) : Dev := { d with boot := { d.boot with held := true }, pwr := { d.pwr with rails := false } }
    have hexec : exec .resetInAssert s = .next (restart s' 1 hold) := by
      show execResetInAssert s = _
      simp [execResetInAssert, inputSeen, hfree, hon, s', hold]
    exact ⟨_, hexec, restart_lostAll s' 1 fun _ => rfl, rfl, rfl⟩
  · have hexec : exec .overVoltage s = .next (powerOff s 5 .overVoltage) := by
      show execOverVoltage s = _
      simp only [execOverVoltage, hon]
    exact ⟨_, hexec, powerOff_lostAll s 5 _, rfl, rfl⟩
  · let s' : State := { s with dev := inputSeen (· == .epo) s.dev }
    have hexec : exec .epoAssert s = .next (epoLow s') := rfl
    exact ⟨_, hexec.trans (congrArg _ (epoLow_of_on (s := s') hon)), powerOff_lostAll _ 4 _, rfl, rfl⟩
  · have hexec : exec .fwCommitReset s = .next (restart s 2 id) := by
      show execFwCommitReset s = _
      simp [execFwCommitReset, hdone, hacked]
    exact ⟨_, hexec, restart_lostAll s 2 fun _ => rfl⟩

/-! ### The input and the sideband -/

section
variable {s : State} {d : Dev}

theorem resetHigh_of_held (hheld : d.boot.held = true) :
    resetHigh d = { d with boot := { d.boot with held := false }, pwr := { d.pwr with rails := d.pwr.off.isNone } } := by
  simp [resetHigh, hheld]

/-- The rails come back when the wait for the input is over, unless EPO or a thermal trip holds them off. -/
theorem exec_inputStable_of_waiting {o : OffCause} (hoff : s.dev.pwr.off = some o) (hepo : o ≠ .epo) (htrip : o ≠ .thermalTrip) :
    exec .inputStable s = .next (s.putDev (powerOn s.dev)) := by
  show execInputStable s = _
  refine onDev_eq ?_
  simp only [hoff]
  cases o with
  | epo => exact absurd rfl hepo
  | thermalTrip => exact absurd rfl htrip
  | brownOut => rfl
  | overVoltage => rfl
  | stable => rfl

theorem exec_lowInput_of_entry {vin : Nat} (hlo : 400 ≤ vin) (hhi : vin < 440) (hrails : s.dev.pwr.rails = true)
    (hfirst : s.dev.pwr.lowInput = false) :
    exec (.lowInput vin) s = .next (s.putDev (logInput (pwrErr { s.dev with
      pwr := { s.dev.pwr with vin := vin, lowInput := true } } 0) sevWarning srcPwr 3 0 vin)) := by
  show execLowInput vin s = _
  exact onDev_eq (by simp [setVin, modPwr, hlo, hhi, hrails, hfirst])

/-- The device once a sideband input is found faulty: noted, counted and logged. -/
theorem execSidebandFault_of_new {i : Sideband} (hnew : i ∉ s.dev.pwr.faulty)
    (hd : d = logInput { pwrErr s.dev 3 with pwr := { (pwrErr s.dev 3).pwr with
      faulty := s.dev.pwr.faulty ++ [i], sbFault := true } } sevWarning srcPwr 1 (contactOf i) 0) :
    (i = .resetIn → execSidebandFault i s = .next (s.putDev (resetHigh d))) ∧
    (i = .epo → execSidebandFault i s = .next (epoLow (s.putDev d))) ∧
    (∀ b, i = .slotId b → execSidebandFault i s = .next (s.putDev d)) := by
  have hfirst : ¬ s.dev.pwr.faulty.contains i = true := by simpa using hnew
  subst hd
  refine ⟨?_, ?_, ?_⟩
  · rintro rfl
    exact if_neg hfirst
  · rintro rfl
    exact if_neg hfirst
  · rintro b rfl
    exact if_neg hfirst

theorem slotIdSample_of_agreed {v : BitVec 6} {a : List (BitVec 6)} (hrails : s.dev.pwr.rails = true)
    (hstage : s.dev.boot.stage = .rom) (hopen : s.dev.boot.slotFixed = false) (hsound : slotFaulty s.dev.pwr = false)
    (ha : lastN 3 (s.dev.boot.slotSamples ++ [v]) = a) (hagree : a = [v, v, v]) :
    slotIdSample v s.dev = { s.dev with
      boot := { s.dev.boot with slotSamples := a, slotFixed := true }, pwr := { s.dev.pwr with slot := v } } := by
  have hgoes : ¬ ((!s.dev.pwr.rails) = true ∨ s.dev.boot.stage ≠ .rom ∨ s.dev.boot.slotFixed = true) := by
    simp [hrails, hstage, hopen]
  rw [slotIdSample, if_neg hgoes, ha, hagree]
  simp [hsound]

end

/-- Settles O55: each event by the part's cause, its inputs and its boot stage. -/
theorem powerAndSidebandComplete : Obligations.PowerAndSidebandComplete := by
  unfold Obligations.PowerAndSidebandComplete
  intro s
  refine ⟨?_, ?_, ?_, ?_, ?_, ?_, ?_, ?_⟩
  · rintro d rfl hheld
    exact onDev_eq (resetHigh_of_held hheld)
  · exact fun o hoff hepo htrip => exec_inputStable_of_waiting hoff hepo htrip
  · rintro d rfl hlow hoff
    show execEpoDeassert s = _
    exact onDev_eq (by simp [inputSeen, hlow, hoff])
  · intro hhigh hoff
    show execTripCooled s = _
    exact onDev_eq (by simp [hhigh, hoff])
  · exact fun vin hlo hhi hrails hfirst => exec_lowInput_of_entry hlo hhi hrails hfirst
  · intro i d hnew hd
    obtain ⟨hresetIn, hepo, hslot⟩ := execSidebandFault_of_new hnew hd
    have hboot : d.boot = s.dev.boot := by rw [hd, logInput_boot]; rfl
    have hoff : d.pwr.off = s.dev.pwr.off := by rw [hd, logInput, logIt_pwr]; rfl
    refine ⟨?_, ?_, ?_, ?_⟩
    · exact hslot
    · exact fun hi hheld => (hresetIn hi).trans (congrArg _ (congrArg s.putDev (resetHigh_of_held (by rw [hboot, hheld]))))
    · intro hi hfree
      have hstays : resetHigh d = d := by simp [resetHigh, hboot, hfree]
      exact (hresetIn hi).trans (congrArg _ (congrArg s.putDev hstays))
    · exact fun hi hon => ⟨_, (hepo hi).trans (congrArg _ (epoLow_of_on (s := s.putDev d) (hoff.trans hon))), rfl, rfl⟩
  · exact fun v a hrails hstage hopen hsound ha hagree => onDev_eq (slotIdSample_of_agreed hrails hstage hopen hsound ha hagree)
  · rintro v d rfl
    exact ⟨fun hfixed => onDev_eq (if_pos hfixed),
      fun hopen => onDev_eq (if_neg (fun h => Bool.false_ne_true (hopen.symm.trans h)))⟩

/-! ### Boot, the governor and the end of a second -/

section
variable {s : State} {d : Dev}

theorem exec_bootStageDone_eq {o : StageOutcome} {t : State} (h : bootStageDone o s = t) :
    exec (.bootStageDone o) s = .next t := by
  rw [← h]
  rfl

theorem bootStageDone_of_rom (hrails : s.dev.pwr.rails = true) (hstage : s.dev.boot.stage = .rom)
    (hfixed : s.dev.boot.slotFixed = true) : bootStageDone .ok s =
      s.putDev (enterStage s.fuses .flashMount { s.dev with boot := { s.dev.boot with fwRegionOk := true } }) := by
  simp [bootStageDone, hrails, hstage, hfixed, State.putDev]

theorem governorTick_up (hrails : s.dev.pwr.rails = true) (hfree : s.dev.pwr.hold = false) (hmin : 120 ≤ s.dev.pwr.vcore)
    (hnone : exceeded s.dev.pwr = none) (hbelow : s.dev.pwr.vcore + 1 < fld s.dev.pwr.cfg 19 12) :
    governorTick s.dev = { s.dev with pwr := { s.dev.pwr with vcore := s.dev.pwr.vcore + 1 } } := by
  simp [governorTick, hrails, hfree, Nat.not_lt.mpr hmin, hnone, hbelow, modPwr]

theorem governorTick_down {l : Nat} (hrails : s.dev.pwr.rails = true) (hfree : s.dev.pwr.hold = false)
    (hmin : 120 ≤ s.dev.pwr.vcore) (hl : exceeded s.dev.pwr = some l) (habove : 120 < s.dev.pwr.vcore) :
    governorTick s.dev = { s.dev with pwr := { s.dev.pwr with
      vcore := min (fld s.dev.pwr.cfg 19 12) (s.dev.pwr.vcore - 1), limit := l } } := by
  simp [governorTick, hrails, hfree, Nat.not_lt.mpr hmin, hl, habove.ne', modPwr]

/-- A second in which nothing was left out ends without an entry. -/
theorem foldl_logSuppressed_of_none {rs : List LogRate} (hrs : ∀ r ∈ rs, r.left = 0) : rs.foldl logSuppressed d = d := by
  induction rs with
  | nil => rfl
  | cons r rs ih =>
    rw [List.foldl_cons, logSuppressed, if_pos (hrs r List.mem_cons_self)]
    exact ih fun x hx => hrs x (List.mem_cons_of_mem _ hx)

end

/-- Settles O56: a boot stage by the stage under way and its outcome, the governor by the limit exceeded. -/
theorem bootAndGovernorComplete : Obligations.BootAndGovernorComplete := by
  unfold Obligations.BootAndGovernorComplete
  intro s
  refine ⟨fun hrails => ⟨?_, ?_, ?_, ?_, ?_, ?_, ?_, ?_⟩, ?_⟩
  · exact fun hstage hfixed => exec_bootStageDone_eq (bootStageDone_of_rom hrails hstage hfixed)
  · exact fun hstage => exec_bootStageDone_eq (by simp [bootStageDone, hrails, hstage, State.putDev])
  · intro hstage
    exact ⟨exec_bootStageDone_eq (by simp [bootStageDone, hrails, hstage, State.putDev]),
      fun rows banks => exec_bootStageDone_eq (by simp [bootStageDone, hrails, hstage, State.putDev]),
      exec_bootStageDone_eq (by simp [bootStageDone, hrails, hstage, State.putDev])⟩
  · exact fun hstage => exec_bootStageDone_eq (by simp [bootStageDone, hrails, hstage, State.putDev])
  · exact fun hstage hlink => exec_bootStageDone_eq (by simp [bootStageDone, hrails, hstage, hlink, State.putDev])
  · intro x htrips
    have hexec : exec (.sensorSample x) s = .next (powerOff s 3 .thermalTrip) := by
      show execSensorSample x s = _
      simp [execSensorSample, hrails, htrips]
    exact ⟨_, hexec, rfl, rfl, rfl⟩
  · intro x hcool
    show execSensorSample x s = _
    simp [execSensorSample, hrails, hcool, State.putDev]
  · intro hfree hmin
    exact ⟨fun hnone hbelow => onDev_eq (governorTick_up hrails hfree hmin hnone hbelow),
      fun l hl habove => onDev_eq (governorTick_down hrails hfree hmin hl habove)⟩
  · intro d hd
    have hsecond : exec .logRateSecond s = .next (s.putDev (s.dev.log.rates.foldl logSuppressed d)) :=
      onDev_eq (by rw [logRateSecond, hd])
    exact ⟨hsecond, fun hnone => by rw [hsecond, foldl_logSuppressed_of_none hnone]⟩

end Sys2Proof.Machine
end

section
/-! Writes of the device registers (R9 to R12): one-to-clear flags, read-only registers, and values that are ignored. -/

namespace Sys2Proof.Machine

section
variable {s : State} {d e : Dev} {r : Reg} {v : U64}

/-- A write that the register takes. -/
theorem exec_registerWrite_of_taken (hrails : s.dev.pwr.rails = true) (h : regWrite s.dev r v = some e) :
    exec (.registerWrite r v) s = .next (s.putDev e) := by
  rw [exec_registerWrite_of_rails r v hrails, regWriteLog, h, Option.getD_some]

/-- A write that it does not take is ignored and logged. -/
theorem exec_registerWrite_of_ignored (hrails : s.dev.pwr.rails = true) (h : regWrite s.dev r v = none) :
    exec (.registerWrite r v) s = .next (s.putDev (logIgnored s.dev (regSource r) r v.toNat)) := by
  rw [exec_registerWrite_of_rails r v hrails, regWriteLog, h, Option.getD_none]

/-- The status registers and error counters: a write leaves the device as it is. -/
theorem regWrite_of_readOnly (i : Nat) : ∀ r ∈ [Reg.slcStatus, .rmStatus, .rmFenced, .rillStatus, .memStatus, .ftlStatus,
    .recovStatus, .hostStatus, .bootStatus, .bootKeys, .pwrStatus, .pwrTherm, .logStatus, .slcErr i, .fabErr i, .rmErr i,
    .rillErr i, .memErr i, .ftlErr i, .cstErr i, .dmaErr i, .schErr i, .hostErr i, .pwrErr i, .logErr i, .grdErr (i / 4) (i % 4)],
    regWrite d r v = some d := by
  simp only [List.forall_mem_cons, regWrite, ite_self]
  simp

/-- A written 1 of a flag register clears its bit, and the write touches nothing else. -/
theorem regWrite_flags {p : Nat} (hp : p < 16) :
    regWrite d (.partArith p) v = some (d.modPart p fun x => { x with arith := x.arith &&& ~~~BitVec.ofNat 32 v.toNat }) ∧
    regWrite d (.gateFlags p) v = some (d.modPart p fun x => { x with gateFlags := x.gateFlags &&& ~~~BitVec.ofNat 32 v.toNat }) ∧
    regWrite d (.slcFlags p) v = some (d.modPart p fun x => { x with slcFlags := x.slcFlags &&& ~~~BitVec.ofNat 32 v.toNat }) ∧
    regWrite d (.rillFlags p) v = some (d.modPart p fun x => { x with rillFlags := x.rillFlags &&& ~~~BitVec.ofNat 32 v.toNat }) ∧
    regWrite d (.grdFlags p) v = some (d.modPart p fun x => { x with grdFlags := x.grdFlags &&& ~~~BitVec.ofNat 32 v.toNat }) := by
  have hthere : (!decide (p < 16)) = false := by simp [hp]
  simp only [regWrite, regOk, hthere, Bool.false_eq_true, if_false, and_self]

end

/-! ### GRD_CFG -/

section
variable {d : Dev} {p : Nat} {v : U64}

theorem grdCfgWrite_of_badQueue (hp : p < 16) (hbad : fld v 14 8 = 0 ∨ 64 < fld v 14 8) :
    grdCfgWrite p v d = logIgnored d srcGrd (.grdCfg p) v.toNat := by
  rw [grdCfgWrite, if_neg (Nat.not_le.mpr hp), if_pos hbad]

/-- With a task present the setting waits for the step boundary. -/
theorem grdCfgWrite_of_task (hp : p < 16) (hlo : 1 ≤ fld v 14 8) (hhi : fld v 14 8 ≤ 64)
    (htask : noTasks (d.modPart p fun x => { x with grdCfgNext := some (merge grdCfgMask 0 v) }) p = false) :
    grdCfgWrite p v d = d.modPart p fun x => { x with grdCfgNext := some (merge grdCfgMask 0 v) } := by
  have hgood : ¬ (fld v 14 8 = 0 ∨ fld v 14 8 > 64) := by omega
  rw [grdCfgWrite, if_neg (Nat.not_le.mpr hp), if_neg hgood, grdNoTasks, if_neg (by rw [htask]; exact Bool.false_ne_true)]

end

/-- Settles O59: each register's write by the value's fields. -/
theorem registerWritesComplete : Obligations.RegisterWritesComplete := by
  unfold Obligations.RegisterWritesComplete
  refine ⟨fun p v s hrails hp => ?_, fun v s hrails => ⟨fun i r hr => ?_, fun hover => ?_, fun hchunk => ?_, fun hrate => ?_⟩⟩
  · obtain ⟨harith, hgate, hslc, hrill, hgrd⟩ := regWrite_flags (d := s.dev) (v := v) hp
    dsimp only
    refine ⟨exec_registerWrite_of_taken hrails harith, exec_registerWrite_of_taken hrails hgate,
      exec_registerWrite_of_taken hrails hslc, exec_registerWrite_of_taken hrails hrill,
      exec_registerWrite_of_taken hrails hgrd, fun hzero => ?_, fun hzero => ?_, fun hbad => ?_, fun hlo hhi htask => ?_⟩
    · exact exec_registerWrite_of_ignored hrails (by simp only [regWrite, regOk, hp, hzero]; rfl)
    · exact exec_registerWrite_of_ignored hrails (by simp only [regWrite, regOk, hp, hzero]; rfl)
    · exact onLive_eq hrails (grdCfgWrite_of_badQueue hp hbad)
    · exact onLive_eq hrails (grdCfgWrite_of_task hp hlo hhi htask)
  · exact exec_registerWrite_of_taken (e := s.dev) hrails (regWrite_of_readOnly i r hr)
  · exact exec_registerWrite_of_ignored hrails (if_pos hover)
  · exact exec_registerWrite_of_ignored hrails (if_pos hchunk)
  · exact exec_registerWrite_of_ignored hrails (if_pos (.inr (.inr hrate)))

end Sys2Proof.Machine
end
